-- ==== Sys2Proof/Word.lean ====
section
/-! DEFINITION. The word types of the EK-192 and their plainest arithmetic (R6, R7, R10). -/

namespace Sys2Proof

abbrev Byte := BitVec 8
abbrev W32 := BitVec 32
abbrev W64 := BitVec 64
abbrev W256 := BitVec 256
abbrev W512 := BitVec 512

/-- Register numbers, as wide as the fields that carry them (R28). -/
abbrev SReg := BitVec 6
abbrev HReg := BitVec 5
abbrev VReg := BitVec 5
abbrev KReg := BitVec 3
abbrev TReg := BitVec 4
abbrev AReg := BitVec 2
abbrev QReg := BitVec 3
abbrev CellNo := BitVec 11

/-- A partition number, 0–15 (R299). -/
abbrev PartNo := BitVec 4

end Sys2Proof
end

