-- ==== Sys2Proof/Syntax.lean ====
section
/-! DEFINITION. The instructions and events of the EK-192: one constructor per row of spec/opcode_table.json.
Operands are named by the fields of R27 and R29; an immediate is the value after any PFX.IMM (R44). -/

namespace Sys2Proof

/-- Why a fetched group is defective (R26): an encoding defect, or a breach of the rules of R46 for groups. -/
inductive Defect where
  | illegal
  | breach
deriving DecidableEq, Repr, Inhabited

/-- Condition codes (R32). -/
inductive Cond where
  | eq | ne | lt | ge | ltu | geu | le | gt | leu | gtu | any | none
deriving DecidableEq, Repr, Inhabited

/-- Test codes of cells (R33). -/
inductive Test where
  | ge | eq | ne | lt | gt | le | ph
deriving DecidableEq, Repr, Inhabited

/-- Ordering qualifiers (R34). -/
inductive Ord where
  | plain | acq | rel | ar
deriving DecidableEq, Repr, Inhabited

/-- Size codes (R35). -/
inductive Size where
  | b | h | w | d
deriving DecidableEq, Repr, Inhabited

/-- Type codes (R30). -/
inductive Ty where
  | f32 | bf16 | f16 | e4m3 | e5m2 | mxe4m3 | mxf4 | i8 | ui8 | i4 | i32 | f4
deriving DecidableEq, Repr, Inhabited

/-- The two lane types of vector arithmetic (R30: codes 0 and 10). -/
inductive LaneTy where
  | f32 | i32
deriving DecidableEq, Repr, Inhabited

/-- Rounding codes (R31). -/
inductive Rnd where
  | rne | rz | rdn | rup | rns
deriving DecidableEq, Repr, Inhabited

/-- Fence scopes (R35). -/
inductive Scope where
  | tile | clu | die | pkg | sys
deriving DecidableEq, Repr, Inhabited

/-- The operations of VREDR and VREDC (R169). -/
inductive RedOp where
  | add | max | min
deriving DecidableEq, Repr, Inhabited

/-- The control registers of R36; LINKLAT carries the link number of bits [23:18]. -/
inductive CtlReg where
  | cyc | budg | lc | rb | mstat | tstat
  | finfo (n : BitVec 2)
  | linklat (link : BitVec 6)
  | tcfg (t : TReg)
deriving DecidableEq, Repr, Inhabited

/-- The cell operand of SI-C (R29): an own cell by number, or a cell whose window address a scalar holds. -/
inductive CellRef where
  | own (c : CellNo)
  | remote (sb : SReg)
deriving DecidableEq, Repr, Inhabited

/-- The wait, signal and phase-hold fields of an engine command, amounts included (R41, R45). -/
structure Eng where
  wait : Option (CellNo × BitVec 20)
  sig  : Option (CellNo × BitVec 20)
  hold : Bool
deriving DecidableEq, Repr, Inhabited

/-- The target of MDRAIN (R202). -/
inductive DrainTo where
  | tile (t : TReg)
  | handle (h : HReg)
deriving DecidableEq, Repr, Inhabited

/-- The reduction codes of REDA (R37, R271). -/
inductive RedaOp where
  | iadd | imin | imax | and | or | xor | fadd | bfadd | fmin | fmax
deriving DecidableEq, Repr, Inhabited

/-- The fault names of R350. -/
inductive FaultName where
  | progIllegal | progPfx | progResource | progAlign | progAddr | progBounds | progStack | progLoop
  | progCeil | progCellcfg | progCellmode | progJoin | progRecord
  | progTbusy | progTshape | progMeta | progLockmiss | progCarg
  | progSwctx | progSwarg | progSwq | progSwimg | progWarg | progWregion
  | progBreak | progFans
  | xlatMiss | isoWindow | isoPeer
  | hwPoison | hwCrc | hwAbft
  | linkStall | linkDown
deriving DecidableEq, Repr, Inhabited

/-- The embedded controllers whose firmware can be replaced (R374). -/
inductive Controller where
  | management
  | security
  | linkFirmware (south : Bool)
  | programming (die : BitVec 2)
  | dispatcher (die : BitVec 2)
deriving DecidableEq, Repr, Inhabited

/-- TDISP states of a virtual function (R388). -/
inductive Tdisp where
  | unlocked | configLocked | run | error
deriving DecidableEq, Repr, Inhabited

/-- An operation on a cell (R89–R91, R234). -/
inductive CellOp where
  | sig (v : W32)
  | arrive
  | cset (v : W32)
  | ccfg (w : W64)
  | cclr
  | crd
  | wait (t : Test) (v : W32)
  | take (v : W32)
  | tryTake (v : W32)
deriving DecidableEq, Repr, Inhabited

/-- What a peer's request asks for (R94, R235, R279, R394): an access, a cell operation under the issuer's tag (`once` for a
limit of zero) or its cancel, or the continuation that follows a PUTC payload. -/
inductive PeerOp where
  | load (size : Nat)
  | store (size : Nat) (data : W256)
  | atomic (op : Nat) (size : Nat) (data : W64) (cmp : W64)
  | cell (tag : Nat) (op : CellOp) (once : Bool)
  | cancel (tag : Nat)
  | putc (record : W512)
deriving DecidableEq, Repr, Inhabited

/-- A request from a peer package (R394): the issuing package and tile, the destination peer number, the ports already crossed,
the issuing partition and the offset. -/
structure PeerReq where
  src    : BitVec 6
  tile   : BitVec 8
  dest   : BitVec 6
  hops   : Nat
  part   : PartNo
  offset : BitVec 57
  op     : PeerOp
deriving DecidableEq, Repr, Inhabited

/-- The configuration and control registers without behaviour of their own (R8), each by the rule that names it. -/
inductive CfgReg where
  | lqbase (die : BitVec 2) (p : PartNo) (l : BitVec 3)
  | lqsize (die : BitVec 2) (p : PartNo) (l : BitVec 3)
  | lqstat (die : BitVec 2) (p : PartNo) (l : BitVec 3)
  | sqbase (die : BitVec 2) (p : PartNo) (l : BitVec 3)
  | sqsize (die : BitVec 2) (p : PartNo) (l : BitVec 3)
  | swshare (die : BitVec 2) (p : PartNo)
  | ptroot (unit : BitVec 3) (p : PartNo)
  | cxbase (die : BitVec 2) (p : PartNo)
  | cxcount (die : BitVec 2) (p : PartNo)
  | xstat (unit : BitVec 3)
  | pwrshare (die : BitVec 2)
  | fhold (t : Nat)
  | tslice (t : Nat)
  | proster (p : PartNo)
  | hport (p : PartNo)
  | drstall (p : PartNo)
  | fqbase (p : PartNo)
  | fqsize (p : PartNo)
  | fqvec (p : PartNo)
  | fqstat (p : PartNo)
  | rtbase (p : PartNo)
  | rtcount (p : PartNo)
  | rtstat (p : PartNo)
  | pkgid
  | vroute (n : BitVec 6)
  | swshadow (link : Nat) (s : BitVec 9)
  | swstat (link : Nat)
  | herr (p : PartNo)
deriving DecidableEq, Repr, Inhabited

/-- The instructions (encoded words) and the events of the machine's agents. -/
inductive Instr where
  -- a defective word or group (R26)
  | illegalWord (why : Defect)
  -- units 0 and 1: scalar ALU (R136–R141)
  | add (sd sa sb : SReg)
  | sub (sd sa sb : SReg)
  | mul (sd sa sb : SReg)
  | mulh (sd sa sb : SReg)
  | div (sd sa sb : SReg)
  | divu (sd sa sb : SReg)
  | rem (sd sa sb : SReg)
  | remu (sd sa sb : SReg)
  | and (sd sa sb : SReg)
  | or (sd sa sb : SReg)
  | xor (sd sa sb : SReg)
  | shl (sd sa sb : SReg)
  | shr (sd sa sb : SReg)
  | sar (sd sa sb : SReg)
  | min (sd sa sb : SReg)
  | max (sd sa sb : SReg)
  | minu (sd sa sb : SReg)
  | maxu (sd sa sb : SReg)
  | slt (sd sa sb : SReg)
  | sltu (sd sa sb : SReg)
  | clz (sd sa : SReg)
  | popc (sd sa : SReg)
  | addi (sd sa : SReg) (imm : W64)
  | muli (sd sa : SReg) (imm : W64)
  | andi (sd sa : SReg) (imm : W64)
  | ori (sd sa : SReg) (imm : W64)
  | xori (sd sa : SReg) (imm : W64)
  | shli (sd sa : SReg) (amount : BitVec 6)
  | shri (sd sa : SReg) (amount : BitVec 6)
  | sari (sd sa : SReg) (amount : BitVec 6)
  | slti (sd sa : SReg) (imm : W64)
  | sltiu (sd sa : SReg) (imm : W64)
  | li (sd : SReg) (imm : W64)
  | bfx (sd sa : SReg) (pos lenM1 : BitVec 6)
  | bfi (sd sa : SReg) (pos lenM1 : BitVec 6)
  | mka (sd sa : SReg) (home : BitVec 7)
  -- unit 2: branches and loops (R80–R87)
  | br (cond : Cond) (sa sb : SReg) (offset : W32)
  | bqT (q : QReg) (offset : W32)
  | bqF (q : QReg) (offset : W32)
  | jmp (offset : W32)
  | jmpr (sa : SReg)
  | call (offset : W32)
  | callr (sa : SReg)
  | ret
  | loop (sa : SReg) (len : BitVec 7)
  | loopP (sa : SReg) (len : BitVec 7) (epi : BitVec 3)
  | loopi (count : BitVec 24) (len : BitVec 7)
  | qset (cond : Cond) (q : QReg) (sa sb : SReg)
  -- unit 3: scalar memory and atomics (R259–R266)
  | ld (size : Size) (ord : Ord) (sd base : SReg) (disp : W64)
  | lds (size : Size) (ord : Ord) (sd base : SReg) (disp : W64)
  | st (size : Size) (ord : Ord) (sd base : SReg) (disp : W64)
  | aadd (size : Size) (ord : Ord) (fetch : Bool) (sd base : SReg) (disp : W64)
  | aand (size : Size) (ord : Ord) (fetch : Bool) (sd base : SReg) (disp : W64)
  | aor (size : Size) (ord : Ord) (fetch : Bool) (sd base : SReg) (disp : W64)
  | axor (size : Size) (ord : Ord) (fetch : Bool) (sd base : SReg) (disp : W64)
  | amin (size : Size) (ord : Ord) (fetch : Bool) (sd base : SReg) (disp : W64)
  | amax (size : Size) (ord : Ord) (fetch : Bool) (sd base : SReg) (disp : W64)
  | aminu (size : Size) (ord : Ord) (fetch : Bool) (sd base : SReg) (disp : W64)
  | amaxu (size : Size) (ord : Ord) (fetch : Bool) (sd base : SReg) (disp : W64)
  | afadd (size : Size) (ord : Ord) (fetch : Bool) (sd base : SReg) (disp : W64)
  | afmin (size : Size) (ord : Ord) (fetch : Bool) (sd base : SReg) (disp : W64)
  | afmax (size : Size) (ord : Ord) (fetch : Bool) (sd base : SReg) (disp : W64)
  | aswp (size : Size) (ord : Ord) (fetch : Bool) (sd base : SReg) (disp : W64)
  | acas (size : Size) (ord : Ord) (fetch : Bool) (sd base : SReg) (disp : W64)
  -- unit 4: cells and tasks (R88–R102)
  | wait (test : Test) (ord : Ord) (sd lim : SReg) (cell : CellRef) (v : W32)
  | take (ord : Ord) (sd lim : SReg) (cell : CellRef) (v : W32)
  | trytake (ord : Ord) (sd : SReg) (cell : CellRef) (v : W32)
  | sig (ord : Ord) (cell : CellRef) (v : W32)
  | arrive (ord : Ord) (cell : CellRef)
  | cset (ord : Ord) (cell : CellRef) (v : W32)
  | crd (ord : Ord) (sd : SReg) (cell : CellRef)
  | ccfg (sa : SReg) (cell : CellRef)
  | cclr (cell : CellRef)
  | spawn (sd sa : SReg) (disp : BitVec 36)
  | spawnb (sd sa : SReg) (disp : BitVec 36)
  | park (sd sa : SReg) (disp : BitVec 36)
  | taskDone (sa : SReg)
  | yield
  | widf (sd : SReg) (f : BitVec 3)
  -- unit 5: handles and tile configuration (R143–R146, R185)
  | hld (hd : HReg) (sa : SReg) (disp : W64)
  | hst (ha : HReg) (sa : SReg) (disp : W64)
  | hmov (hd ha : HReg)
  | hsetb (hd ha : HReg) (sa : SReg)
  | hsetd (hd ha : HReg) (sa : SReg) (d : BitVec 3)
  | hsets (hd ha : HReg) (sa : SReg) (d : BitVec 3)
  | hadv (hd ha : HReg) (sa : SReg) (d : BitVec 3)
  | hget (sd : SReg) (ha : HReg) (sel : BitVec 4)
  | hchk (ha : HReg) (sa : SReg)
  | hclr (hd : HReg)
  | tcfg (t : TReg) (ty : Ty) (rows cols : BitVec 10)
  -- unit 6: vector arithmetic (R147–R160)
  | vadd (ty : LaneTy) (rnd : Rnd) (vd va vb : VReg) (k : KReg)
  | vsub (ty : LaneTy) (rnd : Rnd) (vd va vb : VReg) (k : KReg)
  | vmul (ty : LaneTy) (rnd : Rnd) (vd va vb : VReg) (k : KReg)
  | vfma (rnd : Rnd) (vd va vb vc : VReg) (k : KReg)
  | vfms (rnd : Rnd) (vd va vb vc : VReg) (k : KReg)
  | vfnma (rnd : Rnd) (vd va vb vc : VReg) (k : KReg)
  | vmin (ty : LaneTy) (vd va vb : VReg) (k : KReg)
  | vmax (ty : LaneTy) (vd va vb : VReg) (k : KReg)
  | vabs (ty : LaneTy) (vd va : VReg) (k : KReg)
  | vneg (ty : LaneTy) (vd va : VReg) (k : KReg)
  | vadds (vd va vb : VReg) (k : KReg)
  | vsubs (vd va vb : VReg) (k : KReg)
  | vclamp (ty : LaneTy) (vd va vb vc : VReg) (k : KReg)
  | vscale (rnd : Rnd) (vd va vb : VReg) (k : KReg)
  | vrint (rnd : Rnd) (vd va : VReg) (k : KReg)
  | vand (vd va vb : VReg) (k : KReg)
  | vor (vd va vb : VReg) (k : KReg)
  | vxor (vd va vb : VReg) (k : KReg)
  | vandn (vd va vb : VReg) (k : KReg)
  | vshl (vd va vb : VReg) (k : KReg)
  | vshr (vd va vb : VReg) (k : KReg)
  | vsar (vd va vb : VReg) (k : KReg)
  | vpopc (vd va : VReg) (k : KReg)
  | vcmpeq (ty : LaneTy) (kd : KReg) (va vb : VReg) (k : KReg)
  | vcmpne (ty : LaneTy) (kd : KReg) (va vb : VReg) (k : KReg)
  | vcmplt (ty : LaneTy) (kd : KReg) (va vb : VReg) (k : KReg)
  | vcmple (ty : LaneTy) (kd : KReg) (va vb : VReg) (k : KReg)
  | vcvt (dty sty : Ty) (rnd : Rnd) (vd va : VReg) (k : KReg)
  | vsel (ty : LaneTy) (vd va vb : VReg) (k : KReg)
  | vmovi (ty : LaneTy) (vd : VReg) (imm : W32) (k : KReg)
  | vbcs (ty : LaneTy) (vd : VReg) (sa : SReg) (k : KReg)
  | vexp2 (vd va : VReg) (k : KReg)
  | vlog2 (vd va : VReg) (k : KReg)
  | vrcp (vd va : VReg) (k : KReg)
  | vrsq (vd va : VReg) (k : KReg)
  | vsqrt (vd va : VReg) (k : KReg)
  | vtanh (vd va : VReg) (k : KReg)
  | vsinpi (vd va : VReg) (k : KReg)
  | vcospi (vd va : VReg) (k : KReg)
  | vhash (vd va : VReg) (sa : SReg) (k : KReg)
  -- unit 7: vector movement and reduction (R161–R170)
  | vld (ty : Ty) (vd : VReg) (h : HReg)
  | vst (ty : Ty) (rnd : Rnd) (h : HReg) (va : VReg)
  | vldr (ty : Ty) (vd : VReg) (h : HReg) (row : BitVec 4)
  | vstr (ty : Ty) (rnd : Rnd) (h : HReg) (va : VReg) (row : BitVec 4)
  | vmov (vd va : VReg)
  | vext (sd : SReg) (va : VReg) (idx : BitVec 10)
  | vins (vd : VReg) (sa : SReg) (idx : BitVec 10)
  | vrotr (vd va : VReg) (n : BitVec 6)
  | vbcr (vd va : VReg) (col : BitVec 6)
  | vredr (ty : LaneTy) (op : RedOp) (vd va : VReg)
  | vrotc (vd va : VReg) (n : BitVec 4)
  | vbcc (vd va : VReg) (row : BitVec 4)
  | vredc (ty : LaneTy) (op : RedOp) (vd va : VReg)
  | vpermr (vd va vb : VReg)
  | kand (kd ka kb : KReg)
  | kor (kd ka kb : KReg)
  | kxor (kd ka kb : KReg)
  | knot (kd ka : KReg)
  | kpopc (sd : SReg) (ka : KReg)
  | kfirst (sd : SReg) (ka : KReg)
  -- unit 8: vector selection (R171–R183)
  | vargmaxr (ty : LaneTy) (vd va : VReg) (k : KReg)
  | vargmaxc (ty : LaneTy) (vd va : VReg) (k : KReg)
  | vargminr (ty : LaneTy) (vd va : VReg) (k : KReg)
  | vargminc (ty : LaneTy) (vd va : VReg) (k : KReg)
  | vtopk (ty : LaneTy) (vd va vb : VReg) (k : KReg) (n : BitVec 7)
  | vtopkm (ty : LaneTy) (vd va vb : VReg) (n : BitVec 7)
  | vpart (vd : VReg) (sS sC : SReg) (k : KReg)
  | vbucket (vd va : VReg) (n : BitVec 5) (k : KReg)
  | vprune48 (ty : Ty) (vd va : VReg)
  | vspread48 (ty : Ty) (vd va : VReg)
  | vcompress (vd va : VReg) (sn : SReg) (k : KReg)
  | vexpand (vd va : VReg) (sn : SReg) (k : KReg)
  -- unit 9: matrix engine (R184–R202)
  | tld (t : TReg) (h : HReg) (e : Eng)
  | tldw (t : TReg) (sa : SReg) (e : Eng)
  | tst (t : TReg) (h : HReg) (e : Eng)
  | mma (acc : AReg) (tA tB : TReg) (tyA tyB tyAcc : Ty) (z : Bool) (e : Eng)
  | mmaw (acc : AReg) (tA hB : TReg) (tyA tyB tyAcc : Ty) (z : Bool) (e : Eng)
  | mmasp (acc : AReg) (tA tB : TReg) (tyA tyB tyAcc : Ty) (z : Bool) (e : Eng)
  | mmaspw (acc : AReg) (tA hB : TReg) (tyA tyB tyAcc : Ty) (z : Bool) (e : Eng)
  | mtrans (acc : AReg) (tA : TReg) (tyA tyAcc : Ty) (z : Bool) (e : Eng)
  | mperm (acc : AReg) (tA tB : TReg) (tyA tyAcc : Ty) (z : Bool) (e : Eng)
  | mrsum (acc : AReg) (tA : TReg) (tyA tyAcc : Ty) (z : Bool) (e : Eng)
  | mzero (acc : AReg) (e : Eng)
  | mdrain (acc : AReg) (ty : Ty) (rnd : Rnd) (dst : DrainTo) (e : Eng)
  | mnop (e : Eng)
  -- unit 10: copy engine (R271–R281, R340–R343)
  | copy (hd ha : HReg) (sa : SReg) (lock : Bool) (e : Eng)
  | gath (hd ha : HReg) (sa : SReg) (lock : Bool) (e : Eng)
  | scat (hd ha : HReg) (sa : SReg) (lock : Bool) (e : Eng)
  | fill (size : Size) (hd : HReg) (sa : SReg) (lock : Bool) (e : Eng)
  | reda (op : RedaOp) (hd ha : HReg) (lock : Bool) (e : Eng)
  | putc (hd ha : HReg) (sa : SReg) (e : Eng)
  | rrot (hd ha : HReg) (sa : SReg) (e : Eng)
  | copySeal (hd ha : HReg) (sa : SReg) (e : Eng)
  | copyOpen (hd ha : HReg) (sa : SReg) (e : Eng)
  | cnop (e : Eng)
  -- unit 11: Sward (R203–R220)
  | swopen (sx sy : SReg) (e : Eng)
  | swapp (sx sy : SReg) (v : VReg) (row : BitVec 4) (e : Eng)
  | swqry (sx sy : SReg) (e : Eng)
  | swpop (v : VReg) (sx : SReg) (row : BitVec 4) (e : Eng)
  | swevt (sx sy : SReg) (e : Eng)
  | swsave (sx sy : SReg) (e : Eng)
  | swload (sx sy : SReg) (e : Eng)
  | swclose (sx : SReg) (e : Eng)
  -- unit 12: weight tier (R165, R323–R333)
  | wld (ty : Ty) (vd : VReg) (sa : SReg)
  | wprog (sa : SReg) (ha : HReg) (e : Eng)
  | wprogs (sa : SReg) (ha : HReg) (sb : SReg) (e : Eng)
  | wfree (sa : SReg) (e : Eng)
  | wmeas (ha : HReg) (sa : SReg) (e : Eng)
  | wscrub (sa : SReg) (e : Eng)
  | wchk (ha : HReg) (sa : SReg) (e : Eng)
  | wstat (sd sa : SReg)
  -- unit 13: system (R142, R267–R270, R358–R361, R368)
  | nop
  | crr (sd : SReg) (cr : CtlReg)
  | crw (cr : CtlReg) (sa : SReg)
  | fence (scope : Scope)
  | tlock (sd sa sl : SReg)
  | tunlock (sa sl : SReg)
  | phase
  | fqpop (sd : SReg)
  | fresume (sa : SReg)
  | fabort (sa : SReg)
  | frestart (sa : SReg)
  | qwait (matrix copy : Bool)
  | brk (code : BitVec 24)
  -- events: cells (R91–R94)
  | cellWaiterSatisfied (t : Nat) (c : CellNo)
  | waitLimitExpiry (t : Nat)
  | remoteCellRequest (i : Nat)
  | remoteCellReply (i : Nat)
  -- events: tasks (R99, R100)
  | parkRegister (t : Nat)
  | doneRetire (t : Nat)
  -- events: engines (R95, R190, R275, R280, R342, R343)
  | matrixCommandStart (t : Nat)
  | matrixCommandComplete (t : Nat)
  | copyCommandStart (t i n : Nat) (ext : List W64)
  | lockstepRendezvous (die cluster : Nat)
  | copyCommandComplete (t : Nat)
  | copyOpenCounterStep (t : Nat)
  | copySealCounterStep (t : Nat)
  | swardAccept (die : Nat)
  | swardPerform (die i : Nat)
  | weightCommandAccept (die : Nat)
  | weightCommandStart (die : Nat)
  | weightCommandComplete (die : Nat) (lines : List (Nat × Nat × Nat))
  | scrubLine (t : Nat) (region : BitVec 5) (line : BitVec 14) (errs : Nat) (bad : Nat)
  | phaseCommit (t : Nat)
  | qwaitComplete (t : Nat)
  -- events: memory (R234, R240, R253, R261)
  | accessReply (t : Nat) (r : Option FaultName)
  | loadDataReturn (t i : Nat) (ext : List W64)
  | sharedMemoryAccess (t i n : Nat)
  | cellWindowAccess (t : Nat)
  | bankAtomic (t i : Nat)
  -- events: records and dispatch (R68–R72)
  | recordAdmission (die : Nat)
  | sqtailWrite (p : PartNo) (die : Nat) (l : BitVec 3) (v : W64)
  | submissionAdmission (p : PartNo) (die : Nat) (l : BitVec 3)
  | heldContinuationAdmission (p : PartNo) (die : Nat) (l : BitVec 3)
  | dispatch (die : Nat)
  -- events: contexts (R75, R302, R351–R370)
  | contextRestoreComplete (t : Nat) (b : Bool)
  | budgetExpiry (t : Nat)
  | slotSwitch (t : Nat)
  | sliceExpiry (t : Nat)
  | contextStopEnd (t : Nat) (b : Bool)
  | faultRecordWrite (p : PartNo)
  | contextSaveComplete (t : Nat) (b : Bool)
  | fholdExpiry (t : Nat) (b : Bool)
  | contextMoveOut (t : Nat) (b : Bool)
  | preqWrite (t : Nat) (v : W64)
  | phaseCancellation (t : Nat) (b : Bool)
  | shadowWriteOutComplete (t : Nat) (b : Bool)
  -- events: drawer links (R103–R115)
  | outboundSlot (link : Nat)
  | inboundFrame (link : Nat) (intact tagOk : Bool)
  | drawerRequest (t i : Nat)
  | frameBoundary (link : Nat)
  | swcmt (link : Nat) (v : W64)
  | linkLossOfLock (link : Nat)
  | linkRelock (link : Nat) (delta : BitVec 10)
  | linkDownDeclare (link : Nat)
  | linkStallTimeout (t : Nat)
  | linkBroughtBackToUp (link : Nat) (delta : BitVec 10)
  -- events: host and peers (R235, R256, R386, R393, R394)
  | hostPostedWrite (p : PartNo) (off : W32) (size : Nat) (data : W64)
  | hostRead (p : PartNo) (off : W32) (size : Nat)
  | peerRequest (r : PeerReq)
  | vonyxFlitReceive (port : Nat) (good : Bool)
  -- events: configuration (R300–R311, R321, R329–R334, R337, R354, R388–R392)
  | pcfgWrite (p : PartNo) (v : W64)
  | partitionClearDone (p : PartNo)
  | drawerKeysPlaced (p : PartNo)
  | tdispError (p : PartNo)
  | tslotWrite (t : Nat) (v : W64)
  | slotClearDone (t : Nat) (b : Bool)
  | cownWrite (t : Nat) (c : CellNo) (v : W64)
  | ccfgwWrite (t : Nat) (c : CellNo) (v : W64)
  | pwinWrite (home : BitVec 7) (p : PartNo) (w : BitVec 4) (v : W64)
  | tinvPage (unit : BitVec 3) (p : PartNo) (off : BitVec 41)
  | tinvAll (unit : BitVec 3) (p : PartNo)
  | invalidationDrainEnd (unit : BitVec 3)
  | wownWrite (t : Nat) (r : BitVec 5) (v : W64)
  | kerase (v : W64)
  | keyLoad (session slot : Nat) (kind : BitVec 2) (p : PartNo) (key : W256) (openLevel sealLevel : W32)
  | keyErase (session slot : Nat)
  | unsealModel (session : Nat) (waddr : BitVec 40) (p : PartNo) (model : W256) (digest : BitVec 384)
  | getMeasurements (session : Nat) (index : Byte)
  | getManifest (session : Nat)
  | rtcmd (p : PartNo) (v : W64)
  | regionTableInstallDone (p : PartNo)
  | fqhpop (p : PartNo) (v : W64)
  | fqansResume (p : PartNo) (addr : W64)
  | fqansAbort (p : PartNo) (addr : W64)
  | fqansRestart (p : PartNo) (addr : W64)
  -- events: firmware (R375, R376)
  | fwVerify (c : Controller) (version : Byte) (signed : Bool)
  | fwHandover (c : Controller)
  | fwCommit (c : Controller)
  | fwAbandon (c : Controller)
  | fwServiceSignal (c : Controller)
  | fwServiceTimeout (c : Controller)
  | fwHealthSignal (c : Controller)
  | fwHealthTimeout (c : Controller)
  -- events: power and housekeeping (R395–R398)
  | powerGood
  | startupStepComplete
  | governorWindow (die : BitVec 2) (power : Nat) (temp : Byte)
  | thermalShutdown
  | coolantFlowLow
  | configRegisterWrite (r : CfgReg) (v : W64)
  | powerLoss
  | tdispInterfaceRequest (p : PartNo) (dst : Tdisp)
  | spdmKeyExchange (session : Nat) (peer : Option (BitVec 6)) (establish : Bool)
deriving DecidableEq, Repr, Inhabited

end Sys2Proof
end

