-- ==== Sys2Proof/Config.lean ====
section
/-! DEFINITION. What one EK-192 fixes (R13, R14), and the free values: constants without a body, of which nothing can be proved.
A free value is applied to `State.fresh`, a counter that every use advances (notes/assumptions/2). -/

namespace Sys2Proof.Config

/-- 192 tiles, 48 on each of four compute dies (R13, R14). -/
def tiles : Nat := 192
def tilesPerDie : Nat := 48
def dies : Nat := 4
/-- Drawer links and Vonyx ports (R13). -/
def links : Nat := 48
def ports : Nat := 48
/-- Cells of a tile (R15, R88). -/
def cells : Nat := 2048
/-- Elements of a vector register: 16 rows of 64 (R147). -/
def lanes : Nat := 1024
/-- Commands of an engine queue (R16). -/
def queueDepth : Nat := 16
/-- One half of a scratchpad, 4 MiB (R17). -/
def halfBytes : Nat := 0x400000
/-- Shared memory of a die, 128 MiB (R19). -/
def sharedBytes : Nat := 0x8000000
/-- The drawer, 8 TiB. -/
def drawerBytes : Nat := 0x80000000000
/-- The management registers of a link firmware's ports (R13): links and ports below this number are on IO-N. -/
def northLinks : Nat := 24

/-- FREE VALUE: output of the security core's random bit generator (R315, R330). -/
opaque freeKey : Nat → W256
/-- FREE VALUE: a signature by the security core over a measurement response (R337, R338): ECDSA and LMS bytes. -/
opaque freeSignature : Nat → List Byte
/-- FREE VALUE: the digest of the running images behind a measurement index, by their versions (R337). -/
opaque imageDigest : Nat → List Byte → BitVec 384
/-- FREE VALUE: a word the manual states no value for. -/
opaque freeWord : Nat → W64

/-- FREE VALUE: byte n of a part of a context image whose inner layout R365 does not give, by what the part holds. -/
opaque imageByte : List Nat → Nat → Byte

end Sys2Proof.Config
end

