-- ==== Sys2Proof/WellFormed.lean ====
section
/-! DEFINITION. Which operands an instruction's encoding admits (R27–R41), and which arguments an event has. -/

namespace Sys2Proof

/-- Types a vector load, store or conversion accepts in memory: 0–4 and 7–11 (R37). -/
def Ty.memory : Ty → Bool
  | .mxe4m3 => false
  | .mxf4 => false
  | _ => true

/-- Types of weights and of the four-in-eight forms: 1–4, 7–9 and 11 (R37). -/
def Ty.weight : Ty → Bool
  | .f32 => false
  | .mxe4m3 => false
  | .mxf4 => false
  | .i32 => false
  | _ => true

/-- Memory types whose store rounds (R163). -/
def Ty.roundsOnStore : Ty → Bool
  | .bf16 => true
  | .f16 => true
  | .e4m3 => true
  | .e5m2 => true
  | .f4 => true
  | _ => false

/-- Bits of one data element; the MX types count their data elements only (R40). -/
def Ty.bits : Ty → Nat
  | .f32 => 32
  | .i32 => 32
  | .bf16 => 16
  | .f16 => 16
  | .mxf4 => 4
  | .i4 => 4
  | .f4 => 4
  | _ => 8

/-- typeAcc of each accepted pair of typeA and typeB (R196). -/
def Ty.pairAcc : Ty → Ty → Option LaneTy
  | .bf16, .bf16 => some .f32
  | .f16, .f16 => some .f32
  | .e4m3, .e4m3 => some .f32
  | .e4m3, .e5m2 => some .f32
  | .e5m2, .e4m3 => some .f32
  | .e5m2, .e5m2 => some .f32
  | .mxe4m3, .mxe4m3 => some .f32
  | .e4m3, .mxf4 => some .f32
  | .e4m3, .f4 => some .f32
  | .mxe4m3, .mxf4 => some .f32
  | .mxe4m3, .f4 => some .f32
  | .mxf4, .mxf4 => some .f32
  | .mxf4, .f4 => some .f32
  | .f4, .mxf4 => some .f32
  | .f4, .f4 => some .f32
  | .i8, .i8 => some .i32
  | .i8, .ui8 => some .i32
  | .ui8, .i8 => some .i32
  | .ui8, .ui8 => some .i32
  | .i8, .i4 => some .i32
  | .i4, .i4 => some .i32
  | _, _ => none

/-- typeAcc that R196 lists for a typeA (R200). -/
def Ty.accOf (a : Ty) : Option LaneTy := a.pairAcc a

def LaneTy.toTy : LaneTy → Ty
  | .f32 => .f32
  | .i32 => .i32

/-- The typeB of the sparse forms is no MX type (R196). -/
def Ty.mx : Ty → Bool
  | .mxe4m3 => true
  | .mxf4 => true
  | _ => false

/-- Rounding that an arithmetic form admits: INT32 forms do not round (R151). -/
def LaneTy.rndOk : LaneTy → Rnd → Bool
  | .f32, _ => true
  | .i32, r => r == .rne

/-- Rounding that a store of a memory type admits (R163). -/
def Ty.storeRndOk (t : Ty) (r : Rnd) : Bool := t.memory && (t.roundsOnStore || r == .rne)

/-- Sizes of the integer atomics: 2 and 3 (R39). -/
def Size.atomic : Size → Bool
  | .w => true
  | .d => true
  | _ => false

/-- AFADD takes FP32 or BF16 (R39). -/
def Size.afadd : Size → Bool
  | .w => true
  | .h => true
  | _ => false

def Ord.loadOk : Ord → Bool
  | .plain => true
  | .acq => true
  | _ => false

def Ord.storeOk : Ord → Bool
  | .plain => true
  | .rel => true
  | _ => false

def Ord.arriveOk : Ord → Bool
  | .acq => false
  | _ => true

/-- A displacement of an atomic is a sign-extended 63-bit value (R39). -/
def atomicDisp (d : W64) : Bool := d == (d.extractLsb' 0 63).signExtend 64

/-- A branch-free encoding of a remote cell names a nonzero scalar (R29). -/
def CellRef.wf : CellRef → Bool
  | .own _ => true
  | .remote sb => sb != 0

/-- A test of a phase compares with 0 or 1 (R33). -/
def Test.valueOk : Test → W32 → Bool
  | .ph, v => v.ushiftRight 1 == 0
  | _, _ => true

/-- Phase hold is for unit 10 (R45). -/
def Eng.noHold (e : Eng) : Bool := !e.hold

def evenV (v : VReg) : Bool := v.getLsbD 0 == false
def evenT (t : TReg) : Bool := t.getLsbD 0 == false
/-- ACAS names an even data register s2–s60 (R39). -/
def acasReg (s : SReg) : Bool := s.getLsbD 0 == false && s != 0 && decide (s.toNat ≤ 60)

/-- TCFG: rows 1–128, columns 1–512, at most 32 KiB of data elements (R40). -/
def tcfgOk (ty : Ty) (rows cols : BitVec 10) : Bool :=
  decide (1 ≤ rows.toNat) && decide (rows.toNat ≤ 128) && decide (1 ≤ cols.toNat) && decide (cols.toNat ≤ 512) &&
    decide (rows.toNat * cols.toNat * ty.bits ≤ 32768 * 8)

/-- A handle that MMAW and MMASPW name is h0–h15, by a 4-bit field (R37). -/
def mmaOk (a b acc : Ty) : Bool := (a.pairAcc b).map LaneTy.toTy == some acc

def lenOk (n : BitVec 7) : Bool := decide (1 ≤ n.toNat) && decide (n.toNat ≤ 64)

def bfOk (pos lenM1 : BitVec 6) : Bool := decide (pos.toNat + lenM1.toNat + 1 ≤ 64)

def DrainTo.wf (_ : DrainTo) : Bool := true

def CtlReg.wf : CtlReg → Bool
  | .linklat l => decide (l.toNat < 48)
  | _ => true

/-- CRW has no link field: its encoding leaves [23:0] zero (R37). -/
def CtlReg.wfW : CtlReg → Bool
  | .linklat l => l == 0
  | _ => true

def tileOk (t : Nat) : Bool := decide (t < Config.tiles)
def dieOk (d : Nat) : Bool := decide (d < Config.dies)
def linkOk (l : Nat) : Bool := decide (l < Config.links)

/-- An instruction as an encoding admits it; an event with arguments that name units of the package. -/
def Instr.wf : Instr → Bool
  | .bfx _ _ p l => bfOk p l
  | .bfi _ _ p l => bfOk p l
  | .loop _ n => lenOk n
  | .loopP _ n _ => lenOk n
  | .loopi _ n => lenOk n
  | .qset _ q _ _ => q != 0
  | .ld _ o _ _ _ => o.loadOk
  | .lds z o _ _ _ => o.loadOk && z != .d
  | .st _ o _ _ _ => o.storeOk
  | .aadd z _ _ _ _ d => z.atomic && atomicDisp d
  | .aand z _ _ _ _ d => z.atomic && atomicDisp d
  | .aor z _ _ _ _ d => z.atomic && atomicDisp d
  | .axor z _ _ _ _ d => z.atomic && atomicDisp d
  | .amin z _ _ _ _ d => z.atomic && atomicDisp d
  | .amax z _ _ _ _ d => z.atomic && atomicDisp d
  | .aminu z _ _ _ _ d => z.atomic && atomicDisp d
  | .amaxu z _ _ _ _ d => z.atomic && atomicDisp d
  | .afadd z _ _ _ _ d => z.afadd && atomicDisp d
  | .afmin z _ _ _ _ d => z == .w && atomicDisp d
  | .afmax z _ _ _ _ d => z == .w && atomicDisp d
  | .aswp z _ _ _ _ d => z.atomic && atomicDisp d
  | .acas z _ _ sd _ d => z.atomic && atomicDisp d && acasReg sd
  | .wait t o _ _ c v => o.loadOk && c.wf && t.valueOk v
  | .take o _ _ c _ => o.loadOk && c.wf
  | .trytake o _ c _ => o.loadOk && c.wf
  | .sig o c _ => o.storeOk && c.wf
  | .arrive o c => o.arriveOk && c.wf
  | .cset o c _ => o.storeOk && c.wf
  | .crd o _ c => o.loadOk && c.wf
  | .ccfg _ c => c.wf
  | .cclr c => c.wf
  | .spawn _ _ _ => true
  | .widf _ f => decide (f.toNat ≤ 5)
  | .hsetd _ _ _ d => decide (d.toNat ≤ 5)
  | .hsets _ _ _ d => decide (d.toNat ≤ 5)
  | .hadv _ _ _ d => decide (d.toNat ≤ 5)
  | .hget _ _ s => decide (s.toNat ≤ 12)
  | .tcfg _ ty r c => tcfgOk ty r c
  | .vadd ty r _ _ _ _ => ty.rndOk r
  | .vsub ty r _ _ _ _ => ty.rndOk r
  | .vmul ty r _ _ _ _ => ty.rndOk r
  | .vcvt d s _ _ _ _ => d.memory && s.memory
  | .vld ty _ _ => ty.memory
  | .vst ty r _ _ => ty.storeRndOk r
  | .vldr ty _ _ _ => ty.memory
  | .vstr ty r _ _ _ => ty.storeRndOk r
  | .vargmaxr _ d _ _ => evenV d
  | .vargmaxc _ d _ _ => evenV d
  | .vargminr _ d _ _ => evenV d
  | .vargminc _ d _ _ => evenV d
  | .vtopk _ d _ _ _ n => evenV d && lenOk n
  | .vtopkm _ d a b n => evenV d && evenV a && evenV b && lenOk n
  | .vpart d _ _ _ => evenV d
  | .vbucket d _ n _ => evenV d && decide (1 ≤ n.toNat) && decide (n.toNat ≤ 16)
  | .vprune48 ty d _ => ty.weight && evenV d
  | .vspread48 ty _ a => ty.weight && evenV a
  | .tld _ _ e => e.noHold
  | .tldw _ _ e => e.noHold
  | .tst _ _ e => e.noHold
  | .mma _ _ _ a b c _ e => mmaOk a b c && e.noHold
  | .mmaw _ _ _ a b c _ e => mmaOk a b c && e.noHold
  | .mmasp _ _ t a b c _ e => mmaOk a b c && !b.mx && evenT t && e.noHold
  | .mmaspw _ _ t a b c _ e => mmaOk a b c && !b.mx && evenT t && e.noHold
  | .mtrans _ _ a c _ e => a.accOf.map LaneTy.toTy == some c && e.noHold
  | .mperm _ _ _ a c _ e => a.accOf.map LaneTy.toTy == some c && e.noHold
  | .mrsum _ _ a c _ e => a.accOf.map LaneTy.toTy == some c && e.noHold
  | .mzero _ e => e.noHold
  | .mdrain _ ty _ _ e => ty.memory && e.noHold
  | .mnop e => e.noHold
  | .swopen _ _ e => e.noHold
  | .swapp _ _ _ _ e => e.noHold
  | .swqry _ _ e => e.noHold
  | .swpop _ _ _ e => e.noHold
  | .swevt _ _ e => e.noHold
  | .swsave _ _ e => e.noHold
  | .swload _ _ e => e.noHold
  | .swclose _ e => e.noHold
  | .wld ty _ _ => ty.weight
  | .wprog _ _ e => e.noHold
  | .wprogs _ _ _ e => e.noHold
  | .wfree _ e => e.noHold
  | .wmeas _ _ e => e.noHold
  | .wscrub _ e => e.noHold
  | .wchk _ _ e => e.noHold
  | .crr _ c => c.wf
  | .crw c _ => c.wfW
  | .qwait m c => m || c
  | .cellWaiterSatisfied t _ => tileOk t
  | .waitLimitExpiry t => tileOk t
  | .parkRegister t => tileOk t
  | .doneRetire t => tileOk t
  | .matrixCommandStart t => tileOk t
  | .matrixCommandComplete t => tileOk t
  | .copyCommandStart t _ _ _ => tileOk t
  | .lockstepRendezvous d c => dieOk d && decide (c < 6)
  | .copyCommandComplete t => tileOk t
  | .copyOpenCounterStep t => tileOk t
  | .copySealCounterStep t => tileOk t
  | .swardAccept d => dieOk d
  | .swardPerform d _ => dieOk d
  | .weightCommandAccept d => dieOk d
  | .weightCommandStart d => dieOk d
  | .weightCommandComplete d _ => dieOk d
  | .scrubLine t _ _ _ _ => tileOk t
  | .phaseCommit t => tileOk t
  | .qwaitComplete t => tileOk t
  | .accessReply t _ => tileOk t
  | .loadDataReturn t _ _ => tileOk t
  | .sharedMemoryAccess t _ _ => tileOk t
  | .cellWindowAccess t => tileOk t
  | .bankAtomic t _ => tileOk t
  | .recordAdmission d => dieOk d
  | .sqtailWrite _ d _ _ => dieOk d
  | .submissionAdmission _ d _ => dieOk d
  | .heldContinuationAdmission _ d _ => dieOk d
  | .dispatch d => dieOk d
  | .contextRestoreComplete t _ => tileOk t
  | .budgetExpiry t => tileOk t
  | .slotSwitch t => tileOk t
  | .sliceExpiry t => tileOk t
  | .contextStopEnd t _ => tileOk t
  | .contextSaveComplete t _ => tileOk t
  | .fholdExpiry t _ => tileOk t
  | .contextMoveOut t _ => tileOk t
  | .preqWrite t _ => tileOk t
  | .phaseCancellation t _ => tileOk t
  | .shadowWriteOutComplete t _ => tileOk t
  | .outboundSlot l => linkOk l
  | .inboundFrame l _ _ => linkOk l
  | .drawerRequest t _ => tileOk t
  | .frameBoundary l => linkOk l
  | .swcmt l _ => linkOk l
  | .linkLossOfLock l => linkOk l
  | .linkRelock l _ => linkOk l
  | .linkDownDeclare l => linkOk l
  | .linkStallTimeout t => tileOk t
  | .linkBroughtBackToUp l _ => linkOk l
  | .vonyxFlitReceive p _ => decide (p < Config.ports)
  | .tslotWrite t _ => tileOk t
  | .slotClearDone t _ => tileOk t
  | .cownWrite t _ _ => tileOk t
  | .ccfgwWrite t _ _ => tileOk t
  | .wownWrite t _ _ => tileOk t
  | _ => true

end Sys2Proof
end

