-- ==== Sys2Proof/Decode.lean ====
section
/-! DEFINITION. Decoding of instruction words and prefix groups, total on any words (R24–R46), and the encoder. -/

namespace Sys2Proof

/-! ### The word and its payload formats (R24, R27, R29) -/

def wUnit (w : W64) : BitVec 4 := w.extractLsb' 60 4
def wOp (w : W64) : BitVec 8 := w.extractLsb' 52 8
def wGuard (w : W64) : BitVec 4 := w.extractLsb' 48 4
def wPay (w : W64) : BitVec 48 := w.extractLsb' 0 48

/-- Field a above field b, in a value of w bits. -/
def cat (w : Nat) (a : BitVec m) (b : BitVec n) : BitVec w := BitVec.ofNat w (a.toNat * 2 ^ n + b.toNat)

def mkWord (u : BitVec 4) (o : BitVec 8) (g : BitVec 4) (p : BitVec 48) : W64 := cat 64 (cat 16 (cat 12 u o) g) p

/-- Format S3. -/
structure PS3 where
  sd : BitVec 6
  sa : BitVec 6
  sb : BitVec 6
  z : BitVec 30
deriving DecidableEq, Repr

def PS3.toBits (f : PS3) : BitVec 48 := cat 48 (cat 18 (cat 12 f.sd f.sa) f.sb) f.z
def PS3.of (p : BitVec 48) : PS3 :=
  ⟨p.extractLsb' 42 6, p.extractLsb' 36 6, p.extractLsb' 30 6, p.extractLsb' 0 30⟩

/-- Format SI. -/
structure PSI where
  sd : BitVec 6
  sa : BitVec 6
  imm : BitVec 36
deriving DecidableEq, Repr

def PSI.toBits (f : PSI) : BitVec 48 := cat 48 (cat 12 f.sd f.sa) f.imm
def PSI.of (p : BitVec 48) : PSI :=
  ⟨p.extractLsb' 42 6, p.extractLsb' 36 6, p.extractLsb' 0 36⟩

/-- Format B. -/
structure PB where
  sa : BitVec 6
  sb : BitVec 6
  cond : BitVec 4
  off : BitVec 32
deriving DecidableEq, Repr

def PB.toBits (f : PB) : BitVec 48 := cat 48 (cat 16 (cat 12 f.sa f.sb) f.cond) f.off
def PB.of (p : BitVec 48) : PB :=
  ⟨p.extractLsb' 42 6, p.extractLsb' 36 6, p.extractLsb' 32 4, p.extractLsb' 0 32⟩

/-- Format M. -/
structure PM where
  sd : BitVec 6
  base : BitVec 6
  size : BitVec 2
  ord : BitVec 2
  disp : BitVec 32
deriving DecidableEq, Repr

def PM.toBits (f : PM) : BitVec 48 := cat 48 (cat 16 (cat 14 (cat 12 f.sd f.base) f.size) f.ord) f.disp
def PM.of (p : BitVec 48) : PM :=
  ⟨p.extractLsb' 42 6, p.extractLsb' 36 6, p.extractLsb' 34 2, p.extractLsb' 32 2, p.extractLsb' 0 32⟩

/-- Format V. -/
structure PV where
  vd : BitVec 5
  va : BitVec 5
  vb : BitVec 5
  vc : BitVec 5
  mask : BitVec 3
  ty : BitVec 4
  rnd : BitVec 3
  aux : BitVec 18
deriving DecidableEq, Repr

def PV.toBits (f : PV) : BitVec 48 := cat 48 (cat 30 (cat 27 (cat 23 (cat 20 (cat 15 (cat 10 f.vd f.va) f.vb) f.vc) f.mask) f.ty) f.rnd) f.aux
def PV.of (p : BitVec 48) : PV :=
  ⟨p.extractLsb' 43 5, p.extractLsb' 38 5, p.extractLsb' 33 5, p.extractLsb' 28 5, p.extractLsb' 25 3, p.extractLsb' 21 4, p.extractLsb' 18 3, p.extractLsb' 0 18⟩

/-- Format E. -/
structure PE where
  we : BitVec 1
  wc : BitVec 11
  se : BitVec 1
  sc : BitVec 11
  ops : BitVec 24
deriving DecidableEq, Repr

def PE.toBits (f : PE) : BitVec 48 := cat 48 (cat 24 (cat 13 (cat 12 f.we f.wc) f.se) f.sc) f.ops
def PE.of (p : BitVec 48) : PE :=
  ⟨p.extractLsb' 47 1, p.extractLsb' 36 11, p.extractLsb' 35 1, p.extractLsb' 24 11, p.extractLsb' 0 24⟩

/-- Format H. -/
structure PH where
  hd : BitVec 5
  ha : BitVec 5
  sa : BitVec 6
  imm : BitVec 32
deriving DecidableEq, Repr

def PH.toBits (f : PH) : BitVec 48 := cat 48 (cat 16 (cat 10 f.hd f.ha) f.sa) f.imm
def PH.of (p : BitVec 48) : PH :=
  ⟨p.extractLsb' 43 5, p.extractLsb' 38 5, p.extractLsb' 32 6, p.extractLsb' 0 32⟩

/-- Format SYS. -/
structure PY where
  sd : BitVec 6
  sa : BitVec 6
  cr : BitVec 12
  low : BitVec 24
deriving DecidableEq, Repr

def PY.toBits (f : PY) : BitVec 48 := cat 48 (cat 24 (cat 12 f.sd f.sa) f.cr) f.low
def PY.of (p : BitVec 48) : PY :=
  ⟨p.extractLsb' 42 6, p.extractLsb' 36 6, p.extractLsb' 24 12, p.extractLsb' 0 24⟩

/-- Sub-layout SI-C. -/
structure SIC where
  sb : BitVec 6
  cell : BitVec 11
  test : BitVec 3
  ord : BitVec 2
  val : BitVec 14
deriving DecidableEq, Repr

def SIC.toBits (f : SIC) : BitVec 36 := cat 36 (cat 22 (cat 20 (cat 17 f.sb f.cell) f.test) f.ord) f.val
def SIC.of (p : BitVec 36) : SIC :=
  ⟨p.extractLsb' 30 6, p.extractLsb' 19 11, p.extractLsb' 16 3, p.extractLsb' 14 2, p.extractLsb' 0 14⟩

/-- Sub-layout MX. -/
structure OMX where
  acc : BitVec 2
  tA : BitVec 4
  tB : BitVec 4
  tyA : BitVec 4
  tyB : BitVec 4
  tyC : BitVec 4
  z1 : BitVec 1
  ov : BitVec 1
deriving DecidableEq, Repr

def OMX.toBits (f : OMX) : BitVec 24 := cat 24 (cat 23 (cat 22 (cat 18 (cat 14 (cat 10 (cat 6 f.acc f.tA) f.tB) f.tyA) f.tyB) f.tyC) f.z1) f.ov
def OMX.of (p : BitVec 24) : OMX :=
  ⟨p.extractLsb' 22 2, p.extractLsb' 18 4, p.extractLsb' 14 4, p.extractLsb' 10 4, p.extractLsb' 6 4, p.extractLsb' 2 4, p.extractLsb' 1 1, p.extractLsb' 0 1⟩

/-- Sub-layout ET, with the handle or scalar in the 6 bits below the tile. -/
structure OET where
  t : BitVec 4
  r : BitVec 20
deriving DecidableEq, Repr

def OET.toBits (f : OET) : BitVec 24 := cat 24 f.t f.r
def OET.of (p : BitVec 24) : OET :=
  ⟨p.extractLsb' 20 4, p.extractLsb' 0 20⟩

/-- Sub-layout ED. -/
structure OED where
  acc : BitVec 2
  ty : BitVec 4
  rnd : BitVec 3
  kind : BitVec 1
  tgt : BitVec 5
  z : BitVec 9
deriving DecidableEq, Repr

def OED.toBits (f : OED) : BitVec 24 := cat 24 (cat 15 (cat 10 (cat 9 (cat 6 f.acc f.ty) f.rnd) f.kind) f.tgt) f.z
def OED.of (p : BitVec 24) : OED :=
  ⟨p.extractLsb' 22 2, p.extractLsb' 18 4, p.extractLsb' 15 3, p.extractLsb' 14 1, p.extractLsb' 9 5, p.extractLsb' 0 9⟩

/-- Sub-layout EC. -/
structure OEC where
  hd : BitVec 5
  ha : BitVec 5
  sa : BitVec 6
  sub : BitVec 4
  lk : BitVec 1
  z : BitVec 3
deriving DecidableEq, Repr

def OEC.toBits (f : OEC) : BitVec 24 := cat 24 (cat 21 (cat 20 (cat 16 (cat 10 f.hd f.ha) f.sa) f.sub) f.lk) f.z
def OEC.of (p : BitVec 24) : OEC :=
  ⟨p.extractLsb' 19 5, p.extractLsb' 14 5, p.extractLsb' 8 6, p.extractLsb' 4 4, p.extractLsb' 3 1, p.extractLsb' 0 3⟩

/-- Sub-layout ES. -/
structure OES where
  x : BitVec 6
  y : BitVec 6
  vr : BitVec 5
  row : BitVec 4
  z : BitVec 3
deriving DecidableEq, Repr

def OES.toBits (f : OES) : BitVec 24 := cat 24 (cat 21 (cat 17 (cat 12 f.x f.y) f.vr) f.row) f.z
def OES.of (p : BitVec 24) : OES :=
  ⟨p.extractLsb' 18 6, p.extractLsb' 12 6, p.extractLsb' 7 5, p.extractLsb' 3 4, p.extractLsb' 0 3⟩

/-- Sub-layout EW. -/
structure OEW where
  ha : BitVec 5
  sa : BitVec 6
  sb : BitVec 6
  z : BitVec 7
deriving DecidableEq, Repr

def OEW.toBits (f : OEW) : BitVec 24 := cat 24 (cat 17 (cat 11 f.ha f.sa) f.sb) f.z
def OEW.of (p : BitVec 24) : OEW :=
  ⟨p.extractLsb' 19 5, p.extractLsb' 13 6, p.extractLsb' 7 6, p.extractLsb' 0 7⟩

/-- Format PFX.ENG. -/
structure PfE where
  hold : BitVec 1
  z : BitVec 7
  wa : BitVec 20
  sa : BitVec 20
deriving DecidableEq, Repr

def PfE.toBits (f : PfE) : BitVec 48 := cat 48 (cat 28 (cat 8 f.hold f.z) f.wa) f.sa
def PfE.of (p : BitVec 48) : PfE :=
  ⟨p.extractLsb' 47 1, p.extractLsb' 40 7, p.extractLsb' 20 20, p.extractLsb' 0 20⟩

/-! ### Field codes (R30–R36) -/

/-- Type codes (R30). -/
def Ty.code : Ty → BitVec 4
  | .f32 => 0
  | .bf16 => 1
  | .f16 => 2
  | .e4m3 => 3
  | .e5m2 => 4
  | .mxe4m3 => 5
  | .mxf4 => 6
  | .i8 => 7
  | .ui8 => 8
  | .i4 => 9
  | .i32 => 10
  | .f4 => 11

def Ty.ofCode (c : BitVec 4) : Option Ty :=
  match c.toNat with
  | 0 => some .f32
  | 1 => some .bf16
  | 2 => some .f16
  | 3 => some .e4m3
  | 4 => some .e5m2
  | 5 => some .mxe4m3
  | 6 => some .mxf4
  | 7 => some .i8
  | 8 => some .ui8
  | 9 => some .i4
  | 10 => some .i32
  | 11 => some .f4
  | _ => none

/-- Rounding codes (R31). -/
def Rnd.code : Rnd → BitVec 3
  | .rne => 0
  | .rz => 1
  | .rdn => 2
  | .rup => 3
  | .rns => 4

def Rnd.ofCode (c : BitVec 3) : Option Rnd :=
  match c.toNat with
  | 0 => some .rne
  | 1 => some .rz
  | 2 => some .rdn
  | 3 => some .rup
  | 4 => some .rns
  | _ => none

/-- Condition codes (R32). -/
def Cond.code : Cond → BitVec 4
  | .eq => 0
  | .ne => 1
  | .lt => 2
  | .ge => 3
  | .ltu => 4
  | .geu => 5
  | .le => 6
  | .gt => 7
  | .leu => 8
  | .gtu => 9
  | .any => 10
  | .none => 11

def Cond.ofCode (c : BitVec 4) : Option Cond :=
  match c.toNat with
  | 0 => some .eq
  | 1 => some .ne
  | 2 => some .lt
  | 3 => some .ge
  | 4 => some .ltu
  | 5 => some .geu
  | 6 => some .le
  | 7 => some .gt
  | 8 => some .leu
  | 9 => some .gtu
  | 10 => some .any
  | 11 => some .none
  | _ => Option.none

/-- Test codes (R33). -/
def Test.code : Test → BitVec 3
  | .ge => 0
  | .eq => 1
  | .ne => 2
  | .lt => 3
  | .gt => 4
  | .le => 5
  | .ph => 6

def Test.ofCode (c : BitVec 3) : Option Test :=
  match c.toNat with
  | 0 => some .ge
  | 1 => some .eq
  | 2 => some .ne
  | 3 => some .lt
  | 4 => some .gt
  | 5 => some .le
  | 6 => some .ph
  | _ => none

/-- Ordering qualifiers (R34). -/
def Ord.code : Ord → BitVec 2
  | .plain => 0
  | .acq => 1
  | .rel => 2
  | .ar => 3

def Ord.ofCode (c : BitVec 2) : Option Ord :=
  match c.toNat with
  | 0 => some .plain
  | 1 => some .acq
  | 2 => some .rel
  | _ => some .ar

/-- Size codes (R35). -/
def Size.code : Size → BitVec 2
  | .b => 0
  | .h => 1
  | .w => 2
  | .d => 3

def Size.ofCode (c : BitVec 2) : Option Size :=
  match c.toNat with
  | 0 => some .b
  | 1 => some .h
  | 2 => some .w
  | _ => some .d

/-- Fence scopes (R35). -/
def Scope.code : Scope → BitVec 3
  | .tile => 0
  | .clu => 1
  | .die => 2
  | .pkg => 3
  | .sys => 4

def Scope.ofCode (c : BitVec 3) : Option Scope :=
  match c.toNat with
  | 0 => some .tile
  | 1 => some .clu
  | 2 => some .die
  | 3 => some .pkg
  | 4 => some .sys
  | _ => none

/-- The two lane types (R30). -/
def LaneTy.code : LaneTy → BitVec 4
  | .f32 => 0
  | .i32 => 10

def LaneTy.ofCode (c : BitVec 4) : Option LaneTy :=
  match c.toNat with
  | 0 => some .f32
  | 10 => some .i32
  | _ => none

/-- Operations of VREDR and VREDC (R37). -/
def RedOp.code : RedOp → BitVec 2
  | .add => 0
  | .max => 1
  | .min => 2

def RedOp.ofCode (c : BitVec 2) : Option RedOp :=
  match c.toNat with
  | 0 => some .add
  | 1 => some .max
  | 2 => some .min
  | _ => none

/-- Reductions of REDA (R37). -/
def RedaOp.code : RedaOp → BitVec 4
  | .iadd => 0
  | .imin => 1
  | .imax => 2
  | .and => 3
  | .or => 4
  | .xor => 5
  | .fadd => 6
  | .bfadd => 7
  | .fmin => 8
  | .fmax => 9

def RedaOp.ofCode (c : BitVec 4) : Option RedaOp :=
  match c.toNat with
  | 0 => some .iadd
  | 1 => some .imin
  | 2 => some .imax
  | 3 => some .and
  | 4 => some .or
  | 5 => some .xor
  | 6 => some .fadd
  | 7 => some .bfadd
  | 8 => some .fmin
  | 9 => some .fmax
  | _ => none

/-- Control-register numbers of the cr field, and the low bits that select a link (R36). -/
def CtlReg.code : CtlReg → BitVec 12
  | .cyc => 0x000
  | .budg => 0x001
  | .lc => 0x002
  | .rb => 0x003
  | .mstat => 0x004
  | .tstat => 0x005
  | .finfo n => cat 12 2#10 n
  | .linklat _ => 0x010
  | .tcfg t => cat 12 2#8 t

def CtlReg.low : CtlReg → BitVec 24
  | .linklat l => cat 24 l 0#18
  | _ => 0

/-- The register that cr names, with the link of bits [23:18]; no register for any other number (R36). -/
def CtlReg.ofCode (c : BitVec 12) (link : BitVec 6) : Option CtlReg :=
  match c.toNat with
  | 0x000 => some .cyc
  | 0x001 => some .budg
  | 0x002 => some .lc
  | 0x003 => some .rb
  | 0x004 => some .mstat
  | 0x005 => some .tstat
  | 0x008 => some (.finfo 0)
  | 0x009 => some (.finfo 1)
  | 0x00A => some (.finfo 2)
  | 0x00B => some (.finfo 3)
  | 0x010 => some (.linklat link)
  | _ => if c.extractLsb' 4 8 = 2 then some (.tcfg (c.extractLsb' 0 4)) else none

/-! ### Decoding one instruction word (R37)

Each unit has its own function; `none` is PROG.ILLEGAL. `chk b i` is instruction i when every must-be-zero and
range condition b of its row holds. -/

def chk (b : Bool) (i : Instr) : Option Instr := if b && i.wf then some i else none

/-- Wait and signal fields with the default amounts; a disabled field is zero (R41). -/
def PE.eng (f : PE) : Eng :=
  { wait := if f.we = 1 then some (f.wc, 1) else none
    sig := if f.se = 1 then some (f.sc, 1) else none
    hold := false }
def PE.zeroOk (f : PE) : Bool := (f.we == 1 || f.wc == 0) && (f.se == 1 || f.sc == 0)

/-- The cell operand of SI-C: with a nonzero sb the cell field is zero (R29). -/
def SIC.ref (c : SIC) : CellRef := if c.sb = 0 then .own c.cell else .remote c.sb
def SIC.refOk (c : SIC) : Bool := c.sb == 0 || c.cell == 0

def decodeU0 (f : PS3) : Nat → Option Instr
  | 0x01 => chk (f.z == 0) (.add f.sd f.sa f.sb)
  | 0x02 => chk (f.z == 0) (.sub f.sd f.sa f.sb)
  | 0x03 => chk (f.z == 0) (.mul f.sd f.sa f.sb)
  | 0x04 => chk (f.z == 0) (.mulh f.sd f.sa f.sb)
  | 0x05 => chk (f.z == 0) (.div f.sd f.sa f.sb)
  | 0x06 => chk (f.z == 0) (.divu f.sd f.sa f.sb)
  | 0x07 => chk (f.z == 0) (.rem f.sd f.sa f.sb)
  | 0x08 => chk (f.z == 0) (.remu f.sd f.sa f.sb)
  | 0x10 => chk (f.z == 0) (.and f.sd f.sa f.sb)
  | 0x11 => chk (f.z == 0) (.or f.sd f.sa f.sb)
  | 0x12 => chk (f.z == 0) (.xor f.sd f.sa f.sb)
  | 0x18 => chk (f.z == 0) (.shl f.sd f.sa f.sb)
  | 0x19 => chk (f.z == 0) (.shr f.sd f.sa f.sb)
  | 0x1A => chk (f.z == 0) (.sar f.sd f.sa f.sb)
  | 0x20 => chk (f.z == 0) (.min f.sd f.sa f.sb)
  | 0x21 => chk (f.z == 0) (.max f.sd f.sa f.sb)
  | 0x22 => chk (f.z == 0) (.minu f.sd f.sa f.sb)
  | 0x23 => chk (f.z == 0) (.maxu f.sd f.sa f.sb)
  | 0x28 => chk (f.z == 0) (.slt f.sd f.sa f.sb)
  | 0x29 => chk (f.z == 0) (.sltu f.sd f.sa f.sb)
  | 0x30 => chk (f.z == 0 && f.sb == 0) (.clz f.sd f.sa)
  | 0x31 => chk (f.z == 0 && f.sb == 0) (.popc f.sd f.sa)
  | _ => none

def decodeU1 (f : PSI) : Nat → Option Instr
  | 0x00 => some (.addi f.sd f.sa (f.imm.signExtend 64))
  | 0x01 => some (.muli f.sd f.sa (f.imm.signExtend 64))
  | 0x08 => some (.andi f.sd f.sa (f.imm.signExtend 64))
  | 0x09 => some (.ori f.sd f.sa (f.imm.signExtend 64))
  | 0x0A => some (.xori f.sd f.sa (f.imm.signExtend 64))
  | 0x18 => some (.slti f.sd f.sa (f.imm.signExtend 64))
  | 0x19 => some (.sltiu f.sd f.sa (f.imm.signExtend 64))
  | 0x20 => chk (f.sa == 0) (.li f.sd (f.imm.signExtend 64))
  | 0x10 => chk (f.imm.extractLsb' 6 30 == 0) (.shli f.sd f.sa (f.imm.extractLsb' 0 6))
  | 0x11 => chk (f.imm.extractLsb' 6 30 == 0) (.shri f.sd f.sa (f.imm.extractLsb' 0 6))
  | 0x12 => chk (f.imm.extractLsb' 6 30 == 0) (.sari f.sd f.sa (f.imm.extractLsb' 0 6))
  | 0x28 => chk (f.imm.extractLsb' 12 24 == 0) (.bfx f.sd f.sa (f.imm.extractLsb' 0 6) (f.imm.extractLsb' 6 6))
  | 0x29 => chk (f.imm.extractLsb' 12 24 == 0) (.bfi f.sd f.sa (f.imm.extractLsb' 0 6) (f.imm.extractLsb' 6 6))
  | 0x30 => chk (f.imm.extractLsb' 7 29 == 0) (.mka f.sd f.sa (f.imm.extractLsb' 0 7))
  | _ => none

def decodeU2 (s : PS3) (i : PSI) (f : PB) (p : BitVec 48) : Nat → Option Instr
  | 0x00 => (Cond.ofCode f.cond).map fun c => .br c f.sa f.sb f.off
  | 0x01 => chk (f.sa.extractLsb' 3 3 == 0 && f.sb == 0 && f.cond == 0) (.bqT (f.sa.extractLsb' 0 3) f.off)
  | 0x02 => chk (f.sa.extractLsb' 3 3 == 0 && f.sb == 0 && f.cond == 0) (.bqF (f.sa.extractLsb' 0 3) f.off)
  | 0x03 => chk (f.sa == 0 && f.sb == 0 && f.cond == 0) (.jmp f.off)
  | 0x04 => chk (s.sd == 0 && s.sb == 0 && s.z == 0) (.jmpr s.sa)
  | 0x05 => chk (f.sa == 0 && f.sb == 0 && f.cond == 0) (.call f.off)
  | 0x06 => chk (s.sd == 0 && s.sb == 0 && s.z == 0) (.callr s.sa)
  | 0x07 => chk (p == 0) .ret
  | 0x08 => chk (i.sd == 0 && i.imm.extractLsb' 7 29 == 0) (.loop i.sa (i.imm.extractLsb' 0 7))
  | 0x09 => chk (i.sd == 0 && i.imm.extractLsb' 7 29 == 0) (.loopP i.sa (i.imm.extractLsb' 0 7) 0)
  | 0x0A => chk (i.sd == 0 && i.sa == 0 && i.imm.extractLsb' 7 5 == 0)
      (.loopi (i.imm.extractLsb' 12 24) (i.imm.extractLsb' 0 7))
  | 0x0B => (Cond.ofCode f.cond).bind fun c =>
      chk (f.off.extractLsb' 3 29 == 0) (.qset c (f.off.extractLsb' 0 3) f.sa f.sb)
  | _ => none

/-- An atomic: bit 31 of disp32 is the fetch flag, the rest a signed displacement (R39). -/
def decodeAtomic (f : PM) (mk : Size → Ord → Bool → SReg → SReg → W64 → Instr) : Option Instr :=
  (Size.ofCode f.size).bind fun z => (Ord.ofCode f.ord).bind fun o =>
    chk true (mk z o (f.disp.extractLsb' 31 1 == 1) f.sd f.base ((f.disp.extractLsb' 0 31).signExtend 64))

def decodeScalarMem (f : PM) (mk : Size → Ord → SReg → SReg → W64 → Instr) : Option Instr :=
  (Size.ofCode f.size).bind fun z => (Ord.ofCode f.ord).bind fun o => chk true (mk z o f.sd f.base (f.disp.signExtend 64))

def decodeU3 (f : PM) : Nat → Option Instr
  | 0x00 => decodeScalarMem f .ld
  | 0x01 => decodeScalarMem f .lds
  | 0x02 => decodeScalarMem f .st
  | 0x03 => decodeAtomic f .aadd
  | 0x04 => decodeAtomic f .aand
  | 0x05 => decodeAtomic f .aor
  | 0x06 => decodeAtomic f .axor
  | 0x07 => decodeAtomic f .amin
  | 0x08 => decodeAtomic f .amax
  | 0x09 => decodeAtomic f .aminu
  | 0x0A => decodeAtomic f .amaxu
  | 0x0B => decodeAtomic f .afadd
  | 0x0C => decodeAtomic f .afmin
  | 0x0D => decodeAtomic f .afmax
  | 0x0E => decodeAtomic f .aswp
  | 0x0F => decodeAtomic f .acas
  | _ => none

/-- A cell instruction: the sub-layout SI-C, decoded for the fields its row uses (R29, R37). -/
def decodeCell (f : PSI) (ok : PSI → SIC → Bool) (mk : SIC → Ord → CellRef → W32 → Option Instr) : Option Instr :=
  let c := SIC.of f.imm
  (Ord.ofCode c.ord).bind fun o => if c.refOk && ok f c then mk c o c.ref (c.val.zeroExtend 32) else none

def decodeU4 (f : PSI) (s : PS3) (p : BitVec 48) : Nat → Option Instr
  | 0x00 => decodeCell f (fun _ _ => true) fun c o r v =>
      (Test.ofCode c.test).bind fun t => chk true (.wait t o f.sd f.sa r v)
  | 0x01 => decodeCell f (fun _ c => c.test == 0) fun _ o r v => chk true (.take o f.sd f.sa r v)
  | 0x02 => decodeCell f (fun f c => f.sa == 0 && c.test == 0) fun _ o r v => chk true (.trytake o f.sd r v)
  | 0x03 => decodeCell f (fun f c => f.sd == 0 && f.sa == 0 && c.test == 0) fun _ o r v => chk true (.sig o r v)
  | 0x04 => decodeCell f (fun f c => f.sd == 0 && f.sa == 0 && c.test == 0 && c.val == 0) fun _ o r _ => chk true (.arrive o r)
  | 0x05 => decodeCell f (fun f c => f.sd == 0 && f.sa == 0 && c.test == 0) fun _ o r v => chk true (.cset o r v)
  | 0x06 => decodeCell f (fun f c => f.sa == 0 && c.test == 0 && c.val == 0) fun _ o r _ => chk true (.crd o f.sd r)
  | 0x07 => decodeCell f (fun f c => f.sd == 0 && c.test == 0 && c.ord == 0 && c.val == 0) fun _ _ r _ => chk true (.ccfg f.sa r)
  | 0x08 => decodeCell f (fun f c => f.sd == 0 && f.sa == 0 && c.test == 0 && c.ord == 0 && c.val == 0) fun _ _ r _ => chk true (.cclr r)
  | 0x10 => some (.spawn f.sd f.sa f.imm)
  | 0x11 => some (.spawnb f.sd f.sa f.imm)
  | 0x12 => some (.park f.sd f.sa f.imm)
  | 0x13 => chk (s.sd == 0 && s.sb == 0 && s.z == 0) (.taskDone s.sa)
  | 0x14 => chk (p == 0) .yield
  | 0x15 => chk (f.sa == 0 && f.imm.extractLsb' 3 33 == 0) (.widf f.sd (f.imm.extractLsb' 0 3))
  | _ => none

/-- The SI-C bits of a cell operand; a value that a prefix carries leaves imm14 zero (R44). -/
def cellBits (r : CellRef) (t : Test) (o : Ord) (v : W32) : BitVec 36 :=
  let imm : BitVec 14 := if v.toNat < 2 ^ 14 then v.extractLsb' 0 14 else 0
  match r with
  | .own c => SIC.toBits ⟨0, c, t.code, o.code, imm⟩
  | .remote sb => SIC.toBits ⟨sb, 0, t.code, o.code, imm⟩

def decodeU5 (f : PH) : Nat → Option Instr
  | 0x00 => chk (f.ha == 0) (.hld f.hd f.sa (f.imm.signExtend 64))
  | 0x01 => chk (f.hd == 0) (.hst f.ha f.sa (f.imm.signExtend 64))
  | 0x02 => chk (f.sa == 0 && f.imm == 0) (.hmov f.hd f.ha)
  | 0x03 => chk (f.imm == 0) (.hsetb f.hd f.ha f.sa)
  | 0x04 => chk (f.imm.extractLsb' 3 29 == 0) (.hsetd f.hd f.ha f.sa (f.imm.extractLsb' 0 3))
  | 0x05 => chk (f.imm.extractLsb' 3 29 == 0) (.hsets f.hd f.ha f.sa (f.imm.extractLsb' 0 3))
  | 0x06 => chk (f.imm.extractLsb' 3 29 == 0) (.hadv f.hd f.ha f.sa (f.imm.extractLsb' 0 3))
  | 0x07 => chk (f.hd == 0 && f.imm.extractLsb' 4 28 == 0) (.hget f.sa f.ha (f.imm.extractLsb' 0 4))
  | 0x08 => chk (f.hd == 0 && f.imm == 0) (.hchk f.ha f.sa)
  | 0x09 => chk (f.ha == 0 && f.sa == 0 && f.imm == 0) (.hclr f.hd)
  | 0x0A => (Ty.ofCode (f.imm.extractLsb' 28 4)).bind fun ty =>
      chk (f.hd.extractLsb' 4 1 == 0 && f.ha == 0 && f.sa == 0 && f.imm.extractLsb' 26 2 == 0 && f.imm.extractLsb' 10 6 == 0)
        (.tcfg (f.hd.extractLsb' 0 4) ty (f.imm.extractLsb' 16 10) (f.imm.extractLsb' 0 10))
  | _ => none

def decodeU6 (f : PV) : Nat → Option Instr
  | 0x00 => (LaneTy.ofCode f.ty).bind fun ty =>
      (Rnd.ofCode f.rnd).bind fun r =>
      chk (f.vc == 0 && f.aux == 0) (.vadd ty r f.vd f.va f.vb f.mask)
  | 0x01 => (LaneTy.ofCode f.ty).bind fun ty =>
      (Rnd.ofCode f.rnd).bind fun r =>
      chk (f.vc == 0 && f.aux == 0) (.vsub ty r f.vd f.va f.vb f.mask)
  | 0x02 => (LaneTy.ofCode f.ty).bind fun ty =>
      (Rnd.ofCode f.rnd).bind fun r =>
      chk (f.vc == 0 && f.aux == 0) (.vmul ty r f.vd f.va f.vb f.mask)
  | 0x03 => (Rnd.ofCode f.rnd).bind fun r =>
      chk (f.ty == 0 && f.aux == 0) (.vfma r f.vd f.va f.vb f.vc f.mask)
  | 0x04 => (Rnd.ofCode f.rnd).bind fun r =>
      chk (f.ty == 0 && f.aux == 0) (.vfms r f.vd f.va f.vb f.vc f.mask)
  | 0x05 => (Rnd.ofCode f.rnd).bind fun r =>
      chk (f.ty == 0 && f.aux == 0) (.vfnma r f.vd f.va f.vb f.vc f.mask)
  | 0x06 => (LaneTy.ofCode f.ty).bind fun ty =>
      chk (f.vc == 0 && f.rnd == 0 && f.aux == 0) (.vmin ty f.vd f.va f.vb f.mask)
  | 0x07 => (LaneTy.ofCode f.ty).bind fun ty =>
      chk (f.vc == 0 && f.rnd == 0 && f.aux == 0) (.vmax ty f.vd f.va f.vb f.mask)
  | 0x21 => (LaneTy.ofCode f.ty).bind fun ty =>
      chk (f.vc == 0 && f.rnd == 0 && f.aux == 0) (.vsel ty f.vd f.va f.vb f.mask)
  | 0x08 => (LaneTy.ofCode f.ty).bind fun ty =>
      chk (f.vb == 0 && f.vc == 0 && f.rnd == 0 && f.aux == 0) (.vabs ty f.vd f.va f.mask)
  | 0x09 => (LaneTy.ofCode f.ty).bind fun ty =>
      chk (f.vb == 0 && f.vc == 0 && f.rnd == 0 && f.aux == 0) (.vneg ty f.vd f.va f.mask)
  | 0x0A => chk (f.ty == 10 && f.vc == 0 && f.rnd == 0 && f.aux == 0) (.vadds f.vd f.va f.vb f.mask)
  | 0x0B => chk (f.ty == 10 && f.vc == 0 && f.rnd == 0 && f.aux == 0) (.vsubs f.vd f.va f.vb f.mask)
  | 0x10 => chk (f.ty == 10 && f.vc == 0 && f.rnd == 0 && f.aux == 0) (.vand f.vd f.va f.vb f.mask)
  | 0x11 => chk (f.ty == 10 && f.vc == 0 && f.rnd == 0 && f.aux == 0) (.vor f.vd f.va f.vb f.mask)
  | 0x12 => chk (f.ty == 10 && f.vc == 0 && f.rnd == 0 && f.aux == 0) (.vxor f.vd f.va f.vb f.mask)
  | 0x13 => chk (f.ty == 10 && f.vc == 0 && f.rnd == 0 && f.aux == 0) (.vandn f.vd f.va f.vb f.mask)
  | 0x14 => chk (f.ty == 10 && f.vc == 0 && f.rnd == 0 && f.aux == 0) (.vshl f.vd f.va f.vb f.mask)
  | 0x15 => chk (f.ty == 10 && f.vc == 0 && f.rnd == 0 && f.aux == 0) (.vshr f.vd f.va f.vb f.mask)
  | 0x16 => chk (f.ty == 10 && f.vc == 0 && f.rnd == 0 && f.aux == 0) (.vsar f.vd f.va f.vb f.mask)
  | 0x0C => (LaneTy.ofCode f.ty).bind fun ty =>
      chk (f.rnd == 0 && f.aux == 0) (.vclamp ty f.vd f.va f.vb f.vc f.mask)
  | 0x0D => (Rnd.ofCode f.rnd).bind fun r =>
      chk (f.ty == 0 && f.vc == 0 && f.aux == 0) (.vscale r f.vd f.va f.vb f.mask)
  | 0x0E => (Rnd.ofCode f.rnd).bind fun r =>
      chk (f.ty == 0 && f.vb == 0 && f.vc == 0 && f.aux == 0) (.vrint r f.vd f.va f.mask)
  | 0x17 => chk (f.ty == 10 && f.vb == 0 && f.vc == 0 && f.rnd == 0 && f.aux == 0) (.vpopc f.vd f.va f.mask)
  | 0x18 => (LaneTy.ofCode f.ty).bind fun ty =>
      chk (f.vd.extractLsb' 3 2 == 0 && f.vc == 0 && f.rnd == 0 && f.aux == 0) (.vcmpeq ty (f.vd.extractLsb' 0 3) f.va f.vb f.mask)
  | 0x19 => (LaneTy.ofCode f.ty).bind fun ty =>
      chk (f.vd.extractLsb' 3 2 == 0 && f.vc == 0 && f.rnd == 0 && f.aux == 0) (.vcmpne ty (f.vd.extractLsb' 0 3) f.va f.vb f.mask)
  | 0x1A => (LaneTy.ofCode f.ty).bind fun ty =>
      chk (f.vd.extractLsb' 3 2 == 0 && f.vc == 0 && f.rnd == 0 && f.aux == 0) (.vcmplt ty (f.vd.extractLsb' 0 3) f.va f.vb f.mask)
  | 0x1B => (LaneTy.ofCode f.ty).bind fun ty =>
      chk (f.vd.extractLsb' 3 2 == 0 && f.vc == 0 && f.rnd == 0 && f.aux == 0) (.vcmple ty (f.vd.extractLsb' 0 3) f.va f.vb f.mask)
  | 0x20 => (Ty.ofCode f.ty).bind fun d => (Ty.ofCode (f.aux.extractLsb' 0 4)).bind fun s =>
      (Rnd.ofCode f.rnd).bind fun r =>
      chk (f.aux.extractLsb' 4 14 == 0 && f.vb == 0 && f.vc == 0) (.vcvt d s r f.vd f.va f.mask)
  | 0x22 => (LaneTy.ofCode f.ty).bind fun ty =>
      chk (f.va == 0 && f.vb == 0 && f.vc == 0 && f.rnd == 0) (.vmovi ty f.vd (f.aux.signExtend 32) f.mask)
  | 0x23 => (LaneTy.ofCode f.ty).bind fun ty =>
      chk (f.aux.extractLsb' 6 12 == 0 && f.va == 0 && f.vb == 0 && f.vc == 0 && f.rnd == 0) (.vbcs ty f.vd (f.aux.extractLsb' 0 6) f.mask)
  | 0x28 => chk (f.ty == 0 && f.vb == 0 && f.vc == 0 && f.rnd == 0 && f.aux == 0) (.vexp2 f.vd f.va f.mask)
  | 0x29 => chk (f.ty == 0 && f.vb == 0 && f.vc == 0 && f.rnd == 0 && f.aux == 0) (.vlog2 f.vd f.va f.mask)
  | 0x2A => chk (f.ty == 0 && f.vb == 0 && f.vc == 0 && f.rnd == 0 && f.aux == 0) (.vrcp f.vd f.va f.mask)
  | 0x2B => chk (f.ty == 0 && f.vb == 0 && f.vc == 0 && f.rnd == 0 && f.aux == 0) (.vrsq f.vd f.va f.mask)
  | 0x2C => chk (f.ty == 0 && f.vb == 0 && f.vc == 0 && f.rnd == 0 && f.aux == 0) (.vsqrt f.vd f.va f.mask)
  | 0x2D => chk (f.ty == 0 && f.vb == 0 && f.vc == 0 && f.rnd == 0 && f.aux == 0) (.vtanh f.vd f.va f.mask)
  | 0x2E => chk (f.ty == 0 && f.vb == 0 && f.vc == 0 && f.rnd == 0 && f.aux == 0) (.vsinpi f.vd f.va f.mask)
  | 0x2F => chk (f.ty == 0 && f.vb == 0 && f.vc == 0 && f.rnd == 0 && f.aux == 0) (.vcospi f.vd f.va f.mask)
  | 0x30 => chk (f.ty == 10 && f.aux.extractLsb' 6 12 == 0 && f.vb == 0 && f.vc == 0 && f.rnd == 0) (.vhash f.vd f.va (f.aux.extractLsb' 0 6) f.mask)
  | _ => none

def decodeU7 (f : PV) : Nat → Option Instr
  | 0x00 => (Ty.ofCode f.ty).bind fun ty =>
      chk (f.aux.extractLsb' 0 13 == 0 && f.va == 0 && f.vb == 0 && f.vc == 0 && f.mask == 0 && f.rnd == 0) (.vld ty f.vd (f.aux.extractLsb' 13 5))
  | 0x01 => (Ty.ofCode f.ty).bind fun ty =>
      (Rnd.ofCode f.rnd).bind fun r =>
      chk (f.aux.extractLsb' 0 13 == 0 && f.vd == 0 && f.vb == 0 && f.vc == 0 && f.mask == 0) (.vst ty r (f.aux.extractLsb' 13 5) f.va)
  | 0x02 => (Ty.ofCode f.ty).bind fun ty =>
      chk (f.aux.extractLsb' 0 9 == 0 && f.va == 0 && f.vb == 0 && f.vc == 0 && f.mask == 0 && f.rnd == 0) (.vldr ty f.vd (f.aux.extractLsb' 13 5) (f.aux.extractLsb' 9 4))
  | 0x03 => (Ty.ofCode f.ty).bind fun ty =>
      (Rnd.ofCode f.rnd).bind fun r =>
      chk (f.aux.extractLsb' 0 9 == 0 && f.vd == 0 && f.vb == 0 && f.vc == 0 && f.mask == 0) (.vstr ty r (f.aux.extractLsb' 13 5) f.va (f.aux.extractLsb' 9 4))
  | 0x04 => chk (f.vb == 0 && f.vc == 0 && f.mask == 0 && f.ty == 0 && f.rnd == 0 && f.aux == 0) (.vmov f.vd f.va)
  | 0x05 => chk (f.aux.extractLsb' 10 2 == 0 && f.vd == 0 && f.vb == 0 && f.vc == 0 && f.mask == 0 && f.ty == 0 && f.rnd == 0) (.vext (f.aux.extractLsb' 12 6) f.va (f.aux.extractLsb' 0 10))
  | 0x06 => chk (f.aux.extractLsb' 10 2 == 0 && f.va == 0 && f.vb == 0 && f.vc == 0 && f.mask == 0 && f.ty == 0 && f.rnd == 0) (.vins f.vd (f.aux.extractLsb' 12 6) (f.aux.extractLsb' 0 10))
  | 0x08 => chk (f.aux.extractLsb' 6 12 == 0 && f.vb == 0 && f.vc == 0 && f.mask == 0 && f.ty == 0 && f.rnd == 0) (.vrotr f.vd f.va (f.aux.extractLsb' 0 6))
  | 0x09 => chk (f.aux.extractLsb' 6 12 == 0 && f.vb == 0 && f.vc == 0 && f.mask == 0 && f.ty == 0 && f.rnd == 0) (.vbcr f.vd f.va (f.aux.extractLsb' 0 6))
  | 0x0C => chk (f.aux.extractLsb' 4 14 == 0 && f.vb == 0 && f.vc == 0 && f.mask == 0 && f.ty == 0 && f.rnd == 0) (.vrotc f.vd f.va (f.aux.extractLsb' 0 4))
  | 0x0D => chk (f.aux.extractLsb' 4 14 == 0 && f.vb == 0 && f.vc == 0 && f.mask == 0 && f.ty == 0 && f.rnd == 0) (.vbcc f.vd f.va (f.aux.extractLsb' 0 4))
  | 0x0A => (LaneTy.ofCode f.ty).bind fun ty =>
      (RedOp.ofCode (f.aux.extractLsb' 0 2)).bind fun q =>
      chk (f.aux.extractLsb' 2 16 == 0 && f.vb == 0 && f.vc == 0 && f.mask == 0 && f.rnd == 0) (.vredr ty q f.vd f.va)
  | 0x0E => (LaneTy.ofCode f.ty).bind fun ty =>
      (RedOp.ofCode (f.aux.extractLsb' 0 2)).bind fun q =>
      chk (f.aux.extractLsb' 2 16 == 0 && f.vb == 0 && f.vc == 0 && f.mask == 0 && f.rnd == 0) (.vredc ty q f.vd f.va)
  | 0x10 => chk (f.vc == 0 && f.mask == 0 && f.ty == 0 && f.rnd == 0 && f.aux == 0) (.vpermr f.vd f.va f.vb)
  | 0x18 => chk (f.vd.extractLsb' 3 2 == 0 && f.va.extractLsb' 3 2 == 0 && f.vb.extractLsb' 3 2 == 0 && f.vc == 0 && f.mask == 0 && f.ty == 0 && f.rnd == 0 && f.aux == 0) (.kand (f.vd.extractLsb' 0 3) (f.va.extractLsb' 0 3) (f.vb.extractLsb' 0 3))
  | 0x19 => chk (f.vd.extractLsb' 3 2 == 0 && f.va.extractLsb' 3 2 == 0 && f.vb.extractLsb' 3 2 == 0 && f.vc == 0 && f.mask == 0 && f.ty == 0 && f.rnd == 0 && f.aux == 0) (.kor (f.vd.extractLsb' 0 3) (f.va.extractLsb' 0 3) (f.vb.extractLsb' 0 3))
  | 0x1A => chk (f.vd.extractLsb' 3 2 == 0 && f.va.extractLsb' 3 2 == 0 && f.vb.extractLsb' 3 2 == 0 && f.vc == 0 && f.mask == 0 && f.ty == 0 && f.rnd == 0 && f.aux == 0) (.kxor (f.vd.extractLsb' 0 3) (f.va.extractLsb' 0 3) (f.vb.extractLsb' 0 3))
  | 0x1B => chk (f.vd.extractLsb' 3 2 == 0 && f.va.extractLsb' 3 2 == 0 && f.vb == 0 && f.vc == 0 && f.mask == 0 && f.ty == 0 && f.rnd == 0 && f.aux == 0) (.knot (f.vd.extractLsb' 0 3) (f.va.extractLsb' 0 3))
  | 0x1C => chk (f.va.extractLsb' 3 2 == 0 && f.aux.extractLsb' 6 12 == 0 && f.vd == 0 && f.vb == 0 && f.vc == 0 && f.mask == 0 && f.ty == 0 && f.rnd == 0) (.kpopc (f.aux.extractLsb' 0 6) (f.va.extractLsb' 0 3))
  | 0x1D => chk (f.va.extractLsb' 3 2 == 0 && f.aux.extractLsb' 6 12 == 0 && f.vd == 0 && f.vb == 0 && f.vc == 0 && f.mask == 0 && f.ty == 0 && f.rnd == 0) (.kfirst (f.aux.extractLsb' 0 6) (f.va.extractLsb' 0 3))
  | _ => none

def decodeU8 (f : PV) : Nat → Option Instr
  | 0x00 => (LaneTy.ofCode f.ty).bind fun ty =>
      chk (f.vb == 0 && f.vc == 0 && f.rnd == 0 && f.aux == 0) (.vargmaxr ty f.vd f.va f.mask)
  | 0x01 => (LaneTy.ofCode f.ty).bind fun ty =>
      chk (f.vb == 0 && f.vc == 0 && f.rnd == 0 && f.aux == 0) (.vargmaxc ty f.vd f.va f.mask)
  | 0x02 => (LaneTy.ofCode f.ty).bind fun ty =>
      chk (f.vb == 0 && f.vc == 0 && f.rnd == 0 && f.aux == 0) (.vargminr ty f.vd f.va f.mask)
  | 0x03 => (LaneTy.ofCode f.ty).bind fun ty =>
      chk (f.vb == 0 && f.vc == 0 && f.rnd == 0 && f.aux == 0) (.vargminc ty f.vd f.va f.mask)
  | 0x08 => (LaneTy.ofCode f.ty).bind fun ty =>
      chk (f.aux.extractLsb' 7 11 == 0 && f.vc == 0 && f.rnd == 0) (.vtopk ty f.vd f.va f.vb f.mask (f.aux.extractLsb' 0 7))
  | 0x09 => (LaneTy.ofCode f.ty).bind fun ty =>
      chk (f.aux.extractLsb' 7 11 == 0 && f.vc == 0 && f.rnd == 0 && f.mask == 0) (.vtopkm ty f.vd f.va f.vb (f.aux.extractLsb' 0 7))
  | 0x10 => chk (f.aux.extractLsb' 0 6 == 0 && f.va == 0 && f.vb == 0 && f.vc == 0 && f.ty == 0 && f.rnd == 0) (.vpart f.vd (f.aux.extractLsb' 12 6) (f.aux.extractLsb' 6 6) f.mask)
  | 0x11 => chk (f.aux.extractLsb' 5 13 == 0 && f.vb == 0 && f.vc == 0 && f.ty == 0 && f.rnd == 0) (.vbucket f.vd f.va (f.aux.extractLsb' 0 5) f.mask)
  | 0x18 => (Ty.ofCode f.ty).bind fun ty =>
      chk (f.vb == 0 && f.vc == 0 && f.mask == 0 && f.rnd == 0 && f.aux == 0) (.vprune48 ty f.vd f.va)
  | 0x19 => (Ty.ofCode f.ty).bind fun ty =>
      chk (f.vb == 0 && f.vc == 0 && f.mask == 0 && f.rnd == 0 && f.aux == 0) (.vspread48 ty f.vd f.va)
  | 0x20 => chk (f.aux.extractLsb' 6 12 == 0 && f.vb == 0 && f.vc == 0 && f.ty == 0 && f.rnd == 0) (.vcompress f.vd f.va (f.aux.extractLsb' 0 6) f.mask)
  | 0x21 => chk (f.aux.extractLsb' 6 12 == 0 && f.vb == 0 && f.vc == 0 && f.ty == 0 && f.rnd == 0) (.vexpand f.vd f.va (f.aux.extractLsb' 0 6) f.mask)
  | _ => none

/-- An MX command: both types and the accumulator type decoded, flag bit 1 zero (R29, R30). -/
def decodeMX (f : PE) (ok : OMX → Bool) (mk : OMX → Ty → Ty → Ty → Bool → Eng → Instr) : Option Instr :=
  let m := OMX.of f.ops
  (Ty.ofCode m.tyA).bind fun a => (Ty.ofCode m.tyB).bind fun b => (Ty.ofCode m.tyC).bind fun c =>
    chk (f.zeroOk && m.z1 == 0 && ok m) (mk m a b c (m.ov == 1) f.eng)

def decodeU9 (f : PE) (x : OET) (d : OED) : Nat → Option Instr
  | 0x00 => chk (f.zeroOk && x.r.extractLsb' 0 15 == 0) (.tld x.t (x.r.extractLsb' 15 5) f.eng)
  | 0x01 => chk (f.zeroOk && x.r.extractLsb' 0 14 == 0) (.tldw x.t (x.r.extractLsb' 14 6) f.eng)
  | 0x02 => chk (f.zeroOk && x.r.extractLsb' 0 15 == 0) (.tst x.t (x.r.extractLsb' 15 5) f.eng)
  | 0x08 => decodeMX f (fun _ => true) fun m a b c z e => .mma m.acc m.tA m.tB a b c z e
  | 0x09 => decodeMX f (fun _ => true) fun m a b c z e => .mmaw m.acc m.tA m.tB a b c z e
  | 0x0A => decodeMX f (fun _ => true) fun m a b c z e => .mmasp m.acc m.tA m.tB a b c z e
  | 0x0B => decodeMX f (fun _ => true) fun m a b c z e => .mmaspw m.acc m.tA m.tB a b c z e
  | 0x0C => decodeMX f (fun m => m.tB == 0 && m.tyB == m.tyA) fun m a _ c z e => .mtrans m.acc m.tA a c z e
  | 0x0D => decodeMX f (fun m => m.tyB == 10) fun m a _ c z e => .mperm m.acc m.tA m.tB a c z e
  | 0x0E => decodeMX f (fun m => m.tB == 0 && m.tyB == 0) fun m a _ c z e => .mrsum m.acc m.tA a c z e
  | 0x10 => chk (f.zeroOk && f.ops.extractLsb' 0 22 == 0) (.mzero (f.ops.extractLsb' 22 2) f.eng)
  | 0x11 => (Ty.ofCode d.ty).bind fun ty => (Rnd.ofCode d.rnd).bind fun r =>
      chk (f.zeroOk && d.z == 0 && (d.kind == 1 || d.tgt.extractLsb' 4 1 == 0))
        (.mdrain d.acc ty r (if d.kind = 1 then .handle d.tgt else .tile (d.tgt.extractLsb' 0 4)) f.eng)
  | 0x18 => chk (f.zeroOk && f.ops == 0) (.mnop f.eng)
  | _ => none

/-- The E format of an engine command: wait and signal fields of e, and an operand sub-layout. -/
def engBits (e : Eng) (ops : BitVec 24) : BitVec 48 :=
  PE.toBits ⟨BitVec.ofBool e.wait.isSome, (e.wait.map (·.1)).getD 0, BitVec.ofBool e.sig.isSome, (e.sig.map (·.1)).getD 0, ops⟩

def decodeU10 (f : PE) (c : OEC) (ok l : Bool) : Nat → Option Instr
  | 0x00 => chk (ok && c.sub == 0) (.copy c.hd c.ha c.sa l f.eng)
  | 0x01 => chk (ok && c.sub == 0) (.gath c.hd c.ha c.sa l f.eng)
  | 0x02 => chk (ok && c.sub == 0) (.scat c.hd c.ha c.sa l f.eng)
  | 0x03 => (Size.ofCode (c.sub.extractLsb' 0 2)).bind fun z =>
      chk (ok && c.sub.extractLsb' 2 2 == 0 && c.ha == 0) (.fill z c.hd c.sa l f.eng)
  | 0x04 => (RedaOp.ofCode c.sub).bind fun r => chk (ok && c.sa == 0) (.reda r c.hd c.ha l f.eng)
  | 0x05 => chk (ok && c.sub == 0 && c.lk == 0) (.putc c.hd c.ha c.sa f.eng)
  | 0x06 => chk (ok && c.sub == 0 && c.lk == 1) (.rrot c.hd c.ha c.sa f.eng)
  | 0x08 => chk (ok && c.sub == 0 && c.lk == 0) (.copySeal c.hd c.ha c.sa f.eng)
  | 0x09 => chk (ok && c.sub == 0 && c.lk == 0) (.copyOpen c.hd c.ha c.sa f.eng)
  | 0x0A => chk (f.zeroOk && f.ops == 0) (.cnop f.eng)
  | _ => none

def decodeU11 (f : PE) (s : OES) (ok none' : Bool) : Nat → Option Instr
  | 0x00 => chk (ok && none') (.swopen s.x s.y f.eng)
  | 0x01 => chk ok (.swapp s.x s.y s.vr s.row f.eng)
  | 0x02 => chk (ok && none') (.swqry s.x s.y f.eng)
  | 0x03 => chk (ok && s.y == 0) (.swpop s.vr s.x s.row f.eng)
  | 0x04 => chk (ok && none') (.swevt s.x s.y f.eng)
  | 0x05 => chk (ok && none') (.swsave s.x s.y f.eng)
  | 0x06 => chk (ok && none') (.swload s.x s.y f.eng)
  | 0x07 => chk (ok && none' && s.y == 0) (.swclose s.x f.eng)
  | _ => none

def decodeU12 (v : PV) (s : PS3) (f : PE) (w : OEW) (ok : Bool) : Nat → Option Instr
  | 0x00 => (Ty.ofCode v.ty).bind fun ty =>
      chk (v.va == 0 && v.vb == 0 && v.vc == 0 && v.mask == 0 && v.rnd == 0 && v.aux.extractLsb' 0 12 == 0)
        (.wld ty v.vd (v.aux.extractLsb' 12 6))
  | 0x01 => chk (ok && w.sb == 0) (.wprog w.sa w.ha f.eng)
  | 0x02 => chk ok (.wprogs w.sa w.ha w.sb f.eng)
  | 0x03 => chk (ok && w.ha == 0 && w.sb == 0) (.wfree w.sa f.eng)
  | 0x04 => chk (ok && w.sb == 0) (.wmeas w.ha w.sa f.eng)
  | 0x05 => chk (ok && w.ha == 0 && w.sb == 0) (.wscrub w.sa f.eng)
  | 0x06 => chk (ok && w.sb == 0) (.wchk w.ha w.sa f.eng)
  | 0x07 => chk (s.sb == 0 && s.z == 0) (.wstat s.sd s.sa)
  | _ => none

def decodeU13 (f : PY) (bare : Bool) (hi : BitVec 6) (p : BitVec 48) : Nat → Option Instr
  | 0x00 => chk (p == 0) .nop
  | 0x01 => (CtlReg.ofCode f.cr hi).bind fun c => chk (f.sa == 0 && f.low == c.low) (.crr f.sd c)
  | 0x02 => (CtlReg.ofCode f.cr 0).bind fun c => chk (f.sd == 0 && f.low == 0) (.crw c f.sa)
  | 0x08 => (Scope.ofCode (f.low.extractLsb' 21 3)).bind fun c => chk (bare && f.low.extractLsb' 0 21 == 0) (.fence c)
  | 0x09 => chk (f.cr == 0 && f.low.extractLsb' 0 18 == 0) (.tlock f.sd f.sa hi)
  | 0x0A => chk (f.sd == 0 && f.cr == 0 && f.low.extractLsb' 0 18 == 0) (.tunlock f.sa hi)
  | 0x10 => chk (p == 0) .phase
  | 0x18 => chk (f.sa == 0 && f.cr == 0 && f.low == 0) (.fqpop f.sd)
  | 0x19 => chk (f.sd == 0 && f.cr == 0 && f.low == 0) (.fresume f.sa)
  | 0x1A => chk (f.sd == 0 && f.cr == 0 && f.low == 0) (.fabort f.sa)
  | 0x1B => chk (f.sd == 0 && f.cr == 0 && f.low == 0) (.frestart f.sa)
  | 0x20 => chk (bare && f.low.extractLsb' 0 22 == 0) (.qwait (f.low.extractLsb' 23 1 == 1) (f.low.extractLsb' 22 1 == 1))
  | 0x30 => chk bare (.brk f.low)
  | _ => none

/-- One instruction word, operands at their defaults: amounts 1, epilogue 0, immediates sign-extended (R37). Guard 8 is
reserved (R25); units 14 and 15 hold no instruction. -/
def decodeUnit (p : BitVec 48) (op : Nat) : Nat → Option Instr
  | 0 => decodeU0 (PS3.of p) op
  | 1 => decodeU1 (PSI.of p) op
  | 2 => decodeU2 (PS3.of p) (PSI.of p) (PB.of p) p op
  | 3 => decodeU3 (PM.of p) op
  | 4 => decodeU4 (PSI.of p) (PS3.of p) p op
  | 5 => decodeU5 (PH.of p) op
  | 6 => decodeU6 (PV.of p) op
  | 7 => decodeU7 (PV.of p) op
  | 8 => decodeU8 (PV.of p) op
  | 9 => decodeU9 (PE.of p) (OET.of (PE.of p).ops) (OED.of (PE.of p).ops) op
  | 10 => decodeU10 (PE.of p) (OEC.of (PE.of p).ops) ((PE.of p).zeroOk && (OEC.of (PE.of p).ops).z == 0)
      ((OEC.of (PE.of p).ops).lk == 1) op
  | 11 => decodeU11 (PE.of p) (OES.of (PE.of p).ops) ((PE.of p).zeroOk && (OES.of (PE.of p).ops).z == 0)
      ((OES.of (PE.of p).ops).vr == 0 && (OES.of (PE.of p).ops).row == 0) op
  | 12 => decodeU12 (PV.of p) (PS3.of p) (PE.of p) (OEW.of (PE.of p).ops)
      ((PE.of p).zeroOk && (OEW.of (PE.of p).ops).z == 0) op
  | 13 => decodeU13 (PY.of p) ((PY.of p).sd == 0 && (PY.of p).sa == 0 && (PY.of p).cr == 0)
      ((PY.of p).low.extractLsb' 18 6) p op
  | _ => none

def decodeWord (w : W64) : Option Instr :=
  if wGuard w = 8 then none else decodeUnit (wPay w) (wOp w).toNat (wUnit w).toNat

/-! ### Prefixes (R42–R46) -/

/-- What the prefixes of a group supply. -/
structure Pfx where
  imm : Option W32 := none
  eng : Option (Bool × BitVec 20 × BitVec 20) := none
  epi : Option (BitVec 3) := none
deriving DecidableEq, Repr

/-- UNIT 15 with OP 0–2 is a prefix; any other OP of unit 15 is no instruction and ends the group (R37). -/
def isPfx (w : W64) : Bool := wUnit w == 15 && decide ((wOp w).toNat ≤ 2)

/-- A prefix word, its G and its zero fields zero (R43); `none` is PROG.ILLEGAL. -/
def decodePfx (w : W64) : Option Pfx :=
  let p := wPay w
  let e := PfE.of p
  if wGuard w ≠ 0 then none else
  match (wOp w).toNat with
  | 0 => if p.extractLsb' 32 16 = 0 then some { imm := some (p.extractLsb' 0 32) } else none
  | 1 => if e.z = 0 then some { eng := some (e.hold == 1, e.wa, e.sa) } else none
  | 2 => if p.extractLsb' 3 45 = 0 then some { epi := some (p.extractLsb' 0 3) } else none
  | _ => none

/-- Two prefixes together; two of one kind are a breach (R46). -/
def Pfx.join (a b : Pfx) : Option Pfx :=
  if (a.imm.isSome && b.imm.isSome) || (a.eng.isSome && b.eng.isSome) || (a.epi.isSome && b.epi.isSome) then none
  else some { imm := a.imm.or b.imm, eng := a.eng.or b.eng, epi := a.epi.or b.epi }

/-- PFX.IMM on a full imm36: the top four bits of P are zero (R44). -/
def immFull (q : W32) (x : W64) : Option W64 :=
  if q.extractLsb' 28 4 = 0 then some (cat 64 (q.extractLsb' 0 28) (x.extractLsb' 0 36)) else none

/-- PFX.IMM on a 32-bit displacement (R44). -/
def immDisp (q : W32) (x : W64) : W64 := cat 64 q (x.extractLsb' 0 32)

/-- PFX.IMM on an atomic's displacement: 63 bits, sign-extended (R39). -/
def immAtomic (q : W32) (x : W64) : W64 := (cat 63 q (x.extractLsb' 0 31)).signExtend 64

/-- PFX.IMM on a value V: imm14 must be zero (R44). -/
def immVal (q v : W32) : Option W32 := if v = 0 then some q else none

/-- The instruction of a group with its P supplied; `none` is a prefix breach (R44, R46). -/
def Instr.withImm (q : W32) : Instr → Option Instr

  | .addi d a x => (immFull q x).map (.addi d a)
  | .muli d a x => (immFull q x).map (.muli d a)
  | .andi d a x => (immFull q x).map (.andi d a)
  | .ori d a x => (immFull q x).map (.ori d a)
  | .xori d a x => (immFull q x).map (.xori d a)
  | .slti d a x => (immFull q x).map (.slti d a)
  | .sltiu d a x => (immFull q x).map (.sltiu d a)
  | .li d x => (immFull q x).map (.li d)
  | .ld z o d b x => some (.ld z o d b (immDisp q x))
  | .lds z o d b x => some (.lds z o d b (immDisp q x))
  | .st z o d b x => some (.st z o d b (immDisp q x))
  | .aadd z o f d b x => some (.aadd z o f d b (immAtomic q x))
  | .aand z o f d b x => some (.aand z o f d b (immAtomic q x))
  | .aor z o f d b x => some (.aor z o f d b (immAtomic q x))
  | .axor z o f d b x => some (.axor z o f d b (immAtomic q x))
  | .amin z o f d b x => some (.amin z o f d b (immAtomic q x))
  | .amax z o f d b x => some (.amax z o f d b (immAtomic q x))
  | .aminu z o f d b x => some (.aminu z o f d b (immAtomic q x))
  | .amaxu z o f d b x => some (.amaxu z o f d b (immAtomic q x))
  | .afadd z o f d b x => some (.afadd z o f d b (immAtomic q x))
  | .afmin z o f d b x => some (.afmin z o f d b (immAtomic q x))
  | .afmax z o f d b x => some (.afmax z o f d b (immAtomic q x))
  | .aswp z o f d b x => some (.aswp z o f d b (immAtomic q x))
  | .acas z o f d b x => some (.acas z o f d b (immAtomic q x))
  | .wait t o d l c v => (immVal q v).bind fun v => if t.valueOk v then some (.wait t o d l c v) else none
  | .take o d l c v => (immVal q v).map (.take o d l c)
  | .trytake o d c v => (immVal q v).map (.trytake o d c)
  | .sig o c v => (immVal q v).map (.sig o c)
  | .cset o c v => (immVal q v).map (.cset o c)
  | .hld d a x => some (.hld d a (immDisp q x))
  | .hst h a x => some (.hst h a (immDisp q x))
  | .vmovi ty d x k => (immVal q x).map fun v => .vmovi ty d v k
  | _ => none

/-- PFX.ENG on the wait and signal fields: a nonzero amount needs its field enabled (R45). -/
def Eng.withAmounts (hold : Bool) (wa sa : BitVec 20) (e : Eng) : Option Eng :=
  if (e.wait.isNone && wa != 0) || (e.sig.isNone && sa != 0) then none
  else some { wait := e.wait.map fun c => (c.1, wa), sig := e.sig.map fun c => (c.1, sa), hold := hold }

/-- The engine fields of a command of units 9 to 12. -/
def Instr.eng? : Instr → Option Eng
  | .tld _ _ e => some e
  | .tldw _ _ e => some e
  | .tst _ _ e => some e
  | .mma _ _ _ _ _ _ _ e => some e
  | .mmaw _ _ _ _ _ _ _ e => some e
  | .mmasp _ _ _ _ _ _ _ e => some e
  | .mmaspw _ _ _ _ _ _ _ e => some e
  | .mtrans _ _ _ _ _ e => some e
  | .mperm _ _ _ _ _ _ e => some e
  | .mrsum _ _ _ _ _ e => some e
  | .mzero _ e => some e
  | .mdrain _ _ _ _ e => some e
  | .mnop e => some e
  | .copy _ _ _ _ e => some e
  | .gath _ _ _ _ e => some e
  | .scat _ _ _ _ e => some e
  | .fill _ _ _ _ e => some e
  | .reda _ _ _ _ e => some e
  | .putc _ _ _ e => some e
  | .rrot _ _ _ e => some e
  | .copySeal _ _ _ e => some e
  | .copyOpen _ _ _ e => some e
  | .cnop e => some e
  | .swopen _ _ e => some e
  | .swapp _ _ _ _ e => some e
  | .swqry _ _ e => some e
  | .swpop _ _ _ e => some e
  | .swevt _ _ e => some e
  | .swsave _ _ e => some e
  | .swload _ _ e => some e
  | .swclose _ e => some e
  | .wprog _ _ e => some e
  | .wprogs _ _ _ e => some e
  | .wfree _ e => some e
  | .wmeas _ _ e => some e
  | .wscrub _ e => some e
  | .wchk _ _ e => some e
  | _ => none

/-- The same command with other engine fields. -/
def Instr.setEng (e : Eng) : Instr → Instr
  | .tld a b _ => .tld a b e
  | .tldw a b _ => .tldw a b e
  | .tst a b _ => .tst a b e
  | .mma a b c d f g h _ => .mma a b c d f g h e
  | .mmaw a b c d f g h _ => .mmaw a b c d f g h e
  | .mmasp a b c d f g h _ => .mmasp a b c d f g h e
  | .mmaspw a b c d f g h _ => .mmaspw a b c d f g h e
  | .mtrans a b c d f _ => .mtrans a b c d f e
  | .mperm a b c d f g _ => .mperm a b c d f g e
  | .mrsum a b c d f _ => .mrsum a b c d f e
  | .mzero a _ => .mzero a e
  | .mdrain a b c d _ => .mdrain a b c d e
  | .mnop _ => .mnop e
  | .copy a b c d _ => .copy a b c d e
  | .gath a b c d _ => .gath a b c d e
  | .scat a b c d _ => .scat a b c d e
  | .fill a b c d _ => .fill a b c d e
  | .reda a b c d _ => .reda a b c d e
  | .putc a b c _ => .putc a b c e
  | .rrot a b c _ => .rrot a b c e
  | .copySeal a b c _ => .copySeal a b c e
  | .copyOpen a b c _ => .copyOpen a b c e
  | .cnop _ => .cnop e
  | .swopen a b _ => .swopen a b e
  | .swapp a b c d _ => .swapp a b c d e
  | .swqry a b _ => .swqry a b e
  | .swpop a b c _ => .swpop a b c e
  | .swevt a b _ => .swevt a b e
  | .swsave a b _ => .swsave a b e
  | .swload a b _ => .swload a b e
  | .swclose a _ => .swclose a e
  | .wprog a b _ => .wprog a b e
  | .wprogs a b c _ => .wprogs a b c e
  | .wfree a _ => .wfree a e
  | .wmeas a b _ => .wmeas a b e
  | .wscrub a _ => .wscrub a e
  | .wchk a b _ => .wchk a b e
  | i => i

def Instr.withEng (h : Bool) (wa sa : BitVec 20) (i : Instr) : Option Instr :=
  i.eng?.bind fun e => (e.withAmounts h wa sa).bind fun e => if (i.setEng e).wf then some (i.setEng e) else none

def Instr.withEpi (n : BitVec 3) : Instr → Option Instr
  | .loopP a l _ => some (.loopP a l n)
  | _ => none

def Pfx.apply (x : Pfx) (i : Instr) : Option Instr :=
  let i1 := match x.imm with
    | some q => i.withImm q
    | none => some i
  let i2 := match x.eng with
    | some (h, wa, sa) => i1.bind (·.withEng h wa sa)
    | none => i1
  match x.epi with
  | some n => i2.bind (·.withEpi n)
  | none => i2

/-! ### A group (R42): up to three prefixes and the instruction -/

/-- What issues: the guard, the instruction with its prefixes applied, and how many words it took. -/
structure Group where
  guard : BitVec 4
  instr : Instr
  words : List W64
deriving DecidableEq, Repr

/-- The words of the group at the head of a word sequence: prefixes until a word that is none, four words at most. -/
def groupWords : Nat → List W64 → List W64
  | _, [] => []
  | 0, w :: _ => [w]
  | n + 1, w :: ws => if isPfx w then w :: groupWords n ws else [w]

/-- The prefixes of a group decoded (`none` is PROG.ILLEGAL), then joined (`none` is a breach of R46). -/
def groupPfx : List W64 → Option (Option Pfx)
  | [] => some (some {})
  | w :: ws => (decodePfx w).bind fun a => (groupPfx ws).map fun r => r.bind fun b => a.join b

/-- A group's words read in the order of R26: PROG.ILLEGAL for a defect of any word, then PROG.PREFIX. A fourth
prefix in a row repeats a kind, so it is a breach. -/
def decodeGroup (ws : List W64) : Except Defect Group :=
  match ws.getLast? with
  | none => .error .illegal
  | some w =>
    if isPfx w then
      match groupPfx ws with
      | none => .error .illegal
      | some _ => .error .breach
    else
      match groupPfx ws.dropLast, decodeWord w with
      | none, _ => .error .illegal
      | _, none => .error .illegal
      | some none, some _ => .error .breach
      | some (some x), some i =>
        match x.apply i with
        | none => .error .breach
        | some i => .ok ⟨wGuard w, i, ws⟩

/-- Decoding at the head of a word sequence. -/
def decode (ws : List W64) : Except Defect Group := decodeGroup (groupWords 3 ws)

/-- The first word of the value of a register operand is bit 0 upwards: word n of a numbered instruction. -/
def wordsOfNat : Nat → Nat → List W64
  | 0, _ => []
  | n + 1, v => BitVec.ofNat 64 v :: wordsOfNat n (v / 2 ^ 64)

/-- The decoder on an instruction given as one number, its first word in the low 64 bits (`nbits` of them are the
row's; the bits above are zero). -/
def decodeTableWord (nbits w : Nat) : Option Instr :=
  match decode (wordsOfNat 4 (w % 2 ^ nbits)) with
  | .ok g => some g.instr
  | .error _ => none

/-! ### The encoder -/

/-- The instruction word under guard g, or `none` for what has no encoding. -/
def encodeWord (g : BitVec 4) : Instr → Option W64
  | .add d a b => some (mkWord 0 0x01 g (PS3.toBits ⟨d, a, b, 0⟩))
  | .sub d a b => some (mkWord 0 0x02 g (PS3.toBits ⟨d, a, b, 0⟩))
  | .mul d a b => some (mkWord 0 0x03 g (PS3.toBits ⟨d, a, b, 0⟩))
  | .mulh d a b => some (mkWord 0 0x04 g (PS3.toBits ⟨d, a, b, 0⟩))
  | .div d a b => some (mkWord 0 0x05 g (PS3.toBits ⟨d, a, b, 0⟩))
  | .divu d a b => some (mkWord 0 0x06 g (PS3.toBits ⟨d, a, b, 0⟩))
  | .rem d a b => some (mkWord 0 0x07 g (PS3.toBits ⟨d, a, b, 0⟩))
  | .remu d a b => some (mkWord 0 0x08 g (PS3.toBits ⟨d, a, b, 0⟩))
  | .and d a b => some (mkWord 0 0x10 g (PS3.toBits ⟨d, a, b, 0⟩))
  | .or d a b => some (mkWord 0 0x11 g (PS3.toBits ⟨d, a, b, 0⟩))
  | .xor d a b => some (mkWord 0 0x12 g (PS3.toBits ⟨d, a, b, 0⟩))
  | .shl d a b => some (mkWord 0 0x18 g (PS3.toBits ⟨d, a, b, 0⟩))
  | .shr d a b => some (mkWord 0 0x19 g (PS3.toBits ⟨d, a, b, 0⟩))
  | .sar d a b => some (mkWord 0 0x1A g (PS3.toBits ⟨d, a, b, 0⟩))
  | .min d a b => some (mkWord 0 0x20 g (PS3.toBits ⟨d, a, b, 0⟩))
  | .max d a b => some (mkWord 0 0x21 g (PS3.toBits ⟨d, a, b, 0⟩))
  | .minu d a b => some (mkWord 0 0x22 g (PS3.toBits ⟨d, a, b, 0⟩))
  | .maxu d a b => some (mkWord 0 0x23 g (PS3.toBits ⟨d, a, b, 0⟩))
  | .slt d a b => some (mkWord 0 0x28 g (PS3.toBits ⟨d, a, b, 0⟩))
  | .sltu d a b => some (mkWord 0 0x29 g (PS3.toBits ⟨d, a, b, 0⟩))
  | .clz d a => some (mkWord 0 0x30 g (PS3.toBits ⟨d, a, 0, 0⟩))
  | .popc d a => some (mkWord 0 0x31 g (PS3.toBits ⟨d, a, 0, 0⟩))
  | .addi d a x => some (mkWord 1 0x00 g (PSI.toBits ⟨d, a, x.extractLsb' 0 36⟩))
  | .muli d a x => some (mkWord 1 0x01 g (PSI.toBits ⟨d, a, x.extractLsb' 0 36⟩))
  | .andi d a x => some (mkWord 1 0x08 g (PSI.toBits ⟨d, a, x.extractLsb' 0 36⟩))
  | .ori d a x => some (mkWord 1 0x09 g (PSI.toBits ⟨d, a, x.extractLsb' 0 36⟩))
  | .xori d a x => some (mkWord 1 0x0A g (PSI.toBits ⟨d, a, x.extractLsb' 0 36⟩))
  | .slti d a x => some (mkWord 1 0x18 g (PSI.toBits ⟨d, a, x.extractLsb' 0 36⟩))
  | .sltiu d a x => some (mkWord 1 0x19 g (PSI.toBits ⟨d, a, x.extractLsb' 0 36⟩))
  | .li d x => some (mkWord 1 0x20 g (PSI.toBits ⟨d, 0, x.extractLsb' 0 36⟩))
  | .shli d a n => some (mkWord 1 0x10 g (PSI.toBits ⟨d, a, cat 36 0#30 n⟩))
  | .shri d a n => some (mkWord 1 0x11 g (PSI.toBits ⟨d, a, cat 36 0#30 n⟩))
  | .sari d a n => some (mkWord 1 0x12 g (PSI.toBits ⟨d, a, cat 36 0#30 n⟩))
  | .bfx d a pos l => some (mkWord 1 0x28 g (PSI.toBits ⟨d, a, cat 36 l pos⟩))
  | .bfi d a pos l => some (mkWord 1 0x29 g (PSI.toBits ⟨d, a, cat 36 l pos⟩))
  | .mka d a h => some (mkWord 1 0x30 g (PSI.toBits ⟨d, a, cat 36 0#29 h⟩))
  | .br c a b o => some (mkWord 2 0x00 g (PB.toBits ⟨a, b, c.code, o⟩))
  | .bqT q o => some (mkWord 2 0x01 g (PB.toBits ⟨cat 6 0#3 q, 0, 0, o⟩))
  | .bqF q o => some (mkWord 2 0x02 g (PB.toBits ⟨cat 6 0#3 q, 0, 0, o⟩))
  | .jmp o => some (mkWord 2 0x03 g (PB.toBits ⟨0, 0, 0, o⟩))
  | .jmpr a => some (mkWord 2 0x04 g (PS3.toBits ⟨0, a, 0, 0⟩))
  | .call o => some (mkWord 2 0x05 g (PB.toBits ⟨0, 0, 0, o⟩))
  | .callr a => some (mkWord 2 0x06 g (PS3.toBits ⟨0, a, 0, 0⟩))
  | .ret => some (mkWord 2 0x07 g 0)
  | .loop a n => some (mkWord 2 0x08 g (PSI.toBits ⟨0, a, cat 36 0#29 n⟩))
  | .loopP a n _ => some (mkWord 2 0x09 g (PSI.toBits ⟨0, a, cat 36 0#29 n⟩))
  | .loopi c n => some (mkWord 2 0x0A g (PSI.toBits ⟨0, 0, cat 36 (cat 29 c 0#5) n⟩))
  | .qset c q a b => some (mkWord 2 0x0B g (PB.toBits ⟨a, b, c.code, cat 32 0#29 q⟩))
  | .ld z o d b x => some (mkWord 3 0x00 g (PM.toBits ⟨d, b, z.code, o.code, x.extractLsb' 0 32⟩))
  | .lds z o d b x => some (mkWord 3 0x01 g (PM.toBits ⟨d, b, z.code, o.code, x.extractLsb' 0 32⟩))
  | .st z o d b x => some (mkWord 3 0x02 g (PM.toBits ⟨d, b, z.code, o.code, x.extractLsb' 0 32⟩))
  | .aadd z o fe d b x => some (mkWord 3 0x03 g (PM.toBits ⟨d, b, z.code, o.code, cat 32 (BitVec.ofBool fe) (x.extractLsb' 0 31)⟩))
  | .aand z o fe d b x => some (mkWord 3 0x04 g (PM.toBits ⟨d, b, z.code, o.code, cat 32 (BitVec.ofBool fe) (x.extractLsb' 0 31)⟩))
  | .aor z o fe d b x => some (mkWord 3 0x05 g (PM.toBits ⟨d, b, z.code, o.code, cat 32 (BitVec.ofBool fe) (x.extractLsb' 0 31)⟩))
  | .axor z o fe d b x => some (mkWord 3 0x06 g (PM.toBits ⟨d, b, z.code, o.code, cat 32 (BitVec.ofBool fe) (x.extractLsb' 0 31)⟩))
  | .amin z o fe d b x => some (mkWord 3 0x07 g (PM.toBits ⟨d, b, z.code, o.code, cat 32 (BitVec.ofBool fe) (x.extractLsb' 0 31)⟩))
  | .amax z o fe d b x => some (mkWord 3 0x08 g (PM.toBits ⟨d, b, z.code, o.code, cat 32 (BitVec.ofBool fe) (x.extractLsb' 0 31)⟩))
  | .aminu z o fe d b x => some (mkWord 3 0x09 g (PM.toBits ⟨d, b, z.code, o.code, cat 32 (BitVec.ofBool fe) (x.extractLsb' 0 31)⟩))
  | .amaxu z o fe d b x => some (mkWord 3 0x0A g (PM.toBits ⟨d, b, z.code, o.code, cat 32 (BitVec.ofBool fe) (x.extractLsb' 0 31)⟩))
  | .afadd z o fe d b x => some (mkWord 3 0x0B g (PM.toBits ⟨d, b, z.code, o.code, cat 32 (BitVec.ofBool fe) (x.extractLsb' 0 31)⟩))
  | .afmin z o fe d b x => some (mkWord 3 0x0C g (PM.toBits ⟨d, b, z.code, o.code, cat 32 (BitVec.ofBool fe) (x.extractLsb' 0 31)⟩))
  | .afmax z o fe d b x => some (mkWord 3 0x0D g (PM.toBits ⟨d, b, z.code, o.code, cat 32 (BitVec.ofBool fe) (x.extractLsb' 0 31)⟩))
  | .aswp z o fe d b x => some (mkWord 3 0x0E g (PM.toBits ⟨d, b, z.code, o.code, cat 32 (BitVec.ofBool fe) (x.extractLsb' 0 31)⟩))
  | .acas z o fe d b x => some (mkWord 3 0x0F g (PM.toBits ⟨d, b, z.code, o.code, cat 32 (BitVec.ofBool fe) (x.extractLsb' 0 31)⟩))
  | .wait t o d l r v => some (mkWord 4 0x00 g (PSI.toBits ⟨d, l, cellBits r t o v⟩))
  | .take o d l r v => some (mkWord 4 0x01 g (PSI.toBits ⟨d, l, cellBits r .ge o v⟩))
  | .trytake o d r v => some (mkWord 4 0x02 g (PSI.toBits ⟨d, 0, cellBits r .ge o v⟩))
  | .sig o r v => some (mkWord 4 0x03 g (PSI.toBits ⟨0, 0, cellBits r .ge o v⟩))
  | .arrive o r => some (mkWord 4 0x04 g (PSI.toBits ⟨0, 0, cellBits r .ge o 0⟩))
  | .cset o r v => some (mkWord 4 0x05 g (PSI.toBits ⟨0, 0, cellBits r .ge o v⟩))
  | .crd o d r => some (mkWord 4 0x06 g (PSI.toBits ⟨d, 0, cellBits r .ge o 0⟩))
  | .ccfg a r => some (mkWord 4 0x07 g (PSI.toBits ⟨0, a, cellBits r .ge .plain 0⟩))
  | .cclr r => some (mkWord 4 0x08 g (PSI.toBits ⟨0, 0, cellBits r .ge .plain 0⟩))
  | .spawn d a x => some (mkWord 4 0x10 g (PSI.toBits ⟨d, a, x⟩))
  | .spawnb d a x => some (mkWord 4 0x11 g (PSI.toBits ⟨d, a, x⟩))
  | .park d a x => some (mkWord 4 0x12 g (PSI.toBits ⟨d, a, x⟩))
  | .taskDone a => some (mkWord 4 0x13 g (PS3.toBits ⟨0, a, 0, 0⟩))
  | .yield => some (mkWord 4 0x14 g 0)
  | .widf d f => some (mkWord 4 0x15 g (PSI.toBits ⟨d, 0, cat 36 0#33 f⟩))
  | .hld d a x => some (mkWord 5 0x00 g (PH.toBits ⟨d, 0, a, x.extractLsb' 0 32⟩))
  | .hst h a x => some (mkWord 5 0x01 g (PH.toBits ⟨0, h, a, x.extractLsb' 0 32⟩))
  | .hmov d h => some (mkWord 5 0x02 g (PH.toBits ⟨d, h, 0, 0⟩))
  | .hsetb d h a => some (mkWord 5 0x03 g (PH.toBits ⟨d, h, a, 0⟩))
  | .hsetd d h a n => some (mkWord 5 0x04 g (PH.toBits ⟨d, h, a, cat 32 0#29 n⟩))
  | .hsets d h a n => some (mkWord 5 0x05 g (PH.toBits ⟨d, h, a, cat 32 0#29 n⟩))
  | .hadv d h a n => some (mkWord 5 0x06 g (PH.toBits ⟨d, h, a, cat 32 0#29 n⟩))
  | .hget d h n => some (mkWord 5 0x07 g (PH.toBits ⟨0, h, d, cat 32 0#28 n⟩))
  | .hchk h a => some (mkWord 5 0x08 g (PH.toBits ⟨0, h, a, 0⟩))
  | .hclr d => some (mkWord 5 0x09 g (PH.toBits ⟨d, 0, 0, 0⟩))
  | .tcfg t ty r c => some (mkWord 5 0x0A g (PH.toBits ⟨cat 5 0#1 t, 0, 0, cat 32 (cat 22 (cat 16 (cat 6 ty.code 0#2) r) 0#6) c⟩))
  | .vadd ty r d a b k => some (mkWord 6 0x00 g (PV.toBits ⟨d, a, b, 0, k, ty.code, r.code, 0⟩))
  | .vsub ty r d a b k => some (mkWord 6 0x01 g (PV.toBits ⟨d, a, b, 0, k, ty.code, r.code, 0⟩))
  | .vmul ty r d a b k => some (mkWord 6 0x02 g (PV.toBits ⟨d, a, b, 0, k, ty.code, r.code, 0⟩))
  | .vfma r d a b c k => some (mkWord 6 0x03 g (PV.toBits ⟨d, a, b, c, k, 0, r.code, 0⟩))
  | .vfms r d a b c k => some (mkWord 6 0x04 g (PV.toBits ⟨d, a, b, c, k, 0, r.code, 0⟩))
  | .vfnma r d a b c k => some (mkWord 6 0x05 g (PV.toBits ⟨d, a, b, c, k, 0, r.code, 0⟩))
  | .vmin ty d a b k => some (mkWord 6 0x06 g (PV.toBits ⟨d, a, b, 0, k, ty.code, 0, 0⟩))
  | .vmax ty d a b k => some (mkWord 6 0x07 g (PV.toBits ⟨d, a, b, 0, k, ty.code, 0, 0⟩))
  | .vsel ty d a b k => some (mkWord 6 0x21 g (PV.toBits ⟨d, a, b, 0, k, ty.code, 0, 0⟩))
  | .vabs ty d a k => some (mkWord 6 0x08 g (PV.toBits ⟨d, a, 0, 0, k, ty.code, 0, 0⟩))
  | .vneg ty d a k => some (mkWord 6 0x09 g (PV.toBits ⟨d, a, 0, 0, k, ty.code, 0, 0⟩))
  | .vadds d a b k => some (mkWord 6 0x0A g (PV.toBits ⟨d, a, b, 0, k, 10, 0, 0⟩))
  | .vsubs d a b k => some (mkWord 6 0x0B g (PV.toBits ⟨d, a, b, 0, k, 10, 0, 0⟩))
  | .vand d a b k => some (mkWord 6 0x10 g (PV.toBits ⟨d, a, b, 0, k, 10, 0, 0⟩))
  | .vor d a b k => some (mkWord 6 0x11 g (PV.toBits ⟨d, a, b, 0, k, 10, 0, 0⟩))
  | .vxor d a b k => some (mkWord 6 0x12 g (PV.toBits ⟨d, a, b, 0, k, 10, 0, 0⟩))
  | .vandn d a b k => some (mkWord 6 0x13 g (PV.toBits ⟨d, a, b, 0, k, 10, 0, 0⟩))
  | .vshl d a b k => some (mkWord 6 0x14 g (PV.toBits ⟨d, a, b, 0, k, 10, 0, 0⟩))
  | .vshr d a b k => some (mkWord 6 0x15 g (PV.toBits ⟨d, a, b, 0, k, 10, 0, 0⟩))
  | .vsar d a b k => some (mkWord 6 0x16 g (PV.toBits ⟨d, a, b, 0, k, 10, 0, 0⟩))
  | .vclamp ty d a b c k => some (mkWord 6 0x0C g (PV.toBits ⟨d, a, b, c, k, ty.code, 0, 0⟩))
  | .vscale r d a b k => some (mkWord 6 0x0D g (PV.toBits ⟨d, a, b, 0, k, 0, r.code, 0⟩))
  | .vrint r d a k => some (mkWord 6 0x0E g (PV.toBits ⟨d, a, 0, 0, k, 0, r.code, 0⟩))
  | .vpopc d a k => some (mkWord 6 0x17 g (PV.toBits ⟨d, a, 0, 0, k, 10, 0, 0⟩))
  | .vcmpeq ty d a b k => some (mkWord 6 0x18 g (PV.toBits ⟨cat 5 0#2 d, a, b, 0, k, ty.code, 0, 0⟩))
  | .vcmpne ty d a b k => some (mkWord 6 0x19 g (PV.toBits ⟨cat 5 0#2 d, a, b, 0, k, ty.code, 0, 0⟩))
  | .vcmplt ty d a b k => some (mkWord 6 0x1A g (PV.toBits ⟨cat 5 0#2 d, a, b, 0, k, ty.code, 0, 0⟩))
  | .vcmple ty d a b k => some (mkWord 6 0x1B g (PV.toBits ⟨cat 5 0#2 d, a, b, 0, k, ty.code, 0, 0⟩))
  | .vcvt d s r v a k => some (mkWord 6 0x20 g (PV.toBits ⟨v, a, 0, 0, k, d.code, r.code, cat 18 0#14 s.code⟩))
  | .vmovi ty d x k => some (mkWord 6 0x22 g (PV.toBits ⟨d, 0, 0, 0, k, ty.code, 0, if (x.extractLsb' 0 18).signExtend 32 = x then x.extractLsb' 0 18 else 0⟩))
  | .vbcs ty d a k => some (mkWord 6 0x23 g (PV.toBits ⟨d, 0, 0, 0, k, ty.code, 0, cat 18 0#12 a⟩))
  | .vexp2 d a k => some (mkWord 6 0x28 g (PV.toBits ⟨d, a, 0, 0, k, 0, 0, 0⟩))
  | .vlog2 d a k => some (mkWord 6 0x29 g (PV.toBits ⟨d, a, 0, 0, k, 0, 0, 0⟩))
  | .vrcp d a k => some (mkWord 6 0x2A g (PV.toBits ⟨d, a, 0, 0, k, 0, 0, 0⟩))
  | .vrsq d a k => some (mkWord 6 0x2B g (PV.toBits ⟨d, a, 0, 0, k, 0, 0, 0⟩))
  | .vsqrt d a k => some (mkWord 6 0x2C g (PV.toBits ⟨d, a, 0, 0, k, 0, 0, 0⟩))
  | .vtanh d a k => some (mkWord 6 0x2D g (PV.toBits ⟨d, a, 0, 0, k, 0, 0, 0⟩))
  | .vsinpi d a k => some (mkWord 6 0x2E g (PV.toBits ⟨d, a, 0, 0, k, 0, 0, 0⟩))
  | .vcospi d a k => some (mkWord 6 0x2F g (PV.toBits ⟨d, a, 0, 0, k, 0, 0, 0⟩))
  | .vhash d a s k => some (mkWord 6 0x30 g (PV.toBits ⟨d, a, 0, 0, k, 10, 0, cat 18 0#12 s⟩))
  | .vld ty d h => some (mkWord 7 0x00 g (PV.toBits ⟨d, 0, 0, 0, 0, ty.code, 0, cat 18 h 0#13⟩))
  | .vst ty r h a => some (mkWord 7 0x01 g (PV.toBits ⟨0, a, 0, 0, 0, ty.code, r.code, cat 18 h 0#13⟩))
  | .vldr ty d h n => some (mkWord 7 0x02 g (PV.toBits ⟨d, 0, 0, 0, 0, ty.code, 0, cat 18 (cat 9 h n) 0#9⟩))
  | .vstr ty r h a n => some (mkWord 7 0x03 g (PV.toBits ⟨0, a, 0, 0, 0, ty.code, r.code, cat 18 (cat 9 h n) 0#9⟩))
  | .vmov d a => some (mkWord 7 0x04 g (PV.toBits ⟨d, a, 0, 0, 0, 0, 0, 0⟩))
  | .vext d a n => some (mkWord 7 0x05 g (PV.toBits ⟨0, a, 0, 0, 0, 0, 0, cat 18 (cat 8 d 0#2) n⟩))
  | .vins d a n => some (mkWord 7 0x06 g (PV.toBits ⟨d, 0, 0, 0, 0, 0, 0, cat 18 (cat 8 a 0#2) n⟩))
  | .vrotr d a n => some (mkWord 7 0x08 g (PV.toBits ⟨d, a, 0, 0, 0, 0, 0, cat 18 0#12 n⟩))
  | .vbcr d a n => some (mkWord 7 0x09 g (PV.toBits ⟨d, a, 0, 0, 0, 0, 0, cat 18 0#12 n⟩))
  | .vrotc d a n => some (mkWord 7 0x0C g (PV.toBits ⟨d, a, 0, 0, 0, 0, 0, cat 18 0#14 n⟩))
  | .vbcc d a n => some (mkWord 7 0x0D g (PV.toBits ⟨d, a, 0, 0, 0, 0, 0, cat 18 0#14 n⟩))
  | .vredr ty q d a => some (mkWord 7 0x0A g (PV.toBits ⟨d, a, 0, 0, 0, ty.code, 0, cat 18 0#16 q.code⟩))
  | .vredc ty q d a => some (mkWord 7 0x0E g (PV.toBits ⟨d, a, 0, 0, 0, ty.code, 0, cat 18 0#16 q.code⟩))
  | .vpermr d a b => some (mkWord 7 0x10 g (PV.toBits ⟨d, a, b, 0, 0, 0, 0, 0⟩))
  | .kand d a b => some (mkWord 7 0x18 g (PV.toBits ⟨cat 5 0#2 d, cat 5 0#2 a, cat 5 0#2 b, 0, 0, 0, 0, 0⟩))
  | .kor d a b => some (mkWord 7 0x19 g (PV.toBits ⟨cat 5 0#2 d, cat 5 0#2 a, cat 5 0#2 b, 0, 0, 0, 0, 0⟩))
  | .kxor d a b => some (mkWord 7 0x1A g (PV.toBits ⟨cat 5 0#2 d, cat 5 0#2 a, cat 5 0#2 b, 0, 0, 0, 0, 0⟩))
  | .knot d a => some (mkWord 7 0x1B g (PV.toBits ⟨cat 5 0#2 d, cat 5 0#2 a, 0, 0, 0, 0, 0, 0⟩))
  | .kpopc d a => some (mkWord 7 0x1C g (PV.toBits ⟨0, cat 5 0#2 a, 0, 0, 0, 0, 0, cat 18 0#12 d⟩))
  | .kfirst d a => some (mkWord 7 0x1D g (PV.toBits ⟨0, cat 5 0#2 a, 0, 0, 0, 0, 0, cat 18 0#12 d⟩))
  | .vargmaxr ty d a k => some (mkWord 8 0x00 g (PV.toBits ⟨d, a, 0, 0, k, ty.code, 0, 0⟩))
  | .vargmaxc ty d a k => some (mkWord 8 0x01 g (PV.toBits ⟨d, a, 0, 0, k, ty.code, 0, 0⟩))
  | .vargminr ty d a k => some (mkWord 8 0x02 g (PV.toBits ⟨d, a, 0, 0, k, ty.code, 0, 0⟩))
  | .vargminc ty d a k => some (mkWord 8 0x03 g (PV.toBits ⟨d, a, 0, 0, k, ty.code, 0, 0⟩))
  | .vtopk ty d a b k n => some (mkWord 8 0x08 g (PV.toBits ⟨d, a, b, 0, k, ty.code, 0, cat 18 0#11 n⟩))
  | .vtopkm ty d a b n => some (mkWord 8 0x09 g (PV.toBits ⟨d, a, b, 0, 0, ty.code, 0, cat 18 0#11 n⟩))
  | .vpart d a b k => some (mkWord 8 0x10 g (PV.toBits ⟨d, 0, 0, 0, k, 0, 0, cat 18 (cat 12 a b) 0#6⟩))
  | .vbucket d a n k => some (mkWord 8 0x11 g (PV.toBits ⟨d, a, 0, 0, k, 0, 0, cat 18 0#13 n⟩))
  | .vprune48 ty d a => some (mkWord 8 0x18 g (PV.toBits ⟨d, a, 0, 0, 0, ty.code, 0, 0⟩))
  | .vspread48 ty d a => some (mkWord 8 0x19 g (PV.toBits ⟨d, a, 0, 0, 0, ty.code, 0, 0⟩))
  | .vcompress d a n k => some (mkWord 8 0x20 g (PV.toBits ⟨d, a, 0, 0, k, 0, 0, cat 18 0#12 n⟩))
  | .vexpand d a n k => some (mkWord 8 0x21 g (PV.toBits ⟨d, a, 0, 0, k, 0, 0, cat 18 0#12 n⟩))
  | .tld t h e => some (mkWord 9 0x00 g (engBits e (OET.toBits ⟨t, cat 20 h 0#15⟩)))
  | .tldw t a e => some (mkWord 9 0x01 g (engBits e (OET.toBits ⟨t, cat 20 a 0#14⟩)))
  | .tst t h e => some (mkWord 9 0x02 g (engBits e (OET.toBits ⟨t, cat 20 h 0#15⟩)))
  | .mma q x y a b c z e => some (mkWord 9 0x08 g (engBits e (OMX.toBits ⟨q, x, y, a.code, b.code, c.code, 0, BitVec.ofBool z⟩)))
  | .mmaw q x y a b c z e => some (mkWord 9 0x09 g (engBits e (OMX.toBits ⟨q, x, y, a.code, b.code, c.code, 0, BitVec.ofBool z⟩)))
  | .mmasp q x y a b c z e => some (mkWord 9 0x0A g (engBits e (OMX.toBits ⟨q, x, y, a.code, b.code, c.code, 0, BitVec.ofBool z⟩)))
  | .mmaspw q x y a b c z e => some (mkWord 9 0x0B g (engBits e (OMX.toBits ⟨q, x, y, a.code, b.code, c.code, 0, BitVec.ofBool z⟩)))
  | .mtrans q x a c z e => some (mkWord 9 0x0C g (engBits e (OMX.toBits ⟨q, x, 0, a.code, a.code, c.code, 0, BitVec.ofBool z⟩)))
  | .mperm q x y a c z e => some (mkWord 9 0x0D g (engBits e (OMX.toBits ⟨q, x, y, a.code, 10, c.code, 0, BitVec.ofBool z⟩)))
  | .mrsum q x a c z e => some (mkWord 9 0x0E g (engBits e (OMX.toBits ⟨q, x, 0, a.code, 0, c.code, 0, BitVec.ofBool z⟩)))
  | .mzero q e => some (mkWord 9 0x10 g (engBits e (cat 24 q 0#22)))
  | .mdrain q ty r (.tile t) e => some (mkWord 9 0x11 g (engBits e (OED.toBits ⟨q, ty.code, r.code, 0, cat 5 0#1 t, 0⟩)))
  | .mdrain q ty r (.handle h) e => some (mkWord 9 0x11 g (engBits e (OED.toBits ⟨q, ty.code, r.code, 1, h, 0⟩)))
  | .mnop e => some (mkWord 9 0x18 g (engBits e (0)))
  | .copy d h a l e => some (mkWord 10 0x00 g (engBits e (OEC.toBits ⟨d, h, a, 0, BitVec.ofBool l, 0⟩)))
  | .gath d h a l e => some (mkWord 10 0x01 g (engBits e (OEC.toBits ⟨d, h, a, 0, BitVec.ofBool l, 0⟩)))
  | .scat d h a l e => some (mkWord 10 0x02 g (engBits e (OEC.toBits ⟨d, h, a, 0, BitVec.ofBool l, 0⟩)))
  | .fill z d a l e => some (mkWord 10 0x03 g (engBits e (OEC.toBits ⟨d, 0, a, cat 4 0#2 z.code, BitVec.ofBool l, 0⟩)))
  | .reda r d h l e => some (mkWord 10 0x04 g (engBits e (OEC.toBits ⟨d, h, 0, r.code, BitVec.ofBool l, 0⟩)))
  | .putc d h a e => some (mkWord 10 0x05 g (engBits e (OEC.toBits ⟨d, h, a, 0, 0, 0⟩)))
  | .rrot d h a e => some (mkWord 10 0x06 g (engBits e (OEC.toBits ⟨d, h, a, 0, 1, 0⟩)))
  | .copySeal d h a e => some (mkWord 10 0x08 g (engBits e (OEC.toBits ⟨d, h, a, 0, 0, 0⟩)))
  | .copyOpen d h a e => some (mkWord 10 0x09 g (engBits e (OEC.toBits ⟨d, h, a, 0, 0, 0⟩)))
  | .cnop e => some (mkWord 10 0x0A g (engBits e (0)))
  | .swopen x y e => some (mkWord 11 0x00 g (engBits e (OES.toBits ⟨x, y, 0, 0, 0⟩)))
  | .swapp x y v r e => some (mkWord 11 0x01 g (engBits e (OES.toBits ⟨x, y, v, r, 0⟩)))
  | .swqry x y e => some (mkWord 11 0x02 g (engBits e (OES.toBits ⟨x, y, 0, 0, 0⟩)))
  | .swpop v x r e => some (mkWord 11 0x03 g (engBits e (OES.toBits ⟨x, 0, v, r, 0⟩)))
  | .swevt x y e => some (mkWord 11 0x04 g (engBits e (OES.toBits ⟨x, y, 0, 0, 0⟩)))
  | .swsave x y e => some (mkWord 11 0x05 g (engBits e (OES.toBits ⟨x, y, 0, 0, 0⟩)))
  | .swload x y e => some (mkWord 11 0x06 g (engBits e (OES.toBits ⟨x, y, 0, 0, 0⟩)))
  | .swclose x e => some (mkWord 11 0x07 g (engBits e (OES.toBits ⟨x, 0, 0, 0, 0⟩)))
  | .wld ty d a => some (mkWord 12 0x00 g (PV.toBits ⟨d, 0, 0, 0, 0, ty.code, 0, cat 18 a 0#12⟩))
  | .wprog a h e => some (mkWord 12 0x01 g (engBits e (OEW.toBits ⟨h, a, 0, 0⟩)))
  | .wprogs a h b e => some (mkWord 12 0x02 g (engBits e (OEW.toBits ⟨h, a, b, 0⟩)))
  | .wfree a e => some (mkWord 12 0x03 g (engBits e (OEW.toBits ⟨0, a, 0, 0⟩)))
  | .wmeas h a e => some (mkWord 12 0x04 g (engBits e (OEW.toBits ⟨h, a, 0, 0⟩)))
  | .wscrub a e => some (mkWord 12 0x05 g (engBits e (OEW.toBits ⟨0, a, 0, 0⟩)))
  | .wchk h a e => some (mkWord 12 0x06 g (engBits e (OEW.toBits ⟨h, a, 0, 0⟩)))
  | .wstat d a => some (mkWord 12 0x07 g (PS3.toBits ⟨d, a, 0, 0⟩))
  | .nop => some (mkWord 13 0x00 g (PY.toBits ⟨0, 0, 0, 0⟩))
  | .crr d c => some (mkWord 13 0x01 g (PY.toBits ⟨d, 0, c.code, c.low⟩))
  | .crw c a => some (mkWord 13 0x02 g (PY.toBits ⟨0, a, c.code, 0⟩))
  | .fence s => some (mkWord 13 0x08 g (PY.toBits ⟨0, 0, 0, cat 24 s.code 0#21⟩))
  | .tlock d a l => some (mkWord 13 0x09 g (PY.toBits ⟨d, a, 0, cat 24 l 0#18⟩))
  | .tunlock a l => some (mkWord 13 0x0A g (PY.toBits ⟨0, a, 0, cat 24 l 0#18⟩))
  | .phase => some (mkWord 13 0x10 g (PY.toBits ⟨0, 0, 0, 0⟩))
  | .fqpop d => some (mkWord 13 0x18 g (PY.toBits ⟨d, 0, 0, 0⟩))
  | .fresume a => some (mkWord 13 0x19 g (PY.toBits ⟨0, a, 0, 0⟩))
  | .fabort a => some (mkWord 13 0x1A g (PY.toBits ⟨0, a, 0, 0⟩))
  | .frestart a => some (mkWord 13 0x1B g (PY.toBits ⟨0, a, 0, 0⟩))
  | .qwait m c => some (mkWord 13 0x20 g (PY.toBits ⟨0, 0, 0, cat 24 (cat 2 (BitVec.ofBool m) (BitVec.ofBool c)) 0#22⟩))
  | .brk c => some (mkWord 13 0x30 g (PY.toBits ⟨0, 0, 0, c⟩))
  | _ => none

def pfxWord (op : BitVec 8) (p : BitVec 48) : W64 := mkWord 15 op 0 p
def immWord (q : W32) : W64 := pfxWord 0 (cat 48 0#16 q)

def needFull (x : W64) : List W64 :=
  if (x.extractLsb' 0 36).signExtend 64 = x then [] else [immWord (cat 32 0#4 (x.extractLsb' 36 28))]
def needDisp (x : W64) : List W64 :=
  if (x.extractLsb' 0 32).signExtend 64 = x then [] else [immWord (x.extractLsb' 32 32)]
def needAtomic (x : W64) : List W64 :=
  if (x.extractLsb' 0 31).signExtend 64 = x then [] else [immWord (x.extractLsb' 31 32)]
def needVal (v : W32) : List W64 := if v.toNat < 2 ^ 14 then [] else [immWord v]

/-- PFX.ENG where an amount is not 1 or the hold bit is set. -/
def needEng (e : Eng) : List W64 :=
  let wa := (e.wait.map (·.2)).getD 0
  let sa := (e.sig.map (·.2)).getD 0
  if e.hold = false ∧ (e.wait.isNone ∨ wa = 1) ∧ (e.sig.isNone ∨ sa = 1) then []
  else [pfxWord 1 (PfE.toBits ⟨BitVec.ofBool e.hold, 0, wa, sa⟩)]

/-- The prefixes an instruction's operands call for. -/
def encodePfx (i : Instr) : List W64 :=
  match i with
  | .addi _ _ x => needFull x
  | .muli _ _ x => needFull x
  | .andi _ _ x => needFull x
  | .ori _ _ x => needFull x
  | .xori _ _ x => needFull x
  | .slti _ _ x => needFull x
  | .sltiu _ _ x => needFull x
  | .li _ x => needFull x
  | .ld _ _ _ _ x => needDisp x
  | .lds _ _ _ _ x => needDisp x
  | .st _ _ _ _ x => needDisp x
  | .aadd _ _ _ _ _ x => needAtomic x
  | .aand _ _ _ _ _ x => needAtomic x
  | .aor _ _ _ _ _ x => needAtomic x
  | .axor _ _ _ _ _ x => needAtomic x
  | .amin _ _ _ _ _ x => needAtomic x
  | .amax _ _ _ _ _ x => needAtomic x
  | .aminu _ _ _ _ _ x => needAtomic x
  | .amaxu _ _ _ _ _ x => needAtomic x
  | .afadd _ _ _ _ _ x => needAtomic x
  | .afmin _ _ _ _ _ x => needAtomic x
  | .afmax _ _ _ _ _ x => needAtomic x
  | .aswp _ _ _ _ _ x => needAtomic x
  | .acas _ _ _ _ _ x => needAtomic x
  | .wait _ _ _ _ _ v => needVal v
  | .take _ _ _ _ v => needVal v
  | .trytake _ _ _ v => needVal v
  | .sig _ _ v => needVal v
  | .cset _ _ v => needVal v
  | .hld _ _ x => needDisp x
  | .hst _ _ x => needDisp x
  | .vmovi _ _ x _ => if (x.extractLsb' 0 18).signExtend 32 = x then [] else [immWord x]
  | .loopP _ _ n => if n = 0 then [] else [pfxWord 2 (cat 48 0#45 n)]
  | i => match i.eng? with
    | some e => needEng e
    | none => []

/-- The words of an instruction: its prefixes and its word; no words for an event or a defective group. -/
def encode (g : BitVec 4) (i : Instr) : List W64 :=
  match encodeWord g i with
  | none => []
  | some w => encodePfx i ++ [w]

end Sys2Proof
end

