-- ==== Sys2Proof/Machine/Crypto.lean ====
section
/-! DEFINITION. CRC-32C (R61), and the standard ciphers and hashes that the manual names: AES-256 with GCM, XTS and CMAC,
SHA-384 (R315, R327, R332, R341). Their inner workings are those of the published standards (notes/assumptions/6).
Bytes are Nats below 256, in the order of the text. -/

namespace Sys2Proof.Machine

abbrev Bytes := List Nat

/-- The k low bytes of a number, little-endian (R6). -/
def bytesOf : Nat → Nat → Bytes
  | 0, _ => []
  | k + 1, n => (n % 256) :: bytesOf k (n / 256)

/-- Little-endian value of bytes. -/
def leNat : Bytes → Nat
  | [] => 0
  | b :: r => b + 256 * leNat r

/-- Most significant byte first. -/
def beNat (bs : Bytes) : Nat := leNat bs.reverse
def beBytes (k n : Nat) : Bytes := (bytesOf k n).reverse

def xorBytes (a b : Bytes) : Bytes := List.zipWith Nat.xor a b

/-! ### CRC-32C: reflected polynomial of 0x1EDC_6F41 (R61) -/

def crcBits : Nat → Nat → Nat
  | 0, c => c
  | n + 1, c => crcBits n (if c % 2 = 1 then Nat.xor (c / 2) 0x82F63B78 else c / 2)

def crcGo (c : Nat) : Bytes → Nat
  | [] => c
  | b :: r => crcGo (crcBits 8 (Nat.xor c b)) r

def crc32c (bs : Bytes) : W32 := BitVec.ofNat 32 (Nat.xor (crcGo 0xFFFFFFFF bs) 0xFFFFFFFF)

/-! ### AES-256 -/

/-- The S-box, entry i in bits [8i+7:8i]. -/
def sboxTable : Nat :=
  0x16bb54b00f2d99416842e6bf0d89a18cdf2855cee9871e9b948ed9691198f8e19e1dc186b95735610ef6034866b53e708a8bbd4b1f74dde8c6b4a61c2e2578ba08ae7a65eaf4566ca94ed58d6d37c8e779e4959162acd3c25c2406490a3a32e0db0b5ede14b8ee4688902a22dc4f816073195d643d7ea7c41744975fec130ccdd2f3ff1021dab6bcf5389d928f40a351a89f3c507f02f94585334d43fbaaefd0cf584c4a39becb6a5bb1fc20ed00d153842fe329b3d63b52a05a6e1b1a2c830975b227ebe28012079a059618c323c7041531d871f1e5a534ccf73f362693fdb7c072a49cafa2d4adf04759fa7dc982ca76abd7fe2b670130c56f6bf27b777c63

def sbox (a : Nat) : Nat := Nat.shiftRight sboxTable (8 * a) % 256
/-- Multiplication by x in GF(2^8). -/
def xtime (a : Nat) : Nat := if a < 128 then 2 * a else Nat.xor (2 * a) 0x11B

/-- Key expansion, newest word first; the n-th call makes word 60 − n. -/
def expandKey : Nat → Nat → List Bytes → List Bytes
  | 0, _, ws => ws
  | n + 1, rcon, ws =>
    let i := 60 - (n + 1)
    let t := ws.headD []
    let t' := if i % 8 = 0 then
        match (t.drop 1 ++ t.take 1).map sbox with
        | b :: r => Nat.xor b rcon :: r
        | [] => []
      else if i % 8 = 4 then t.map sbox else t
    expandKey n (if i % 8 = 0 then xtime rcon else rcon) (xorBytes (ws.getD 7 []) t' :: ws)

def chunk (k : Nat) : Nat → List α → List (List α)
  | 0, _ => []
  | n + 1, l => l.take k :: chunk k n (l.drop k)

/-- The 15 round keys of 16 bytes. -/
def roundKeys (key : Bytes) : List Bytes :=
  let ws := (expandKey 52 1 (chunk 4 8 key).reverse).reverse
  chunk 16 15 ws.flatten

/-- ShiftRows: byte r + 4c of the state is row r, column c. -/
def shiftRows (s : Bytes) : Bytes :=
  (List.range 16).map fun i => s.getD (i % 4 + 4 * ((i / 4 + i % 4) % 4)) 0

def mixColumn : Bytes → Bytes
  | [a, b, c, d] =>
    let t := Nat.xor (Nat.xor a b) (Nat.xor c d)
    let m := fun x y => Nat.xor (Nat.xor x t) (xtime (Nat.xor x y))
    [m a b, m b c, m c d, m d a]
  | l => l

def aesRounds : List Bytes → Bytes → Bytes
  | [], s => s
  | [k], s => xorBytes (shiftRows (s.map sbox)) k
  | k :: ks, s => aesRounds ks (xorBytes (((chunk 4 4 (shiftRows (s.map sbox))).map mixColumn).flatten) k)

/-- One block enciphered under a 32-byte key. -/
def aesBlock (key block : Bytes) : Bytes :=
  match roundKeys key with
  | [] => block
  | k :: ks => aesRounds ks (xorBytes block k)

/-! Deciphering, for XTS. -/

def invSboxGo (a : Nat) : Nat → Nat
  | 0 => 0
  | n + 1 => if sbox n = a then n else invSboxGo a n
def invSbox (a : Nat) : Nat := invSboxGo a 256

def invShiftRows (s : Bytes) : Bytes :=
  (List.range 16).map fun i => s.getD (i % 4 + 4 * ((i / 4 + 4 - i % 4) % 4)) 0

/-- The inverse of MixColumns is its third power. -/
def invMixColumn (c : Bytes) : Bytes := mixColumn (mixColumn (mixColumn c))

def aesInvRounds : List Bytes → Bytes → Bytes
  | [], s => s
  | [k], s => xorBytes ((invShiftRows s).map invSbox) k
  | k :: ks, s =>
    let t := xorBytes ((invShiftRows s).map invSbox) k
    aesInvRounds ks (((chunk 4 4 t).map invMixColumn).flatten)

def aesInvBlock (key block : Bytes) : Bytes :=
  match (roundKeys key).reverse with
  | [] => block
  | k :: ks => aesInvRounds ks (xorBytes block k)

/-! ### GCM -/

/-- Product in GF(2^128), the leftmost bit being the constant term. -/
def gmul (x : Nat) : Nat → Nat → Nat → Nat
  | 0, _, z => z
  | n + 1, v, z =>
    gmul x n (if v % 2 = 1 then Nat.xor (v / 2) (0xE1 * 2 ^ 120) else v / 2)
      (if Nat.testBit x n then Nat.xor z v else z)

def ghashGo (h y : Nat) : List Bytes → Nat
  | [] => y
  | b :: r => ghashGo h (gmul (Nat.xor y (beNat b)) 128 h 0) r

def padTo16 (bs : Bytes) : Bytes := bs ++ List.replicate ((16 - bs.length % 16) % 16) 0
def blocks16 (bs : Bytes) : List Bytes := chunk 16 ((bs.length + 15) / 16) bs

def ghash (h : Nat) (aad c : Bytes) : Nat :=
  ghashGo h 0 (blocks16 (padTo16 aad ++ padTo16 c ++ beBytes 8 (8 * aad.length) ++ beBytes 8 (8 * c.length)))

def gctr (key iv : Bytes) (n : Nat) : List Bytes → Bytes
  | [] => []
  | b :: r => xorBytes b (aesBlock key (iv ++ beBytes 4 (n % 2 ^ 32))) ++ gctr key iv (n + 1) r

def gcmTag (key iv aad c : Bytes) : Bytes :=
  let h := beNat (aesBlock key (List.replicate 16 0))
  xorBytes (aesBlock key (iv ++ [0, 0, 0, 1])) (beBytes 16 (ghash h aad c))

/-- Ciphertext and tag, with a 12-byte IV. -/
def gcmSeal (key iv aad p : Bytes) : Bytes × Bytes :=
  let c := gctr key iv 2 (blocks16 p)
  (c, gcmTag key iv aad c)

/-- The plaintext where the tag agrees. -/
def gcmOpen (key iv aad c tag : Bytes) : Option Bytes :=
  if gcmTag key iv aad c = tag then some (gctr key iv 2 (blocks16 c)) else none

/-! ### XTS over whole blocks, and CMAC -/

/-- The next tweak: multiplication by x, bytes little-endian. -/
def xtsNext (t : Bytes) : Bytes :=
  let n := 2 * leNat t
  bytesOf 16 (if n < 2 ^ 128 then n else Nat.xor (n - 2 ^ 128) 0x87)

def xtsGo (f : Bytes → Bytes) (t : Bytes) : List Bytes → Bytes
  | [] => []
  | b :: r => xorBytes (f (xorBytes b t)) t ++ xtsGo f (xtsNext t) r

def xtsSeal (k1 k2 tweak p : Bytes) : Bytes := xtsGo (aesBlock k1) (aesBlock k2 tweak) (blocks16 p)
def xtsOpen (k1 k2 tweak c : Bytes) : Bytes := xtsGo (aesInvBlock k1) (aesBlock k2 tweak) (blocks16 c)

def cmacDouble (n : Nat) : Nat := if 2 * n < 2 ^ 128 then 2 * n else Nat.xor (2 * n - 2 ^ 128) 0x87

def cmacGo (key : Bytes) (sub1 sub2 : Nat) (x : Bytes) : List Bytes → Bytes
  | [] => x
  | [b] =>
    let last := if b.length = 16 then xorBytes b (beBytes 16 sub1)
      else xorBytes (padTo16 (b ++ [128])) (beBytes 16 sub2)
    aesBlock key (xorBytes x last)
  | b :: r => cmacGo key sub1 sub2 (aesBlock key (xorBytes x b)) r

def cmac (key msg : Bytes) : Bytes :=
  let k1 := cmacDouble (beNat (aesBlock key (List.replicate 16 0)))
  cmacGo key k1 (cmacDouble k1) (List.replicate 16 0) (if msg = [] then [[]] else blocks16 msg)

/-! ### SHA-384 -/

def shaK0 : List Nat :=
  [0x428a2f98d728ae22, 0x7137449123ef65cd, 0xb5c0fbcfec4d3b2f, 0xe9b5dba58189dbbc,
   0x3956c25bf348b538, 0x59f111f1b605d019, 0x923f82a4af194f9b, 0xab1c5ed5da6d8118,
   0xd807aa98a3030242, 0x12835b0145706fbe, 0x243185be4ee4b28c, 0x550c7dc3d5ffb4e2,
   0x72be5d74f27b896f, 0x80deb1fe3b1696b1, 0x9bdc06a725c71235, 0xc19bf174cf692694]

def shaK1 : List Nat :=
  [0xe49b69c19ef14ad2, 0xefbe4786384f25e3, 0xfc19dc68b8cd5b5, 0x240ca1cc77ac9c65,
   0x2de92c6f592b0275, 0x4a7484aa6ea6e483, 0x5cb0a9dcbd41fbd4, 0x76f988da831153b5,
   0x983e5152ee66dfab, 0xa831c66d2db43210, 0xb00327c898fb213f, 0xbf597fc7beef0ee4,
   0xc6e00bf33da88fc2, 0xd5a79147930aa725, 0x6ca6351e003826f, 0x142929670a0e6e70]

def shaK2 : List Nat :=
  [0x27b70a8546d22ffc, 0x2e1b21385c26c926, 0x4d2c6dfc5ac42aed, 0x53380d139d95b3df,
   0x650a73548baf63de, 0x766a0abb3c77b2a8, 0x81c2c92e47edaee6, 0x92722c851482353b,
   0xa2bfe8a14cf10364, 0xa81a664bbc423001, 0xc24b8b70d0f89791, 0xc76c51a30654be30,
   0xd192e819d6ef5218, 0xd69906245565a910, 0xf40e35855771202a, 0x106aa07032bbd1b8]

def shaK3 : List Nat :=
  [0x19a4c116b8d2d0c8, 0x1e376c085141ab53, 0x2748774cdf8eeb99, 0x34b0bcb5e19b48a8,
   0x391c0cb3c5c95a63, 0x4ed8aa4ae3418acb, 0x5b9cca4f7763e373, 0x682e6ff3d6b2b8a3,
   0x748f82ee5defb2fc, 0x78a5636f43172f60, 0x84c87814a1f0ab72, 0x8cc702081a6439ec,
   0x90befffa23631e28, 0xa4506cebde82bde9, 0xbef9a3f7b2c67915, 0xc67178f2e372532b]

def shaK4 : List Nat :=
  [0xca273eceea26619c, 0xd186b8c721c0c207, 0xeada7dd6cde0eb1e, 0xf57d4f7fee6ed178,
   0x6f067aa72176fba, 0xa637dc5a2c898a6, 0x113f9804bef90dae, 0x1b710b35131c471b,
   0x28db77f523047d84, 0x32caab7b40c72493, 0x3c9ebe0a15c9bebc, 0x431d67c49c100d4c,
   0x4cc5d4becb3e42b6, 0x597f299cfc657e2a, 0x5fcb6fab3ad6faec, 0x6c44198c4a475817]

def shaK : List Nat := shaK0 ++ shaK1 ++ shaK2 ++ shaK3 ++ shaK4

def shaInit : List Nat :=
  [0xcbbb9d5dc1059ed8, 0x629a292a367cd507, 0x9159015a3070dd17, 0x152fecd8f70e5939,
   0x67332667ffc00b31, 0x8eb44a8768581511, 0xdb0c2e0d64f98fa7, 0x47b5481dbefa4fa4]

def rotr64 (n x : Nat) : Nat := Nat.lor (Nat.shiftRight x n) (Nat.shiftLeft x (64 - n) % 2 ^ 64)
def xor3 (a b c : Nat) : Nat := Nat.xor a (Nat.xor b c)

/-- Message schedule, newest word first. -/
def shaSched : Nat → List Nat → List Nat
  | 0, w => w
  | n + 1, w =>
    let a := w.getD 14 0
    let b := w.getD 1 0
    let s0 := xor3 (rotr64 1 a) (rotr64 8 a) (Nat.shiftRight a 7)
    let s1 := xor3 (rotr64 19 b) (rotr64 61 b) (Nat.shiftRight b 6)
    shaSched n ((w.getD 15 0 + s0 + w.getD 6 0 + s1) % 2 ^ 64 :: w)

def shaRound (st : List Nat) (kw : Nat) : List Nat :=
  match st with
  | [a, b, c, d, e, f, g, h] =>
    let s1 := xor3 (rotr64 14 e) (rotr64 18 e) (rotr64 41 e)
    let ch := Nat.xor (Nat.land e f) (Nat.land (2 ^ 64 - 1 - e) g)
    let t1 := h + s1 + ch + kw
    let s0 := xor3 (rotr64 28 a) (rotr64 34 a) (rotr64 39 a)
    let mj := xor3 (Nat.land a b) (Nat.land a c) (Nat.land b c)
    [(t1 + s0 + mj) % 2 ^ 64, a, b, c, (d + t1) % 2 ^ 64, e, f, g]
  | l => l

def shaBlock (st : List Nat) (b : Bytes) : List Nat :=
  let w := (shaSched 64 ((chunk 8 16 b).map beNat).reverse).reverse
  let r := (List.zipWith (· + ·) shaK w).foldl shaRound st
  List.zipWith (fun x y => (x + y) % 2 ^ 64) st r

def sha384 (msg : Bytes) : Bytes :=
  let l := msg.length
  let padded := msg ++ [128] ++ List.replicate ((128 - (l + 17) % 128) % 128) 0 ++ beBytes 16 (8 * l)
  let st := (chunk 128 (padded.length / 128) padded).foldl shaBlock shaInit
  ((st.take 6).map fun x => beBytes 8 x).flatten

end Sys2Proof.Machine
end

