-- ==== Sys2Proof/Machine/HandleFields.lean ====
section
/-! DEFINITION. Handles: fields, elements and footprints (R143–R145), and the block and link of a drawer offset (R109). -/

namespace Sys2Proof.Machine

/-- Home and offset of an address (R230). -/
def homeBits (va : W64) : Nat := (va.extractLsb' 57 7).toNat
def offBits (va : W64) : Nat := (va.extractLsb' 0 57).toNat
def mkAddr (home : Nat) (off : Nat) : W64 := (BitVec.ofNat 64 home <<< 57) ||| BitVec.ofNat 64 (off % 2 ^ 57)

def hBase (h : W256) : W64 := h.extractLsb' 0 64
/-- Extent of dimension d, minus 1. -/
def hExt (h : W256) (d : Nat) : Nat := (h.extractLsb' (64 + 12 * d) 12).toNat
def hStride (h : W256) (d : Nat) : Int := (h.extractLsb' (136 + 20 * d) 20).toInt

/-- A field of n bits at lo replaced. -/
def hPut (h : W256) (lo n : Nat) (v : Nat) : W256 :=
  (h &&& ~~~((BitVec.ofNat 256 (2 ^ n - 1)) <<< lo)) ||| (BitVec.ofNat 256 (v % 2 ^ n) <<< lo)

/-- Number of elements: the product of the six extents (R272). -/
def hCount (h : W256) : Nat :=
  (hExt h 0 + 1) * (hExt h 1 + 1) * (hExt h 2 + 1) * (hExt h 3 + 1) * (hExt h 4 + 1) * (hExt h 5 + 1)

/-- Index of element i in dimension d, dimension 0 fastest (R144). -/
def hIndex (h : W256) : Nat → Nat → Nat
  | 0, i => i % (hExt h 0 + 1)
  | d + 1, i =>
    let below := (List.range (d + 1)).foldl (fun n j => n * (hExt h j + 1)) 1
    i / below % (hExt h (d + 1) + 1)

/-- Exact offset of an index tuple (R144). -/
def hOffAt (h : W256) (ix : List Nat) : Int :=
  (offBits (hBase h) : Int) + ((List.range 6).map fun d => (ix.getD d 0 : Int) * hStride h d).sum

/-- Exact offset of the i-th element in nest order. -/
def hOff (h : W256) (i : Nat) : Int := hOffAt h ((List.range 6).map fun d => hIndex h d i)

/-- Address of an offset in the handle's home. -/
def hAddrAt (h : W256) (ix : List Nat) : W64 := mkAddr (homeBits (hBase h)) (hOffAt h ix).toNat
def hAddr (h : W256) (i : Nat) : W64 := mkAddr (homeBits (hBase h)) (hOff h i).toNat

def hLo (h : W256) : Int :=
  (offBits (hBase h) : Int) + ((List.range 6).map fun d => min 0 ((hExt h d : Int) * hStride h d)).sum
def hHi (h : W256) (n : Nat) : Int :=
  (offBits (hBase h) : Int) + ((List.range 6).map fun d => max 0 ((hExt h d : Int) * hStride h d)).sum + n - 1

/-- The footprint is valid (R145). -/
def hValid (h : W256) (n : Nat) : Bool :=
  decide (0 ≤ hLo h) && decide (hHi h n < 2 ^ 57) && (homeBits (hBase h) != 0 || decide (hHi h n < 0x400000))

/-- Base and every stride with a nonzero extent are multiples of n (R164). -/
def hAligned (h : W256) (n : Nat) : Bool :=
  offBits (hBase h) % n == 0 && (List.range 6).all fun d => hExt h d == 0 || hStride h d % n == 0

/-- The link that carries the block of a drawer offset (R109). -/
def linkOf (off : Nat) : Nat := off / 256 / 16 % 48

end Sys2Proof.Machine
end

