-- ==== Sys2Proof/Machine/Float.lean ====
section
/-! DEFINITION. Number formats, rounding, conversions and exact arithmetic (R116–R134). A value is an exact real number
with a sign, m × 2^e, or an infinity, or NaN; every result is rounded once. -/

namespace Sys2Proof.Machine

/-- A floating-point format: fraction bits, bias, width, the magnitude pattern of the largest finite value, of infinity
and of the canonical NaN (R117). -/
structure Fmt where
  fb : Nat
  bias : Nat
  width : Nat
  maxMag : Nat
  inf : Option Nat
  nan : Option Nat
deriving DecidableEq, Repr

def fp32 : Fmt := ⟨23, 127, 32, 0x7F7FFFFF, some 0x7F800000, some 0x7FC00000⟩
def bf16 : Fmt := ⟨7, 127, 16, 0x7F7F, some 0x7F80, some 0x7FC0⟩
def fp16 : Fmt := ⟨10, 15, 16, 0x7BFF, some 0x7C00, some 0x7E00⟩
def e4m3 : Fmt := ⟨3, 7, 8, 0x7E, none, some 0x7F⟩
def e5m2 : Fmt := ⟨2, 15, 8, 0x7B, some 0x7C, some 0x7E⟩
def e2m1 : Fmt := ⟨1, 1, 4, 0x7, none, none⟩
/-- binary64, the format of the checksum channels (R187). -/
def fp64 : Fmt := ⟨52, 1023, 64, 0x7FEFFFFFFFFFFFFF, some 0x7FF0000000000000, some 0x7FF8000000000000⟩

/-- An exact value: NaN, a signed infinity, or (−1)^neg × m × 2^e. -/
inductive Fv where
  | nan
  | inf (neg : Bool)
  | fin (neg : Bool) (m : Nat) (e : Int)
deriving DecidableEq, Repr

/-- The value of a pattern (R118). -/
def Fmt.decode (f : Fmt) (x : Nat) : Fv :=
  let neg := x / 2 ^ (f.width - 1) % 2 == 1
  let mag := x % 2 ^ (f.width - 1)
  if f.inf = some mag then .inf neg
  else if mag > f.maxMag then .nan
  else
    let e := mag / 2 ^ f.fb
    let fr := mag % 2 ^ f.fb
    if e = 0 then .fin neg fr (1 - (f.bias : Int) - f.fb)
    else .fin neg (2 ^ f.fb + fr) ((e : Int) - f.bias - f.fb)

def Fmt.pack (f : Fmt) (neg : Bool) (mag : Nat) : Nat := (if neg then 2 ^ (f.width - 1) else 0) + mag

/-- What replaces a NaN: the canonical NaN, and +0 in E2M1 (R119, R127). -/
def Fmt.nanPat (f : Fmt) : Nat := f.nan.getD 0

/-- Overflow in rounding (R124). -/
def Fmt.overflow (f : Fmt) (r : Rnd) (neg : Bool) : Nat :=
  let top := match f.inf, f.nan with
    | some i, _ => f.pack neg i
    | none, some n => n
    | none, none => f.pack neg f.maxMag
  match r with
  | .rne => top
  | .rz => f.pack neg f.maxMag
  | .rdn => if neg then top else f.pack neg f.maxMag
  | .rup => if neg then f.pack neg f.maxMag else top
  | .rns => f.pack neg f.maxMag

/-- An infinite source (R124). -/
def Fmt.infPat (f : Fmt) (r : Rnd) (neg : Bool) : Nat :=
  match f.inf, f.nan with
  | some i, _ => if r = .rns then f.pack neg f.maxMag else f.pack neg i
  | none, some n => if r = .rns then f.pack neg f.maxMag else n
  | none, none => f.pack neg f.maxMag

/-- Whether rounding of quotient q with remainder rem of d moves away from zero (R123). -/
def roundsAway (r : Rnd) (neg : Bool) (q rem d : Nat) : Bool :=
  match r with
  | .rz => false
  | .rdn => neg && rem != 0
  | .rup => !neg && rem != 0
  | _ => decide (2 * rem > d) || (decide (2 * rem = d) && q % 2 == 1)

/-- m × 2^e as a multiple of 2^q, rounded by r. -/
def roundAt (r : Rnd) (neg : Bool) (m : Nat) (e q : Int) : Nat :=
  if q ≤ e then m * 2 ^ (e - q).toNat
  else
    let d := 2 ^ (q - e).toNat
    m / d + (if roundsAway r neg (m / d) (m % d) d then 1 else 0)

/-- The smallest exponent of the grid: the subnormal spacing (R123). -/
def Fmt.qmin (f : Fmt) : Int := 1 - (f.bias : Int) - f.fb

/-- Rounding of (−1)^neg × m × 2^e to a pattern (R123, R124). -/
def Fmt.roundFin (f : Fmt) (r : Rnd) (neg : Bool) (m : Nat) (e : Int) : Nat :=
  if m = 0 then f.pack neg 0
  else
    let q := max f.qmin ((m.log2 : Int) + e - f.fb)
    let mag := (q - f.qmin).toNat * 2 ^ f.fb + roundAt r neg m e q
    if mag > f.maxMag then f.overflow r neg else f.pack neg mag

/-- Rounding of any exact value (R123, R124, R127). -/
def Fmt.round (f : Fmt) (r : Rnd) : Fv → Nat
  | .nan => f.nanPat
  | .inf neg => f.infPat r neg
  | .fin neg m e => f.roundFin r neg m e

/-! ### Exact arithmetic (R125, R128) -/

def Fv.neg : Fv → Fv
  | .nan => .nan
  | .inf s => .inf (!s)
  | .fin s m e => .fin (!s) m e

def Fv.isNan : Fv → Bool
  | .nan => true
  | _ => false

def Fv.isZero : Fv → Bool
  | .fin _ 0 _ => true
  | _ => false

def signed (neg : Bool) (m : Nat) : Int := if neg then -(m : Int) else m

/-- m × 2^e over a common exponent q ≤ e. -/
def scaleTo (m : Int) (e q : Int) : Int := m * 2 ^ (e - q).toNat

/-- The exact sum; a zero sum of opposite signs is −0 under code 2 only (R125). -/
def Fv.add (r : Rnd) : Fv → Fv → Fv
  | .nan, _ => .nan
  | _, .nan => .nan
  | .inf a, .inf b => if a = b then .inf a else .nan
  | .inf a, _ => .inf a
  | _, .inf b => .inf b
  | .fin sa ma ea, .fin sb mb eb =>
    let q := min ea eb
    let t := scaleTo (signed sa ma) ea q + scaleTo (signed sb mb) eb q
    if t = 0 then .fin (if sa = sb then sa else r = .rdn) 0 q
    else .fin (decide (t < 0)) t.natAbs q

def Fv.mul : Fv → Fv → Fv
  | .nan, _ => .nan
  | _, .nan => .nan
  | .inf a, .inf b => .inf (a ^^ b)
  | .inf a, .fin b m _ => if m = 0 then .nan else .inf (a ^^ b)
  | .fin a m _, .inf b => if m = 0 then .nan else .inf (a ^^ b)
  | .fin a ma ea, .fin b mb eb => .fin (a ^^ b) (ma * mb) (ea + eb)

/-- FP32 patterns. -/
def f32 (x : W32) : Fv := fp32.decode x.toNat
def toF32 (r : Rnd) (v : Fv) : W32 := BitVec.ofNat 32 (fp32.round r v)

def f32Add (r : Rnd) (a b : W32) : W32 := toF32 r ((f32 a).add r (f32 b))
def f32Sub (r : Rnd) (a b : W32) : W32 := toF32 r ((f32 a).add r (f32 b).neg)
def f32Mul (r : Rnd) (a b : W32) : W32 := toF32 r ((f32 a).mul (f32 b))
/-- a × b + c with one rounding. -/
def f32Fma (r : Rnd) (a b c : Fv) : W32 := toF32 r ((a.mul b).add r c)

/-- BF16 add of a bank unit: one rounding by code 0 (R130). -/
def bf16Add (a b : BitVec 16) : BitVec 16 :=
  BitVec.ofNat 16 (bf16.round .rne ((bf16.decode a.toNat).add .rne (bf16.decode b.toNat)))

/-- The order of two numbers, −0 below +0 when `zeros` is set. -/
def Fv.lt (zeros : Bool) : Fv → Fv → Bool
  | .nan, _ => false
  | _, .nan => false
  | .inf a, .inf b => a && !b
  | .inf a, .fin _ _ _ => a
  | .fin _ _ _, .inf b => !b
  | .fin sa ma ea, .fin sb mb eb =>
    let q := min ea eb
    let x := scaleTo (signed sa ma) ea q
    let y := scaleTo (signed sb mb) eb q
    decide (x < y) || (zeros && x == 0 && y == 0 && sa && !sb)

/-- Equality of two numbers; the zeros are equal. -/
def Fv.eqv (a b : Fv) : Bool := !a.isNan && !b.isNan && !a.lt false b && !b.lt false a

/-! ### Types in lanes and in memory (R122, R126, R127) -/

def Ty.fmt : Ty → Option Fmt
  | .f32 => some fp32
  | .bf16 => some bf16
  | .f16 => some fp16
  | .e4m3 => some e4m3
  | .e5m2 => some e5m2
  | .mxe4m3 => some e4m3
  | .mxf4 => some e2m1
  | .f4 => some e2m1
  | _ => none

/-- Range of an integer type (R116). -/
def Ty.range : Ty → Int × Int
  | .i8 => (-128, 127)
  | .ui8 => (0, 255)
  | .i4 => (-8, 7)
  | _ => (-2147483648, 2147483647)

/-- A value of a type: a floating-point value or an integer. -/
inductive Num where
  | flt (v : Fv)
  | int (n : Int)
deriving DecidableEq, Repr

/-- The value of the low bits of a lane or of a memory element, read as type t (R122). -/
def readTy (t : Ty) (x : W32) : Num :=
  match Ty.fmt t with
  | some f => .flt (f.decode (x.toNat % 2 ^ f.width))
  | none =>
    match t with
    | .i8 => .int (x.extractLsb' 0 8).toInt
    | .ui8 => .int (x.extractLsb' 0 8).toNat
    | .i4 => .int (x.extractLsb' 0 4).toInt
    | _ => .int x.toInt

def Num.toFv : Num → Fv
  | .flt v => v
  | .int n => .fin (decide (n < 0)) n.natAbs 0

/-- A value rounded to an integer; code 4 acts as code 0 (R126). -/
def roundInt (r : Rnd) (neg : Bool) (m : Nat) (e : Int) : Int := signed neg (roundAt r neg m e 0)

def limit (t : Ty) (n : Int) : Int :=
  let (lo, hi) := Ty.range t
  if n < lo then lo else if hi < n then hi else n

def toIntTy (t : Ty) (r : Rnd) : Num → Int
  | .int n => limit t n
  | .flt .nan => 0
  | .flt (.inf s) => if s then (Ty.range t).1 else (Ty.range t).2
  | .flt (.fin s m e) => limit t (roundInt r s m e)

/-- A value converted to type t, as the lane that holds it (R122, R126, R127): a pattern with zeros above, or an
integer extended to 32 bits. -/
def writeTy (t : Ty) (r : Rnd) (v : Num) : W32 :=
  match Ty.fmt t with
  | some f => BitVec.ofNat 32 (f.round r v.toFv)
  | none => BitVec.ofInt 32 (toIntTy t r v)

/-- The destination is the same type, or one that holds every value of a source with infinities (R126). -/
def holdsAll : Ty → Ty → Bool
  | .f32, .f32 => true
  | .f32, .bf16 => true
  | .f32, .f16 => true
  | .f32, .e5m2 => true
  | .bf16, .bf16 => true
  | .bf16, .e5m2 => true
  | .f16, .f16 => true
  | .f16, .e5m2 => true
  | .e5m2, .e5m2 => true
  | _, _ => false

/-- The rounding code that a conversion uses: none has an effect where the destination holds every source value (R126). -/
def codeFor (dst src : Ty) (r : Rnd) : Rnd := if holdsAll dst src then .rne else r

/-- VCVT of one lane, and a converting load or store (R126). -/
def convert (dst src : Ty) (r : Rnd) (x : W32) : W32 := writeTy dst (codeFor dst src r) (readTy src x)

/-! ### The matrix engine's sums (R131–R133) -/

/-- One product of a group with its scale, 2^s, exact (R131). -/
def scaledProduct (sc : Option Int) (a b : Fv) : Fv :=
  match sc with
  | none => .nan
  | some s =>
    match a.mul b with
    | .fin n m e => .fin n m (e + s)
    | v => v

/-- The exact sum of a group's finite products as (integer, exponent). -/
def exactSum : List Fv → Int × Int
  | [] => (0, 0)
  | .fin n m e :: r =>
    let (t, q) := exactSum r
    let p := min e q
    (scaleTo (signed n m) e p + scaleTo t q p, p)
  | _ :: r => exactSum r

def anyInf (neg : Bool) (ps : List Fv) : Bool := ps.any (· == .inf neg)

/-- GroupRound (R132): the group value in FP32. -/
def groupRound (ps : List Fv) : Fv :=
  if ps.any (·.isNan) then .nan
  else if anyInf true ps && anyInf false ps then .nan
  else if anyInf true ps then .inf true
  else if anyInf false ps then .inf false
  else
    let (t, q) := exactSum ps
    if t = 0 then .fin false 0 0 else f32 (toF32 .rne (.fin (decide (t < 0)) t.natAbs q))

/-! ### Reductions (R134) -/

/-- One level of the pairwise tree. -/
def pairUp (f : α → α → α) : List α → List α
  | a :: b :: r => f a b :: pairUp f r
  | l => l

/-- `levels` levels of the tree over 2^levels elements. -/
def treeReduce (f : α → α → α) : Nat → List α → List α
  | 0, l => l
  | n + 1, l => treeReduce f n (pairUp f l)

end Sys2Proof.Machine
end

