-- ==== Sys2Proof/Machine/Elementary.lean ====
section
/-! DEFINITION. The FP32 functions of R129: the exact value rounded once by code 0. Algebraic functions are decided on
integers. The others are enclosed in an interval of relative width below 2^−150, and its lower end with a sticky bit is
rounded; exact grid values are taken out first (notes/assumptions/5). -/

namespace Sys2Proof.Machine

/-- Fraction bits of fixed-point intervals. -/
def fxP : Nat := 192
def fxOne : Nat := 2 ^ fxP
/-- ⌊π × 2^192⌋ and ⌊ln 2 × 2^192⌋. -/
def fxPi : Nat := 0x3243f6a8885a308d313198a2e03707344a4093822299f31d0
def fxLn2 : Nat := 0xb17217f7d1cf79abc9e3b39803f2f6af40f343267298b62d

/-- A nonnegative interval in units of 2^−192. -/
structure Iv where
  lo : Nat
  hi : Nat
deriving DecidableEq, Repr

def Iv.mul (a b : Iv) : Iv := ⟨a.lo * b.lo / fxOne, a.hi * b.hi / fxOne + 1⟩
def Iv.divNat (a : Iv) (k : Nat) : Iv := ⟨a.lo / k, a.hi / k + 1⟩
def Iv.oneMinus (a : Iv) : Iv := ⟨fxOne - a.hi, fxOne - a.lo⟩
def Iv.onePlus (a : Iv) : Iv := ⟨fxOne + a.lo, fxOne + a.hi⟩
def ivPi : Iv := ⟨fxPi, fxPi + 1⟩
def ivLn2 : Iv := ⟨fxLn2, fxLn2 + 1⟩

/-- 1 − y/(k(k+1)) × (1 − y/((k+2)(k+3)) × …), n factors. -/
def altSeries (y : Iv) : Nat → Nat → Iv
  | 0, _ => ⟨0, fxOne⟩
  | n + 1, k => (((altSeries y n (k + 2)).mul y).divNat (k * (k + 1))).oneMinus

/-- sin y ÷ y and cos y from y². -/
def sincSeries (y2 : Iv) : Iv := altSeries y2 45 2
def cosSeries (y2 : Iv) : Iv := altSeries y2 45 1

/-- 1 + y/k × (1 + y/(k+1) × …), n factors: e^y with k = 1. -/
def expSeries (y : Iv) : Nat → Nat → Iv
  | 0, _ => ⟨fxOne, 2 * fxOne⟩
  | n + 1, k => (((expSeries y n (k + 1)).mul y).divNat k).onePlus

/-- 1/k + z × (1/(k+2) + z × …), n terms. -/
def oddSeries (z : Iv) : Nat → Nat → Iv
  | 0, _ => ⟨0, fxOne⟩
  | n + 1, k =>
    let r := (oddSeries z n (k + 2)).mul z
    ⟨fxOne / k + r.lo, fxOne / k + 1 + r.hi⟩

/-- A value just above lo × 2^e, rounded by code 0. -/
def roundSticky (neg : Bool) (lo : Nat) (e : Int) : W32 :=
  BitVec.ofNat 32 (fp32.roundFin .rne neg (2 * lo + 1) (e - 1))

def exactF32 (neg : Bool) (m : Nat) (e : Int) : W32 := BitVec.ofNat 32 (fp32.roundFin .rne neg m e)

def nan32 : W32 := 0x7FC00000
def inf32 (neg : Bool) : W32 := if neg then 0xFF800000 else 0x7F800000
def zero32 (neg : Bool) : W32 := if neg then 0x80000000 else 0

/-- Integer square root: the largest r with r × r ≤ n, one bit per unit of fuel. -/
def isqrtGo (n : Nat) : Nat → Nat → Nat
  | 0, r => r
  | k + 1, r =>
    let c := r + 2 ^ k
    isqrtGo n k (if c * c ≤ n then c else r)

def isqrt (n : Nat) : Nat := isqrtGo n (n.log2 / 2 + 1) 0

/-- 2^x. -/
def f32Exp2 (x : W32) : W32 :=
  match f32 x with
  | .nan => nan32
  | .inf neg => if neg then zero32 false else inf32 false
  | .fin neg m e =>
    if m = 0 then exactF32 false 1 0
    else if (m.log2 : Int) + e ≥ 8 then (if neg then zero32 false else inf32 false)
    else
      let fx := m * 2 ^ (fxP + e).toNat
      let n : Int := if neg then -(((fx + fxOne - 1) / fxOne : Nat) : Int) else ((fx / fxOne : Nat) : Int)
      let f := if neg then (fxOne - fx % fxOne) % fxOne else fx % fxOne
      if f = 0 then exactF32 false 1 n
      else
        let v := expSeries ((Iv.mk f f).mul ivLn2) 60 1
        roundSticky false v.lo (n - fxP)

/-- log2 x: the exponent exactly, plus 2 ÷ ln 2 × artanh z of the significand. -/
def f32Log2 (x : W32) : W32 :=
  match f32 x with
  | .nan => nan32
  | .inf neg => if neg then nan32 else inf32 false
  | .fin neg m e =>
    if m = 0 then inf32 true
    else if neg then nan32
    else
      let l := m.log2
      let p := 2 ^ l
      if m = p then
        let n : Int := l + e
        exactF32 (decide (n < 0)) n.natAbs 0
      else
        let up := decide (2 * m ≥ 3 * p)
        let b := if up then 2 * p else p
        let n : Int := l + e + (if up then 1 else 0)
        let num := if up then b - m else m - b
        let den := b + m
        let z := num * fxOne / den
        let zi : Iv := ⟨z, z + 1⟩
        let t := oddSeries (zi.mul zi) 50 1
        let v : Int := ((2 * num * t.lo * 2 ^ 256 / (den * (fxLn2 + 1)) : Nat) : Int)
        let total : Int := n * 2 ^ 256 + (if up then -v - 1 else v)
        if total < 0 then roundSticky true ((-total).toNat - 1) (-256) else roundSticky false total.toNat (-256)

/-- 1 ÷ x. -/
def f32Rcp (x : W32) : W32 :=
  match f32 x with
  | .nan => nan32
  | .inf neg => zero32 neg
  | .fin neg m e =>
    if m = 0 then inf32 neg
    else
      let q := 2 ^ 80 / m
      if 2 ^ 80 % m = 0 then exactF32 neg q (-80 - e) else roundSticky neg q (-80 - e)

/-- The square root of m × 2^e, with an even exponent. -/
def sqrtFin (m : Nat) (e : Int) : W32 :=
  let m' := if e % 2 = 0 then m * 2 ^ 64 else m * 2 ^ 65
  let e' := (if e % 2 = 0 then e - 64 else e - 65) / 2
  let r := isqrt m'
  if r * r = m' then exactF32 false r e' else roundSticky false r e'

def f32Sqrt (x : W32) : W32 :=
  match f32 x with
  | .nan => nan32
  | .inf neg => if neg then nan32 else inf32 false
  | .fin neg m e => if m = 0 then zero32 neg else if neg then nan32 else sqrtFin m e

/-- 1 ÷ √x: the root of 2^k ÷ m, k chosen to make the exponent even. -/
def f32Rsq (x : W32) : W32 :=
  match f32 x with
  | .nan => nan32
  | .inf neg => if neg then nan32 else zero32 false
  | .fin neg m e =>
    if m = 0 then inf32 neg
    else if neg then nan32
    else
      let k : Nat := if e % 2 = 0 then 160 else 161
      let q := 2 ^ k / m
      let r := isqrt q
      let e' := -(e + k) / 2
      if 2 ^ k % m = 0 ∧ r * r = q then exactF32 false r e' else roundSticky false r e'

/-- tanh x: x itself up to 2^−14, one from 16 upwards, else (E − 1) ÷ (E + 1) with E = e^(2x) by six squarings. -/
def f32Tanh (x : W32) : W32 :=
  match f32 x with
  | .nan => nan32
  | .inf neg => exactF32 neg 1 0
  | .fin neg m e =>
    if m = 0 then zero32 neg
    else if (m.log2 : Int) + e < -14 then x
    else if (m.log2 : Int) + e ≥ 4 then exactF32 neg 1 0
    else
      let y := m * 2 ^ ((fxP : Int) + e - 5).toNat
      let sq := fun (a : Iv) => a.mul a
      let v := sq (sq (sq (sq (sq (sq (expSeries ⟨y, y⟩ 60 1))))))
      roundSticky neg ((v.lo - fxOne) * 2 ^ 256 / (v.lo + fxOne)) (-256)

/-- sin(π u ÷ D) for 0 ≤ u < 2D, D = 2^d; a zero takes the sign `zneg`. -/
def sinTurn (neg zneg : Bool) (u d : Nat) : W32 :=
  let dd := 2 ^ d
  let neg := if u ≥ dd then !neg else neg
  let u := if u ≥ dd then u - dd else u
  let u := if 2 * u > dd then dd - u else u
  if u = 0 then zero32 zneg
  else if 2 * u = dd then exactF32 neg 1 0
  else if 4 * u ≤ dd then
    let r := u * 2 ^ (fxP - d)
    let y := ivPi.mul ⟨r, r⟩
    let s := sincSeries (y.mul y)
    roundSticky neg (u * fxPi * s.lo) (-(2 * fxP : Nat) - (d : Int))
  else
    let w := dd - 2 * u
    let r := w * 2 ^ (fxP - (d + 1))
    let y := ivPi.mul ⟨r, r⟩
    roundSticky neg (cosSeries (y.mul y)).lo (-(fxP : Int))

def f32SinPi (x : W32) : W32 :=
  match f32 x with
  | .nan => nan32
  | .inf _ => nan32
  | .fin neg m e =>
    if e ≥ 0 then zero32 neg
    else
      let d := (-e).toNat
      sinTurn neg neg (m % 2 ^ (d + 1)) d

def f32CosPi (x : W32) : W32 :=
  match f32 x with
  | .nan => nan32
  | .inf _ => nan32
  | .fin _ m e =>
    if e ≥ 0 then exactF32 (e = 0 && m % 2 == 1) 1 0
    else
      let d := (-e).toNat
      sinTurn false false ((m + 2 ^ (d - 1)) % 2 ^ (d + 1)) d

end Sys2Proof.Machine
end

