-- ==== Sys2Proof/Machine/Lane.lean ====
section
/-! DEFINITION. Vector registers as lists of 1,024 lanes, and what one lane, row or column of a vector instruction computes
(R134, R147–R160, R166–R183). Element e stands at row e ÷ 64, column e mod 64; a lane beyond the list reads 0. -/

namespace Sys2Proof.Machine

abbrev Lanes := List W32
abbrev Mask := BitVec 1024

def Lanes.get (l : Lanes) (e : Nat) : W32 := l.getD e 0
def Lanes.ofFn (f : Nat → W32) : Lanes := (List.range 1024).map f
def maskOf (f : Nat → Bool) : Mask :=
  BitVec.ofNat 1024 ((List.range 1024).foldr (fun e n => 2 * n + (if f e then 1 else 0)) 0)
def allOnes : Mask := BitVec.allOnes 1024

/-- The destination under a write mask (R149). -/
def underMask (k : Mask) (old : Lanes) (f : Nat → W32) : Lanes :=
  Lanes.ofFn fun e => if k.getLsbD e then f e else old.get e

/-! ### One lane (R152–R160) -/

def isNan32 (x : W32) : Bool := (f32 x).isNan

/-- The lesser operand in the order with −0 below +0; a number wins over NaN (R153). -/
def f32Min (a b : W32) : W32 :=
  if isNan32 a && isNan32 b then nan32
  else if isNan32 a then b
  else if isNan32 b then a
  else if (f32 b).lt true (f32 a) then b else a

def f32Max (a b : W32) : W32 :=
  if isNan32 a && isNan32 b then nan32
  else if isNan32 a then b
  else if isNan32 b then a
  else if (f32 a).lt true (f32 b) then b else a

def i32Min (a b : W32) : W32 := if b.slt a then b else a
def i32Max (a b : W32) : W32 := if a.slt b then b else a

def laneMin : LaneTy → W32 → W32 → W32
  | .f32 => f32Min
  | .i32 => i32Min
def laneMax : LaneTy → W32 → W32 → W32
  | .f32 => f32Max
  | .i32 => i32Max

def laneAdd : LaneTy → Rnd → W32 → W32 → W32
  | .f32, r, a, b => f32Add r a b
  | .i32, _, a, b => a + b
def laneSub : LaneTy → Rnd → W32 → W32 → W32
  | .f32, r, a, b => f32Sub r a b
  | .i32, _, a, b => a - b
def laneMul : LaneTy → Rnd → W32 → W32 → W32
  | .f32, r, a, b => f32Mul r a b
  | .i32, _, a, b => a * b

def laneFma (r : Rnd) (a b c : W32) : W32 := f32Fma r (f32 a) (f32 b) (f32 c)
def laneFms (r : Rnd) (a b c : W32) : W32 := f32Fma r (f32 a) (f32 b) (f32 c).neg
/-- −(a × b) + c. -/
def laneFnma (r : Rnd) (a b c : W32) : W32 := f32Fma r (f32 a).neg (f32 b) (f32 c)

/-- a × 2^n for n as INT32, rounded once; n beyond ±1,000 overflows or vanishes as 1,000 does (R152). -/
def laneScale (r : Rnd) (a b : W32) : W32 :=
  match f32 a with
  | .nan => nan32
  | .inf s => toF32 r (.inf s)
  | .fin s m e => toF32 r (.fin s m (e + max (-1000) (min 1000 b.toInt)))

/-- An integral value by the rounding code; a zero result has the sign of a (R152). -/
def laneRint (r : Rnd) (a : W32) : W32 :=
  match f32 a with
  | .nan => nan32
  | .inf s => toF32 r (.inf s)
  | .fin s m e => if e ≥ 0 then toF32 .rne (.fin s m e) else toF32 .rne (.fin s (roundAt r s m e 0) 0)

def satI32 (n : Int) : W32 := BitVec.ofInt 32 (limit .i32 n)
def laneAdds (a b : W32) : W32 := satI32 (a.toInt + b.toInt)
def laneSubs (a b : W32) : W32 := satI32 (a.toInt - b.toInt)

def laneClamp (ty : LaneTy) (a b c : W32) : W32 := laneMin ty (laneMax ty a b) c

/-- Sign cleared or flipped; NaN becomes canonical (R155). -/
def laneAbs : LaneTy → W32 → W32
  | .f32, a => if isNan32 a then nan32 else a &&& 0x7FFFFFFF
  | .i32, a => if a.msb then -a else a
def laneNeg : LaneTy → W32 → W32
  | .f32, a => if isNan32 a then nan32 else a ^^^ 0x80000000
  | .i32, a => -a

def shamt (b : W32) : Nat := (b.extractLsb' 0 5).toNat

def popcount (n : Nat) : Nat → Nat
  | 0 => 0
  | k + 1 => (if n.testBit k then 1 else 0) + popcount n k

def lanePopc (a : W32) : W32 := BitVec.ofNat 32 (popcount a.toNat 32)

def laneEq : LaneTy → W32 → W32 → Bool
  | .f32, a, b => (f32 a).eqv (f32 b)
  | .i32, a, b => a == b
def laneLt : LaneTy → W32 → W32 → Bool
  | .f32, a, b => (f32 a).lt false (f32 b)
  | .i32, a, b => a.slt b
def laneLe (ty : LaneTy) (a b : W32) : Bool := laneLt ty a b || laneEq ty a b

/-- The round keys of VHASH (R160). -/
def hashKey : Nat → W32
  | 0 => 0x1F3AC855
  | 1 => 0x7B04E291
  | 2 => 0xD86F1A37
  | _ => 0x4A9563BD

def hashRound (i : Nat) (s : W32 × W32) : W32 × W32 :=
  let x := (s.1 + s.2 + hashKey i) * 0xA5CB3B49
  let x := x ^^^ (x >>> 15)
  (x, (s.2.rotateLeft 11) ^^^ x)

/-- VHASH of counter lane c at element e with seed s (R160). -/
def laneHash (e : Nat) (s : W64) (c : W32) : W32 :=
  let x0 := c ^^^ s.extractLsb' 0 32
  let y0 := BitVec.ofNat 32 e ^^^ s.extractLsb' 32 32
  let x := (hashRound 3 (hashRound 2 (hashRound 1 (hashRound 0 (x0, y0))))).1
  x ^^^ (x >>> 16)

/-! ### Rows and columns (R134, R166–R170) -/

def rotRow (n : Nat) (a : Lanes) : Lanes := Lanes.ofFn fun e => a.get (e / 64 * 64 + (e % 64 + (64 - n)) % 64)
def bcastCol (c : Nat) (a : Lanes) : Lanes := Lanes.ofFn fun e => a.get (e / 64 * 64 + c)
def permRow (a b : Lanes) : Lanes := Lanes.ofFn fun e => a.get (e / 64 * 64 + ((b.get e).extractLsb' 0 6).toNat)
def rotCol (n : Nat) (a : Lanes) : Lanes := Lanes.ofFn fun e => a.get ((e / 64 + (16 - n)) % 16 * 64 + e % 64)
def bcastRow (r : Nat) (a : Lanes) : Lanes := Lanes.ofFn fun e => a.get (r * 64 + e % 64)

def combine (ty : LaneTy) : RedOp → W32 → W32 → W32
  | .add => laneAdd ty .rne
  | .max => laneMax ty
  | .min => laneMin ty

/-- The tree of R134 over 2^levels lanes. -/
def reduce (ty : LaneTy) (op : RedOp) (levels : Nat) (xs : List W32) : W32 :=
  (treeReduce (combine ty op) levels xs).headD 0

def reduceRows (ty : LaneTy) (op : RedOp) (a : Lanes) : Lanes :=
  let rows := (List.range 16).map fun r => reduce ty op 6 ((List.range 64).map fun c => a.get (r * 64 + c))
  Lanes.ofFn fun e => rows.getD (e / 64) 0

def reduceCols (ty : LaneTy) (op : RedOp) (a : Lanes) : Lanes :=
  let cols := (List.range 64).map fun c => reduce ty op 4 ((List.range 16).map fun r => a.get (r * 64 + c))
  Lanes.ofFn fun e => cols.getD (e % 64) 0

def firstSet (k : Mask) : Nat → Nat → Nat
  | 0, e => e
  | n + 1, e => if k.getLsbD e then e else firstSet k n (e + 1)

/-! ### Selection (R171–R183) -/

/-- A candidate: value, index, position (R171). -/
structure Cand where
  v : W32
  i : W32
  p : Nat
deriving DecidableEq, Repr, Inhabited

/-- Strictly better by value; NaN loses to every number (R171). -/
def better (ty : LaneTy) (isMax : Bool) (x y : W32) : Bool :=
  match ty with
  | .f32 =>
    if isNan32 x then false
    else if isNan32 y then true
    else if isMax then (f32 y).lt false (f32 x) else (f32 x).lt false (f32 y)
  | .i32 => if isMax then y.slt x else x.slt y

/-- The selection order: ties go to the lower index, then to the lower position (R171). -/
def ahead (ty : LaneTy) (isMax : Bool) (x y : Cand) : Bool :=
  if better ty isMax x.v y.v then true
  else if better ty isMax y.v x.v then false
  else if x.i ≠ y.i then decide (x.i.toNat < y.i.toNat)
  else decide (x.p < y.p)

def fillIdx : W32 := 0xFFFFFFFF
/-- The value of a fill entry (R173). -/
def fillVal : LaneTy → Bool → W32
  | .f32, _ => nan32
  | .i32, true => 0x80000000
  | .i32, false => 0x7FFFFFFF

/-- A NaN is reported as the canonical NaN (R172). -/
def canonical : LaneTy → W32 → W32
  | .f32, v => if isNan32 v then nan32 else v
  | .i32, v => v

def insertBy (lt : α → α → Bool) (x : α) : List α → List α
  | [] => [x]
  | y :: r => if lt x y then x :: y :: r else y :: insertBy lt x r
def sortBy (lt : α → α → Bool) : List α → List α
  | [] => []
  | x :: r => insertBy lt x (sortBy lt r)

/-- The candidate ahead of all others. -/
def bestOf (lt : α → α → Bool) : List α → Option α
  | [] => none
  | x :: r => match bestOf lt r with
    | none => some x
    | some y => if lt y x then some y else some x

/-- Arg-max or arg-min over the elements of one row or column (R176). -/
def argBest (ty : LaneTy) (isMax : Bool) (k : Mask) (a : Lanes) (es : List Nat) : W32 × W32 :=
  let cs := (es.filter fun e => k.getLsbD e).map fun e => (⟨a.get e, BitVec.ofNat 32 e, e⟩ : Cand)
  match bestOf (ahead ty isMax) cs with
  | none => (fillVal ty isMax, fillIdx)
  | some c => (canonical ty c.v, c.i)

def argRows (ty : LaneTy) (isMax : Bool) (k : Mask) (a : Lanes) : Lanes × Lanes :=
  let rs := (List.range 16).map fun r => argBest ty isMax k a ((List.range 64).map (r * 64 + ·))
  (Lanes.ofFn fun e => (rs.getD (e / 64) (0, 0)).1, Lanes.ofFn fun e => (rs.getD (e / 64) (0, 0)).2)

def argCols (ty : LaneTy) (isMax : Bool) (k : Mask) (a : Lanes) : Lanes × Lanes :=
  let cs := (List.range 64).map fun c => argBest ty isMax k a ((List.range 16).map (· * 64 + c))
  (Lanes.ofFn fun e => (cs.getD (e % 64) (0, 0)).1, Lanes.ofFn fun e => (cs.getD (e % 64) (0, 0)).2)

/-- The n best candidates as a list with fill (R173, R177). -/
def topList (ty : LaneTy) (n : Nat) (cs : List Cand) : Lanes × Lanes :=
  let best := (sortBy (ahead ty true) cs).take n
  (Lanes.ofFn fun j => match best[j]? with
    | some c => canonical ty c.v
    | none => fillVal ty true,
   Lanes.ofFn fun j => match best[j]? with
    | some c => c.i
    | none => fillIdx)

def topK (ty : LaneTy) (n : Nat) (k : Mask) (va vb : Lanes) : Lanes × Lanes :=
  topList ty n (((List.range 1024).filter fun e => k.getLsbD e).map fun e => ⟨va.get e, vb.get e, e⟩)

/-- Entries 0–63 of two lists as 128 candidates (R178). -/
def topKMerge (ty : LaneTy) (n : Nat) (a0 a1 b0 b1 : Lanes) : Lanes × Lanes :=
  topList ty n ((List.range 128).map fun p =>
    if p < 64 then ⟨a0.get p, a1.get p, p⟩ else ⟨b0.get (p - 64), b1.get (p - 64), p⟩)

def selected (k : Mask) : List Nat := (List.range 1024).filter fun e => k.getLsbD e
def unselected (k : Mask) : List Nat := (List.range 1024).filter fun e => !k.getLsbD e

/-- A dense list of element numbers (R173). -/
def denseList (es : List Nat) : Lanes :=
  Lanes.ofFn fun j => match es[j]? with
    | some e => BitVec.ofNat 32 e
    | none => fillIdx

/-- Participants of bucket b, in ascending order (R180). -/
def bucketOf (k : Mask) (a : Lanes) (b : Nat) : List Nat := (selected k).filter fun e => (a.get e).toNat == b

def buckets (n : Nat) (k : Mask) (a : Lanes) : Lanes × Lanes :=
  let bs := (List.range n).map (bucketOf k a)
  let count := fun b => (bs.getD b []).length
  let start := fun b => ((List.range b).map count).sum
  let rest := ((selected k).filter fun e => decide (n ≤ (a.get e).toNat)).length
  (denseList bs.flatten,
   Lanes.ofFn fun j =>
    if j < n then BitVec.ofNat 32 (count j)
    else if 16 ≤ j ∧ j < 16 + n then BitVec.ofNat 32 (start (j - 16))
    else if j = 32 then BitVec.ofNat 32 rest
    else 0)

def compress (k : Mask) (a : Lanes) : Lanes :=
  let es := selected k
  Lanes.ofFn fun j => match es[j]? with
    | some e => a.get e
    | none => 0

/-- The number of set bits of k below e. -/
def rankOf (k : Mask) (e : Nat) : Nat := ((List.range e).filter fun j => k.getLsbD j).length

def expand (k : Mask) (a : Lanes) : Lanes := Lanes.ofFn fun e => if k.getLsbD e then a.get (rankOf k e) else 0

/-- Whether magnitude x ranks ahead of magnitude y in type ty: NaN first, then the greater (R182). -/
def magAhead (ty : Ty) (x y : W32) : Bool :=
  match readTy ty x, readTy ty y with
  | .int a, .int b => decide (b.natAbs < a.natAbs)
  | .flt a, .flt b =>
    if a.isNan then !b.isNan
    else if b.isNan then false
    else
      let ab := fun (v : Fv) => match v with
        | .fin _ m e => Fv.fin false m e
        | .inf _ => .inf false
        | .nan => .nan
      (ab b).lt false (ab a)
  | _, _ => false

/-- The element number of lane j of group g (R182). -/
def groupElem (g j : Nat) : Nat := g / 8 * 64 + g % 8 * 8 + j

/-- Whether lane j of group g is among the four kept: fewer than four lanes rank ahead of it. -/
def kept (ty : Ty) (a : Lanes) (g j : Nat) : Bool :=
  let x := fun i => a.get (groupElem g i)
  decide (((List.range 8).filter fun i => magAhead ty (x i) (x j) || (!magAhead ty (x j) (x i) && decide (i < j))).length < 4)

/-- A lane rewritten in its type (R122, R182). -/
def rewriteTy (ty : Ty) (x : W32) : W32 :=
  match ty with
  | .i8 => (x.extractLsb' 0 8).signExtend 32
  | .i4 => (x.extractLsb' 0 4).signExtend 32
  | .bf16 => (x.extractLsb' 0 16).setWidth 32
  | .f16 => (x.extractLsb' 0 16).setWidth 32
  | .f4 => (x.extractLsb' 0 4).setWidth 32
  | _ => (x.extractLsb' 0 8).setWidth 32

def keptLanes (ty : Ty) (a : Lanes) (g : Nat) : List Nat := (List.range 8).filter (kept ty a g)

def prune48 (ty : Ty) (a : Lanes) : Lanes × Lanes :=
  (Lanes.ofFn fun e => if e < 512 then
      match (keptLanes ty a (e / 4))[e % 4]? with
      | some j => rewriteTy ty (a.get (groupElem (e / 4) j))
      | none => 0
    else 0,
   Lanes.ofFn fun g => if g < 128 then BitVec.ofNat 32 (((keptLanes ty a g).map (2 ^ ·)).sum) else 0)

/-- Metadata byte g of a pair (R183). -/
def metaByte (m : Lanes) (g : Nat) : Nat := (m.get g).toNat % 256

/-- The lowest group whose metadata byte has not four bits set. -/
def badMeta (m : Lanes) : Option Nat := (List.range 128).find? fun g => popcount (metaByte m g) 8 != 4

def spread48 (a m : Lanes) : Lanes :=
  Lanes.ofFn fun e =>
    let g := e / 64 * 8 + e % 64 / 8
    let j := e % 8
    if (metaByte m g).testBit j then a.get (4 * g + popcount (metaByte m g) j) else 0

end Sys2Proof.Machine
end

