-- ==== Sys2Proof/Machine/State.lean ====
section
/-! DEFINITION. The state of an EK-192, as plain data: tiles and their two slots, the dies' dispatchers, Sward units and
programming engines, partitions, links, weight regions, key slots, the host and the peers (R13–R23, R299; INVENTORY.md
lists every piece with its rule). A `Tab` lists the entries that differ from what the spec gives at reset. -/

namespace Sys2Proof.Machine

/-- A table by number: the first entry of a key counts; a key without an entry has the reset value. -/
abbrev Tab (α : Type) := List (Nat × α)

/-- Why a machine stops. -/
inductive Fault where
  /-- Raised by a step of a package without power (R395, R397, POWER_LOSS): nothing runs until power good. Safe. -/
  | unpowered
deriving DecidableEq, Repr, Inhabited

/-- Why an instruction has no meaning here. -/
inductive Refusal where
  /-- Raised by an arm of `exec` for an instruction whose meaning is not written. Safe: nothing can be proved of it. -/
  | notModelled (mnemonic : String)
deriving DecidableEq, Repr, Inhabited

/-! ### The tile -/

/-- A sync cell (R88): mode, count, ceiling, A, phase, and the owner's V and partition. -/
structure Cell where
  mode  : BitVec 2 := 0
  count : W32 := 0
  ceil  : W32 := 0
  a     : BitVec 30 := 0
  phase : Bool := false
  v     : Bool := false
  part  : PartNo := 0
deriving DecidableEq, Repr, Inhabited

/-- A tile register (R184): element (r, c) is entry 512 r + c, scale byte X(r, b) is entry 16 r + b; the generation counts the
writes that R372 names. -/
structure TileReg where
  conf  : Bool := false
  ty    : Ty := .f32
  rows  : Nat := 0
  cols  : Nat := 0
  data  : Tab W32 := []
  scale : Tab Byte := []
  gen   : Nat := 0
deriving DecidableEq, Repr, Inhabited

/-- The type tag of an accumulator (R186). -/
inductive Tag where
  | clear | f32 | i32
deriving DecidableEq, Repr, Inhabited

/-- One entry of an operand log (R372): the command, its handle and scalar copies, and the generations of its registers. -/
structure LogEntry where
  cmd   : Instr
  ha    : W256
  param : W64
  gens  : List (Nat × Nat)
deriving DecidableEq, Repr, Inhabited

/-- An accumulator (R186): element (i, j) is entry 128 i + j; channels hold binary64 patterns, or 32-bit values for INT32. -/
structure Acc where
  elems : Tab W32 := []
  tag   : Tag := .clear
  csr   : Tab W64 := []
  csc   : Tab W64 := []
  asr   : Tab W64 := []
  asc   : Tab W64 := []
  steps : W32 := 0
  chk   : Bool := true
  log   : List LogEntry := []
  overflowed  : Bool := false
deriving DecidableEq, Repr, Inhabited

/-- A captured loop body (R84, R87): its words, the address after the body, E, and whether the loop is a LOOP.P. The position
within the body is the distance of the slot's pc from the body's first word. -/
structure LoopSt where
  words : List W64
  after : W64
  epi   : Nat
  piped : Bool
deriving DecidableEq, Repr, Inhabited

/-- A task (R60–R65): its partition and level, WID, launch header in force, dispatch record, and a number that no other
task of the run has. -/
structure Task where
  part   : PartNo
  level  : Nat
  wid    : W64
  header : W512
  record : W512
  num    : Nat
deriving DecidableEq, Repr, Inhabited

/-- What a fault is known by (R355, R356): its name and source, FINFO1–FINFO3, the address and words of the group and the
resume address. -/
structure FaultInfo where
  name   : FaultName
  src    : Nat := 0
  addr   : W64 := 0
  detail : W64 := 0
  prog   : W64 := 0
  ip     : W64 := 0
  words  : List W64 := []
  resume : W64 := 0
deriving DecidableEq, Repr, Inhabited

/-- A command in an engine queue (R16, R271, R366): the copies taken at issue and its progress word. `num` is the order of
issue among the slot's accesses and commands; `rdv` the rendezvous of a lockstep command; `sealStep` the outcome of the
security core's step of COPY.OPEN or COPY.SEAL. -/
structure Cmd where
  instr    : Instr
  words    : List W64
  addr     : W64
  num      : Nat
  hd       : W256 := 0
  ha       : W256 := 0
  param    : W64 := 0
  record   : W512 := 0
  index    : List W32 := []
  indexed  : Bool := false
  started  : Bool := false
  wtaken   : Bool := false
  sigdue   : Bool := false
  fpend    : Option FaultInfo := none
  count    : Nat := 0
  held     : Bool := false
  phased   : Bool := false
  rdv      : Option Nat := none
  written  : Bool := false
  sealStep : Option (Nat × W64) := none
  landed   : Bool := false
deriving DecidableEq, Repr, Inhabited

/-- What an access does (R262–R266, R146, R162, R163). -/
inductive AccOp where
  | load (signed : Bool) (sd : SReg)
  | store
  | atomic (op : Nat) (fetch : Bool) (sd : SReg) (cmp : W64)
  | hload (hd : HReg)
  | hstore
  | vload (ty : Ty) (vd : Nat) (row : Option Nat)
  | vstore
deriving DecidableEq, Repr, Inhabited

/-- Where an accepted element lies: a byte of physical storage, an entry of a cell window, or a place at a peer. -/
inductive Loc where
  | mem (key : Nat)
  | cell (tile cell sub : Nat)
  | peer (va : W64)
deriving DecidableEq, Repr, Inhabited

/-- One element of an access: its virtual address, the data to store or the data read, its place once accepted. -/
structure Elem where
  lane : Nat
  va   : W64
  data : W256 := 0
  loc  : Option Loc := none
  done : Bool := false
  poisoned : Bool := false
deriving DecidableEq, Repr, Inhabited

/-- An access that its core has made and that is not yet complete (R240, R261). -/
structure Access where
  num      : Nat
  op       : AccOp
  size     : Nat
  ord      : Ord
  elems    : List Elem
  accepted : Bool := false
  handed   : Bool := false
  words    : List W64
  ip       : W64
  resume   : W64
deriving DecidableEq, Repr, Inhabited

/-- A Sward or weight-engine command offered by a core (R208, R323): the copies taken at issue, the issuer's WID and header. -/
structure Offer where
  instr  : Instr
  num    : Nat
  x      : W64 := 0
  y      : W64 := 0
  toks   : List W32 := []
  ha     : W256 := 0
  vd     : Nat := 0
  words  : List W64
  addr   : W64
  wid    : W64
  header : W512
deriving DecidableEq, Repr, Inhabited

/-- What the core of a slot is held on. -/
inductive Hold where
  /-- Nothing: the core issues. -/
  | none
  /-- The reply of its newest access (R261). -/
  | reply
  /-- The performance of its newest access, for an acquire (R262). -/
  | perf
  /-- A local WAIT or TAKE, with the running cycles left of its limit (R91). -/
  | wait (sd : SReg) (limit : Option Nat)
  /-- The reply from a remote cell, with the running cycles left of the limit (R93, R94). -/
  | remote (id : Nat) (sd : SReg) (limit : Option Nat)
  /-- The wait cell of a Sward or weight-engine command (R208 step 1). -/
  | offerWait (o : Offer)
  /-- The acceptance of such a command (R208 step 2). -/
  | offer (o : Offer)
  /-- The status of SPAWN or SPAWNB (R97, R98). -/
  | spawn (sd : SReg)
  | qwait (matrix copy : Bool)
  | phase
  | park (sd : SReg) (addr : W64) (committed : Bool)
  | done (sa : SReg) (addr : W64) (committed : Bool)
deriving DecidableEq, Repr, Inhabited

/-- Why a context stops (R351, R353). -/
inductive Stop where
  | fault (f : FaultInfo)
  | cancel (f : FaultInfo)
  | preempt
  | budget
  | yield
  | switch
  | clear
deriving DecidableEq, Repr, Inhabited

/-- Why a context is saved (R363): a pre-emption, an overrun or YIELD, or a move-out. -/
inductive SaveWhy where
  | preempt | overrun | moveOut
deriving DecidableEq, Repr, Inhabited

/-- The life of a slot (R73): without a task, with one (RUNNING or SUSPENDED), stopping, being saved, held on a fault,
being cleared. -/
inductive SlotSt where
  | free
  | busy
  | stopping (w : Stop)
  | saving (w : SaveWhy)
  | faulted
  | clearing
deriving DecidableEq, Repr, Inhabited

/-- The answer of a query (R205): ml0, ml1, ml2, ml3 and the draft. -/
structure SwAnswer where
  m0 : W32
  m1 : W32
  m2 : W32
  m3 : W32
  draft : List W32
deriving DecidableEq, Repr, Inhabited

/-- A query of a slot (R213, R214): its context, the operation that answers it, the answer once stored, and whether a SWPOP
has taken it, so that it is no longer outstanding. -/
structure Query where
  ctx    : Nat
  op     : Nat
  answer : Option SwAnswer
  taken  : Bool := false
deriving DecidableEq, Repr, Inhabited

/-- The snapshot that PHASE takes (R368). -/
structure Snapshot where
  s     : Tab W64
  h     : Tab W256
  q     : BitVec 8
  loop  : Option LoopSt
  lc    : W64
  rb    : BitVec 4
  ret   : List W64
  rss   : W32
  cells : List Cell
deriving DecidableEq, Repr, Inhabited

/-- A register that a result goes to: a vector register by its physical number. -/
inductive Dest where
  | s (r : SReg)
  | h (r : HReg)
  | v (n : Nat)
  | k (r : KReg)
deriving DecidableEq, Repr, Inhabited

/-- A resident context slot (R17, R23). -/
structure Slot where
  s     : Tab W64 := []
  h     : Tab W256 := []
  q     : BitVec 8 := 1
  v     : Tab Lanes := []
  k     : Tab Mask := []
  t     : Tab TileReg := []
  a     : Tab Acc := []
  ml    : Tab W32 := []
  lc    : W64 := 0
  rb    : BitVec 4 := 0
  mstat : BitVec 6 := 0
  budg  : W32 := 0
  finfo : Tab W64 := []
  /-- The return stack, newest entry first (RSN is its length), and RSS (R82). -/
  ret   : List W64 := []
  rss   : W32 := 0
  loop  : Option LoopSt := none
  pc    : W64 := 0
  /-- The group being issued: address of its instruction word, address after it, its words. -/
  ipc   : W64 := 0
  npc   : W64 := 0
  gwords : List W64 := []
  task  : Option Task := none
  st    : SlotSt := .free
  hold  : Hold := .none
  accs  : List Access := []
  mq    : List Cmd := []
  cq    : List Cmd := []
  queries : List Query := []
  /-- The open phase: the address of its PHASE, its snapshot, and its cancellations (R368–R371). -/
  phase : Option (W64 × Snapshot) := none
  canc  : Nat := 0
  restoring : Bool := false
  /-- A pre-emption kept pending while the context stops for something that goes first (R353). -/
  pendPreempt : Bool := false
  /-- FHOLD has expired: the held context is to be moved out (R357). -/
  moveDue : Bool := false
  /-- The shadow of the last save is still being written out (R363). -/
  writeOut  : Bool := false
  /-- Running cycles since the slot last started running, and held cycles since it faulted (R302, R357). -/
  ran     : Nat := 0
  waited  : Nat := 0
  /-- The stall count of R114. -/
  stall   : Nat := 0
  /-- The image that a restore reads: it is freed when the restore completes (R363). -/
  source  : Option W64 := none
  /-- Results still on their way: each with the cycle of the tile from which a word can name its register (R135, R150). -/
  due     : List (Dest × Nat) := []
  /-- The cycle of the tile from which the next vector instruction can issue (R150). -/
  vfree   : Nat := 0
deriving DecidableEq, Repr, Inhabited

/-- Who waits on a cell (R92). -/
inductive Who where
  | core (slot : Nat)
  | matrix (slot : Nat)
  | copy (slot : Nat)
  | remote (id : Nat)
deriving DecidableEq, Repr, Inhabited

/-- What a waiter needs (R91, R95). -/
inductive Need where
  | test (t : Test) (v : W32)
  | take (v : W32)
  | eng (wa : W32)
deriving DecidableEq, Repr, Inhabited

/-- A pending waiter of a tile's cell; `since` is the tile's cycle in which it began to wait. -/
structure Waiter where
  who   : Who
  cell  : Nat
  need  : Need
  since : Nat
  /-- A limit of zero, or TRYTAKE: evaluated once (R94). -/
  once  : Bool := false
deriving DecidableEq, Repr, Inhabited

/-- TSLOT of a tile (R301). -/
structure TSlot where
  pa : PartNo := 0
  va : Bool := false
  pb : PartNo := 0
  vb : Bool := false
deriving DecidableEq, Repr, Inhabited

/-- A tile (R15, R16, R23). -/
structure Tile where
  a       : Slot := {}
  b       : Slot := {}
  /-- The running slot: false A, true B; `idle` when neither runs. -/
  runB    : Bool := false
  idle    : Bool := false
  cells   : Tab Cell := []
  waiters : List Waiter := []
  cyc     : Nat := 0
  tslot   : TSlot := {}
deriving DecidableEq, Repr, Inhabited

/-! ### Messages between tiles -/

/-- Where a remote cell operation stands (R93, R94). -/
inductive RemoteSt where
  | sent
  | pending
  | replied (fault : Option FaultName) (value : W64) (detail : W64)
deriving DecidableEq, Repr, Inhabited

/-- A remote cell operation: the issuing tile and slot, the cell, and whether a cancel follows it; the address at a peer that
resolves it, or the peer's request that asks for it. -/
structure Remote where
  id     : Nat
  tile   : Nat
  slot   : Nat
  part   : PartNo
  target : Nat
  cell   : Nat
  op     : CellOp
  once   : Bool
  st     : RemoteSt
  cancel : Bool
  peer   : Option W64 := none
  origin : Option PeerReq := none
deriving DecidableEq, Repr, Inhabited

/-! ### Dispatch -/

/-- How a record arrives (R68, R69); a PUTC carries the landing command, a SPAWN its tile and slot. -/
inductive Via where
  | head (tile : Nat)
  | tail
  | join
  | spawn (tile slot : Nat) (sd : SReg)
  | spawnb (tile slot : Nat) (sd : SReg)
  | putc (tile slot num : Nat)
  | peer
deriving DecidableEq, Repr, Inhabited

/-- A record on its way into a level ring. -/
structure Arrival where
  via   : Via
  part  : PartNo
  die   : Nat
  crec  : W512
  /-- The reservation it uses, as the address it was registered under (R68). -/
  addr  : W64
deriving DecidableEq, Repr, Inhabited

/-- A record in a level ring (R71, R72): the next instance, and the cluster its current group is bound to. -/
structure RingRec where
  crec : W512
  next : Nat
  bind : Option (Nat × Nat)
deriving DecidableEq, Repr, Inhabited

/-- A level ring and its submission ring (R67). -/
structure Ring where
  recs   : List RingRec := []
  sqHead : Nat := 0
  sqTail : Nat := 0
  held   : List Arrival := []
deriving DecidableEq, Repr, Inhabited

/-- A parked continuation (R99): the physical key of its record, and its virtual address. -/
structure Parked where
  key  : Nat
  addr : W64
  part : PartNo
  die  : Nat
  level : Nat
deriving DecidableEq, Repr, Inhabited

/-- A saved context (R363–R365): its entry, the slot's state, the cells below the limit and the saved scratchpad bytes, and
whether it holds a move-out reservation. -/
structure Saved where
  addr  : W64
  part  : PartNo
  die   : Nat
  level : Nat
  slot  : Slot
  cells : List Cell
  bytes : List Host.Cell
  moved : Bool
  used  : Bool
deriving DecidableEq, Repr, Inhabited

/-! ### Faults and partitions -/

/-- Which context waits on a fault record. -/
inductive Ctx where
  | none
  | slot (tile slot : Nat)
  | saved (addr : W64)
deriving DecidableEq, Repr, Inhabited

/-- A fault record (R355); `raw` is the record as read for source 5, `wid` the WID or the first instance not dispatched. -/
structure FRec where
  info  : FaultInfo
  part  : PartNo
  die   : Nat
  tile  : Nat
  slotB : Bool
  inf   : Bool
  wid   : W64
  raw   : W512
  ctx   : Ctx
deriving DecidableEq, Repr, Inhabited

/-- An entry of the fault queue: its address, popped and answered marks, the record. -/
structure FEntry where
  addr     : W64
  frec     : FRec
  popped   : Bool
  answered : Bool
deriving DecidableEq, Repr, Inhabited

/-- An entry of the region table (R58, R248): cell's tile and number, base and size. -/
structure RegionEntry where
  tile : Nat
  cell : Nat
  base : W64
  size : W64
deriving DecidableEq, Repr, Inhabited

/-- A partition (R299, R300, R354, R385–R388, R392). -/
structure Part where
  en      : Bool := false
  prot    : Bool := false
  clrBusy : Bool := false
  seq     : BitVec 24 := 0
  recs    : List FRec := []
  fq      : List FEntry := []
  fqTail  : Nat := 0
  fqHead  : Nat := 0
  fqHres  : W64 := BitVec.allOnes 64
  fqStuck : Bool := false
  dauth   : W32 := 0
  /-- The drawer keys K1–K3 in force: the number of the free key K1 (R315, R331). -/
  keys    : Option Nat := none
  keysDue : Bool := false
  regions : List RegionEntry := []
  rtBusy  : Bool := false
  herrAddr : W64 := 0
  tdisp   : Tdisp := .unlocked
  /-- MSI-X vectors raised, newest first (R354, R387). -/
  msi     : List Nat := []
  /-- What the host's reads returned, newest first: none is Unsupported Request (R387). -/
  reads   : List (Option W64) := []
deriving DecidableEq, Repr, Inhabited

/-! ### Translation -/

/-- An entry of a translation unit (R310): a page of one partition. -/
structure Tlb where
  part   : PartNo
  base   : Nat
  size   : Nat
  pa     : Nat
  locked : Bool
deriving DecidableEq, Repr, Inhabited

/-- A locked range of a partition at a home (R268–R270). -/
structure LockRange where
  home : Nat
  part : PartNo
  base : Nat
  len  : Nat
deriving DecidableEq, Repr, Inhabited

/-- A translation unit: entries, most recently used first. -/
structure XUnit where
  tlb   : List Tlb := []
  /-- The access number that an invalidation drains to (R311). -/
  drain : Option Nat := none
deriving DecidableEq, Repr, Inhabited

/-! ### Sward and the weight tier -/

/-- An open Sward context (R203). -/
structure SwCtx where
  part    : PartNo
  quota   : Nat
  base    : Nat
  stop    : Nat
  win     : List (BitVec 24)
  serial  : W32
  closing : Bool := false
deriving DecidableEq, Repr, Inhabited

/-- An accepted Sward operation (R209), with its place: tile, slot, task number and partition of its issuer; the serial it
takes, the query that SWPOP takes; a signal still due, a fault not yet raised, and whether the fault was raised and awaits
its answer. -/
structure SwOp where
  id    : Nat
  tile  : Nat
  slot  : Nat
  task  : Nat
  part  : PartNo
  offer : Offer
  serial : W32 := 0
  qop   : Option Nat := none
  sigdue : Bool := false
  fpend  : Option FaultInfo := none
  raised : Bool := false
deriving DecidableEq, Repr, Inhabited

/-- A weight-engine command (R323) accepted from a core, whether it is being performed, whether its partition was cleared
meanwhile, and the model key that WPROGS took when it began. -/
structure WCmd where
  id      : Nat
  tile    : Nat
  slot    : Nat
  task    : Nat
  part    : PartNo
  offer   : Offer
  key     : W256 := 0
  started : Bool := false
  aborted : Bool := false
deriving DecidableEq, Repr, Inhabited

/-- A compute die's shared units. -/
structure Die where
  sw      : Tab SwCtx := []
  swLast  : Nat := 191
  swOps   : List SwOp := []
  wq      : List WCmd := []
  wLast   : Nat := 191
  govGap  : BitVec 6 := 0
  tjMax   : Byte := 0
deriving DecidableEq, Repr, Inhabited

/-- The states of a weight region (R237). -/
inductive RegSt where
  | free | programming | opened | locked
deriving DecidableEq, Repr, Inhabited

/-- A weight region (R318, R321, R324, R334): `remap` gives the spare of a remapped line, `wear` counts lines by number and
spares from 16,384 on, `bad` lists the poisoned lines, `differs` says that a start-up measurement differed. -/
structure Region where
  st      : RegSt := .free
  sealed  : Bool := false
  v       : Bool := false
  part    : PartNo := 0
  digest  : Option (BitVec 384) := none
  model   : W256 := 0
  result  : BitVec 3 := 0
  spares  : Nat := 492
  remap   : Tab Nat := []
  wear    : Tab Nat := []
  bad     : List Nat := []
  differs : Bool := false
deriving DecidableEq, Repr, Inhabited

/-! ### Drawer links, keys, firmware, ports -/

/-- Bytes of a drawer block that a request reads or writes: the element of its access, the offset, the physical address, their
number, the value written. -/
structure LinkItem where
  elem : Nat
  off  : Nat
  pa   : Nat
  n    : Nat
  v    : Nat
deriving DecidableEq, Repr, Inhabited

/-- A request in a link's queue (R109, R110): the access that it serves, its block, and the slot that it took; a partly written
block (`merge`) is read first. -/
structure LinkReq where
  tile  : Nat
  slot  : Nat
  part  : PartNo
  acc   : Nat
  block : Nat
  items : List LinkItem
  write : Bool
  merge : Bool
  sent  : Option Nat := none
deriving DecidableEq, Repr, Inhabited

/-- A drawer link (R103–R115). -/
structure Link where
  active  : Tab (BitVec 16) := []
  pending : Option (Tab (BitVec 16)) := none
  st      : BitVec 2 := 3
  gen     : BitVec 16 := 0
  delta   : BitVec 10 := 0
  slot    : Nat := 0
  queue   : List LinkReq := []
  /-- A replay begins at the next frame boundary (R113). -/
  replay  : Bool := false
deriving DecidableEq, Repr, Inhabited

/-- A key slot (R329), and the session that filled it (R330). -/
structure KeySlot where
  kind : BitVec 2 := 0
  part : PartNo := 0
  key  : W256 := 0
  openStream : W32 := 0
  sealStream : W32 := 0
  ctro : W64 := 0
  ctrs : W64 := 0
  tag  : Option (List Byte) := none
  loader : Option Nat := none
deriving DecidableEq, Repr, Inhabited

/-- An SPDM session with the security core (R330, R334, R337, R393). -/
structure Session where
  peer     : Option (BitVec 6) := none
  measured : Bool := false
deriving DecidableEq, Repr, Inhabited

/-- The states of FWSTAT (R375). -/
inductive FwSt where
  | idle | verified | rejected | handover | serving | healthy | reverted
deriving DecidableEq, Repr, Inhabited

/-- Firmware of an embedded controller (R374, R375). -/
structure Fw where
  active  : Byte := 0
  standby : Byte := 0
  busy    : Bool := false
  st      : FwSt := .idle
deriving DecidableEq, Repr, Inhabited

/-- An entry of the tables that this package holds as a peer (R235): offsets of an issuing partition from `lo` on, of a number
of bytes, lie at an address of a home of this package, as the receiving partition's. -/
structure PeerMap where
  issuer : PartNo
  lo     : Nat
  size   : Nat
  base   : W64
  part   : PartNo
deriving DecidableEq, Repr, Inhabited

/-- A Vonyx port (R393). -/
structure Port where
  down    : Bool := false
  replays : Nat := 0
  keyed   : Bool := false
deriving DecidableEq, Repr, Inhabited

/-! ### What an outside agent does, and moves -/

/-- Acts of the world outside the package that no event of the opcode table names. -/
inductive Outside where
  /-- The host writes a byte of its own memory. -/
  | hostByte (addr : Nat) (b : Byte)
  /-- A byte of physical storage becomes uncorrectable, or is repaired. -/
  | poison (key : Nat) (on : Bool)
  /-- A disturbance changes an element of an accumulator (R188). -/
  | upset (tile slot acc elem : Nat) (v : W32)
  /-- A peer answers a remote cell operation that it resolves: a fault or a value, and the fault's detail. -/
  | peerCell (i : Nat) (fault : Option FaultName) (value detail : W64)
  /-- System software sets the tables of R235. -/
  | peerTables (l : List PeerMap)
  /-- A peer's words, for the next reads that this package makes of it. -/
  | peerWords (ws : List W64)
  /-- A standby firmware image is staged (R374). -/
  | stage (c : Controller) (version : Byte)
deriving DecidableEq, Repr, Inhabited

/-- A request to an embedded controller (R374): what it does is the event of the same name. -/
inductive Request where
  | kerase (v : W64)
  | keyLoad (session slot : Nat) (kind : BitVec 2) (p : PartNo) (key : W256) (openLevel sealLevel : W32)
  | keyErase (session slot : Nat)
  | unsealModel (session : Nat) (waddr : BitVec 40) (p : PartNo) (model : W256) (digest : BitVec 384)
  | getMeasurements (session : Nat) (index : Byte)
  | getManifest (session : Nat)
  | spdmKeyExchange (session : Nat) (peer : Option (BitVec 6)) (establish : Bool)
  | fwVerify (c : Controller) (version : Byte) (signed : Bool)
  | pwrshareWrite (die : BitVec 2) (v : W64)
  | swcmt (link : Nat) (v : W64)
deriving DecidableEq, Repr, Inhabited

/-- One move of the machine: a core issues, an event happens, a request that was held is served, cycles pass on a tile, or the
outside acts. -/
inductive Move where
  | core (tile : Nat)
  | ev (i : Instr)
  | held (r : Request)
  | pass (tile cycles : Nat)
  | outside (o : Outside)
deriving DecidableEq, Repr, Inhabited

/-- The whole machine. -/
structure State where
  /-- Moves still to come; when none is listed, Machine/Schedule.lean says which comes next. -/
  agenda  : List Move := []
  /-- The tile whose core is issuing. -/
  cur     : Nat := 0
  /-- Counter of free values and of numbers given to accesses, commands and tasks (the model's own). -/
  fresh   : Nat := 0
  nextNum : Nat := 0
  powered : Bool := true
  /-- DEVSTAT (R395). -/
  devstat : BitVec 3 := 0
  tiles   : Tab Tile := []
  /-- The one memory: bytes that are not zero, by rising key. -/
  mem     : List Host.Cell := []
  poisoned : List Nat := []
  /-- Tags of protected drawer blocks, by block (R315). -/
  dtags   : Tab (BitVec 128) := []
  inbox   : List W64 := []
  cfg     : List (CfgReg × W64) := []
  pwins   : Tab W64 := []
  parts   : Tab Part := []
  rings   : Tab Ring := []
  arrivals : List Arrival := []
  parked  : List Parked := []
  saved   : List Saved := []
  dies    : Tab Die := []
  regions : Tab Region := []
  links   : Tab Link := []
  units   : Tab XUnit := []
  locks   : List LockRange := []
  remotes : List Remote := []
  keys    : Tab KeySlot := []
  sessions : Tab Session := []
  /-- ARBCTR0–4: levels of A and B. -/
  arb     : Tab (Byte × Byte) := []
  lmsLeaf : Nat := 0
  fw      : List (Controller × Fw) := []
  /-- Requests held in hardware for controllers between two images, in the order of arrival (R376). -/
  heldReqs : List (Controller × Request) := []
  ports   : Tab Port := []
  /-- The tables that this package holds as a peer (R235). -/
  peerMap : List PeerMap := []
  /-- Requests forwarded to another package, with the port, and those refused (R394). -/
  forwarded : List (Nat × PeerReq) := []
  refused   : List PeerReq := []
  /-- What peers' requests returned, newest first. -/
  peerReplies : List (PeerReq × Option FaultName × W256) := []
  /-- Responses of the security core, newest first. -/
  responses : List (Nat × List Byte) := []
deriving DecidableEq, Repr, Inhabited

/-- The machine right after power-on reset (R8, R23): every field as its structure gives it. -/
def State.reset : State := {}

end Sys2Proof.Machine
end

