-- ==== Sys2Proof/Machine/Ops.lean ====
section
/-! DEFINITION. Named operations on the state: tables, memory, registers, time, cells and their waiters, the end of a group,
and taking a fault (R16, R23, R74, R84, R88–R96, R351–R357). -/

namespace Sys2Proof

/-- Operations that may wait at their cell (R91, R94). -/
def CellOp.waits : CellOp → Bool
  | .wait _ _ => true
  | .take _ => true
  | .tryTake _ => true
  | _ => false

end Sys2Proof

namespace Sys2Proof.Machine

/-! ### Tables -/

def tget (d : α) : Tab α → Nat → α
  | [], _ => d
  | (j, x) :: r, k => if j = k then x else tget d r k

/-- The entry of k replaced, or added in rising order of keys. -/
def tput : Tab α → Nat → α → Tab α
  | [], k, x => [(k, x)]
  | (j, y) :: r, k, x =>
    if k = j then (k, x) :: r
    else if k < j then (k, x) :: (j, y) :: r
    else (j, y) :: tput r k x

/-! ### Memory: bytes by physical key; an unlisted key reads 0 -/

def memGet : List Host.Cell → Nat → Byte
  | [], _ => 0
  | (a, b) :: r, k => if a = k then b else memGet r k

def memPut : List Host.Cell → Nat → Byte → List Host.Cell
  | [], k, x => if x = 0 then [] else [(k, x)]
  | (a, b) :: r, k, x =>
    if k < a then (if x = 0 then (a, b) :: r else (k, x) :: (a, b) :: r)
    else if k = a then (if x = 0 then r else (k, x) :: r)
    else (a, b) :: memPut r k x

/-- The canonical form: keys strictly rising, no byte of zero listed. -/
def Memory.wf : List Host.Cell → Bool
  | [] => true
  | [(_, b)] => b != 0
  | (a, b) :: (c, d) :: r => b != 0 && decide (a < c) && Memory.wf ((c, d) :: r)

/-- n bytes from key k, little-endian (R6). -/
def memRead (m : List Host.Cell) (k : Nat) : Nat → Nat
  | 0 => 0
  | n + 1 => (memGet m k).toNat + 256 * memRead m (k + 1) n

/-- The n low bytes of v to keys k onward, little-endian (R6). -/
def memWrite (m : List Host.Cell) (k : Nat) : Nat → Nat → List Host.Cell
  | 0, _ => m
  | n + 1, v => memWrite (memPut m k (BitVec.ofNat 8 v)) (k + 1) n (v / 256)

def memBytes (m : List Host.Cell) (k n : Nat) : List Byte := (List.range n).map fun i => memGet m (k + i)

def memPutBytes (m : List Host.Cell) (k : Nat) : List Byte → List Host.Cell
  | [] => m
  | b :: r => memPutBytes (memPut m k b) (k + 1) r

/-- Bytes lo to hi − 1 become zero. -/
def memClear (m : List Host.Cell) (lo hi : Nat) : List Host.Cell := m.filter fun c => !(decide (lo ≤ c.1) && decide (c.1 < hi))

/-- The physical key of an offset of a home (R230); weight space lies above every home (R236). -/
def homeKey (home off : Nat) : Nat := home * 2 ^ 57 + off
def weightKey (w : Nat) : Nat := 2 ^ 64 + w

/-! ### Tiles and slots -/

def dieOf (t : Nat) : Nat := t / 48
def localOf (t : Nat) : Nat := t % 48
/-- The home of a tile's die (R13). -/
def homeOf (t : Nat) : Nat := 1 + dieOf t

/-- Offset of a slot's half in its die's scratchpad window (R232). -/
def halfOff (t b : Nat) : Nat := 0x10000000 + localOf t * 0x800000 + b * 0x400000
def halfKey (t b : Nat) : Nat := homeKey (homeOf t) (halfOff t b)

def Tile.slot (x : Tile) (b : Nat) : Slot := if b = 0 then x.a else x.b
def Tile.putSlot (x : Tile) (b : Nat) (y : Slot) : Tile := if b = 0 then { x with a := y } else { x with b := y }
def Tile.run (x : Tile) : Nat := if x.runB then 1 else 0

def State.tile (s : State) (t : Nat) : Tile := tget {} s.tiles t
def State.putTile (s : State) (t : Nat) (x : Tile) : State := { s with tiles := tput s.tiles t x }
def State.modTile (s : State) (t : Nat) (f : Tile → Tile) : State := s.putTile t (f (s.tile t))
def State.slot (s : State) (t b : Nat) : Slot := (s.tile t).slot b
def State.modSlot (s : State) (t b : Nat) (f : Slot → Slot) : State := s.modTile t fun x => x.putSlot b (f (x.slot b))

/-- The running slot of a tile, by number: 0 A, 1 B (R17). -/
def State.run (s : State) (t : Nat) : Nat := (s.tile t).run
/-- The slot whose core is issuing. -/
def State.core (s : State) : Slot := s.slot s.cur (s.run s.cur)
def State.modCore (s : State) (f : Slot → Slot) : State := s.modSlot s.cur (s.run s.cur) f

def State.part (s : State) (p : PartNo) : Part := tget {} s.parts p.toNat
def State.modPart (s : State) (p : PartNo) (f : Part → Part) : State :=
  { s with parts := tput s.parts p.toNat (f (s.part p)) }
def State.die (s : State) (d : Nat) : Die := tget {} s.dies d
def State.modDie (s : State) (d : Nat) (f : Die → Die) : State := { s with dies := tput s.dies d (f (s.die d)) }
def State.region (s : State) (k : Nat) : Region := tget {} s.regions k
def State.modRegion (s : State) (k : Nat) (f : Region → Region) : State :=
  { s with regions := tput s.regions k (f (s.region k)) }
def State.link (s : State) (l : Nat) : Link := tget {} s.links l
def State.modLink (s : State) (l : Nat) (f : Link → Link) : State := { s with links := tput s.links l (f (s.link l)) }
def State.unit (s : State) (u : Nat) : XUnit := tget {} s.units u
def State.modUnit (s : State) (u : Nat) (f : XUnit → XUnit) : State := { s with units := tput s.units u (f (s.unit u)) }

def ringNo (d : Nat) (p : PartNo) (l : Nat) : Nat := d * 128 + p.toNat * 8 + l
def State.ring (s : State) (d : Nat) (p : PartNo) (l : Nat) : Ring := tget {} s.rings (ringNo d p l)
def State.modRing (s : State) (d : Nat) (p : PartNo) (l : Nat) (f : Ring → Ring) : State :=
  { s with rings := tput s.rings (ringNo d p l) (f (s.ring d p l)) }

/-- A free value of the next number (notes/assumptions/2). -/
def State.freeWord (s : State) : W64 × State := (Config.freeWord s.fresh, { s with fresh := s.fresh + 1 })

/-- A number that no earlier access, command or task has. -/
def State.newNum (s : State) : Nat × State := (s.nextNum, { s with nextNum := s.nextNum + 1 })

/-! ### Configuration registers (R8, R67, R106, R354, R357, R396) -/

/-- The reset value of a configuration register. -/
def cfgReset : CfgReg → W64
  | .lqsize _ _ _ => 8
  | .sqsize _ _ _ => 8
  | .fqsize _ => 6
  | .drstall _ => 0x00040000
  | .pwrshare _ => 640
  | _ => 0

def cfgFind : List (CfgReg × W64) → CfgReg → Option W64
  | [], _ => none
  | (q, v) :: r, k => if q = k then some v else cfgFind r k

def cfgPut : List (CfgReg × W64) → CfgReg → W64 → List (CfgReg × W64)
  | [], k, v => [(k, v)]
  | (q, w) :: r, k, v => if q = k then (k, v) :: r else (q, w) :: cfgPut r k v

def State.reg (s : State) (r : CfgReg) : W64 := (cfgFind s.cfg r).getD (cfgReset r)
def State.putReg (s : State) (r : CfgReg) (v : W64) : State := { s with cfg := cfgPut s.cfg r v }
/-- Status bits set by the machine. -/
def State.orReg (s : State) (r : CfgReg) (v : W64) : State := s.putReg r (s.reg r ||| v)

/-! ### Embedded controllers (R374–R376) -/

def fwFind : List (Controller × Fw) → Controller → Fw
  | [], _ => {}
  | (d, f) :: r, c => if d = c then f else fwFind r c

def State.firmware (s : State) (c : Controller) : Fw := fwFind s.fw c

/-- The start-up step that starts a controller (R395). -/
def startStep : Controller → Nat
  | .security => 1
  | .management => 2
  | _ => 3

/-- A controller serves requests: it has been started (R395), and is not between two images (R376). -/
def State.serves (s : State) (c : Controller) : Bool :=
  decide (startStep c ≤ s.devstat.toNat) && (s.firmware c).st != .handover

/-- A request reaches a controller that does not serve: between two images, it is held in hardware (R376). -/
def State.holdRequest (s : State) (c : Controller) (r : Request) : State :=
  if (s.firmware c).st = .handover then { s with heldReqs := s.heldReqs ++ [(c, r)] } else s

/-- The requests held for a controller are served next, in the order of arrival (R376). -/
def State.serveHeld (s : State) (c : Controller) : State :=
  { s with
    agenda := (s.heldReqs.filter fun (x : Controller × Request) => x.1 == c).map (fun x => .held x.2) ++ s.agenda
    heldReqs := s.heldReqs.filter fun (x : Controller × Request) => x.1 != c }

/-! ### Registers of a slot (R23, R85) -/

/-- s0 reads zero. -/
def Slot.getS (x : Slot) (r : SReg) : W64 := if r = 0 then 0 else tget 0 x.s r.toNat
/-- A write to s0 is discarded. -/
def Slot.setS (x : Slot) (r : SReg) (v : W64) : Slot := if r = 0 then x else { x with s := tput x.s r.toNat v }
def Slot.getH (x : Slot) (r : HReg) : W256 := tget 0 x.h r.toNat
def Slot.setH (x : Slot) (r : HReg) (v : W256) : Slot := { x with h := tput x.h r.toNat v }
/-- q0 reads true. -/
def Slot.getQ (x : Slot) (r : QReg) : Bool := if r = 0 then true else x.q.getLsbD r.toNat
def Slot.setQ (x : Slot) (r : QReg) (b : Bool) : Slot :=
  if r = 0 then x
  else { x with q := (x.q &&& ~~~((1 : BitVec 8) <<< r.toNat)) ||| ((if b then 1 else 0 : BitVec 8) <<< r.toNat) }
/-- v16–v31 rotate under RB (R85). -/
def Slot.phys (x : Slot) (r : VReg) : Nat :=
  if r.toNat < 16 then r.toNat else 16 + (r.toNat + x.rb.toNat) % 16
def Slot.getV (x : Slot) (r : VReg) : Lanes := tget [] x.v (x.phys r)
def Slot.setV (x : Slot) (r : VReg) (l : Lanes) : Slot := { x with v := tput x.v (x.phys r) l }
/-- k0 reads all ones and discards writes. -/
def Slot.getK (x : Slot) (r : KReg) : Mask := if r = 0 then allOnes else tget 0 x.k r.toNat
def Slot.setK (x : Slot) (r : KReg) (m : Mask) : Slot := if r = 0 then x else { x with k := tput x.k r.toNat m }
def Slot.getT (x : Slot) (r : TReg) : TileReg := tget {} x.t r.toNat
def Slot.setT (x : Slot) (r : TReg) (y : TileReg) : Slot := { x with t := tput x.t r.toNat y }
def Slot.getA (x : Slot) (r : AReg) : Acc := tget {} x.a r.toNat
def Slot.setA (x : Slot) (r : AReg) (y : Acc) : Slot := { x with a := tput x.a r.toNat y }
def Slot.getMl (x : Slot) (i : Nat) : W32 := tget 0 x.ml i
def Slot.setMl (x : Slot) (i : Nat) (v : W32) : Slot := { x with ml := tput x.ml i v }
/-- The stack pointer, s63. -/
def spReg : SReg := 63

/-! ### The launch header in force (R63) -/

def hdr (h : W512) (byte lo n : Nat) : Nat := (h.extractLsb' (8 * byte + lo) n).toNat
def hdrBudget (h : W512) : W32 := h.extractLsb' 192 32
def hdrScalars (h : W512) : Nat := hdr h 8 0 7
def hdrHandles (h : W512) : Nat := hdr h 8 8 6
def hdrVectors (h : W512) : Nat := hdr h 8 16 6
def hdrTiles (h : W512) : Nat := hdr h 8 24 5
def hdrAccs (h : W512) : BitVec 4 := h.extractLsb' 96 4
def hdrCells (h : W512) : Nat := hdr h 8 40 12
def hdrSpad (h : W512) : Nat := hdr h 16 0 32
def hdrStack (h : W512) : Nat := hdr h 16 32 32
def hdrCeiling (h : W512) : Nat := hdr h 24 32 3
def hdrCluster (h : W512) : Nat := hdr h 24 36 3
def hdrFields (h : W512) : Nat := hdr h 0 48 3
/-- Width of WID field f. -/
def hdrWidth (h : W512) (f : Nat) : Nat := hdr h 0 (8 * f) 8

def Slot.header (x : Slot) : W512 := match x.task with
  | some k => k.header
  | none => 0
def Slot.part (x : Slot) : PartNo := match x.task with
  | some k => k.part
  | none => 0

/-! ### Fault codes (R350) -/

def faultCode : FaultName → BitVec 12
  | .progIllegal => 0x001
  | .progPfx => 0x002
  | .progResource => 0x003
  | .progAlign => 0x004
  | .progAddr => 0x005
  | .progBounds => 0x006
  | .progStack => 0x007
  | .progLoop => 0x008
  | .progCeil => 0x009
  | .progCellcfg => 0x00A
  | .progCellmode => 0x00B
  | .progJoin => 0x00C
  | .progRecord => 0x00D
  | .progTbusy => 0x00E
  | .progTshape => 0x00F
  | .progMeta => 0x010
  | .progLockmiss => 0x011
  | .progCarg => 0x012
  | .progSwctx => 0x013
  | .progSwarg => 0x014
  | .progSwq => 0x015
  | .progSwimg => 0x016
  | .progWarg => 0x017
  | .progWregion => 0x018
  | .progBreak => 0x019
  | .progFans => 0x01A
  | .xlatMiss => 0x101
  | .isoWindow => 0x201
  | .isoPeer => 0x202
  | .hwPoison => 0x301
  | .hwCrc => 0x302
  | .hwAbft => 0x303
  | .linkStall => 0x401
  | .linkDown => 0x402

/-- FINFO0–FINFO3 of a fault (R356). -/
def FaultInfo.word0 (f : FaultInfo) : W64 :=
  ((faultCode f.name).setWidth 64 <<< 52) ||| (BitVec.ofNat 64 (f.src % 16) <<< 48)

def Slot.setFinfo (x : Slot) (f : FaultInfo) : Slot := { x with finfo := [(0, f.word0), (1, f.addr), (2, f.detail), (3, f.prog)] }

/-! ### Taking a fault (R351–R353, R356, R370) -/

/-- Errors whose consumption in an open phase cancels it (R370). -/
def cancelsPhase : FaultName → Bool
  | .hwPoison => true
  | .hwAbft => true
  | _ => false

/-- The stop that a fault causes: a cancellation of the open phase, unless it has been cancelled three times (R370, R371). -/
def Slot.stopFor (x : Slot) (f : FaultInfo) : Stop :=
  if cancelsPhase f.name && decide (f.src < 3) && x.phase.isSome && decide (x.canc < 3) then .cancel f else .fault f

/-- A stop that begins: a fault goes before everything but a clearing, and keeps a pre-emption pending (R353). -/
def Slot.beginStop (x : Slot) (w : Stop) : Slot :=
  match x.st, w with
  | .busy, _ => { x with st := .stopping w }
  | .stopping .preempt, .fault _ => { x with st := .stopping w, pendPreempt := true }
  | .stopping .preempt, .cancel _ => { x with st := .stopping w, pendPreempt := true }
  | .stopping (.cancel _), .fault _ => { x with st := .stopping w }
  | .stopping .budget, .fault _ => { x with st := .stopping w }
  | .stopping .budget, .cancel _ => { x with st := .stopping w }
  | .stopping .yield, .fault _ => { x with st := .stopping w }
  | .stopping .yield, .cancel _ => { x with st := .stopping w }
  | .stopping .budget, .preempt => { x with st := .stopping w }
  | .stopping .yield, .preempt => { x with st := .stopping w }
  | .stopping .yield, .budget => { x with st := .stopping w }
  | .stopping .switch, _ => { x with st := .stopping w }
  | .stopping (.fault _), .preempt => { x with pendPreempt := true }
  | .stopping (.cancel _), .preempt => { x with pendPreempt := true }
  | .stopping _, .clear => { x with st := .stopping w }
  | _, _ => x

/-- The context already stops for a fault, a cancellation or a clearing: another fault waits until it runs again (R352). -/
def Slot.stopsForGood (x : Slot) : Bool :=
  match x.st with
  | .stopping (.fault _) => true
  | .stopping (.cancel _) => true
  | .stopping .clear => true
  | _ => false

/-- FINFO0–FINFO3 hold a fault's details, and the context stops. -/
def Slot.faults (x : Slot) (f : FaultInfo) : Slot :=
  if x.stopsForGood then x else (x.setFinfo f).beginStop (x.stopFor f)

/-- Taking a fault of the core: it is held on nothing any more. -/
def Slot.takeFault (x : Slot) (f : FaultInfo) : Slot := { x with hold := .none }.faults f

/-- The fault of the group being issued: it names the group's instruction word and words, and resumes at its first
word (R46, R351). -/
def Slot.coreFault (x : Slot) (n : FaultName) (addr detail : W64) : FaultInfo :=
  { name := n, src := 0, addr := addr, detail := detail, ip := x.ipc, words := x.gwords, resume := x.pc }

def Slot.trap (x : Slot) (n : FaultName) (addr detail : W64) : Slot := x.takeFault (x.coreFault n addr detail)

/-! ### The end of a group (R84, R86) -/

/-- First word of a captured body. -/
def LoopSt.start (l : LoopSt) : W64 := l.after - BitVec.ofNat 64 (8 * l.words.length)

/-- {q7, …, q2} = {q6, …, q1}; q1 = b (R84). -/
def shiftQ (q : BitVec 8) (b : Bool) : BitVec 8 := ((q &&& 0x7E) <<< 1) ||| (if b then 3 else 1)

/-- The end-of-iteration step of R84. -/
def Slot.endIteration (x : Slot) (l : LoopSt) : Slot :=
  let lc := if x.lc = 0 then 0 else x.lc - 1
  let x := { x with
    lc := lc
    rb := if l.piped then x.rb - 1 else x.rb
    q := if l.piped then shiftQ x.q (decide (l.epi < lc.toNat)) else x.q }
  if lc = 0 then { x with loop := none, pc := l.after } else { x with pc := l.start }

/-- The core goes on after its group: to the next address, or through the end of an iteration. -/
def Slot.advance (x : Slot) : Slot :=
  match x.loop with
  | some l => if x.npc = l.after then x.endIteration l else { x with pc := x.npc }
  | none => { x with pc := x.npc }

/-- The core is released and goes on. -/
def Slot.release (x : Slot) : Slot := { x with hold := .none }.advance

/-! ### Cells (R88–R91, R95) -/

def State.cell (s : State) (t c : Nat) : Cell := tget {} (s.tile t).cells c
def State.putCell (s : State) (t c : Nat) (x : Cell) : State := s.modTile t fun y => { y with cells := tput y.cells c x }

def Cell.ownedBy (x : Cell) (p : PartNo) : Bool := x.v && x.part == p

/-- {ceiling, count}: the detail of a cell fault (R356). -/
def Cell.detail (x : Cell) : W64 := (x.ceil.setWidth 64 <<< 32) ||| x.count.setWidth 64

/-- The word that CRD returns (R89). -/
def Cell.word (x : Cell) : W64 :=
  (x.mode.setWidth 64 <<< 33) ||| ((if x.phase then 1 else 0 : W64) <<< 32) ||| x.count.setWidth 64

/-- SIG of V (R90); V of 0 changes nothing. -/
def Cell.sig (x : Cell) (v : W32) : Except FaultName Cell :=
  if v = 0 then .ok x
  else if x.mode = 1 then
    if v &&& ~~~x.ceil ≠ 0 then .error .progCeil else .ok { x with count := x.count ||| v }
  else if x.mode = 2 then
    if x.count.toNat + v.toNat > x.a.toNat then .error .progCeil
    else if x.count.toNat + v.toNat = x.a.toNat then .ok { x with count := 0, phase := !x.phase }
    else .ok { x with count := x.count + v }
  else if x.count.toNat + v.toNat > x.ceil.toNat then .error .progCeil
  else .ok { x with count := x.count + v }

def Cell.arrive (x : Cell) : Except FaultName Cell := if x.mode = 2 then x.sig 1 else .error .progCellmode

/-- CSET (R89). -/
def Cell.cset (x : Cell) (v : W32) : Except FaultName Cell :=
  if x.mode = 1 then (if v &&& ~~~x.ceil ≠ 0 then .error .progCeil else .ok { x with count := v })
  else if x.mode = 2 then (if x.a.toNat ≤ v.toNat then .error .progCeil else .ok { x with count := v })
  else if x.ceil.toNat < v.toNat then .error .progCeil
  else .ok { x with count := v }

/-- CCFG (R89). -/
def Cell.ccfg (x : Cell) (w : W64) : Except FaultName Cell :=
  let mode : BitVec 2 := w.extractLsb' 62 2
  let a : BitVec 30 := w.extractLsb' 32 30
  if mode = 3 then .error .progCellcfg
  else if mode = 2 ∧ a = 0 then .error .progCellcfg
  else if mode ≠ 2 ∧ a ≠ 0 then .error .progCellcfg
  else .ok { x with mode := mode, a := a, ceil := w.extractLsb' 0 32, count := 0, phase := false }

def Cell.cclr (x : Cell) : Cell := { x with count := 0, phase := false }

/-- Whether a test holds (R33, R91). -/
def Cell.test (x : Cell) (t : Test) (v : W32) : Bool :=
  match t with
  | .ge => decide (v.toNat ≤ x.count.toNat)
  | .eq => x.count == v
  | .ne => x.count != v
  | .lt => decide (x.count.toNat < v.toNat)
  | .gt => decide (v.toNat < x.count.toNat)
  | .le => decide (x.count.toNat ≤ v.toNat)
  | .ph => x.phase == v.getLsbD 0

/-- The cell after a take of V, when it is satisfied (R91): a counter or a flag. -/
def Cell.take (x : Cell) (v : W32) : Option Cell :=
  if x.mode = 1 then (if x.count &&& v = v then some { x with count := x.count &&& ~~~v } else none)
  else if v.toNat ≤ x.count.toNat then some { x with count := x.count - v } else none

/-- An engine's wait (R95). -/
def Cell.engTake (x : Cell) (wa : W32) : Option Cell :=
  if x.mode = 2 then (if x.phase = wa.getLsbD 0 then some x else none) else x.take wa

/-- The cell after a waiter's need is met. -/
def Cell.meet (x : Cell) (n : Need) : Option Cell :=
  match n with
  | .test t v => if x.test t v then some x else none
  | .take v => x.take v
  | .eng wa => x.engTake wa

def Need.isTest : Need → Bool
  | .test _ _ => true
  | _ => false

/-! ### Waiters (R92–R96) -/

def Who.rank : Who → Nat
  | .core _ => 0
  | .matrix _ => 1
  | .copy _ => 2
  | .remote _ => 3

/-- Whether a waiter is evaluated: its slot runs, or it waits for another tile (R92, R94). -/
def Tile.evaluates (x : Tile) : Who → Bool
  | .core b => !x.idle && x.run == b && (x.slot b).st == .busy
  | .matrix b => !x.idle && x.run == b && (x.slot b).st == .busy
  | .copy b => !x.idle && x.run == b && (x.slot b).st == .busy
  | .remote _ => true

/-- A waiter takes its place: by age, and by source order within a cycle (R92). -/
def insertWaiter (w : Waiter) : List Waiter → List Waiter
  | [] => [w]
  | y :: r =>
    if w.since < y.since ∨ (w.since = y.since ∧ w.who.rank < y.who.rank) then w :: y :: r else y :: insertWaiter w r

def State.addWaiter (s : State) (t : Nat) (w : Waiter) : State :=
  s.modTile t fun x => { x with waiters := insertWaiter w x.waiters }

def State.dropWaiter (s : State) (t : Nat) (who : Who) : State :=
  s.modTile t fun x => { x with waiters := x.waiters.filter fun w => w.who != who }

def markHead (f : Cmd → Cmd) : List Cmd → List Cmd
  | [] => []
  | c :: r => if c.wtaken then c :: markHead f r else f c :: r

def State.replyRemote (s : State) (id : Nat) (r : RemoteSt) : State :=
  { s with remotes := s.remotes.map fun m => if m.id = id then { m with st := r } else m }

/-- What a remote wait or take reports: TRYTAKE 1 when it took; WAIT and TAKE 0 when they were satisfied (R91). -/
def waitReport (o : CellOp) (satisfied : Bool) : W64 :=
  match o with
  | .tryTake _ => if satisfied then 1 else 0
  | _ => if satisfied then 0 else 1

def State.answerRemote (s : State) (id : Nat) (satisfied : Bool) : State :=
  { s with remotes := s.remotes.map fun m =>
      if m.id = id then { m with st := .replied none (waitReport m.op satisfied) 0 } else m }

/-- What a satisfied waiter sets going (R91, R94, R95, R208). -/
def State.satisfied (s : State) (t : Nat) (w : Waiter) : State :=
  match w.who with
  | .core b => s.modSlot t b fun x => match x.hold with
    | .wait sd _ => (x.setS sd 0).release
    | .offerWait o => { x with hold := .offer o }
    | _ => x
  | .matrix b => s.modSlot t b fun x => { x with mq := markHead (fun c => { c with wtaken := true }) x.mq }
  | .copy b => s.modSlot t b fun x => { x with cq := markHead (fun c => { c with wtaken := true }) x.cq }
  | .remote id => s.answerRemote id true

/-- A remote waiter of one evaluation is answered when it fails (R94). -/
def State.unsatisfied (s : State) (t : Nat) (w : Waiter) : State :=
  match w.who with
  | .remote id => if w.once then (s.dropWaiter t w.who).answerRemote id false else s
  | _ => s

/-- One waiter is evaluated. -/
def State.evalWaiter (s : State) (t : Nat) (w : Waiter) : State :=
  if (s.tile t).evaluates w.who then
    match (s.cell t w.cell).meet w.need with
    | some c => ((s.putCell t w.cell c).dropWaiter t w.who).satisfied t w
    | none => s.unsatisfied t w
  else s

/-- Steps 2 and 3 of R92 for the cells that `p` admits: every test, then every take, oldest first. -/
def State.settleIf (s : State) (t : Nat) (p : Nat → Bool) : State :=
  let ws := (s.tile t).waiters.filter fun w => p w.cell
  let s := (ws.filter fun w => w.need.isTest).foldl (fun s w => s.evalWaiter t w) s
  (ws.filter fun w => !w.need.isTest).foldl (fun s w => s.evalWaiter t w) s

def State.settle (s : State) (t : Nat) : State := s.settleIf t fun _ => true

/-! ### Time (R74, R78, R91, R302, R357) -/

/-- A wait limit after n running cycles. -/
def Hold.pass (n : Nat) : Hold → Hold
  | .wait sd (some l) => .wait sd (some (l - n))
  | .remote id sd (some l) => .remote id sd (some (l - n))
  | h => h

def Hold.expired : Hold → Bool
  | .wait _ (some 0) => true
  | _ => false

/-- n cycles of a running slot; `stalled` says that something of it waits on a link or on a peer (R114, R394). -/
def Slot.runFor (x : Slot) (stalled : Bool) (n : Nat) : Slot :=
  { x with budg := x.budg - BitVec.ofNat 32 (min n x.budg.toNat), hold := x.hold.pass n, ran := x.ran + n,
           stall := if stalled then x.stall + n else 0 }

/-- n cycles of a slot that does not run: one held on a fault counts towards FHOLD. -/
def Slot.restFor (x : Slot) (n : Nat) : Slot :=
  match x.st with
  | .faulted => { x with waited := x.waited + n }
  | _ => x

/-- A slot whose task runs, or is on its way to a stop. -/
def Slot.runs (x : Slot) : Bool :=
  x.task.isSome && match x.st with
    | .busy => true
    | .stopping _ => true
    | _ => false

/-- A partition owns a slot of a kind on a link: 1 W, 2 Q (R105, R114). -/
def Link.owns (l : Link) (p : PartNo) (kind : BitVec 2) : Bool :=
  l.active.any fun e => e.2.extractLsb' 14 2 == kind && e.2.extractLsb' 10 4 == p

/-- An access of partition p to drawer offset off waits on its link (R114). -/
def State.linkWaits (s : State) (p : PartNo) (va : W64) (write : Bool) : Bool :=
  let l := s.link (linkOf (offBits va))
  homeBits va == 0x10 && (l.st != 0 || !l.owns p (if write then 1 else 2))

/-- A write there waits: for a slot of its own kind, and for one to read with where the block is written in part (R109, R114). -/
def State.linkWaitsWrite (s : State) (p : PartNo) (va : W64) (whole : Bool) : Bool :=
  s.linkWaits p va true || (s.linkWaits p va false && !whole)

/-- The elements of an access reach every byte of the drawer block of an address (R109). -/
def Access.covers (a : Access) (va : W64) : Bool :=
  let lo := offBits va / 256 * 256
  (List.range 256).all fun i => a.elems.any fun e => decide (offBits e.va ≤ lo + i) && decide (lo + i < offBits e.va + a.size)

def sizeBytes : Size → Nat
  | .b => 1
  | .h => 2
  | .w => 4
  | .d => 8

/-- Element size of a copy command (R272, R340). -/
def copySize (i : Instr) (p : W64) : Nat :=
  match i with
  | .fill z _ _ _ _ => sizeBytes z
  | .reda op _ _ _ _ => if op = .bfadd then 2 else 4
  | .copySeal _ _ _ _ => 1
  | .copyOpen _ _ _ _ => 1
  | .cnop _ => 1
  | _ => 2 ^ (p.extractLsb' 0 3).toNat

def Cmd.size (c : Cmd) : Nat := copySize c.instr c.param

/-- Every element of a handle, by number. -/
def elemsOf (h : W256) : List Nat := List.range (hCount h)

/-- A command's elements cover every byte of the drawer block of an address (R109). -/
def coversBlock (h : W256) (n : Nat) (va : W64) : Bool :=
  homeBits va == 0x10 &&
  ((((elemsOf h).map (hAddr h)).filter fun a => a / 256 == va / 256).eraseDups).length * n == 256

/-- The element that a copy command presents next waits on a link (R114). -/
def State.copyWaits (s : State) (p : PartNo) (c : Cmd) : Bool :=
  let dst := hAddr c.hd c.count
  c.started && (s.linkWaitsWrite p dst (coversBlock c.hd c.size dst) || s.linkWaits p (hAddr c.ha c.count) false)

def AccOp.writes : AccOp → Bool
  | .store => true
  | .hstore => true
  | .vstore => true
  | .atomic _ _ _ _ => true
  | _ => false

/-- An element of partition p's access that no one has accepted: it waits on a drawer link, or on a peer (R114, R394). -/
def State.elemWaits (s : State) (p : PartNo) (a : Access) (e : Elem) : Bool :=
  !e.done && (decide (0x40 ≤ homeBits e.va) ||
    if a.op.writes then s.linkWaitsWrite p e.va (a.covers e.va) else s.linkWaits p e.va false)

/-- The element that the core's access waits for (R114, R394). -/
def State.coreStall (s : State) (t b : Nat) : Option Elem :=
  let x := s.slot t b
  match x.hold, x.accs.getLast? with
  | .reply, some a => a.elems.find? (s.elemWaits x.part a)
  | _, _ => none

/-- The cell operation that waits for a peer to accept or refuse it (R394). -/
def State.remoteStall (s : State) (t b : Nat) : Option Remote :=
  match (s.slot t b).hold with
  | .remote id _ _ => s.remotes.find? fun m => m.id == id && m.peer.isSome && m.st == .sent && !m.op.waits
  | _ => none

/-- The head of the copy queue waits on a link. -/
def State.copyStall (s : State) (t b : Nat) : Option Cmd :=
  let x := s.slot t b
  match x.cq with
  | c :: _ => if s.copyWaits x.part c then some c else none
  | [] => none

/-- The head of the copy queue, or what holds the core, waits on a link or on a peer (R114, R394). -/
def State.stalled (s : State) (t b : Nat) : Bool :=
  (s.coreStall t b).isSome || (s.remoteStall t b).isSome || (s.copyStall t b).isSome

/-- n cycles pass on a tile: CYC rises, the running slot's budget and limits fall. -/
def Tile.pass (x : Tile) (stalled : Bool) (n : Nat) : Tile :=
  let go := fun (b : Nat) (y : Slot) => if !x.idle && x.run == b && y.runs then y.runFor stalled n else y.restFor n
  { x with cyc := x.cyc + n, a := go 0 x.a, b := go 1 x.b }

/-- A local wait whose limit has passed is no longer evaluated (R91). -/
def State.endWaits (s : State) (t : Nat) : State :=
  if (s.slot t (s.run t)).hold.expired then s.dropWaiter t (.core (s.run t)) else s

/-- The end of a cycle of tile t, of n cycles in all: waiters are evaluated, then the counters move. -/
def State.tick (s : State) (t n : Nat) : State :=
  let s := s.settle t
  (s.modTile t fun x => x.pass (s.stalled t (s.run t)) n).endWaits t

end Sys2Proof.Machine
end

