-- ==== Sys2Proof/Machine/Flags.lean ====
section
/-! DEFINITION. Conditions (R32), sticky status bits (R133, R142, R189) and the status words computed from the state
(R142, R367). -/

namespace Sys2Proof.Machine

/-- Whether a condition holds of two operands (R32). -/
def condHolds (c : Cond) (a b : W64) : Bool :=
  match c with
  | .eq => a == b
  | .ne => a != b
  | .lt => a.slt b
  | .ge => !a.slt b
  | .ltu => a.ult b
  | .geu => !a.ult b
  | .le => !b.slt a
  | .gt => b.slt a
  | .leu => !b.ult a
  | .gtu => b.ult a
  | .any => a &&& b != 0
  | .none => a &&& b == 0

/-- Bits of MSTAT (R189). -/
def mstatIovf : BitVec 6 := 0x01
def mstatAbftc : BitVec 6 := 0x04
def mstatAbftu : BitVec 6 := 0x08
def mstatUnchk : BitVec 6 := 0x10
def mstatNonfin : BitVec 6 := 0x20

def Slot.setMstat (x : Slot) (m : BitVec 6) : Slot := { x with mstat := x.mstat ||| m }
/-- A write of ones clears (R8, R142). -/
def Slot.clearMstat (x : Slot) (v : W64) : Slot := { x with mstat := x.mstat &&& ~~~(v.extractLsb' 0 6) }

/-- Commands not yet at their completion points (R367). -/
def pendingCmds (q : List Cmd) : Nat := q.length

/-- A command held for the open phase waits in the copy queue. -/
def Slot.heldCmd (x : Slot) : Bool := x.cq.any fun c => c.held && !c.started

/-- The other slot of a tile is assigned (R301). -/
def Tile.otherAssigned (x : Tile) (b : Nat) : Bool := if b = 0 then x.tslot.vb else x.tslot.va

/-- TSTAT of slot b (R367). -/
def Tile.tstat (x : Tile) (b : Nat) : W64 :=
  let y := x.slot b
  (BitVec.ofNat 64 ((y.queries.filter fun q => !q.taken).length % 16) <<< 32) ||| ((if y.restoring then 1 else 0 : W64) <<< 28) |||
  (BitVec.ofNat 64 (y.canc % 16) <<< 24) ||| ((if y.heldCmd then 1 else 0 : W64) <<< 21) |||
  ((if y.phase.isSome then 1 else 0 : W64) <<< 20) ||| (BitVec.ofNat 64 (pendingCmds y.cq % 32) <<< 13) |||
  (BitVec.ofNat 64 (pendingCmds y.mq % 32) <<< 8) ||| ((if x.otherAssigned b then 1 else 0 : W64) <<< 1) |||
  BitVec.ofNat 64 b

/-- LINKLAT and LSTATE of a link (R106, R108). -/
def Link.lstate (l : Link) : W64 :=
  (l.st.setWidth 64 <<< 32) ||| (l.gen.setWidth 64 <<< 16) ||| l.delta.setWidth 64

/-- Type codes (R30). -/
def tyCode : Ty → Nat
  | .f32 => 0
  | .bf16 => 1
  | .f16 => 2
  | .e4m3 => 3
  | .e5m2 => 4
  | .mxe4m3 => 5
  | .mxf4 => 6
  | .i8 => 7
  | .ui8 => 8
  | .i4 => 9
  | .i32 => 10
  | .f4 => 11

/-- The image of a tile register's configuration (R40, R142). -/
def TileReg.image (x : TileReg) : W64 :=
  if x.conf then
    (1 <<< 32) ||| (BitVec.ofNat 64 (tyCode x.ty) <<< 28) ||| (BitVec.ofNat 64 x.rows <<< 16) ||| BitVec.ofNat 64 x.cols
  else 0

/-- A progress word (R366). -/
def Cmd.progress (c : Cmd) : W64 :=
  ((if c.started then 1 else 0 : W64) <<< 63) ||| ((if c.wtaken then 1 else 0 : W64) <<< 62) |||
  ((if c.sigdue then 1 else 0 : W64) <<< 61) ||| ((if c.fpend.isSome then 1 else 0 : W64) <<< 60) |||
  BitVec.ofNat 64 (c.count % 2 ^ 32)

end Sys2Proof.Machine
end

