-- ==== Sys2Proof/Machine/Operands.lean ====
section
/-! DEFINITION. The registers and cells that an instruction names, the limits that bind them (R66), the pending writes that
hold a word at issue (R135, R150), and the shared frame in which a core's instruction issues (R16, R42, R46). -/

namespace Sys2Proof.Machine

/-- Registers and own cells that an instruction's fields name (R28, R66). -/
structure Named where
  s : List SReg := []
  h : List HReg := []
  v : List VReg := []
  t : List TReg := []
  a : List AReg := []
  c : List CellNo := []
deriving DecidableEq, Repr, Inhabited

def cellNamed (s : List SReg) : CellRef → Named
  | .own c => { s := s, c := [c] }
  | .remote sb => { s := sb :: s }

def engCells (e : Eng) : List CellNo := (e.wait.map (·.1)).toList ++ (e.sig.map (·.1)).toList

def drainNamed (a : AReg) (e : Eng) : DrainTo → Named
  | .tile t => { a := [a], t := [t], c := engCells e }
  | .handle h => { a := [a], h := [h], c := engCells e }

def atomicNamed (z : SReg) (b : SReg) : Named := { s := [z, b] }
def named3 (d a b : SReg) : Named := { s := [d, a, b] }
def named2 (d a : SReg) : Named := { s := [d, a] }
def vec (l : List VReg) : Named := { v := l }
def copyNamed (hd ha : HReg) (sa : SReg) (e : Eng) : Named := { h := [hd, ha], s := [sa], c := engCells e }
def mmaNamed (a : AReg) (ts : List TReg) (e : Eng) : Named := { a := [a], t := ts, c := engCells e }
def mmaWNamed (a : AReg) (ts : List TReg) (h : TReg) (e : Eng) : Named :=
  { a := [a], t := ts, h := [h.setWidth 5], c := engCells e }

/-- What each instruction names; an event names nothing. -/
def named : Instr → Named
  | .add d a b => named3 d a b
  | .sub d a b => named3 d a b
  | .mul d a b => named3 d a b
  | .mulh d a b => named3 d a b
  | .div d a b => named3 d a b
  | .divu d a b => named3 d a b
  | .rem d a b => named3 d a b
  | .remu d a b => named3 d a b
  | .and d a b => named3 d a b
  | .or d a b => named3 d a b
  | .xor d a b => named3 d a b
  | .shl d a b => named3 d a b
  | .shr d a b => named3 d a b
  | .sar d a b => named3 d a b
  | .min d a b => named3 d a b
  | .max d a b => named3 d a b
  | .minu d a b => named3 d a b
  | .maxu d a b => named3 d a b
  | .slt d a b => named3 d a b
  | .sltu d a b => named3 d a b
  | .clz d a => named2 d a
  | .popc d a => named2 d a
  | .addi d a _ => named2 d a
  | .muli d a _ => named2 d a
  | .andi d a _ => named2 d a
  | .ori d a _ => named2 d a
  | .xori d a _ => named2 d a
  | .shli d a _ => named2 d a
  | .shri d a _ => named2 d a
  | .sari d a _ => named2 d a
  | .slti d a _ => named2 d a
  | .sltiu d a _ => named2 d a
  | .li d _ => { s := [d] }
  | .bfx d a _ _ => named2 d a
  | .bfi d a _ _ => named2 d a
  | .mka d a _ => named2 d a
  | .br _ a b _ => named2 a b
  | .jmpr a => { s := [a] }
  | .call _ => { s := [spReg] }
  | .callr a => { s := [a, spReg] }
  | .ret => { s := [spReg] }
  | .loop a _ => { s := [a] }
  | .loopP a _ _ => { s := [a] }
  | .qset _ _ a b => named2 a b
  | .ld _ _ d b _ => named2 d b
  | .lds _ _ d b _ => named2 d b
  | .st _ _ d b _ => named2 d b
  | .aadd _ _ _ d b _ => atomicNamed d b
  | .aand _ _ _ d b _ => atomicNamed d b
  | .aor _ _ _ d b _ => atomicNamed d b
  | .axor _ _ _ d b _ => atomicNamed d b
  | .amin _ _ _ d b _ => atomicNamed d b
  | .amax _ _ _ d b _ => atomicNamed d b
  | .aminu _ _ _ d b _ => atomicNamed d b
  | .amaxu _ _ _ d b _ => atomicNamed d b
  | .afadd _ _ _ d b _ => atomicNamed d b
  | .afmin _ _ _ d b _ => atomicNamed d b
  | .afmax _ _ _ d b _ => atomicNamed d b
  | .aswp _ _ _ d b _ => atomicNamed d b
  | .acas _ _ _ d b _ => { s := [d, d + 1, b] }
  | .wait _ _ d l c _ => cellNamed [d, l] c
  | .take _ d l c _ => cellNamed [d, l] c
  | .trytake _ d c _ => cellNamed [d] c
  | .sig _ c _ => cellNamed [] c
  | .arrive _ c => cellNamed [] c
  | .cset _ c _ => cellNamed [] c
  | .crd _ d c => cellNamed [d] c
  | .ccfg a c => cellNamed [a] c
  | .cclr c => cellNamed [] c
  | .spawn d a _ => named2 d a
  | .spawnb d a _ => named2 d a
  | .park d a _ => named2 d a
  | .taskDone a => { s := [a] }
  | .widf d _ => { s := [d] }
  | .hld h a _ => { h := [h], s := [a] }
  | .hst h a _ => { h := [h], s := [a] }
  | .hmov d a => { h := [d, a] }
  | .hsetb d a b => { h := [d, a], s := [b] }
  | .hsetd d a b _ => { h := [d, a], s := [b] }
  | .hsets d a b _ => { h := [d, a], s := [b] }
  | .hadv d a b _ => { h := [d, a], s := [b] }
  | .hget d a _ => { h := [a], s := [d] }
  | .hchk a b => { h := [a], s := [b] }
  | .hclr d => { h := [d] }
  | .tcfg t _ _ _ => { t := [t] }
  | .vadd _ _ d a b _ => vec [d, a, b]
  | .vsub _ _ d a b _ => vec [d, a, b]
  | .vmul _ _ d a b _ => vec [d, a, b]
  | .vfma _ d a b c _ => vec [d, a, b, c]
  | .vfms _ d a b c _ => vec [d, a, b, c]
  | .vfnma _ d a b c _ => vec [d, a, b, c]
  | .vmin _ d a b _ => vec [d, a, b]
  | .vmax _ d a b _ => vec [d, a, b]
  | .vabs _ d a _ => vec [d, a]
  | .vneg _ d a _ => vec [d, a]
  | .vadds d a b _ => vec [d, a, b]
  | .vsubs d a b _ => vec [d, a, b]
  | .vclamp _ d a b c _ => vec [d, a, b, c]
  | .vscale _ d a b _ => vec [d, a, b]
  | .vrint _ d a _ => vec [d, a]
  | .vand d a b _ => vec [d, a, b]
  | .vor d a b _ => vec [d, a, b]
  | .vxor d a b _ => vec [d, a, b]
  | .vandn d a b _ => vec [d, a, b]
  | .vshl d a b _ => vec [d, a, b]
  | .vshr d a b _ => vec [d, a, b]
  | .vsar d a b _ => vec [d, a, b]
  | .vpopc d a _ => vec [d, a]
  | .vcmpeq _ _ a b _ => vec [a, b]
  | .vcmpne _ _ a b _ => vec [a, b]
  | .vcmplt _ _ a b _ => vec [a, b]
  | .vcmple _ _ a b _ => vec [a, b]
  | .vcvt _ _ _ d a _ => vec [d, a]
  | .vsel _ d a b _ => vec [d, a, b]
  | .vmovi _ d _ _ => vec [d]
  | .vbcs _ d a _ => { v := [d], s := [a] }
  | .vexp2 d a _ => vec [d, a]
  | .vlog2 d a _ => vec [d, a]
  | .vrcp d a _ => vec [d, a]
  | .vrsq d a _ => vec [d, a]
  | .vsqrt d a _ => vec [d, a]
  | .vtanh d a _ => vec [d, a]
  | .vsinpi d a _ => vec [d, a]
  | .vcospi d a _ => vec [d, a]
  | .vhash d a b _ => { v := [d, a], s := [b] }
  | .vld _ d h => { v := [d], h := [h] }
  | .vst _ _ h a => { v := [a], h := [h] }
  | .vldr _ d h _ => { v := [d], h := [h] }
  | .vstr _ _ h a _ => { v := [a], h := [h] }
  | .vmov d a => vec [d, a]
  | .vext d a _ => { v := [a], s := [d] }
  | .vins d a _ => { v := [d], s := [a] }
  | .vrotr d a _ => vec [d, a]
  | .vbcr d a _ => vec [d, a]
  | .vredr _ _ d a => vec [d, a]
  | .vrotc d a _ => vec [d, a]
  | .vbcc d a _ => vec [d, a]
  | .vredc _ _ d a => vec [d, a]
  | .vpermr d a b => vec [d, a, b]
  | .kpopc d _ => { s := [d] }
  | .kfirst d _ => { s := [d] }
  | .vargmaxr _ d a _ => vec [d, d + 1, a]
  | .vargmaxc _ d a _ => vec [d, d + 1, a]
  | .vargminr _ d a _ => vec [d, d + 1, a]
  | .vargminc _ d a _ => vec [d, d + 1, a]
  | .vtopk _ d a b _ _ => vec [d, d + 1, a, b]
  | .vtopkm _ d a b _ => vec [d, d + 1, a, a + 1, b, b + 1]
  | .vpart d a b _ => { v := [d, d + 1], s := [a, b] }
  | .vbucket d a _ _ => vec [d, d + 1, a]
  | .vprune48 _ d a => vec [d, d + 1, a]
  | .vspread48 _ d a => vec [d, a, a + 1]
  | .vcompress d a n _ => { v := [d, a], s := [n] }
  | .vexpand d a n _ => { v := [d, a], s := [n] }
  | .tld t h e => { t := [t], h := [h], c := engCells e }
  | .tldw t a e => { t := [t], s := [a], c := engCells e }
  | .tst t h e => { t := [t], h := [h], c := engCells e }
  | .mma a x y _ _ _ _ e => mmaNamed a [x, y] e
  | .mmaw a x h _ _ _ _ e => mmaWNamed a [x] h e
  | .mmasp a x y _ _ _ _ e => mmaNamed a [x, y, y + 1] e
  | .mmaspw a x h _ _ _ _ e => mmaWNamed a [x, h + 1] h e
  | .mtrans a x _ _ _ e => mmaNamed a [x] e
  | .mperm a x y _ _ _ e => mmaNamed a [x, y] e
  | .mrsum a x _ _ _ e => mmaNamed a [x] e
  | .mzero a e => mmaNamed a [] e
  | .mdrain a _ _ dst e => drainNamed a e dst
  | .mnop e => { c := engCells e }
  | .copy d a p _ e => copyNamed d a p e
  | .gath d a p _ e => copyNamed d a p e
  | .scat d a p _ e => copyNamed d a p e
  | .fill _ d p _ e => { h := [d], s := [p], c := engCells e }
  | .reda _ d a _ e => { h := [d, a], c := engCells e }
  | .putc d a p e => copyNamed d a p e
  | .rrot d a p e => copyNamed d a p e
  | .copySeal d a p e => copyNamed d a p e
  | .copyOpen d a p e => copyNamed d a p e
  | .cnop e => { c := engCells e }
  | .swopen x y e => { s := [x, y], c := engCells e }
  | .swapp x y v _ e => { s := [x, y], v := [v], c := engCells e }
  | .swqry x y e => { s := [x, y], c := engCells e }
  | .swpop v x _ e => { s := [x], v := [v], c := engCells e }
  | .swevt x y e => { s := [x, y], c := engCells e }
  | .swsave x y e => { s := [x, y], c := engCells e }
  | .swload x y e => { s := [x, y], c := engCells e }
  | .swclose x e => { s := [x], c := engCells e }
  | .wld _ d a => { v := [d], s := [a] }
  | .wprog a h e => { s := [a], h := [h], c := engCells e }
  | .wprogs a h b e => { s := [a, b], h := [h], c := engCells e }
  | .wfree a e => { s := [a], c := engCells e }
  | .wmeas h a e => { s := [a], h := [h], c := engCells e }
  | .wscrub a e => { s := [a], c := engCells e }
  | .wchk h a e => { s := [a], h := [h], c := engCells e }
  | .wstat d a => named2 d a
  | .crr d _ => { s := [d] }
  | .crw _ a => { s := [a] }
  | .tlock d a l => named3 d a l
  | .tunlock a l => named2 a l
  | .fqpop d => { s := [d] }
  | .fresume a => { s := [a] }
  | .fabort a => { s := [a] }
  | .frestart a => { s := [a] }
  | _ => {}

/-- The register numbers and cells lie below the limits of the header in force (R66). -/
def withinLimits (h : W512) (n : Named) : Bool :=
  (n.s.all fun r => r == 0 || decide (61 ≤ r.toNat) || decide (r.toNat < hdrScalars h)) &&
  (n.h.all fun r => decide (r.toNat < hdrHandles h)) &&
  (n.v.all fun r => decide (r.toNat < hdrVectors h)) &&
  (n.t.all fun r => decide (r.toNat < hdrTiles h)) &&
  (n.a.all fun r => (hdrAccs h).getLsbD r.toNat) &&
  n.c.all fun r => decide (r.toNat < hdrCells h)

/-! ### Pending writes (R135, R150, R208) -/

def AccOp.writesS : AccOp → List SReg
  | .load _ d => [d]
  | .atomic _ f d _ => if f then [d] else []
  | _ => []
def AccOp.writesH : AccOp → List HReg
  | .hload d => [d]
  | _ => []
def AccOp.writesV : AccOp → List Nat
  | .vload _ d _ => [d]
  | _ => []

/-- Scalars that an accepted Sward operation will write. -/
def SwOp.writesS (o : SwOp) : List SReg :=
  match o.offer.instr with
  | .swload x _ _ => [x]
  | _ => []
def SwOp.writesV (o : SwOp) : List Nat :=
  match o.offer.instr with
  | .swpop _ _ _ _ => [o.offer.vd]
  | _ => []

/-- The accepted Sward operations of the task in slot b of tile t. -/
def State.swOpsOf (s : State) (t b : Nat) : List SwOp :=
  match (s.slot t b).task with
  | some k => (s.die (dieOf t)).swOps.filter fun o => o.task == k.num
  | none => []

/-! ### Results on their way (R135, R150, R175) -/

/-- Mask registers that an instruction names. -/
def masks : Instr → List KReg
  | .vadd _ _ _ _ _ k => [k]
  | .vsub _ _ _ _ _ k => [k]
  | .vmul _ _ _ _ _ k => [k]
  | .vfma _ _ _ _ _ k => [k]
  | .vfms _ _ _ _ _ k => [k]
  | .vfnma _ _ _ _ _ k => [k]
  | .vmin _ _ _ _ k => [k]
  | .vmax _ _ _ _ k => [k]
  | .vabs _ _ _ k => [k]
  | .vneg _ _ _ k => [k]
  | .vadds _ _ _ k => [k]
  | .vsubs _ _ _ k => [k]
  | .vclamp _ _ _ _ _ k => [k]
  | .vscale _ _ _ _ k => [k]
  | .vrint _ _ _ k => [k]
  | .vand _ _ _ k => [k]
  | .vor _ _ _ k => [k]
  | .vxor _ _ _ k => [k]
  | .vandn _ _ _ k => [k]
  | .vshl _ _ _ k => [k]
  | .vshr _ _ _ k => [k]
  | .vsar _ _ _ k => [k]
  | .vpopc _ _ k => [k]
  | .vcmpeq _ kd _ _ k => [kd, k]
  | .vcmpne _ kd _ _ k => [kd, k]
  | .vcmplt _ kd _ _ k => [kd, k]
  | .vcmple _ kd _ _ k => [kd, k]
  | .vcvt _ _ _ _ _ k => [k]
  | .vsel _ _ _ _ k => [k]
  | .vmovi _ _ _ k => [k]
  | .vbcs _ _ _ k => [k]
  | .vexp2 _ _ k => [k]
  | .vlog2 _ _ k => [k]
  | .vrcp _ _ k => [k]
  | .vrsq _ _ k => [k]
  | .vsqrt _ _ k => [k]
  | .vtanh _ _ k => [k]
  | .vsinpi _ _ k => [k]
  | .vcospi _ _ k => [k]
  | .vhash _ _ _ k => [k]
  | .kand kd ka kb => [kd, ka, kb]
  | .kor kd ka kb => [kd, ka, kb]
  | .kxor kd ka kb => [kd, ka, kb]
  | .knot kd ka => [kd, ka]
  | .kpopc _ ka => [ka]
  | .kfirst _ ka => [ka]
  | .vargmaxr _ _ _ k => [k]
  | .vargmaxc _ _ _ k => [k]
  | .vargminr _ _ _ k => [k]
  | .vargminc _ _ _ k => [k]
  | .vtopk _ _ _ _ k _ => [k]
  | .vpart _ _ _ k => [k]
  | .vbucket _ _ _ k => [k]
  | .vcompress _ _ _ k => [k]
  | .vexpand _ _ _ k => [k]
  | _ => []

/-- How an instruction issues and answers: the cycles from issue to its result (L), the cycles before the next vector instruction
(n; 0 for what is no vector instruction), and the registers of its result. -/
structure Pace where
  lat : Nat
  occ : Nat
  dst  : List Dest
deriving DecidableEq, Repr, Inhabited

def intLat : LaneTy → Nat
  | .f32 => 4
  | .i32 => 2

/-- VLD and VST at home 0x00 take twice as long where a memory element has four bytes. -/
def moveOcc (ty : Ty) : Nat := if ty == .f32 || ty == .i32 then 2 else 1

def Slot.pace (x : Slot) (i : Instr) : Pace :=
  let v := fun (l n : Nat) (ds : List VReg) => ({ lat := l, occ := n, dst := ds.map fun d => .v (x.phys d) } : Pace)
  let toS := fun (l n : Nat) (d : SReg) => ({ lat := l, occ := n, dst := [.s d] } : Pace)
  let toK := fun (l : Nat) (d : KReg) => ({ lat := l, occ := 1, dst := [.k d] } : Pace)
  match i with
  | .mul d _ _ => toS 3 0 d
  | .mulh d _ _ => toS 3 0 d
  | .muli d _ _ => toS 3 0 d
  | .ld _ _ d _ _ => toS 4 0 d
  | .lds _ _ d _ _ => toS 4 0 d
  | .hld d _ _ => { lat := 4, occ := 0, dst := [.h d] }
  | .vadd ty _ d _ _ _ => v (intLat ty) 1 [d]
  | .vsub ty _ d _ _ _ => v (intLat ty) 1 [d]
  | .vmul ty _ d _ _ _ => v (intLat ty) 1 [d]
  | .vfma _ d _ _ _ _ => v 4 1 [d]
  | .vfms _ d _ _ _ _ => v 4 1 [d]
  | .vfnma _ d _ _ _ _ => v 4 1 [d]
  | .vscale _ d _ _ _ => v 4 1 [d]
  | .vrint _ d _ _ => v 4 1 [d]
  | .vcvt _ _ _ d _ _ => v 4 1 [d]
  | .vmin _ d _ _ _ => v 2 1 [d]
  | .vmax _ d _ _ _ => v 2 1 [d]
  | .vabs _ d _ _ => v 2 1 [d]
  | .vneg _ d _ _ => v 2 1 [d]
  | .vadds d _ _ _ => v 2 1 [d]
  | .vsubs d _ _ _ => v 2 1 [d]
  | .vclamp _ d _ _ _ _ => v 2 1 [d]
  | .vand d _ _ _ => v 2 1 [d]
  | .vor d _ _ _ => v 2 1 [d]
  | .vxor d _ _ _ => v 2 1 [d]
  | .vandn d _ _ _ => v 2 1 [d]
  | .vshl d _ _ _ => v 2 1 [d]
  | .vshr d _ _ _ => v 2 1 [d]
  | .vsar d _ _ _ => v 2 1 [d]
  | .vpopc d _ _ => v 2 1 [d]
  | .vcmpeq _ d _ _ _ => toK 2 d
  | .vcmpne _ d _ _ _ => toK 2 d
  | .vcmplt _ d _ _ _ => toK 2 d
  | .vcmple _ d _ _ _ => toK 2 d
  | .vsel _ d _ _ _ => v 2 1 [d]
  | .vmovi _ d _ _ => v 2 1 [d]
  | .vbcs _ d _ _ => v 2 1 [d]
  | .vexp2 d _ _ => v 12 4 [d]
  | .vlog2 d _ _ => v 12 4 [d]
  | .vrcp d _ _ => v 12 4 [d]
  | .vrsq d _ _ => v 12 4 [d]
  | .vsqrt d _ _ => v 12 4 [d]
  | .vtanh d _ _ => v 12 4 [d]
  | .vsinpi d _ _ => v 12 4 [d]
  | .vcospi d _ _ => v 12 4 [d]
  | .vhash d _ _ _ => v 8 2 [d]
  | .vld ty d h => if homeBits (hBase (x.getH h)) = 0 then v 8 (moveOcc ty) [d] else v 0 1 []
  | .vst ty _ h _ => if homeBits (hBase (x.getH h)) = 0 then v 0 (moveOcc ty) [] else v 0 1 []
  | .vldr _ d h _ => if homeBits (hBase (x.getH h)) = 0 then v 8 1 [d] else v 0 1 []
  | .vstr _ _ _ _ _ => v 0 1 []
  | .vmov d _ => v 2 1 [d]
  | .vext d _ _ => toS 3 1 d
  | .vins d _ _ => v 2 1 [d]
  | .vrotr d _ _ => v 2 1 [d]
  | .vbcr d _ _ => v 2 1 [d]
  | .vpermr d _ _ => v 3 1 [d]
  | .vredr _ _ d _ => v 7 1 [d]
  | .vrotc d _ _ => v 5 2 [d]
  | .vbcc d _ _ => v 5 2 [d]
  | .vredc _ _ d _ => v 9 2 [d]
  | .kand d _ _ => toK 1 d
  | .kor d _ _ => toK 1 d
  | .kxor d _ _ => toK 1 d
  | .knot d _ => toK 1 d
  | .kpopc d _ => toS 3 1 d
  | .kfirst d _ => toS 3 1 d
  | .vargmaxr _ d _ _ => v 7 1 [d, d + 1]
  | .vargminr _ d _ _ => v 7 1 [d, d + 1]
  | .vargmaxc _ d _ _ => v 9 2 [d, d + 1]
  | .vargminc _ d _ _ => v 9 2 [d, d + 1]
  | .vtopk _ d _ _ _ _ => v 24 8 [d, d + 1]
  | .vtopkm _ d _ _ _ => v 12 4 [d, d + 1]
  | .vpart d a b _ => { lat := 6, occ := 2, dst := [.v (x.phys d), .v (x.phys (d + 1)), .s a, .s b] }
  | .vbucket d _ _ _ => v 10 4 [d, d + 1]
  | .vprune48 _ d _ => v 4 1 [d, d + 1]
  | .vspread48 _ d _ => v 4 1 [d]
  | .vcompress d _ n _ => { lat := 6, occ := 2, dst := [.v (x.phys d), .s n] }
  | .vexpand d _ n _ => { lat := 6, occ := 2, dst := [.v (x.phys d), .s n] }
  | .wld _ d _ => v 10 1 [d]
  | _ => { lat := 0, occ := 0, dst := [] }

/-- The instruction issues only when no register that it names has a result still on its way, and a vector instruction also only
when the pipeline is free. `now` is the cycle in which its word would issue, after its prefixes. -/
def Slot.early (x : Slot) (now : Nat) (i : Instr) : Bool :=
  let late := fun (d : Dest) => x.due.any fun e => e.1 == d && decide (now < e.2)
  let n := named i
  (n.s.any fun r => r != 0 && late (.s r)) || (n.h.any fun r => late (.h r)) || (n.v.any fun r => late (.v (x.phys r))) ||
  ((masks i).any fun r => late (.k r)) || (decide ((x.pace i).occ ≠ 0) && decide (now < x.vfree))

/-- An accepted access is to write the register: its own return ends the wait. -/
def Slot.awaits (x : Slot) (d : Dest) : Bool :=
  match d with
  | .s r => x.accs.any fun a => a.op.writesS.contains r
  | .h r => x.accs.any fun a => a.op.writesH.contains r
  | .v n => x.accs.any fun a => a.op.writesV.contains n
  | .k _ => false

/-- The results of an instruction that issued at `now` are on their way. -/
def Slot.paced (x : Slot) (now : Nat) (p : Pace) : Slot :=
  let new := (p.dst.filter fun d => decide (1 < p.lat) && !x.awaits d).map fun d => (d, now + p.lat)
  { x with due := x.due.filter (fun e => decide (now < e.2)) ++ new, vfree := if p.occ = 0 then x.vfree else now + p.occ }

/-- A register that the instruction names has a pending write: the word is held at issue. -/
def State.interlocked (s : State) (t b : Nat) (n : Named) : Bool :=
  let x := s.slot t b
  let ops := s.swOpsOf t b
  (n.s.any fun r => r != 0 && ((x.accs.any fun a => a.op.writesS.contains r) || ops.any fun o => o.writesS.contains r)) ||
  (n.h.any fun r => x.accs.any fun a => a.op.writesH.contains r) ||
  n.v.any fun r => (x.accs.any fun a => a.op.writesV.contains (x.phys r)) || ops.any fun o => o.writesV.contains (x.phys r)

/-! ### The frame of a core's instruction -/

/-- What a meaning answers: the group ends; control goes elsewhere; the core is held; the group traps. `extra` are the
cycles of R83 and R135 in which nothing issues. -/
inductive Res where
  | done (s : State) (extra : Nat)
  | jump (s : State) (pc : W64) (extra : Nat)
  | hold (s : State)
  | trap (n : FaultName) (addr detail : W64)

/-- A taken branch: a target outside the body ends the loop; one inside it was refused before (R86). -/
def Slot.goTo (x : Slot) (pc : W64) : Slot := { x with pc := pc, loop := none }

/-- The slot's core can issue: it runs, holds a task with budget left, is not stopping and is held on nothing. -/
def State.canIssue (s : State) : Bool :=
  let x := s.core
  !(s.tile s.cur).idle && x.task.isSome && x.st == .busy && x.hold == .none && x.budg != 0 && !x.pendPreempt

def State.words (s : State) : Nat := s.core.gwords.length

def State.trap (s : State) (n : FaultName) (addr detail : W64) : State := s.modCore fun x => x.trap n addr detail

/-- The effect of an answer, and the cycles of the group (R42, R83). -/
def conclude (s : State) : Res → State
  | .done s' n => (s'.modCore Slot.advance).tick s.cur (s.words + n)
  | .jump s' pc n => (s'.modCore fun x => x.goTo pc).tick s.cur (s.words + n)
  | .hold s' => s'.tick s.cur s.words
  | .trap n a d => (s.trap n a d).tick s.cur s.words

/-- The cycle in which the group's instruction word issues. -/
def State.issueCyc (s : State) : Nat := (s.tile s.cur).cyc + s.words - 1

/-- The instruction's results, if it has any that take longer than a cycle, are on their way. -/
def State.noted (t : State) (s : State) (i : Instr) : State :=
  let p := s.core.pace i
  if p.dst.isEmpty && p.occ == 0 then t else t.modSlot s.cur (s.run s.cur) fun x => x.paced s.issueCyc p

/-- The effect of an answer, with the pace of an instruction that completed. -/
def settle (i : Instr) (s : State) (r : Res) : State :=
  match r with
  | .done _ _ => (conclude s r).noted s i
  | r => conclude s r

/-- A group issues (R16, R42, R46, R66). Nothing happens while the core cannot issue; a cycle passes while an interlock holds
the word. A check of its own that goes before every other comes first (`pre`), then the header's limits, then the meaning. -/
def issuePre (i : Instr) (s : State) (pre : Slot → Option FaultName) (k : State → Res) : Host.Outcome State Fault Refusal :=
  if !s.canIssue then .next s
  else if s.interlocked s.cur (s.run s.cur) (named i) || s.core.early s.issueCyc i then .next (s.tick s.cur 1)
  else match pre s.core with
    | some f => .next (conclude s (.trap f 0 0))
    | none =>
      if withinLimits s.core.header (named i) then .next (settle i s (k s))
      else .next (conclude s (.trap .progResource 0 0))

def issue (i : Instr) (s : State) (k : State → Res) : Host.Outcome State Fault Refusal := issuePre i s (fun _ => none) k

/-- The meaning only changes the core's slot. -/
def onCore (f : Slot → Slot) (s : State) : Res := .done (s.modCore f) 0

end Sys2Proof.Machine
end

