-- ==== Sys2Proof/Machine/Access.lean ====
section
/-! DEFINITION. Addresses and the checks of accesses: homes and windows, ownership, translation, locked ranges, the drawer's
protected blocks, and plain reads and writes at a home (R230–R236, R259, R265, R268–R270, R299–R317, R394). -/

namespace Sys2Proof.Machine

/-! ### What an address names (R230–R235) -/

inductive Space where
  | own (off : Nat)
  | shared (home off : Nat)
  | half (home tile slot off : Nat)
  | cell (tile c sub : Nat)
  | config
  | drawer (off : Nat)
  | host (off : Nat)
  | peer (n off : Nat)
  | reserved
deriving DecidableEq, Repr, Inhabited

/-- A place in a compute die's home (R232). -/
def dieSpace (home off : Nat) : Space :=
  if off < 0x8000000 then .shared home off
  else if 0x10000000 ≤ off ∧ off < 0x28000000 then
    .half home ((home - 1) * 48 + (off - 0x10000000) / 0x800000) ((off - 0x10000000) / 0x400000 % 2) off
  else if 0x30000000 ≤ off ∧ off < 0x30300000 then
    .cell ((home - 1) * 48 + (off - 0x30000000) / 0x10000) ((off - 0x30000000) % 0x10000 / 32) ((off - 0x30000000) % 32)
  else if 0x40000000 ≤ off ∧ off < 0x41000000 then .config
  else .reserved

def spaceOf (va : W64) : Space :=
  let home := homeBits va
  let off := offBits va
  if home = 0 then (if off < 0x400000 then .own off else .reserved)
  else if home ≤ 4 then dieSpace home off
  else if home = 0x10 then .drawer off
  else if home = 0x20 then .host off
  else if 0x40 ≤ home then .peer (home - 0x40) off
  else .reserved

/-- What an attempt comes to: a value, a fault, or nothing yet (a link that is not UP, a half being cleared). -/
inductive Got (α : Type) where
  | ok (x : α)
  | fault (n : FaultName)
  | wait
deriving DecidableEq, Repr, Inhabited

/-! ### Physical bytes -/

def State.isPoisoned (s : State) (k n : Nat) : Bool := s.poisoned.any fun x => decide (k ≤ x) && decide (x < k + n)
def State.readMem (s : State) (k n : Nat) : Nat := memRead s.mem k n
/-- A write stores its bytes and makes them good again. -/
def State.writeMem (s : State) (k n v : Nat) : State :=
  { s with mem := memWrite s.mem k n v, poisoned := s.poisoned.filter fun x => !(decide (k ≤ x) && decide (x < k + n)) }
def State.readBytes (s : State) (k n : Nat) : Bytes := (memBytes s.mem k n).map BitVec.toNat
def State.writeBytes (s : State) (k : Nat) (bs : Bytes) : State :=
  { s with mem := memPutBytes s.mem k (bs.map (BitVec.ofNat 8)),
           poisoned := s.poisoned.filter fun x => !(decide (k ≤ x) && decide (x < k + bs.length)) }

/-! ### Windows (R306, R307) -/

def pwinNo (home : Nat) (p : PartNo) (w : Nat) : Nat := home * 256 + p.toNat * 16 + w
/-- Base and size of a window register, in bytes. -/
def winBase (v : W64) : Nat := (v.extractLsb' 0 29).toNat * 0x10000
def winSize (v : W64) : Nat := (v.extractLsb' 32 29).toNat * 0x10000
def State.pwin (s : State) (home : Nat) (p : PartNo) (w : Nat) : W64 := tget 0 s.pwins (pwinNo home p w)

/-- An access of n bytes lies in one of the partition's windows at a home. -/
def State.inWindow (s : State) (home : Nat) (p : PartNo) (off n : Nat) : Bool :=
  (List.range 16).any fun w =>
    let v := s.pwin home p w
    decide (winBase v ≤ off) && decide (off + n ≤ winBase v + winSize v)

/-- An offset lies in some window of some partition at a home. -/
def State.inAnyWindow (s : State) (home off : Nat) : Bool :=
  (List.range 16).any fun p => s.inWindow home (BitVec.ofNat 4 p) off 1

/-- The partition that holds a slot (R301). -/
def TSlot.holder (x : TSlot) (b : Nat) : Option PartNo :=
  if b = 0 then (if x.va then some x.pa else none) else if x.vb then some x.pb else none
def State.holder (s : State) (t b : Nat) : Option PartNo := (s.tile t).tslot.holder b

/-! ### Translation (R308–R312) -/

/-- Translation roots and XSTAT are numbered by die, and 4 is home 0x10. -/
def homeUnit (home : Nat) : BitVec 3 := if home = 0x10 then 4 else BitVec.ofNat 3 (home - 1)
def capacity (home : Nat) : Nat := if home = 0x10 then Config.drawerBytes else Config.sharedBytes

inductive Walk where
  | page (base size pa : Nat)
  | miss (bad : Bool)
  | poison
deriving DecidableEq, Repr, Inhabited

def walkIndex (off : Nat) : Nat → Nat
  | 0 => off / 2 ^ 48 % 512
  | 1 => off / 2 ^ 39 % 512
  | 2 => off / 2 ^ 30 % 512
  | 3 => off / 2 ^ 21 % 512
  | _ => off / 2 ^ 16 % 32

def pageSize : Nat → Option Nat
  | 2 => some (2 ^ 30)
  | 3 => some (2 ^ 21)
  | 4 => some (2 ^ 16)
  | _ => none

/-- The walk from level `lvl` with the table at t in the shared memory of a die (R309). -/
def State.walk (s : State) (die home off : Nat) : Nat → Nat → Nat → Walk
  | 0, _, _ => .miss true
  | fuel + 1, lvl, t =>
    if s.inAnyWindow (die + 1) t then .miss true
    else
      let k := homeKey (die + 1) (t + 8 * walkIndex off lvl)
      if s.isPoisoned k 8 then .poison
      else
        let d : W64 := BitVec.ofNat 64 (s.readMem k 8)
        let kind := (d.extractLsb' 0 2).toNat
        let pa := (d.extractLsb' 8 40).toNat * 256
        if kind = 0 then .miss false
        else if kind = 3 ∨ d.extractLsb' 48 16 ≠ 0 ∨ d.extractLsb' 2 6 ≠ 0 then .miss true
        else if kind = 2 then
          match pageSize lvl with
          | some size =>
            if pa % size ≠ 0 ∨ capacity home < pa + size then .miss true else .page (off / size * size) size pa
          | none => .miss true
        else if lvl = 4 then .miss true
        else
          let size := if lvl = 3 then 256 else 4096
          if pa % size ≠ 0 then .miss true
          else if 2 ^ 27 < pa + size then .miss true
          else s.walk die home off fuel (lvl + 1) pa

def State.walkRoot (s : State) (home : Nat) (p : PartNo) (off : Nat) : Walk :=
  let r := s.reg (.ptroot (homeUnit home) p)
  if r.getLsbD 0 then
    s.walk (r.extractLsb' 48 3).toNat home off 5 0 ((r.extractLsb' 12 15).toNat * 4096)
  else .miss false

def Tlb.covers (e : Tlb) (p : PartNo) (off : Nat) : Bool :=
  e.part == p && decide (e.base ≤ off) && decide (off < e.base + e.size)

/-- An access of n bytes touches a range that the partition holds locked at a home (R268, R269). -/
def LockRange.touches (r : LockRange) (home : Nat) (p : PartNo) (off n : Nat) : Bool :=
  r.home == home && r.part == p && decide (r.base < off + n) && decide (off < r.base + r.len)

/-- The last unlocked entry goes (R310). -/
def evictLast : List Tlb → List Tlb
  | [] => []
  | e :: r => if e.locked || r.any (fun x => !x.locked) then e :: evictLast r else r

/-- A page becomes the most recently used entry of a unit (R310). -/
def XUnit.fill (u : XUnit) (e : Tlb) : XUnit :=
  let l := u.tlb.filter fun x => x != e
  { u with tlb := e :: (if l.length < 16384 then l else evictLast l) }

/-- The number of the unit that translates an offset of a home: a die, or the link of the block (R230). -/
def unitOf (home off : Nat) : Nat := if home = 0x10 then 16 + linkOf off else home - 1

/-- Translation, then the locked range (R259, R269, R309). -/
def State.translate (s : State) (home : Nat) (p : PartNo) (off n : Nat) : Got Nat × State :=
  let u := unitOf home off
  let lck := s.locks.any fun r => r.touches home p off n
  match (s.unit u).tlb.find? fun e => e.covers p off && (!lck || e.locked) with
  | some e => (.ok (e.pa + (off - e.base)), s.modUnit u fun x => x.fill e)
  | none =>
    if lck then (.fault .progLockmiss, s)
    else match s.walkRoot home p off with
      | .page base size pa =>
        (.ok (pa + (off - base)), s.modUnit u fun x => x.fill ⟨p, base, size, pa, false⟩)
      | .miss bad => (.fault .xlatMiss, if bad then s.orReg (.xstat (homeUnit home)) 1 else s)
      | .poison => (.fault .hwPoison, s)

/-! ### Peers (R394) -/

/-- The ports that lead to a peer. -/
def State.route (s : State) (n : Nat) : List Nat :=
  (List.range Config.ports).filter fun i => (s.reg (.vroute (BitVec.ofNat 6 n))).getLsbD i
/-- The port that a tile's request to a peer takes. -/
def State.portFor (s : State) (n t : Nat) : Option Nat :=
  let l := s.route n
  if l.isEmpty then none else l[t % l.length]?
def State.peerRouted (s : State) (n : Nat) : Bool :=
  (s.reg .pkgid).extractLsb' 0 6 != BitVec.ofNat 6 n && !(s.route n).isEmpty
def State.inRoster (s : State) (p : PartNo) (n : Nat) : Bool := (s.reg (.proster p)).getLsbD n

/-! ### Checks (R231, R259, R265, R307, R314) -/

/-- The gap of the scratchpad half (R66). -/
def inGap (h : W512) (off n : Nat) : Bool :=
  decide (hdrSpad h < 0x400000 - hdrStack h) && decide (hdrSpad h < off + n) && decide (off < 0x400000 - hdrStack h)

/-- The checks that the issuing tile makes: home and offset, the gap, host windows and the roster. -/
def State.tileCheck (s : State) (h : W512) (p : PartNo) (va : W64) (n : Nat) (wr atomic : Bool) : Option FaultName :=
  match spaceOf va with
  | .reserved => some .progAddr
  | .own off =>
    if atomic || decide (0x400000 < off + n) then some .progAddr
    else if inGap h off n then some .progResource
    else none
  | .shared _ _ => none
  | .half _ _ _ _ => if atomic then some .progAddr else none
  | .cell _ _ sub => if atomic || n != 8 || sub % 8 != 0 || sub == 24 then some .progAddr else none
  | .config => if atomic then some .progAddr else none
  | .drawer _ => if atomic then some .progAddr else none
  | .host off =>
    if atomic then some .progAddr
    else if wr && (s.part p).prot then some .isoWindow
    else if s.inWindow 0x20 p off n then none
    else some .isoWindow
  | .peer k _ => if !s.peerRouted k then some .progAddr else if s.inRoster p k then none else some .isoPeer

/-- The link of a drawer offset can take a request of partition p: UP, slots of the kinds owned, keys placed (R105, R109, R114,
R331). `whole` says that the request writes every byte of the block. -/
def State.linkReady (s : State) (p : PartNo) (va : W64) (wr whole : Bool) : Got Unit :=
  let l := s.link (linkOf (offBits va))
  if l.st = 2 then .fault .linkDown
  else if (if wr then s.linkWaitsWrite p va whole else s.linkWaits p va false) || (s.part p).keysDue ||
    l.queue.any (fun r => r.part == p) then .wait
  else .ok ()

/-- The checks at the home, and the place reached (R259 check 4, R307). `t` and `b` give the issuer's own half. A later element of a
vector access meets its host window or cell window here, after the elements before it (R164). -/
def State.homeAccept (s : State) (t b : Nat) (p : PartNo) (va : W64) (n : Nat) : Got Loc × State :=
  match spaceOf va with
  | .reserved => (.fault .progAddr, s)
  | .own off => (.ok (.mem (halfKey t b + off)), s)
  | .shared home off =>
    match s.translate home p off n with
    | (.ok pa, s) => if s.inWindow home p pa n then (.ok (.mem (homeKey home pa)), s) else (.fault .isoWindow, s)
    | (.fault f, s) => (.fault f, s)
    | (.wait, s) => (.wait, s)
  | .half home tile slot off =>
    if s.holder tile slot = some p then
      (if (s.slot tile slot).st = .clearing then (.wait, s) else (.ok (.mem (homeKey home off)), s))
    else (.fault .isoWindow, s)
  | .cell tile c sub =>
    if n ≠ 8 ∨ sub % 8 ≠ 0 ∨ sub = 24 then (.fault .progAddr, s)
    else if (s.cell tile c).ownedBy p then (.ok (.cell tile c sub), s) else (.fault .isoWindow, s)
  | .config => (.fault .isoWindow, s)
  | .drawer off =>
    match s.translate 0x10 p off n with
    | (.ok pa, s) => if s.inWindow 0x10 p pa n then (.ok (.mem (homeKey 0x10 pa)), s) else (.fault .isoWindow, s)
    | (.fault f, s) => (.fault f, s)
    | (.wait, s) => (.wait, s)
  | .host off => if s.inWindow 0x20 p off n then (.ok (.mem (homeKey 0x20 off)), s) else (.fault .isoWindow, s)
  | .peer _ _ => (.ok (.peer va), s)

/-! ### Protected drawer blocks (R315, R316) -/

def keyBytes (k : W256) : Bytes := bytesOf 32 k.toNat
/-- K1, K2, K3 by the number of the free key. -/
def drawerKey (n i : Nat) : Bytes := keyBytes (Config.freeKey (n + i))
/-- T = {ZeroExt(off[56:8], 124), partition}. -/
def blockTweak (p : PartNo) (off : Nat) : Bytes := bytesOf 16 (off / 256 * 16 + p.toNat)
def blockTag (n : Nat) (tweak c : Bytes) : BitVec 128 := BitVec.ofNat 128 (leNat (cmac (drawerKey n 2) (tweak ++ c)))

/-- The plaintext of the block at pa, or none when its tag fails; `fresh` takes a failing block as zeros. -/
def State.openBlock (s : State) (n : Nat) (p : PartNo) (off pa : Nat) : Option Bytes :=
  let c := s.readBytes (homeKey 0x10 (pa / 256 * 256)) 256
  let w := blockTweak p off
  if tget 0 s.dtags (pa / 256) = blockTag n w c then some (xtsOpen (drawerKey n 0) (drawerKey n 1) w c) else none

def State.sealBlock (s : State) (n : Nat) (p : PartNo) (off pa : Nat) (pt : Bytes) : State :=
  let w := blockTweak p off
  let c := xtsSeal (drawerKey n 0) (drawerKey n 1) w pt
  { s.writeBytes (homeKey 0x10 (pa / 256 * 256)) c with dtags := tput s.dtags (pa / 256) (blockTag n w c) }

/-- Bytes of a list replaced from a position on. -/
def splice (l : Bytes) (i : Nat) (bs : Bytes) : Bytes := l.take i ++ bs ++ l.drop (i + bs.length)

/-- A failed tag is counted (R316). -/
def State.countDauth (s : State) (p : PartNo) : State :=
  s.modPart p fun x => { x with dauth := if x.dauth = BitVec.allOnes 32 then x.dauth else x.dauth + 1 }

/-- n bytes read from the drawer at pa, whose virtual offset is off. -/
def State.drawerRead (s : State) (p : PartNo) (off pa n : Nat) : Got Nat × State :=
  match (s.part p).prot, (s.part p).keys with
  | true, some k =>
    match s.openBlock k p off pa with
    | some pt => (.ok (leNat ((pt.drop (pa % 256)).take n)), s)
    | none => (.fault .hwPoison, s.countDauth p)
  | _, _ =>
    if s.isPoisoned (homeKey 0x10 pa) n then (.fault .hwPoison, s) else (.ok (s.readMem (homeKey 0x10 pa) n), s)

/-- n bytes written to the drawer; `whole` says that the command writes every byte of the block (R109). -/
def State.drawerWrite (s : State) (p : PartNo) (off pa n v : Nat) (whole : Bool) : Got Unit × State :=
  match (s.part p).prot, (s.part p).keys with
  | true, some k =>
    match s.openBlock k p off pa, whole with
    | some pt, _ => (.ok (), s.sealBlock k p off pa (splice pt (pa % 256) (bytesOf n v)))
    | none, true => (.ok (), s.sealBlock k p off pa (splice (List.replicate 256 0) (pa % 256) (bytesOf n v)))
    | none, false => (.fault .hwPoison, s.countDauth p)
  | _, _ => (.ok (), s.writeMem (homeKey 0x10 pa) n v)

/-! ### Cells at a window (R234) -/

/-- What a store to a cell-window entry performs. -/
def windowStore (sub : Nat) (v : W32) : CellOp := if sub = 0 then .cset v else if sub = 8 then .sig v else .arrive

/-- A change of a cell (R89, R90). -/
def Cell.change (x : Cell) (o : CellOp) : Except FaultName Cell :=
  match o with
  | .sig v => x.sig v
  | .arrive => x.arrive
  | .cset v => x.cset v
  | .ccfg w => x.ccfg w
  | .cclr => .ok x.cclr
  | _ => .ok x

/-! ### Plain accesses performed at once (engines, dispatchers, fetches) -/

/-- A word that a peer returns: the next of the inbox, or a free value. -/
def State.peerWord (s : State) : W64 × State :=
  match s.inbox with
  | w :: r => (w, { s with inbox := r })
  | [] => s.freeWord

def State.peerWords (s : State) : Nat → Nat × State
  | 0 => (0, s)
  | n + 1 =>
    let (w, s) := s.peerWord
    let (r, s) := s.peerWords n
    (w.toNat + 2 ^ 64 * r, s)

/-- A read of n bytes, checked and performed at once for partition p; the link is checked last (R259). -/
def State.readNow (s : State) (h : W512) (t b : Nat) (p : PartNo) (va : W64) (n : Nat) : Got Nat × State :=
  match s.tileCheck h p va n false false with
  | some f => (.fault f, s)
  | none =>
    match s.homeAccept t b p va n with
    | (.fault f, s) => (.fault f, s)
    | (.wait, s) => (.wait, s)
    | (.ok (.mem k), s) =>
      match spaceOf va with
      | .drawer off =>
        match s.linkReady p va false false with
        | .fault f => (.fault f, s)
        | .wait => (.wait, s)
        | .ok () => s.drawerRead p off (k - homeKey 0x10 0) n
      | _ => if s.isPoisoned k n then (.fault .hwPoison, s) else (.ok (s.readMem k n), s)
    | (.ok (.cell tile c _), s) => (.ok (s.cell tile c).word.toNat, s)
    | (.ok (.peer _), s) => let (v, s) := s.peerWords ((n + 7) / 8); (.ok (v % 256 ^ n), s)

/-- A write of n bytes, checked and performed at once for partition p; the link is checked last (R259). -/
def State.writeNow (s : State) (h : W512) (t b : Nat) (p : PartNo) (va : W64) (n v : Nat) (whole : Bool) : Got Unit × State :=
  match s.tileCheck h p va n true false with
  | some f => (.fault f, s)
  | none =>
    match s.homeAccept t b p va n with
    | (.fault f, s) => (.fault f, s)
    | (.wait, s) => (.wait, s)
    | (.ok (.mem k), s) =>
      match spaceOf va with
      | .drawer off =>
        match s.linkReady p va true whole with
        | .fault f => (.fault f, s)
        | .wait => (.wait, s)
        | .ok () => s.drawerWrite p off (k - homeKey 0x10 0) n v whole
      | _ => (.ok (), s.writeMem k n v)
    | (.ok (.cell tile c sub), s) =>
      match (s.cell tile c).change (windowStore sub (BitVec.ofNat 32 v)) with
      | .ok x => (.ok (), s.putCell tile c x)
      | .error f => (.fault f, s)
    | (.ok (.peer _), s) => (.ok (), s)

/-! ### Weight space (R165, R236, R318, R322) -/

def regionNo (w : Nat) : Nat := w / 2 ^ 32 % 256 * 32 + w / 2 ^ 26 % 32
/-- Region 31 of tile 0 holds the LMS state (R321). -/
def lmsRegion : Nat := 31

/-- What a weight read of n bytes at a W-address finds when the port grants it (R322). -/
def State.weightRead (s : State) (p : PartNo) (w n : Nat) : Got Nat :=
  let g := s.region (regionNo w)
  if regionNo w = lmsRegion ∨ !g.v ∨ g.part ≠ p then .fault .isoWindow
  else if g.st ≠ .opened then .fault .progWregion
  else if (List.range ((w % 4096 + n + 4095) / 4096)).any fun i => g.bad.contains (w % 2 ^ 26 / 4096 + i) then .fault .hwPoison
  else .ok (s.readMem (weightKey w) n)

end Sys2Proof.Machine
end

