-- ==== Sys2Proof/Machine/Fetch.lean ====
section
/-! DEFINITION. Fetching a group (R42, R47, R84), the guard (R25), and what a core does next. -/

namespace Sys2Proof.Machine

/-- The word at an address as a slot's core fetches it: a captured body's own word, or a plain load (R47, R84). -/
def State.fetchWord (s : State) (t b : Nat) (va : W64) : Got W64 × State :=
  let x := s.slot t b
  let load := match s.readNow x.header t b x.part va 8 with
    | (.ok v, s) => (Got.ok (BitVec.ofNat 64 v), s)
    | (.fault f, s) => (.fault f, s)
    | (.wait, s) => (.wait, s)
  match x.loop with
  | some l =>
    match l.words[((va - l.start).toNat / 8)]? with
    | some w => (.ok w, s)
    | none => load
  | none => load

/-- The words of a group: prefixes until a word that is none, four at most; or the fault of a word's fetch, and its address. -/
def State.fetchWords (s : State) (t b : Nat) (va : W64) : Nat → Got (List W64) × State × W64
  | 0 => (.ok [], s, va)
  | n + 1 =>
    match s.fetchWord t b va with
    | (.ok w, s) =>
      if isPfx w then
        match s.fetchWords t b (va + 8) n with
        | (.ok ws, r) => (.ok (w :: ws), r)
        | (.fault f, r) => (.fault f, r)
        | (.wait, r) => (.wait, r)
      else (.ok [w], s, va)
    | (.fault f, s) => (.fault f, s, va)
    | (.wait, s) => (.wait, s, va)

/-- The issue registers of a group of words at pc. -/
def Slot.issuing (x : Slot) (ws : List W64) : Slot :=
  { x with ipc := x.pc + BitVec.ofNat 64 (8 * (ws.length - 1)), npc := x.pc + BitVec.ofNat 64 (8 * ws.length), gwords := ws }

/-- Whether a guard lets its group execute (R25). -/
def Slot.guardMet (x : Slot) (g : BitVec 4) : Bool :=
  if g = 0 then true
  else if g.toNat < 8 then x.getQ (g.extractLsb' 0 3)
  else !x.getQ (g.extractLsb' 0 3)

/-- What a core does next: execute an instruction in a state, or nothing but reach a state. -/
inductive NextUp where
  | run (i : Instr) (s : State)
  | idle (s : State)

/-- The next group of tile t's core: held, fetched, guarded off, or to be executed. -/
def nextGroup (t : Nat) (s : State) : NextUp :=
  let s := { s with cur := t }
  let b := s.run t
  if !s.canIssue then .idle (s.tick t 1)
  else
    match s.fetchWords t b s.core.pc 4 with
    | (.wait, s, _) => .idle (s.tick t 1)
    | (.fault f, s, va) =>
      .idle ((s.modCore fun x => { x with ipc := x.pc, gwords := [] }.trap f va 0).tick t 1)
    | (.ok ws, s, _) =>
      let s := s.modCore fun x => x.issuing ws
      match decodeGroup ws with
      | .error d => .run (.illegalWord d) s
      | .ok g => if s.core.guardMet g.guard then .run g.instr s else .idle ((s.modCore Slot.advance).tick t ws.length)

end Sys2Proof.Machine
end

