-- ==== Sys2Proof/Machine/CoreAccess.lean ====
section
/-! DEFINITION. Memory accesses of a control core: alignment, issue, what they write, releases and acquires, bank arithmetic
(R243–R249, R253, R259–R266, R161–R164, R146). -/

namespace Sys2Proof.Machine

def acquires : Ord → Bool
  | .acq => true
  | .ar => true
  | _ => false
def releases : Ord → Bool
  | .rel => true
  | .ar => true
  | _ => false

/-- A scalar load or store is aligned to its size, or lies in one aligned 64-byte block (R260). -/
def fitsBlock (va : W64) (n : Nat) : Bool := offBits va % n == 0 || decide (offBits va % 64 + n ≤ 64)

/-! ### Bank arithmetic (R264, R266, R130) -/

/-- BF16 add (R130). -/
def bf16Sum (a b : W64) : W64 := (bf16Add (a.extractLsb' 0 16) (b.extractLsb' 0 16)).setWidth 64

/-- The new value of an element of n bytes under the atomic of an OP of unit 3; `cmp` is the value ACAS compares with. -/
def bankOp (op n : Nat) (old v cmp : W64) : W64 :=
  let w := n * 8
  let sx := fun (a : W64) => if n = 4 then ((a.extractLsb' 0 32).toInt) else a.toInt
  let r : W64 := match op with
    | 0x03 => old + v
    | 0x04 => old &&& v
    | 0x05 => old ||| v
    | 0x06 => old ^^^ v
    | 0x07 => if sx v < sx old then v else old
    | 0x08 => if sx old < sx v then v else old
    | 0x09 => if v.toNat % 2 ^ w < old.toNat % 2 ^ w then v else old
    | 0x0A => if old.toNat % 2 ^ w < v.toNat % 2 ^ w then v else old
    | 0x0B => if n = 2 then bf16Sum old v else (f32Add .rne (old.extractLsb' 0 32) (v.extractLsb' 0 32)).setWidth 64
    | 0x0C => (f32Min (old.extractLsb' 0 32) (v.extractLsb' 0 32)).setWidth 64
    | 0x0D => (f32Max (old.extractLsb' 0 32) (v.extractLsb' 0 32)).setWidth 64
    | 0x0E => v
    | _ => if old.toNat % 2 ^ w = cmp.toNat % 2 ^ w then v else old
  r &&& BitVec.ofNat 64 (2 ^ w - 1)

/-! ### What a completed load writes (R162, R262, R263, R146) -/

/-- A memory element of a type as a lane (R162). -/
def laneIn (ty : Ty) (x : Nat) : W32 :=
  match ty with
  | .f32 => BitVec.ofNat 32 x
  | .i32 => BitVec.ofNat 32 x
  | .i8 => (BitVec.ofNat 8 x).signExtend 32
  | .ui8 => (BitVec.ofNat 8 x).setWidth 32
  | .i4 => (BitVec.ofNat 4 x).signExtend 32
  | _ => convert .f32 ty .rne (BitVec.ofNat 32 x)

def nibbles : Ty → Bool
  | .i4 => true
  | .f4 => true
  | .mxf4 => true
  | _ => false

/-- The element that fills lane e, and the lane's value in it. -/
def laneOf (ty : Ty) (es : List Elem) (e : Nat) : Option W32 :=
  if nibbles ty then
    (es.find? fun x => x.lane == e / 2 * 2).map fun x => laneIn ty (x.data.toNat / 16 ^ (e % 2) % 16)
  else (es.find? fun x => x.lane == e).map fun x => laneIn ty x.data.toNat

/-- Sign or zero extension of n bytes (R262). -/
def extendTo (sgn : Bool) (n : Nat) (v : W256) : W64 :=
  if sgn then
    match n with
    | 1 => (v.extractLsb' 0 8).signExtend 64
    | 2 => (v.extractLsb' 0 16).signExtend 64
    | 4 => (v.extractLsb' 0 32).signExtend 64
    | _ => v.extractLsb' 0 64
  else BitVec.ofNat 64 (v.toNat % 256 ^ n)

/-- A load's destination written with the data of its elements. -/
def Slot.finish (x : Slot) (op : AccOp) (size : Nat) (es : List Elem) : Slot :=
  let first := (es.head?.map Elem.data).getD 0
  match op with
  | .load sgn sd => x.setS sd (extendTo sgn size first)
  | .atomic _ f sd _ => if f then x.setS sd (extendTo false size first) else x
  | .hload hd => x.setH hd first
  | .vload ty vd row =>
    let old : Lanes := tget [] x.v vd
    let new := match row with
      | none => Lanes.ofFn fun e => (laneOf ty es e).getD 0
      | some r => Lanes.ofFn fun e => if e / 64 = r then (laneOf ty es e).getD 0 else old.get e
    { x with v := tput x.v vd new }
  | _ => x

/-! ### Order (R243, R247, R249, R261) -/

def Elem.overlaps (a b : Elem) (n m : Nat) : Bool :=
  decide (a.va.toNat < b.va.toNat + m) && decide (b.va.toNat < a.va.toNat + n)

/-- Regions bound to a cell (R247). -/
def State.boundTo (s : State) (p : PartNo) (t c : Nat) : List RegionEntry :=
  (s.part p).regions.filter fun r => r.tile == t && r.cell == c
def RegionEntry.holds (r : RegionEntry) (va : W64) : Bool :=
  decide (r.base.toNat ≤ va.toNat) && decide (va.toNat < r.base.toNat + r.size.toNat)

/-- Accesses of the core that are not performed. -/
def Access.pending (a : Access) : Bool := !(a.elems.all Elem.done)

/-- An earlier access stands in the scope of a release on a cell: one without bound regions covers every access. -/
def State.releaseWaits (s : State) (t b : Nat) (cell : Option (Nat × Nat)) : Bool :=
  let x := s.slot t b
  let rs := match cell with
    | some (ct, c) => s.boundTo x.part ct c
    | none => []
  x.accs.any fun a => a.pending && (rs.isEmpty || a.elems.any fun e => !e.done && rs.any fun r => r.holds e.va)

/-- The cell whose regions bound the scope of a release at an address (R262). -/
def windowCell (va : W64) : Option (Nat × Nat) :=
  match spaceOf va with
  | .cell t c _ => some (t, c)
  | _ => none

/-- At most 16 accepted accesses that are not performed, and 16 loads whose data is not written (R261). -/
def Slot.accessRoom (x : Slot) : Bool :=
  decide ((x.accs.filter Access.pending).length < 16) && decide ((x.accs.filter fun a => !a.op.writes).length < 16)

/-! ### Making an access -/

def isOwn (va : W64) : Bool := homeBits va == 0

/-- One element of an access to the core's own half performed (R261). -/
def State.ownElem (s : State) (n : Nat) (wr : Bool) (e : Elem) : Elem × State :=
  let k := halfKey s.cur (s.run s.cur) + offBits e.va
  if wr then ({ e with done := true }, s.writeMem k n e.data.toNat)
  else ({ e with data := BitVec.ofNat 256 (s.readMem k n), done := true, poisoned := s.isPoisoned k n }, s)

def State.ownElems (s : State) (n : Nat) (wr : Bool) : List Elem → List Elem × State
  | [] => ([], s)
  | e :: r =>
    let (e, s) := s.ownElem n wr e
    let (r, s) := s.ownElems n wr r
    (e :: r, s)

/-- An access that passed its checks at the tile. One of home 0x00 is performed at once; any other is handed over, and the core
is held until its home replies (R261). It waits at issue while there is no room, or while a release must wait (R262). -/
def State.makeAccess (s : State) (op : AccOp) (n : Nat) (ord : Ord) (es : List Elem) : Res :=
  let x := s.core
  let va := (es.head?.map Elem.va).getD 0
  if !x.accessRoom || (releases ord && s.releaseWaits s.cur (s.run s.cur) (windowCell va)) then .hold s
  else if isOwn va then
    let (es, s') := s.ownElems n op.writes es
    match es.find? Elem.poisoned with
    | some e => .trap .hwPoison e.va (BitVec.ofNat 64 e.lane)
    | none => .done (s'.modCore fun x => x.finish op n es) 0
  else
    let (k, s) := s.newNum
    .hold (s.modCore fun x => { x with
      hold := .reply
      accs := x.accs ++ [{ num := k, op := op, size := n, ord := ord, elems := es, words := x.gwords, ip := x.ipc, resume := x.pc }] })

/-- A scalar access: alignment, then the tile's checks (R259). -/
def scalarAccess (op : AccOp) (atomic : Bool) (n : Nat) (ord : Ord) (va : W64) (data : W256) (s : State) : Res :=
  let x := s.core
  let cell := (windowCell va).isSome && !atomic
  if !cell && (if atomic then offBits va % n != 0 else !fitsBlock va n) then .trap .progAlign va 0
  else match s.tileCheck x.header x.part va n op.writes atomic with
    | some f => .trap f va 0
    | none => s.makeAccess op n ord [{ lane := 0, va := va, data := data }]

/-! ### Acceptance and performance at the home -/

/-- Elements accepted at their home, or the first that is not, with those before it. -/
def State.acceptElems (s : State) (t b : Nat) (p : PartNo) (n : Nat) : List Elem → Got (List Elem) × List Elem × Elem × State
  | [] => (.ok [], [], default, s)
  | e :: r =>
    match s.homeAccept t b p e.va n with
    | (.ok l, s) =>
      let e := { e with loc := some l }
      match s.acceptElems t b p n r with
      | (.ok es, pre, bad, s) => (.ok (e :: es), e :: pre, bad, s)
      | (.fault f, pre, bad, s) => (.fault f, e :: pre, bad, s)
      | (.wait, pre, bad, s) => (.wait, e :: pre, bad, s)
    | (.fault f, s) => (.fault f, [], e, s)
    | (.wait, s) => (.wait, [], e, s)

/-- An accepted element performed at its place: a store writes, a load reads, an atomic does both (R240, R253). -/
def State.performElem (s : State) (op : AccOp) (n : Nat) (e : Elem) : Elem × State :=
  match e.loc with
  | some (.mem k) =>
    match op with
    | .atomic o _ _ cmp =>
      let old : W64 := BitVec.ofNat 64 (s.readMem k n)
      let new := bankOp o n old (e.data.extractLsb' 0 64) cmp
      ({ e with data := old.setWidth 256, done := true, poisoned := s.isPoisoned k n },
        if s.isPoisoned k n then s else s.writeMem k n new.toNat)
    | _ =>
      if op.writes then ({ e with done := true }, s.writeMem k n e.data.toNat)
      else ({ e with data := BitVec.ofNat 256 (s.readMem k n), done := true, poisoned := s.isPoisoned k n }, s)
  | _ => ({ e with done := true }, s)

def State.performElems (s : State) (op : AccOp) (n : Nat) : List Elem → List Elem × State
  | [] => ([], s)
  | e :: r =>
    let (e, s) := if e.done then (e, s) else s.performElem op n e
    let (r, s) := s.performElems op n r
    (e :: r, s)

/-- Element n of access i may be performed: no element of an earlier access, and no lower element of its own, that touches the
same addresses is still to be performed (R243). -/
def mayPerform (accs : List Access) (i n : Nat) : Bool :=
  match accs[i]? with
  | none => false
  | some a =>
    match a.elems[n]? with
    | none => false
    | some e =>
      a.accepted && !e.done && e.loc.isSome &&
      ((accs.take i).all fun b => b.elems.all fun f => f.done || !f.overlaps e b.size a.size) &&
      ((a.elems.take n).all fun f => f.done || !f.overlaps e a.size a.size)

/-- A completed access leaves the list; a core that waits for its performance goes on (R262). -/
def Slot.closeAccess (x : Slot) (i : Nat) : Slot :=
  let last := decide (i + 1 = x.accs.length)
  let x := { x with accs := x.accs.eraseIdx i }
  match x.hold with
  | .perf => if last then x.release else x
  | _ => x

/-- The error of a load whose data arrives poisoned (R259, R370). -/
def Access.poisonFault (a : Access) (resume : W64) : Option FaultInfo :=
  (a.elems.find? Elem.poisoned).map fun e =>
    { name := .hwPoison, src := 0, addr := e.va, detail := BitVec.ofNat 64 e.lane, ip := a.ip, words := a.words, resume := resume }

/-- Access i complete: a load's data is written, or its poison consumed. -/
def Slot.completeAccess (x : Slot) (i : Nat) : Slot :=
  match x.accs[i]? with
  | none => x
  | some a =>
    match a.poisonFault x.pc with
    | some f => if x.stopsForGood then x else { x with accs := x.accs.eraseIdx i }.takeFault f
    | none => (x.finish a.op a.size a.elems).closeAccess i

end Sys2Proof.Machine
end

