-- ==== Sys2Proof/Machine/Cells.lean ====
section
/-! DEFINITION. Cell instructions of unit 4 and the events of cells (R88–R94, R234, R244, R247). -/

namespace Sys2Proof.Machine

/-- Window address of a cell (R234). -/
def cellAddr (t c : Nat) : W64 := mkAddr (homeOf t) (0x30000000 + localOf t * 0x10000 + c * 32)

/-- The cell that an SI-C operand names: an own one, or the one whose window address a scalar holds, in this package or in a
peer that resolves it (R29, R93); or the fault of an address that names none. -/
inductive CellAt where
  | own (c : Nat)
  | far (t c : Nat)
  | peer (addr : W64)
  | noCell (f : FaultName) (addr : W64)

def State.cellAt (s : State) (x : Slot) : CellRef → CellAt
  | .own c => .own c.toNat
  | .remote sb =>
    let a := x.getS sb
    match spaceOf a with
    | .cell t c sub => if sub = 0 then .far t c else .noCell .progAddr a
    | .peer n off =>
      if !s.peerRouted n || off % 32 != 0 then .noCell .progAddr a
      else if s.inRoster x.part n then .peer a else .noCell .isoPeer a
    | _ => .noCell .progAddr a

/-- A remote operation begins: a request leaves for the cell's tile, or for a peer, and the core is held for the reply (R93, R94). -/
def sendRemote (s : State) (t c : Nat) (peer : Option W64) (op : CellOp) (once : Bool) (sd : SReg) (limit : Option Nat) : Res :=
  let (id, s) := s.newNum
  let b := s.run s.cur
  let m : Remote := { id := id, tile := s.cur, slot := b, part := s.core.part, target := t, cell := c, op := op, once := once,
                      st := .sent, cancel := false, peer := peer }
  .hold ({ s with remotes := s.remotes ++ [m] }.modCore fun x => { x with hold := .remote id sd limit })

/-- A change of a cell by SIG, ARRIVE, CSET, CCFG or CCLR. A release waits at issue for the accesses in its scope (R247). -/
def changeCell (op : CellOp) (o : Ord) (c : CellRef) (s : State) : Res :=
  let go := fun (t n : Nat) (k : Res) => if releases o && s.releaseWaits s.cur (s.run s.cur) (some (t, n)) then .hold s else k
  match s.cellAt s.core c with
  | .noCell f a => .trap f a 0
  | .far t n => go t n (sendRemote s t n none op false 0 none)
  | .peer a => if releases o && s.releaseWaits s.cur (s.run s.cur) none then .hold s else sendRemote s 0 0 (some a) op false 0 none
  | .own n => go s.cur n (
      let x := s.cell s.cur n
      if !x.ownedBy s.core.part then .trap .isoWindow (cellAddr s.cur n) 0
      else match x.change op with
        | .ok y => .done (s.putCell s.cur n y) 0
        | .error f => .trap f (cellAddr s.cur n) x.detail)

def execSig (o : Ord) (c : CellRef) (v : W32) (s : State) := issue (.sig o c v) s (changeCell (.sig v) o c)
def execArrive (o : Ord) (c : CellRef) (s : State) := issue (.arrive o c) s (changeCell .arrive o c)
def execCset (o : Ord) (c : CellRef) (v : W32) (s : State) := issue (.cset o c v) s (changeCell (.cset v) o c)
def execCcfg (sa : SReg) (c : CellRef) (s : State) :=
  issue (.ccfg sa c) s fun s => changeCell (.ccfg (s.core.getS sa)) .plain c s
def execCclr (c : CellRef) (s : State) := issue (.cclr c) s (changeCell .cclr .plain c)

/-- CRD: the word as it stands after the takes of the cycle (R89, R92). -/
def readCell (sd : SReg) (c : CellRef) (s : State) : Res :=
  match s.cellAt s.core c with
  | .noCell f a => .trap f a 0
  | .far t n => sendRemote s t n none .crd false sd none
  | .peer a => sendRemote s 0 0 (some a) .crd false sd none
  | .own n =>
    if !(s.cell s.cur n).ownedBy s.core.part then .trap .isoWindow (cellAddr s.cur n) 0
    else
      let s := s.settleIf s.cur (· == n)
      .done (s.modCore fun x => x.setS sd (s.cell s.cur n).word) 0

def execCrd (o : Ord) (sd : SReg) (c : CellRef) (s : State) := issue (.crd o sd c) s (readCell sd c)

/-- The limit of WAIT and TAKE: none for s0, else s[sa] running cycles after the issue cycle (R91). -/
def limitOf (x : Slot) (lim : SReg) : Option Nat := if lim = 0 then none else some (x.getS lim).toNat

/-- WAIT and TAKE: the core waits on a cell (R91, R94). -/
def waitCell (op : CellOp) (need : Need) (sd lim : SReg) (c : CellRef) (s : State) : Res :=
  let limit := limitOf s.core lim
  match s.cellAt s.core c with
  | .noCell f a => .trap f a 0
  | .far t n => sendRemote s t n none op (limit == some 0) sd (limit.map (· + s.words))
  | .peer a => sendRemote s 0 0 (some a) op (limit == some 0) sd (limit.map (· + s.words))
  | .own n =>
    let x := s.cell s.cur n
    if !x.ownedBy s.core.part then .trap .isoWindow (cellAddr s.cur n) 0
    else if !need.isTest && x.mode = 2 then .trap .progCellmode (cellAddr s.cur n) x.detail
    else
      let w : Waiter := { who := .core (s.run s.cur), cell := n, need := need, since := (s.tile s.cur).cyc }
      .hold ((s.addWaiter s.cur w).modCore fun x => { x with hold := .wait sd (limit.map (· + s.words)) })

def execWait (t : Test) (o : Ord) (sd lim : SReg) (c : CellRef) (v : W32) (s : State) :=
  issue (.wait t o sd lim c v) s (waitCell (.wait t v) (.test t v) sd lim c)
def execTake (o : Ord) (sd lim : SReg) (c : CellRef) (v : W32) (s : State) :=
  issue (.take o sd lim c v) s (waitCell (.take v) (.take v) sd lim c)

/-- TRYTAKE: one evaluation, after every older waiter's (R91, R92). -/
def tryTakeCell (sd : SReg) (c : CellRef) (v : W32) (s : State) : Res :=
  match s.cellAt s.core c with
  | .noCell f a => .trap f a 0
  | .far t n => sendRemote s t n none (.tryTake v) true sd none
  | .peer a => sendRemote s 0 0 (some a) (.tryTake v) true sd none
  | .own n =>
    let x := s.cell s.cur n
    if !x.ownedBy s.core.part then .trap .isoWindow (cellAddr s.cur n) 0
    else if x.mode = 2 then .trap .progCellmode (cellAddr s.cur n) x.detail
    else
      let s := s.settleIf s.cur (· == n)
      match (s.cell s.cur n).take v with
      | some y => .done ((s.putCell s.cur n y).modCore fun x => x.setS sd 1) 0
      | none => .done (s.modCore fun x => x.setS sd 0) 0

def execTrytake (o : Ord) (sd : SReg) (c : CellRef) (v : W32) (s : State) :=
  issue (.trytake o sd c v) s (tryTakeCell sd c v)

/-! ### Events -/

/-- The waiters of one cell are evaluated (R92). -/
def execCellWaiterSatisfied (t : Nat) (c : CellNo) (s : State) : Host.Outcome State Fault Refusal :=
  .next (s.settleIf t (· == c.toNat))

def setCancel (id : Nat) (l : List Remote) : List Remote := l.map fun m => if m.id = id then { m with cancel := true } else m

/-- A wait limit passes: a local wait ends with 1; a remote one sends its cancel (R91, R94). -/
def execWaitLimitExpiry (t : Nat) (s : State) : Host.Outcome State Fault Refusal :=
  let b := s.run t
  match (s.slot t b).hold with
  | .wait sd (some 0) => .next ((s.dropWaiter t (.core b)).modSlot t b fun x => (x.setS sd 1).release)
  | .remote id _ (some 0) => .next { s with remotes := setCancel id s.remotes }
  | _ => .next s

/-- A request reaches its cell's tile: resolved, or kept as a waiter; or a cancel reaches it behind the request. One that is tested
once only is answered by that test (R92–R94). -/
def resolveRemote (m : Remote) (s : State) : State :=
  let x := s.cell m.target m.cell
  if m.peer.isSome then s
  else match m.st with
  | .replied _ _ _ => s
  | .pending => if m.cancel && !m.once then (s.dropWaiter m.target (.remote m.id)).answerRemote m.id false else s
  | .sent =>
    if !x.ownedBy m.part then s.replyRemote m.id (.replied (some .isoWindow) 0 0)
    else
      let waits := fun (need : Need) =>
        let w : Waiter := { who := .remote m.id, cell := m.cell, need := need, since := (s.tile m.target).cyc, once := m.once }
        (s.addWaiter m.target w).replyRemote m.id .pending
      match m.op with
      | .wait t v => waits (.test t v)
      | .take v => if x.mode = 2 then s.replyRemote m.id (.replied (some .progCellmode) 0 x.detail) else waits (.take v)
      | .tryTake v => if x.mode = 2 then s.replyRemote m.id (.replied (some .progCellmode) 0 x.detail) else waits (.take v)
      | .crd =>
        let s := s.settleIf m.target (· == m.cell)
        s.replyRemote m.id (.replied none (s.cell m.target m.cell).word 0)
      | op =>
        match x.change op with
        | .ok y => (s.putCell m.target m.cell y).replyRemote m.id (.replied none 0 0)
        | .error f => s.replyRemote m.id (.replied (some f) 0 x.detail)

def execRemoteCellRequest (i : Nat) (s : State) : Host.Outcome State Fault Refusal :=
  match s.remotes[i]? with
  | some m => .next (resolveRemote m s)
  | none => .next s

/-- What a reply does to the slot held for it: a fault is precise, a value is written; a wait abandoned by a stop has no
effect (R93, R94). -/
def Slot.takeReply (x : Slot) (m : Remote) (fault : Option FaultName) (v d : W64) : Slot :=
  match x.hold with
  | .remote id sd _ =>
    if id ≠ m.id then x
    else match fault with
      | some f => x.trap f (m.peer.getD (cellAddr m.target m.cell)) d
      | none =>
        if x.st != .busy && m.op.waits && v != waitReport m.op true then { x with hold := .none }
        else (x.setS sd v).release
  | _ => x

def execRemoteCellReply (i : Nat) (s : State) : Host.Outcome State Fault Refusal :=
  match s.remotes[i]? with
  | some m =>
    match m.st with
    | .replied f v d =>
      let s := { s with remotes := s.remotes.eraseIdx i }
      match m.origin with
      | some r => .next { s with peerReplies := (r, f, v.setWidth 256) :: s.peerReplies }
      | none => .next (s.modSlot m.tile m.slot fun x => x.takeReply m f v d)
    | _ => .next s
  | none => .next s

/-- The access of a core held on a cell window is performed there and answered (R234, R250). -/
def execCellWindowAccess (t : Nat) (s : State) : Host.Outcome State Fault Refusal :=
  let b := s.run t
  let x := s.slot t b
  let drop := fun (y : Slot) => { y with accs := y.accs.dropLast }
  match x.hold, x.accs.getLast? with
  | .reply, some a =>
    match a.elems with
    | [e] =>
      match spaceOf e.va with
      | .cell ct c sub =>
        let y := s.cell ct c
        if !y.ownedBy x.part then .next (s.modSlot t b fun x => (drop x).trap .isoWindow e.va 0)
        else if a.op.writes then
          match y.change (windowStore sub (e.data.extractLsb' 0 32)) with
          | .ok z => .next ((s.putCell ct c z).modSlot t b fun x => (drop x).release)
          | .error f => .next (s.modSlot t b fun x => (drop x).trap f e.va y.detail)
        else
          let s := s.settleIf ct (· == c)
          let v := (s.cell ct c).word
          .next (s.modSlot t b fun x => ((drop x).finish a.op a.size [{ e with data := v.setWidth 256 }]).release)
      | _ => .next s
    | _ => .next s
  | _, _ => .next s

end Sys2Proof.Machine
end

