-- ==== Sys2Proof/Machine/Engines.lean ====
section
/-! DEFINITION. The matrix and copy queues of a slot: issue, waits, signals, faults (R16, R95, R135, R251, R352, R366, R369). -/

namespace Sys2Proof.Machine

/-- A slot's matrix queue (m) or copy queue. -/
def Slot.queue (x : Slot) (m : Bool) : List Cmd := if m then x.mq else x.cq
def Slot.putQueue (x : Slot) (m : Bool) (q : List Cmd) : Slot := if m then { x with mq := q } else { x with cq := q }
def Slot.modCmd (x : Slot) (m : Bool) (n : Nat) (f : Cmd → Cmd) : Slot :=
  x.putQueue m ((x.queue m).map fun c => if c.num = n then f c else c)
def State.modCmd (s : State) (t b : Nat) (m : Bool) (n : Nat) (f : Cmd → Cmd) : State := s.modSlot t b fun x => x.modCmd m n f

def Cmd.eng (c : Cmd) : Eng := (c.instr.eng?).getD ⟨none, none, false⟩
def whoOf (m : Bool) (b : Nat) : Who := if m then .matrix b else .copy b

/-- The fault of a command (R355, R356). -/
def Cmd.fault (c : Cmd) (m : Bool) (n : FaultName) (addr detail : W64) : FaultInfo :=
  { name := n, src := if m then 1 else 2, addr := addr, detail := detail, prog := c.progress, ip := c.addr, words := c.words }

/-- A command faults: its queue and its context stop; a fault during another's stop stays pending (R95, R352). -/
def State.engineFault (s : State) (t b : Nat) (m : Bool) (c : Cmd) (n : FaultName) (addr detail : W64) : State :=
  let f := c.fault m n addr detail
  s.modSlot t b fun x => (x.modCmd m c.num fun y => { y with fpend := some f }).faults f

/-- The first command that has not started stands at the head, and its wait is examined (R95). -/
def State.arm (s : State) (t b : Nat) (m : Bool) : State :=
  match ((s.slot t b).queue m).find? fun c => !c.started with
  | none => s
  | some c =>
    if c.wtaken || c.fpend.isSome || (s.tile t).waiters.any (fun w => w.who == whoOf m b) then s
    else match c.eng.wait with
      | none => s.modCmd t b m c.num fun y => { y with wtaken := true }
      | some (n, wa) =>
        if !(s.cell t n.toNat).ownedBy (s.slot t b).part then s.engineFault t b m c .isoWindow (cellAddr t n.toNat) 0
        else s.addWaiter t { who := whoOf m b, cell := n.toNat, need := .eng (wa.setWidth 32), since := (s.tile t).cyc }

/-- A command enters its queue; the core is held while the queue is full (R16). -/
def enqueue (m : Bool) (mk : Cmd → Cmd) (i : Instr) (s : State) : Res :=
  let x := s.core
  if Config.queueDepth ≤ (x.queue m).length then .hold s
  else
    let (n, s) := s.newNum
    let e := (i.eng?).getD ⟨none, none, false⟩
    let c : Cmd := { instr := i, words := x.gwords, addr := x.ipc, num := n, wtaken := e.wait.isNone,
                     phased := x.phase.isSome, held := e.hold && x.phase.isSome }
    let s := s.modCore fun x => x.putQueue m (x.queue m ++ [mk c])
    .done (s.arm s.cur (s.run s.cur) m) 0

/-- A completed command leaves its queue. -/
def State.popCmd (s : State) (t b : Nat) (m : Bool) (n : Nat) : State :=
  (s.modSlot t b fun x => x.putQueue m ((x.queue m).filter fun c => c.num != n)).arm t b m

/-- A command at its completion point sends its signal, or keeps it due when the cell refuses it (R90, R95). -/
def State.finishCmd (s : State) (t b : Nat) (m : Bool) (c : Cmd) : State :=
  match c.eng.sig with
  | none => s.popCmd t b m c.num
  | some (n, sa) =>
    let y := s.cell t n.toNat
    let due := { c with sigdue := true }
    let s' := s.modCmd t b m c.num fun _ => due
    if !y.ownedBy (s.slot t b).part then s'.engineFault t b m due .isoWindow (cellAddr t n.toNat) 0
    else match y.sig (sa.setWidth 32) with
      | .ok z => (s.putCell t n.toNat z).popCmd t b m c.num
      | .error f => s'.engineFault t b m due f (cellAddr t n.toNat) y.detail

/-- A slot's engines work: it is the running slot, with a task that does not stop. -/
def State.enginesRun (s : State) (t b : Nat) : Bool :=
  !(s.tile t).idle && s.run t == b && (s.slot t b).st == .busy && (s.slot t b).task.isSome

/-- Every access that the core made before it issued the command is performed (R251). -/
def Slot.pushReleased (x : Slot) (c : Cmd) : Bool := x.accs.all fun a => !decide (a.num < c.num) || !a.pending

/-- Pending faults of the commands of a context that runs again, and the heads of its queues (R352). -/
def State.resumeEngines (s : State) (t b : Nat) : State :=
  let x := s.slot t b
  match (x.mq ++ x.cq).findSome? fun c => c.fpend with
  | some f => s.modSlot t b fun x => x.faults f
  | none => (s.arm t b true).arm t b false

/-- The fault that caused a stop is no longer pending in its command. -/
def Slot.clearPending (x : Slot) (f : FaultInfo) : Slot :=
  let go := fun (q : List Cmd) => q.map fun (c : Cmd) => if c.fpend = some f then { c with fpend := none } else c
  { x with mq := go x.mq, cq := go x.cq }

end Sys2Proof.Machine
end

