-- ==== Sys2Proof/Machine/ScalarMemory.lean ====
section
/-! DEFINITION. Unit 3: loads, stores and bank atomics (R259–R266). -/

namespace Sys2Proof.Machine

/-- EA = s[base] + D (R259). -/
def effective (x : Slot) (base : SReg) (disp : W64) : W64 := x.getS base + disp

def loadFrom (sgn : Bool) (z : Size) (o : Ord) (sd base : SReg) (disp : W64) (s : State) : Res :=
  scalarAccess (.load sgn sd) false (sizeBytes z) o (effective s.core base disp) 0 s

def execLd (z : Size) (o : Ord) (sd base : SReg) (disp : W64) (s : State) :=
  issue (.ld z o sd base disp) s (loadFrom false z o sd base disp)
def execLds (z : Size) (o : Ord) (sd base : SReg) (disp : W64) (s : State) :=
  issue (.lds z o sd base disp) s (loadFrom true z o sd base disp)
def execSt (z : Size) (o : Ord) (sd base : SReg) (disp : W64) (s : State) :=
  issue (.st z o sd base disp) s fun s =>
    scalarAccess .store false (sizeBytes z) o (effective s.core base disp) ((s.core.getS sd).setWidth 256) s

/-- A bank atomic by its OP: the operand is s[sd], and for ACAS the value compared with is s[sd] and the operand s[sd + 1]
(R263, R266). -/
def atomicAt (op : Nat) (z : Size) (o : Ord) (f : Bool) (sd base : SReg) (disp : W64) (s : State) : Res :=
  let v := if op = 0x0F then s.core.getS (sd + 1) else s.core.getS sd
  scalarAccess (.atomic op f sd (s.core.getS sd)) true (sizeBytes z) o (effective s.core base disp) (v.setWidth 256) s

def execAadd (z : Size) (o : Ord) (f : Bool) (sd b : SReg) (d : W64) (s : State) :=
  issue (.aadd z o f sd b d) s (atomicAt 0x03 z o f sd b d)
def execAand (z : Size) (o : Ord) (f : Bool) (sd b : SReg) (d : W64) (s : State) :=
  issue (.aand z o f sd b d) s (atomicAt 0x04 z o f sd b d)
def execAor (z : Size) (o : Ord) (f : Bool) (sd b : SReg) (d : W64) (s : State) :=
  issue (.aor z o f sd b d) s (atomicAt 0x05 z o f sd b d)
def execAxor (z : Size) (o : Ord) (f : Bool) (sd b : SReg) (d : W64) (s : State) :=
  issue (.axor z o f sd b d) s (atomicAt 0x06 z o f sd b d)
def execAmin (z : Size) (o : Ord) (f : Bool) (sd b : SReg) (d : W64) (s : State) :=
  issue (.amin z o f sd b d) s (atomicAt 0x07 z o f sd b d)
def execAmax (z : Size) (o : Ord) (f : Bool) (sd b : SReg) (d : W64) (s : State) :=
  issue (.amax z o f sd b d) s (atomicAt 0x08 z o f sd b d)
def execAminu (z : Size) (o : Ord) (f : Bool) (sd b : SReg) (d : W64) (s : State) :=
  issue (.aminu z o f sd b d) s (atomicAt 0x09 z o f sd b d)
def execAmaxu (z : Size) (o : Ord) (f : Bool) (sd b : SReg) (d : W64) (s : State) :=
  issue (.amaxu z o f sd b d) s (atomicAt 0x0A z o f sd b d)
def execAfadd (z : Size) (o : Ord) (f : Bool) (sd b : SReg) (d : W64) (s : State) :=
  issue (.afadd z o f sd b d) s (atomicAt 0x0B z o f sd b d)
def execAfmin (z : Size) (o : Ord) (f : Bool) (sd b : SReg) (d : W64) (s : State) :=
  issue (.afmin z o f sd b d) s (atomicAt 0x0C z o f sd b d)
def execAfmax (z : Size) (o : Ord) (f : Bool) (sd b : SReg) (d : W64) (s : State) :=
  issue (.afmax z o f sd b d) s (atomicAt 0x0D z o f sd b d)
def execAswp (z : Size) (o : Ord) (f : Bool) (sd b : SReg) (d : W64) (s : State) :=
  issue (.aswp z o f sd b d) s (atomicAt 0x0E z o f sd b d)
def execAcas (z : Size) (o : Ord) (f : Bool) (sd b : SReg) (d : W64) (s : State) :=
  issue (.acas z o f sd b d) s (atomicAt 0x0F z o f sd b d)

end Sys2Proof.Machine
end

