-- ==== Sys2Proof/Machine/Handles.lean ====
section
/-! DEFINITION. Unit 5: handles and the configuration of tile registers (R143–R146, R185). -/

namespace Sys2Proof.Machine

/-- HLD and HST: one access of 32 aligned bytes, with the checks of a plain one (R146). -/
def handleAccess (op : AccOp) (va : W64) (data : W256) (s : State) : Res :=
  if offBits va % 32 ≠ 0 then .trap .progAlign va 0
  else match s.tileCheck s.core.header s.core.part va 32 op.writes false with
    | some f => .trap f va 0
    | none => s.makeAccess op 32 .plain [{ lane := 0, va := va, data := data }]

def execHld (hd : HReg) (sa : SReg) (disp : W64) (s : State) :=
  issue (.hld hd sa disp) s fun s => handleAccess (.hload hd) (s.core.getS sa + disp) 0 s
def execHst (ha : HReg) (sa : SReg) (disp : W64) (s : State) :=
  issue (.hst ha sa disp) s fun s => handleAccess .hstore (s.core.getS sa + disp) (s.core.getH ha) s

def execHmov (hd ha : HReg) (s : State) := issue (.hmov hd ha) s (onCore fun x => x.setH hd (x.getH ha))
def execHsetb (hd ha : HReg) (sa : SReg) (s : State) :=
  issue (.hsetb hd ha sa) s (onCore fun x => x.setH hd (hPut (x.getH ha) 0 64 (x.getS sa).toNat))

/-- A handle computed from ha and a scalar, or PROG.BOUNDS (R146). -/
def handleSet (f : W256 → W64 → Option W256) (hd ha : HReg) (sa : SReg) (s : State) : Res :=
  match f (s.core.getH ha) (s.core.getS sa) with
  | some h => .done (s.modCore fun x => x.setH hd h) 0
  | none => .trap .progBounds 0 0

def setExtent (d : Nat) (h : W256) (v : W64) : Option W256 :=
  if 1 ≤ v.toNat ∧ v.toNat ≤ 4096 then some (hPut h (64 + 12 * d) 12 (v.toNat - 1)) else none
def setStride (d : Nat) (h : W256) (v : W64) : Option W256 :=
  if -524288 ≤ v.toInt ∧ v.toInt ≤ 524287 then some (hPut h (136 + 20 * d) 20 v.toNat) else none
/-- The base offset advanced by v strides of dimension d, exactly (R146). -/
def advanceBase (d : Nat) (h : W256) (v : W64) : Option W256 :=
  let o := (offBits (hBase h) : Int) + v.toInt * hStride h d
  if 0 ≤ o ∧ o < 2 ^ 57 then some (hPut h 0 57 o.toNat) else none

def execHsetd (hd ha : HReg) (sa : SReg) (d : BitVec 3) (s : State) :=
  issue (.hsetd hd ha sa d) s (handleSet (setExtent d.toNat) hd ha sa)
def execHsets (hd ha : HReg) (sa : SReg) (d : BitVec 3) (s : State) :=
  issue (.hsets hd ha sa d) s (handleSet (setStride d.toNat) hd ha sa)
def execHadv (hd ha : HReg) (sa : SReg) (d : BitVec 3) (s : State) :=
  issue (.hadv hd ha sa d) s (handleSet (advanceBase d.toNat) hd ha sa)

/-- The field that HGET selects (R146). -/
def handleField (h : W256) (sel : Nat) : W64 :=
  if sel = 0 then hBase h
  else if sel ≤ 6 then BitVec.ofNat 64 (hExt h (sel - 1) + 1)
  else BitVec.ofInt 64 (hStride h (sel - 7))

def execHget (sd : SReg) (ha : HReg) (sel : BitVec 4) (s : State) :=
  issue (.hget sd ha sel) s (onCore fun x => x.setS sd (handleField (x.getH ha) sel.toNat))

def execHchk (ha : HReg) (sa : SReg) (s : State) :=
  issue (.hchk ha sa) s fun s =>
    let n := (s.core.getS sa).toNat
    if 1 ≤ n ∧ n ≤ 4096 ∧ hValid (s.core.getH ha) n then .done s 0 else .trap .progBounds (hBase (s.core.getH ha)) 0

def execHclr (hd : HReg) (s : State) := issue (.hclr hd) s (onCore fun x => x.setH hd 0)

/-! ### TCFG (R185) -/

/-- Tile registers that a matrix command names (R185). -/
def tilesOf (i : Instr) : List TReg := (named i).t

/-- A queued or running command names the register. -/
def tileBusy (q : List Cmd) (t : TReg) : Bool := q.any fun c => (tilesOf c.instr).contains t

/-- The register shaped, every byte zero, its generation advanced (R185, R372). -/
def TileReg.configure (x : TileReg) (ty : Ty) (rows cols : Nat) : TileReg :=
  { conf := true, ty := ty, rows := rows, cols := cols, data := [], scale := [], gen := x.gen + 1 }

def execTcfg (t : TReg) (ty : Ty) (rows cols : BitVec 10) (s : State) :=
  issue (.tcfg t ty rows cols) s fun s =>
    if tileBusy s.core.mq t then .trap .progTbusy 0 0
    else .done (s.modCore fun x => x.setT t ((x.getT t).configure ty rows.toNat cols.toNat)) 0

end Sys2Proof.Machine
end

