-- ==== Sys2Proof/Machine/MatrixData.lean ====
section
/-! DEFINITION. What the matrix engine computes: operands, groups, checksum channels and the comparison at a drain
(R131–R133, R184–R188, R193, R194, R196–R200, R202). -/

namespace Sys2Proof.Machine

/-! ### Operands -/

/-- An element with the exponent of its block scale; none is the NaN scale 0xFF (R121). -/
abbrev Term := Num × Option Int

def zeroTerm (ty : Ty) : Term := (match Ty.fmt ty with
  | some _ => .flt (.fin false 0 0)
  | none => .int 0, some 0)

def scaleOf (x : Byte) : Option Int := if x = 0xFF then none else some ((x.toNat : Int) - 127)

/-- Rows of a tile register (R184). -/
def TileReg.terms (x : TileReg) : List (List Term) :=
  (List.range x.rows).map fun r =>
    let d := x.data.filter fun e => e.1 / 512 == r
    let sc := x.scale.filter fun e => e.1 / 16 == r
    (List.range x.cols).map fun c =>
      (readTy x.ty (tget 0 d (512 * r + c)), if x.ty.mx then scaleOf (tget 0 sc (16 * r + c / 32)) else some 0)

/-- Bytes of a weight image's data, and of the image (R194). -/
def imageData (ty : Ty) (rows cols : Nat) : Nat := (cols + 127) / 128 * rows * 128 * ty.bits / 8
def imageSize (ty : Ty) (rows cols : Nat) : Nat :=
  imageData ty rows cols + if ty.mx then rows * ((cols + 31) / 32) else 0

/-- n low bits at bit position p of weight space. -/
def State.weightBits (s : State) (w p n : Nat) : Nat :=
  s.readMem (weightKey (w + p / 8)) ((n + 7) / 8) / 2 ^ (p % 8) % 2 ^ n

/-- Element (r, c) of an image, as its pattern. -/
def State.imageElem (s : State) (w : Nat) (ty : Ty) (rows r c : Nat) : W32 :=
  BitVec.ofNat 32 (s.weightBits w (((c / 128 * rows + r) * 128 + c % 128) * ty.bits) ty.bits)
def State.imageScale (s : State) (w : Nat) (ty : Ty) (rows cols r b : Nat) : Byte :=
  BitVec.ofNat 8 (s.weightBits w ((imageData ty rows cols + r * ((cols + 31) / 32) + b) * 8) 8)

def State.imageTerms (s : State) (w : Nat) (ty : Ty) (rows cols : Nat) : List (List Term) :=
  (List.range rows).map fun r => (List.range cols).map fun c =>
    (readTy ty (s.imageElem w ty rows r c), if ty.mx then scaleOf (s.imageScale w ty rows cols r (c / 32)) else some 0)

/-- The read of block q of an image: its data, and the scales (R194, R322). -/
def State.blockRead (s : State) (p : PartNo) (w : Nat) (ty : Ty) (rows cols q : Nat) : Got Nat :=
  let n := rows * 128 * ty.bits / 8
  match s.weightRead p (w + q * n) n with
  | .ok v => if ty.mx then s.weightRead p (w + imageData ty rows cols) (imageSize ty rows cols - imageData ty rows cols) else .ok v
  | g => g

/-- A compressed row with its metadata as the dense row that VSPREAD48 would rebuild (R199). -/
def spreadRow (ty : Ty) (k : Nat) (row : List Term) (ms : List Nat) : List Term :=
  ((List.range ms.length).flatMap fun q => (List.range 8).map fun m =>
    let b := ms.getD q 0
    if b.testBit m then row.getD (4 * q + popcount b m) (zeroTerm ty) else zeroTerm ty).take k

/-! ### Groups (R131–R133) -/

/-- Group size by typeA (R131, R196). -/
def groupSize : Ty → Nat
  | .bf16 => 16
  | .f16 => 16
  | .mxf4 => 64
  | .f4 => 64
  | .i4 => 64
  | _ => 32

def productOf (a b : Term) : Num :=
  match a.1, b.1 with
  | .int x, .int y => .int (x * y)
  | x, y => .flt (scaledProduct (match a.2, b.2 with
    | some p, some q => some (p + q)
    | _, _ => none) x.toFv y.toFv)

/-- The one product of an element with a generated 1 (R200). -/
def withOne (a : Term) : Num := productOf a ((match a.1 with
  | .int _ => .int 1
  | .flt _ => .flt (.fin false 1 0)), some 0)

/-- A command's work: rows, columns, groups, group size, accumulator type, and the products of each group. -/
structure Work where
  m : Nat
  n : Nat
  groups : Nat
  size : Nat
  lane : LaneTy
  prods : Nat → Nat → Nat → List Num

/-- A × B with B given by its columns (R197). -/
def multiplyWork (ta : Ty) (lane : LaneTy) (k : Nat) (a b : List (List Term)) : Work :=
  let g := groupSize ta
  let gs := (k + g - 1) / g
  let ac := a.map (chunk g gs)
  let bc := b.map (chunk g gs)
  { m := a.length, n := b.length, groups := gs, size := g, lane := lane,
    prods := fun i j q => List.zipWith productOf ((ac.getD i []).getD q []) ((bc.getD j []).getD q []) }

def termAt (a : List (List Term)) (r c : Nat) : Term := (a.getD r []).getD c (.int 0, some 0)

def transposeWork (ta : Ty) (lane : LaneTy) (rows cols : Nat) (a : List (List Term)) : Work :=
  let g := groupSize ta
  { m := cols, n := rows, groups := (cols + g - 1) / g, size := g, lane := lane,
    prods := fun i j q => if i / g = q then [withOne (termAt a j i)] else [] }

def permuteWork (ta : Ty) (lane : LaneTy) (rows cols : Nat) (a : List (List Term)) (ix : List Nat) : Work :=
  let g := groupSize ta
  { m := ix.length, n := cols, groups := (rows + g - 1) / g, size := g, lane := lane,
    prods := fun i j q =>
      let p := ix.getD i 0
      if p < rows ∧ p / g = q then [withOne (termAt a p j)] else [] }

def rowSumWork (ta : Ty) (lane : LaneTy) (cols : Nat) (a : List (List Term)) : Work :=
  let g := groupSize ta
  let ac := a.map (chunk g ((cols + g - 1) / g))
  { m := a.length, n := 1, groups := (cols + g - 1) / g, size := g, lane := lane,
    prods := fun i _ q => ((ac.getD i []).getD q []).map withOne }

def fvOf (ps : List Num) : List Fv := ps.map Num.toFv
def intSum : List Num → Int
  | [] => 0
  | .int n :: r => n + intSum r
  | _ :: r => intSum r

/-- One group added to an accumulator element; the flag is the integer overflow of R133. -/
def addGroup (lane : LaneTy) (acc : W32) (ps : List Num) : W32 × Bool :=
  match lane with
  | .f32 => (toF32 .rne ((f32 acc).add .rne (groupRound (fvOf ps))), false)
  | .i32 =>
    let t := acc.toInt + intSum ps
    (BitVec.ofInt 32 t, decide (t < -2147483648) || decide (2147483647 < t))

/-- Groups lo to lo + n − 1 added. -/
def addGroups (w : Work) (i j : Nat) : Nat → Nat → W32 → W32 × Bool
  | _, 0, acc => (acc, false)
  | lo, n + 1, acc =>
    let (acc, o) := addGroup w.lane acc (w.prods i j lo)
    let (acc, o') := addGroups w i j (lo + 1) n acc
    (acc, o || o')

/-! ### Channels (R187) -/

/-- The exact sum of values, a NaN or the infinities among them included. -/
def fvTotal (vs : List Fv) : Fv :=
  if vs.any (·.isNan) then .nan
  else if anyInf true vs && anyInf false vs then .nan
  else if anyInf true vs then .inf true
  else if anyInf false vs then .inf false
  else
    let (t, q) := exactSum vs
    .fin (decide (t < 0)) t.natAbs q

def fvAbs : Fv → Fv
  | .nan => .nan
  | .inf _ => .inf false
  | .fin _ m e => .fin false m e

def f64 (x : W64) : Fv := fp64.decode x.toNat
def f64Add (r : Rnd) (x : W64) (v : Fv) : W64 := BitVec.ofNat 64 (fp64.round r ((f64 x).add r v))

/-- A checksum and an absolute channel after the products of one group of a row or column. -/
def addChannel (lane : LaneTy) (cs as' : W64) (groups : List (List Num)) : W64 × W64 :=
  match lane with
  | .f32 =>
    (f64Add .rne cs (fvTotal (groups.map fun ps => fvTotal (fvOf ps))),
     f64Add .rup as' (fvTotal ((groups.flatMap fvOf).map fvAbs)))
  | .i32 => ((BitVec.ofInt 32 ((cs.toNat : Int) + (groups.map intSum).sum)).setWidth 64, 0)

/-- The channels of one line after groups lo to lo + n − 1; `line g` lists the groups of the line's elements. -/
def addChannels (lane : LaneTy) (line : Nat → List (List Num)) : Nat → Nat → W64 × W64 → W64 × W64
  | _, 0, c => c
  | lo, n + 1, c => addChannels lane line (lo + 1) n (addChannel lane c.1 c.2 (line lo))

def tagOf : LaneTy → Tag
  | .f32 => .f32
  | .i32 => .i32

/-- Z at the start of a command (R187). -/
def Acc.overwrite (a : Acc) (m n : Nat) : Acc :=
  let a := { a with elems := a.elems.filter fun e => !(decide (e.1 / 128 < m) && decide (e.1 % 128 < n)) }
  if m < 128 ∨ n < 128 then { a with chk := false }
  else { a with csr := [], csc := [], asr := [], asc := [], steps := 0, chk := true }

def addSteps (x : W32) (n : Nat) : W32 := BitVec.ofNat 32 (min (x.toNat + n) (2 ^ 32 - 1))

/-- Groups lo to hi − 1 of a command applied to its accumulator; the flag is IOVF. -/
def Work.apply (w : Work) (z : Bool) (lo hi : Nat) (a : Acc) : Acc × Bool :=
  if hi ≤ lo then (a, false)
  else
    let a := if z && lo == 0 then a.overwrite w.m w.n else a
    let n := hi - lo
    let new := (List.range w.m).flatMap fun i =>
      let row := a.elems.filter fun e => e.1 / 128 == i
      (List.range w.n).map fun j => (128 * i + j, addGroups w i j lo n (tget 0 row (128 * i + j)))
    let cols := (List.range w.m).map fun i =>
      (i, addChannels w.lane (fun g => (List.range w.n).map fun j => w.prods i j g) lo n (tget 0 a.csc i, tget 0 a.asc i))
    let rows := (List.range w.n).map fun j =>
      (j, addChannels w.lane (fun g => (List.range w.m).map fun i => w.prods i j g) lo n (tget 0 a.csr j, tget 0 a.asr j))
    let keep := fun (l : Tab W64) (k : Nat) => l.filter fun e => !decide (e.1 < k)
    ({ a with
       elems := (a.elems.filter fun e => !(decide (e.1 / 128 < w.m) && decide (e.1 % 128 < w.n))) ++ new.map fun e => (e.1, e.2.1)
       csc := cols.map (fun e => (e.1, e.2.1)) ++ keep a.csc w.m
       asc := cols.map (fun e => (e.1, e.2.2)) ++ keep a.asc w.m
       csr := rows.map (fun e => (e.1, e.2.1)) ++ keep a.csr w.n
       asr := rows.map (fun e => (e.1, e.2.2)) ++ keep a.asr w.n
       steps := addSteps a.steps n, tag := tagOf w.lane },
     new.any fun e => e.2.2)

/-! ### The comparison at a drain (R188) -/

/-- What a line of the comparison comes to. -/
inductive Line where
  | good | out | nonfinite
deriving DecidableEq, Repr, Inhabited

def Fv.finite : Fv → Bool
  | .fin _ _ _ => true
  | _ => false

def compareLine (tag : Tag) (steps : Nat) (vals : List W32) (cs as' : W64) : Line :=
  match tag with
  | .clear => .good
  | .i32 => if ((vals.map BitVec.toNat).sum) % 2 ^ 32 = cs.toNat % 2 ^ 32 then .good else .out
  | .f32 =>
    let sum := fvTotal (vals.map f32)
    if !sum.finite || !(f64 cs).finite || !(f64 as').finite then .nonfinite
    else
      let gap := fvAbs (sum.add .rne (f64 cs).neg)
      let bound := ((Fv.fin false (steps + 2) (-23)).mul (f64 as')).add .rne (.fin false (steps + 1) (-141))
      if bound.lt false gap then .out else .good

/-- The whole accumulator as 128 rows of 128 patterns. -/
def Acc.grid (a : Acc) : List (List W32) :=
  (List.range 128).map fun i =>
    let row := a.elems.filter fun e => e.1 / 128 == i
    (List.range 128).map fun j => tget 0 row (128 * i + j)

/-- Rows out, columns out, and whether a line was not finite. -/
def Acc.compare (a : Acc) : List Nat × List Nat × Bool :=
  let g := a.grid
  let rows := (List.range 128).map fun i => compareLine a.tag a.steps.toNat (g.getD i []) (tget 0 a.csc i) (tget 0 a.asc i)
  let cols := (List.range 128).map fun j =>
    compareLine a.tag a.steps.toNat (g.map fun r => r.getD j 0) (tget 0 a.csr j) (tget 0 a.asr j)
  let outs := fun (l : List Line) => (List.range 128).filter fun i => l[i]? == some .out
  (outs rows, outs cols, rows.contains .nonfinite || cols.contains .nonfinite)

/-- An accumulator element as MDRAIN's source (R202). -/
def Acc.source (a : Acc) (v : W32) : Num := match a.tag with
  | .i32 => .int v.toInt
  | .f32 => .flt (f32 v)
  | .clear => .flt (.fin false 0 0)

/-! ### Tile registers through a handle (R193) -/

/-- Element size of the checks. -/
def tileBytes (ty : Ty) : Nat := if ty.bits = 4 || ty.mx then 1 else ty.bits / 8

/-- Column of the handle that holds column c. -/
def handleCol (ty : Ty) (c : Nat) : Nat := if ty.bits = 4 then c / 2 else c

/-- Scale byte b of row r lies within the handle's extents. -/
def scaleWithin (ty : Ty) (h : W256) (r b : Nat) : Bool :=
  decide (r ≤ hExt h 1) && decide ((if ty.bits = 4 then 16 else 32) * b ≤ hExt h 0)

/-- Places of a shape of a type that a handle covers: index in the handle, bytes. -/
def tilePlaces (ty : Ty) (rows cols : Nat) (h : W256) : List (List Nat) :=
  let w := if ty.bits = 4 then (cols + 1) / 2 else cols
  let data := (List.range (min rows (hExt h 1 + 1))).flatMap fun r => (List.range (min w (hExt h 0 + 1))).map fun c => [c, r]
  let scales := if ty.mx then (List.range rows).flatMap fun r =>
      ((List.range ((cols + 31) / 32)).filter (scaleWithin ty h r)).map fun b => [b, r, 1]
    else []
  data ++ scales

def offOf (h : W256) (ix : List Nat) : Nat := (hOffAt h ix).toNat

/-- The register that TLD loads: values unconverted, +0 and scale 1 outside the extents. -/
def State.loadTile (s : State) (t b : Nat) (x : TileReg) (h : W256) : TileReg :=
  let k := halfKey t b
  let data := (List.range (min x.rows (hExt h 1 + 1))).flatMap fun r =>
    ((List.range x.cols).filter fun c => decide (handleCol x.ty c ≤ hExt h 0)).map fun c =>
      let v := s.readMem (k + offOf h [handleCol x.ty c, r]) (tileBytes x.ty)
      (512 * r + c, BitVec.ofNat 32 (if x.ty.bits = 4 then v / 16 ^ (c % 2) % 16 else v))
  let scale := if x.ty.mx then (List.range x.rows).flatMap fun r => (List.range ((x.cols + 31) / 32)).map fun i =>
      (16 * r + i, if scaleWithin x.ty h r i then BitVec.ofNat 8 (s.readMem (k + offOf h [i, r, 1]) 1) else 0x7F)
    else []
  { x with data := data, scale := scale, gen := x.gen + 1 }

/-- The value that a handle element of a tile's data receives: two columns for a 4-bit type. -/
def packCols (ty : Ty) (cols : Nat) (f : Nat → W32) (c : Nat) : Nat :=
  if ty.bits = 4 then (f (2 * c)).toNat % 16 + if 2 * c + 1 < cols then 16 * ((f (2 * c + 1)).toNat % 16) else 0
  else (f c).toNat % 2 ^ ty.bits

/-- Stores of a shape through a handle, in order: offset, bytes, value. -/
def tileStores (ty : Ty) (rows cols : Nat) (h : W256) (f : Nat → Nat → W32) (sc : Nat → Nat → Byte) : List (Nat × Nat × Nat) :=
  (tilePlaces ty rows cols h).map fun ix => match ix with
    | [c, r] => (offOf h ix, tileBytes ty, packCols ty cols (f r) c)
    | [b, r, _] => (offOf h ix, 1, (sc r b).toNat)
    | _ => (0, 0, 0)

end Sys2Proof.Machine
end

