-- ==== Sys2Proof/Machine/Matrix.lean ====
section
/-! DEFINITION. Unit 9: the matrix engine's commands, at issue, at start and at completion (R184–R202, R372). -/

namespace Sys2Proof.Machine

/-! ### At issue (R192) -/

/-- The accumulator a command writes, with the tag it leaves and whether it overwrites (R187, R201). -/
def accWrite : Instr → Option (AReg × Tag × Bool)
  | .mma a _ _ _ _ ty z _ => some (a, if ty = .f32 then .f32 else .i32, z)
  | .mmaw a _ _ _ _ ty z _ => some (a, if ty = .f32 then .f32 else .i32, z)
  | .mmasp a _ _ _ _ ty z _ => some (a, if ty = .f32 then .f32 else .i32, z)
  | .mmaspw a _ _ _ _ ty z _ => some (a, if ty = .f32 then .f32 else .i32, z)
  | .mtrans a _ _ ty z _ => some (a, if ty = .f32 then .f32 else .i32, z)
  | .mperm a _ _ _ ty z _ => some (a, if ty = .f32 then .f32 else .i32, z)
  | .mrsum a _ _ ty z _ => some (a, if ty = .f32 then .f32 else .i32, z)
  | .mzero a _ => some (a, .clear, true)
  | _ => none

/-- The tag in force after every queued command. -/
def tagAfter (a : AReg) : List Cmd → Tag → Tag
  | [], t => t
  | c :: r, t => tagAfter a r (match accWrite c.instr with
    | some (b, u, _) => if a = b then u else t
    | none => t)

/-- A typeAcc agrees with the tag in force, or overwrites it (R192). -/
def tagOk (x : Slot) (i : Instr) : Bool :=
  match accWrite i with
  | some (a, u, z) =>
    let t := tagAfter a x.mq (x.getA a).tag
    z || t == .clear || t == u
  | none => true

/-- A register configured with a type. -/
def typed (x : TileReg) (ty : Ty) : Bool := x.conf && x.ty == ty

/-- Columns of the four-in-eight form of K (R199). -/
def sparseCols (k : Nat) : Nat := 4 * ((k + 7) / 8)
def metaOk (x : TileReg) (n k : Nat) : Bool := typed x .ui8 && x.rows == n && x.cols == (k + 7) / 8

/-- The shapes that a command requires (R192–R202). -/
def shapeOk (x : Slot) (i : Instr) : Bool :=
  match i with
  | .tld t _ _ => (x.getT t).conf
  | .tldw t _ _ => (x.getT t).conf
  | .tst t _ _ => (x.getT t).conf
  | .mma _ ta tb tya tyb _ _ _ =>
    let a := x.getT ta
    let b := x.getT tb
    typed a tya && typed b tyb && b.cols == a.cols && decide (b.rows ≤ 128)
  | .mmaw _ ta hb tya _ _ _ _ =>
    let a := x.getT ta
    let h := x.getH (hb.setWidth 5)
    typed a tya && hExt h 0 + 1 == a.cols && decide (hExt h 1 < 128)
  | .mmasp _ ta tb tya tyb _ _ _ =>
    let a := x.getT ta
    let b := x.getT tb
    typed a tya && typed b tyb && b.cols == sparseCols a.cols && decide (b.rows ≤ 128) && metaOk (x.getT (tb + 1)) b.rows a.cols
  | .mmaspw _ ta hb tya _ _ _ _ =>
    let a := x.getT ta
    let h := x.getH (hb.setWidth 5)
    typed a tya && hExt h 0 + 1 == sparseCols a.cols && decide (hExt h 1 < 128) && metaOk (x.getT (hb + 1)) (hExt h 1 + 1) a.cols
  | .mtrans _ ta tya _ _ _ =>
    let a := x.getT ta
    typed a tya && decide (a.rows ≤ 128) && decide (a.cols ≤ 128)
  | .mperm _ ta tb tya _ _ _ =>
    let a := x.getT ta
    let b := x.getT tb
    typed a tya && typed b .i32 && b.rows == 1 && decide (b.cols ≤ 128) && decide (a.cols ≤ 128)
  | .mrsum _ ta tya _ _ _ => typed (x.getT ta) tya && decide ((x.getT ta).rows ≤ 128)
  | .mdrain _ ty _ (.tile t) _ =>
    let a := x.getT t
    typed a ty && decide (a.rows ≤ 128) && decide (a.cols ≤ 128)
  | _ => true

/-- A matrix command is checked and enqueued with its copies of a handle or a scalar. -/
def pushMatrix (i : Instr) (ha : Slot → W256) (param : Slot → W64) (s : State) : Res :=
  let x := s.core
  if !shapeOk x i || !tagOk x i then .trap .progTshape 0 0
  else enqueue true (fun c => { c with ha := ha x, param := param x }) i s

def noHandle (_ : Slot) : W256 := 0
def noScalar (_ : Slot) : W64 := 0

def execTld (t : TReg) (h : HReg) (e : Eng) (s : State) :=
  issue (.tld t h e) s (pushMatrix (.tld t h e) (·.getH h) noScalar)
def execTldw (t : TReg) (sa : SReg) (e : Eng) (s : State) :=
  issue (.tldw t sa e) s (pushMatrix (.tldw t sa e) noHandle (·.getS sa))
def execTst (t : TReg) (h : HReg) (e : Eng) (s : State) :=
  issue (.tst t h e) s (pushMatrix (.tst t h e) (·.getH h) noScalar)
def execMma (acc : AReg) (ta tb : TReg) (tya tyb tyAcc : Ty) (z : Bool) (e : Eng) (s : State) :=
  issue (.mma acc ta tb tya tyb tyAcc z e) s (pushMatrix (.mma acc ta tb tya tyb tyAcc z e) noHandle noScalar)
def execMmaw (acc : AReg) (ta hb : TReg) (tya tyb tyAcc : Ty) (z : Bool) (e : Eng) (s : State) :=
  issue (.mmaw acc ta hb tya tyb tyAcc z e) s
    (pushMatrix (.mmaw acc ta hb tya tyb tyAcc z e) (·.getH (hb.setWidth 5)) noScalar)
def execMmasp (acc : AReg) (ta tb : TReg) (tya tyb tyAcc : Ty) (z : Bool) (e : Eng) (s : State) :=
  issue (.mmasp acc ta tb tya tyb tyAcc z e) s (pushMatrix (.mmasp acc ta tb tya tyb tyAcc z e) noHandle noScalar)
def execMmaspw (acc : AReg) (ta hb : TReg) (tya tyb tyAcc : Ty) (z : Bool) (e : Eng) (s : State) :=
  issue (.mmaspw acc ta hb tya tyb tyAcc z e) s
    (pushMatrix (.mmaspw acc ta hb tya tyb tyAcc z e) (·.getH (hb.setWidth 5)) noScalar)
def execMtrans (acc : AReg) (ta : TReg) (tya tyAcc : Ty) (z : Bool) (e : Eng) (s : State) :=
  issue (.mtrans acc ta tya tyAcc z e) s (pushMatrix (.mtrans acc ta tya tyAcc z e) noHandle noScalar)
def execMperm (acc : AReg) (ta tb : TReg) (tya tyAcc : Ty) (z : Bool) (e : Eng) (s : State) :=
  issue (.mperm acc ta tb tya tyAcc z e) s (pushMatrix (.mperm acc ta tb tya tyAcc z e) noHandle noScalar)
def execMrsum (acc : AReg) (ta : TReg) (tya tyAcc : Ty) (z : Bool) (e : Eng) (s : State) :=
  issue (.mrsum acc ta tya tyAcc z e) s (pushMatrix (.mrsum acc ta tya tyAcc z e) noHandle noScalar)
def execMzero (acc : AReg) (e : Eng) (s : State) :=
  issue (.mzero acc e) s (pushMatrix (.mzero acc e) noHandle noScalar)
def execMdrain (acc : AReg) (ty : Ty) (rnd : Rnd) (dst : DrainTo) (e : Eng) (s : State) :=
  issue (.mdrain acc ty rnd dst e) s (pushMatrix (.mdrain acc ty rnd dst e) (fun x => match dst with
    | .handle h => x.getH h
    | .tile _ => 0) noScalar)
def execMnop (e : Eng) (s : State) := issue (.mnop e) s (pushMatrix (.mnop e) noHandle noScalar)

/-! ### At start (R192) -/

/-- A fault with its address and detail. -/
abbrev Bad := FaultName × W64 × W64

/-- The first of a list of checks that fails. -/
def firstBad : List (Option Bad) → Option Bad
  | [] => none
  | some b :: _ => some b
  | none :: r => firstBad r

def require (ok : Bool) (n : FaultName) (a : W64) : Option Bad := if ok then none else some (n, a, 0)

/-- An element of a handle that lies in the gap of the half (R66). -/
def gapBad (hd : W512) (h : W256) (n : Nat) (ixs : List (List Nat)) : Option Bad :=
  (ixs.find? fun ix => inGap hd (offOf h ix) n).map fun ix => (.progResource, hAddrAt h ix, 0)

/-- The checks of TLD, TST and MDRAIN to a handle. -/
def handleBad (hd : W512) (h : W256) (n : Nat) (mx : Bool) (ixs : List (List Nat)) : Option Bad :=
  firstBad [require (hValid h n) .progBounds (hBase h), require (!mx || hExt h 2 != 0) .progBounds (hBase h),
    require (homeBits (hBase h) == 0) .progAddr (hBase h), require (hAligned h n) .progAlign (hBase h), gapBad hd h n ixs]

/-- The checks of a weight image (R194, R195). -/
def imageBad (t : Nat) (w : W64) (size : Nat) : Option Bad :=
  firstBad [require (decide ((w.extractLsb' 0 26).toNat + size ≤ 2 ^ 26)) .progBounds w,
    require (w.extractLsb' 40 24 == 0 && !w.getLsbD 31 && (w.extractLsb' 32 8).toNat == t) .progAddr w,
    require (w.extractLsb' 0 12 == 0) .progAlign w]

/-- Metadata rows of a sparse form. -/
def metaRows (x : TileReg) : List (List Nat) :=
  (List.range x.rows).map fun r => (List.range x.cols).map fun c => (tget 0 x.data (512 * r + c)).toNat % 256

/-- The lowest (j, q) whose metadata byte has not four bits set (R199). -/
def metaBad (x : TileReg) : Option Bad :=
  ((List.range (x.rows * x.cols)).find? fun i =>
    popcount ((tget 0 x.data (512 * (i / x.cols) + i % x.cols)).toNat % 256) 8 != 4).map fun i =>
      (.progMeta, 0, (BitVec.ofNat 64 (i / x.cols) <<< 32) ||| BitVec.ofNat 64 (i % x.cols))

/-- The checks of a command when it starts. -/
def startBad (t : Nat) (x : Slot) (c : Cmd) : Option Bad :=
  let img := fun (ty : Ty) (h : W256) => imageBad t (hBase h) (imageSize ty (hExt h 1 + 1) (hExt h 0 + 1))
  match c.instr with
  | .tld r _ _ =>
    let y := x.getT r
    handleBad x.header c.ha (tileBytes y.ty) y.ty.mx (tilePlaces y.ty y.rows y.cols c.ha)
  | .tst r _ _ =>
    let y := x.getT r
    handleBad x.header c.ha (tileBytes y.ty) y.ty.mx (tilePlaces y.ty y.rows y.cols c.ha)
  | .tldw r _ _ => imageBad t c.param (imageSize (x.getT r).ty (x.getT r).rows (x.getT r).cols)
  | .mmaw _ _ _ _ tyb _ _ _ => img tyb c.ha
  | .mmasp _ _ tb _ _ _ _ _ => metaBad (x.getT (tb + 1))
  | .mmaspw _ _ hb _ tyb _ _ _ => firstBad [img tyb c.ha, metaBad (x.getT (hb + 1))]
  | .mdrain _ ty _ (.handle _) _ => handleBad x.header c.ha (tileBytes ty) false (tilePlaces ty 128 128 c.ha)
  | _ => none

/-- The command at the head starts, or faults at its start (R190, R192, R251). -/
def execMatrixCommandStart (t : Nat) (s : State) : Host.Outcome State Fault Refusal :=
  let b := s.run t
  let x := s.slot t b
  match x.mq with
  | [] => .next s
  | c :: _ =>
    if !s.enginesRun t b || c.started || !c.wtaken || c.fpend.isSome || !x.pushReleased c then .next s
    else match startBad t x c with
      | some (f, a, d) => .next (s.engineFault t b true c f a d)
      | none => .next ((s.modCmd t b true c.num fun y => { y with started := true }).arm t b true)

/-! ### Completion -/

def laneAcc (ty : Ty) : LaneTy := if ty = .f32 then .f32 else .i32

/-- The work of a command that accumulates, from the registers and the weights as they stand. -/
def State.workOf (s : State) (x : Slot) (i : Instr) (ha : W256) : Option Work :=
  let reg := fun (t : TReg) => (x.getT t).terms
  let img := fun (ty : Ty) => s.imageTerms (hBase ha).toNat ty (hExt ha 1 + 1) (hExt ha 0 + 1)
  let sparse := fun (ty : Ty) (k : Nat) (vs : List (List Term)) (m : TReg) => List.zipWith (spreadRow ty k) vs (metaRows (x.getT m))
  match i with
  | .mma _ ta tb tya _ ty _ _ => some (multiplyWork tya (laneAcc ty) (x.getT ta).cols (reg ta) (reg tb))
  | .mmaw _ ta _ tya tyb ty _ _ => some (multiplyWork tya (laneAcc ty) (x.getT ta).cols (reg ta) (img tyb))
  | .mmasp _ ta tb tya tyb ty _ _ =>
    let k := (x.getT ta).cols
    some (multiplyWork tya (laneAcc ty) k (reg ta) (sparse tyb k (reg tb) (tb + 1)))
  | .mmaspw _ ta hb tya tyb ty _ _ =>
    let k := (x.getT ta).cols
    some (multiplyWork tya (laneAcc ty) k (reg ta) (sparse tyb k (img tyb) (hb + 1)))
  | .mtrans _ ta tya ty _ _ => some (transposeWork tya (laneAcc ty) (x.getT ta).rows (x.getT ta).cols (reg ta))
  | .mperm _ ta tb tya ty _ _ =>
    let ix := (List.range (x.getT tb).cols).map fun c => (tget 0 (x.getT tb).data c).toNat
    some (permuteWork tya (laneAcc ty) (x.getT ta).rows (x.getT ta).cols (reg ta) ix)
  | .mrsum _ ta tya ty _ _ => some (rowSumWork tya (laneAcc ty) (x.getT ta).cols (reg ta))
  | _ => none

/-- The image that a command multiplies by: type, and dense columns for each column of the image. -/
def imageOf : Instr → Option (Ty × Nat)
  | .mmaw _ _ _ _ tyb _ _ _ => some (tyb, 1)
  | .mmaspw _ _ _ _ tyb _ _ _ => some (tyb, 2)
  | _ => none

/-- The first block of an image that cannot be read, from a group on: its fault, its address and the groups before it. -/
def State.blockBad (s : State) (p : PartNo) (i : Instr) (ha : W256) (size lo : Nat) : Option (FaultName × W64 × Nat) :=
  match imageOf i with
  | none => none
  | some (ty, k) =>
    let rows := hExt ha 1 + 1
    let cols := hExt ha 0 + 1
    let per := 128 * k / size
    (List.range ((cols + 127) / 128)).findSome? fun q =>
      if (q + 1) * per ≤ lo then none
      else match s.blockRead p (hBase ha).toNat ty rows cols q with
        | .fault f => some (f, hBase ha + BitVec.ofNat 64 (q * rows * 128 * ty.bits / 8), max lo (q * per))
        | _ => none

def gensOf (x : Slot) (i : Instr) : List (Nat × Nat) := (tilesOf i).map fun t => (t.toNat, (x.getT t).gen)

/-- The operand log after a command (R372). -/
def Acc.logged (a : Acc) (e : LogEntry) : Acc :=
  if a.log.length < 32 then { a with log := a.log ++ [e] } else { a with overflowed := true }

/-- A command that accumulates: its groups from its progress word on, up to a block that cannot be read (R187, R192). -/
def State.accumulate (s : State) (t b : Nat) (c : Cmd) (acc : AReg) (z : Bool) (w : Work) : State :=
  let x := s.slot t b
  let bad := s.blockBad x.part c.instr c.ha w.size c.count
  let hi := match bad with
    | some (_, _, g) => g
    | none => w.groups
  let (a, o) := w.apply z c.count hi (x.getA acc)
  let a := if bad.isSome then a else a.logged ⟨c.instr, c.ha, c.param, gensOf x c.instr⟩
  let s := s.modSlot t b fun x => if o then (x.setA acc a).setMstat mstatIovf else x.setA acc a
  let c := { c with count := hi }
  let s := s.modCmd t b true c.num fun _ => c
  match bad with
  | some (f, ad, _) => s.engineFault t b true c f ad 0
  | none => s.finishCmd t b true c

/-- The value of element (i, j) recomputed from the log, or none when it cannot be (R372). -/
def State.recompute (s : State) (x : Slot) (a : Acc) (i j : Nat) : Option W32 :=
  if a.overflowed || a.log.any (fun e => e.gens != gensOf x e.cmd) then none
  else a.log.foldl (fun v e => match v, s.workOf x e.cmd e.ha with
    | some v, some w =>
      if (s.blockBad x.part e.cmd e.ha w.size 0).isSome then none
      else if i < w.m ∧ j < w.n then
        let z := match accWrite e.cmd with
          | some (_, _, z) => z
          | none => false
        some (addGroups w i j 0 w.groups (if z then 0 else v)).1
      else some v
    | _, _ => none) (some 0)

/-- Bytes stored in a slot's own half, in order. -/
def State.storeHalf (s : State) (t b : Nat) (l : List (Nat × Nat × Nat)) : State :=
  l.foldl (fun s e => s.writeMem (halfKey t b + e.1) e.2.1 e.2.2) s

/-- The type of an accumulator's elements: a CLEAR one holds FP32 zeros (R202). -/
def Acc.srcTy (a : Acc) : Ty := if a.tag = .i32 then .i32 else .f32

/-- What MDRAIN writes (R202). -/
def State.drainTo (s : State) (t b : Nat) (c : Cmd) (a : Acc) (ty : Ty) (rnd : Rnd) (dst : DrainTo) : State :=
  let g := a.grid
  let v := fun (r c : Nat) => writeTy ty (codeFor ty a.srcTy rnd) (a.source ((g.getD r []).getD c 0))
  match dst with
  | .tile tr => s.modSlot t b fun x =>
    let y := x.getT tr
    let data := (List.range y.rows).flatMap fun r => (List.range y.cols).map fun c => (512 * r + c, v r c)
    x.setT tr { y with data := data, gen := y.gen + 1 }
  | .handle _ => s.storeHalf t b (tileStores ty 128 128 c.ha v fun _ _ => 0)

/-- MDRAIN: the comparison, its handling, then the destination (R188, R202, R372). -/
def State.drain (s : State) (t b : Nat) (c : Cmd) (acc : AReg) (ty : Ty) (rnd : Rnd) (dst : DrainTo) : State :=
  let x := s.slot t b
  let a := x.getA acc
  let mark := fun (m : BitVec 6) (s : State) => s.modSlot t b fun x => x.setMstat m
  let finish := fun (a : Acc) (s : State) => (s.drainTo t b c a ty rnd dst).finishCmd t b true c
  if !a.chk then finish a (mark mstatUnchk s)
  else
    let (rows, cols, nf) := a.compare
    let s := if nf then mark mstatNonfin s else s
    match rows, cols with
    | [], [] => finish a s
    | [i], [j] =>
      match s.recompute x a i j with
      | some v =>
        let a := { a with elems := (128 * i + j, v) :: a.elems.filter fun e => e.1 != 128 * i + j }
        finish a (mark mstatAbftc (s.modSlot t b fun x => x.setA acc a))
      | none => (mark mstatAbftu s).engineFault t b true c .hwAbft 0 0
    | _, _ => (mark mstatAbftu s).engineFault t b true c .hwAbft 0 0

/-- The first byte of a source in the half that is poisoned. -/
def State.halfPoison (s : State) (t b : Nat) (h : W256) (n : Nat) (ixs : List (List Nat)) : Option W64 :=
  (ixs.find? fun ix => s.isPoisoned (halfKey t b + offOf h ix) n).map (hAddrAt h)

/-- What a started command does, whole (R190). -/
def State.performMatrix (s : State) (t b : Nat) (c : Cmd) : State :=
  let x := s.slot t b
  let setT := fun (r : TReg) (y : TileReg) => (s.modSlot t b fun x => x.setT r y).finishCmd t b true c
  match c.instr with
  | .tld r _ _ =>
    let y := x.getT r
    match s.halfPoison t b c.ha (tileBytes y.ty) (tilePlaces y.ty y.rows y.cols c.ha) with
    | some a => s.engineFault t b true c .hwPoison a 0
    | none => setT r (s.loadTile t b y c.ha)
  | .tldw r _ _ =>
    let y := x.getT r
    let w := c.param.toNat
    let bad := (List.range ((y.cols + 127) / 128)).findSome? fun q => match s.blockRead x.part w y.ty y.rows y.cols q with
      | .fault f => some (f, c.param + BitVec.ofNat 64 (q * y.rows * 128 * y.ty.bits / 8))
      | _ => none
    match bad with
    | some (f, a) => s.engineFault t b true c f a 0
    | none => setT r { y with
        data := (List.range y.rows).flatMap fun i => (List.range y.cols).map fun j =>
          (512 * i + j, s.imageElem w y.ty y.rows i j)
        scale := if y.ty.mx then (List.range y.rows).flatMap fun i => (List.range ((y.cols + 31) / 32)).map fun j =>
          (16 * i + j, s.imageScale w y.ty y.rows y.cols i j) else []
        gen := y.gen + 1 }
  | .tst r _ _ =>
    let y := x.getT r
    (s.storeHalf t b (tileStores y.ty y.rows y.cols c.ha (fun i j => tget 0 y.data (512 * i + j))
      fun i j => tget 0 y.scale (16 * i + j))).finishCmd t b true c
  | .mzero a _ => (s.modSlot t b fun x => x.setA a {}).finishCmd t b true c
  | .mdrain a ty rnd dst _ => s.drain t b c a ty rnd dst
  | i => match accWrite i, s.workOf x i c.ha with
    | some (a, _, z), some w => s.accumulate t b c a z w
    | _, _ => s.finishCmd t b true c

/-- The command at the head reaches its completion point; one whose signal is due sends it (R95, R190). -/
def execMatrixCommandComplete (t : Nat) (s : State) : Host.Outcome State Fault Refusal :=
  let b := s.run t
  match (s.slot t b).mq with
  | [] => .next s
  | c :: _ =>
    if !s.enginesRun t b || !c.started || c.fpend.isSome then .next s
    else if c.sigdue then .next (s.finishCmd t b true c)
    else .next (s.performMatrix t b c)

end Sys2Proof.Machine
end

