-- ==== Sys2Proof/Machine/Records.lean ====
section
/-! DEFINITION. Continuation records, launch headers, level rings, quarantine, retirement (R60–R72, R79, R299–R301, R362). -/

namespace Sys2Proof.Machine

/-! ### Fields of a record (R60) -/

def recBytes (r : W512) : Bytes := bytesOf 64 r.toNat
def recCode (r : W512) : W64 := r.extractLsb' 0 64
def recFrame (r : W512) : W64 := r.extractLsb' 64 64
def recWid (r : W512) : W64 := r.extractLsb' 128 64
def recJoin (r : W512) : W32 := r.extractLsb' 224 32
def recPreempt (r : W512) : Bool := r.getLsbD 210
def recOverrun (r : W512) : Bool := r.getLsbD 209
def recResume (r : W512) : Bool := r.getLsbD 208
def recLevel (r : W512) : Nat := (r.extractLsb' 200 3).toNat
def recArg0 (r : W512) : W64 := r.extractLsb' 256 64
def recArg1 (r : W512) : W64 := r.extractLsb' 320 64
def recHeader (r : W512) : W64 := r.extractLsb' 384 64
def recCount (r : W512) : Nat := (r.extractLsb' 480 32).toNat
def recCrc (r : W512) : W32 := r.extractLsb' 448 32

/-- n bits at lo replaced. -/
def put512 (r : W512) (lo n v : Nat) : W512 :=
  (r &&& ~~~((BitVec.ofNat 512 (2 ^ n - 1)) <<< lo)) ||| (BitVec.ofNat 512 (v % 2 ^ n) <<< lo)

/-- CRC-32C over bytes 0–55 and 60–63 (R61). -/
def recordCrc (r : W512) : W32 := crc32c ((recBytes r).take 56 ++ (recBytes r).drop 60)
def withCrc (r : W512) : W512 := put512 r 448 32 (recordCrc r).toNat

/-- Why a record is quarantined, if it is (R61). -/
def recordFault (r : W512) : Option FaultName :=
  if recCrc r ≠ recordCrc r then some .hwCrc
  else if r.extractLsb' 192 8 ≠ 0 ∨ r.extractLsb' 203 5 ≠ 0 ∨ r.extractLsb' 211 13 ≠ 0 then some .progRecord
  else if recCode r % 8 ≠ 0 ∨ recHeader r % 64 ≠ 0 ∨ recCount r = 0 ∨ recJoin r ≠ 0 then some .progRecord
  else none

/-- The record of a continuation as it stands when it is admitted: the join field is zero (R99). -/
def joinZero (r : W512) : W512 := put512 r 224 32 0

/-- A task's own record: bulk count 1, its WID, no flags, a new CRC (R359, R365). -/
def ownRecord (r : W512) (wid : W64) : W512 :=
  withCrc (put512 (put512 (put512 r 480 32 1) 128 64 wid.toNat) 208 3 0)

/-- The record that a saved context is re-enqueued with (R75, R357): flags are PREEMPT, OVERRUN, RESUME. -/
def resumeRecord (r : W512) (preempt overrun : Bool) (ctx : W64) : W512 :=
  let f := (if preempt then 4 else 0) + (if overrun then 2 else 0) + 1
  withCrc (put512 (put512 r 208 3 f) 256 64 ctx.toNat)

/-! ### The launch header's checks (R62–R64) -/

def hdrWidths (h : W512) : List Nat := (List.range 6).map (hdrWidth h)

def zeroFields (h : W512) : Bool :=
  h.extractLsb' 51 13 == 0 && h.extractLsb' 116 12 == 0 && h.extractLsb' 100 4 == 0 && h.extractLsb' 93 3 == 0 &&
  h.extractLsb' 86 2 == 0 && h.extractLsb' 78 2 == 0 && h.extractLsb' 71 1 == 0 && h.extractLsb' 231 25 == 0 &&
  h.extractLsb' 227 1 == 0 && h.extractLsb' 256 192 == 0 && h.extractLsb' 464 16 == 0

def widthsOk (h : W512) : Bool :=
  let n := hdrFields h
  decide (1 ≤ n) && decide (n ≤ 6) &&
  (((hdrWidths h).take n).all fun w => decide (1 ≤ w) && decide (w ≤ 64)) && (((hdrWidths h).drop n).all fun w => w == 0) &&
  decide ((hdrWidths h).sum ≤ 64)

def limitsOk (h : W512) : Bool :=
  decide (hdrCells h ≤ 2048) && decide (hdrTiles h ≤ 16) && decide (hdrVectors h ≤ 32) && decide (hdrHandles h ≤ 32) &&
  decide (hdrScalars h ≤ 64) && hdrStack h % 8 == 0 && decide (hdrSpad h + hdrStack h ≤ 0x400000) && hdrBudget h != 0

/-- Why a record under this header is quarantined, if it is (R64). -/
def headerFault (h : W512) (level : Nat) : Option FaultName :=
  if h.extractLsb' 480 32 ≠ crc32c ((recBytes h).take 60) then some .hwCrc
  else if h.extractLsb' 448 16 == 1 && zeroFields h && widthsOk h && limitsOk h &&
    (hdrCluster h == 7 || decide (hdrCluster h < hdrFields h)) && decide (level ≤ hdrCeiling h) then none
  else some .progRecord

/-- Field f of a WID; 0 for a field that the header does not have (R102). -/
def widField (h : W512) (wid : W64) (f : Nat) : W64 :=
  let n := hdrFields h
  if f < n then
    let below := (((hdrWidths h).take n).drop (f + 1)).sum
    BitVec.ofNat 64 (wid.toNat / 2 ^ below % 2 ^ hdrWidth h f)
  else 0

/-! ### Rings (R67, R68) -/

/-- LQOCC: records in the ring, reservations of parked continuations and of contexts moved out. -/
def State.lqocc (s : State) (d : Nat) (p : PartNo) (l : Nat) : Nat :=
  (s.ring d p l).recs.length + (s.parked.filter fun k => k.die == d && k.part == p && k.level == l).length +
  (s.saved.filter fun k => k.moved && k.die == d && k.part == p && k.level == l).length +
  (s.arrivals.filter fun a => a.via == .tail && a.addr != 0 && a.die == d && a.part == p && recLevel a.crec == l).length

def State.lqLen (s : State) (d : Nat) (p : PartNo) (l : Nat) : Nat :=
  2 ^ ((s.reg (.lqsize (BitVec.ofNat 2 d) p (BitVec.ofNat 3 l))).toNat % 32)
def State.sqLen (s : State) (d : Nat) (p : PartNo) (l : Nat) : Nat :=
  2 ^ ((s.reg (.sqsize (BitVec.ofNat 2 d) p (BitVec.ofNat 3 l))).toNat % 32)
def State.cxCount (s : State) (d : Nat) (p : PartNo) : Nat := (s.reg (.cxcount (BitVec.ofNat 2 d) p)).toNat

/-- A level is full for new work (R68), as every level is while the context area is too small (R362). -/
def State.full (s : State) (d : Nat) (p : PartNo) (l : Nat) : Bool :=
  decide (s.cxCount d p < 96 + ((List.range 8).map (s.lqLen d p)).sum) || decide (s.lqLen d p l ≤ s.lqocc d p l + 96)

def lqBit (s : State) (d : Nat) (p : PartNo) (l : Nat) (v : W64) : State :=
  s.orReg (.lqstat (BitVec.ofNat 2 d) p (BitVec.ofNat 3 l)) v

/-! ### Fault records (R79, R355) -/

def State.pushRecord (s : State) (f : FRec) : State := s.modPart f.part fun x => { x with recs := x.recs ++ [f] }

/-- A record is quarantined: QUAR, and a record of source 5 (R79). -/
def State.quarantine (s : State) (d : Nat) (p : PartNo) (l : Nat) (raw : W512) (first : W64) (f : FaultName) : State :=
  (lqBit s d p l 4).pushRecord
    { info := { name := f, src := 5, ip := BitVec.ofNat 64 l }, part := p, die := d, tile := 0, slotB := false, inf := true,
      wid := first, raw := raw, ctx := .none }

/-- A record that no context waits on, of a source other than 5. -/
def State.infoRecord (s : State) (p : PartNo) (d t : Nat) (slotB : Bool) (wid : W64) (f : FaultInfo) : State :=
  s.pushRecord { info := f, part := p, die := d, tile := t, slotB := slotB, inf := true, wid := wid, raw := 0, ctx := .none }

/-! ### Admission (R61, R68, R69) -/

/-- A record takes its place in its ring: at the head or the tail. -/
def State.enqueue (s : State) (d : Nat) (p : PartNo) (r : W512) (head : Bool) : State :=
  let e : RingRec := { crec := r, next := 0, bind := none }
  s.modRing d p (recLevel r) fun x => { x with recs := if head then e :: x.recs else x.recs ++ [e] }

/-- The outcome of new work at a level: EN 0 or a full level 1, a quarantine 2, admission 0 (R68, R97, R300). -/
def State.admitNew (s : State) (d : Nat) (p : PartNo) (r : W512) : Nat × State :=
  if !(s.part p).en then (1, s)
  else match recordFault r with
    | some f => (2, s.quarantine d p (recLevel r) r 0 f)
    | none => if s.full d p (recLevel r) then (1, s) else (0, s.enqueue d p r false)

/-! ### Retirement (R73, R100) -/

/-- A slot whose task has ended holds none. -/
def Slot.noTask (x : Slot) : Slot :=
  { x with task := none, st := .free, hold := .none, accs := [], mq := [], cq := [], loop := none, phase := none, canc := 0,
           pendPreempt := false, moveDue := false, restoring := false, source := none, waited := 0, stall := 0, due := [], vfree := 0 }

/-- Waiters of a slot's core and engines leave its tile. -/
def State.dropWaiters (s : State) (t b : Nat) : State :=
  ((s.dropWaiter t (.core b)).dropWaiter t (.matrix b)).dropWaiter t (.copy b)

/-- A remote wait of the slot is cancelled (R94). -/
def State.cancelRemotes (s : State) (t b : Nat) : State :=
  { s with remotes := s.remotes.map fun m => if m.tile = t ∧ m.slot = b then { m with cancel := true } else m }

def State.retire (s : State) (t b : Nat) : State := (s.dropWaiters t b).modSlot t b Slot.noTask

/-! ### Joins (R99, R100) -/

/-- The bytes of a record at a physical key. -/
def State.recordAt (s : State) (k : Nat) : W512 := BitVec.ofNat 512 (s.readMem k 64)

/-- A physical key of a die's shared memory: its die. -/
def keyDie (k : Nat) : Nat := k / 2 ^ 57 - 1

/-- A join has reached zero: the continuation arrives on its reservation, or is quarantined for want of one (R100). -/
def State.joinZeroed (s : State) (p : PartNo) (k : Nat) : State :=
  let d := keyDie k
  match s.parked.find? fun x => x.key == k with
  | some x => { s with arrivals := s.arrivals ++ [⟨.join, x.part, d, s.recordAt k, BitVec.ofNat 64 k⟩] }
  | none =>
    let r := s.recordAt k
    s.quarantine d p (recLevel r) r 0 .progRecord

/-- One decrement of the join field at key k + 28 (R99, R100) by a task of a WID; `addr` is the record's address. -/
def State.decrementJoin (s : State) (p : PartNo) (wid : W64) (k : Nat) (addr : W64) : State :=
  let j := s.readMem (k + 28) 4
  if j = 0 then
    s.infoRecord p (keyDie k) 0 false wid { name := .progJoin, src := 6, addr := addr, ip := addr }
  else
    let s := s.writeMem (k + 28) 4 (j - 1)
    if j = 1 then s.joinZeroed p k else s

end Sys2Proof.Machine
end

