-- ==== Sys2Proof/Machine/CopyEngine.lean ====
section
/-! DEFINITION. Unit 10: the copy engine (R271–R281, R314, R322, R340–R343). -/

namespace Sys2Proof.Machine

/-! ### Parameters (R272, R340) -/

def fromWeights (i : Instr) (p : W64) : Bool :=
  match i with
  | .copy _ _ _ _ _ => p.getLsbD 3
  | _ => false

/-- The lock option; RROT always has it. -/
def lockstep : Instr → Bool
  | .copy _ _ _ l _ => l
  | .gath _ _ _ l _ => l
  | .scat _ _ _ l _ => l
  | .fill _ _ _ l _ => l
  | .reda _ _ _ l _ => l
  | .rrot _ _ _ _ => true
  | _ => false

/-- COPY.OPEN and COPY.SEAL, which no other command overlaps (R340). -/
def encrypted : Instr → Bool
  | .copyOpen _ _ _ _ => true
  | .copySeal _ _ _ _ => true
  | _ => false

def sizeOk (p : W64) : Bool := !p.getLsbD 2
def flat (h : W256) : Bool := hExt h 2 == 0 && hExt h 3 == 0 && hExt h 4 == 0 && hExt h 5 == 0

def indexParamOk (p : W64) (hd ha : W256) : Bool :=
  sizeOk p && p.extractLsb' 38 26 == 0 && p.extractLsb' 3 13 == 0 && p.extractLsb' 16 2 == 0 && flat hd && flat ha &&
  hExt hd 0 == hExt ha 0

def cryptParamOk (p : W64) (small big : W256) : Bool :=
  p.extractLsb' 38 26 == 0 && p.extractLsb' 6 10 == 0 && p.extractLsb' 16 3 == 0 && decide (hCount small ≤ 65536) &&
  hCount big == hCount small + 48

/-- The checks at issue. -/
def paramOk (i : Instr) (p : W64) (hd ha : W256) : Bool :=
  match i with
  | .copy _ _ _ _ _ => sizeOk p && p.extractLsb' 4 60 == 0 && hCount hd == hCount ha
  | .rrot _ _ _ _ => sizeOk p && p.extractLsb' 3 61 == 0 && hCount hd == hCount ha
  | .putc _ _ _ _ => sizeOk p && p.extractLsb' 3 3 == 0 && hCount hd == hCount ha
  | .gath _ _ _ _ _ => indexParamOk p hd ha
  | .scat _ _ _ _ _ => indexParamOk p hd ha
  | .reda _ _ _ _ _ => hCount hd == hCount ha
  | .copySeal _ _ _ _ => cryptParamOk p ha hd
  | .copyOpen _ _ _ _ => cryptParamOk p hd ha
  | _ => true

/-- A copy command is checked and enqueued with its copies of two handles and a scalar (R271, R272). -/
def pushCopy (i : Instr) (hd ha : Slot → W256) (param : Slot → W64) (s : State) : Res :=
  let x := s.core
  if !paramOk i (param x) (hd x) (ha x) then .trap .progCarg 0 0
  else enqueue false (fun c => { c with hd := hd x, ha := ha x, param := param x }) i s

def execCopy (hd ha : HReg) (sa : SReg) (lock : Bool) (e : Eng) (s : State) :=
  issue (.copy hd ha sa lock e) s (pushCopy (.copy hd ha sa lock e) (·.getH hd) (·.getH ha) (·.getS sa))
def execGath (hd ha : HReg) (sa : SReg) (lock : Bool) (e : Eng) (s : State) :=
  issue (.gath hd ha sa lock e) s (pushCopy (.gath hd ha sa lock e) (·.getH hd) (·.getH ha) (·.getS sa))
def execScat (hd ha : HReg) (sa : SReg) (lock : Bool) (e : Eng) (s : State) :=
  issue (.scat hd ha sa lock e) s (pushCopy (.scat hd ha sa lock e) (·.getH hd) (·.getH ha) (·.getS sa))
def execFill (z : Size) (hd : HReg) (sa : SReg) (lock : Bool) (e : Eng) (s : State) :=
  issue (.fill z hd sa lock e) s (pushCopy (.fill z hd sa lock e) (·.getH hd) noHandle (·.getS sa))
def execReda (op : RedaOp) (hd ha : HReg) (lock : Bool) (e : Eng) (s : State) :=
  issue (.reda op hd ha lock e) s (pushCopy (.reda op hd ha lock e) (·.getH hd) (·.getH ha) noScalar)
def execPutc (hd ha : HReg) (sa : SReg) (e : Eng) (s : State) :=
  issue (.putc hd ha sa e) s (pushCopy (.putc hd ha sa e) (·.getH hd) (·.getH ha) (·.getS sa))
def execRrot (hd ha : HReg) (sa : SReg) (e : Eng) (s : State) :=
  issue (.rrot hd ha sa e) s (pushCopy (.rrot hd ha sa e) (·.getH hd) (·.getH ha) (·.getS sa))
def execCopySeal (hd ha : HReg) (sa : SReg) (e : Eng) (s : State) :=
  issue (.copySeal hd ha sa e) s (pushCopy (.copySeal hd ha sa e) (·.getH hd) (·.getH ha) (·.getS sa))
def execCopyOpen (hd ha : HReg) (sa : SReg) (e : Eng) (s : State) :=
  issue (.copyOpen hd ha sa e) s (pushCopy (.copyOpen hd ha sa e) (·.getH hd) (·.getH ha) (·.getS sa))
def execCnop (e : Eng) (s : State) := issue (.cnop e) s (pushCopy (.cnop e) noHandle noHandle noScalar)

/-! ### At start (R274) -/

/-- Elements, or index-list entries, of a command. -/
def Cmd.total (c : Cmd) : Nat :=
  match c.instr with
  | .gath _ _ _ _ _ => hExt c.hd 1 + 1
  | .scat _ _ _ _ _ => hExt c.ha 1 + 1
  | .copySeal _ _ _ _ => 0
  | .copyOpen _ _ _ _ => 0
  | .cnop _ => 0
  | _ => hCount c.hd

/-- Offset of the index list or of the status word. -/
def listOff (p : W64) : Nat := (p.extractLsb' 16 22).toNat
/-- Address of PUTC's record. -/
def recordOff (p : W64) : W64 := p &&& ~~~(63 : W64)

/-- The handle of a W source within its region. -/
def regionPart (h : W256) : W256 := hPut h 0 64 ((hBase h).extractLsb' 0 26).toNat

/-- The handles whose elements are virtual addresses. -/
def Cmd.handles (c : Cmd) : List W256 :=
  match c.instr with
  | .fill _ _ _ _ _ => [c.hd]
  | .cnop _ => []
  | _ => if fromWeights c.instr c.param then [c.hd] else [c.hd, c.ha]

/-- The first element of a handle that a test picks, as a fault. -/
def elemBad (n : FaultName) (h : W256) (p : W64 → Bool) : Option Bad :=
  ((elemsOf h).find? fun i => p (hAddr h i)).map fun i => (n, hAddr h i, BitVec.ofNat 64 i)

def deviceWindow (va : W64) : Bool := match spaceOf va with
  | .cell _ _ _ => true
  | .config => true
  | _ => false

/-- A destination of REDA that no bank atomic reaches (R265). -/
def notBank (va : W64) : Bool := match spaceOf va with
  | .shared _ _ => false
  | .peer _ _ => false
  | _ => true

/-- A destination that PUTC does not admit (R279). -/
def notPutc (va : W64) : Bool := match spaceOf va with
  | .shared _ _ => false
  | .half _ _ _ _ => false
  | .peer _ _ => false
  | _ => true

/-- The rules of the addresses of one command (R274, R277, R279, R281, R340). -/
def addrBad (c : Cmd) : Option Bad :=
  let home := fun (h : W256) => homeBits (hBase h)
  let dev := firstBad (c.handles.map fun h => elemBad .progAddr h deviceWindow)
  let own := match c.instr with
    | .reda _ _ _ _ _ => elemBad .progAddr c.hd notBank
    | .putc _ _ _ _ =>
      firstBad [elemBad .progAddr c.hd notPutc,
        require (homeBits (recordOff c.param) == 0 && decide (offBits (recordOff c.param) < 0x400000)) .progAddr (recordOff c.param)]
    | .rrot _ _ _ _ => require (home c.hd == 0) .progAddr (hBase c.hd)
    | .copyOpen _ _ _ _ => require (home c.hd == 0) .progAddr (hBase c.hd)
    | .copySeal _ _ _ _ =>
      firstBad [require (home c.ha == 0) .progAddr (hBase c.ha), require (home c.hd != 0) .progAddr (hBase c.hd)]
    | _ => none
  let w := if fromWeights c.instr c.param then
      let a := hBase c.ha
      require (a.extractLsb' 40 24 == 0 && !a.getLsbD 31 && decide ((a.extractLsb' 32 8).toNat < Config.tiles)) .progAddr a
    else none
  firstBad [dev, own, w]

/-- An element of a handle of home 0x00 in the gap. -/
def gapElem (hd : W512) (h : W256) (n : Nat) : Option Bad :=
  if homeBits (hBase h) = 0 then elemBad .progResource h fun va => inGap hd (offBits va) n else none

/-- The gap rule for the elements, the index list, the record and the status word. -/
def resourceBad (hd : W512) (c : Cmd) : Option Bad :=
  let at' := fun (o n : Nat) => require (!inGap hd o n) .progResource (BitVec.ofNat 64 o)
  let hs := match c.instr with
    | .rrot _ _ _ _ => [c.ha]
    | _ => c.handles
  let more := match c.instr with
    | .gath _ _ _ _ _ => at' (listOff c.param) (4 * c.total)
    | .scat _ _ _ _ _ => at' (listOff c.param) (4 * c.total)
    | .putc _ _ _ _ => at' (offBits (recordOff c.param)) 64
    | .copyOpen _ _ _ _ => at' (listOff c.param) 8
    | .copySeal _ _ _ _ => at' (listOff c.param) 8
    | _ => none
  firstBad (hs.map (fun h => gapElem hd h c.size) ++ [more])

/-- The footprint of a W source leaves its region (R277). -/
def weightOut (c : Cmd) : Bool :=
  fromWeights c.instr c.param && !(decide (0 ≤ hLo (regionPart c.ha)) && decide (hHi (regionPart c.ha) c.size < 2 ^ 26))

/-- A sealed source with a destination beyond homes 0x00–0x04 (R322). -/
def State.sealedFar (s : State) (c : Cmd) : Bool :=
  fromWeights c.instr c.param && (s.region (regionNo (hBase c.ha).toNat)).sealed && decide (4 < homeBits (hBase c.hd))

def State.copyBad (s : State) (hd : W512) (c : Cmd) : Option Bad :=
  firstBad (c.handles.map (fun h => require (hValid h c.size) .progBounds (hBase h)) ++
    [require (!weightOut c) .progBounds (hBase c.ha)] ++
    c.handles.map (fun h => require (hAligned h c.size) .progAlign (hBase h)) ++
    [require (!fromWeights c.instr c.param || hAligned (regionPart c.ha) c.size) .progAlign (hBase c.ha),
     addrBad c, resourceBad hd c, require (!s.sealedFar c) .isoWindow (hBase c.ha)])

def readsIndex : Instr → Bool
  | .gath _ _ _ _ _ => true
  | .scat _ _ _ _ _ => true
  | _ => false

/-- The index list as read at start, and what is wrong with it. -/
def State.readIndex (s : State) (t b : Nat) (c : Cmd) : List W32 × Option Bad :=
  let k := halfKey t b + listOff c.param
  let l := (List.range c.total).map fun j => BitVec.ofNat 32 (s.readMem (k + 4 * j) 4)
  let table := match c.instr with
    | .gath _ _ _ _ _ => c.ha
    | _ => c.hd
  let entry := fun (j : Nat) => BitVec.ofNat 64 (listOff c.param + 4 * j)
  let n := List.range c.total
  (l, firstBad
    [(n.find? fun j => decide (0x400000 < listOff c.param + 4 * j + 4)).map fun j => (.progAddr, entry j, BitVec.ofNat 64 j),
     (n.find? fun j => s.isPoisoned (k + 4 * j) 4).map fun j => (.hwPoison, entry j, BitVec.ofNat 64 j),
     (n.find? fun j => decide (hExt table 1 < (l.getD j 0).toNat)).map fun j => (.progBounds, hBase table, BitVec.ofNat 64 j)])

/-- A command starts: its checks, its index list or its record; `id` is its rendezvous and `to` the slot of the successor. -/
def State.startCopy (s : State) (t b : Nat) (c : Cmd) (id : Option Nat) (dst : Nat) : State :=
  let x := s.slot t b
  let go := fun (f : Cmd → Cmd) => (s.modCmd t b false c.num fun y => f { y with started := true, rdv := id }).arm t b false
  match s.copyBad x.header c with
  | some (f, a, d) => s.engineFault t b false c f a d
  | none =>
    if readsIndex c.instr then
      match s.readIndex t b c with
      | (_, some (f, a, d)) => s.engineFault t b false c f a d
      | (l, none) => go fun y => { y with index := l, indexed := true }
    else match c.instr with
      | .putc _ _ _ _ =>
        let k := halfKey t b + offBits (recordOff c.param)
        if s.isPoisoned k 64 then s.engineFault t b false c .hwPoison (recordOff c.param) 0
        else go fun y => { y with record := s.recordAt k }
      | .rrot _ _ _ _ => go fun y => { y with record := BitVec.ofNat 512 dst }
      | _ => go fun y => y

/-- The head of the copy queue may start: its wait taken, no phase to wait for, those before it presented whole (R275, R340,
R369, R251). -/
def Slot.copyReady (x : Slot) : Option Cmd :=
  match x.cq.find? fun c => !c.started with
  | none => none
  | some c =>
    let before := x.cq.takeWhile fun y => y.started
    if c.wtaken && !c.held && c.fpend.isNone && x.pushReleased c &&
      before.all (fun y => !encrypted y.instr && decide (y.total ≤ y.count)) && (!encrypted c.instr || before.isEmpty)
    then some c else none

/-! ### Elements (R273) -/

/-- What presenting an element comes to: done, a fault with its address, or nothing yet. -/
inductive Try where
  | ok (s : State)
  | fault (n : FaultName) (addr : W64) (s : State)
  | wait (s : State)

def redaCode : RedaOp → Nat
  | .iadd => 0x03
  | .imin => 0x07
  | .imax => 0x08
  | .and => 0x04
  | .or => 0x05
  | .xor => 0x06
  | .fadd => 0x0B
  | .bfadd => 0x0B
  | .fmin => 0x0C
  | .fmax => 0x0D

/-- W-address of an element of a W source. -/
def weightElemAddr (h : W256) (i : Nat) : Nat :=
  (hBase h).toNat / 2 ^ 26 * 2 ^ 26 + (hOff (regionPart h) i).toNat

/-- Read of a source element, from memory or from weights. -/
def State.sourceElem (s : State) (t b : Nat) (c : Cmd) (va : W64) (w : Option Nat) : Got Nat × State :=
  let x := s.slot t b
  match w with
  | some a => (s.weightRead x.part a c.size, s)
  | none => s.readNow x.header t b x.part va c.size

/-- Write of a destination element; RROT writes the successor's half (R281). -/
def State.destElem (s : State) (t b : Nat) (c : Cmd) (va : W64) (v : Nat) : Got Unit × State :=
  let x := s.slot t b
  match c.instr with
  | .rrot _ _ _ _ =>
    let y := c.record.toNat
    (.ok (), s.writeMem (halfKey (y / 2) (y % 2) + offBits va) c.size v)
  | _ => s.writeNow x.header t b x.part va c.size v (coversBlock c.hd c.size va)

/-- A bank atomic without a fetch at an element (R278). -/
def State.reduceElem (s : State) (t b : Nat) (c : Cmd) (op : RedaOp) (va : W64) (v : Nat) : Got Unit × State :=
  match s.tileCheck (s.slot t b).header (s.slot t b).part va c.size true true with
  | some f => (.fault f, s)
  | none =>
  match s.homeAccept t b (s.slot t b).part va c.size with
  | (.ok (.mem k), s) =>
    if s.isPoisoned k c.size then (.fault .hwPoison, s)
    else (.ok (), s.writeMem k c.size
      (bankOp (redaCode op) c.size (BitVec.ofNat 64 (s.readMem k c.size)) (BitVec.ofNat 64 v) 0).toNat)
  | (.ok _, s) => (.ok (), s)
  | (.fault f, s) => (.fault f, s)
  | (.wait, s) => (.wait, s)

/-- Read, then write. -/
def State.moveElem (s : State) (t b : Nat) (c : Cmd) (src dst : W64) (w : Option Nat) : Try :=
  match s.sourceElem t b c src w with
  | (.fault f, s) => .fault f (match w with
    | some a => BitVec.ofNat 64 a
    | none => src) s
  | (.wait, s) => .wait s
  | (.ok v, s) =>
    let r := match c.instr with
      | .reda op _ _ _ _ => s.reduceElem t b c op dst v
      | _ => s.destElem t b c dst v
    match r with
    | (.ok (), s) => .ok s
    | (.fault f, s) => .fault f dst s
    | (.wait, s) => .wait s

/-- The elements (c, j) to (c, j) of an index-list entry from column `col` on. -/
def State.moveRow (s : State) (t b : Nat) (c : Cmd) (srcRow dstRow : Nat) : Nat → Nat → Try
  | 0, _ => .ok s
  | n + 1, col =>
    match s.moveElem t b c (hAddrAt c.ha [col, srcRow]) (hAddrAt c.hd [col, dstRow]) none with
    | .ok s => s.moveRow t b c srcRow dstRow n (col + 1)
    | r => r

/-- A refused index-list entry leaves no write behind, only what its translations changed (R274). -/
def State.undoEntry (old new : State) : State := { old with units := new.units, cfg := new.cfg, parts := new.parts }

/-- Element or entry c.count of a command. -/
def State.presentOne (s : State) (t b : Nat) (c : Cmd) : Try :=
  let i := c.count
  let entry := fun (r : Try) => match r with
    | .ok s => Try.ok s
    | .fault f a s' => .fault f a (s.undoEntry s')
    | .wait s' => .wait (s.undoEntry s')
  match c.instr with
  | .gath _ _ _ _ _ => entry (s.moveRow t b c (c.index.getD i 0).toNat i (hExt c.hd 0 + 1) 0)
  | .scat _ _ _ _ _ => entry (s.moveRow t b c i (c.index.getD i 0).toNat (hExt c.hd 0 + 1) 0)
  | .fill _ _ _ _ _ =>
    match s.destElem t b c (hAddr c.hd i) (c.param.toNat % 256 ^ c.size) with
    | (.ok (), s) => .ok s
    | (.fault f, s) => .fault f (hAddr c.hd i) s
    | (.wait, s) => .wait s
  | _ =>
    s.moveElem t b c (hAddr c.ha i) (hAddr c.hd i) (if fromWeights c.instr c.param then some (weightElemAddr c.ha i) else none)

/-- At most n elements or entries of a command presented, in order. -/
def State.present (s : State) (t b num : Nat) : Nat → State
  | 0 => s
  | n + 1 =>
    match (s.slot t b).cq.find? fun c => c.num == num with
    | none => s
    | some c =>
      if c.total ≤ c.count || c.fpend.isSome then s
      else match s.presentOne t b c with
        | .ok s => (s.modCmd t b false num fun y => { y with count := y.count + 1 }).present t b num n
        | .fault f a s => s.engineFault t b false c f a (BitVec.ofNat 64 c.count)
        | .wait s => s

/-- Every started command finishes its current chunk of 4,096 bytes (R276). -/
def State.finishChunks (s : State) (t b : Nat) : State :=
  ((s.slot t b).cq.filter fun c => c.started).foldl (fun s c =>
    if readsIndex c.instr then s
    else
      let per := 4096 / c.size
      s.present t b c.num ((per - c.count % per) % per)) s

/-! ### Encrypted buffers (R341–R343) -/

/-- Bytes read through a handle from element i on, or the fault of an element. -/
def State.readElems (s : State) (t b : Nat) (h : W256) : Nat → Nat → Got (List W32) × Nat × State
  | 0, i => (.ok [], i, s)
  | n + 1, i =>
    let x := s.slot t b
    match s.readNow x.header t b x.part (hAddr h i) 1 with
    | (.ok v, s) =>
      match s.readElems t b h n (i + 1) with
      | (.ok l, r) => (.ok (BitVec.ofNat 32 v :: l), r)
      | (.fault f, r) => (.fault f, r)
      | (.wait, r) => (.wait, r)
    | (.fault f, s) => (.fault f, i, s)
    | (.wait, s) => (.wait, i, s)

def nonce (stream : W32) (ctr : Nat) : Bytes := beBytes 4 stream.toNat ++ beBytes 8 ctr
def bufferHeader (stream : W32) (ctr n : Nat) : Bytes :=
  bytesOf 4 stream.toNat ++ bytesOf 4 0 ++ bytesOf 8 ctr ++ bytesOf 4 n ++ List.replicate 12 0

def State.keySlot (s : State) (k : Nat) : KeySlot := tget {} s.keys k
def State.putKeySlot (s : State) (k : Nat) (y : KeySlot) : State := { s with keys := tput s.keys k y }
/-- Code 3 of R342: not a stream slot of the partition. -/
def KeySlot.streamOf (y : KeySlot) (p : PartNo) : Bool := y.kind == 2 && y.part == p
def slotNo (p : W64) : Nat := (p.extractLsb' 0 6).toNat

/-- The outcome of COPY.OPEN before the counter is judged, with counter and tag; the plaintext where the tag agrees. -/
def openCode (y : KeySlot) (p : PartNo) (n : Nat) (bs : Bytes) : Option Nat :=
  if !y.streamOf p then some 3
  else if leNat (bs.take 4) ≠ y.openStream.toNat then some 4
  else if leNat ((bs.drop 16).take 4) ≠ n || (bs.drop 4).take 4 != List.replicate 4 0 || (bs.drop 20).take 12 != List.replicate 12 0
    then some 5
  else none

def openText (y : KeySlot) (n : Nat) (bs : Bytes) : Option Bytes :=
  gcmOpen (keyBytes y.key) (nonce y.openStream (leNat ((bs.drop 8).take 8))) (bs.take 32) ((bs.drop 32).take n)
    ((bs.drop (32 + n)).take 16)

/-- Bytes of the header of an encrypted buffer (R341). -/
def bufferHead : Nat := 32

/-- COPY.OPEN reads the header, and the ciphertext and the tag where the header and the slot admit them (R342). -/
def State.readBuffer (s : State) (t b : Nat) (c : Cmd) : State :=
  let bad := fun (f : FaultName) (i : Nat) (s : State) => s.engineFault t b false c f (hAddr c.ha i) (BitVec.ofNat 64 i)
  let keep := fun (l : List W32) (s : State) => s.modCmd t b false c.num fun y => { y with index := l, indexed := true }
  match s.readElems t b c.ha bufferHead 0 with
  | (.fault f, i, s) => bad f i s
  | (.wait, _, s) => s
  | (.ok h, _, s) =>
    match openCode (s.keySlot (slotNo c.param)) (s.slot t b).part (hCount c.hd) (h.map BitVec.toNat) with
    | some _ => keep h s
    | none => match s.readElems t b c.ha (hCount c.ha - bufferHead) bufferHead with
      | (.fault f, i, s) => bad f i s
      | (.wait, _, s) => s
      | (.ok l, _, s) => keep (h ++ l) s

/-- The command at the head, started, of a slot whose engines run. -/
def State.headStarted (s : State) (t : Nat) : Option Cmd :=
  let b := s.run t
  match (s.slot t b).cq with
  | [] => none
  | c :: _ => if s.enginesRun t b && c.started && c.fpend.isNone then some c else none

/-- The security core's step of COPY.OPEN; where the slot has come to admit a header read alone, the buffer is read again (R342). -/
def execCopyOpenCounterStep (t : Nat) (s : State) : Host.Outcome State Fault Refusal :=
  let b := s.run t
  match s.headStarted t with
  | none => .next s
  | some c => match c.instr with
    | .copyOpen _ _ _ _ =>
      if !c.indexed || c.sealStep.isSome || !s.serves .security then .next s
      else
        let p := (s.slot t b).part
        let k := slotNo c.param
        let y := s.keySlot k
        let bs := c.index.map BitVec.toNat
        let n := hCount c.hd
        let step := fun (code : Nat) (s : State) => s.modCmd t b false c.num fun z => { z with sealStep := some (code, 0) }
        let opened := fun (text : Bytes) (s : State) => s.modCmd t b false c.num fun z =>
          { z with sealStep := some (0, 0), index := text.map (BitVec.ofNat 32) }
        match openCode y p n bs with
        | some code => .next (step code s)
        | none =>
          if bs.length < hCount c.ha then .next (s.modCmd t b false c.num fun z => { z with indexed := false })
          else match openText y n bs with
          | none => .next (step 1 s)
          | some text =>
            let ctr := leNat ((bs.drop 8).take 8)
            let tag := ((bs.drop (32 + n)).take 16).map (BitVec.ofNat 8)
            if y.ctro.toNat < ctr then
              .next (opened text (s.putKeySlot k { y with ctro := BitVec.ofNat 64 ctr, tag := some tag }))
            else if ctr = y.ctro.toNat ∧ y.tag = some tag then .next (opened text s)
            else .next (step 2 s)
    | _ => .next s

/-- The security core's step of COPY.SEAL (R343). -/
def execCopySealCounterStep (t : Nat) (s : State) : Host.Outcome State Fault Refusal :=
  let b := s.run t
  match s.headStarted t with
  | none => .next s
  | some c => match c.instr with
    | .copySeal _ _ _ _ =>
      if c.sealStep.isSome || !s.serves .security then .next s
      else
        let k := slotNo c.param
        let y := s.keySlot k
        let step := fun (code : Nat) (v : W64) (s : State) => s.modCmd t b false c.num fun z => { z with sealStep := some (code, v) }
        if !y.streamOf (s.slot t b).part then .next (step 3 0 s)
        else if y.ctrs = BitVec.allOnes 64 then .next (step 6 0 s)
        else .next (step 0 (y.ctrs + 1) (s.putKeySlot k { y with ctrs := y.ctrs + 1 }))
    | _ => .next s

/-- Bytes written through a handle from element i on; COPY.SEAL may reach the host (R314). -/
def State.writeElems (s : State) (t b : Nat) (h : W256) : Bytes → Nat → Got Unit × Nat × State
  | [], i => (.ok (), i, s)
  | v :: r, i =>
    let x := s.slot t b
    let va := hAddr h i
    let w := match spaceOf va with
      | .host off =>
        if s.inWindow 0x20 x.part off 1 then (Got.ok (), s.writeMem (homeKey 0x20 off) 1 v) else (.fault .isoWindow, s)
      | _ => s.writeNow x.header t b x.part va 1 v (coversBlock h 1 va)
    match w with
    | (.ok (), s) => s.writeElems t b h r (i + 1)
    | (.fault f, s) => (.fault f, i, s)
    | (.wait, s) => (.wait, i, s)

def State.writeStatus (s : State) (t b : Nat) (c : Cmd) (code : Nat) : State :=
  s.writeMem (halfKey t b + listOff c.param) 8 code

/-- The last part of COPY.OPEN: the plaintext that its counter step kept, then the status word. -/
def State.endOpen (s : State) (t b : Nat) (c : Cmd) (code : Nat) : State :=
  let s := if code = 0 then
      (List.range (hCount c.hd)).foldl (fun s i =>
        s.writeMem (halfKey t b + offBits (hAddr c.hd i)) 1 (c.index.getD i 0).toNat) s
    else s
  (s.writeStatus t b c code).finishCmd t b false c

/-- The last part of COPY.SEAL: header, ciphertext and tag, then the status word. -/
def State.endSeal (s : State) (t b : Nat) (c : Cmd) (code : Nat) (ctr : W64) : State :=
  let again := { c with sealStep := none }
  if code ≠ 0 then (s.writeStatus t b c code).finishCmd t b false c
  else
    let n := hCount c.ha
    let y := s.keySlot (slotNo c.param)
    match s.readElems t b c.ha n 0 with
    | (.fault f, i, s) =>
      (s.modCmd t b false c.num fun _ => again).engineFault t b false again f (hAddr c.ha i) (BitVec.ofNat 64 i)
    | (.wait, _, s) => s
    | (.ok l, _, s) =>
      let hd := bufferHeader y.sealStream ctr.toNat n
      let (ct, tag) := gcmSeal (keyBytes y.key) (nonce y.sealStream ctr.toNat) hd (l.map BitVec.toNat)
      match s.writeElems t b c.hd (hd ++ ct ++ tag) 0 with
      | (.ok (), _, s) => (s.writeStatus t b c 0).finishCmd t b false c
      | (.fault f, i, s) =>
        (s.modCmd t b false c.num fun _ => again).engineFault t b false again f (hAddr c.hd i) (BitVec.ofNat 64 i)
      | (.wait, _, _) => s

/-! ### Events -/

/-- Peers answer with the words of the event while an engine reads from them. -/
def State.withPeerWords (s : State) (ext : List W64) (f : State → State) : State :=
  f { s with inbox := ext ++ s.inbox }

/-- Command i of the copy queue starts if it may, and presents at most n elements or entries (R273, R275). -/
def execCopyCommandStart (t i n : Nat) (ext : List W64) (s : State) : Host.Outcome State Fault Refusal :=
  let b := s.run t
  if !s.enginesRun t b then .next s
  else match (s.slot t b).cq[i]? with
    | none => .next s
    | some c =>
      let s := if c.started then s
        else match (s.slot t b).copyReady with
          | some r => if r.num = c.num && !lockstep c.instr then s.startCopy t b c none 0 else s
          | none => s
      match (s.slot t b).cq[i]? with
      | none => .next s
      | some c =>
        if !c.started || c.fpend.isSome then .next s
        else match c.instr with
          | .copyOpen _ _ _ _ => if c.indexed then .next s else .next (s.withPeerWords ext fun s => s.readBuffer t b c)
          | _ => .next (s.withPeerWords ext fun s => s.present t b c.num n)

/-- Tiles of a cluster on which a partition holds a slot (R280). -/
def State.participants (s : State) (die cluster : Nat) (p : PartNo) : List Nat :=
  ((List.range 8).map fun i => die * 48 + cluster * 8 + i).filter fun t => s.holder t 0 == some p || s.holder t 1 == some p

/-- The ready lockstep command of a tile's running slot of a partition. -/
def State.readyLockstep (s : State) (p : PartNo) (t : Nat) : Option Cmd :=
  let b := s.run t
  if s.holder t b == some p && s.enginesRun t b then
    match (s.slot t b).copyReady with
    | some c => if lockstep c.instr then some c else none
    | none => none
  else none

/-- The slot of the participant after a tile, cyclically, as tile × 2 + slot (R281). -/
def State.successor (s : State) (ts : List Nat) (t : Nat) : Nat :=
  let u := match ts.dropWhile fun x => decide (x ≤ t) with
    | u :: _ => u
    | [] => ts.headD t
  u * 2 + s.run u

/-- A partition's rendezvous in a cluster forms: every participant's command starts (R280). -/
def execLockstepRendezvous (die cluster : Nat) (s : State) : Host.Outcome State Fault Refusal :=
  let ok := fun (p : PartNo) =>
    let ts := s.participants die cluster p
    !ts.isEmpty && ts.all fun t => (s.readyLockstep p t).isSome
  match ((List.range 16).map (BitVec.ofNat 4)).find? ok with
  | none => .next s
  | some p =>
    let ts := s.participants die cluster p
    let (id, s') := s.newNum
    .next (ts.foldl (fun z t => match s.readyLockstep p t with
      | some c => z.startCopy t (s.run t) c (some id) (s.successor ts t)
      | none => z) s')

/-- Commands of a rendezvous: tile, slot, command. -/
def State.meeting (s : State) (id : Nat) : List (Nat × Nat × Cmd) :=
  (List.range Config.tiles).flatMap fun t => [0, 1].flatMap fun b =>
    ((s.slot t b).cq.filter fun c => c.rdv == some id).map fun c => (t, b, c)

def isRrot : Instr → Bool
  | .rrot _ _ _ _ => true
  | _ => false

/-- RROT completes at every participant at once (R281). -/
def State.endRrot (s : State) (t b : Nat) (c : Cmd) : State :=
  match c.rdv with
  | none => s.finishCmd t b false c
  | some id =>
    let ms := (s.meeting id).filter fun m => isRrot m.2.2.instr
    let ready := fun (m : Nat × Nat × Cmd) =>
      decide (m.2.2.total ≤ m.2.2.count) && ((s.slot m.1 m.2.1).cq.head?.map (·.num)) == some m.2.2.num && s.enginesRun m.1 m.2.1
    if ms.all ready then ms.foldl (fun s m => s.finishCmd m.1 m.2.1 false m.2.2) s else s

/-- PUTC: its record is submitted once, and the command ends when it has landed (R279). -/
def State.endPutc (s : State) (t b : Nat) (c : Cmd) : State :=
  if c.landed then s.finishCmd t b false c
  else if c.written then s
  else
    let s := s.modCmd t b false c.num fun y => { y with written := true }
    match spaceOf (hBase c.hd) with
    | .peer _ _ => s.modCmd t b false c.num fun y => { y with landed := true }
    | _ =>
      let a : Arrival := { via := .putc t b c.num, part := (s.slot t b).part, die := homeBits (hBase c.hd) - 1,
                           crec := c.record, addr := 0 }
      { s with arrivals := s.arrivals ++ [a] }

/-- The head of the copy queue reaches its completion point, or a signal that is due is sent (R95). -/
def execCopyCommandComplete (t : Nat) (s : State) : Host.Outcome State Fault Refusal :=
  let b := s.run t
  match s.headStarted t with
  | none => .next s
  | some c =>
    if c.sigdue then .next (s.finishCmd t b false c)
    else match c.instr, c.sealStep with
      | .copyOpen _ _ _ _, some (code, _) => .next (s.endOpen t b c code)
      | .copySeal _ _ _ _, some (code, v) => .next (s.endSeal t b c code v)
      | .copyOpen _ _ _ _, none => .next s
      | .copySeal _ _ _ _, none => .next s
      | .rrot _ _ _ _, _ => if c.total ≤ c.count then .next (s.endRrot t b c) else .next s
      | .putc _ _ _ _, _ => if c.total ≤ c.count then .next (s.endPutc t b c) else .next s
      | _, _ => if c.total ≤ c.count then .next (s.finishCmd t b false c) else .next s

end Sys2Proof.Machine
end

