-- ==== Sys2Proof/Machine/Tasks.lean ====
section
/-! DEFINITION. Task instructions of unit 4 and the phase instruction's hold (R97–R102). -/

namespace Sys2Proof.Machine

/-- s[sa] + SignExt(imm36, 64). -/
def recordAddr (x : Slot) (sa : SReg) (disp : BitVec 36) : W64 := x.getS sa + disp.signExtend 64

/-- SPAWN and SPAWNB: the record is read as a plain load once the core's earlier stores are performed, and the core is held
for the status (R97, R98). -/
def spawnRecord (via : SReg → Via) (sd sa : SReg) (disp : BitVec 36) (s : State) : Res :=
  let x := s.core
  let a := recordAddr x sa disp
  let b := s.run s.cur
  if offBits a % 64 ≠ 0 then .trap .progAlign a 0
  else if x.accs.any Access.pending then .hold s
  else match s.readNow x.header s.cur b x.part a 64 with
    | (.fault f, _) => .trap f a 0
    | (.wait, s) => .hold s
    | (.ok v, s) =>
      let a : Arrival := { via := via sd, part := x.part, die := dieOf s.cur, crec := BitVec.ofNat 512 v, addr := 0 }
      .hold ({ s with arrivals := s.arrivals ++ [a] }.modCore fun x => { x with hold := .spawn sd })

def execSpawn (sd sa : SReg) (disp : BitVec 36) (s : State) :=
  issue (.spawn sd sa disp) s fun s => spawnRecord (.spawn s.cur (s.run s.cur)) sd sa disp s
def execSpawnb (sd sa : SReg) (disp : BitVec 36) (s : State) :=
  issue (.spawnb sd sa disp) s fun s => spawnRecord (.spawnb s.cur (s.run s.cur)) sd sa disp s

/-- The physical key of a record in die shared memory within a window of the partition (R99, R100). -/
def State.continuationKey (s : State) (t b : Nat) (p : PartNo) (a : W64) : Got Nat × State :=
  match spaceOf a with
  | .shared _ _ =>
    match s.homeAccept t b p a 64 with
    | (.ok (.mem k), s) => (.ok k, s)
    | (.ok _, s) => (.fault .progAddr, s)
    | (.fault f, s) => (.fault f, s)
    | (.wait, s) => (.wait, s)
  | _ => (.fault .progAddr, s)

/-- PARK: the record's place is checked before anything else happens; then the core is held (R99). -/
def parkRecord (sd sa : SReg) (disp : BitVec 36) (s : State) : Res :=
  let x := s.core
  let a := recordAddr x sa disp
  if offBits a % 64 ≠ 0 then .trap .progAlign a 0
  else match s.continuationKey s.cur (s.run s.cur) x.part a with
    | (.fault f, _) => .trap f a 0
    | (.wait, s) => .hold s
    | (.ok _, s) => .hold (s.modCore fun x => { x with hold := .park sd a false })

def execPark (sd sa : SReg) (disp : BitVec 36) (s : State) := issue (.park sd sa disp) s (parkRecord sd sa disp)

/-- DONE: the core is held until the task retires (R100). -/
def execTaskDone (sa : SReg) (s : State) :=
  issue (.taskDone sa) s fun s => .hold (s.modCore fun x => { x with hold := .done sa (x.getS sa) false })

/-- YIELD: the task stops; it goes on at the group that follows, unless another stop goes first (R101, R353). -/
def execYield (s : State) := issue .yield s fun s => .hold (s.modCore fun x => x.beginStop .yield)

/-- WIDF (R102). -/
def execWidf (sd : SReg) (f : BitVec 3) (s : State) :=
  issue (.widf sd f) s (onCore fun x => x.setS sd (match x.task with
    | some k => widField k.header k.wid f.toNat
    | none => 0))

end Sys2Proof.Machine
end

