-- ==== Sys2Proof/Machine/TaskEvents.lean ====
section
/-! DEFINITION. Events of tasks: the retirement of PARK and DONE, admission and dispatch (R64, R65, R68–R72, R79, R99, R100,
R279, R363, R364). -/

namespace Sys2Proof.Machine

/-! ### PARK and DONE (R99, R100) -/

/-- The phase is closed, both engine queues are empty and every access of the core is complete. -/
def Slot.drained (x : Slot) : Bool := x.phase.isNone && x.mq.isEmpty && x.cq.isEmpty && x.accs.isEmpty && x.st == .busy

/-- The core goes on after a status. -/
def State.status (s : State) (t b : Nat) (sd : SReg) (v : Nat) : State :=
  s.modSlot t b fun x => (x.setS sd (BitVec.ofNat 64 v)).release

def Slot.wid (x : Slot) : W64 := match x.task with
  | some k => k.wid
  | none => 0

/-- Steps 2 to 5 of PARK for the record at key k (R99). -/
def State.park (s : State) (t b : Nat) (sd : SReg) (addr : W64) (k : Nat) : State :=
  let x := s.slot t b
  let p := x.part
  let d := keyDie k
  let raw := s.recordAt k
  let r := joinZero raw
  let l := recLevel r
  if !(s.part p).en then s.status t b sd 1
  else match (if recJoin raw = 0 then some .progRecord else recordFault r : Option FaultName) with
    | some f =>
      let f := if recCrc r ≠ recordCrc r then .hwCrc else f
      (s.quarantine d p l raw 0 f).status t b sd 2
    | none =>
      if s.full d p l then s.status t b sd 1
      else
        let y : Parked := ⟨k, addr, p, d, l⟩
        let s := { s with parked := s.parked ++ [y] }
        (s.decrementJoin p x.wid k addr).retire t b

/-- A continuation is registered, and its parent retires (R99). -/
def execParkRegister (t : Nat) (s : State) : Host.Outcome State Fault Refusal :=
  let b := s.run t
  let x := s.slot t b
  match x.hold with
  | .park sd addr _ =>
    if !x.drained then .next s
    else match s.continuationKey t b x.part addr with
      | (.fault f, s) => .next (s.modSlot t b fun x => x.trap f addr 0)
      | (.wait, s) => .next s
      | (.ok k, s) =>
        if s.isPoisoned k 64 then .next (s.modSlot t b fun x => x.trap .hwPoison addr 0)
        else .next (s.park t b sd addr k)
  | _ => .next s

/-- The join is decremented, and the tile becomes idle (R100). -/
def execDoneRetire (t : Nat) (s : State) : Host.Outcome State Fault Refusal :=
  let b := s.run t
  let x := s.slot t b
  match x.hold with
  | .done sa addr _ =>
    if !x.drained then .next s
    else if sa = 0 then .next (s.retire t b)
    else if offBits addr % 64 ≠ 0 then .next (s.modSlot t b fun x => x.trap .progAddr addr 0)
    else match s.continuationKey t b x.part addr with
      | (.fault f, s) => .next (s.modSlot t b fun x => x.trap f addr 0)
      | (.wait, s) => .next s
      | (.ok k, s) =>
        if s.isPoisoned (k + 28) 4 then .next (s.modSlot t b fun x => x.trap .hwPoison addr 0)
        else .next ((s.decrementJoin x.part x.wid k addr).retire t b)
  | _ => .next s

/-! ### Admission -/

/-- Order among the arrivals of a die (R69), then the package tile number. -/
def Via.rank : Via → Nat × Nat
  | .head t => (1, t)
  | .tail => (2, 0)
  | .join => (3, 0)
  | .spawn t _ _ => (4, t)
  | .spawnb t _ _ => (4, t)
  | .putc _ _ _ => (5, 0)
  | .peer => (5, 0)

def Via.before (a b : Via) : Bool :=
  decide (a.rank.1 < b.rank.1) || (a.rank.1 == b.rank.1 && decide (a.rank.2 < b.rank.2))

/-- The position of the arrival that the die admits next: the first among those of the lowest rank. -/
def nextArrival (d : Nat) (l : List Arrival) : Option Nat :=
  let at' := (List.range l.length).filter fun i => (l[i]?.map (·.die)) == some d
  at'.foldl (fun best i => match best with
    | none => some i
    | some j => match l[i]?, l[j]? with
      | some a, some b => if a.via.before b.via then some i else some j
      | _, _ => some j) none

/-- The PUTC command that waits for its continuation goes on (R279). -/
def State.landed (s : State) (v : Via) : State :=
  match v with
  | .putc t b n => s.modSlot t b fun x => { x with cq := x.cq.map fun c => if c.num = n then { c with landed := true } else c }
  | _ => s

/-- A PUTC continuation or one from a peer: discarded, quarantined, held for space, or admitted (R68, R279, R300). -/
def State.land (s : State) (a : Arrival) : State :=
  let l := recLevel a.crec
  if !(s.part a.part).en then s.landed a.via
  else match recordFault a.crec with
    | some f => (s.quarantine a.die a.part l a.crec 0 f).landed a.via
    | none =>
      if s.full a.die a.part l || !(s.ring a.die a.part l).held.isEmpty then
        (lqBit s a.die a.part l 2).modRing a.die a.part l fun x => { x with held := x.held ++ [a] }
      else (s.enqueue a.die a.part a.crec false).landed a.via

/-- The compute dies that hold tiles of a partition (R98). -/
def State.diesOf (s : State) (p : PartNo) : List Nat :=
  (List.range Config.dies).filter fun d => (List.range Config.tilesPerDie).any fun i =>
    s.holder (d * 48 + i) 0 == some p || s.holder (d * 48 + i) 1 == some p

/-- The shares of SPAWNB: die, first instance, count (R98). -/
def shares (ds : List Nat) (n : Nat) : List (Nat × Nat × Nat) :=
  let m := ds.length
  ((List.range m).map fun k => (ds.getD k 0, k * n / m, (k + 1) * n / m - k * n / m)).filter fun x => x.2.2 != 0

def shareRecord (r : W512) (first n : Nat) : W512 :=
  withCrc (put512 (put512 r 480 32 n) 128 64 ((recWid r).toNat + first))

/-- SPAWNB: every target die has room, or nothing is admitted (R98). -/
def State.admitSpread (s : State) (d : Nat) (p : PartNo) (r : W512) : Nat × State :=
  if !(s.part p).en then (1, s)
  else match recordFault r with
    | some f => (2, s.quarantine d p (recLevel r) r 0 f)
    | none =>
      let sh := shares (s.diesOf p) (recCount r)
      if sh.any fun x => s.full x.1 p (recLevel r) then (1, s)
      else (0, sh.foldl (fun s x => s.enqueue x.1 p (shareRecord r x.2.1 x.2.2) false) s)

/-- A continuation whose join reached zero is read, checked and admitted on its reservation (R61, R68, R99). -/
def State.admitJoin (s : State) (a : Arrival) : State :=
  let k := a.addr.toNat
  let r := s.recordAt k
  let s := { s with parked := s.parked.filter fun x => x.key != k }
  if !(s.part a.part).en then s
  else if s.isPoisoned k 64 then s.quarantine a.die a.part (recLevel r) r 0 .hwPoison
  else match recordFault r with
    | some f => s.quarantine a.die a.part (recLevel r) r 0 f
    | none => s.enqueue a.die a.part r false

/-- A context re-enqueued; the reservation of one moved out is used up (R68, R357). -/
def State.admitContext (s : State) (a : Arrival) (head : Bool) : State :=
  let used := fun (k : Saved) => if k.addr = a.addr then { k with moved := false } else k
  ({ s with saved := s.saved.map used } : State).enqueue a.die a.part a.crec head

/-- One arrival is admitted, refused, held or quarantined. -/
def State.admitRecord (s : State) (a : Arrival) : State :=
  match a.via with
  | .head _ => s.admitContext a true
  | .tail => s.admitContext a false
  | .join => s.admitJoin a
  | .spawn t b sd => let (v, s) := s.admitNew a.die a.part a.crec; s.status t b sd v
  | .spawnb t b sd => let (v, s) := s.admitSpread a.die a.part a.crec; s.status t b sd v
  | .putc _ _ _ => s.land a
  | .peer => s.land a

/-- The die's dispatcher admits its next arrival (R68, R69). -/
def execRecordAdmission (die : Nat) (s : State) : Host.Outcome State Fault Refusal :=
  match nextArrival die s.arrivals with
  | none => .next s
  | some i => match s.arrivals[i]? with
    | none => .next s
    | some a => .next ({ s with arrivals := s.arrivals.eraseIdx i }.admitRecord a)

/-- A write of SQTAIL (R68). -/
def execSqtailWrite (p : PartNo) (die : Nat) (l : BitVec 3) (v : W64) (s : State) : Host.Outcome State Fault Refusal :=
  let d := die % Config.dies
  let n := s.sqLen d p l.toNat
  let r := s.ring d p l.toNat
  let tail := v.toNat % 2 ^ 20
  let back := fun (t : Nat) => (t + 2 ^ 20 - r.sqHead) % n
  if back tail < back r.sqTail then .next (lqBit s d p l.toNat 1)
  else .next (s.modRing d p l.toNat fun x => { x with sqTail := tail })

/-- The submission ring's next record is admitted or quarantined (R61, R68). -/
def execSubmissionAdmission (p : PartNo) (die : Nat) (l : BitVec 3) (s : State) : Host.Outcome State Fault Refusal :=
  let d := die % Config.dies
  let n := s.sqLen d p l.toNat
  let r := s.ring d p l.toNat
  if (r.sqTail + 2 ^ 20 - r.sqHead) % n = 0 || !(s.part p).en || s.full d p l.toNat then .next s
  else
    let base := (s.reg (.sqbase (BitVec.ofNat 2 d) p l)).toNat % 2 ^ 26 / 64 * 64
    let k := homeKey (1 + d) (base + 64 * (r.sqHead % n))
    let rc := s.recordAt k
    let s := s.modRing d p l.toNat fun x => { x with sqHead := (x.sqHead + 1) % 2 ^ 20 }
    if s.isPoisoned k 64 then .next (s.quarantine d p l.toNat rc 0 .hwPoison)
    else match recordFault rc with
      | some f => .next (s.quarantine d p l.toNat rc 0 f)
      | none =>
        if recLevel rc ≠ l.toNat then .next (s.quarantine d p l.toNat rc 0 .progRecord)
        else .next (s.enqueue d p rc false)

/-- The oldest held continuation of a level finds room (R68). -/
def execHeldContinuationAdmission (p : PartNo) (die : Nat) (l : BitVec 3) (s : State) : Host.Outcome State Fault Refusal :=
  let d := die % Config.dies
  match (s.ring d p l.toNat).held with
  | [] => .next s
  | a :: r =>
    if s.full d p l.toNat then .next s
    else .next (((s.modRing d p l.toNat fun x => { x with held := r }).enqueue d p a.crec false).landed a.via)

/-! ### Dispatch (R70–R72, R64, R65) -/

/-- A tile of the die is idle for a partition (R70). -/
def State.idleFor (s : State) (p : PartNo) (t : Nat) : Bool :=
  let x := s.tile t
  !x.idle && s.holder t x.run == some p && (x.slot x.run).st == .free && (x.slot x.run).task.isNone

def State.idleTiles (s : State) (d : Nat) (p : PartNo) : List Nat :=
  ((List.range Config.tilesPerDie).map (d * 48 + ·)).filter (s.idleFor p)

/-- The highest level of a partition that holds a record. -/
def State.topLevel (s : State) (d : Nat) (p : PartNo) : Option Nat :=
  [7, 6, 5, 4, 3, 2, 1, 0].find? fun l => !(s.ring d p l).recs.isEmpty

/-- The partition and level that the dispatcher serves next. -/
def State.nextDispatch (s : State) (d : Nat) : Option (PartNo × Nat) :=
  ((List.range 16).map (BitVec.ofNat 4)).findSome? fun p =>
    if (s.idleTiles d p).isEmpty then none else (s.topLevel d p).map fun l => (p, l)

/-- The cluster with the most idle tiles, the lowest on a tie (R72). -/
def bestCluster (idle : List Nat) : Nat :=
  let n := fun c => (idle.filter fun t => localOf t / 8 == c).length
  (List.range 6).foldl (fun best c => if n best < n c then c else best) 0

/-- The binding in force for an instance and the tile it goes to (R72). -/
def place (h : W512) (wid : W64) (bind : Option (Nat × Nat)) (idle : List Nat) : Option (Nat × Nat) × Nat :=
  let first := idle.headD 0
  if hdrCluster h = 7 then (none, first)
  else
    let g := wid.toNat / 2 ^ (((hdrWidths h).take (hdrFields h)).drop (hdrCluster h + 1)).sum
    let c := match bind with
      | some (g', c) => if g' = g then c else bestCluster idle
      | none => bestCluster idle
    (some (g, c), (idle.find? fun t => localOf t / 8 == c).getD first)

/-- What a slot holds when a task starts (R65). -/
def Slot.load (x : Slot) (p : PartNo) (l : Nat) (wid : W64) (h r : W512) (n : Nat) : Slot :=
  { x with
    s := [(1, recArg0 r), (2, recArg1 r), (61, wid), (62, recFrame r), (63, 0x400000)]
    h := [], q := 1, v := [], k := [], t := [], a := [], ml := [], lc := 0, rb := 0, mstat := 0
    budg := hdrBudget h, ret := [], rss := 0, loop := none, pc := recCode r
    task := some ⟨p, l, wid, h, ownRecord r wid, n⟩
    st := .busy, hold := .none, accs := [], mq := [], cq := [], queries := [], phase := none, canc := 0
    restoring := false, pendPreempt := false, moveDue := false, ran := 0, waited := 0, stall := 0, source := none
    due := [], vfree := 0 }

/-- Saved cells return to a tile's own cells of the partition (R363, R370). -/
def State.putCells (s : State) (t : Nat) (p : PartNo) (cs : List Cell) : State :=
  (List.range cs.length).foldl (fun s i =>
    let y := s.cell t i
    if y.ownedBy p then s.putCell t i { cs.getD i {} with v := y.v, part := y.part } else s) s

/-- Saved bytes, by offset, return to a half. -/
def State.putHalf (s : State) (t b : Nat) (bs : List Host.Cell) : State :=
  bs.foldl (fun s c => s.writeMem (halfKey t b + c.1) 1 c.2.toNat) s

/-- Bytes of the data area and of the stack area become zero before the saved ones are written. -/
def State.clearHalf (s : State) (t b : Nat) (h : W512) : State :=
  let k := halfKey t b
  { s with mem := memClear (memClear s.mem k (k + hdrSpad h)) (k + 0x400000 - hdrStack h) (k + 0x400000) }

/-- A saved context enters a slot (R65, R363). -/
def State.restore (s : State) (t b : Nat) (k : Saved) (overrun : Bool) : State :=
  let h := k.slot.header
  let s := s.modSlot t b fun x =>
    { k.slot with
      st := .busy, hold := .none, restoring := true, source := some k.addr, finfo := x.finfo, writeOut := x.writeOut
      pendPreempt := false, moveDue := false, ran := 0, waited := 0, stall := 0, due := [], vfree := 0
      budg := if overrun then hdrBudget h else k.slot.budg }
  let s := (s.clearHalf t b h).putHalf t b k.bytes
  let s := s.putCells t k.part k.cells
  let s := { s with saved := s.saved.map fun (y : Saved) => if y.addr = k.addr then { y with used := true, moved := false } else y }
  s.resumeEngines t b

/-- What the head record comes to: a header to load under, a context to restore, a fault, or nothing yet. -/
inductive Ready where
  | load (h : W512)
  | restore (k : Saved)
  | bad (f : FaultName)
  | wait
deriving DecidableEq, Repr, Inhabited

/-- The physical key of an entry of a context area (R362). -/
def entryKey (addr : W64) : Nat := homeKey (homeBits addr) (offBits addr)

/-- The header of an entry's image has its CRC (R364, R365). -/
def State.imageGood (s : State) (addr : W64) : Bool :=
  s.readMem (entryKey addr + 0xFFC) 4 == (crc32c (s.readBytes (entryKey addr) 0xFFC)).toNat

/-- The checks at dispatch (R61, R64, R364). -/
def State.readyAt (s : State) (d : Nat) (p : PartNo) (l : Nat) (r : W512) : Ready × State :=
  match recordFault r with
  | some f => (.bad f, s)
  | none =>
    if recResume r then
      match s.saved.find? fun k => k.addr == recArg0 r && k.die == d && k.part == p && !k.used with
      | none => (.bad .progRecord, s)
      | some k =>
        if !s.imageGood k.addr then (.bad .hwCrc, s)
        else match headerFault k.slot.header l with
          | some f => (.bad f, s)
          | none => (.restore k, s)
    else if homeBits (recHeader r) = 0 then (.bad .progAddr, s)
    else match s.readNow 0 (d * 48) 0 p (recHeader r) 64 with
      | (.ok v, s) => match headerFault (BitVec.ofNat 512 v) l with
        | some f => (.bad f, s)
        | none => (.load (BitVec.ofNat 512 v), s)
      | (.fault f, s) => (.bad f, s)
      | (.wait, s) => (.wait, s)

/-- The head of a level leaves the ring, or stands at its next instance (R71). -/
def State.popInstance (s : State) (d : Nat) (p : PartNo) (l : Nat) (bind : Option (Nat × Nat)) : State :=
  s.modRing d p l fun x => match x.recs with
    | [] => x
    | e :: r => if recCount e.crec ≤ e.next + 1 then { x with recs := r } else { x with recs := { e with next := e.next + 1, bind := bind } :: r }

/-- One dispatch of a die (R70). -/
def execDispatch (die : Nat) (s : State) : Host.Outcome State Fault Refusal :=
  match s.nextDispatch die with
  | none => .next s
  | some (p, l) => match (s.ring die p l).recs with
    | [] => .next s
    | e :: rest =>
      let wid := recWid e.crec + BitVec.ofNat 64 e.next
      let idle := s.idleTiles die p
      match s.readyAt die p l e.crec with
      | (.wait, s) => .next s
      | (.bad f, s) =>
        .next ((s.modRing die p l fun x => { x with recs := rest }).quarantine die p l e.crec (BitVec.ofNat 64 e.next) f)
      | (.load h, s) =>
        let (bind, t) := place h wid e.bind idle
        let (n, s) := s.newNum
        .next ((s.popInstance die p l bind).modSlot t (s.run t) fun x => x.load p l wid h e.crec n)
      | (.restore k, s) =>
        let (bind, t) := place k.slot.header wid e.bind idle
        .next ((s.popInstance die p l bind).restore t (s.run t) k (recOverrun e.crec))

end Sys2Proof.Machine
end

