-- ==== Sys2Proof/Machine/Sward.lean ====
section
/-! DEFINITION. Unit 11 and the Sward unit of a die: offers, acceptance, operations, answers and images (R203–R220). -/

namespace Sys2Proof.Machine

/-! ### Where a task is -/

/-- The resident slot that holds a task of a die. -/
def State.whereTask (s : State) (d num : Nat) : Option (Nat × Nat) :=
  let holds := fun (t b : Nat) => match (s.slot t b).task with
    | some k => k.num == num
    | none => false
  ((List.range Config.tilesPerDie).map (d * 48 + ·)).findSome? fun t =>
    if holds t 0 then some (t, 0) else if holds t 1 then some (t, 1) else none

def Saved.holds (k : Saved) (num : Nat) : Bool := !k.used && match k.slot.task with
  | some x => x.num == num
  | none => false

/-- A task's context changes, in its slot or where it is saved; nothing changes once the task has ended (R208). -/
def State.modTask (s : State) (d num : Nat) (f : Slot → Slot) : State :=
  match s.whereTask d num with
  | some (t, b) => s.modSlot t b f
  | none => { s with saved := s.saved.map fun k => if k.holds num then { k with slot := f k.slot } else k }

/-- A task is saved out of its slot. -/
def State.isSaved (s : State) (num : Nat) : Bool := s.saved.any fun k => k.holds num

/-! ### At issue (R207, R208) -/

/-- The core waits on the wait cell, if there is one, and then offers the command. -/
def offerCommand (mk : Slot → Offer → Offer) (i : Instr) (s : State) : Res :=
  let (n, s) := s.newNum
  let x := s.core
  let o := mk x { instr := i, num := n, words := x.gwords, addr := x.ipc, wid := x.wid, header := x.header }
  match ((i.eng?).getD ⟨none, none, false⟩).wait with
  | none => .hold (s.modCore fun x => { x with hold := .offer o })
  | some (c, wa) =>
    if !(s.cell s.cur c.toNat).ownedBy x.part then .trap .isoWindow (cellAddr s.cur c.toNat) 0
    else
      let w : Waiter := { who := .core (s.run s.cur), cell := c.toNat, need := .eng (wa.setWidth 32), since := (s.tile s.cur).cyc }
      .hold ((s.addWaiter s.cur w).modCore fun x => { x with hold := .offerWait o })

def scalars (sx sy : SReg) (x : Slot) (o : Offer) : Offer := { o with x := x.getS sx, y := x.getS sy }

def execSwopen (sx sy : SReg) (e : Eng) (s : State) :=
  issue (.swopen sx sy e) s (offerCommand (scalars sx sy) (.swopen sx sy e))
/-- The token source is read at issue (R212). -/
def execSwapp (sx sy : SReg) (v : VReg) (row : BitVec 4) (e : Eng) (s : State) :=
  issue (.swapp sx sy v row e) s (offerCommand (fun x o =>
    let o := scalars sx sy x o
    { o with toks := ((List.range (min o.y.toNat (1024 - 64 * row.toNat))).map fun i => (x.getV v).get (64 * row.toNat + i)) })
    (.swapp sx sy v row e))
def execSwqry (sx sy : SReg) (e : Eng) (s : State) :=
  issue (.swqry sx sy e) s (offerCommand (scalars sx sy) (.swqry sx sy e))
/-- The ml registers are interlocked among pops (R214). -/
def execSwpop (v : VReg) (sx : SReg) (row : BitVec 4) (e : Eng) (s : State) :=
  issue (.swpop v sx row e) s fun s =>
    if (s.swOpsOf s.cur (s.run s.cur)).any fun o => !o.writesV.isEmpty then .hold s
    else offerCommand (fun x o => { o with x := x.getS sx, vd := x.phys v }) (.swpop v sx row e) s
def execSwevt (sx sy : SReg) (e : Eng) (s : State) :=
  issue (.swevt sx sy e) s (offerCommand (scalars sx sy) (.swevt sx sy e))
def execSwsave (sx sy : SReg) (e : Eng) (s : State) :=
  issue (.swsave sx sy e) s (offerCommand (scalars sx sy) (.swsave sx sy e))
def execSwload (sx sy : SReg) (e : Eng) (s : State) :=
  issue (.swload sx sy e) s (offerCommand (scalars sx sy) (.swload sx sy e))
def execSwclose (sx : SReg) (e : Eng) (s : State) :=
  issue (.swclose sx e) s (offerCommand (fun x o => { o with x := x.getS sx }) (.swclose sx e))

/-! ### Contexts (R203, R204, R211) -/

def swContexts : Nat := 4096
def swPool : Nat := 4194304
/-- end never exceeds this. -/
def swTop : Nat := 0xFFFFFFFE

def Die.ctx (d : Die) (n : Nat) : Option SwCtx := (d.sw.find? fun e => e.1 == n).map (·.2)
def Die.dropCtx (d : Die) (n : Nat) : Die := { d with sw := d.sw.filter fun e => e.1 != n }
def Die.modCtx (d : Die) (n : Nat) (f : SwCtx → SwCtx) : Die :=
  { d with sw := d.sw.map fun e => if e.1 = n then (e.1, f e.2) else e }
/-- SWUSED and SWFREE. -/
def Die.swUsed (d : Die) (p : PartNo) : Nat := ((d.sw.filter fun e => e.2.part == p).map fun e => e.2.quota).sum
def Die.swFree (d : Die) : Nat := swPool - (d.sw.map fun e => e.2.quota).sum
/-- SWSHARE in force. -/
def State.swShare (s : State) (d : Nat) (p : PartNo) : Nat := min ((s.reg (.swshare (BitVec.ofNat 2 d) p)).toNat % 2 ^ 23) swPool

/-- The number of a context that a quota can be reserved for. -/
def State.reserve (s : State) (d : Nat) (p : PartNo) (q : Nat) : Option Nat :=
  let x := s.die d
  if q ≤ x.swFree ∧ x.swUsed p + q ≤ s.swShare d p then (List.range swContexts).find? fun n => (x.ctx n).isNone else none

def State.openCtx (s : State) (d n : Nat) (c : SwCtx) : State := s.modDie d fun x => { x with sw := tput x.sw n c }

/-- A context operand (R207, R216): open, of the issuer's partition, no accepted SWCLOSE on it. -/
def Die.named (d : Die) (p : PartNo) (x : W64) : Option SwCtx :=
  (d.ctx x.toNat).filter fun c => c.part == p && !c.closing

/-- The context that an operation is ordered on (R209). -/
def SwOp.ctx (o : SwOp) : Option Nat :=
  match o.offer.instr with
  | .swapp _ _ _ _ _ => some o.offer.x.toNat
  | .swqry _ _ _ => some o.offer.x.toNat
  | .swevt _ _ _ => some o.offer.x.toNat
  | .swsave _ _ _ => some o.offer.x.toNat
  | .swclose _ _ => some o.offer.x.toNat
  | _ => none

/-- Tokens of appends accepted on a context and not yet performed. -/
def Die.coming (d : Die) (n : Nat) : Nat :=
  ((d.swOps.filter fun o => o.ctx == some n).map fun o => match o.offer.instr with
    | .swapp _ _ _ _ _ => if o.sigdue then 0 else o.offer.toks.length
    | _ => 0).sum

/-! ### Answers (R205, R206) -/

/-- The positions, from base, at which the last len tokens occur again, the most recent first. -/
def occurrences (w : List (BitVec 24)) (len : Nat) : List Nat :=
  ((List.range (w.length - 1)).filter fun p => decide (len ≤ p + 1) && ((w.drop (p + 1 - len)).take len == w.drop (w.length - len))).reverse

/-- The longest match and its most recent place. -/
def bestMatch (w : List (BitVec 24)) : Nat → Option (Nat × Nat)
  | 0 => none
  | len + 1 =>
    match if len + 1 ≤ w.length then (occurrences w (len + 1)).head? else none with
    | some e => some (len + 1, e)
    | none => bestMatch w len

/-- The answer of a query with limits Lmax and k on a window that begins at `base`. -/
def swAnswer (w : List (BitVec 24)) (base lmax k : Nat) (serial : W32) : SwAnswer :=
  match bestMatch w (min lmax 64) with
  | none => ⟨0, 0, 0xFFFFFFFF, serial, []⟩
  | some (l, e) =>
    let draft := (w.drop (e + 1)).take (min k (w.length - 1 - e))
    ⟨BitVec.ofNat 32 l, BitVec.ofNat 32 draft.length, BitVec.ofNat 32 (base + e + 1), serial, draft.map (·.setWidth 32)⟩

def noAnswer : SwAnswer := ⟨0, 0, 0xFFFFFFFF, 0xFFFFFFFF, []⟩

/-- Column c of a result row. -/
def SwAnswer.column (a : SwAnswer) (c : Nat) : W32 :=
  if c = 60 then a.m0 else if c = 61 then a.m1 else if c = 62 then a.m2 else if c = 63 then a.m3 else a.draft.getD c 0xFFFFFFFF

/-- SWPOP's writes: one row of a physical vector register, and ml0–ml3. -/
def Slot.popResult (x : Slot) (vd row : Nat) (a : SwAnswer) : Slot :=
  let old := tget [] x.v vd
  { x with v := tput x.v vd (Lanes.ofFn fun e => if e / 64 = row then a.column (e % 64) else Lanes.get old e),
           ml := [(0, a.m0), (1, a.m1), (2, a.m2), (3, a.m3)] }

/-! ### Completion, signals and faults (R208) -/

def State.modOp (s : State) (d id : Nat) (f : SwOp → SwOp) : State :=
  s.modDie d fun x => { x with swOps := x.swOps.map fun o => if o.id = id then f o else o }
def State.dropOp (s : State) (d id : Nat) : State := s.modDie d fun x => { x with swOps := x.swOps.filter fun o => o.id != id }

/-- A fault after acceptance stops the issuing context, at once or when it next runs; an ended task leaves an INFO record. -/
def State.raiseOp (s : State) (d : Nat) (o : SwOp) (f : FaultInfo) : State :=
  match s.whereTask d o.task with
  | some (t, b) =>
    let x := s.slot t b
    let mayStop := match x.st with
      | .busy => true
      | .stopping _ => !x.stopsForGood
      | _ => false
    if mayStop then
      (s.modSlot t b fun x => (x.setFinfo f).beginStop (.fault f)).modOp d o.id fun o => { o with fpend := some f, raised := true }
    else s.modOp d o.id fun o => { o with fpend := some f }
  | none =>
    if s.isSaved o.task then s.modOp d o.id fun o => { o with fpend := some f }
    else (s.infoRecord o.part d o.tile (o.slot == 1) o.offer.wid f).dropOp d o.id

def SwOp.info (o : SwOp) (n : FaultName) (addr detail : W64) : FaultInfo :=
  { name := n, src := 3, addr := addr, detail := detail, ip := o.offer.addr, words := o.offer.words }

/-- An operation at its completion point sends its signal. -/
def State.finishOp (s : State) (d : Nat) (o : SwOp) : State :=
  match ((o.offer.instr.eng?).getD ⟨none, none, false⟩).sig with
  | none => s.dropOp d o.id
  | some (n, sa) =>
    let c := s.cell o.tile n.toNat
    let due := { o with sigdue := true }
    let bad := fun (f : FaultName) (v : W64) =>
      (s.modOp d o.id fun _ => due).raiseOp d due (o.info f (cellAddr o.tile n.toNat) v)
    if !c.ownedBy o.part then bad .isoWindow 0
    else match c.sig (sa.setWidth 32) with
      | .ok y => (s.putCell o.tile n.toNat y).dropOp d o.id
      | .error f => bad f c.detail

/-! ### Acceptance (R207, R208, R211–R219) -/

def isSward : Instr → Bool
  | .swopen _ _ _ => true
  | .swapp _ _ _ _ _ => true
  | .swqry _ _ _ => true
  | .swpop _ _ _ _ => true
  | .swevt _ _ _ => true
  | .swsave _ _ _ => true
  | .swload _ _ _ => true
  | .swclose _ _ => true
  | _ => false

/-- The command that a tile's core offers. -/
def State.offerOf (s : State) (t : Nat) : Option Offer :=
  let x := s.slot t (s.run t)
  match x.hold with
  | .offer o => if !(s.tile t).idle && x.st == .busy then some o else none
  | _ => none

def outstanding (x : Slot) : List Query := x.queries.filter fun q => !q.taken

/-- The fault of a command's checks at acceptance, if it has one. -/
def State.swardBad (s : State) (d : Nat) (x : Slot) (o : Offer) : Option FaultName :=
  let c := (s.die d).named x.part o.x
  match o.instr with
  | .swopen _ _ _ => if 1 ≤ o.y.toNat ∧ o.y.toNat ≤ swPool then none else some .progSwarg
  | .swapp _ _ _ row _ => match c with
    | none => some .progSwctx
    | some c =>
      if 1024 - 64 * row.toNat < o.y.toNat then some .progSwarg
      else if o.toks.any fun t => decide (2 ^ 24 ≤ t.toNat) then some .progSwarg
      else if swTop < c.stop + (s.die d).coming o.x.toNat + o.y.toNat then some .progSwarg
      else none
  | .swqry _ _ _ => match c with
    | none => some .progSwctx
    | some _ =>
      let k := (o.y.extractLsb' 8 5).toNat
      let l := (o.y.extractLsb' 0 7).toNat
      if o.y.extractLsb' 13 51 ≠ 0 ∨ o.y.getLsbD 7 ∨ k = 0 ∨ 16 < k ∨ l = 0 ∨ 64 < l then some .progSwarg
      else if 8 ≤ (outstanding x).length then some .progSwq
      else none
  | .swpop _ _ _ _ => if o.x.toNat < swContexts then none else some .progSwctx
  | .swsave _ _ _ => if c.isNone then some .progSwctx else if o.y.toNat % 64 ≠ 0 then some .progAlign else none
  | .swload _ _ _ => if o.y.toNat % 64 ≠ 0 then some .progAlign else none
  | _ => if c.isNone then some .progSwctx else none

def markTaken (op : Nat) (x : Slot) : Slot :=
  { x with queries := x.queries.map fun q => if q.op = op then { q with taken := true } else q }

/-- The effects of acceptance itself; the operation stands in the unit's order, or is complete. -/
def State.acceptOp (s : State) (d t b : Nat) (o : SwOp) : State :=
  let s := s.modDie d fun x => { x with swOps := x.swOps ++ [o] }
  let n := o.offer.x.toNat
  match o.offer.instr with
  | .swopen sx _ _ =>
    let q := o.offer.y.toNat
    match s.reserve d o.part q with
    | some k =>
      let c : SwCtx := { part := o.part, quota := q, base := 0, stop := 0, win := [], serial := 0 }
      ((s.openCtx d k c).modSlot t b fun x => x.setS sx (BitVec.ofNat 64 k)).finishOp d o
    | none => (s.modSlot t b fun x => x.setS sx (BitVec.allOnes 64)).finishOp d o
  | .swqry _ _ _ =>
    let q : Query := { ctx := n, op := o.id, answer := none }
    (s.modDie d fun x => x.modCtx n fun c => { c with serial := c.serial + 1 }).modSlot t b fun x => { x with queries := x.queries ++ [q] }
  | .swpop _ _ row _ =>
    match o.qop with
    | some q => s.modSlot t b (markTaken q)
    | none => (s.modSlot t b fun x => x.popResult o.offer.vd row.toNat noAnswer).finishOp d o
  | .swclose _ _ => s.modDie d fun x => x.modCtx n fun c => { c with closing := true }
  | _ => s

/-- The unit takes one offer: the lowest tile after the one it accepted last (R208). -/
def execSwardAccept (die : Nat) (s : State) : Host.Outcome State Fault Refusal :=
  let tiles := (List.range 48).map fun i => die * 48 + ((s.die die).swLast + 1 + i) % 48
  match tiles.findSome? fun t => ((s.offerOf t).filter fun o => isSward o.instr).map fun o => (t, o) with
  | none => .next s
  | some (t, o) =>
    let b := s.run t
    let x := s.slot t b
    let s := s.modDie die fun y => { y with swLast := t }
    match s.swardBad die x o with
    | some f => .next (s.modSlot t b fun x => x.trap f (if f = .progAlign then o.y else 0) 0)
    | none =>
      let (id, s) := s.newNum
      let task := match x.task with
        | some k => k.num
        | none => 0
      let op : SwOp := { id := id, tile := t, slot := b, task := task, part := x.part, offer := o,
                         serial := match (s.die die).ctx o.x.toNat with
                           | some c => c.serial
                           | none => 0
                         qop := match o.instr with
                           | .swpop _ _ _ _ => ((outstanding x).find? fun q => q.ctx == o.x.toNat).map Query.op
                           | _ => none }
      .next ((s.modSlot t b Slot.release).acceptOp die t b op)

/-! ### Images (R217–R219) -/

/-- The first 60 bytes of an image. -/
def imageHead (c : SwCtx) (serial : W32) : Bytes :=
  bytesOf 4 0x53574944 ++ bytesOf 4 1 ++ bytesOf 4 c.quota ++ bytesOf 4 c.win.length ++ bytesOf 4 c.base ++
  bytesOf 4 serial.toNat ++ List.replicate 36 0

def imageTokens (c : SwCtx) : Bytes := c.win.flatMap fun w => bytesOf 4 w.toNat

/-- Where a command's accesses are made: its task's slot, or its issuing slot once the task has ended. -/
def State.placeFor (s : State) (d task tile slot : Nat) (p : PartNo) (va : W64) : Got (Nat × Nat) :=
  match s.whereTask d task with
  | some x => .ok x
  | none =>
    if homeBits va = 0 then
      (if s.isSaved task then .wait else if s.holder tile slot = some p then .ok (tile, slot) else .fault .isoWindow)
    else .ok (tile, slot)

/-- Bytes written from an address, in pieces within one block of 64; `whole` says which drawer blocks are written whole. -/
def State.writePieces (s : State) (o : SwOp) (t b : Nat) (whole : W64 → Bool) : Nat → W64 → Bytes → Got Unit × W64 × State
  | 0, va, _ => (.ok (), va, s)
  | n + 1, va, bs =>
    if bs.isEmpty then (.ok (), va, s)
    else match s.writeNow o.offer.header t b o.part va (min 64 bs.length) (leNat (bs.take 64)) (whole va) with
      | (.ok (), s) => s.writePieces o t b whole n (va + 64) (bs.drop 64)
      | (.fault f, s) => (.fault f, va, s)
      | (.wait, s) => (.wait, va, s)

/-- n pieces of 64 bytes, or fewer bytes in the last, read from an address. -/
def State.readPieces (s : State) (o : SwOp) (t b : Nat) : Nat → W64 → Nat → Got Bytes × W64 × State
  | 0, va, _ => (.ok [], va, s)
  | n + 1, va, len =>
    if len = 0 then (.ok [], va, s)
    else match s.readNow o.offer.header t b o.part va (min 64 len) with
      | (.ok v, s) =>
        match s.readPieces o t b n (va + 64) (len - 64) with
        | (.ok bs, a, s) => (.ok (bytesOf (min 64 len) v ++ bs), a, s)
        | (.fault f, a, s) => (.fault f, a, s)
        | (.wait, a, s) => (.wait, a, s)
      | (.fault f, s) => (.fault f, va, s)
      | (.wait, s) => (.wait, va, s)

/-- A fault of an operation's accesses. -/
def State.failOp (s : State) (d : Nat) (o : SwOp) (f : FaultName) (va : W64) : State := s.raiseOp d o (o.info f va 0)

/-- SWSAVE writes its image in ascending order, the CRC last (R218). -/
def State.saveImage (s : State) (d : Nat) (o : SwOp) (c : SwCtx) : State :=
  let va := o.offer.y
  let head := imageHead c o.serial
  let toks := imageTokens c
  let size := 64 + toks.length
  let whole := fun (a : W64) => decide (va.toNat ≤ a.toNat / 256 * 256) && decide (a.toNat / 256 * 256 + 256 ≤ va.toNat + size)
  match s.placeFor d o.task o.tile o.slot o.part va with
  | .wait => s
  | .fault f => s.failOp d o f va
  | .ok (t, b) =>
    match s.writePieces o t b whole 1 va head with
    | (.fault f, a, s) => s.failOp d o f a
    | (.wait, _, _) => s
    | (.ok (), _, s1) =>
      match s1.writePieces o t b whole toks.length (va + 64) toks with
      | (.fault f, a, s) => s.failOp d o f a
      | (.wait, _, _) => s
      | (.ok (), _, s1) =>
        match s1.writeNow o.offer.header t b o.part (va + 60) 4 (crc32c (head ++ toks)).toNat (whole va) with
        | (.fault f, s) => s.failOp d o f (va + 60)
        | (.wait, _) => s
        | (.ok (), s) => s.finishOp d o

/-- A context as an image gives it, or the rule that the image breaks (R217, R219). -/
def contextOf (p : PartNo) (hd toks : Bytes) : Except FaultName SwCtx :=
  let f := fun (i : Nat) => leNat ((hd.drop i).take 4)
  let n := f 12
  let win := (List.range n).map fun i => leNat ((toks.drop (4 * i)).take 4)
  if (crc32c (hd.take 60 ++ toks)).toNat ≠ f 60 then .error .hwCrc
  else if f 0 = 0x53574944 ∧ f 4 = 1 ∧ 1 ≤ f 8 ∧ f 8 ≤ swPool ∧ n ≤ f 8 ∧ f 16 + n ≤ swTop ∧
      (hd.drop 24).take 36 = List.replicate 36 0 ∧ win.all (· < 2 ^ 24) then
    .ok { part := p, quota := f 8, base := f 16, stop := f 16 + n, win := win.map (BitVec.ofNat 24), serial := BitVec.ofNat 32 (f 20) }
  else .error .progSwimg

/-- SWLOAD (R219). -/
def State.loadImage (s : State) (d : Nat) (o : SwOp) (sx : SReg) : State :=
  let va := o.offer.y
  let give := fun (v : W64) (s : State) => (s.modTask d o.task fun x => x.setS sx v).finishOp d o
  match s.placeFor d o.task o.tile o.slot o.part va with
  | .wait => s
  | .fault f => s.failOp d o f va
  | .ok (t, b) =>
    match s.readPieces o t b 1 va 64 with
    | (.fault f, a, s) => s.failOp d o f a
    | (.wait, _, _) => s
    | (.ok hd, _, s1) =>
      let n := leNat ((hd.drop 12).take 4)
      match s1.readPieces o t b n (va + 64) (4 * n) with
      | (.fault f, a, s) => s.failOp d o f a
      | (.wait, _, _) => s
      | (.ok toks, _, s) =>
        match contextOf o.part hd toks with
        | .error f => s.failOp d o f va
        | .ok c => match s.reserve d o.part c.quota with
          | some k => give (BitVec.ofNat 64 k) (s.openCtx d k c)
          | none => give (BitVec.allOnes 64) s

/-! ### Performance (R209, R212–R216) -/

/-- The oldest positions beyond the quota are evicted (R212). -/
def SwCtx.append (c : SwCtx) (ts : List (BitVec 24)) : SwCtx :=
  let w := c.win ++ ts
  let cut := w.length - c.quota
  { c with win := w.drop cut, base := c.base + cut, stop := c.stop + ts.length }

def SwCtx.evict (c : SwCtx) (m : Nat) : SwCtx :=
  let m := min m c.win.length
  { c with win := c.win.drop m, base := c.base + m }

/-- Every access that a task's core made before it issued a command is performed (R238, R251, R254). -/
def State.releasedFor (s : State) (d task num : Nat) : Bool :=
  match s.whereTask d task with
  | some (t, b) => (s.slot t b).accs.all fun a => !decide (a.num < num) || !a.pending
  | none => true

def storeAnswer (op : Nat) (a : SwAnswer) (x : Slot) : Slot :=
  { x with queries := x.queries.map fun q => if q.op = op then { q with answer := some a } else q }

/-- The query that a SWPOP takes, once its answer is stored; an ended task's is gone. -/
def State.queryOf (s : State) (d : Nat) (o : SwOp) : Option Query :=
  let find := fun (x : Slot) => x.queries.find? fun q => some q.op == o.qop
  match s.whereTask d o.task with
  | some (t, b) => find (s.slot t b)
  | none => (s.saved.find? fun k => k.holds o.task).bind fun k => find k.slot

def State.performOp (s : State) (d : Nat) (o : SwOp) : State :=
  let n := o.offer.x.toNat
  let c := (s.die d).ctx n
  match o.offer.instr, c with
  | .swapp _ _ _ _ _, some _ =>
    (s.modDie d fun x => x.modCtx n fun c => c.append (o.offer.toks.map (·.setWidth 24))).finishOp d o
  | .swqry _ _ _, some c =>
    let a := swAnswer c.win c.base (o.offer.y.extractLsb' 0 7).toNat (o.offer.y.extractLsb' 8 5).toNat o.serial
    (s.modTask d o.task (storeAnswer o.id a)).finishOp d o
  | .swevt _ _ _, some _ => (s.modDie d fun x => x.modCtx n fun c => c.evict o.offer.y.toNat).finishOp d o
  | .swclose _ _, some _ => (s.modDie d fun x => x.dropCtx n).finishOp d o
  | .swsave _ _ _, some c => if s.releasedFor d o.task o.offer.num then s.saveImage d o c else s
  | .swsave _ _ _, none => s.failOp d o .progSwctx 0
  | .swload sx _ _, _ => if s.releasedFor d o.task o.offer.num then s.loadImage d o sx else s
  | .swpop _ _ row _, _ =>
    match s.queryOf d o with
    | some q => match q.answer with
      | some a =>
        (s.modTask d o.task fun x => { x.popResult o.offer.vd row.toNat a with queries := x.queries.filter fun y => y.op != q.op }).finishOp d o
      | none => s
    | none => s.finishOp d o
  | _, _ => s

/-- No operation accepted before on the same context is still to be performed. -/
def firstOnCtx (l : List SwOp) (o : SwOp) : Bool :=
  o.ctx.isNone || l.all fun y => y.ctx != o.ctx || y.sigdue || y.fpend.isSome

/-- Operation i of the unit is performed, or goes on with its signal or its fault. -/
def execSwardPerform (die i : Nat) (s : State) : Host.Outcome State Fault Refusal :=
  let l := (s.die die).swOps
  match l[i]? with
  | none => .next s
  | some o =>
    match o.fpend with
    | some f =>
      if o.raised then
        .next (if (s.whereTask die o.task).isSome || s.isSaved o.task then s else s.dropOp die o.id)
      else .next (s.raiseOp die o f)
    | none =>
      if o.sigdue then .next (s.finishOp die o)
      else if firstOnCtx (l.take i) o then .next (s.performOp die o)
      else .next s

/-- The commands of a context that is resumed are performed afresh, at new places in the order (R208, R218). -/
def State.resumeOps (s : State) (d num : Nat) : State :=
  let mine := fun (o : SwOp) => o.task == num && o.raised
  s.modDie d fun x => { x with swOps := (x.swOps.filter fun o => !mine o) ++
    ((x.swOps.filter mine).map fun o => { o with raised := false, fpend := none }) }

end Sys2Proof.Machine
end

