-- ==== Sys2Proof/Machine/Image.lean ====
section
/-! DEFINITION. The image of a saved context, as its entry of the context area holds it (R362, R364–R366). What R365 names without
an inner layout is a free value (notes/assumptions/36). -/

namespace Sys2Proof.Machine

/-- A part of an image: its offset in the entry, and its bytes. -/
abbrev Piece := Nat × Bytes

/-- An entry of a context area, 8 MiB (R362). -/
def entrySize : Nat := 0x800000

def wordBytes (w : W64) : Bytes := bytesOf 8 w.toNat

/-- n bytes in a layout that the manual does not give, of what xs says. -/
def unlaidBytes (xs : List Nat) (n : Nat) : Bytes := (List.range n).map fun i => (Config.imageByte xs i).toNat

def padTo (n : Nat) (bs : Bytes) : Bytes := bs ++ List.replicate (n - bs.length) 0

/-- What a slot's task is known by. -/
def Slot.taskNum (x : Slot) : Nat := match x.task with
  | some k => k.num
  | none => 0
def Slot.taskRecord (x : Slot) : W512 := match x.task with
  | some k => k.record
  | none => 0
def Slot.taskLevel (x : Slot) : Nat := match x.task with
  | some k => k.level
  | none => 0

/-! ### The header (R365) -/

/-- RB, q7–q1, loop_active, L, the position within the body and E. -/
def loopWord (rb : BitVec 4) (q : BitVec 8) (loop : Option LoopSt) (pc : W64) : W64 :=
  rb.setWidth 64 ||| ((q >>> 1).setWidth 64 <<< 9) ||| match loop with
    | some l => (1 <<< 16) ||| (BitVec.ofNat 64 (l.words.length % 128) <<< 17) |||
        (BitVec.ofNat 64 ((pc - l.start).toNat / 8 % 64) <<< 24) ||| (BitVec.ofNat 64 (l.epi % 8) <<< 32)
    | none => 0

def afterWord (loop : Option LoopSt) : W64 := match loop with
  | some l => l.after
  | none => 0

/-- RSN and RSS, and the 16 entries of the return stack. -/
def stackBytes (ret : List W64) (rss : W32) : Bytes :=
  wordBytes (BitVec.ofNat 64 (ret.length % 32) ||| (rss.setWidth 64 <<< 32)) ++ unlaidBytes (ret.map BitVec.toNat) 128

/-- Header +0x010 to +0x0CF of a slot. -/
def Slot.controlBytes (x : Slot) : Bytes :=
  wordBytes (x.budg.setWidth 64) ++ wordBytes x.lc ++ wordBytes (loopWord x.rb x.q x.loop x.pc) ++ wordBytes (afterWord x.loop) ++
  stackBytes x.ret x.rss ++ (List.range 4).flatMap (fun i => bytesOf 4 (x.getMl i).toNat) ++ wordBytes (x.mstat.setWidth 64)

/-- The same of a snapshot, taken at the PHASE at pc; BUDG, ml0–ml3 and MSTAT are no part of it (R368). -/
def Snapshot.controlBytes (y : Snapshot) (pc : W64) : Bytes :=
  unlaidBytes [0x10] 8 ++ wordBytes y.lc ++ wordBytes (loopWord y.rb y.q y.loop pc) ++ wordBytes (afterWord y.loop) ++
  stackBytes y.ret y.rss ++ unlaidBytes [0xB8] 24

/-- Phase open, snapshot valid, the cancellation count. -/
def Slot.phaseWord (x : Slot) : W64 :=
  (if x.phase.isSome then 3 <<< 62 else 0 : W64) ||| BitVec.ofNat 64 (x.canc % 256)

def Slot.phaseAddr (x : Slot) : W64 := match x.phase with
  | some (pc, _) => pc
  | none => 0

/-- An occupancy word (R366). -/
def occupancy (l : List Cmd) : W64 :=
  BitVec.ofNat 64 (l.length % 32) ||| (BitVec.ofNat 64 ((l.filter fun c => c.started).length % 32) <<< 8)

def tagNo : Tag → Nat
  | .clear => 0
  | .f32 => 1
  | .i32 => 2

/-- An accumulator's tag, S and CHK. -/
def Acc.stateBytes (a : Acc) : Bytes := unlaidBytes [tagNo a.tag, a.steps.toNat, if a.chk then 1 else 0] 8

/-- The header without its CRC. -/
def Slot.headerBytes (x : Slot) : Bytes :=
  padTo 0xFFC (wordBytes 0x15854434B ++ wordBytes x.pc ++ x.controlBytes ++ wordBytes x.phaseWord ++ wordBytes x.phaseAddr ++
    wordBytes (occupancy x.mq) ++ wordBytes (occupancy x.cq) ++
    (List.range 4).flatMap (fun i => (x.getA (BitVec.ofNat 2 i)).stateBytes) ++
    (List.range 16).flatMap (fun i => wordBytes (x.getT (BitVec.ofNat 4 i)).image) ++
    bytesOf 64 x.taskRecord.toNat ++ bytesOf 64 x.header.toNat)

/-! ### The zones (R365, R366) -/

def cmdWords (c : Cmd) : Bytes := ((c.words ++ [0, 0]).take 2).flatMap wordBytes

/-- An entry of the matrix queue. -/
def Cmd.matrixEntry (c : Cmd) : Bytes := cmdWords c ++ bytesOf 32 c.ha.toNat ++ wordBytes c.progress ++ wordBytes 0

/-- An entry of the copy queue. -/
def Cmd.copyEntry (c : Cmd) : Bytes :=
  cmdWords c ++ bytesOf 32 c.hd.toNat ++ bytesOf 32 c.ha.toNat ++ wordBytes c.param ++ wordBytes c.progress ++
  bytesOf 64 (match c.instr with
    | .putc _ _ _ _ => c.record.toNat
    | _ => 0)

/-- Things of one size from an offset on, in order. -/
def rowsAt (off size : Nat) (l : List Bytes) : List Piece :=
  (List.range l.length).map fun i => (off + size * i, l.getD i [])

def scalarBytes (s : Tab W64) : Bytes := (List.range 64).flatMap fun i => wordBytes (if i = 0 then 0 else tget 0 s i)
def handleBytesOf (h : Tab W256) : Bytes := (List.range 32).flatMap fun i => bytesOf 32 (tget 0 h i).toNat

/-- A cell: count, ceiling, then mode, A and phase. -/
def Cell.imageBytes (c : Cell) : Bytes :=
  bytesOf 4 c.count.toNat ++ bytesOf 4 c.ceil.toNat ++
  wordBytes ((c.mode.setWidth 64 <<< 62) ||| (c.a.setWidth 64 <<< 32) ||| (if c.phase then 1 else 0))

def cellZone (off : Nat) (l : List Cell) : List Piece := rowsAt off 16 (l.map Cell.imageBytes)

/-- A 32-bit value as binary64, exactly. -/
def binary64 (n : Nat) : W64 :=
  if n = 0 then 0 else BitVec.ofNat 64 ((1023 + n.log2) * 2 ^ 52 + (n - 2 ^ n.log2) * 2 ^ (52 - n.log2))

/-- A channel value of an accumulator as binary64 (R186). -/
def Acc.channel (a : Acc) (v : W64) : W64 := if a.tag = .i32 then binary64 (v.toNat % 2 ^ 32) else v

/-- An accumulator: its elements, then CSR, CSC, ASR and ASC. -/
def Acc.pieces (off : Nat) (a : Acc) : List Piece :=
  let ch := fun (k : Nat) (l : Tab W64) => l.map fun (e : Nat × W64) => (off + 0x10000 + 0x400 * k + 8 * e.1, wordBytes (a.channel e.2))
  a.elems.map (fun (e : Nat × W32) => (off + 4 * e.1, bytesOf 4 e.2.toNat)) ++ ch 0 a.csr ++ ch 1 a.csc ++ ch 2 a.asr ++ ch 3 a.asc

/-- A tile register: its data area, then the sideband. -/
def TileReg.pieces (off : Nat) (y : TileReg) : List Piece :=
  if !y.conf then []
  else (off, unlaidBytes (tyCode y.ty :: y.rows :: y.cols :: y.data.flatMap fun (e : Nat × W32) => [e.1, e.2.toNat]) 0x8000) ::
    y.scale.map fun (e : Nat × Byte) => (off + 0x8000 + e.1, [e.2.toNat])

/-- The result of a query, as SWPOP lays out its row (R206). -/
def Query.resultBytes (q : Query) : Bytes := match q.answer with
  | some a => (List.range 64).flatMap fun c => bytesOf 4 (a.column c).toNat
  | none => []

/-- The snapshot of an open phase. -/
def snapshotZones (p : Option (W64 × Snapshot)) : List Piece := match p with
  | some (pc, y) =>
    (0x3800, scalarBytes y.s ++ handleBytesOf y.h ++ y.controlBytes pc) :: cellZone 0xC000 y.cells
  | none => []

/-- Every piece of an image but the header; zones without one are zero. -/
def Slot.zones (x : Slot) (cells : List Cell) (half : List Host.Cell) : List Piece :=
  let loop := match x.loop with
    | some l => l.words.flatMap wordBytes
    | none => []
  let mask := fun (i : Nat) => bytesOf 128 (x.getK (BitVec.ofNat 3 i)).toNat
  [(0x1000, scalarBytes x.s), (0x1200, handleBytesOf x.h), (0x1600, (List.range 8).flatMap mask), (0x1A00, loop)] ++
  rowsAt 0x1C00 64 (x.mq.map Cmd.matrixEntry) ++ rowsAt 0x2000 256 (x.cq.map Cmd.copyEntry) ++
  rowsAt 0x3000 256 ((x.queries.filter fun q => !q.taken).map Query.resultBytes) ++ snapshotZones x.phase ++ cellZone 0x4000 cells ++
  x.v.map (fun (e : Nat × Lanes) => (0x20000 + 0x1000 * e.1, e.2.flatMap fun w => bytesOf 4 w.toNat)) ++
  x.a.flatMap (fun (e : Nat × Acc) => e.2.pieces (0x40000 + 0x11000 * e.1)) ++
  rowsAt 0x84000 0x4000 (x.cq.map fun c => if c.started then c.index.flatMap fun w => bytesOf 4 w.toNat else []) ++
  x.t.flatMap (fun (e : Nat × TileReg) => e.2.pieces (0x100000 + 0x8800 * e.1)) ++
  half.map fun c => (0x400000 + c.1, [c.2.toNat])

/-- The image; the header, with its CRC, comes last. -/
def Slot.image (x : Slot) (cells : List Cell) (half : List Host.Cell) : List Piece :=
  x.zones cells half ++ [(0, x.headerBytes ++ bytesOf 4 (crc32c x.headerBytes).toNat)]

/-! ### The entry -/

/-- An image is written: its pieces in order, over zeros; nothing lies beyond the entry. -/
def State.writeImage (s : State) (addr : W64) (l : List Piece) : State :=
  let k := entryKey addr
  let s := { s with mem := memClear s.mem k (k + entrySize),
                    poisoned := s.poisoned.filter fun x => !(decide (k ≤ x) && decide (x < k + entrySize)) }
  (l.filter fun (c : Piece) => decide (c.1 + c.2.length ≤ entrySize)).foldl (fun s (c : Piece) => s.writeBytes (k + c.1) c.2) s

end Sys2Proof.Machine
end

