-- ==== Sys2Proof/Machine/MemoryEvents.lean ====
section
/-! DEFINITION. Events of memory: replies, performance at a home, bank atomics, data that returns (R234, R240, R243, R253,
R259, R261, R164). -/

namespace Sys2Proof.Machine

def dropLastAccess (x : Slot) : Slot := { x with accs := x.accs.dropLast }

/-- The last access is complete, and its core goes on (R261). -/
def Slot.replyDone (x : Slot) : Slot :=
  let y := x.completeAccess (x.accs.length - 1)
  match y.hold with
  | .reply => y.release
  | _ => y

/-- The last access is accepted with its places: the core goes on, or waits for the performance of an acquire (R262). -/
def Slot.replyAccepted (x : Slot) (es : List Elem) : Slot :=
  match x.accs.getLast? with
  | none => x
  | some a =>
    let x := { x with accs := x.accs.dropLast ++ [{ a with accepted := true, elems := es }] }
    if acquires a.ord then { x with hold := .perf } else x.release

/-- The home refuses an element: nothing of a load is done; of a vector store, the elements before it (R164, R259). -/
def State.refuseAccess (s : State) (t b : Nat) (a : Access) (pre : List Elem) (bad : Elem) (f : FaultName) : State :=
  let s := match a.op with
    | .vstore => (s.performElems a.op a.size pre).2
    | _ => s
  s.modSlot t b fun x => (dropLastAccess x).trap f bad.va (match a.op with
    | .vstore => BitVec.ofNat 64 bad.lane
    | .vload _ _ _ => BitVec.ofNat 64 bad.lane
    | _ => 0)

def AccOp.isAtomic : AccOp → Bool
  | .atomic _ _ _ _ => true
  | _ => false

/-- The element would read a poisoned word. -/
def State.readsPoison (s : State) (op : AccOp) (n : Nat) (e : Elem) : Bool :=
  match e.loc with
  | some (.mem k) => (op.isAtomic || !op.writes) && s.isPoisoned k n
  | _ => false

/-- An access is accepted; one that would read a poisoned word is refused instead, so that its fault is precise (R351; DEDUCED,
notes/assumptions/40). -/
def acceptLast (t b : Nat) (a : Access) (s : State) : State :=
  match s.acceptElems t b (s.slot t b).part a.size a.elems with
  | (.ok es, _, _, s) =>
    match es.find? (s.readsPoison a.op a.size) with
    | some e => s.refuseAccess t b a [] e .hwPoison
    | none => s.modSlot t b fun x => x.replyAccepted es
  | (.fault f, pre, bad, s) => s.refuseAccess t b a pre bad f
  | (.wait, _, _, s) => s

/-- The reply of an access's home; `r` is a fault that the host or a peer reports (R235, R261). -/
def execAccessReply (t : Nat) (r : Option FaultName) (s : State) : Host.Outcome State Fault Refusal :=
  let b := s.run t
  let x := s.slot t b
  match x.hold, x.accs.getLast? with
  | .reply, some a =>
    match a.elems with
    | [] => .next s
    | e :: _ =>
      match spaceOf e.va with
      | .cell _ _ _ => .next s
      | .drawer _ => if a.pending then .next s else .next (s.modSlot t b Slot.replyDone)
      | .host _ =>
        match r with
        | some f => .next (s.modSlot t b fun x => (dropLastAccess x).trap f e.va 0)
        | none =>
          if a.op.writes then .next (acceptLast t b a s)
          else
            match s.acceptElems t b x.part a.size a.elems with
            | (.ok es, _, _, s) =>
              let (es, s) := s.performElems a.op a.size es
              .next (s.modSlot t b fun x => { x with accs := x.accs.dropLast ++ [{ a with elems := es }] }.replyDone)
            | (.fault f, pre, bad, s) => .next (s.refuseAccess t b a pre bad f)
            | (.wait, _, _, s) => .next s
      | .peer _ _ =>
        match r with
        | some f => .next (s.modSlot t b fun x => (dropLastAccess x).trap f e.va 0)
        | none => .next (acceptLast t b a s)
      | _ => .next (acceptLast t b a s)
  | _, _ => .next s

def isPeerLoc : Option Loc → Bool
  | some (.peer _) => true
  | _ => false

/-- The access answers data: a load, or an atomic that fetches. -/
def AccOp.returns : AccOp → Bool
  | .atomic _ f _ _ => f
  | .store => false
  | .hstore => false
  | .vstore => false
  | _ => true

/-- Element n of access i performed where it lies; an access that answers nothing is then complete. -/
def State.performAt (s : State) (t b i n : Nat) : State :=
  match (s.slot t b).accs[i]? with
  | none => s
  | some a =>
    match a.elems[n]? with
    | none => s
    | some e =>
      let (e, s) := s.performElem a.op a.size e
      let a := { a with elems := a.elems.set n e }
      s.modSlot t b fun x =>
        let x := { x with accs := x.accs.set i a }
        if !a.pending && !a.op.returns then x.completeAccess i else x

/-- An accepted element of a load or store is performed (R240, R243). -/
def execSharedMemoryAccess (t i n : Nat) (s : State) : Host.Outcome State Fault Refusal :=
  let b := s.run t
  match (s.slot t b).accs[i]? with
  | some a =>
    match a.elems[n]? with
    | some e =>
      if mayPerform (s.slot t b).accs i n && !a.op.isAtomic && !(isPeerLoc e.loc && a.op.returns) then .next (s.performAt t b i n)
      else .next s
    | none => .next s
  | none => .next s

/-- An accepted atomic is performed by its bank unit (R253, R264). -/
def execBankAtomic (t i : Nat) (s : State) : Host.Outcome State Fault Refusal :=
  let b := s.run t
  match (s.slot t b).accs[i]? with
  | some a =>
    if a.op.isAtomic && mayPerform (s.slot t b).accs i 0 && !((a.elems.any fun e => isPeerLoc e.loc) && a.op.returns) then
      .next (s.performAt t b i 0)
    else .next s
  | none => .next s

/-- Data that a peer returns for its elements: the words of the event, then those of the inbox or free values. -/
def State.peerElems (s : State) (n : Nat) : List W64 → List Elem → List Elem × State
  | _, [] => ([], s)
  | ws, e :: r =>
    if isPeerLoc e.loc && !e.done then
      let k := (n + 7) / 8
      let (v, s) := if k ≤ ws.length then (leNat ((ws.take k).flatMap fun w => bytesOf 8 w.toNat), s) else s.peerWords k
      let (r, s) := s.peerElems n (ws.drop k) r
      ({ e with data := BitVec.ofNat 256 (v % 256 ^ n), done := true } :: r, s)
    else
      let (r, s) := s.peerElems n ws r
      (e :: r, s)

/-- The data of access i returns: its destination is written (R135, R261). -/
def execLoadDataReturn (t i : Nat) (ext : List W64) (s : State) : Host.Outcome State Fault Refusal :=
  let b := s.run t
  match (s.slot t b).accs[i]? with
  | some a =>
    if a.accepted && a.op.returns && (a.elems.all fun e => e.done || isPeerLoc e.loc) then
      let (es, s) := s.peerElems a.size ext a.elems
      .next (s.modSlot t b fun x => { x with accs := x.accs.set i { a with elems := es } }.completeAccess i)
    else .next s
  | none => .next s

end Sys2Proof.Machine
end

