-- ==== Sys2Proof/Machine/Recovery.lean ====
section
/-! DEFINITION. What answers, pops and stops share: the fault queue, resuming, retiring and restarting contexts, draining,
saving and committing (R351–R371). -/

namespace Sys2Proof.Machine

/-! ### The fault queue (R354, R358, R359) -/

/-- Entries of a fault queue. -/
def State.fqLen (s : State) (p : PartNo) : Nat := 2 ^ ((s.reg (.fqsize p)).toNat % 16)

/-- The oldest record that is written and not popped, marked popped. -/
def popEntry : List FEntry → Option W64 × List FEntry
  | [] => (none, [])
  | e :: r =>
    if e.popped then
      let (a, l) := popEntry r
      (a, e :: l)
    else (some e.addr, { e with popped := true } :: r)

def State.popFault (s : State) (p : PartNo) : W64 × State :=
  match popEntry (s.part p).fq with
  | (some a, l) => (a, s.modPart p fun x => { x with fq := l })
  | (none, _) => (BitVec.allOnes 64, s)

/-- The record that an answer names. -/
def State.answerable (s : State) (p : PartNo) (addr : W64) : Option FEntry :=
  (s.part p).fq.find? fun e => e.addr == addr && e.popped && !e.answered

/-- Answered entries at the head are freed, in ring order (R354). -/
def freeAnswered : List FEntry → Nat × List FEntry
  | [] => (0, [])
  | e :: r =>
    if e.answered then
      let (n, l) := freeAnswered r
      (n + 1, l)
    else (0, e :: r)

def State.freeEntry (s : State) (p : PartNo) (addr : W64) : State :=
  let (n, l) := freeAnswered ((s.part p).fq.map fun e => if e.addr = addr then { e with answered := true } else e)
  s.modPart p fun x => { x with fq := l, fqHead := (x.fqHead + n) % s.fqLen p }

/-! ### Answers (R359) -/

/-- A stop kept pending begins when the context runs again (R353). -/
def Slot.takePending (x : Slot) : Slot := if x.pendPreempt then { x with pendPreempt := false }.beginStop .preempt else x

/-- A held context runs again from its resume address; faults kept pending in its commands are raised (R352, R359). -/
def State.resumeHeld (s : State) (t b : Nat) : State :=
  let num := (s.slot t b).taskNum
  let s := s.modSlot t b fun x => { x with st := .busy, waited := 0, stall := 0, moveDue := false }.takePending
  (s.resumeEngines t b).resumeOps (dieOf t) num

def State.dropSaved (s : State) (addr : W64) : State := { s with saved := s.saved.filter fun k => k.addr != addr }

/-- A saved context is re-enqueued at the head of its level on its reservation. -/
def State.resumeSaved (s : State) (t : Nat) (k : Saved) : State :=
  let a : Arrival := { via := .head t, part := k.part, die := k.die, crec := resumeRecord k.slot.taskRecord false false k.addr,
                       addr := k.addr }
  ({ s with arrivals := s.arrivals ++ [a] } : State).resumeOps k.die k.slot.taskNum

/-- A record made from the dispatch record is re-enqueued at the tail; `addr` names a reservation that it uses. -/
def State.restartTask (s : State) (p : PartNo) (d : Nat) (r : W512) (addr : W64) : State :=
  let a : Arrival := { via := .tail, part := p, die := d, crec := r, addr := addr }
  { s with arrivals := s.arrivals ++ [a] }

/-- The three answers. -/
inductive Answer where
  | resume | abort | restart
deriving DecidableEq, Repr, Inhabited

/-- A context waits on a record: it is resumed, retired or restarted. -/
def State.answerContext (s : State) (a : Answer) (f : FRec) : State :=
  match f.ctx with
  | .none => s
  | .slot t b =>
    let x := s.slot t b
    if x.st ≠ .faulted then s
    else match a with
      | .resume => s.resumeHeld t b
      | .abort => s.retire t b
      | .restart => (s.restartTask f.part f.die x.taskRecord 0).retire t b
  | .saved addr =>
    match s.saved.find? fun k => k.addr == addr && k.part == f.part && k.die == f.die with
    | none => s
    | some k => match a with
      | .resume => s.resumeSaved f.tile k
      | .abort => s.dropSaved addr
      | .restart => (s.restartTask f.part f.die k.slot.taskRecord addr).dropSaved addr

/-- An answer to the record at an address: the entry is freed, then its context goes on (R359). -/
def State.answer (s : State) (p : PartNo) (addr : W64) (a : Answer) : Option State :=
  (s.answerable p addr).map fun e => (s.freeEntry p addr).answerContext a e.frec

/-! ### Draining (R351) -/

/-- Accepted accesses complete at their homes, from access i on; one whose data is poisoned waits for its context (R352). -/
def State.finishAccesses (s : State) (t b : Nat) : Nat → Nat → State
  | 0, _ => s
  | n + 1, i =>
    match (s.slot t b).accs[i]? with
    | none => s
    | some a =>
      let (es, s) := if a.op.returns then s.peerElems a.size [] a.elems else (a.elems, s)
      let (es, s) := s.performElems a.op a.size es
      let s := s.modSlot t b fun x => { x with accs := x.accs.set i { a with elems := es } }
      if es.any Elem.poisoned then s.finishAccesses t b n (i + 1)
      else (s.modSlot t b fun x => x.completeAccess i).finishAccesses t b n i

/-- The replies that a stop waits for have come. -/
def Slot.mayStop (x : Slot) : Bool :=
  match x.hold with
  | .reply => false
  | .perf => false
  | .spawn _ => false
  | .remote _ _ _ => false
  | _ => true

/-- What the core was held on is abandoned: it stands at its group (R96, R208, R360). -/
def State.abandonHold (s : State) (t b : Nat) : State := (s.dropWaiter t (.core b)).modSlot t b fun x => { x with hold := .none }

/-! ### Commit (R368) -/

/-- Every command of the open phase ahead of the first held command of its queue is complete, and every access performed. -/
def Slot.phaseDone (x : Slot) : Bool :=
  (x.accs.all fun a => !a.pending) && (x.mq.takeWhile fun c => !c.held).all (fun c => !c.phased) &&
  (x.cq.takeWhile fun c => !c.held).all fun c => !c.phased

/-- The phase commits: held commands are released. -/
def Slot.commit (x : Slot) : Slot :=
  let free := fun (q : List Cmd) => q.map fun (c : Cmd) => { c with held := false, phased := false }
  if x.phase.isSome then { x with mq := free x.mq, cq := free x.cq, phase := none, canc := 0 } else x

/-- The cells of a task, c0 to its limit. -/
def State.cellsBelow (s : State) (t : Nat) (h : W512) : List Cell := (List.range (hdrCells h)).map (s.cell t)

/-- What PHASE keeps of a slot (R368). -/
def Slot.snapshot (x : Slot) (cs : List Cell) : Snapshot :=
  { s := x.s, h := x.h, q := x.q, loop := x.loop, lc := x.lc, rb := x.rb, ret := x.ret, rss := x.rss, cells := cs }

/-- The snapshot restored, the other registers cleared; execution stands at the PHASE (R370). -/
def Slot.rollback (x : Slot) (pc : W64) (y : Snapshot) : Slot :=
  { x with s := y.s, h := y.h, q := y.q, loop := y.loop, lc := y.lc, rb := y.rb, ret := y.ret, rss := y.rss, v := [], k := [],
           t := [], a := [], pc := pc, phase := none, canc := x.canc + 1, st := .busy, hold := .none, accs := [],
           mq := x.mq.filter (fun c => !c.phased), cq := x.cq.filter fun c => !c.phased }

/-! ### Saving (R362–R365) -/

/-- The address of entry i of a context area. -/
def State.entryAddr (s : State) (d : Nat) (p : PartNo) (i : Nat) : W64 :=
  (s.reg (.cxbase (BitVec.ofNat 2 d) p) &&& ~~~0x7FFFFF) + BitVec.ofNat 64 (i * 0x800000)

/-- The lowest free entry of a context area. -/
def State.freeEntryAddr (s : State) (d : Nat) (p : PartNo) : Option W64 :=
  ((List.range (s.cxCount d p)).map (s.entryAddr d p)).find? fun a => !s.saved.any fun k => k.addr == a && k.die == d && k.part == p

/-- The bytes of a half's data and stack areas that are not zero, by offset. -/
def State.halfBytes (s : State) (t b : Nat) (h : W512) : List Host.Cell :=
  let k := halfKey t b
  (s.mem.filter fun c => decide (k ≤ c.1) && decide (c.1 < k + 0x400000) &&
    (decide (c.1 < k + hdrSpad h) || decide (k + 0x400000 - hdrStack h ≤ c.1))).map fun c => (c.1 - k, c.2)

/-- A slot that is not the task's any more, its shadow being written out. -/
def State.vacate (s : State) (t b : Nat) : State :=
  let s := match (s.slot t b).source with
    | some a => s.dropSaved a
    | none => s
  (s.retire t b).modSlot t b fun x => { x with writeOut := true }

/-- The context of a slot is saved to an entry, as its image lies there too, and the slot is free (R363, R365). -/
def State.saveTo (s : State) (t b : Nat) (addr : W64) (moved : Bool) : State :=
  let x := s.slot t b
  let k : Saved := { addr := addr, part := x.part, die := dieOf t, level := x.taskLevel, slot := { x with hold := .none },
                     cells := s.cellsBelow t x.header, bytes := s.halfBytes t b x.header, moved := moved, used := false }
  let s := (s.vacate t b).writeImage addr (x.image k.cells k.bytes)
  { s with saved := s.saved ++ [k] }

/-- A partition's fault records and fault queue name a context by its saved address. -/
def State.renameContext (s : State) (p : PartNo) (t b : Nat) (addr : W64) : State :=
  let go := fun (f : FRec) => if f.ctx = .slot t b then { f with ctx := .saved addr } else f
  s.modPart p fun x => { x with recs := x.recs.map go, fq := x.fq.map fun e => if e.answered then e else { e with frec := go e.frec } }

/-! ### The partition controller (R302) -/

/-- Assigned, not being cleared, not held on a fault. -/
def State.eligible (s : State) (t b : Nat) : Bool :=
  (s.holder t b).isSome && match (s.slot t b).st with
    | .faulted => false
    | .clearing => false
    | .saving _ => false
    | _ => true

/-- The other slot runs if it is eligible; otherwise the tile idles. -/
def State.switchTo (s : State) (t b : Nat) : State :=
  let s := s.modTile t fun x => { x with runB := b == 1, idle := false }
  (s.modSlot t b fun x => { x with ran := 0 }).resumeEngines t b

def State.yieldTile (s : State) (t : Nat) : State :=
  let o := 1 - s.run t
  if s.eligible t o then s.switchTo t o else s.modTile t fun x => { x with idle := true }

end Sys2Proof.Machine
end

