-- ==== Sys2Proof/Machine/System.lean ====
section
/-! DEFINITION. Unit 13: control registers, fences, locked translations, phases, answers, QWAIT and BRK, with the events that
end PHASE and QWAIT (R142, R249, R267–R270, R358–R361, R368). -/

namespace Sys2Proof.Machine

def execNop (s : State) := issue .nop s fun s => .done s 0

/-! ### Control registers (R142) -/

/-- What CRR returns. -/
def State.control (s : State) (r : CtlReg) : W64 :=
  let x := s.core
  match r with
  | .cyc => BitVec.ofNat 64 (s.tile s.cur).cyc
  | .budg => x.budg.setWidth 64
  | .lc => x.lc
  | .rb => x.rb.setWidth 64
  | .mstat => x.mstat.setWidth 64
  | .tstat => (s.tile s.cur).tstat (s.run s.cur)
  | .finfo n => tget 0 x.finfo n.toNat
  | .linklat l => (s.link l.toNat).lstate
  | .tcfg t => (x.getT t).image

def execCrr (sd : SReg) (cr : CtlReg) (s : State) :=
  issue (.crr sd cr) s fun s => .done (s.modCore fun x => x.setS sd (s.control cr)) 0

/-- CRW writes under the register's access type: the others are read-only. -/
def Slot.writeControl (x : Slot) (r : CtlReg) (v : W64) : Slot :=
  match r with
  | .lc => { x with lc := v }
  | .rb => { x with rb := v.extractLsb' 0 4 }
  | .mstat => x.clearMstat v
  | _ => x

def execCrw (cr : CtlReg) (sa : SReg) (s : State) :=
  issue (.crw cr sa) s (onCore fun x => x.writeControl cr (x.getS sa))

/-! ### FENCE (R249, R267) -/

/-- An address lies in a scope of tile t. -/
def inScope (t : Nat) (sc : Scope) (va : W64) : Bool :=
  let near := fun (p : Nat → Bool) => match spaceOf va with
    | .own _ => true
    | .half _ u _ _ => p u
    | .cell u _ _ => p u
    | _ => false
  match sc with
  | .tile => near (· == t)
  | .clu => near fun u => u / 8 == t / 8
  | .die => homeBits va == 0 || homeBits va == homeOf t
  | .pkg => decide (homeBits va ≤ 4)
  | .sys => true

def execFence (sc : Scope) (s : State) :=
  issue (.fence sc) s fun s =>
    if s.core.accs.any fun a => a.elems.any fun e => !e.done && inScope s.cur sc e.va then .hold s else .done s 0

/-! ### Locked translations (R268–R270) -/

/-- What a range comes to before it is locked: a fault, or the home and offset of a range whose addresses may be translated;
a peer keeps its own entries. -/
inductive LockAt where
  | bad (f : FaultName)
  | here (home off : Nat)
  | peer

def State.lockAt (s : State) (p : PartNo) (va len : W64) : LockAt :=
  let off := offBits va
  if len = 0 ∨ 2 ^ 57 < off + len.toNat then .bad .progAddr
  else match spaceOf va with
    | .shared home _ => if 0x8000000 < off + len.toNat then .bad .progAddr else .here home off
    | .drawer _ => .here 0x10 off
    | .peer n _ => if !s.peerRouted n then .bad .progAddr else if s.inRoster p n then .peer else .bad .isoPeer
    | _ => .bad .progAddr

/-- The walks of the pages that overlap [off, stop). -/
def State.pagesOf (s : State) (home : Nat) (p : PartNo) (stop : Nat) : Nat → Nat → List Walk
  | 0, _ => []
  | n + 1, off =>
    if stop ≤ off then []
    else
      let w := s.walkRoot home p off
      w :: match w with
        | .page base size _ => s.pagesOf home p stop n (base + size)
        | _ => s.pagesOf home p stop n ((off / 0x10000 + 1) * 0x10000)

/-- Every 64 KiB of the range on a mapped page lies in a window of the partition. -/
def State.pageOwned (s : State) (home : Nat) (p : PartNo) (off stop : Nat) (w : Walk) : Bool :=
  match w with
  | .page base size pa =>
    (List.range (size / 0x10000)).all fun i =>
      let lo := base + i * 0x10000
      decide (lo + 0x10000 ≤ off) || decide (stop ≤ lo) || s.inWindow home p (pa + i * 0x10000) 1
  | _ => true

/-- The translation units of a home: one at a die, one at each link for the drawer. -/
def unitsOf (home : Nat) : List Nat := if home = 0x10 then (List.range Config.links).map (16 + ·) else [home - 1]

def lockedEntries (p : PartNo) (ws : List Walk) : List Tlb :=
  ws.filterMap fun w => match w with
    | .page base size pa => some ⟨p, base, size, pa, true⟩
    | _ => none

/-- Locked entries enter a unit in place of the unlocked ones of their pages. -/
def XUnit.lock (u : XUnit) (es : List Tlb) : XUnit :=
  es.foldl (fun u e => { u with tlb := u.tlb.filter fun x => !(x.part == e.part && x.base == e.base && x.size == e.size) }.fill e) u

/-- The status of TLOCK, and the state with the range locked when it is 0. -/
def State.lockRange (s : State) (home : Nat) (p : PartNo) (off len : Nat) (ws : List Walk) : Nat × State :=
  let es := lockedEntries p ws
  let u := s.unit ((unitsOf home).headD 0)
  let held := u.tlb.filter Tlb.locked
  let fresh := es.filter fun e => !held.any fun x => x.part == p && x.base == e.base && x.size == e.size
  if es.length ≠ ws.length then (2, s)
  else if s.locks.any fun r => r.touches home p off len then (3, s)
  else if 1024 < (held.filter fun x => x.part == p).length + fresh.length ∨ 4096 < held.length + fresh.length then (1, s)
  else
    let s := (unitsOf home).foldl (fun s n => s.modUnit n fun u => u.lock es) s
    (0, { s with locks := s.locks ++ [⟨home, p, off, len⟩] })

def execTlock (sd sa sl : SReg) (s : State) :=
  issue (.tlock sd sa sl) s fun s =>
    let x := s.core
    let va := x.getS sa
    let len := x.getS sl
    match s.lockAt x.part va len with
    | .bad f => .trap f va 0
    | .peer =>
      let (w, s) := s.peerWord
      .done (s.modCore fun x => x.setS sd (w % 4)) 0
    | .here home off =>
      let stop := off + len.toNat
      let ws := s.pagesOf home x.part stop (len.toNat / 0x10000 + 2) off
      if ws.contains .poison then .trap .hwPoison va 0
      else if !ws.all (s.pageOwned home x.part off stop) then .trap .isoWindow va 0
      else
        let (v, s) := s.lockRange home x.part off len.toNat ws
        .done (s.modCore fun x => x.setS sd (BitVec.ofNat 64 v)) 0

/-- Entries of a partition that no locked range of it overlaps any more are locked no longer. -/
def XUnit.unlock (u : XUnit) (home : Nat) (p : PartNo) (rs : List LockRange) : XUnit :=
  { u with tlb := u.tlb.map fun e => if e.part = p ∧ !(rs.any fun r => r.touches home p e.base e.size) then { e with locked := false } else e }

def State.unlockRange (s : State) (home : Nat) (p : PartNo) (off len : Nat) : State :=
  let rs := s.locks.filter fun r => !(r.home == home && r.part == p && decide (off ≤ r.base) && decide (r.base + r.len ≤ off + len))
  (unitsOf home).foldl (fun s n => s.modUnit n fun u => u.unlock home p rs) { s with locks := rs }

def execTunlock (sa sl : SReg) (s : State) :=
  issue (.tunlock sa sl) s fun s =>
    let x := s.core
    let va := x.getS sa
    let len := x.getS sl
    match s.lockAt x.part va len with
    | .bad f => .trap f va 0
    | .peer => .done s 0
    | .here home off =>
      let stop := off + len.toNat
      let ws := s.pagesOf home x.part stop (len.toNat / 0x10000 + 2) off
      if !ws.all (s.pageOwned home x.part off stop) then .trap .isoWindow va 0
      else .done (s.unlockRange home x.part off len.toNat) 0

/-! ### Phases (R368) -/

def execPhase (s : State) := issue .phase s fun s => .hold (s.modCore fun x => { x with hold := .phase })

/-- The open phase commits; PHASE then records its address and takes its snapshot, and the core goes on. -/
def execPhaseCommit (t : Nat) (s : State) : Host.Outcome State Fault Refusal :=
  let b := s.run t
  let x := s.slot t b
  if x.st != .busy || !x.phaseDone then .next s
  else
    let commit := fun (s : State) => (s.modSlot t b Slot.commit).arm t b false
    match x.hold with
    | .phase =>
      let s := commit s
      let cs := s.cellsBelow t x.header
      .next (s.modSlot t b fun x => { x with phase := some (x.pc, x.snapshot cs) }.release)
    | .park _ _ _ => if x.phase.isSome then .next (commit s) else .next s
    | .done _ _ _ => if x.phase.isSome then .next (commit s) else .next s
    | _ => .next s

/-! ### Faults and answers (R358, R359, R361) -/

def execFqpop (sd : SReg) (s : State) :=
  issue (.fqpop sd) s fun s =>
    let (a, s) := s.popFault s.core.part
    .done (s.modCore fun x => x.setS sd a) 0

/-- The answer to the record at s[sa]. -/
def answerRecord (a : Answer) (sa : SReg) (s : State) : Res :=
  match s.answer s.core.part (s.core.getS sa) a with
  | some s => .done s 0
  | none => .trap .progFans (s.core.getS sa) 0

def execFresume (sa : SReg) (s : State) := issue (.fresume sa) s (answerRecord .resume sa)
def execFabort (sa : SReg) (s : State) := issue (.fabort sa) s (answerRecord .abort sa)
def execFrestart (sa : SReg) (s : State) := issue (.frestart sa) s (answerRecord .restart sa)

/-- BRK traps, and its task resumes at the next word. -/
def execBrk (code : BitVec 24) (s : State) :=
  issue (.brk code) s fun s =>
    .hold (s.modCore fun x => x.advance.takeFault (x.coreFault .progBreak 0 (code.setWidth 64)))

/-! ### QWAIT (R360) -/

def execQwait (m c : Bool) (s : State) :=
  issue (.qwait m c) s fun s =>
    if !m && !c then .trap .progIllegal 0 0 else .hold (s.modCore fun x => { x with hold := .qwait m c })

/-- The named queues are empty: the core goes on. -/
def execQwaitComplete (t : Nat) (s : State) : Host.Outcome State Fault Refusal :=
  let b := s.run t
  let x := s.slot t b
  match x.hold with
  | .qwait m c =>
    if x.st == .busy && (!m || x.mq.isEmpty) && (!c || x.cq.isEmpty) then .next (s.modSlot t b Slot.release) else .next s
  | _ => .next s

end Sys2Proof.Machine
end

