-- ==== Sys2Proof/Machine/RecoveryEvents.lean ====
section
/-! DEFINITION. Events of contexts: stops, saves, move-outs, cancellations, switches, and the writing of fault records
(R75, R302, R351–R357, R363, R370, R371). -/

namespace Sys2Proof.Machine

/-! ### What makes a context stop -/

/-- BUDG is zero: the running task stops (R75). -/
def execBudgetExpiry (t : Nat) (s : State) : Host.Outcome State Fault Refusal :=
  let b := s.run t
  let x := s.slot t b
  if !(s.tile t).idle && x.task.isSome && x.budg == 0 then .next (s.modSlot t b fun x => x.beginStop .budget) else .next s

/-- Both slots have work, and the running one has run for TSLICE cycles (R302). -/
def execSliceExpiry (t : Nat) (s : State) : Host.Outcome State Fault Refusal :=
  let b := s.run t
  let n := (s.reg (.tslice t)).toNat % 2 ^ 32
  let works := fun (c : Nat) => s.eligible t c && (s.slot t c).task.isSome
  if n ≠ 0 ∧ !(s.tile t).idle ∧ works 0 ∧ works 1 ∧ n ≤ (s.slot t b).ran then .next (s.modSlot t b fun x => x.beginStop .switch)
  else .next s

/-- One slot of a PREQ (R357). -/
def State.preempt (s : State) (t b : Nat) : State :=
  let x := s.slot t b
  if x.task.isNone then s
  else
    let running := !(s.tile t).idle && s.run t == b
    match x.st with
    | .faulted => s.modSlot t b fun x => { x with moveDue := true }
    | .busy => s.modSlot t b fun x => if running then x.beginStop .preempt else { x with st := .saving .preempt }
    | .stopping _ => s.modSlot t b fun x => x.beginStop .preempt
    | _ => s

def execPreqWrite (t : Nat) (v : W64) (s : State) : Host.Outcome State Fault Refusal :=
  let s := if v.getLsbD 0 then s.preempt t 0 else s
  .next (if v.getLsbD 1 then s.preempt t 1 else s)

/-! ### The end of a stop (R351) -/

/-- Step 2 sends the cancel of a remote wait; the stop ends once every reply has come. -/
def State.cancelWait (s : State) (t b : Nat) : State :=
  match (s.slot t b).hold with
  | .remote id _ _ => { s with remotes := s.remotes.map fun m => if m.id = id ∧ m.op.waits then { m with cancel := true } else m }
  | _ => s

/-- Steps 2 to 5: accepted accesses complete, and started copy commands finish their chunks. -/
def State.drainContext (s : State) (t b : Nat) : State := (s.finishAccesses t b (s.slot t b).accs.length 0).finishChunks t b

/-- The record of a held context (R355). -/
def heldRecord (t b : Nat) (x : Slot) (f : FaultInfo) : FRec :=
  { info := { f with resume := x.pc }, part := x.part, die := dieOf t, tile := t, slotB := b == 1, inf := false, wid := x.wid,
    raw := 0, ctx := .slot t b }

/-- What follows the drain, by the reason of the stop. -/
def State.afterStop (s : State) (t b : Nat) (w : Stop) : State :=
  let dst := fun (st : SlotSt) (s : State) => s.modSlot t b fun x => { x with st := st }
  match w with
  | .fault f =>
    let s := (s.abandonHold t b).modSlot t b fun x => { x with st := .faulted, waited := 0 }.clearPending f
    s.pushRecord (heldRecord t b (s.slot t b) f)
  | .cancel _ => s
  | .preempt => dst (.saving .preempt) (s.abandonHold t b)
  | .budget => dst (.saving .overrun) (s.abandonHold t b)
  | .yield => dst (.saving .overrun) ((s.abandonHold t b).modSlot t b Slot.advance)
  | .switch => (dst .busy s).yieldTile t
  | .clear => dst .clearing (s.abandonHold t b)

/-- A stopping context has drained to its boundaries. -/
def execContextStopEnd (t : Nat) (b : Bool) (s : State) : Host.Outcome State Fault Refusal :=
  let b := if b then 1 else 0
  let x := s.slot t b
  match x.st with
  | .stopping w =>
    if !x.mayStop then .next (s.cancelWait t b)
    else
      let s := s.drainContext t b
      match (s.slot t b).st with
      | .stopping w' => .next (if w' = w then s.afterStop t b w else s)
      | _ => .next s
  | _ => .next s

/-! ### Phase cancellation (R370, R371) -/

/-- The INFO record of source 7. -/
def cancelRecord (t b : Nat) (x : Slot) (f : FaultInfo) : FRec :=
  { info := { f with src := 7, resume := 0 }, part := x.part, die := dieOf t, tile := t, slotB := b == 1, inf := true, wid := x.wid,
    raw := 0, ctx := .none }

def State.cancelPhase (s : State) (t b : Nat) (f : FaultInfo) (pc : W64) (y : Snapshot) : State :=
  let x := s.slot t b
  let s := (s.pushRecord (cancelRecord t b x f)).dropWaiters t b
  let s := s.putCells t x.part y.cells
  let s := s.modSlot t b fun x => (x.rollback pc y).takePending
  s.resumeEngines t b

def execPhaseCancellation (t : Nat) (b : Bool) (s : State) : Host.Outcome State Fault Refusal :=
  let b := if b then 1 else 0
  let x := s.slot t b
  match x.st, x.phase with
  | .stopping (.cancel f), some (pc, y) =>
    if !x.mayStop then .next (s.cancelWait t b) else .next ((s.drainContext t b).cancelPhase t b f pc y)
  | _, _ => .next s

/-! ### Saves and restores (R363) -/

/-- A stopped context has been copied out: its record is re-enqueued, and the slot is free (R75, R302, R357). -/
def execContextSaveComplete (t : Nat) (b : Bool) (s : State) : Host.Outcome State Fault Refusal :=
  let b := if b then 1 else 0
  let x := s.slot t b
  match x.st with
  | .saving w =>
    if x.writeOut || !s.serves (.dispatcher (BitVec.ofNat 2 (dieOf t))) then .next s
    else match s.freeEntryAddr (dieOf t) x.part with
      | none => .next s
      | some addr =>
        let pre := w == .preempt
        let a : Arrival := { via := if pre then .head t else .tail, part := x.part, die := dieOf t,
                             crec := resumeRecord x.taskRecord pre (!pre) addr, addr := 0 }
        let running := !(s.tile t).idle && s.run t == b
        let s := s.saveTo t b addr false
        let s := { s with arrivals := s.arrivals ++ [a] }
        .next (if running && s.eligible t (1 - b) then s.switchTo t (1 - b) else s)
  | _ => .next s

/-- FHOLD cycles have passed on a held context (R357). -/
def execFholdExpiry (t : Nat) (b : Bool) (s : State) : Host.Outcome State Fault Refusal :=
  let b := if b then 1 else 0
  let x := s.slot t b
  let n := (s.reg (.fhold t)).toNat % 2 ^ 32
  if x.st = .faulted ∧ n ≠ 0 ∧ n ≤ x.waited then .next (s.modSlot t b fun x => { x with moveDue := true }) else .next s

/-- A held context moves out once its level has a unit to reserve (R68, R357). -/
def execContextMoveOut (t : Nat) (b : Bool) (s : State) : Host.Outcome State Fault Refusal :=
  let b := if b then 1 else 0
  let x := s.slot t b
  if x.st ≠ .faulted ∨ !(x.moveDue || x.pendPreempt) ∨ x.writeOut ∨ s.full (dieOf t) x.part x.taskLevel then .next s
  else match s.freeEntryAddr (dieOf t) x.part with
    | none => .next s
    | some addr => .next ((s.saveTo t b addr true).renameContext x.part t b addr)

/-- A lazy restore ends: its entry is freed. -/
def execContextRestoreComplete (t : Nat) (b : Bool) (s : State) : Host.Outcome State Fault Refusal :=
  let b := if b then 1 else 0
  let x := s.slot t b
  match x.source with
  | some a => .next ((s.dropSaved a).modSlot t b fun x => { x with restoring := false, source := none })
  | none => .next s

def execShadowWriteOutComplete (t : Nat) (b : Bool) (s : State) : Host.Outcome State Fault Refusal :=
  .next (s.modSlot t (if b then 1 else 0) fun x => { x with writeOut := false })

/-! ### The partition controller (R302) -/

/-- A partition has a record at the head of a level of a die. -/
def State.hasRecord (s : State) (d : Nat) (p : PartNo) : Bool := (s.topLevel d p).isSome

def State.slotHasRecord (s : State) (t b : Nat) : Bool := match s.holder t b with
  | some p => s.hasRecord (dieOf t) p
  | none => false

/-- Rules 1 to 3: which slot runs, where the running slot cannot, or has nothing to do. -/
def execSlotSwitch (t : Nat) (s : State) : Host.Outcome State Fault Refusal :=
  let b := s.run t
  let o := 1 - b
  let x := s.slot t b
  let stopping := match x.st with
    | .stopping _ => true
    | _ => false
  if (s.tile t).idle then
    (if s.eligible t b then .next (s.switchTo t b) else if s.eligible t o then .next (s.switchTo t o) else .next s)
  else if stopping then .next s
  else if !s.eligible t b then .next (s.yieldTile t)
  else if x.task.isNone && !s.slotHasRecord t b && s.eligible t o && ((s.slot t o).task.isSome || s.slotHasRecord t o) then
    .next (s.switchTo t o)
  else .next s

/-! ### Fault records (R354, R355) -/

def flag (b : Bool) (n : Nat) : W64 := (if b then 1 else 0 : W64) <<< n

/-- The first word of a record. -/
def FRec.word0 (r : FRec) (seq : BitVec 24) : W64 :=
  let where_ := r.info.src != 5 && r.info.src != 6
  let held := match r.ctx with
    | .slot _ _ => true
    | _ => false
  r.info.word0 ||| (r.part.setWidth 64 <<< 44) ||| (BitVec.ofNat 64 (r.die % 4) <<< 42) ||| flag (where_ && r.slotB) 41 |||
  flag held 40 ||| flag r.inf 39 ||| (if where_ then BitVec.ofNat 64 (r.tile % 256) <<< 24 else 0) ||| seq.setWidth 64

/-- Bytes +32 to +95. -/
def FRec.middle (r : FRec) : Bytes :=
  if r.info.src = 5 then recBytes r.raw
  else
    let ws := r.info.words.take 4
    (ws ++ List.replicate (4 - ws.length) 0).flatMap wordBytes ++ wordBytes r.info.word0 ++ wordBytes r.info.addr ++
      wordBytes r.info.detail ++ wordBytes r.info.prog

/-- The 128 bytes of a record. -/
def FRec.bytes (r : FRec) (seq : BitVec 24) : Bytes :=
  let image := match r.ctx with
    | .saved a => a
    | _ => 0
  let l := wordBytes (r.word0 seq) ++ wordBytes r.wid ++ wordBytes r.info.ip ++ wordBytes (if r.inf then 0 else r.info.resume) ++
    r.middle ++ wordBytes image ++ List.replicate 20 0
  l ++ bytesOf 4 (crc32c l).toNat

/-- The oldest record of a partition that waits is written, and its vector raised; or it waits for space or for a change of the
tables (R354). -/
def execFaultRecordWrite (p : PartNo) (s : State) : Host.Outcome State Fault Refusal :=
  let x := s.part p
  match x.recs with
  | [] => .next s
  | r :: rest =>
    if x.fqStuck || !s.serves (.dispatcher (BitVec.ofNat 2 r.die)) then .next s
    else if s.fqLen p ≤ x.fq.length then .next (s.orReg (.fqstat p) 2)
    else
      let va := (s.reg (.fqbase p) &&& ~~~127) + BitVec.ofNat 64 (128 * x.fqTail)
      match s.writeNow 0 0 0 p va 128 (leNat (r.bytes x.seq)) true with
      | (.ok (), s) =>
        let e : FEntry := { addr := va, frec := r, popped := false, answered := false }
        .next (s.modPart p fun x =>
          { x with recs := rest, seq := x.seq + 1, fq := x.fq ++ [e], fqTail := (x.fqTail + 1) % s.fqLen p,
                   msi := (s.reg (.fqvec p)).toNat % 64 :: x.msi })
      | (.fault _, s) => .next ((s.modPart p fun x => { x with fqStuck := true }).orReg (.fqstat p) 4)
      | (.wait, s) => .next s

end Sys2Proof.Machine
end

