-- ==== Sys2Proof/Machine/Weight.lean ====
section
/-! DEFINITION. Unit 12 and the programming engines: WSTAT, acceptance, programming, measuring, sealing and scrubbing of
weight regions (R318–R334). What the cells of a line do is the event's: the most raw bit errors found in a chunk of the line,
and how many of the places tried for it fail all eight rounds of R319. -/

namespace Sys2Proof.Machine

/-! ### Regions and lines -/

def dataLines : Nat := 16384
def spareLines : Nat := 492
def regionBytes : Nat := 2 ^ 26
/-- W-address of a region (R236, R321). -/
def regionBase (k : Nat) : Nat := k / 32 * 2 ^ 32 + k % 32 * 2 ^ 26
/-- The die of a region's tile. -/
def regionDie (k : Nat) : Nat := dieOf (k / 32)

/-- Facts of the physical lines: number, most raw errors of a chunk, places that fail. -/
abbrev LineFacts := List (Nat × Nat × Nat)
def LineFacts.errs (l : LineFacts) (i : Nat) : Nat := ((l.find? fun x => x.1 == i).map (·.2.1)).getD 0
def LineFacts.fails (l : LineFacts) (i : Nat) : Nat := ((l.find? fun x => x.1 == i).map (·.2.2)).getD 0

/-- Where a line is held: its own place, or a spare, numbered from 16,384 on. -/
def Region.placeOf (g : Region) (i : Nat) : Nat :=
  match g.remap.find? fun x => x.1 == i with
  | some x => dataLines + x.2
  | none => i

/-- One programming of a place (R318). -/
def Region.wearUp (g : Region) (i : Nat) : Region := { g with wear := tput g.wear i (min (tget 0 g.wear i + 1) (2 ^ 24 - 1)) }

/-- Each place that fails is replaced by the next unused spare (R319). -/
def Region.takeSpares (g : Region) (i : Nat) : Nat → Bool × Region
  | 0 => (true, g)
  | n + 1 =>
    if g.spares = 0 then (false, g)
    else
      let k := spareLines - g.spares
      ({ g with spares := g.spares - 1, remap := tput g.remap i k }.wearUp (dataLines + k)).takeSpares i n

/-- Write-and-check of a line (R319): PASS or FAIL. -/
def Region.program (g : Region) (i fails : Nat) : Bool × Region := (g.wearUp (g.placeOf i)).takeSpares i fails

def Region.poison (g : Region) (i : Nat) : Region := if g.bad.contains i then g else { g with bad := i :: g.bad }
def Region.cure (g : Region) (i : Nat) : Region := { g with bad := g.bad.filter (· != i) }

/-- A line programmed with 4,096 bytes, or marked poisoned when it fails. -/
def State.programLine (s : State) (k i fails : Nat) (bs : Bytes) : Bool × State :=
  let (ok, g) := (s.region k).program i fails
  if ok then (true, (s.modRegion k fun _ => g.cure i).writeBytes (weightKey (regionBase k + 4096 * i)) bs)
  else (false, s.modRegion k fun _ => g.poison i)

/-- Every data line becomes zeros; lines already programmed by the command do not count another programming, and those that failed
stay poisoned. -/
def State.wipe (s : State) (k : Nat) : State :=
  let lo := weightKey (regionBase k)
  { s with mem := memClear s.mem lo (lo + regionBytes) }

/-- Every line programmed to zeros, by a command that programs nothing else. -/
def State.zeroLines (s : State) (k : Nat) (l : LineFacts) : Bool × State :=
  (List.range dataLines).foldl (fun r i =>
    let (ok, s) := r.2.programLine k i (l.fails i) (List.replicate 4096 0)
    (r.1 && ok, s)) (true, s)

/-! ### The measurement of R327 -/

def modelBytes (m : W256) : Bytes := bytesOf 32 m.toNat
def digestOf (d : Bytes) : BitVec 384 := BitVec.ofNat 384 (leNat d)

/-- The string that is hashed. -/
def measured (k : Nat) (marked : Bool) (model : W256) (lines : Bytes) : Bytes :=
  [0x4D, 0x45, 0x41, 0x53] ++ bytesOf 2 1 ++ [if marked then 1 else 0, 0] ++ bytesOf 8 (regionBase k) ++ List.replicate 16 0 ++
  (if marked then modelBytes model else List.replicate 32 0) ++ lines

/-- D of a region as it stands. -/
def State.measure (s : State) (k : Nat) : Bytes :=
  let g := s.region k
  sha384 (measured k g.sealed g.model (s.readBytes (weightKey (regionBase k)) regionBytes))

/-! ### WSTAT (R324) -/

/-- The address checks of R323. -/
def wAddrBad (w : W64) : Bool := w.extractLsb' 40 24 != 0 || w.getLsbD 31 || decide (Config.tiles ≤ (w.extractLsb' 32 8).toNat)

def Region.ownedBy (g : Region) (k : Nat) (p : PartNo) : Bool := k != lmsRegion && g.v && g.part == p

def regCode : RegSt → Nat
  | .free => 0
  | .programming => 1
  | .opened => 2
  | .locked => 3

def Region.word (g : Region) : W64 :=
  (BitVec.ofNat 64 ((g.wear.map (·.2)).foldl max 0 % 2 ^ 24) <<< 32) ||| (BitVec.ofNat 64 (g.spares % 1024) <<< 12) |||
  (g.part.setWidth 64 <<< 8) ||| ((if g.sealed then 1 else 0 : W64) <<< 7) |||
  ((if g.digest.isSome then 1 else 0 : W64) <<< 6) ||| (g.result.setWidth 64 <<< 3) ||| BitVec.ofNat 64 (regCode g.st)

def execWstat (sd sa : SReg) (s : State) :=
  issue (.wstat sd sa) s fun s =>
    let w := s.core.getS sa
    let k := regionNo w.toNat
    if wAddrBad w then .trap .progAddr w 0
    else if w.extractLsb' 0 26 ≠ 0 then .trap .progAlign w 0
    else .done (s.modCore fun x => x.setS sd (if (s.region k).ownedBy k x.part then (s.region k).word else 7)) 0

/-! ### At issue (R323) -/

def weightOperands (sa : SReg) (ha : Option HReg) (sb : Option SReg) (x : Slot) (o : Offer) : Offer :=
  { o with x := x.getS sa, y := (sb.map x.getS).getD 0, ha := (ha.map x.getH).getD 0 }

def execWprog (sa : SReg) (ha : HReg) (e : Eng) (s : State) :=
  issue (.wprog sa ha e) s (offerCommand (weightOperands sa (some ha) none) (.wprog sa ha e))
def execWprogs (sa : SReg) (ha : HReg) (sb : SReg) (e : Eng) (s : State) :=
  issue (.wprogs sa ha sb e) s (offerCommand (weightOperands sa (some ha) (some sb)) (.wprogs sa ha sb e))
def execWfree (sa : SReg) (e : Eng) (s : State) :=
  issue (.wfree sa e) s (offerCommand (weightOperands sa none none) (.wfree sa e))
def execWmeas (ha : HReg) (sa : SReg) (e : Eng) (s : State) :=
  issue (.wmeas ha sa e) s (offerCommand (weightOperands sa (some ha) none) (.wmeas ha sa e))
def execWscrub (sa : SReg) (e : Eng) (s : State) :=
  issue (.wscrub sa e) s (offerCommand (weightOperands sa none none) (.wscrub sa e))
def execWchk (ha : HReg) (sa : SReg) (e : Eng) (s : State) :=
  issue (.wchk ha sa e) s (offerCommand (weightOperands sa (some ha) none) (.wchk ha sa e))

/-! ### Acceptance (R323) -/

def isWeightCommand : Instr → Bool
  | .wprog _ _ _ => true
  | .wprogs _ _ _ _ => true
  | .wfree _ _ => true
  | .wmeas _ _ _ => true
  | .wscrub _ _ => true
  | .wchk _ _ _ => true
  | _ => false

/-- The handle and the number of its elements are as the command needs them. -/
def handleArgBad (o : Offer) : Option FaultName :=
  let n := hCount o.ha
  let args := fun (ok : Bool) =>
    if !hValid o.ha 1 then some FaultName.progBounds else if ok then none else some .progWarg
  match o.instr with
  | .wprog _ _ _ => args (n % 4096 == 0 && decide ((o.x.extractLsb' 0 26).toNat + n ≤ regionBytes))
  | .wprogs _ _ _ _ => args (o.y.extractLsb' 6 58 == 0 && decide (4176 ≤ n))
  | .wmeas _ _ _ => args (n == 48)
  | .wchk _ _ _ => args (n == 48)
  | _ => none

/-- The fault of the checks at acceptance, if there is one. -/
def State.weightBad (s : State) (die : Nat) (p : PartNo) (o : Offer) : Option FaultName :=
  let k := regionNo o.x.toNat
  let step := match o.instr with
    | .wprog _ _ _ => 4096
    | _ => regionBytes
  if wAddrBad o.x || regionDie k != die then some .progAddr
  else if (o.x.extractLsb' 0 26).toNat % step ≠ 0 then some .progAlign
  else if !(s.region k).ownedBy k p then some .isoWindow
  else handleArgBad o

/-- The engine takes one offer while its queue has room, after the start-up measurement (R336). -/
def execWeightCommandAccept (die : Nat) (s : State) : Host.Outcome State Fault Refusal :=
  let tiles := (List.range 48).map fun i => die * 48 + ((s.die die).wLast + 1 + i) % 48
  if s.devstat.toNat < 4 || 64 ≤ (s.die die).wq.length || !s.serves (.programming (BitVec.ofNat 2 die)) then .next s
  else match tiles.findSome? fun t => ((s.offerOf t).filter fun o => isWeightCommand o.instr).map fun o => (t, o) with
    | none => .next s
    | some (t, o) =>
      let b := s.run t
      let x := s.slot t b
      let s := s.modDie die fun y => { y with wLast := t }
      match s.weightBad die x.part o with
      | some f => .next (s.modSlot t b fun x => x.trap f o.x 0)
      | none =>
        let (id, s) := s.newNum
        let task := match x.task with
          | some k => k.num
          | none => 0
        let c : WCmd := { id := id, tile := t, slot := b, task := task, part := x.part, offer := o }
        .next ((s.modSlot t b Slot.release).modDie die fun y => { y with wq := y.wq ++ [c] })

/-! ### The end of a command (R323, R324) -/

def WCmd.region (c : WCmd) : Nat := regionNo c.offer.x.toNat
def WCmd.info (c : WCmd) (n : FaultName) (addr detail : W64) (lines : Nat) : FaultInfo :=
  { name := n, src := 4, addr := addr, detail := detail, prog := 0xC000000000000000 ||| BitVec.ofNat 64 lines,
    ip := c.offer.addr, words := c.offer.words }

def State.weightRecord (s : State) (die : Nat) (c : WCmd) (f : FaultInfo) : State :=
  if c.aborted then s else s.infoRecord c.part die c.tile (c.slot == 1) c.offer.wid f

/-- The command leaves the queue with a result. -/
def State.closeWeight (s : State) (die : Nat) (c : WCmd) (result : BitVec 3) : State :=
  (s.modDie die fun y => { y with wq := y.wq.filter fun x => x.id != c.id }).modRegion c.region fun g => { g with result := result }

/-- A command that completes sends its signal; a refused signal leaves an INFO record. -/
def State.endWeight (s : State) (die : Nat) (c : WCmd) (result : BitVec 3) : State :=
  let s := s.closeWeight die c result
  match ((c.offer.instr.eng?).getD ⟨none, none, false⟩).sig with
  | none => s
  | some (n, sa) =>
    let y := s.cell c.tile n.toNat
    let va := cellAddr c.tile n.toNat
    if c.aborted then s
    else if !y.ownedBy c.part then s.weightRecord die c (c.info .isoWindow va 0 0)
    else match y.sig (sa.setWidth 32) with
      | .ok z => s.putCell c.tile n.toNat z
      | .error f => s.weightRecord die c (c.info f va y.detail 0)

/-- A fault after acceptance: a record, result ABORTED, no signal. -/
def State.abortWeight (s : State) (die : Nat) (c : WCmd) (f : FaultName) (va : W64) (lines : Nat) : State :=
  (s.weightRecord die c (c.info f va 0 lines)).closeWeight die c 7

def State.setRegSt (s : State) (k : Nat) (st : RegSt) : State := s.modRegion k fun g => { g with st := st }

/-! ### Memory accesses of a command (R238) -/

/-- n byte elements of a handle from element i on, or the first that cannot be read. -/
def State.handleBytes (s : State) (c : WCmd) (t b : Nat) : Nat → Nat → Got Bytes × W64 × State
  | 0, _ => (.ok [], 0, s)
  | n + 1, i =>
    let va := hAddr c.offer.ha i
    match s.readNow c.offer.header t b c.part va 1 with
    | (.ok v, s) =>
      match s.handleBytes c t b n (i + 1) with
      | (.ok bs, a, s) => (.ok (v :: bs), a, s)
      | (.fault f, a, s) => (.fault f, a, s)
      | (.wait, a, s) => (.wait, a, s)
    | (.fault f, s) => (.fault f, va, s)
    | (.wait, s) => (.wait, va, s)

/-- Bytes written to the elements of a handle, from element i on. -/
def State.putHandleBytes (s : State) (c : WCmd) (t b : Nat) : Bytes → Nat → Got Unit × W64 × State
  | [], _ => (.ok (), 0, s)
  | v :: r, i =>
    let va := hAddr c.offer.ha i
    match s.writeNow c.offer.header t b c.part va 1 v (coversBlock c.offer.ha 1 va) with
    | (.ok (), s) => s.putHandleBytes c t b r (i + 1)
    | (.fault f, s) => (.fault f, va, s)
    | (.wait, s) => (.wait, va, s)

def State.weightPlace (s : State) (die : Nat) (c : WCmd) : Got (Nat × Nat) :=
  s.placeFor die c.task c.tile c.slot c.part (hBase c.offer.ha)

/-! ### Sealed images (R332, R333) -/

/-- L, where the header is as R332 gives it and the handle holds the whole image. -/
def imageLength (h : Bytes) (count : Nat) : Option Nat :=
  let l := leNat ((h.drop 8).take 8)
  if leNat (h.take 4) = 0x4C414553 ∧ leNat ((h.drop 4).take 4) = 1 ∧ leNat ((h.drop 28).take 4) = 0 ∧
      l % 4096 = 0 ∧ 4096 ≤ l ∧ l ≤ regionBytes ∧ 80 + l ≤ count then some l
  else none

/-- The failure branch of R333: every line zeros, unsealed, no digest. -/
def State.failSealed (s : State) (k : Nat) : State :=
  (s.wipe k).modRegion k fun g => { g with st := .opened, sealed := false, digest := none }

/-- A source read fails: the lines are programmed and wiped as far as the command came, each counting one programming (R318, R333). -/
def State.stopSealed (s : State) (die : Nat) (c : WCmd) (l : LineFacts) (f : FaultName) (va : W64) : State :=
  (((s.zeroLines c.region l).2.failSealed c.region)).abortWeight die c f va 0

/-- WPROGS begins: the region, the slot and the header decide whether anything is programmed. -/
def State.startSealed (s : State) (die : Nat) (c : WCmd) : State :=
  let k := c.region
  let y := s.keySlot (slotNo c.offer.y)
  if (s.region k).st ≠ .free then s.endWeight die c 4
  else if y.kind ≠ 1 ∨ y.part ≠ c.part then s.endWeight die c 3
  else match s.weightPlace die c with
    | .wait => s
    | .fault f => s.stopSealed die c [] f (hBase c.offer.ha)
    | .ok (t, b) => match s.handleBytes c t b 64 0 with
      | (.wait, _, _) => s
      | (.fault f, a, s) => s.stopSealed die c [] f a
      | (.ok h, _, s) => match imageLength h (hCount c.offer.ha) with
        | none => s.endWeight die c 2
        | some _ =>
          (s.setRegSt k .programming).modDie die fun x =>
            { x with wq := x.wq.map fun q => if q.id = c.id then { q with started := true, key := y.key } else q }

/-- Every line of a sealed region programmed: from the plaintext, then zeros. -/
def State.programAll (s : State) (k : Nat) (l : LineFacts) (text : Bytes) : Bool × State :=
  (List.range dataLines).foldl (fun r i =>
    let bs := (text.drop (4096 * i)).take 4096
    let (ok, s) := r.2.programLine k i (l.fails i) (bs ++ List.replicate (4096 - bs.length) 0)
    (r.1 && ok, s)) (true, s)

/-- WPROGS ends (R333). A tag that fails is found after the lines are programmed, and they are wiped. A line that reads back uncorrectable makes D differ from P. -/
def State.endSealed (s : State) (die : Nat) (c : WCmd) (l : LineFacts) : State :=
  let k := c.region
  match s.weightPlace die c with
  | .wait => s
  | .fault f => s.stopSealed die c l f (hBase c.offer.ha)
  | .ok (t, b) => match s.handleBytes c t b (hCount c.offer.ha) 0 with
    | (.wait, _, _) => s
    | (.fault f, a, s) => s.stopSealed die c l f a
    | (.ok bs, _, s) =>
      let len := leNat ((bs.drop 8).take 8)
      let model : W256 := BitVec.ofNat 256 (leNat ((bs.drop 32).take 32))
      match gcmOpen (keyBytes c.key) ((bs.drop 16).take 12) (bs.take 64) ((bs.drop 64).take len)
          ((bs.drop (64 + len)).take 16) with
      | none => ((s.programAll k l []).2.failSealed k).endWeight die c 2
      | some text =>
        let (ok, s) := s.programAll k l text
        let p := sha384 (measured k true model (text ++ List.replicate (regionBytes - len) 0))
        if !ok then (s.failSealed k).endWeight die c 1
        else if (List.range dataLines).any fun i => decide (16 < l.errs i) then (s.failSealed k).endWeight die c 5
        else (s.modRegion k fun g =>
          { g with st := .opened, sealed := true, model := model, digest := some (digestOf p), differs := false }).endWeight die c 0

/-! ### Start (R325–R328, R333) -/

/-- A region whose lines WMEAS, WCHK and WSCRUB may read. -/
def Region.readable (g : Region) : Bool := g.st == .opened || g.st == .locked

def State.markStarted (s : State) (die : Nat) (c : WCmd) : State :=
  s.modDie die fun x => { x with wq := x.wq.map fun q => if q.id = c.id then { q with started := true } else q }

/-- The engine begins the oldest command of its die. -/
def execWeightCommandStart (die : Nat) (s : State) : Host.Outcome State Fault Refusal :=
  match (s.die die).wq with
  | [] => .next s
  | c :: _ =>
    let k := c.region
    let g := s.region k
    if c.started || !s.serves (.programming (BitVec.ofNat 2 die)) || !s.releasedFor die c.task c.offer.num then .next s
    else match c.offer.instr with
      | .wprog _ _ _ =>
        if g.st = .locked ∨ g.sealed ∨ g.st = .programming then .next (s.endWeight die c 4)
        else .next ((s.setRegSt k .programming).markStarted die c)
      | .wprogs _ _ _ _ => .next (s.startSealed die c)
      | .wfree _ _ =>
        if g.st = .programming then .next (s.endWeight die c 4)
        else .next ((s.modRegion k fun g => { g with st := .free, sealed := false, digest := none }).markStarted die c)
      | _ => if g.readable then .next (s.markStarted die c) else .next (s.endWeight die c 4)

/-! ### Completion -/

/-- WPROG's lines, from line i of the range on: whether all passed, or where a source read fails. -/
def State.programRange (s : State) (c : WCmd) (t b : Nat) (l : LineFacts) : Nat → Nat → Got Bool × W64 × Nat × State
  | 0, i => (.ok true, 0, i, s)
  | n + 1, i =>
    match s.handleBytes c t b 4096 (4096 * i) with
    | (.wait, a, s) => (.wait, a, i, s)
    | (.fault f, a, s) => (.fault f, a, i, s)
    | (.ok bs, _, s) =>
      let line := (c.offer.x.extractLsb' 0 26).toNat / 4096 + i
      match s.programLine c.region line (l.fails line) bs with
      | (true, s) => s.programRange c t b l n (i + 1)
      | (false, s) => (.ok false, 0, i, s)

def State.endProgram (s : State) (die : Nat) (c : WCmd) (l : LineFacts) : State :=
  let k := c.region
  match s.weightPlace die c with
  | .wait => s
  | .fault f => (s.setRegSt k .opened).abortWeight die c f (hBase c.offer.ha) 0
  | .ok (t, b) => match s.programRange c t b l (hCount c.offer.ha / 4096) 0 with
    | (.wait, _, _, _) => s
    | (.fault f, a, i, s) => (s.setRegSt k .opened).abortWeight die c f a i
    | (.ok ok, _, _, s) => (s.modRegion k fun g => { g with st := .opened, digest := none }).endWeight die c (if ok then 0 else 1)

/-- Lines whose data can no longer be corrected are poisoned (R320). -/
def Region.poisonLines (g : Region) (l : LineFacts) : Region :=
  l.foldl (fun g x => if 16 < x.2.1 ∧ x.1 < dataLines then g.poison x.1 else g) g

/-- WMEAS and WCHK: D, then what the region records (R327). -/
def State.endMeasure (s : State) (die : Nat) (c : WCmd) (l : LineFacts) (check : Bool) : State :=
  let k := c.region
  let s := s.modRegion k fun g => g.poisonLines l
  if !(s.region k).bad.isEmpty then s.abortWeight die c .hwPoison c.offer.x 0
  else
    let d := s.measure k
    match s.weightPlace die c with
    | .wait => s
    | .fault f => s.abortWeight die c f (hBase c.offer.ha) 0
    | .ok (t, b) => match s.putHandleBytes c t b d 0 with
      | (.wait, _, _) => s
      | (.fault f, a, s) => s.abortWeight die c f a 0
      | (.ok (), _, s) =>
        if check then s.endWeight die c (match (s.region k).digest with
          | none => 6
          | some x => if x = digestOf d then 0 else 5)
        else (s.modRegion k fun g => if g.sealed then g else { g with digest := some (digestOf d) }).endWeight die c 0

/-- One line reread by a scrubber: reprogrammed, poisoned, or left; false when it needed a spare and found none, and it keeps its old
cells (R320, R328). -/
def State.scrub (s : State) (k i errs fails : Nat) : Bool × State :=
  if 16 < errs then (true, s.modRegion k fun g => g.poison i)
  else if errs ≤ 8 || (s.region k).bad.contains i then (true, s)
  else
    let r := (s.region k).remap
    let (ok, g) := (s.region k).program i fails
    (ok, s.modRegion k fun _ => if ok then g else { g with remap := r })

def State.endScrub (s : State) (die : Nat) (c : WCmd) (l : LineFacts) : State :=
  let (ok, s) := (List.range dataLines).foldl (fun r i =>
    let (ok, s) := r.2.scrub c.region i (l.errs i) (l.fails i)
    (r.1 && ok, s)) (true, s)
  s.endWeight die c (if ok then 0 else 1)

/-- The command being performed reaches its end. -/
def execWeightCommandComplete (die : Nat) (lines : List (Nat × Nat × Nat)) (s : State) : Host.Outcome State Fault Refusal :=
  match (s.die die).wq with
  | [] => .next s
  | c :: _ =>
    if !c.started || !s.serves (.programming (BitVec.ofNat 2 die)) then .next s
    else match c.offer.instr with
      | .wprog _ _ _ => .next (s.endProgram die c lines)
      | .wprogs _ _ _ _ => .next (s.endSealed die c lines)
      | .wfree _ _ =>
        let (ok, s) := s.zeroLines c.region lines
        .next (s.endWeight die c (if ok then 0 else 1))
      | .wmeas _ _ _ => .next (s.endMeasure die c lines false)
      | .wchk _ _ _ => .next (s.endMeasure die c lines true)
      | .wscrub _ _ => .next (s.endScrub die c lines)
      | _ => .next s

/-- The background scrubber rereads a line; it reprograms only between weight-engine commands (R320). -/
def execScrubLine (t : Nat) (region : BitVec 5) (line : BitVec 14) (errs bad : Nat) (s : State) : Host.Outcome State Fault Refusal :=
  let k := t * 32 + region.toNat
  let busy := match (s.die (dieOf t)).wq with
    | c :: _ => c.started
    | [] => false
  if !(s.region k).readable || !s.serves (.programming (BitVec.ofNat 2 (dieOf t))) then .next s
  else if errs ≤ 16 && busy then .next s
  else .next (s.scrub k line.toNat errs bad).2

end Sys2Proof.Machine
end

