-- ==== Sys2Proof/Machine/ConfigEvents.lean ====
section
/-! DEFINITION. What system software and the host do through configuration registers: partitions and their clearing, slots,
cells, windows, translations, weight regions, region tables, the host's end of the fault queue, and the plain registers
(R8, R67, R204, R299–R312, R321, R354, R357, R362, R385–R392, R394, R396). -/

namespace Sys2Proof.Machine

/-! ### Partitions (R299, R300, R305, R331, R388) -/

/-- Writes through physical function 0 to this partition's registers are ignored (R388). -/
def State.tdispLocked (s : State) (p : PartNo) : Bool := (s.part p).tdisp == .configLocked || (s.part p).tdisp == .run

/-- The tiles of which anything is stored. -/
def State.knownTiles (s : State) : List Nat := s.tiles.map (·.1)

/-- Step 1 of a clearing, for one slot: its task stops, or it is cleared at once (R305). -/
def Slot.startClear (x : Slot) : Slot :=
  match x.st with
  | .busy => if x.task.isSome then x.beginStop .clear else { x with st := .clearing }
  | .stopping _ => x.beginStop .clear
  | _ => { x with st := .clearing }

/-- EN goes from 1 to 0: the clearing begins. -/
def State.startClearing (s : State) (p : PartNo) : State :=
  let s := s.modPart p fun x => { x with en := false, clrBusy := true, keysDue := false }
  s.knownTiles.foldl (fun s t => [0, 1].foldl (fun s b =>
    if s.holder t b = some p then s.modSlot t b Slot.startClear else s) s) s

/-- PCFG (R300). -/
def execPcfgWrite (p : PartNo) (v : W64) (s : State) : Host.Outcome State Fault Refusal :=
  let x := s.part p
  if s.tdispLocked p then .next s
  else if x.en then (if v.getLsbD 0 then .next s else .next (s.startClearing p))
  else
    let en := v.getLsbD 0 && !x.clrBusy
    .next (s.modPart p fun x => { x with en := en, prot := v.getLsbD 1, keysDue := en && v.getLsbD 1 })

/-- The security core draws K1–K3 and places them in the link engines (R331). -/
def execDrawerKeysPlaced (p : PartNo) (s : State) : Host.Outcome State Fault Refusal :=
  if (s.part p).keysDue && s.serves .security then
    .next ({ s with fresh := s.fresh + 3 }.modPart p fun x => { x with keys := some s.fresh, keysDue := false })
  else .next s

/-- A TDISP error: ERROR, and EN becomes 0 (R388). -/
def execTdispError (p : PartNo) (s : State) : Host.Outcome State Fault Refusal :=
  let en := (s.part p).en
  let s := s.modPart p fun x => { x with tdisp := .error }
  .next (if en then s.startClearing p else s)

/-- A TDISP request: lock, start and stop an interface; ERROR is left through UNLOCKED (R388). -/
def execTdispInterfaceRequest (p : PartNo) (dst : Tdisp) (s : State) : Host.Outcome State Fault Refusal :=
  let ok := match (s.part p).tdisp, dst with
    | .unlocked, .configLocked => true
    | .configLocked, .run => true
    | _, .unlocked => true
    | _, _ => false
  if ok then .next (s.modPart p fun x => { x with tdisp := dst }) else .next s

/-! #### The end of a clearing (R305) -/

/-- Steps 3 and 6: Sward operations and contexts, weight commands of a partition on a die. -/
def State.clearDie (s : State) (d : Nat) (p : PartNo) : State :=
  let gone := (s.die d).wq.filter fun c => c.part == p && !c.started
  let s := gone.foldl (fun s c => s.closeWeight d c 7) s
  s.modDie d fun x =>
    { x with sw := x.sw.filter (fun e => e.2.part != p), swOps := x.swOps.filter (fun o => o.part != p),
             wq := x.wq.map fun c => if c.part = p then { c with aborted := true } else c }

/-- Step 4: every cell of the partition. -/
def Tile.clearCells (x : Tile) (p : PartNo) : Tile := { x with cells := x.cells.filter fun e => !e.2.ownedBy p }

/-- Step 5: the level and submission rings of a die. -/
def State.clearRings (s : State) (d : Nat) (p : PartNo) : State :=
  (List.range 8).foldl (fun s l => s.modRing d p l fun x => { x with recs := [], held := [], sqHead := x.sqTail }) s

/-- Step 9: the fault queue, the drawer keys. -/
def Part.cleared (x : Part) : Part :=
  { x with clrBusy := false, seq := 0, recs := [], fq := [], fqTail := 0, fqHead := 0, fqHres := BitVec.allOnes 64, fqStuck := false,
           keys := none, keysDue := false }

def State.clearPartition (s : State) (p : PartNo) : State :=
  let s := { s with
    saved := s.saved.filter (fun k => k.part != p)
    arrivals := s.arrivals.filter (fun a => a.part != p)
    parked := s.parked.filter (fun k => k.part != p)
    remotes := s.remotes.filter (fun m => m.part != p || m.origin.isSome)
    locks := s.locks.filter (fun r => r.part != p)
    units := s.units.map fun (u : Nat × XUnit) => (u.1, { u.2 with tlb := u.2.tlb.filter fun e => e.part != p })
    tiles := s.tiles.map fun (x : Nat × Tile) => (x.1, x.2.clearCells p)
    keys := s.keys.filter fun (k : Nat × KeySlot) => k.2.kind == 0 || k.2.part != p }
  let s := (List.range Config.dies).foldl (fun s d => (s.clearDie d p).clearRings d p) s
  (s.modPart p Part.cleared).putReg (.fqstat p) 0

/-- Every slot of the partition has been unassigned and cleared: the rest is cleared, and CLRBUSY drops. -/
def execPartitionClearDone (p : PartNo) (s : State) : Host.Outcome State Fault Refusal :=
  let holds := s.knownTiles.any fun t => s.holder t 0 == some p || s.holder t 1 == some p
  if (s.part p).clrBusy && !holds then .next (s.clearPartition p) else .next s

/-! ### Slots (R301, R303) -/

def TSlot.put (x : TSlot) (b : Nat) (p : PartNo) (v : Bool) : TSlot :=
  if b = 0 then { x with pa := p, va := v } else { x with pb := p, vb := v }
def TSlot.field (x : TSlot) (b : Nat) : PartNo × Bool := if b = 0 then (x.pa, x.va) else (x.pb, x.vb)

/-- One slot's fields of a TSLOT write: a change that takes effect starts the clearing of the slot. -/
def State.assignSlot (s : State) (t b : Nat) (p : PartNo) (v : Bool) : State :=
  let x := s.slot t b
  if (s.tile t).tslot.field b = (p, v) || x.task.isSome || x.writeOut || (v && !(s.part p).en) then s
  else (s.modTile t fun y => { y with tslot := y.tslot.put b p v }).modSlot t b fun x => { x with st := .clearing }

def execTslotWrite (t : Nat) (v : W64) (s : State) : Host.Outcome State Fault Refusal :=
  .next ((s.assignSlot t 0 (v.extractLsb' 0 4) (v.getLsbD 4)).assignSlot t 1 (v.extractLsb' 5 4) (v.getLsbD 9))

/-- The clearing of a slot ends: its half is zero and its items stand as after reset; a slot whose partition is being cleared is
assigned no more (R303, R305). -/
def execSlotClearDone (t : Nat) (b : Bool) (s : State) : Host.Outcome State Fault Refusal :=
  let b := if b then 1 else 0
  if (s.slot t b).st ≠ .clearing then .next s
  else
    let k := halfKey t b
    let part := (s.tile t).tslot.field b
    let s := s.dropWaiters t b
    let s := { s with mem := memClear s.mem k (k + 0x400000),
                      poisoned := s.poisoned.filter fun x => !(decide (k ≤ x) && decide (x < k + 0x400000)),
                      remotes := s.remotes.filter fun m => m.tile != t || m.slot != b }
    let s := s.modSlot t b fun _ => {}
    .next (if (s.part part.1).clrBusy then s.modTile t fun y => { y with tslot := y.tslot.put b part.1 false } else s)

/-! ### Cells (R304, R389) -/

/-- The partition of a waiter. -/
def State.waiterPart (s : State) (t : Nat) (w : Waiter) : Option PartNo :=
  match w.who with
  | .core b => some (s.slot t b).part
  | .matrix b => some (s.slot t b).part
  | .copy b => some (s.slot t b).part
  | .remote id => (s.remotes.find? fun m => m.id == id).map Remote.part

/-- A waiter on a cell that its partition does not own meets ISO.WINDOW. -/
def State.evict (s : State) (t : Nat) (w : Waiter) : State :=
  let va := cellAddr t w.cell
  let s := s.dropWaiter t w.who
  let engine := fun (m : Bool) (b : Nat) => match ((s.slot t b).queue m).find? fun c => !c.started && !c.wtaken with
    | some c => s.engineFault t b m c .isoWindow va 0
    | none => s
  match w.who with
  | .core b => s.modSlot t b fun x => x.trap .isoWindow va 0
  | .matrix b => engine true b
  | .copy b => engine false b
  | .remote id => s.replyRemote id (.replied (some .isoWindow) 0 0)

/-- COWN: the operations of the cycle are resolved first; a change of owner zeroes the cell (R304). -/
def execCownWrite (t : Nat) (c : CellNo) (v : W64) (s : State) : Host.Outcome State Fault Refusal :=
  let s := s.settleIf t (· == c.toNat)
  let y := s.cell t c.toNat
  let own := v.getLsbD 4
  let p : PartNo := v.extractLsb' 0 4
  if y.v = own ∧ y.part = p then .next s
  else
    let z : Cell := { v := own, part := p }
    let s := s.putCell t c.toNat z
    let lost := (s.tile t).waiters.filter fun w => w.cell == c.toNat && match s.waiterPart t w with
      | some q => !z.ownedBy q
      | none => true
    .next (lost.foldl (fun s w => s.evict t w) s)

/-- CCFGW: as CCFG, for an owned cell; a word that CCFG refuses is ignored. -/
def execCcfgwWrite (t : Nat) (c : CellNo) (v : W64) (s : State) : Host.Outcome State Fault Refusal :=
  let y := s.cell t c.toNat
  if !y.v then .next s
  else match y.ccfg v with
    | .ok z => .next (s.putCell t c.toNat z)
    | .error _ => .next s

/-! ### Windows and translations (R306, R308, R311) -/

/-- A fault record that waits for a change of the tables at a home is tried again (R354). -/
def State.retryRecords (s : State) (home : Nat) : State :=
  (List.range 16).foldl (fun s i =>
    let p : PartNo := BitVec.ofNat 4 i
    if (s.part p).fqStuck && homeBits (s.reg (.fqbase p)) == home then s.modPart p fun x => { x with fqStuck := false } else s) s

/-- The number under which a home's draining is kept: its first translation unit. -/
def drainUnit (u : BitVec 3) : Nat := if u = 4 then 16 else u.toNat
def unitHome (u : BitVec 3) : Nat := if u = 4 then 0x10 else u.toNat + 1

/-- BUSY, until every access made so far under the old state is performed (R311). -/
def State.startDrain (s : State) (u : BitVec 3) : State :=
  (s.modUnit (drainUnit u) fun x => { x with drain := some s.nextNum }).orReg (.xstat u) 4

def windowLimit (home : Nat) : Option Nat :=
  if 1 ≤ home ∧ home ≤ 4 then some Config.sharedBytes else if home = 0x10 then some Config.drawerBytes else none

/-- Two windows share a byte. -/
def windowsMeet (a b : W64) : Bool := decide (winBase a < winBase b + winSize b) && decide (winBase b < winBase a + winSize a)

/-- A window that R306 refuses at a home with a limit. -/
def State.windowBad (s : State) (home : Nat) (p : PartNo) (v : W64) : Bool :=
  match windowLimit home with
  | none => false
  | some top =>
    winSize v != 0 && (decide (top < winBase v + winSize v) ||
      (List.range 16).any fun q => BitVec.ofNat 4 q != p && (List.range 16).any fun i =>
        let w := s.pwin home (BitVec.ofNat 4 q) i
        winSize w != 0 && windowsMeet v w)

def execPwinWrite (home : BitVec 7) (p : PartNo) (w : BitVec 4) (v : W64) (s : State) : Host.Outcome State Fault Refusal :=
  let h := home.toNat
  let v := v &&& 0x1FFFFFFF1FFFFFFF
  if s.tdispLocked p || !((windowLimit h).isSome || h == 0x20) then .next s
  else if s.windowBad h p v then .next (s.orReg (.xstat (homeUnit h)) 2)
  else
    let s := { s with pwins := tput s.pwins (pwinNo h p w.toNat) v }
    .next (if h = 0x20 then s else (s.startDrain (homeUnit h)).retryRecords h)

/-- Entries of a partition dropped from every unit of a home; locked ranges outlive them (R312). -/
def State.dropEntries (s : State) (u : BitVec 3) (f : Tlb → Bool) : State :=
  let s := (unitsOf (unitHome u)).foldl (fun s n => s.modUnit n fun x => { x with tlb := x.tlb.filter fun e => !f e }) s
  (s.startDrain u).retryRecords (unitHome u)

def execTinvPage (unit : BitVec 3) (p : PartNo) (off : BitVec 41) (s : State) : Host.Outcome State Fault Refusal :=
  if 4 < unit.toNat then .next s else .next (s.dropEntries unit fun e => e.covers p (off.toNat * 0x10000))
def execTinvAll (unit : BitVec 3) (p : PartNo) (s : State) : Host.Outcome State Fault Refusal :=
  if 4 < unit.toNat then .next s else .next (s.dropEntries unit fun e => e.part == p)

/-- An access made before a number is accepted at a home and not performed. -/
def State.accessesBefore (s : State) (home n : Nat) : Bool :=
  (s.tiles.any fun t => [t.2.a, t.2.b].any fun x => x.accs.any fun a =>
    decide (a.num < n) && a.accepted && a.elems.any fun e => !e.done && homeBits e.va == home) ||
  (home == 0x10 && s.links.any fun l => l.2.queue.any fun r => decide (r.acc < n))

def execInvalidationDrainEnd (unit : BitVec 3) (s : State) : Host.Outcome State Fault Refusal :=
  match (s.unit (drainUnit unit)).drain with
  | none => .next s
  | some n =>
    if s.accessesBefore (unitHome unit) n then .next s
    else .next ((s.modUnit (drainUnit unit) fun x => { x with drain := none }).putReg (.xstat unit) (s.reg (.xstat unit) &&& ~~~4))

/-! ### Weight regions (R321) -/

def execWownWrite (t : Nat) (r : BitVec 5) (v : W64) (s : State) : Host.Outcome State Fault Refusal :=
  let k := t * 32 + r.toNat
  let g := s.region k
  let own := v.getLsbD 4
  let p : PartNo := v.extractLsb' 0 4
  let used := (s.die (dieOf t)).wq.any fun c => c.region == k
  if k = lmsRegion ∨ Config.tiles ≤ t ∨ (g.v = own ∧ g.part = p) ∨ g.st = .programming ∨ used then .next s
  else .next (s.modRegion k fun g => { g with v := own, part := p, st := if g.sealed && g.st == .opened then .locked else g.st })

/-! ### Region tables (R58, R248, R392) -/

/-- The words of an entry: base, size, cell window address, zero. -/
def State.regionWords (s : State) (k : Nat) : W64 × W64 × W64 × W64 :=
  let w := fun (i : Nat) => (BitVec.ofNat 64 (s.readMem (k + 8 * i) 8) : W64)
  (w 0, w 1, w 2, w 3)

/-- The whole entry lies in one home of R248. -/
def entryInHome (b n : W64) : Bool :=
  ((decide (1 ≤ homeBits b) && decide (homeBits b ≤ 4)) || homeBits b == 0x10) && decide (offBits b + n.toNat ≤ 2 ^ 57)

/-- The rule that an entry breaks, by its reason code, or the entry. -/
def State.regionEntry (s : State) (p : PartNo) (x : W64 × W64 × W64 × W64) (before : List RegionEntry) : Except Nat RegionEntry :=
  let (b, n, c, z) := x
  if b.toNat % 0x10000 ≠ 0 ∨ n.toNat % 0x10000 ≠ 0 ∨ n = 0 ∨ z ≠ 0 then .error 2
  else if !entryInHome b n then .error 3
  else if before.any fun e => decide (e.base.toNat < b.toNat + n.toNat) && decide (b.toNat < e.base.toNat + e.size.toNat) then .error 4
  else match spaceOf c with
    | .cell t i 0 => if (s.cell t i).ownedBy p then .ok ⟨t, i, b, n⟩ else .error 5
    | _ => .error 5

/-- The entries of a table at a key, in order: all of them, or the reason and index of the first that breaks a rule. -/
def State.regionTable (s : State) (p : PartNo) (k : Nat) : Nat → Nat → List RegionEntry → Except (Nat × Nat) (List RegionEntry)
  | 0, _, l => .ok l
  | n + 1, i, l =>
    match s.regionEntry p (s.regionWords (k + 32 * i)) l with
    | .ok e => s.regionTable p k n (i + 1) (l ++ [e])
    | .error c => .error (c, i)

/-- A task of the partition is RUNNING, SUSPENDED or FAULTED. -/
def State.hasTask (s : State) (p : PartNo) : Bool :=
  (s.tiles.any fun t => [t.2.a, t.2.b].any fun x => x.task.isSome && x.part == p) || s.saved.any fun k => k.part == p && k.moved

/-- What an install comes to. -/
def State.install (s : State) (p : PartNo) : Except (Nat × Nat) (List RegionEntry) :=
  let base := s.reg (.rtbase p)
  let n := (s.reg (.rtcount p)).toNat % 512
  if 256 < n then .error (6, 0)
  else if n = 0 then (if s.hasTask p then .error (1, 0) else .ok [])
  else if !(decide (1 ≤ homeBits base) && decide (homeBits base ≤ 4)) || offBits base % 32 != 0 then .error (7, 0)
  else if s.hasTask p then .error (1, 0)
  else s.regionTable p (homeKey (homeBits base) (offBits base)) n 0 []

def execRtcmd (p : PartNo) (v : W64) (s : State) : Host.Outcome State Fault Refusal :=
  if v.getLsbD 0 && !(s.part p).rtBusy then .next ((s.modPart p fun x => { x with rtBusy := true }).orReg (.rtstat p) 4) else .next s

def execRegionTableInstallDone (p : PartNo) (s : State) : Host.Outcome State Fault Refusal :=
  if !(s.part p).rtBusy then .next s
  else
    let old := s.reg (.rtstat p) &&& 3
    let report := fun (v : W64) (s : State) => (s.modPart p fun x => { x with rtBusy := false }).putReg (.rtstat p) (old ||| v)
    match s.install p with
    | .ok l => .next (report 1 (s.modPart p fun x => { x with regions := l }))
    | .error (c, i) => .next (report (2 ||| (BitVec.ofNat 64 c <<< 8) ||| (BitVec.ofNat 64 i <<< 32)) s)

/-! ### The host's end of the fault queue (R354, R359) -/

def execFqhpop (p : PartNo) (v : W64) (s : State) : Host.Outcome State Fault Refusal :=
  if !v.getLsbD 0 then .next s
  else
    let (a, s) := s.popFault p
    .next (s.modPart p fun x => { x with fqHres := a })

/-- An FQANS that names no popped record sets ANSERR. -/
def State.hostAnswer (s : State) (p : PartNo) (addr : W64) (a : Answer) : State :=
  match s.answer p (addr &&& ~~~127) a with
  | some s => s
  | none => s.orReg (.fqstat p) 1

def execFqansResume (p : PartNo) (addr : W64) (s : State) : Host.Outcome State Fault Refusal := .next (s.hostAnswer p addr .resume)
def execFqansAbort (p : PartNo) (addr : W64) (s : State) : Host.Outcome State Fault Refusal := .next (s.hostAnswer p addr .abort)
def execFqansRestart (p : PartNo) (addr : W64) (s : State) : Host.Outcome State Fault Refusal := .next (s.hostAnswer p addr .restart)

/-! ### Plain registers (R8) -/

def ones (n : Nat) : W64 := BitVec.ofNat 64 (2 ^ n - 1)

/-- Ones clear, outside the bits that are read-only. -/
def State.clearBits (s : State) (r : CfgReg) (mask v : W64) : State := s.putReg r (s.reg r &&& ~~~(v &&& mask))

/-- The level of a ring register holds records or a backlog: its registers keep their values (R67). -/
def State.levelBusy (s : State) (d : Nat) (p : PartNo) (l : Nat) : Bool :=
  s.lqocc d p l != 0 || (s.ring d p l).sqHead != (s.ring d p l).sqTail

/-- A write of a ring register: ignored while the level is busy. -/
def State.ringWrite (s : State) (die : BitVec 2) (p : PartNo) (l : BitVec 3) (r : CfgReg) (v : W64) : State :=
  if s.levelBusy die.toNat p l.toNat then s else s.putReg r v

/-- A size of 2^8 to 2^20 records. -/
def ringSizeOk (v : W64) : Bool := decide (8 ≤ v.toNat % 32) && decide (v.toNat % 32 ≤ 20)

/-- A write of a register under its access type and the rule that names it. -/
def State.writeReg (s : State) (r : CfgReg) (v : W64) : State :=
  match r with
  | .lqbase d p l => s.ringWrite d p l r (v &&& 0x3FFFFC0)
  | .sqbase d p l => s.ringWrite d p l r (v &&& 0x3FFFFC0)
  | .lqsize d p l => if ringSizeOk v then s.ringWrite d p l r (v &&& 31) else s
  | .sqsize d p l => if ringSizeOk v then s.ringWrite d p l r (v &&& 31) else s
  | .lqstat _ _ _ => s.clearBits r 7 v
  | .swshare _ _ => s.putReg r (if swPool < (v &&& ones 23).toNat then BitVec.ofNat 64 swPool else v &&& ones 23)
  | .ptroot u p =>
    if v.getLsbD 50 || s.tdispLocked p then s
    else (s.putReg r (v &&& 0x0003000007FFF001)).retryRecords (unitHome u)
  | .cxbase _ _ => s.putReg r (v &&& ~~~(ones 23))
  | .cxcount _ _ => s.putReg r (v &&& ones 32)
  | .xstat _ => s.clearBits r 3 v
  | .pwrshare d => if s.serves .management then s.putReg r (v &&& ones 12) else s.holdRequest .management (.pwrshareWrite d v)
  | .fhold _ => s.putReg r (v &&& ones 32)
  | .tslice _ => s.putReg r (v &&& ones 32)
  | .proster _ => s.putReg r v
  | .hport p => if (s.part p).en || s.tdispLocked p then s else s.putReg r (v &&& 1)
  | .drstall _ => s.putReg r (v &&& ones 32)
  | .fqbase p =>
    if 1 ≤ homeBits v ∧ homeBits v ≤ 4 then (s.putReg r (v &&& ~~~127)).modPart p fun x => { x with fqStuck := false } else s
  | .fqsize _ => if 4 ≤ v.toNat % 16 ∧ v.toNat % 16 ≤ 12 then s.putReg r (v &&& 15) else s
  | .fqvec _ => s.putReg r (v &&& 63)
  | .fqstat _ => s.clearBits r 7 v
  | .rtbase _ => s.putReg r v
  | .rtcount _ => s.putReg r (v &&& ones 9)
  | .rtstat _ => s.clearBits r (~~~4) v
  | .pkgid => s.putReg r (v &&& 63)
  | .vroute _ => s.putReg r (v &&& ones 48)
  | .swshadow _ _ => s.putReg r (v &&& ones 16)
  | .swstat _ => s.clearBits r 3 v
  | .herr _ => s.clearBits r (~~~(ones 32)) v

def execConfigRegisterWrite (r : CfgReg) (v : W64) (s : State) : Host.Outcome State Fault Refusal := .next (s.writeReg r v)

end Sys2Proof.Machine
end

