-- ==== Sys2Proof/Machine/Control.lean ====
section
/-! DEFINITION. Unit 2: branches, calls and returns, loops, predicates (R80–R87). -/

namespace Sys2Proof.Machine

/-- PC + SignExt(offset32, 64) × 8 (R38, R80). -/
def target (x : Slot) (off : W32) : W64 := x.ipc + off.signExtend 64 * 8

/-- An address lies in the captured body. -/
def LoopSt.inside (l : LoopSt) (pc : W64) : Bool := decide ((pc - l.start).toNat < 8 * l.words.length)

/-- A taken branch: two cycles pass in which nothing issues; a target inside a captured body traps (R83, R86). -/
def takeBranch (s : State) (pc : W64) : Res :=
  match s.core.loop with
  | some l => if l.inside pc then .trap .progLoop 0 0 else .jump s pc 2
  | none => .jump s pc 2

def branchIf (b : Bool) (pc : W64) (s : State) : Res := if b then takeBranch s pc else .done s 0

def execBr (c : Cond) (sa sb : SReg) (off : W32) (s : State) :=
  issue (.br c sa sb off) s fun s => branchIf (condHolds c (s.core.getS sa) (s.core.getS sb)) (target s.core off) s
def execBqT (q : QReg) (off : W32) (s : State) :=
  issue (.bqT q off) s fun s => branchIf (s.core.getQ q) (target s.core off) s
def execBqF (q : QReg) (off : W32) (s : State) :=
  issue (.bqF q off) s fun s => branchIf (!s.core.getQ q) (target s.core off) s
def execJmp (off : W32) (s : State) := issue (.jmp off) s fun s => takeBranch s (target s.core off)
def misaligned (a : W64) : Bool := a.extractLsb' 0 3 != 0
def execJmpr (sa : SReg) (s : State) :=
  issue (.jmpr sa) s fun s =>
    if misaligned (s.core.getS sa) then .trap .progAlign (s.core.getS sa) 0 else takeBranch s (s.core.getS sa)

/-! ### Calls and returns (R82) -/

/-- A captured body refuses calls, returns and loops before every other check (R86). -/
def noLoop (x : Slot) : Option FaultName := if x.loop.isSome then some .progLoop else none

/-- A stack slot's address is a multiple of 8 in the stack area. -/
def stackOk (x : Slot) (sp a : W64) : Bool :=
  !misaligned sp && decide (0x400000 ≤ a.toNat + hdrStack x.header) && decide (a.toNat < 0x400000)

/-- Pushing a return address; a seventeenth entry spills the oldest (R82). -/
def pushCall (s : State) (tgt : W64) : Res :=
  let x := s.core
  if x.ret.length < 16 then .jump (s.modCore fun x => { x with ret := x.npc :: x.ret }) tgt 2
  else
    let a := x.getS spReg - 8
    if !stackOk x (x.getS spReg) a || x.rss == 0xFFFFFFFF then .trap .progStack a 0
    else
      let s := s.writeMem (halfKey s.cur (s.run s.cur) + a.toNat) 8 (x.ret.getLastD 0).toNat
      .jump (s.modCore fun x => { x.setS spReg a with rss := x.rss + 1, ret := x.npc :: x.ret.take 15 }) tgt 3

def execCall (off : W32) (s : State) := issuePre (.call off) s noLoop fun s => pushCall s (target s.core off)
def execCallr (sa : SReg) (s : State) :=
  issuePre (.callr sa) s noLoop fun s =>
    if misaligned (s.core.getS sa) then .trap .progAlign (s.core.getS sa) 0 else pushCall s (s.core.getS sa)

def execRet (s : State) :=
  issuePre .ret s noLoop fun s =>
    let x := s.core
    match x.ret with
    | t :: r => if misaligned t then .trap .progAlign t 0 else .jump (s.modCore fun x => { x with ret := r }) t 2
    | [] =>
      let sp := x.getS spReg
      let k := halfKey s.cur (s.run s.cur) + sp.toNat
      if x.rss = 0 then .trap .progStack 0 0
      else if !stackOk x sp sp then .trap .progStack sp 0
      else if s.isPoisoned k 8 then .trap .hwPoison sp 0
      else
        let t : W64 := BitVec.ofNat 64 (s.readMem k 8)
        if misaligned t then .trap .progAlign t 0
        else .jump (s.modCore fun x => { x.setS spReg (sp + 8) with rss := x.rss - 1 }) t 6

/-! ### Loops (R84–R87) -/

/-- The n words of a body, fetched from va on. -/
def State.captureWords (s : State) (va : W64) : Nat → Got (List W64) × State × W64
  | 0 => (.ok [], s, va)
  | n + 1 =>
    match s.fetchWord s.cur (s.run s.cur) va with
    | (.ok w, s) =>
      match s.captureWords (va + 8) n with
      | (.ok ws, r) => (.ok (w :: ws), r)
      | (.fault f, r) => (.fault f, r)
      | (.wait, r) => (.wait, r)
    | (.fault f, s) => (.fault f, s, va)
    | (.wait, s) => (.wait, s, va)

/-- The shared effect of the loop instructions with count n, body length len and, for LOOP.P, E (R84). -/
def beginLoop (n : W64) (len : Nat) (epi : Option Nat) (s : State) : Res :=
  let x := s.core
  let after := x.npc + BitVec.ofNat 64 (8 * len)
  let e := epi.getD 0
  if n = 0 then .jump (s.modCore fun x => { x with lc := 0 }) after 0
  else if 2 ^ 64 ≤ n.toNat + e then .trap .progLoop 0 0
  else
    match s.captureWords x.npc len with
    | (.wait, s, _) => .hold s
    | (.fault f, _, va) => .trap f va 0
    | (.ok ws, s, _) =>
      if (ws.getLast?).any isPfx then .trap .progPfx 0 0
      else
        .done (s.modCore fun x => { x with
          loop := some ⟨ws, after, e, epi.isSome⟩
          lc := n + BitVec.ofNat 64 e
          q := if epi.isSome then 3 else x.q }) 0

def execLoop (sa : SReg) (len : BitVec 7) (s : State) :=
  issuePre (.loop sa len) s noLoop fun s => beginLoop (s.core.getS sa) len.toNat none s
def execLoopP (sa : SReg) (len : BitVec 7) (epi : BitVec 3) (s : State) :=
  issuePre (.loopP sa len epi) s noLoop fun s => beginLoop (s.core.getS sa) len.toNat (some epi.toNat) s
def execLoopi (count : BitVec 24) (len : BitVec 7) (s : State) :=
  issuePre (.loopi count len) s noLoop fun s => beginLoop (count.setWidth 64) len.toNat none s

def execQset (c : Cond) (q : QReg) (sa sb : SReg) (s : State) :=
  issue (.qset c q sa sb) s (onCore fun x => x.setQ q (condHolds c (x.getS sa) (x.getS sb)))

end Sys2Proof.Machine
end

