-- ==== Sys2Proof/Machine/TrustEvents.lean ====
section
/-! DEFINITION. The security core: key slots, unsealing, measurements, the manifest and SPDM sessions (R329, R330, R334, R337,
R338, R393). -/

namespace Sys2Proof.Machine

/-! ### Key slots (R329, R330) -/

def State.putKey (s : State) (k : Nat) (y : KeySlot) : State := { s with keys := tput s.keys k y }

def execKerase (v : W64) (s : State) : Host.Outcome State Fault Refusal :=
  if s.serves .security then .next (s.putKey (v.extractLsb' 0 6).toNat {}) else .next (s.holdRequest .security (.kerase v))

/-- A session with the security core. -/
def State.session (s : State) (n : Nat) : Option Session := (s.sessions.find? fun x => x.1 == n).map (·.2)

/-- A KEY_LOAD that the security core refuses. -/
def State.keyRefused (s : State) (slot : Nat) (kind : BitVec 2) (p : PartNo) (o q : W32) : Bool :=
  decide (64 ≤ slot) || (s.keySlot slot).kind != 0 || !(s.part p).en || (kind == 1 && !(s.part p).prot) || kind == 0 ||
  kind == 3 || (kind == 2 && o == q)

/-- KEY_LOAD: the slot holds the key, with counters of 0 and no tag. -/
def execKeyLoad (session slot : Nat) (kind : BitVec 2) (p : PartNo) (key : W256) (openLevel sealLevel : W32) (s : State) :
    Host.Outcome State Fault Refusal :=
  if !s.serves .security then .next (s.holdRequest .security (.keyLoad session slot kind p key openLevel sealLevel))
  else if (s.session session).isNone || s.keyRefused slot kind p openLevel sealLevel then .next s
  else
    let y : KeySlot := { kind := kind, part := p, key := key, openStream := if kind = 2 then openLevel else 0,
                         sealStream := if kind = 2 then sealLevel else 0, loader := some session }
    .next (s.putKey slot y)

/-- KEY_ERASE, in the session that loaded the slot. -/
def execKeyErase (session slot : Nat) (s : State) : Host.Outcome State Fault Refusal :=
  if !s.serves .security then .next (s.holdRequest .security (.keyErase session slot))
  else if (s.session session).isSome && (s.keySlot slot).loader == some session then .next (s.putKey slot {})
  else .next s

/-! ### Unsealing (R334) -/

/-- The conditions on the region and the partition. -/
def State.mayUnseal (s : State) (k : Nat) (p : PartNo) (model : W256) (digest : BitVec 384) : Bool :=
  let g := s.region k
  g.st == .locked && g.ownedBy k p && (s.part p).en && (s.part p).prot && g.model == model && g.digest == some digest && !g.differs

def execUnsealModel (session : Nat) (waddr : BitVec 40) (p : PartNo) (model : W256) (digest : BitVec 384) (s : State) :
    Host.Outcome State Fault Refusal :=
  let k := regionNo waddr.toNat
  let told := match s.session session with
    | some x => x.measured
    | none => false
  if !s.serves .security then .next (s.holdRequest .security (.unsealModel session waddr p model digest))
  else if told && !wAddrBad (waddr.setWidth 64) && s.mayUnseal k p model digest then .next (s.setRegSt k .opened)
  else .next s

/-! ### Measurements (R337–R339) -/

/-- The controllers that run images of a kind: 0 management, 1 security, 2 link, 3 programming, 4 dispatcher. -/
def kindMembers : Nat → List Controller
  | 0 => [.management]
  | 1 => [.security]
  | 2 => [.linkFirmware false, .linkFirmware true]
  | 3 => (List.range 4).map fun d => .programming (BitVec.ofNat 2 d)
  | _ => (List.range 4).map fun d => .dispatcher (BitVec.ofNat 2 d)

def kindOf : Controller → Nat
  | .management => 0
  | .security => 1
  | .linkFirmware _ => 2
  | .programming _ => 3
  | .dispatcher _ => 4

/-- The version of the image that runs. -/
def Fw.running (f : Fw) : Byte :=
  match f.st with
  | .handover => f.standby
  | .serving => f.standby
  | .healthy => f.standby
  | _ => f.active

/-- The value of an anti-rollback counter: the larger level of its banks (R339). -/
def State.antiRollback (s : State) (kind : Nat) : Byte :=
  let l := tget (0, 0) s.arb kind
  if l.1.toNat < l.2.toNat then l.2 else l.1

/-- PCFG of a partition (R300). -/
def Part.pcfg (x : Part) : W64 :=
  (if x.en then 1 else 0) ||| (if x.prot then 2 else 0) ||| (if x.clrBusy then 4 else 0)

/-- WOWN of a region (R321). -/
def Region.wown (g : Region) (k : Nat) : Nat :=
  if k = lmsRegion then 0 else (if g.sealed then 32 else 0) + (if g.v then 16 else 0) + g.part.toNat

/-- A region's 64 bytes of the manifest: W-address, state, WOWN, recorded digest. -/
def State.manifestEntry (s : State) (k : Nat) : Bytes :=
  let g := s.region k
  bytesOf 8 (regionBase k) ++ bytesOf 4 (regCode g.st) ++ bytesOf 4 (g.wown k) ++ bytesOf 48 (g.digest.getD 0).toNat

def regionCount : Nat := 6144
def State.manifest (s : State) : Bytes := (List.range regionCount).flatMap s.manifestEntry

/-- The digest at an index. -/
def State.measurement (s : State) (i : Nat) : Bytes :=
  match i with
  | 1 => bytesOf 48 (Config.imageDigest 1 []).toNat
  | 7 => sha384 ((List.range 5).map fun k => (s.antiRollback k).toNat)
  | 8 => sha384 ((List.range 16).flatMap fun q =>
      let p : PartNo := BitVec.ofNat 4 q
      bytesOf 8 (s.part p).pcfg.toNat ++ bytesOf 8 (s.reg (.proster p)).toNat)
  | 9 => sha384 s.manifest
  | i => bytesOf 48 (Config.imageDigest i ((kindMembers (i - 2)).map fun c => (s.firmware c).running)).toNat

def State.respond (s : State) (session : Nat) (bs : Bytes) : State :=
  { s with responses := (session, bs.map (BitVec.ofNat 8)) :: s.responses }

/-- A signature takes the next LMS leaf (R338). -/
def State.sign (s : State) : List Byte × State :=
  (Config.freeSignature s.fresh, { s with fresh := s.fresh + 1, lmsLeaf := s.lmsLeaf + 1 })

/-- The digests that an answer to an index holds: one of 1–9, or all nine for 255. -/
def State.measurements (s : State) (i : Nat) : Option Bytes :=
  if 1 ≤ i ∧ i ≤ 9 then some (s.measurement i)
  else if i = 255 then some ((List.range 9).flatMap fun j => s.measurement (j + 1))
  else none

/-- GET_MEASUREMENTS: the signed answer is returned, and the session has had one. -/
def execGetMeasurements (session : Nat) (index : Byte) (s : State) : Host.Outcome State Fault Refusal :=
  match s.session session, s.measurements index.toNat with
  | some x, some bs =>
    if s.serves .security then
      let (sg, s) := s.sign
      let x := { x with measured := true }
      .next { s with responses := (session, bs.map (BitVec.ofNat 8) ++ sg) :: s.responses, sessions := tput s.sessions session x }
    else .next (s.holdRequest .security (.getMeasurements session index))
  | _, _ => .next s

def execGetManifest (session : Nat) (s : State) : Host.Outcome State Fault Refusal :=
  if !s.serves .security then .next (s.holdRequest .security (.getManifest session))
  else if (s.session session).isSome then .next (s.respond session s.manifest) else .next s

/-! ### Sessions (R330, R337, R393) -/

/-- The ports that lead to a peer have their keys. -/
def State.keyPorts (s : State) (peer : BitVec 6) : State :=
  (List.range Config.ports).foldl (fun s i =>
    if (s.reg (.vroute peer)).getLsbD i then { s with ports := tput s.ports i { tget ({} : Port) s.ports i with keyed := true } }
    else s) s

/-- A key exchange establishes a session, or ends one; with a peer's security core it keys the ports that lead there. -/
def execSpdmKeyExchange (session : Nat) (peer : Option (BitVec 6)) (establish : Bool) (s : State) : Host.Outcome State Fault Refusal :=
  if !s.serves .security then .next (s.holdRequest .security (.spdmKeyExchange session peer establish))
  else if establish then
    let x : Session := { peer := peer }
    let s := { s with sessions := tput s.sessions session x }
    .next (match peer with
      | some n => s.keyPorts n
      | none => s)
  else .next { s with sessions := s.sessions.filter fun (x : Nat × Session) => x.1 != session }

end Sys2Proof.Machine
end

