-- ==== Sys2Proof/Machine/FirmwareEvents.lean ====
section
/-! DEFINITION. Live update of the embedded controllers' firmware (R338, R339, R374–R376). -/

namespace Sys2Proof.Machine

def State.putFw (s : State) (c : Controller) (f : Fw) : State := { s with fw := (c, f) :: s.fw.filter fun x => x.1 != c }

/-- A handover runs: from the quiesce to the commit or the revert (R376). -/
def Fw.inHandover (f : Fw) : Bool :=
  match f.st with
  | .handover => true
  | .serving => true
  | .healthy => true
  | _ => false

/-- BUSY falls when the handover that set it ends. -/
def State.endBusy (s : State) : State := { s with fw := s.fw.map fun (x : Controller × Fw) => (x.1, { x.2 with busy := false }) }

/-- The security core accepts an image: both signatures verify, and its version, 0–128, is at least the counter of its kind (R338). -/
def State.acceptsImage (s : State) (c : Controller) (version : Byte) (signed : Bool) : Bool :=
  signed && decide (version.toNat ≤ 128) && decide ((s.antiRollback (kindOf c)).toNat ≤ version.toNat)

/-- VERIFY, in IDLE. -/
def execFwVerify (c : Controller) (version : Byte) (signed : Bool) (s : State) : Host.Outcome State Fault Refusal :=
  let f := s.firmware c
  if f.st ≠ .idle then .next s
  else if !s.serves .security then .next (s.holdRequest .security (.fwVerify c version signed))
  else .next (s.putFw c { f with standby := version, st := if s.acceptsImage c version signed then .verified else .rejected })

/-- HANDOVER, in VERIFIED: the running image stops; while another runs it is ignored, and BUSY is set. -/
def execFwHandover (c : Controller) (s : State) : Host.Outcome State Fault Refusal :=
  let f := s.firmware c
  if s.fw.any fun x => x.1 != c && x.2.inHandover then .next (s.putFw c { f with busy := true })
  else if f.st = .verified then .next (s.putFw c { f with st := .handover })
  else .next s

/-- The new image signals SERVICE: held requests are served, in order. -/
def execFwServiceSignal (c : Controller) (s : State) : Host.Outcome State Fault Refusal :=
  let f := s.firmware c
  if f.st = .handover then .next ((s.putFw c { f with st := .serving }).serveHeld c) else .next s

/-- SERVICE is missed: the old image restarts from the same record, and serves. -/
def execFwServiceTimeout (c : Controller) (s : State) : Host.Outcome State Fault Refusal :=
  let f := s.firmware c
  if f.st = .handover then .next ((s.putFw c { f with st := .reverted }).endBusy.serveHeld c) else .next s

def execFwHealthSignal (c : Controller) (s : State) : Host.Outcome State Fault Refusal :=
  let f := s.firmware c
  if f.st = .serving then .next (s.putFw c { f with st := .healthy }) else .next s

/-- HEALTH is missed: the old image restarts from the latest checkpoint; requests retired so far stand. -/
def execFwHealthTimeout (c : Controller) (s : State) : Host.Outcome State Fault Refusal :=
  let f := s.firmware c
  if f.st = .serving then .next (s.putFw c { f with st := .reverted }).endBusy else .next s

/-- A counter is raised to v: bank A, then bank B; a bank never falls (R339). -/
def State.raiseCounter (s : State) (kind : Nat) (v : Byte) : State :=
  let l := tget (0, 0) s.arb kind
  let up := fun (x : Byte) => if x.toNat < v.toNat then v else x
  { s with arb := tput s.arb kind (up l.1, up l.2) }

/-- COMMIT, in HEALTHY: the new image is the one used at start-up, and its counter rises. -/
def execFwCommit (c : Controller) (s : State) : Host.Outcome State Fault Refusal :=
  let f := s.firmware c
  if f.st = .healthy then
    let g : Fw := { active := f.standby, standby := f.active, st := .idle }
    .next ((s.raiseCounter (kindOf c) f.standby).putFw c g).endBusy
  else .next s

/-- ABANDON, in VERIFIED, REJECTED and REVERTED. -/
def execFwAbandon (c : Controller) (s : State) : Host.Outcome State Fault Refusal :=
  let f := s.firmware c
  if f.st = .verified ∨ f.st = .rejected ∨ f.st = .reverted then .next (s.putFw c { f with st := .idle }) else .next s

end Sys2Proof.Machine
end

