-- ==== Sys2Proof/Machine/HostEvents.lean ====
section
/-! DEFINITION. Requests of the host through a partition's function, requests of peers, and the Vonyx ports (R234, R235, R256,
R279, R385–R387, R393, R394). -/

namespace Sys2Proof.Machine

/-! ### The host (R386, R387) -/

/-- The device address that an offset of BAR2 reaches. -/
def barAddr (off : W32) : W64 := mkAddr (1 + off.toNat / 0x40000000) (off.toNat % 0x40000000)

/-- A request that fails a check: HERR, HERRADDR and the vector. -/
def State.hostError (s : State) (p : PartNo) (va : W64) (f : FaultName) : State :=
  let e := s.reg (.herr p)
  let n := min ((e.extractLsb' 0 32).toNat + 1) 0xFFFFFFFF
  let first := !e.getLsbD 63
  let top := if first then ((1 : W64) <<< 63) ||| ((faultCode f).setWidth 64 <<< 40) else e &&& ~~~(0xFFFFFFFF : W64)
  (s.putReg (.herr p) (top ||| BitVec.ofNat 64 n)).modPart p fun x =>
    { x with herrAddr := if first then va else x.herrAddr, msi := (s.reg (.fqvec p)).toNat % 64 :: x.msi }

/-- The checks that precede R231 and R307, and the refusal of plaintext reads of a protected partition. -/
def State.hostCheck (s : State) (p : PartNo) (va : W64) (n : Nat) (wr : Bool) : Option FaultName :=
  if n ≠ 4 ∧ n ≠ 8 then some .progAddr
  else if offBits va % n ≠ 0 then some .progAlign
  else match spaceOf va with
    | .cell _ _ _ => if n ≠ 8 then some .progAddr else none
    | .shared _ _ => if (s.part p).prot && !wr then some .isoWindow else none
    | .half _ _ _ _ => if (s.part p).prot && !wr then some .isoWindow else none
    | _ => none

/-- A posted write, once the host sees the function (R395), arrives, is checked and performed, or is discarded. -/
def execHostPostedWrite (p : PartNo) (off : W32) (size : Nat) (data : W64) (s : State) : Host.Outcome State Fault Refusal :=
  let va := barAddr off
  if !(s.part p).en || s.devstat.toNat < 5 then .next s
  else match s.hostCheck p va size true with
    | some f => .next (s.hostError p va f)
    | none => match s.writeNow 0 0 0 p va size (data.toNat % 256 ^ size) false with
      | (.ok (), s) => .next s
      | (.fault f, s) => .next (s.hostError p va f)
      | (.wait, s) => .next s

/-- A read completes after the writes before it: with its data, or with Unsupported Request. -/
def execHostRead (p : PartNo) (off : W32) (size : Nat) (s : State) : Host.Outcome State Fault Refusal :=
  let va := barAddr off
  let answer := fun (v : Option W64) (s : State) => s.modPart p fun x => { x with reads := v :: x.reads }
  if !(s.part p).en || s.devstat.toNat < 5 then .next (answer none s)
  else match s.hostCheck p va size false with
    | some f => .next (answer none (s.hostError p va f))
    | none => match s.readNow 0 0 0 p va size with
      | (.ok v, s) => .next (answer (some (BitVec.ofNat 64 v)) s)
      | (.fault f, s) => .next (answer none (s.hostError p va f))
      | (.wait, s) => .next s

/-! ### Peers (R235, R394) -/

/-- The entry of the peer tables that maps an offset of an issuing partition, by units of 64 KiB. -/
def State.peerEntry (s : State) (p : PartNo) (off : Nat) : Option PeerMap :=
  s.peerMap.find? fun e => e.issuer == p && decide (e.lo ≤ off / 0x10000 * 0x10000) &&
    decide (off / 0x10000 * 0x10000 + 0x10000 ≤ e.lo + e.size)

/-- Homes that the tables may map onto. -/
def peerHome (va : W64) : Bool := (decide (1 ≤ homeBits va) && decide (homeBits va ≤ 4)) || homeBits va == 0x10

/-- The place of a peer's offset in this package, and the receiving partition; a miss raises XLAT.MISS. -/
def State.peerPlace (s : State) (r : PeerReq) : Except FaultName (W64 × PartNo) :=
  match s.peerEntry r.part r.offset.toNat with
  | some e =>
    let va := e.base + BitVec.ofNat 64 (r.offset.toNat - e.lo)
    if peerHome va then .ok (va, e.part) else .error .xlatMiss
  | none => .error .xlatMiss

def State.peerAnswer (s : State) (r : PeerReq) (f : Option FaultName) (v : W256) : State :=
  { s with peerReplies := (r, f, v) :: s.peerReplies }

/-- A bank atomic that a peer asks for (R264, R265). -/
def State.peerAtomic (s : State) (r : PeerReq) (p : PartNo) (va : W64) (op n : Nat) (data cmp : W64) : State :=
  if offBits va % n ≠ 0 then s.peerAnswer r (some .progAlign) 0
  else match s.tileCheck 0 p va n true true with
    | some f => s.peerAnswer r (some f) 0
    | none => match s.homeAccept 0 0 p va n with
      | (.ok (.mem k), s) =>
        if s.isPoisoned k n then s.peerAnswer r (some .hwPoison) 0
        else
          let old : W64 := BitVec.ofNat 64 (s.readMem k n)
          (s.writeMem k n (bankOp op n old data cmp).toNat).peerAnswer r none (old.setWidth 256)
      | (.fault f, s) => s.peerAnswer r (some f) 0
      | (_, s) => s.peerAnswer r (some .progAddr) 0

/-- A cell operation that a peer asks for: resolved at once, or kept as a waiter (R93, R94). -/
def State.peerCellOp (s : State) (r : PeerReq) (p : PartNo) (va : W64) (op : CellOp) (once : Bool) : State :=
  match spaceOf va with
  | .cell t c 0 =>
    let (id, s) := s.newNum
    let m : Remote := { id := id, tile := Config.tiles, slot := 0, part := p, target := t, cell := c, op := op, once := once,
                        st := .sent, cancel := false, origin := some r }
    resolveRemote m { s with remotes := s.remotes ++ [m] }
  | _ => s.peerAnswer r (some .progAddr) 0

/-- The cancel of an operation that a peer sent under a tag. -/
def State.peerCancel (s : State) (r : PeerReq) (tag : Nat) : State :=
  let mine := fun (m : Remote) => match m.origin with
    | some q => q.src == r.src && q.tile == r.tile && q.part == r.part && (match q.op with
      | .cell n _ _ => n == tag
      | _ => false)
    | none => false
  match s.remotes.find? mine with
  | some m =>
    let s := { s with remotes := s.remotes.map fun x => if x.id = m.id then { x with cancel := true } else x }
    resolveRemote { m with cancel := true } s
  | none => s

/-- A request for this package: translated, checked and performed as the receiving partition's; its outcome returns. -/
def State.servePeer (s : State) (r : PeerReq) : State :=
  match r.op with
  | .cancel tag => s.peerCancel r tag
  | op => match s.peerPlace r with
    | .error f => s.peerAnswer r (some f) 0
    | .ok (va, p) => match op with
      | .load n => match s.readNow 0 0 0 p va n with
        | (.ok v, s) => s.peerAnswer r none (BitVec.ofNat 256 v)
        | (.fault f, s) => s.peerAnswer r (some f) 0
        | (.wait, s) => s
      | .store n data => match s.writeNow 0 0 0 p va n (data.toNat % 256 ^ n) false with
        | (.ok (), s) => s.peerAnswer r none 0
        | (.fault f, s) => s.peerAnswer r (some f) 0
        | (.wait, s) => s
      | .atomic o n data cmp => s.peerAtomic r p va o n data cmp
      | .cell _ o once => s.peerCellOp r p va o once
      | .putc record =>
        if homeBits va = 0x10 then s.peerAnswer r (some .progAddr) 0
        else
          let a : Arrival := { via := .peer, part := p, die := homeBits va - 1, crec := record, addr := 0 }
          ({ s with arrivals := s.arrivals ++ [a] } : State).peerAnswer r none 0
      | .cancel _ => s

/-- A request that arrives from a peer: served here, forwarded on a port of the route, or refused. -/
def execPeerRequest (r : PeerReq) (s : State) : Host.Outcome State Fault Refusal :=
  if r.dest = (s.reg .pkgid).extractLsb' 0 6 then .next (s.servePeer r)
  else match s.portFor r.dest.toNat r.tile.toNat with
    | some port =>
      if 8 ≤ r.hops then .next { s with refused := r :: s.refused }
      else .next { s with forwarded := (port, { r with hops := r.hops + 1 }) :: s.forwarded }
    | none => .next { s with refused := r :: s.refused }

/-! ### Vonyx ports (R393) -/

/-- A port leaves every route. -/
def State.dropPort (s : State) (port : Nat) : State :=
  (List.range 64).foldl (fun s n =>
    let q : CfgReg := .vroute (BitVec.ofNat 6 n)
    if (s.reg q).getLsbD port then s.putReg q (s.reg q &&& ~~~((1 : W64) <<< port)) else s) s

/-- A flit arrives on a port that carries traffic: accepted, or replayed; after 16 replays the port is DOWN. -/
def execVonyxFlitReceive (port : Nat) (good : Bool) (s : State) : Host.Outcome State Fault Refusal :=
  let x : Port := tget {} s.ports port
  let put := fun (y : Port) => { s with ports := tput s.ports port y }
  if x.down || !x.keyed || Config.ports ≤ port then .next s
  else if good then .next (put { x with replays := 0 })
  else if 16 ≤ x.replays + 1 then .next ((put { x with down := true, replays := 0 }).dropPort port)
  else .next (put { x with replays := x.replays + 1 })

end Sys2Proof.Machine
end

