-- ==== Sys2Proof/Machine/LinkEvents.lean ====
section
/-! DEFINITION. Events of the drawer links: swath tables, slots, frames, damage, retraining, stalls (R103–R116, R316, R373). -/

namespace Sys2Proof.Machine

/-! ### Swath tables (R105, R106) -/

def swKind (e : BitVec 16) : Nat := (e.extractLsb' 14 2).toNat
def swOwner (e : BitVec 16) : PartNo := e.extractLsb' 10 4
def swBundle (e : BitVec 16) : Nat := (e.extractLsb' 7 3).toNat + 1

/-- An entry alone is well formed at its index. -/
def entryOk (i : Nat) (e : BitVec 16) : Bool :=
  swKind e != 3 && e.extractLsb' 0 7 == 0 && (swKind e == 2 || e.extractLsb' 7 3 == 0) &&
  (swKind e != 2 || decide (i + swBundle e ≤ 512))

/-- No return index is covered twice: `free` is the first index that no earlier Q entry covers. -/
def coverOk : List (Nat × BitVec 16) → Nat → Bool
  | [], _ => true
  | (i, e) :: r, free => if swKind e = 2 then decide (free ≤ i) && coverOk r (i + swBundle e) else coverOk r free

def validTable (t : List (Nat × BitVec 16)) : Bool := (t.all fun x => entryOk x.1 x.2) && coverOk t 0

/-- A link's shadow: the entries that are not 0. -/
def State.shadow (s : State) (l : Nat) : List (Nat × BitVec 16) :=
  ((List.range 512).map fun i => (i, (s.reg (.swshadow l (BitVec.ofNat 9 i))).extractLsb' 0 16)).filter fun x => x.2 != 0

def linkFw (l : Nat) : Controller := .linkFirmware (decide (Config.northLinks ≤ l))

/-- SWCMT (R106). -/
def execSwcmt (link : Nat) (v : W64) (s : State) : Host.Outcome State Fault Refusal :=
  if !v.getLsbD 0 then .next s
  else if !s.serves (linkFw link) then .next (s.holdRequest (linkFw link) (.swcmt link v))
  else
    let t := s.shadow link
    if validTable t then .next ((s.modLink link fun l => { l with pending := some t }).orReg (.swstat link) 4)
    else .next (s.orReg (.swstat link) 2)

/-- The start of a frame period: a pending table takes effect, and a replay begins (R106, R113). -/
def State.boundary (s : State) (link : Nat) : State :=
  let l := s.link link
  let s := if l.st = 0 then s.modLink link fun l => { l with replay := false } else s
  match l.pending with
  | some t =>
    (s.modLink link fun l => { l with active := t, pending := none }).putReg (.swstat link) ((s.reg (.swstat link) &&& ~~~4) ||| 1)
  | none => s

def execFrameBoundary (link : Nat) (s : State) : Host.Outcome State Fault Refusal :=
  if (s.link link).slot % 512 = 0 then .next (s.boundary link) else .next s

/-! ### Requests (R109, R110) -/

/-- Every byte of a block is written by some item. -/
def coversWhole (its : List LinkItem) : Bool :=
  (List.range 256).all fun i => its.any fun x => decide (x.off % 256 ≤ i) && decide (i < x.off % 256 + x.n)

/-- The items of an access, once its elements have their places. -/
def itemsOf (n : Nat) (es : List Elem) : List LinkItem :=
  (List.range es.length).filterMap fun i => match es[i]? with
    | some e => match e.loc with
      | some (.mem k) => some ⟨i, offBits e.va, k - homeKey 0x10 0, n, e.data.toNat % 256 ^ n⟩
      | _ => none
    | none => none

/-- One request for each block, in the order in which the blocks are first named. -/
def requestsOf (t b : Nat) (p : PartNo) (a : Access) (es : List Elem) : List LinkReq :=
  let its := itemsOf a.size es
  (its.map fun x => x.off / 256).eraseDups.map fun k =>
    let l := its.filter fun x => x.off / 256 == k
    { tile := t, slot := b, part := p, acc := a.num, block := k, items := l, write := a.op.writes,
      merge := a.op.writes && !coversWhole l }

/-- The elements before a refused one of a vector store are performed (R164). -/
def State.storePrefix (s : State) (p : PartNo) (n : Nat) (es : List Elem) : State :=
  (itemsOf n es).foldl (fun s x => (s.drawerWrite p x.off x.pa x.n x.v false).2) s

/-- The drawer access that a core waits for reaches its link engines, which translate and check it; a link that is DOWN comes last
(R109, R115, R259, R307, R331). -/
def execDrawerRequest (t i : Nat) (s : State) : Host.Outcome State Fault Refusal :=
  let b := s.run t
  let x := s.slot t b
  match x.hold, x.accs[i]? with
  | .reply, some a =>
    let drawer := a.elems.all fun e => homeBits e.va == 0x10
    if a.handed || !drawer || i + 1 ≠ x.accs.length || (s.part x.part).keysDue then .next s
    else
      let down := fun (e : Elem) => (s.link (linkOf (offBits e.va))).st == 2
      let refuse := fun (f : FaultName) (before : List Elem) (e : Elem) (s : State) =>
        let s := match a.op with
          | .vstore => s.storePrefix x.part a.size before
          | _ => s
        .next (s.modSlot t b fun x => (dropLastAccess x).trap f e.va (BitVec.ofNat 64 e.lane))
      let unlessDown := fun (es : List Elem) (s : State) (r : Host.Outcome State Fault Refusal) => match es.find? down with
        | some e => refuse .linkDown (es.takeWhile fun e => !down e) e s
        | none => r
      match s.acceptElems t b x.part a.size a.elems with
      | (.wait, _, _, s) => .next s
      | (.fault f, pre, bad, s) => unlessDown pre s (refuse f pre bad s)
      | (.ok es, _, _, s) =>
        unlessDown es s (
          let s := s.modSlot t b fun x => { x with accs := x.accs.set i { a with elems := es, accepted := true, handed := true } }
          .next ((requestsOf t b x.part a es).foldl (fun s r =>
            s.modLink (linkOf (r.block * 256)) fun l => { l with queue := l.queue ++ [r] }) s))
  | _, _ => .next s

/-! ### Outbound slots (R107, R110) -/

/-- The request needs a read now. -/
def LinkReq.reads (r : LinkReq) : Bool := !r.write || r.merge

/-- Rule 3: an earlier unresolved request names the same block, and they are not two reads. -/
def conflicts (earlier : List LinkReq) (r : LinkReq) : Bool :=
  earlier.any fun e => e.sent.isSome && e.block == r.block && !(e.reads && r.reads)

/-- Requests of a partition at the head of its queue that one slot sends: up to n reads, or one write. -/
def sendFrom (p : PartNo) (write : Bool) (slot : Nat) : Nat → Nat → List LinkReq → List LinkReq → List LinkReq
  | _, _, _, [] => []
  | n, k, earlier, r :: rest =>
    if r.part ≠ p then r :: sendFrom p write slot n k earlier rest
    else if r.sent.isSome then (if r.merge then r :: rest else r :: sendFrom p write slot n k (r :: earlier) rest)
    else if n ≤ k || r.reads == write || conflicts earlier r then r :: rest
    else
      let r' := { r with sent := some (slot + k) }
      r' :: (if r.merge then rest else sendFrom p write slot n (k + 1) (r' :: earlier) rest)

/-- An outbound slot passes: it serves its owner, or is idle (R107). -/
def execOutboundSlot (link : Nat) (s : State) : Host.Outcome State Fault Refusal :=
  let s := if (s.link link).slot % 512 = 0 then s.boundary link else s
  let l := s.link link
  let e := tget 0 l.active (l.slot % 512)
  let go := l.st == 0 && !l.replay && (swKind e == 1 || swKind e == 2)
  let q := if go then sendFrom (swOwner e) (swKind e == 1) l.slot (if swKind e = 2 then swBundle e else 1) 0 [] l.queue else l.queue
  .next (s.modLink link fun l => { l with slot := l.slot + 1, queue := q })

/-! ### Inbound frames (R104, R110, R111, R113, R316) -/

/-- The data of a request's items, or none where the block does not authenticate or is poisoned. -/
def State.blockData (s : State) (r : LinkReq) (tagOk : Bool) : List (LinkItem × Option Nat) × State :=
  if (s.part r.part).prot && !tagOk then (r.items.map fun x => (x, none), s.countDauth r.part)
  else match r.items with
    | [] => ([], s)
    | x :: _ =>
      let pa := x.pa / 256 * 256
      if (s.part r.part).prot then
        match s.drawerRead r.part (r.block * 256) pa 256 with
        | (.ok v, s) => (r.items.map fun x => (x, some (v / 256 ^ (x.pa % 256) % 256 ^ x.n)), s)
        | (_, s) => (r.items.map fun x => (x, none), s)
      else (r.items.map fun x =>
        (x, if s.isPoisoned (homeKey 0x10 x.pa) x.n then none else some (s.readMem (homeKey 0x10 x.pa) x.n)), s)

def Elem.fill (e : Elem) (d : Option Nat) : Elem :=
  match d with
  | some v => { e with data := BitVec.ofNat 256 v, done := true }
  | none => { e with done := true, poisoned := true }

def modAccess (num : Nat) (f : Access → Access) (x : Slot) : Slot :=
  { x with accs := x.accs.map fun a => if a.num = num then f a else a }

/-- Elements of the access that a request serves are done; a poisoned one has no data. -/
def State.fillElems (s : State) (r : LinkReq) (ds : List (Nat × Option Nat)) : State :=
  s.modSlot r.tile r.slot (modAccess r.acc fun a => { a with elems := ds.foldl (fun es d => es.modify d.1 (·.fill d.2)) a.elems })

/-- The elements that lie in the block of an acknowledged write are done. -/
def State.ackElems (s : State) (r : LinkReq) : State :=
  let ack := fun (e : Elem) => if offBits e.va / 256 = r.block then { e with done := true } else e
  s.modSlot r.tile r.slot (modAccess r.acc fun a => { a with elems := a.elems.map ack })

def State.dropReq (s : State) (link : Nat) (r : LinkReq) : State := s.modLink link fun l => { l with queue := l.queue.filter (· != r) }

/-- The write of a partly written block, merged with the data read (R109). -/
def LinkReq.merged (r : LinkReq) (pa v : Nat) : LinkReq :=
  let bs := r.items.foldl (fun bs x => splice bs (x.off % 256) (bytesOf x.n x.v)) (bytesOf 256 v)
  { r with items := [⟨0, r.block * 256, pa, 256, leNat bs⟩], merge := false, sent := none }

/-- A request whose frame has come back intact resolves (R110, R111). -/
def State.resolveReq (s : State) (link : Nat) (r : LinkReq) (tagOk : Bool) : State :=
  if r.merge then
    let pa := ((r.items.head?.map LinkItem.pa).getD 0) / 256 * 256
    match s.blockData { r with items := [⟨0, r.block * 256, pa, 256, 0⟩] } tagOk with
    | ([(_, some v)], s) =>
      s.modLink link fun l => { l with queue := l.queue.map fun q => if q = r then r.merged pa v else q }
    | (_, s) => (s.dropReq link r).fillElems r (r.items.map fun x => (x.elem, none))
  else if r.write then
    let s := r.items.foldl (fun s x => (s.drawerWrite r.part x.off x.pa x.n x.v (x.n == 256 || coversWhole r.items)).2) s
    (s.dropReq link r).ackElems r
  else
    let (ds, s) := s.blockData r tagOk
    (s.dropReq link r).fillElems r (ds.map fun d => (d.1.elem, d.2))

/-- Every unresolved request stands in the queue again, to be replayed from the next boundary (R113). -/
def Link.unsend (l : Link) : Link := { l with queue := l.queue.map (fun r => { r with sent := none }), replay := true }

/-- An inbound frame: the requests whose return slot is the oldest, or damage. -/
def execInboundFrame (link : Nat) (intact tagOk : Bool) (s : State) : Host.Outcome State Fault Refusal :=
  let l := s.link link
  if l.st ≠ 0 then .next s
  else if !intact then .next (s.modLink link Link.unsend)
  else
    let due := l.queue.filterMap LinkReq.sent
    match due with
    | [] => .next s
    | d :: r =>
      let first := r.foldl min d
      .next ((l.queue.filter fun q => q.sent == some first).foldl (fun s q => s.resolveReq link q tagOk) s)

/-! ### Loss of lock, retraining, DOWN (R113, R115) -/

def execLinkLossOfLock (link : Nat) (s : State) : Host.Outcome State Fault Refusal :=
  if (s.link link).st = 0 then .next (s.modLink link fun l => { l.unsend with st := 1 }) else .next s

/-- A new Δ and a new generation are published, and the link is UP (R108). -/
def Link.up (l : Link) (delta : BitVec 10) : Link := { l with st := 0, gen := l.gen + 1, delta := delta }
/-- Δ is 128 to 1,023. -/
def deltaOk (d : BitVec 10) : Bool := decide (128 ≤ d.toNat)

def execLinkRelock (link : Nat) (delta : BitVec 10) (s : State) : Host.Outcome State Fault Refusal :=
  let st := (s.link link).st
  if (st = 1 ∨ st = 3) ∧ deltaOk delta ∧ s.serves (linkFw link) then .next (s.modLink link fun l => l.up delta) else .next s

def execLinkBroughtBackToUp (link : Nat) (delta : BitVec 10) (s : State) : Host.Outcome State Fault Refusal :=
  if (s.link link).st = 2 ∧ deltaOk delta then .next (s.modLink link fun l => { l.up delta with replay := false }) else .next s

/-- LINK.DOWN at the instruction that waits on a discarded request. -/
def Slot.linkDown (x : Slot) (num : Nat) : Slot :=
  match x.hold, x.accs.getLast? with
  | .reply, some a =>
    if a.num = num then
      let e := (a.elems.find? fun e => !e.done).getD default
      (dropLastAccess x).trap .linkDown e.va (BitVec.ofNat 64 e.lane)
    else x
  | _, _ => x

/-- The link is declared DOWN: its requests are discarded; engine commands meet LINK.DOWN at their next element. -/
def execLinkDownDeclare (link : Nat) (s : State) : Host.Outcome State Fault Refusal :=
  let l := s.link link
  if l.st ≠ 1 then .next s
  else
    let s := s.modLink link fun l => { l with st := 2, queue := [] }
    .next (l.queue.foldl (fun s r => s.modSlot r.tile r.slot fun x => x.linkDown r.acc) s)

/-! ### Stalls (R114, R373, R394) -/

/-- The stall count has passed DRSTALL: LINK.STALL at the core's access or cell operation, or at the copy command. A cell operation
that no peer has accepted is withdrawn. -/
def execLinkStallTimeout (t : Nat) (s : State) : Host.Outcome State Fault Refusal :=
  let b := s.run t
  let x := s.slot t b
  let lim := (s.reg (.drstall x.part)).toNat % 2 ^ 32
  let clear := fun (s : State) => s.modSlot t b fun x => { x with stall := 0 }
  if lim = 0 ∨ x.stall ≤ lim then .next s
  else match s.coreStall t b with
    | some e => .next (clear (s.modSlot t b fun x => (dropLastAccess x).trap .linkStall e.va (BitVec.ofNat 64 e.lane)))
    | none => match s.remoteStall t b with
      | some m => .next (clear ({ s with remotes := s.remotes.filter fun y => y.id != m.id }.modSlot t b fun x =>
          x.trap .linkStall (m.peer.getD 0) 0))
      | none => match s.copyStall t b with
        | some c => .next (clear (s.engineFault t b false c .linkStall (hAddr c.hd c.count) (BitVec.ofNat 64 c.count)))
        | none => .next s

end Sys2Proof.Machine
end

