-- ==== Sys2Proof/Machine/PowerEvents.lean ====
section
/-! DEFINITION. Power, start-up and housekeeping (R237, R318, R336, R338, R339, R395–R398). -/

namespace Sys2Proof.Machine

/-! ### Removing power -/

/-- Storage that keeps its bytes: the drawer, host memory and the weight tier. -/
def survives (key : Nat) : Bool :=
  decide (2 ^ 64 ≤ key) || key / 2 ^ 57 == 0x10 || key / 2 ^ 57 == 0x20

/-- A region at power-down: its lines and metadata stay; a sealed-marked one will be SEALED-LOCKED, no one owns it. What a
region caught while it is programmed comes up as is not stated: `z` decides between OPEN and FREE. -/
def Region.powerDown (g : Region) (z : Bool) : Region :=
  { g with
    st := match g.st with
      | .programming => if z then .opened else .free
      | .opened => if g.sealed then .locked else .opened
      | st => st
    v := false, part := 0, result := 0 }

def Fw.powerDown (f : Fw) : Fw := { f with busy := false, st := .idle }

/-- Everything but non-volatile storage is lost; LMS leaves reserved and not used are never used (R338). -/
def State.powerDown (s : State) : State :=
  { State.reset with
    powered := false
    agenda := s.agenda
    fresh := s.fresh + regionCount
    nextNum := s.nextNum
    mem := s.mem.filter fun c => survives c.1
    poisoned := s.poisoned.filter survives
    dtags := s.dtags
    regions := s.regions.map fun (x : Nat × Region) => (x.1, x.2.powerDown ((Config.freeWord (s.fresh + x.1)).getLsbD 0))
    arb := s.arb
    lmsLeaf := (s.lmsLeaf + 4095) / 4096 * 4096
    fw := s.fw.map fun (x : Controller × Fw) => (x.1, x.2.powerDown) }

def execPowerLoss (s : State) : Host.Outcome State Fault Refusal := if s.powered then .next s.powerDown else .next s

/-- 115 °C on a sensor: the management controller removes power (R397). -/
def execThermalShutdown (s : State) : Host.Outcome State Fault Refusal := if s.powered then .next s.powerDown else .next s

/-! ### Start-up (R395) -/

def execPowerGood (s : State) : Host.Outcome State Fault Refusal :=
  if s.powered then .next s else .next { s with powered := true, devstat := 0 }

/-- Interrupted programming of a counter is completed: the lower bank rises to the higher level (R339). -/
def State.completeCounters (s : State) : State :=
  (List.range 5).foldl (fun s k => s.raiseCounter k (s.antiRollback k)) s

def controllers : List Controller := (List.range 5).flatMap kindMembers

/-- Every active image is accepted (R338). -/
def State.imagesAccepted (s : State) : Bool := controllers.all fun c => s.acceptsImage c (s.firmware c).active true

/-- The start-up measurement of a region (R336). -/
def State.measureRegion (s : State) (k : Nat) : State :=
  let d := digestOf (s.measure k)
  s.modRegion k fun g =>
    if !g.readable then g
    else if !g.sealed then { g with digest := some d }
    else if g.digest = some d then g
    else { g with differs := true, result := 5 }

/-- The work of the step that ends, or none while the step cannot end. -/
def State.startupWork (s : State) : Option State :=
  match s.devstat.toNat with
  | 0 =>
    let s := s.completeCounters
    if s.imagesAccepted then some s else none
  | 3 => some ((s.regions.map fun (x : Nat × Region) => x.1).foldl State.measureRegion s)
  | _ => some s

def execStartupStepComplete (s : State) : Host.Outcome State Fault Refusal :=
  if s.devstat.toNat < 6 then
    match s.startupWork with
    | some s => .next { s with devstat := s.devstat + 1 }
    | none => .next s
  else .next s

/-! ### Housekeeping (R396–R398) -/

/-- The gap of the next window: above the old one, as far as 48, when the die throttles; at most the old one when not. By how
much is not stated. -/
def nextGap (throttle : Bool) (gap z : Nat) : Nat :=
  if throttle then (if gap < 48 then gap + 1 + z % (48 - gap) else 48) else z % (gap + 1)

def execGovernorWindow (die : BitVec 2) (power : Nat) (temp : Byte) (s : State) : Host.Outcome State Fault Refusal :=
  let throttle := decide ((s.reg (.pwrshare die)).toNat < power) || decide (105 ≤ temp.toNat)
  let (z, s) := s.freeWord
  .next (s.modDie die.toNat fun x => { x with tjMax := temp, govGap := BitVec.ofNat 6 (nextGap throttle x.govGap.toNat z.toNat) })

/-- Too little coolant: every share becomes 100 W (R398). -/
def execCoolantFlowLow (s : State) : Host.Outcome State Fault Refusal :=
  if s.serves .management then .next ((List.range 4).foldl (fun s d => s.putReg (.pwrshare (BitVec.ofNat 2 d)) 100) s) else .next s

end Sys2Proof.Machine
end

