-- ==== Sys2Proof/Machine/Scalar.lean ====
section
/-! DEFINITION. Defective words (R26, R46) and the scalar ALU, units 0 and 1 (R135–R141). -/

namespace Sys2Proof.Machine

/-- A defective word or group traps (R26, R46). -/
def execIllegalWord (why : Defect) (s : State) : Host.Outcome State Fault Refusal :=
  issue (.illegalWord why) s fun _ => .trap (match why with
    | .illegal => .progIllegal
    | .breach => .progPfx) 0 0

/-- sd receives f of s[sa] and s[sb], after which nothing issues for `extra` cycles. -/
def alu3 (f : W64 → W64 → W64) (extra : Nat) (sd sa sb : SReg) (s : State) : Res :=
  .done (s.modCore fun x => x.setS sd (f (x.getS sa) (x.getS sb))) extra
/-- sd receives f of s[sa]. -/
def alu2 (f : W64 → W64) (sd sa : SReg) (s : State) : Res := .done (s.modCore fun x => x.setS sd (f (x.getS sa))) 0

/-! ### Functions of operands (R136, R137) -/

def mulHigh (a b : W64) : W64 := BitVec.ofInt 64 (a.toInt * b.toInt / 2 ^ 64)
def divS (a b : W64) : W64 := if b = 0 then BitVec.allOnes 64 else BitVec.ofInt 64 (a.toInt.tdiv b.toInt)
def divU (a b : W64) : W64 := if b = 0 then BitVec.allOnes 64 else BitVec.ofNat 64 (a.toNat / b.toNat)
def remS (a b : W64) : W64 := if b = 0 then a else BitVec.ofInt 64 (a.toInt.tmod b.toInt)
def remU (a b : W64) : W64 := if b = 0 then a else BitVec.ofNat 64 (a.toNat % b.toNat)
def shamt64 (b : W64) : Nat := (b.extractLsb' 0 6).toNat
def minS (a b : W64) : W64 := if b.slt a then b else a
def maxS (a b : W64) : W64 := if a.slt b then b else a
def minU (a b : W64) : W64 := if b.ult a then b else a
def maxU (a b : W64) : W64 := if a.ult b then b else a
def bit (b : Bool) : W64 := if b then 1 else 0
/-- Leading zero bits among the n lowest. -/
def clzGo (a : W64) : Nat → Nat
  | 0 => 0
  | n + 1 => if a.getLsbD n then 0 else 1 + clzGo a n
def clz64 (a : W64) : W64 := BitVec.ofNat 64 (clzGo a 64)
def popc64 (a : W64) : W64 := BitVec.ofNat 64 (popcount a.toNat 64)

def execAdd (sd sa sb : SReg) (s : State) := issue (.add sd sa sb) s (alu3 (· + ·) 0 sd sa sb)
def execSub (sd sa sb : SReg) (s : State) := issue (.sub sd sa sb) s (alu3 (· - ·) 0 sd sa sb)
def execMul (sd sa sb : SReg) (s : State) := issue (.mul sd sa sb) s (alu3 (· * ·) 0 sd sa sb)
def execMulh (sd sa sb : SReg) (s : State) := issue (.mulh sd sa sb) s (alu3 mulHigh 0 sd sa sb)
/-- Division occupies the core for 36 cycles (R135). -/
def execDiv (sd sa sb : SReg) (s : State) := issue (.div sd sa sb) s (alu3 divS 35 sd sa sb)
def execDivu (sd sa sb : SReg) (s : State) := issue (.divu sd sa sb) s (alu3 divU 35 sd sa sb)
def execRem (sd sa sb : SReg) (s : State) := issue (.rem sd sa sb) s (alu3 remS 35 sd sa sb)
def execRemu (sd sa sb : SReg) (s : State) := issue (.remu sd sa sb) s (alu3 remU 35 sd sa sb)
def execAnd (sd sa sb : SReg) (s : State) := issue (.and sd sa sb) s (alu3 (· &&& ·) 0 sd sa sb)
def execOr (sd sa sb : SReg) (s : State) := issue (.or sd sa sb) s (alu3 (· ||| ·) 0 sd sa sb)
def execXor (sd sa sb : SReg) (s : State) := issue (.xor sd sa sb) s (alu3 (· ^^^ ·) 0 sd sa sb)
def execShl (sd sa sb : SReg) (s : State) := issue (.shl sd sa sb) s (alu3 (fun a b => a <<< shamt64 b) 0 sd sa sb)
def execShr (sd sa sb : SReg) (s : State) := issue (.shr sd sa sb) s (alu3 (fun a b => a >>> shamt64 b) 0 sd sa sb)
def execSar (sd sa sb : SReg) (s : State) := issue (.sar sd sa sb) s (alu3 (fun a b => a.sshiftRight (shamt64 b)) 0 sd sa sb)
def execMin (sd sa sb : SReg) (s : State) := issue (.min sd sa sb) s (alu3 minS 0 sd sa sb)
def execMax (sd sa sb : SReg) (s : State) := issue (.max sd sa sb) s (alu3 maxS 0 sd sa sb)
def execMinu (sd sa sb : SReg) (s : State) := issue (.minu sd sa sb) s (alu3 minU 0 sd sa sb)
def execMaxu (sd sa sb : SReg) (s : State) := issue (.maxu sd sa sb) s (alu3 maxU 0 sd sa sb)
def execSlt (sd sa sb : SReg) (s : State) := issue (.slt sd sa sb) s (alu3 (fun a b => bit (a.slt b)) 0 sd sa sb)
def execSltu (sd sa sb : SReg) (s : State) := issue (.sltu sd sa sb) s (alu3 (fun a b => bit (a.ult b)) 0 sd sa sb)
def execClz (sd sa : SReg) (s : State) := issue (.clz sd sa) s (alu2 clz64 sd sa)
def execPopc (sd sa : SReg) (s : State) := issue (.popc sd sa) s (alu2 popc64 sd sa)

/-! ### Immediate forms (R138, R139) -/

def execAddi (sd sa : SReg) (imm : W64) (s : State) := issue (.addi sd sa imm) s (alu2 (· + imm) sd sa)
def execMuli (sd sa : SReg) (imm : W64) (s : State) := issue (.muli sd sa imm) s (alu2 (· * imm) sd sa)
def execAndi (sd sa : SReg) (imm : W64) (s : State) := issue (.andi sd sa imm) s (alu2 (· &&& imm) sd sa)
def execOri (sd sa : SReg) (imm : W64) (s : State) := issue (.ori sd sa imm) s (alu2 (· ||| imm) sd sa)
def execXori (sd sa : SReg) (imm : W64) (s : State) := issue (.xori sd sa imm) s (alu2 (· ^^^ imm) sd sa)
def execShli (sd sa : SReg) (n : BitVec 6) (s : State) := issue (.shli sd sa n) s (alu2 (fun a => a <<< n.toNat) sd sa)
def execShri (sd sa : SReg) (n : BitVec 6) (s : State) := issue (.shri sd sa n) s (alu2 (fun a => a >>> n.toNat) sd sa)
def execSari (sd sa : SReg) (n : BitVec 6) (s : State) := issue (.sari sd sa n) s (alu2 (fun a => a.sshiftRight n.toNat) sd sa)
def execSlti (sd sa : SReg) (imm : W64) (s : State) := issue (.slti sd sa imm) s (alu2 (fun a => bit (a.slt imm)) sd sa)
def execSltiu (sd sa : SReg) (imm : W64) (s : State) := issue (.sltiu sd sa imm) s (alu2 (fun a => bit (a.ult imm)) sd sa)
def execLi (sd : SReg) (imm : W64) (s : State) := issue (.li sd imm) s (onCore fun x => x.setS sd imm)

/-! ### Bit fields and home addresses (R140, R141) -/

def fieldMask (len : Nat) : W64 := BitVec.ofNat 64 (2 ^ len - 1)
def extractField (a : W64) (pos len : Nat) : W64 := (a >>> pos) &&& fieldMask len
def insertField (old a : W64) (pos len : Nat) : W64 :=
  (old &&& ~~~(fieldMask len <<< pos)) ||| ((a &&& fieldMask len) <<< pos)

def execBfx (sd sa : SReg) (pos lenM1 : BitVec 6) (s : State) :=
  issue (.bfx sd sa pos lenM1) s (alu2 (fun a => extractField a pos.toNat (lenM1.toNat + 1)) sd sa)
def execBfi (sd sa : SReg) (pos lenM1 : BitVec 6) (s : State) :=
  issue (.bfi sd sa pos lenM1) s (onCore fun x => x.setS sd (insertField (x.getS sd) (x.getS sa) pos.toNat (lenM1.toNat + 1)))
/-- {home, s[sa][56:0]} (R141). -/
def withHome (home : BitVec 7) (a : W64) : W64 := (home.setWidth 64 <<< 57) ||| (a &&& 0x01FFFFFFFFFFFFFF)
def execMka (sd sa : SReg) (home : BitVec 7) (s : State) := issue (.mka sd sa home) s (alu2 (withHome home) sd sa)

end Sys2Proof.Machine
end

