-- ==== Sys2Proof/Machine/Selection.lean ====
section
/-! DEFINITION. Unit 8: vector selection, pruning and compression (R171–R183). -/

namespace Sys2Proof.Machine

/-- A result pair: vd receives the first list and the register after vd the second (R172, R173). -/
def pairOf (f : Slot → Lanes × Lanes) (vd : VReg) (s : State) : Res :=
  .done (s.modCore fun x => (x.setV vd (f x).1).setV (vd + 1) (f x).2) 0

def execVargmaxr (ty : LaneTy) (vd va : VReg) (k : KReg) (s : State) :=
  issue (.vargmaxr ty vd va k) s (pairOf (fun x => argRows ty true (x.getK k) (x.getV va)) vd)
def execVargmaxc (ty : LaneTy) (vd va : VReg) (k : KReg) (s : State) :=
  issue (.vargmaxc ty vd va k) s (pairOf (fun x => argCols ty true (x.getK k) (x.getV va)) vd)
def execVargminr (ty : LaneTy) (vd va : VReg) (k : KReg) (s : State) :=
  issue (.vargminr ty vd va k) s (pairOf (fun x => argRows ty false (x.getK k) (x.getV va)) vd)
def execVargminc (ty : LaneTy) (vd va : VReg) (k : KReg) (s : State) :=
  issue (.vargminc ty vd va k) s (pairOf (fun x => argCols ty false (x.getK k) (x.getV va)) vd)

def execVtopk (ty : LaneTy) (vd va vb : VReg) (k : KReg) (n : BitVec 7) (s : State) :=
  issue (.vtopk ty vd va vb k n) s (pairOf (fun x => topK ty n.toNat (x.getK k) (x.getV va) (x.getV vb)) vd)
def execVtopkm (ty : LaneTy) (vd va vb : VReg) (n : BitVec 7) (s : State) :=
  issue (.vtopkm ty vd va vb n) s
    (pairOf (fun x => topKMerge ty n.toNat (x.getV va) (x.getV (va + 1)) (x.getV vb) (x.getV (vb + 1))) vd)

/-- VPART: where sS and sC are one register, it receives the selected count (R179). -/
def execVpart (vd : VReg) (sS sC : SReg) (k : KReg) (s : State) :=
  issue (.vpart vd sS sC k) s (onCore fun x =>
    let l := selected (x.getK k)
    let r := unselected (x.getK k)
    (((x.setV vd (denseList l)).setV (vd + 1) (denseList r)).setS sC (BitVec.ofNat 64 r.length)).setS sS
      (BitVec.ofNat 64 l.length))

def execVbucket (vd va : VReg) (n : BitVec 5) (k : KReg) (s : State) :=
  issue (.vbucket vd va n k) s (pairOf (fun x => buckets n.toNat (x.getK k) (x.getV va)) vd)

def execVprune48 (ty : Ty) (vd va : VReg) (s : State) :=
  issue (.vprune48 ty vd va) s (pairOf (fun x => prune48 ty (x.getV va)) vd)

/-- VSPREAD48: metadata that names other than four lanes of a group traps with the lowest such group (R183). -/
def execVspread48 (ty : Ty) (vd va : VReg) (s : State) :=
  issue (.vspread48 ty vd va) s fun s =>
    let x := s.core
    match badMeta (x.getV (va + 1)) with
    | some g => .trap .progMeta 0 (BitVec.ofNat 64 g)
    | none => .done (s.modCore fun x => x.setV vd (spread48 (x.getV va) (x.getV (va + 1)))) 0

def execVcompress (vd va : VReg) (sn : SReg) (k : KReg) (s : State) :=
  issue (.vcompress vd va sn k) s (onCore fun x =>
    (x.setV vd (compress (x.getK k) (x.getV va))).setS sn (BitVec.ofNat 64 (popcount (x.getK k).toNat 1024)))
def execVexpand (vd va : VReg) (sn : SReg) (k : KReg) (s : State) :=
  issue (.vexpand vd va sn k) s (onCore fun x =>
    (x.setV vd (expand (x.getK k) (x.getV va))).setS sn (BitVec.ofNat 64 (popcount (x.getK k).toNat 1024)))

end Sys2Proof.Machine
end

