-- ==== Sys2Proof/Machine/VectorArith.lean ====
section
/-! DEFINITION. Unit 6: elementwise vector instructions (R147–R160). -/

namespace Sys2Proof.Machine

/-- The destination receives f under the write mask; sources are read as they stand at issue (R148, R149). -/
def lanesUnder (k : KReg) (vd : VReg) (f : Slot → Nat → W32) (s : State) : Res :=
  .done (s.modCore fun x => x.setV vd (underMask (x.getK k) (x.getV vd) (f x))) 0

def vec1 (f : W32 → W32) (vd va : VReg) (k : KReg) (s : State) : Res :=
  lanesUnder k vd (fun x e => f ((x.getV va).get e)) s
def vec2 (f : W32 → W32 → W32) (vd va vb : VReg) (k : KReg) (s : State) : Res :=
  lanesUnder k vd (fun x e => f ((x.getV va).get e) ((x.getV vb).get e)) s
def vec3 (f : W32 → W32 → W32 → W32) (vd va vb vc : VReg) (k : KReg) (s : State) : Res :=
  lanesUnder k vd (fun x e => f ((x.getV va).get e) ((x.getV vb).get e) ((x.getV vc).get e)) s

def execVadd (ty : LaneTy) (r : Rnd) (vd va vb : VReg) (k : KReg) (s : State) :=
  issue (.vadd ty r vd va vb k) s (vec2 (laneAdd ty r) vd va vb k)
def execVsub (ty : LaneTy) (r : Rnd) (vd va vb : VReg) (k : KReg) (s : State) :=
  issue (.vsub ty r vd va vb k) s (vec2 (laneSub ty r) vd va vb k)
def execVmul (ty : LaneTy) (r : Rnd) (vd va vb : VReg) (k : KReg) (s : State) :=
  issue (.vmul ty r vd va vb k) s (vec2 (laneMul ty r) vd va vb k)
def execVfma (r : Rnd) (vd va vb vc : VReg) (k : KReg) (s : State) :=
  issue (.vfma r vd va vb vc k) s (vec3 (laneFma r) vd va vb vc k)
def execVfms (r : Rnd) (vd va vb vc : VReg) (k : KReg) (s : State) :=
  issue (.vfms r vd va vb vc k) s (vec3 (laneFms r) vd va vb vc k)
def execVfnma (r : Rnd) (vd va vb vc : VReg) (k : KReg) (s : State) :=
  issue (.vfnma r vd va vb vc k) s (vec3 (laneFnma r) vd va vb vc k)
def execVmin (ty : LaneTy) (vd va vb : VReg) (k : KReg) (s : State) :=
  issue (.vmin ty vd va vb k) s (vec2 (laneMin ty) vd va vb k)
def execVmax (ty : LaneTy) (vd va vb : VReg) (k : KReg) (s : State) :=
  issue (.vmax ty vd va vb k) s (vec2 (laneMax ty) vd va vb k)
def execVabs (ty : LaneTy) (vd va : VReg) (k : KReg) (s : State) := issue (.vabs ty vd va k) s (vec1 (laneAbs ty) vd va k)
def execVneg (ty : LaneTy) (vd va : VReg) (k : KReg) (s : State) := issue (.vneg ty vd va k) s (vec1 (laneNeg ty) vd va k)
def execVadds (vd va vb : VReg) (k : KReg) (s : State) := issue (.vadds vd va vb k) s (vec2 laneAdds vd va vb k)
def execVsubs (vd va vb : VReg) (k : KReg) (s : State) := issue (.vsubs vd va vb k) s (vec2 laneSubs vd va vb k)
def execVclamp (ty : LaneTy) (vd va vb vc : VReg) (k : KReg) (s : State) :=
  issue (.vclamp ty vd va vb vc k) s (vec3 (laneClamp ty) vd va vb vc k)
def execVscale (r : Rnd) (vd va vb : VReg) (k : KReg) (s : State) :=
  issue (.vscale r vd va vb k) s (vec2 (laneScale r) vd va vb k)
def execVrint (r : Rnd) (vd va : VReg) (k : KReg) (s : State) := issue (.vrint r vd va k) s (vec1 (laneRint r) vd va k)
def execVand (vd va vb : VReg) (k : KReg) (s : State) := issue (.vand vd va vb k) s (vec2 (· &&& ·) vd va vb k)
def execVor (vd va vb : VReg) (k : KReg) (s : State) := issue (.vor vd va vb k) s (vec2 (· ||| ·) vd va vb k)
def execVxor (vd va vb : VReg) (k : KReg) (s : State) := issue (.vxor vd va vb k) s (vec2 (· ^^^ ·) vd va vb k)
def execVandn (vd va vb : VReg) (k : KReg) (s : State) :=
  issue (.vandn vd va vb k) s (vec2 (fun a b => a &&& ~~~b) vd va vb k)
def execVshl (vd va vb : VReg) (k : KReg) (s : State) :=
  issue (.vshl vd va vb k) s (vec2 (fun a b => a <<< shamt b) vd va vb k)
def execVshr (vd va vb : VReg) (k : KReg) (s : State) :=
  issue (.vshr vd va vb k) s (vec2 (fun a b => a >>> shamt b) vd va vb k)
def execVsar (vd va vb : VReg) (k : KReg) (s : State) :=
  issue (.vsar vd va vb k) s (vec2 (fun a b => a.sshiftRight (shamt b)) vd va vb k)
def execVpopc (vd va : VReg) (k : KReg) (s : State) := issue (.vpopc vd va k) s (vec1 lanePopc vd va k)

/-- Bit e of kd receives the comparison where bit e of the mask is 1, and 0 elsewhere (R156). -/
def compareLanes (f : W32 → W32 → Bool) (kd : KReg) (va vb : VReg) (k : KReg) (s : State) : Res :=
  .done (s.modCore fun x =>
    x.setK kd (maskOf fun e => (x.getK k).getLsbD e && f ((x.getV va).get e) ((x.getV vb).get e))) 0

def execVcmpeq (ty : LaneTy) (kd : KReg) (va vb : VReg) (k : KReg) (s : State) :=
  issue (.vcmpeq ty kd va vb k) s (compareLanes (laneEq ty) kd va vb k)
def execVcmpne (ty : LaneTy) (kd : KReg) (va vb : VReg) (k : KReg) (s : State) :=
  issue (.vcmpne ty kd va vb k) s (compareLanes (fun a b => !laneEq ty a b) kd va vb k)
def execVcmplt (ty : LaneTy) (kd : KReg) (va vb : VReg) (k : KReg) (s : State) :=
  issue (.vcmplt ty kd va vb k) s (compareLanes (laneLt ty) kd va vb k)
def execVcmple (ty : LaneTy) (kd : KReg) (va vb : VReg) (k : KReg) (s : State) :=
  issue (.vcmple ty kd va vb k) s (compareLanes (laneLe ty) kd va vb k)

def execVcvt (dty sty : Ty) (r : Rnd) (vd va : VReg) (k : KReg) (s : State) :=
  issue (.vcvt dty sty r vd va k) s (vec1 (convert dty sty r) vd va k)

/-- Bits copied from va where the mask is 1, from vb elsewhere (R157). -/
def execVsel (ty : LaneTy) (vd va vb : VReg) (k : KReg) (s : State) :=
  issue (.vsel ty vd va vb k) s
    (onCore fun x => x.setV vd (Lanes.ofFn fun e => if (x.getK k).getLsbD e then (x.getV va).get e else (x.getV vb).get e))
def execVmovi (ty : LaneTy) (vd : VReg) (imm : W32) (k : KReg) (s : State) :=
  issue (.vmovi ty vd imm k) s (lanesUnder k vd fun _ _ => imm)
def execVbcs (ty : LaneTy) (vd : VReg) (sa : SReg) (k : KReg) (s : State) :=
  issue (.vbcs ty vd sa k) s (lanesUnder k vd fun x _ => (x.getS sa).extractLsb' 0 32)

def execVexp2 (vd va : VReg) (k : KReg) (s : State) := issue (.vexp2 vd va k) s (vec1 f32Exp2 vd va k)
def execVlog2 (vd va : VReg) (k : KReg) (s : State) := issue (.vlog2 vd va k) s (vec1 f32Log2 vd va k)
def execVrcp (vd va : VReg) (k : KReg) (s : State) := issue (.vrcp vd va k) s (vec1 f32Rcp vd va k)
def execVrsq (vd va : VReg) (k : KReg) (s : State) := issue (.vrsq vd va k) s (vec1 f32Rsq vd va k)
def execVsqrt (vd va : VReg) (k : KReg) (s : State) := issue (.vsqrt vd va k) s (vec1 f32Sqrt vd va k)
def execVtanh (vd va : VReg) (k : KReg) (s : State) := issue (.vtanh vd va k) s (vec1 f32Tanh vd va k)
def execVsinpi (vd va : VReg) (k : KReg) (s : State) := issue (.vsinpi vd va k) s (vec1 f32SinPi vd va k)
def execVcospi (vd va : VReg) (k : KReg) (s : State) := issue (.vcospi vd va k) s (vec1 f32CosPi vd va k)

def execVhash (vd va : VReg) (sa : SReg) (k : KReg) (s : State) :=
  issue (.vhash vd va sa k) s (lanesUnder k vd fun x e => laneHash e (x.getS sa) ((x.getV va).get e))

end Sys2Proof.Machine
end

