-- ==== Sys2Proof/Machine/VectorMove.lean ====
section
/-! DEFINITION. Unit 7 and WLD: vector loads and stores, moves along the axes, reductions, masks (R161–R170). -/

namespace Sys2Proof.Machine

/-! ### Windows of a handle (R161) -/

/-- Element size for the checks: the type's width, one byte for the 4-bit types. -/
def memBytesOf (ty : Ty) : Nat := if ty.bits = 4 then 1 else ty.bits / 8

/-- Columns of the window, in elements of memory. -/
def windowCols (ty : Ty) (h : W256) : Nat := min (if nibbles ty then 32 else 64) (hExt h 0 + 1)

/-- The elements of the window with the lane each fills, in lane order; one row, for VLDR and VSTR. -/
def windowElems (ty : Ty) (h : W256) (row : Option Nat) : List Elem :=
  let n := windowCols ty h
  let step := if nibbles ty then 2 else 1
  match row with
  | none => (List.range (min 16 (hExt h 1 + 1) * n)).map fun i =>
      { lane := i / n * 64 + i % n * step, va := hAddrAt h [i % n, i / n] }
  | some r => (List.range n).map fun c => { lane := r * 64 + c * step, va := hAddrAt h [c, 0] }

/-- The memory element that holds lane e (R163); a 4-bit byte takes the next lane too. -/
def elemOut (ty : Ty) (r : Rnd) (l : Lanes) (e : Nat) : W256 :=
  let one := fun (i : Nat) => match ty with
    | .f32 => l.get i
    | .i32 => l.get i
    | .i8 => convert ty .i32 r (l.get i)
    | .ui8 => convert ty .i32 r (l.get i)
    | .i4 => convert ty .i32 r (l.get i)
    | _ => convert ty .f32 r (l.get i)
  if nibbles ty then BitVec.ofNat 256 ((one e).toNat % 16 + 16 * ((one (e + 1)).toNat % 16))
  else BitVec.ofNat 256 ((one e).toNat % 2 ^ ty.bits)

/-- A vector load or store: footprint, alignment, the gap for every window element at home 0x00, and the tile's other checks for the
first; those of a later element come when it is presented, in lane order (R164). -/
def vectorAccess (op : AccOp) (ty : Ty) (h : W256) (es : List Elem) (s : State) : Res :=
  let n := memBytesOf ty
  let x := s.core
  if !hValid h n then .trap .progBounds (hBase h) 0
  else if !hAligned h n then .trap .progAlign (hBase h) 0
  else
    let bad := (if isOwn (hBase h) then es else es.take 1).find? fun e =>
      (s.tileCheck x.header x.part e.va n op.writes false).isSome
    match bad with
    | some e => .trap ((s.tileCheck x.header x.part e.va n op.writes false).getD .progAddr) e.va (BitVec.ofNat 64 e.lane)
    | none => s.makeAccess op n .plain es

def execVld (ty : Ty) (vd : VReg) (h : HReg) (s : State) :=
  issue (.vld ty vd h) s fun s =>
    vectorAccess (.vload ty (s.core.phys vd) none) ty (s.core.getH h) (windowElems ty (s.core.getH h) none) s
def execVldr (ty : Ty) (vd : VReg) (h : HReg) (row : BitVec 4) (s : State) :=
  issue (.vldr ty vd h row) s fun s =>
    vectorAccess (.vload ty (s.core.phys vd) (some row.toNat)) ty (s.core.getH h)
      (windowElems ty (s.core.getH h) (some row.toNat)) s

def storeElems (ty : Ty) (r : Rnd) (l : Lanes) (es : List Elem) : List Elem :=
  es.map fun e => { e with data := elemOut ty r l e.lane }

def execVst (ty : Ty) (r : Rnd) (h : HReg) (va : VReg) (s : State) :=
  issue (.vst ty r h va) s fun s =>
    vectorAccess .vstore ty (s.core.getH h) (storeElems ty r (s.core.getV va) (windowElems ty (s.core.getH h) none)) s
def execVstr (ty : Ty) (r : Rnd) (h : HReg) (va : VReg) (row : BitVec 4) (s : State) :=
  issue (.vstr ty r h va row) s fun s =>
    vectorAccess .vstore ty (s.core.getH h)
      (storeElems ty r (s.core.getV va) (windowElems ty (s.core.getH h) (some row.toNat))) s

/-! ### WLD (R165, R322) -/

/-- The checks of a W-address of the tile's own tier. -/
def weightAddr (a : W64) (t : Nat) : Bool :=
  a.extractLsb' 40 24 == 0 && !a.getLsbD 31 && (a.extractLsb' 32 8).toNat == t

/-- Element e of n bytes read as consecutive weights of a type. -/
def weightElem (ty : Ty) (v : Nat) (e : Nat) : W32 := laneIn ty (v / 2 ^ (e * ty.bits) % 2 ^ ty.bits)

def execWld (ty : Ty) (vd : VReg) (sa : SReg) (s : State) :=
  issue (.wld ty vd sa) s fun s =>
    let a := s.core.getS sa
    let n := 1024 * ty.bits / 8
    if !weightAddr a s.cur then .trap .progAddr a 0
    else if (a.extractLsb' 0 26).toNat % n ≠ 0 then .trap .progAlign a 0
    else match s.weightRead s.core.part a.toNat n with
      | .ok v => .done (s.modCore fun x => x.setV vd (Lanes.ofFn (weightElem ty v))) 0
      | .fault f => .trap f a 0
      | .wait => .hold s

/-! ### Moving elements (R166–R169) -/

/-- vd receives a function of va. -/
def whole (f : Lanes → Lanes) (vd va : VReg) (s : State) : Res := .done (s.modCore fun x => x.setV vd (f (x.getV va))) 0

def execVmov (vd va : VReg) (s : State) := issue (.vmov vd va) s (whole (fun l => Lanes.ofFn l.get) vd va)
def execVext (sd : SReg) (va : VReg) (idx : BitVec 10) (s : State) :=
  issue (.vext sd va idx) s (onCore fun x => x.setS sd (((x.getV va).get idx.toNat).setWidth 64))
def execVins (vd : VReg) (sa : SReg) (idx : BitVec 10) (s : State) :=
  issue (.vins vd sa idx) s (onCore fun x =>
    x.setV vd (Lanes.ofFn fun e => if e = idx.toNat then (x.getS sa).extractLsb' 0 32 else (x.getV vd).get e))
def execVrotr (vd va : VReg) (n : BitVec 6) (s : State) := issue (.vrotr vd va n) s (whole (rotRow n.toNat) vd va)
def execVbcr (vd va : VReg) (c : BitVec 6) (s : State) := issue (.vbcr vd va c) s (whole (bcastCol c.toNat) vd va)
def execVredr (ty : LaneTy) (op : RedOp) (vd va : VReg) (s : State) :=
  issue (.vredr ty op vd va) s (whole (reduceRows ty op) vd va)
def execVrotc (vd va : VReg) (n : BitVec 4) (s : State) := issue (.vrotc vd va n) s (whole (rotCol n.toNat) vd va)
def execVbcc (vd va : VReg) (r : BitVec 4) (s : State) := issue (.vbcc vd va r) s (whole (bcastRow r.toNat) vd va)
def execVredc (ty : LaneTy) (op : RedOp) (vd va : VReg) (s : State) :=
  issue (.vredc ty op vd va) s (whole (reduceCols ty op) vd va)
def execVpermr (vd va vb : VReg) (s : State) :=
  issue (.vpermr vd va vb) s (onCore fun x => x.setV vd (permRow (x.getV va) (x.getV vb)))

/-! ### Masks (R170) -/

def execKand (kd ka kb : KReg) (s : State) := issue (.kand kd ka kb) s (onCore fun x => x.setK kd (x.getK ka &&& x.getK kb))
def execKor (kd ka kb : KReg) (s : State) := issue (.kor kd ka kb) s (onCore fun x => x.setK kd (x.getK ka ||| x.getK kb))
def execKxor (kd ka kb : KReg) (s : State) := issue (.kxor kd ka kb) s (onCore fun x => x.setK kd (x.getK ka ^^^ x.getK kb))
def execKnot (kd ka : KReg) (s : State) := issue (.knot kd ka) s (onCore fun x => x.setK kd (~~~(x.getK ka)))
def execKpopc (sd : SReg) (ka : KReg) (s : State) :=
  issue (.kpopc sd ka) s (onCore fun x => x.setS sd (BitVec.ofNat 64 (popcount (x.getK ka).toNat 1024)))
def execKfirst (sd : SReg) (ka : KReg) (s : State) :=
  issue (.kfirst sd ka) s (onCore fun x => x.setS sd (BitVec.ofNat 64 (firstSet (x.getK ka) 1024 0)))

end Sys2Proof.Machine
end

