-- ==== Sys2Proof/Machine/Dispatch.lean ====
section
/-! DEFINITION. The meaning of every instruction and event: one arm a constructor, each one call (spec/opcode_table.json). -/

namespace Sys2Proof.Machine

def exec (i : Instr) (s : State) : Host.Outcome State Fault Refusal :=
  match i with
  | .illegalWord why => Sys2Proof.Machine.execIllegalWord why s
  | .add sd sa sb => Sys2Proof.Machine.execAdd sd sa sb s
  | .sub sd sa sb => Sys2Proof.Machine.execSub sd sa sb s
  | .mul sd sa sb => Sys2Proof.Machine.execMul sd sa sb s
  | .mulh sd sa sb => Sys2Proof.Machine.execMulh sd sa sb s
  | .div sd sa sb => Sys2Proof.Machine.execDiv sd sa sb s
  | .divu sd sa sb => Sys2Proof.Machine.execDivu sd sa sb s
  | .rem sd sa sb => Sys2Proof.Machine.execRem sd sa sb s
  | .remu sd sa sb => Sys2Proof.Machine.execRemu sd sa sb s
  | .and sd sa sb => Sys2Proof.Machine.execAnd sd sa sb s
  | .or sd sa sb => Sys2Proof.Machine.execOr sd sa sb s
  | .xor sd sa sb => Sys2Proof.Machine.execXor sd sa sb s
  | .shl sd sa sb => Sys2Proof.Machine.execShl sd sa sb s
  | .shr sd sa sb => Sys2Proof.Machine.execShr sd sa sb s
  | .sar sd sa sb => Sys2Proof.Machine.execSar sd sa sb s
  | .min sd sa sb => Sys2Proof.Machine.execMin sd sa sb s
  | .max sd sa sb => Sys2Proof.Machine.execMax sd sa sb s
  | .minu sd sa sb => Sys2Proof.Machine.execMinu sd sa sb s
  | .maxu sd sa sb => Sys2Proof.Machine.execMaxu sd sa sb s
  | .slt sd sa sb => Sys2Proof.Machine.execSlt sd sa sb s
  | .sltu sd sa sb => Sys2Proof.Machine.execSltu sd sa sb s
  | .clz sd sa => Sys2Proof.Machine.execClz sd sa s
  | .popc sd sa => Sys2Proof.Machine.execPopc sd sa s
  | .addi sd sa imm => Sys2Proof.Machine.execAddi sd sa imm s
  | .muli sd sa imm => Sys2Proof.Machine.execMuli sd sa imm s
  | .andi sd sa imm => Sys2Proof.Machine.execAndi sd sa imm s
  | .ori sd sa imm => Sys2Proof.Machine.execOri sd sa imm s
  | .xori sd sa imm => Sys2Proof.Machine.execXori sd sa imm s
  | .shli sd sa amount => Sys2Proof.Machine.execShli sd sa amount s
  | .shri sd sa amount => Sys2Proof.Machine.execShri sd sa amount s
  | .sari sd sa amount => Sys2Proof.Machine.execSari sd sa amount s
  | .slti sd sa imm => Sys2Proof.Machine.execSlti sd sa imm s
  | .sltiu sd sa imm => Sys2Proof.Machine.execSltiu sd sa imm s
  | .li sd imm => Sys2Proof.Machine.execLi sd imm s
  | .bfx sd sa pos lenM1 => Sys2Proof.Machine.execBfx sd sa pos lenM1 s
  | .bfi sd sa pos lenM1 => Sys2Proof.Machine.execBfi sd sa pos lenM1 s
  | .mka sd sa home => Sys2Proof.Machine.execMka sd sa home s
  | .br cond sa sb offset => Sys2Proof.Machine.execBr cond sa sb offset s
  | .bqT q offset => Sys2Proof.Machine.execBqT q offset s
  | .bqF q offset => Sys2Proof.Machine.execBqF q offset s
  | .jmp offset => Sys2Proof.Machine.execJmp offset s
  | .jmpr sa => Sys2Proof.Machine.execJmpr sa s
  | .call offset => Sys2Proof.Machine.execCall offset s
  | .callr sa => Sys2Proof.Machine.execCallr sa s
  | .ret => Sys2Proof.Machine.execRet s
  | .loop sa len => Sys2Proof.Machine.execLoop sa len s
  | .loopP sa len epi => Sys2Proof.Machine.execLoopP sa len epi s
  | .loopi count len => Sys2Proof.Machine.execLoopi count len s
  | .qset cond q sa sb => Sys2Proof.Machine.execQset cond q sa sb s
  | .ld size ord sd base disp => Sys2Proof.Machine.execLd size ord sd base disp s
  | .lds size ord sd base disp => Sys2Proof.Machine.execLds size ord sd base disp s
  | .st size ord sd base disp => Sys2Proof.Machine.execSt size ord sd base disp s
  | .aadd size ord fetch sd base disp => Sys2Proof.Machine.execAadd size ord fetch sd base disp s
  | .aand size ord fetch sd base disp => Sys2Proof.Machine.execAand size ord fetch sd base disp s
  | .aor size ord fetch sd base disp => Sys2Proof.Machine.execAor size ord fetch sd base disp s
  | .axor size ord fetch sd base disp => Sys2Proof.Machine.execAxor size ord fetch sd base disp s
  | .amin size ord fetch sd base disp => Sys2Proof.Machine.execAmin size ord fetch sd base disp s
  | .amax size ord fetch sd base disp => Sys2Proof.Machine.execAmax size ord fetch sd base disp s
  | .aminu size ord fetch sd base disp => Sys2Proof.Machine.execAminu size ord fetch sd base disp s
  | .amaxu size ord fetch sd base disp => Sys2Proof.Machine.execAmaxu size ord fetch sd base disp s
  | .afadd size ord fetch sd base disp => Sys2Proof.Machine.execAfadd size ord fetch sd base disp s
  | .afmin size ord fetch sd base disp => Sys2Proof.Machine.execAfmin size ord fetch sd base disp s
  | .afmax size ord fetch sd base disp => Sys2Proof.Machine.execAfmax size ord fetch sd base disp s
  | .aswp size ord fetch sd base disp => Sys2Proof.Machine.execAswp size ord fetch sd base disp s
  | .acas size ord fetch sd base disp => Sys2Proof.Machine.execAcas size ord fetch sd base disp s
  | .wait test ord sd lim cell v => Sys2Proof.Machine.execWait test ord sd lim cell v s
  | .take ord sd lim cell v => Sys2Proof.Machine.execTake ord sd lim cell v s
  | .trytake ord sd cell v => Sys2Proof.Machine.execTrytake ord sd cell v s
  | .sig ord cell v => Sys2Proof.Machine.execSig ord cell v s
  | .arrive ord cell => Sys2Proof.Machine.execArrive ord cell s
  | .cset ord cell v => Sys2Proof.Machine.execCset ord cell v s
  | .crd ord sd cell => Sys2Proof.Machine.execCrd ord sd cell s
  | .ccfg sa cell => Sys2Proof.Machine.execCcfg sa cell s
  | .cclr cell => Sys2Proof.Machine.execCclr cell s
  | .spawn sd sa disp => Sys2Proof.Machine.execSpawn sd sa disp s
  | .spawnb sd sa disp => Sys2Proof.Machine.execSpawnb sd sa disp s
  | .park sd sa disp => Sys2Proof.Machine.execPark sd sa disp s
  | .taskDone sa => Sys2Proof.Machine.execTaskDone sa s
  | .yield => Sys2Proof.Machine.execYield s
  | .widf sd f => Sys2Proof.Machine.execWidf sd f s
  | .hld hd sa disp => Sys2Proof.Machine.execHld hd sa disp s
  | .hst ha sa disp => Sys2Proof.Machine.execHst ha sa disp s
  | .hmov hd ha => Sys2Proof.Machine.execHmov hd ha s
  | .hsetb hd ha sa => Sys2Proof.Machine.execHsetb hd ha sa s
  | .hsetd hd ha sa d => Sys2Proof.Machine.execHsetd hd ha sa d s
  | .hsets hd ha sa d => Sys2Proof.Machine.execHsets hd ha sa d s
  | .hadv hd ha sa d => Sys2Proof.Machine.execHadv hd ha sa d s
  | .hget sd ha sel => Sys2Proof.Machine.execHget sd ha sel s
  | .hchk ha sa => Sys2Proof.Machine.execHchk ha sa s
  | .hclr hd => Sys2Proof.Machine.execHclr hd s
  | .tcfg t ty rows cols => Sys2Proof.Machine.execTcfg t ty rows cols s
  | .vadd ty rnd vd va vb k => Sys2Proof.Machine.execVadd ty rnd vd va vb k s
  | .vsub ty rnd vd va vb k => Sys2Proof.Machine.execVsub ty rnd vd va vb k s
  | .vmul ty rnd vd va vb k => Sys2Proof.Machine.execVmul ty rnd vd va vb k s
  | .vfma rnd vd va vb vc k => Sys2Proof.Machine.execVfma rnd vd va vb vc k s
  | .vfms rnd vd va vb vc k => Sys2Proof.Machine.execVfms rnd vd va vb vc k s
  | .vfnma rnd vd va vb vc k => Sys2Proof.Machine.execVfnma rnd vd va vb vc k s
  | .vmin ty vd va vb k => Sys2Proof.Machine.execVmin ty vd va vb k s
  | .vmax ty vd va vb k => Sys2Proof.Machine.execVmax ty vd va vb k s
  | .vabs ty vd va k => Sys2Proof.Machine.execVabs ty vd va k s
  | .vneg ty vd va k => Sys2Proof.Machine.execVneg ty vd va k s
  | .vadds vd va vb k => Sys2Proof.Machine.execVadds vd va vb k s
  | .vsubs vd va vb k => Sys2Proof.Machine.execVsubs vd va vb k s
  | .vclamp ty vd va vb vc k => Sys2Proof.Machine.execVclamp ty vd va vb vc k s
  | .vscale rnd vd va vb k => Sys2Proof.Machine.execVscale rnd vd va vb k s
  | .vrint rnd vd va k => Sys2Proof.Machine.execVrint rnd vd va k s
  | .vand vd va vb k => Sys2Proof.Machine.execVand vd va vb k s
  | .vor vd va vb k => Sys2Proof.Machine.execVor vd va vb k s
  | .vxor vd va vb k => Sys2Proof.Machine.execVxor vd va vb k s
  | .vandn vd va vb k => Sys2Proof.Machine.execVandn vd va vb k s
  | .vshl vd va vb k => Sys2Proof.Machine.execVshl vd va vb k s
  | .vshr vd va vb k => Sys2Proof.Machine.execVshr vd va vb k s
  | .vsar vd va vb k => Sys2Proof.Machine.execVsar vd va vb k s
  | .vpopc vd va k => Sys2Proof.Machine.execVpopc vd va k s
  | .vcmpeq ty kd va vb k => Sys2Proof.Machine.execVcmpeq ty kd va vb k s
  | .vcmpne ty kd va vb k => Sys2Proof.Machine.execVcmpne ty kd va vb k s
  | .vcmplt ty kd va vb k => Sys2Proof.Machine.execVcmplt ty kd va vb k s
  | .vcmple ty kd va vb k => Sys2Proof.Machine.execVcmple ty kd va vb k s
  | .vcvt dty sty rnd vd va k => Sys2Proof.Machine.execVcvt dty sty rnd vd va k s
  | .vsel ty vd va vb k => Sys2Proof.Machine.execVsel ty vd va vb k s
  | .vmovi ty vd imm k => Sys2Proof.Machine.execVmovi ty vd imm k s
  | .vbcs ty vd sa k => Sys2Proof.Machine.execVbcs ty vd sa k s
  | .vexp2 vd va k => Sys2Proof.Machine.execVexp2 vd va k s
  | .vlog2 vd va k => Sys2Proof.Machine.execVlog2 vd va k s
  | .vrcp vd va k => Sys2Proof.Machine.execVrcp vd va k s
  | .vrsq vd va k => Sys2Proof.Machine.execVrsq vd va k s
  | .vsqrt vd va k => Sys2Proof.Machine.execVsqrt vd va k s
  | .vtanh vd va k => Sys2Proof.Machine.execVtanh vd va k s
  | .vsinpi vd va k => Sys2Proof.Machine.execVsinpi vd va k s
  | .vcospi vd va k => Sys2Proof.Machine.execVcospi vd va k s
  | .vhash vd va sa k => Sys2Proof.Machine.execVhash vd va sa k s
  | .vld ty vd h => Sys2Proof.Machine.execVld ty vd h s
  | .vst ty rnd h va => Sys2Proof.Machine.execVst ty rnd h va s
  | .vldr ty vd h row => Sys2Proof.Machine.execVldr ty vd h row s
  | .vstr ty rnd h va row => Sys2Proof.Machine.execVstr ty rnd h va row s
  | .vmov vd va => Sys2Proof.Machine.execVmov vd va s
  | .vext sd va idx => Sys2Proof.Machine.execVext sd va idx s
  | .vins vd sa idx => Sys2Proof.Machine.execVins vd sa idx s
  | .vrotr vd va n => Sys2Proof.Machine.execVrotr vd va n s
  | .vbcr vd va col => Sys2Proof.Machine.execVbcr vd va col s
  | .vredr ty op vd va => Sys2Proof.Machine.execVredr ty op vd va s
  | .vrotc vd va n => Sys2Proof.Machine.execVrotc vd va n s
  | .vbcc vd va row => Sys2Proof.Machine.execVbcc vd va row s
  | .vredc ty op vd va => Sys2Proof.Machine.execVredc ty op vd va s
  | .vpermr vd va vb => Sys2Proof.Machine.execVpermr vd va vb s
  | .kand kd ka kb => Sys2Proof.Machine.execKand kd ka kb s
  | .kor kd ka kb => Sys2Proof.Machine.execKor kd ka kb s
  | .kxor kd ka kb => Sys2Proof.Machine.execKxor kd ka kb s
  | .knot kd ka => Sys2Proof.Machine.execKnot kd ka s
  | .kpopc sd ka => Sys2Proof.Machine.execKpopc sd ka s
  | .kfirst sd ka => Sys2Proof.Machine.execKfirst sd ka s
  | .vargmaxr ty vd va k => Sys2Proof.Machine.execVargmaxr ty vd va k s
  | .vargmaxc ty vd va k => Sys2Proof.Machine.execVargmaxc ty vd va k s
  | .vargminr ty vd va k => Sys2Proof.Machine.execVargminr ty vd va k s
  | .vargminc ty vd va k => Sys2Proof.Machine.execVargminc ty vd va k s
  | .vtopk ty vd va vb k n => Sys2Proof.Machine.execVtopk ty vd va vb k n s
  | .vtopkm ty vd va vb n => Sys2Proof.Machine.execVtopkm ty vd va vb n s
  | .vpart vd sS sC k => Sys2Proof.Machine.execVpart vd sS sC k s
  | .vbucket vd va n k => Sys2Proof.Machine.execVbucket vd va n k s
  | .vprune48 ty vd va => Sys2Proof.Machine.execVprune48 ty vd va s
  | .vspread48 ty vd va => Sys2Proof.Machine.execVspread48 ty vd va s
  | .vcompress vd va sn k => Sys2Proof.Machine.execVcompress vd va sn k s
  | .vexpand vd va sn k => Sys2Proof.Machine.execVexpand vd va sn k s
  | .tld t h e => Sys2Proof.Machine.execTld t h e s
  | .tldw t sa e => Sys2Proof.Machine.execTldw t sa e s
  | .tst t h e => Sys2Proof.Machine.execTst t h e s
  | .mma acc tA tB tyA tyB tyAcc z e => Sys2Proof.Machine.execMma acc tA tB tyA tyB tyAcc z e s
  | .mmaw acc tA hB tyA tyB tyAcc z e => Sys2Proof.Machine.execMmaw acc tA hB tyA tyB tyAcc z e s
  | .mmasp acc tA tB tyA tyB tyAcc z e => Sys2Proof.Machine.execMmasp acc tA tB tyA tyB tyAcc z e s
  | .mmaspw acc tA hB tyA tyB tyAcc z e => Sys2Proof.Machine.execMmaspw acc tA hB tyA tyB tyAcc z e s
  | .mtrans acc tA tyA tyAcc z e => Sys2Proof.Machine.execMtrans acc tA tyA tyAcc z e s
  | .mperm acc tA tB tyA tyAcc z e => Sys2Proof.Machine.execMperm acc tA tB tyA tyAcc z e s
  | .mrsum acc tA tyA tyAcc z e => Sys2Proof.Machine.execMrsum acc tA tyA tyAcc z e s
  | .mzero acc e => Sys2Proof.Machine.execMzero acc e s
  | .mdrain acc ty rnd dst e => Sys2Proof.Machine.execMdrain acc ty rnd dst e s
  | .mnop e => Sys2Proof.Machine.execMnop e s
  | .copy hd ha sa lock e => Sys2Proof.Machine.execCopy hd ha sa lock e s
  | .gath hd ha sa lock e => Sys2Proof.Machine.execGath hd ha sa lock e s
  | .scat hd ha sa lock e => Sys2Proof.Machine.execScat hd ha sa lock e s
  | .fill size hd sa lock e => Sys2Proof.Machine.execFill size hd sa lock e s
  | .reda op hd ha lock e => Sys2Proof.Machine.execReda op hd ha lock e s
  | .putc hd ha sa e => Sys2Proof.Machine.execPutc hd ha sa e s
  | .rrot hd ha sa e => Sys2Proof.Machine.execRrot hd ha sa e s
  | .copySeal hd ha sa e => Sys2Proof.Machine.execCopySeal hd ha sa e s
  | .copyOpen hd ha sa e => Sys2Proof.Machine.execCopyOpen hd ha sa e s
  | .cnop e => Sys2Proof.Machine.execCnop e s
  | .swopen sx sy e => Sys2Proof.Machine.execSwopen sx sy e s
  | .swapp sx sy v row e => Sys2Proof.Machine.execSwapp sx sy v row e s
  | .swqry sx sy e => Sys2Proof.Machine.execSwqry sx sy e s
  | .swpop v sx row e => Sys2Proof.Machine.execSwpop v sx row e s
  | .swevt sx sy e => Sys2Proof.Machine.execSwevt sx sy e s
  | .swsave sx sy e => Sys2Proof.Machine.execSwsave sx sy e s
  | .swload sx sy e => Sys2Proof.Machine.execSwload sx sy e s
  | .swclose sx e => Sys2Proof.Machine.execSwclose sx e s
  | .wld ty vd sa => Sys2Proof.Machine.execWld ty vd sa s
  | .wprog sa ha e => Sys2Proof.Machine.execWprog sa ha e s
  | .wprogs sa ha sb e => Sys2Proof.Machine.execWprogs sa ha sb e s
  | .wfree sa e => Sys2Proof.Machine.execWfree sa e s
  | .wmeas ha sa e => Sys2Proof.Machine.execWmeas ha sa e s
  | .wscrub sa e => Sys2Proof.Machine.execWscrub sa e s
  | .wchk ha sa e => Sys2Proof.Machine.execWchk ha sa e s
  | .wstat sd sa => Sys2Proof.Machine.execWstat sd sa s
  | .nop => Sys2Proof.Machine.execNop s
  | .crr sd cr => Sys2Proof.Machine.execCrr sd cr s
  | .crw cr sa => Sys2Proof.Machine.execCrw cr sa s
  | .fence scope => Sys2Proof.Machine.execFence scope s
  | .tlock sd sa sl => Sys2Proof.Machine.execTlock sd sa sl s
  | .tunlock sa sl => Sys2Proof.Machine.execTunlock sa sl s
  | .phase => Sys2Proof.Machine.execPhase s
  | .fqpop sd => Sys2Proof.Machine.execFqpop sd s
  | .fresume sa => Sys2Proof.Machine.execFresume sa s
  | .fabort sa => Sys2Proof.Machine.execFabort sa s
  | .frestart sa => Sys2Proof.Machine.execFrestart sa s
  | .qwait matrix copy => Sys2Proof.Machine.execQwait matrix copy s
  | .brk code => Sys2Proof.Machine.execBrk code s
  | .cellWaiterSatisfied t c => Sys2Proof.Machine.execCellWaiterSatisfied t c s
  | .waitLimitExpiry t => Sys2Proof.Machine.execWaitLimitExpiry t s
  | .remoteCellRequest j => Sys2Proof.Machine.execRemoteCellRequest j s
  | .remoteCellReply j => Sys2Proof.Machine.execRemoteCellReply j s
  | .parkRegister t => Sys2Proof.Machine.execParkRegister t s
  | .doneRetire t => Sys2Proof.Machine.execDoneRetire t s
  | .matrixCommandStart t => Sys2Proof.Machine.execMatrixCommandStart t s
  | .matrixCommandComplete t => Sys2Proof.Machine.execMatrixCommandComplete t s
  | .copyCommandStart t j n ext => Sys2Proof.Machine.execCopyCommandStart t j n ext s
  | .lockstepRendezvous die cluster => Sys2Proof.Machine.execLockstepRendezvous die cluster s
  | .copyCommandComplete t => Sys2Proof.Machine.execCopyCommandComplete t s
  | .copyOpenCounterStep t => Sys2Proof.Machine.execCopyOpenCounterStep t s
  | .copySealCounterStep t => Sys2Proof.Machine.execCopySealCounterStep t s
  | .swardAccept die => Sys2Proof.Machine.execSwardAccept die s
  | .swardPerform die j => Sys2Proof.Machine.execSwardPerform die j s
  | .weightCommandAccept die => Sys2Proof.Machine.execWeightCommandAccept die s
  | .weightCommandStart die => Sys2Proof.Machine.execWeightCommandStart die s
  | .weightCommandComplete die lines => Sys2Proof.Machine.execWeightCommandComplete die lines s
  | .scrubLine t region line errs bad => Sys2Proof.Machine.execScrubLine t region line errs bad s
  | .phaseCommit t => Sys2Proof.Machine.execPhaseCommit t s
  | .qwaitComplete t => Sys2Proof.Machine.execQwaitComplete t s
  | .accessReply t r => Sys2Proof.Machine.execAccessReply t r s
  | .loadDataReturn t j ext => Sys2Proof.Machine.execLoadDataReturn t j ext s
  | .sharedMemoryAccess t j n => Sys2Proof.Machine.execSharedMemoryAccess t j n s
  | .cellWindowAccess t => Sys2Proof.Machine.execCellWindowAccess t s
  | .bankAtomic t j => Sys2Proof.Machine.execBankAtomic t j s
  | .recordAdmission die => Sys2Proof.Machine.execRecordAdmission die s
  | .sqtailWrite p die l v => Sys2Proof.Machine.execSqtailWrite p die l v s
  | .submissionAdmission p die l => Sys2Proof.Machine.execSubmissionAdmission p die l s
  | .heldContinuationAdmission p die l => Sys2Proof.Machine.execHeldContinuationAdmission p die l s
  | .dispatch die => Sys2Proof.Machine.execDispatch die s
  | .contextRestoreComplete t b => Sys2Proof.Machine.execContextRestoreComplete t b s
  | .budgetExpiry t => Sys2Proof.Machine.execBudgetExpiry t s
  | .slotSwitch t => Sys2Proof.Machine.execSlotSwitch t s
  | .sliceExpiry t => Sys2Proof.Machine.execSliceExpiry t s
  | .contextStopEnd t b => Sys2Proof.Machine.execContextStopEnd t b s
  | .faultRecordWrite p => Sys2Proof.Machine.execFaultRecordWrite p s
  | .contextSaveComplete t b => Sys2Proof.Machine.execContextSaveComplete t b s
  | .fholdExpiry t b => Sys2Proof.Machine.execFholdExpiry t b s
  | .contextMoveOut t b => Sys2Proof.Machine.execContextMoveOut t b s
  | .preqWrite t v => Sys2Proof.Machine.execPreqWrite t v s
  | .phaseCancellation t b => Sys2Proof.Machine.execPhaseCancellation t b s
  | .shadowWriteOutComplete t b => Sys2Proof.Machine.execShadowWriteOutComplete t b s
  | .outboundSlot link => Sys2Proof.Machine.execOutboundSlot link s
  | .inboundFrame link intact tagOk => Sys2Proof.Machine.execInboundFrame link intact tagOk s
  | .drawerRequest t j => Sys2Proof.Machine.execDrawerRequest t j s
  | .frameBoundary link => Sys2Proof.Machine.execFrameBoundary link s
  | .swcmt link v => Sys2Proof.Machine.execSwcmt link v s
  | .linkLossOfLock link => Sys2Proof.Machine.execLinkLossOfLock link s
  | .linkRelock link delta => Sys2Proof.Machine.execLinkRelock link delta s
  | .linkDownDeclare link => Sys2Proof.Machine.execLinkDownDeclare link s
  | .linkStallTimeout t => Sys2Proof.Machine.execLinkStallTimeout t s
  | .linkBroughtBackToUp link delta => Sys2Proof.Machine.execLinkBroughtBackToUp link delta s
  | .hostPostedWrite p off size data => Sys2Proof.Machine.execHostPostedWrite p off size data s
  | .hostRead p off size => Sys2Proof.Machine.execHostRead p off size s
  | .peerRequest r => Sys2Proof.Machine.execPeerRequest r s
  | .vonyxFlitReceive port good => Sys2Proof.Machine.execVonyxFlitReceive port good s
  | .pcfgWrite p v => Sys2Proof.Machine.execPcfgWrite p v s
  | .partitionClearDone p => Sys2Proof.Machine.execPartitionClearDone p s
  | .drawerKeysPlaced p => Sys2Proof.Machine.execDrawerKeysPlaced p s
  | .tdispError p => Sys2Proof.Machine.execTdispError p s
  | .tslotWrite t v => Sys2Proof.Machine.execTslotWrite t v s
  | .slotClearDone t b => Sys2Proof.Machine.execSlotClearDone t b s
  | .cownWrite t c v => Sys2Proof.Machine.execCownWrite t c v s
  | .ccfgwWrite t c v => Sys2Proof.Machine.execCcfgwWrite t c v s
  | .pwinWrite home p w v => Sys2Proof.Machine.execPwinWrite home p w v s
  | .tinvPage unit p off => Sys2Proof.Machine.execTinvPage unit p off s
  | .tinvAll unit p => Sys2Proof.Machine.execTinvAll unit p s
  | .invalidationDrainEnd unit => Sys2Proof.Machine.execInvalidationDrainEnd unit s
  | .wownWrite t r v => Sys2Proof.Machine.execWownWrite t r v s
  | .kerase v => Sys2Proof.Machine.execKerase v s
  | .keyLoad session slot kind p key openLevel sealLevel => Sys2Proof.Machine.execKeyLoad session slot kind p key openLevel sealLevel s
  | .keyErase session slot => Sys2Proof.Machine.execKeyErase session slot s
  | .unsealModel session waddr p model digest => Sys2Proof.Machine.execUnsealModel session waddr p model digest s
  | .getMeasurements session index => Sys2Proof.Machine.execGetMeasurements session index s
  | .getManifest session => Sys2Proof.Machine.execGetManifest session s
  | .rtcmd p v => Sys2Proof.Machine.execRtcmd p v s
  | .regionTableInstallDone p => Sys2Proof.Machine.execRegionTableInstallDone p s
  | .fqhpop p v => Sys2Proof.Machine.execFqhpop p v s
  | .fqansResume p addr => Sys2Proof.Machine.execFqansResume p addr s
  | .fqansAbort p addr => Sys2Proof.Machine.execFqansAbort p addr s
  | .fqansRestart p addr => Sys2Proof.Machine.execFqansRestart p addr s
  | .fwVerify c version signed => Sys2Proof.Machine.execFwVerify c version signed s
  | .fwHandover c => Sys2Proof.Machine.execFwHandover c s
  | .fwCommit c => Sys2Proof.Machine.execFwCommit c s
  | .fwAbandon c => Sys2Proof.Machine.execFwAbandon c s
  | .fwServiceSignal c => Sys2Proof.Machine.execFwServiceSignal c s
  | .fwServiceTimeout c => Sys2Proof.Machine.execFwServiceTimeout c s
  | .fwHealthSignal c => Sys2Proof.Machine.execFwHealthSignal c s
  | .fwHealthTimeout c => Sys2Proof.Machine.execFwHealthTimeout c s
  | .powerGood => Sys2Proof.Machine.execPowerGood s
  | .startupStepComplete => Sys2Proof.Machine.execStartupStepComplete s
  | .governorWindow die power temp => Sys2Proof.Machine.execGovernorWindow die power temp s
  | .thermalShutdown => Sys2Proof.Machine.execThermalShutdown s
  | .coolantFlowLow => Sys2Proof.Machine.execCoolantFlowLow s
  | .configRegisterWrite r v => Sys2Proof.Machine.execConfigRegisterWrite r v s
  | .powerLoss => Sys2Proof.Machine.execPowerLoss s
  | .tdispInterfaceRequest p dst => Sys2Proof.Machine.execTdispInterfaceRequest p dst s
  | .spdmKeyExchange session peer establish => Sys2Proof.Machine.execSpdmKeyExchange session peer establish s

end Sys2Proof.Machine
end

