-- ==== Sys2Proof/Machine/Schedule.lean ====
section
/-! DEFINITION. Which move comes next when the agenda lists none, and what the outside world does. The manual fixes no order of
events of different agents: the order here is the model's own (notes/assumptions/8). -/

namespace Sys2Proof.Machine

/-- What an event does. -/
abbrev Act := State → Host.Outcome State Fault Refusal

/-! ### Events that something waits for -/

/-- Of the accesses of a tile's running slot. -/
def Slot.accessActs (x : Slot) (t : Nat) : List Act :=
  (List.range x.accs.length).flatMap fun i =>
    let n := ((x.accs[i]?).map fun a => a.elems.length).getD 0
    [execAccessReply t none, execCellWindowAccess t, execDrawerRequest t i, execBankAtomic t i] ++
    (List.range n).map (fun j => execSharedMemoryAccess t i j) ++ [execLoadDataReturn t i []]

/-- Of what holds its core. -/
def Slot.holdActs (x : Slot) (t : Nat) : List Act :=
  match x.hold with
  | .wait _ _ => [execWaitLimitExpiry t]
  | .remote _ _ _ => [execWaitLimitExpiry t]
  | .park _ _ _ => [execPhaseCommit t, execParkRegister t]
  | .done _ _ _ => [execPhaseCommit t, execDoneRetire t]
  | .qwait _ _ => [execQwaitComplete t]
  | .phase => [execPhaseCommit t]
  | _ => []

/-- Of its engines. -/
def Slot.engineActs (x : Slot) (t : Nat) : List Act :=
  (if x.mq.isEmpty then [] else [execMatrixCommandComplete t, execMatrixCommandStart t]) ++
  (if x.cq.isEmpty then [] else
    [execCopyCommandComplete t, execCopyOpenCounterStep t, execCopySealCounterStep t] ++
    (List.range x.cq.length).map (fun i => execCopyCommandStart t i 4096 []) ++ [execLockstepRendezvous (dieOf t) (localOf t / 8)])

/-- Of the life of a slot, whether it runs or not. -/
def Slot.lifeActs (x : Slot) (t : Nat) (b : Bool) : List Act :=
  (if x.restoring || x.source.isSome then [execContextRestoreComplete t b] else []) ++
  (if x.writeOut then [execShadowWriteOutComplete t b] else []) ++
  match x.st with
  | .stopping _ => [execPhaseCancellation t b, execContextStopEnd t b]
  | .saving _ => [execContextSaveComplete t b]
  | .faulted => [execFholdExpiry t b, execContextMoveOut t b]
  | .clearing => [execSlotClearDone t b]
  | _ => []

def State.tileActs (s : State) (t : Nat) : List Act :=
  let y := s.tile t
  let x := y.slot y.run
  y.a.lifeActs t false ++ y.b.lifeActs t true ++ [execSlotSwitch t] ++ x.accessActs t ++ x.holdActs t ++ x.engineActs t ++
  (if x.task.isSome then [execBudgetExpiry t, execSliceExpiry t, execLinkStallTimeout t] else []) ++
  y.waiters.map fun w => execCellWaiterSatisfied t (BitVec.ofNat 11 w.cell)

def State.dieActs (s : State) (d : Nat) : List Act :=
  let y := s.die d
  let rings := s.rings.filter fun r => r.1 / 128 == d
  let ring := fun (n : Nat) (f : PartNo → Nat → BitVec 3 → Act) => f (BitVec.ofNat 4 (n / 8)) d (BitVec.ofNat 3 n)
  (if s.arrivals.isEmpty then [] else [execRecordAdmission d]) ++
  rings.flatMap (fun r => [ring r.1 execHeldContinuationAdmission, ring r.1 execSubmissionAdmission]) ++
  (if rings.isEmpty then [] else [execDispatch d]) ++
  [execSwardAccept d, execWeightCommandAccept d] ++ (List.range y.swOps.length).map (fun i => execSwardPerform d i) ++
  (if y.wq.isEmpty then [] else [execWeightCommandComplete d [], execWeightCommandStart d])

def State.partActs (s : State) (p : PartNo) : List Act :=
  let x := s.part p
  (if x.recs.isEmpty then [] else [execFaultRecordWrite p]) ++
  (if x.clrBusy then [execPartitionClearDone p] else []) ++ (if x.keysDue then [execDrawerKeysPlaced p] else []) ++
  (if x.rtBusy then [execRegionTableInstallDone p] else [])

def State.linkActs (s : State) : List Act :=
  s.links.flatMap fun l => if l.2.queue.any fun r => r.sent.isSome then [execInboundFrame l.1 true true] else []

/-- Events that may be pending, in the order in which they are tried. -/
def State.pending (s : State) : List Act :=
  (List.range s.remotes.length).flatMap (fun i => [execRemoteCellReply i, execRemoteCellRequest i]) ++
  s.tiles.flatMap (fun t => s.tileActs t.1) ++ (List.range Config.dies).flatMap s.dieActs ++
  s.parts.flatMap (fun p => s.partActs (BitVec.ofNat 4 p.1)) ++ s.linkActs ++
  s.units.flatMap fun u => if u.2.drain.isSome then [execInvalidationDrainEnd (if u.1 = 16 then 4 else BitVec.ofNat 3 u.1)] else []

/-- The event does something now. -/
def State.enables (s : State) (a : Act) : Bool :=
  match a s with
  | .next t => t != s
  | _ => true

/-! ### Requests that were held (R376) -/

/-- A held request is served. -/
def serveRequest : Request → Act
  | .kerase v => execKerase v
  | .keyLoad n k kind p key o q => execKeyLoad n k kind p key o q
  | .keyErase n k => execKeyErase n k
  | .unsealModel n w p model digest => execUnsealModel n w p model digest
  | .getMeasurements n i => execGetMeasurements n i
  | .getManifest n => execGetManifest n
  | .spdmKeyExchange n peer e => execSpdmKeyExchange n peer e
  | .fwVerify c version signed => execFwVerify c version signed
  | .pwrshareWrite d v => execConfigRegisterWrite (.pwrshare d) v
  | .swcmt l v => execSwcmt l v

/-! ### The machine's own next move -/

/-- A core's move: its next group is executed, or nothing is. -/
def coreMove (t : Nat) : Act := fun s =>
  match nextGroup t s with
  | .run i s => exec i s
  | .idle s => .next s

/-- The first tile after the current one, in a circle, whose core can issue. -/
def State.nextCore (s : State) : Option Nat :=
  let ts := s.tiles.map fun (t : Nat × Tile) => t.1
  let after := ts.filter (s.cur < ·) ++ ts.filter (· ≤ s.cur)
  after.find? fun t => ({ s with cur := t } : State).canIssue

/-- A link with requests that no frame has carried, or with work for its next frame boundary: its slots go by, in turn with the
cycles of the current tile. -/
def State.waitingLink (s : State) : Option Nat :=
  (s.links.find? fun l => (!l.2.queue.isEmpty || l.2.pending.isSome || l.2.replay) && l.2.slot % 2 == (s.tile s.cur).cyc % 2).map fun l => l.1

/-- An event that something waits for; else a core; else start-up as far as system software; else time. -/
def ownMove : Act := fun s =>
  match s.pending.find? s.enables with
  | some a => a s
  | none => match s.nextCore with
    | some t => coreMove t s
    | none =>
      if s.devstat.toNat < 5 && s.enables execStartupStepComplete then execStartupStepComplete s
      else match s.waitingLink with
        | some l => execOutboundSlot l s
        | none => .next (s.tick s.cur 1)

/-- An act of the outside world. -/
def State.outside (s : State) (o : Outside) : State :=
  match o with
  | .hostByte a b => { s with mem := memPut s.mem (homeKey 0x20 (a % 2 ^ 57)) b }
  | .poison k on => { s with poisoned := if on then k :: s.poisoned else s.poisoned.filter (· != k) }
  | .upset t b a e v =>
    s.modSlot t b fun x => { x with a := tput x.a a { tget {} x.a a with elems := tput (tget {} x.a a).elems e v } }
  | .peerCell i f v d =>
    { s with remotes := s.remotes.modify i fun m => if m.peer.isSome then { m with st := .replied f v d } else m }
  | .peerTables l => { s with peerMap := l }
  | .peerWords ws => { s with inbox := s.inbox ++ ws }
  | .stage c v =>
    { s with fw := (c, { s.firmware c with standby := v }) :: s.fw.filter fun f => f.1 != c }

/-- Events: what no word encodes, a defective group apart. -/
def isEvent (i : Instr) : Bool :=
  match i with
  | .illegalWord _ => false
  | i => (encodeWord 0 i).isNone

/-! ### Placing an instruction -/

/-- A launch header whose limits admit every register and cell, and whose spad and stack areas fill the half. -/
def widestHeader : W512 :=
  (64 <<< 64) ||| (32 <<< 72) ||| (32 <<< 80) ||| (16 <<< 88) ||| (15 <<< 96) ||| (2048 <<< 104) |||
  (0x3F0000 <<< 128) ||| (0x10000 <<< 160) ||| (0xFFFFFFFF <<< 192) ||| (4 <<< 224)

/-- The core of the current tile can issue, and its next 32 bytes lie in its own half below the gap. -/
def State.fetchesOwn (s : State) : Bool :=
  let x := s.core
  s.powered && s.canIssue && x.loop.isNone && homeBits x.pc == 0 &&
  !inGap x.header (offBits x.pc) 32 && decide (offBits x.pc + 32 ≤ 0x400000)

/-- A task of partition 0 under the widest header runs in the slot, at the first word of its half. -/
def Slot.withTask (x : Slot) : Slot :=
  { x with task := some ⟨0, 0, 0, widestHeader, 0, 0⟩, st := .busy, hold := .none, loop := none, pendPreempt := false,
           budg := 0xFFFFFFFF, pc := 0 }

/-- A state in which the next step is the current core's, which issues from its own half. -/
def State.runnable (s : State) : State :=
  let s := if s.fetchesOwn then s
    else { (s.modTile s.cur fun x => { x with idle := false, tslot := { x.tslot with va := true } }).modCore Slot.withTask with
           powered := true }
  { s with agenda := [.core s.cur] }

/-- Words stored at the current core's pc, in its own half. -/
def State.placeWords (s : State) (ws : List W64) : State :=
  s.writeBytes (halfKey s.cur (s.run s.cur) + offBits s.core.pc) (ws.flatMap fun w => bytesOf 8 w.toNat)

end Sys2Proof.Machine
end

