-- ==== Sys2Proof/Machine/Step.lean ====
section
/-! DEFINITION. One step of the machine, and the placing of an instruction where the next step fetches it. -/

namespace Sys2Proof.Machine

/-- What one move does. -/
def runMove (m : Move) (s : State) : Host.Outcome State Fault Refusal :=
  match m with
  | .core t => coreMove t s
  | .ev i => if isEvent i then exec i s else .next s
  | .held r => serveRequest r s
  | .pass t n => .next (s.tick t n)
  | .outside o => .next (s.outside o)

/-- A step: the next move of the agenda, or the machine's own. Without power only POWER_GOOD happens (R395, R397). -/
def step (s : State) : Host.Outcome State Fault Refusal :=
  match s.agenda with
  | m :: r => if s.powered || m == .ev .powerGood then runMove m { s with agenda := r } else .fault .unpowered
  | [] => if s.powered then ownMove s else .fault .unpowered

/-- The state with an instruction where the next step fetches it. -/
def State.withFetchWord (s : State) (nbits w : Nat) : State := (s.runnable).placeWords (wordsOfNat 4 (w % 2 ^ nbits))

end Sys2Proof.Machine
end

