-- ==== Sys2Proof/Safety.lean ====
section
/-! DEFINITION. The terms in which claims speak: safe states and steps, the conditions under which an instruction of a core
completes, and what the end of a group and the passing of cycles leave of a state. -/

namespace Sys2Proof.Machine

/-- The memory of a state is in canonical form. -/
def State.Safe (s : State) : Prop := Memory.wf s.mem = true

/-- A step answers a next state, and it is safe. -/
def StepsSafely (s : State) : Prop := ∃ t, step s = .next t ∧ t.Safe

/-- The core can issue the instruction now: nothing holds the core or the word (R16, R135, R150), and the registers and cells
that it names lie below the limits of the header in force (R66). -/
structure Issues (i : Instr) (s : State) : Prop where
  can    : s.canIssue = true
  free   : s.interlocked s.cur (s.run s.cur) (named i) = false
  due    : s.core.early s.issueCyc i = false
  limits : withinLimits s.core.header (named i) = true

/-- A hold without its remaining time. -/
def Hold.untimed : Hold → Hold
  | .remote id sd _ => .remote id sd Option.none
  | h => h

/-- A hold that no local cell ends. -/
def Hold.inert : Hold → Bool
  | .wait _ _ => false
  | .offerWait _ => false
  | _ => true

/-- A queued command without the mark that its wait has been met. -/
def Cmd.unmarked (c : Cmd) : Cmd := { c with wtaken := false }

/-- A slot without what time changes: its budget and counters of cycles, results on their way, the remaining time of its hold,
and the marks of engine commands whose waits are met meanwhile. -/
def Slot.still (x : Slot) : Slot :=
  { x with budg := 0, ran := 0, waited := 0, stall := 0, due := [], vfree := 0, hold := x.hold.untimed,
           mq := x.mq.map Cmd.unmarked, cq := x.cq.map Cmd.unmarked }

/-- A remote operation without its standing: a cell may resolve it meanwhile. -/
def Remote.unsettled (m : Remote) : Remote := { m with st := .sent }

/-- All of a state but its tiles, and what cells resolve meanwhile. -/
def State.rest (s : State) : State := { s with tiles := [], remotes := s.remotes.map Remote.unsettled }

/-- `t` is `s` after n cycles of the current tile, in which nothing issues there: the registers of its slots, every other tile
and everything outside the tiles are as they were; a cell changes only where a waiter waits on it (R92, R95). -/
structure Passed (s t : State) (n : Nat) : Prop where
  core  : t.core.still = s.core.still
  other : (t.slot s.cur (1 - s.run s.cur)).still = (s.slot s.cur (1 - s.run s.cur)).still
  run   : (t.tile s.cur).runB = (s.tile s.cur).runB
  idle  : (t.tile s.cur).idle = (s.tile s.cur).idle
  tslot : (t.tile s.cur).tslot = (s.tile s.cur).tslot
  cyc   : (t.tile s.cur).cyc = (s.tile s.cur).cyc + n
  cells : ∀ c, (∀ w ∈ (s.tile s.cur).waiters, w.cell ≠ c) → t.cell s.cur c = s.cell s.cur c
  tiles : ∀ u, u ≠ s.cur → t.tile u = s.tile u
  rest  : t.rest = s.rest

/-- The group of the instruction ends in the state `e` that its effect gives, and its cycles pass: control goes on after the group,
or through the end of an iteration (R42, R84). -/
def Ends (s e t : State) (extra : Nat) : Prop := Passed (e.modCore Slot.advance) t (s.words + extra)

/-- Control goes to another address in the state `e`, and the cycles of the group pass, with two at least in which nothing
issues where it is a taken branch (R83). -/
def Goes (s e t : State) (pc : W64) (extra : Nat) : Prop := Passed (e.modCore fun x => x.goTo pc) t (s.words + extra)

/-- Executing the instruction answers a next state in which the effect `e` stands and the group has ended; `extra` cycles pass
beyond those of its words. -/
def Completes (i : Instr) (s e : State) (extra : Nat) : Prop := ∃ t, exec i s = .next t ∧ Ends s e t extra

/-- Executing the instruction answers a next state in which the effect `e` stands and control is at `pc`. -/
def Branches (i : Instr) (s e : State) (pc : W64) (extra : Nat) : Prop := ∃ t, exec i s = .next t ∧ Goes s e t pc extra

/-- Executing the instruction answers a next state in which the effect `e` stands and its core is held, or stops. -/
def Waits (i : Instr) (s e : State) : Prop := ∃ t, exec i s = .next t ∧ Passed e t s.words

/-- An access that its core hands over to a home, and waits for the reply of (R261). -/
def State.handsOver (s : State) (op : AccOp) (n : Nat) (o : Ord) (es : List Elem) : State :=
  ({ s with nextNum := s.nextNum + 1 } : State).modCore fun x => { x with
    hold := .reply
    accs := x.accs ++ [{ num := s.nextNum, op := op, size := n, ord := o, elems := es, words := x.gwords, ip := x.ipc,
                         resume := x.pc }] }

/-- Nothing holds an access at issue: there is room for it, and a release waits for no earlier one (R261, R262, R247). -/
def State.mayAccess (s : State) (o : Ord) (va : W64) : Prop :=
  s.core.accessRoom = true ∧ (releases o = true → s.releaseWaits s.cur (s.run s.cur) (windowCell va) = false)

/-- The pairwise tree of R134 over the first 2^n of a sequence: neighbours combine, level by level. -/
def pairwise (f : α → α → α) : Nat → (Nat → α) → α
  | 0, l => l 0
  | n + 1, l => pairwise f n fun i => f (l (2 * i)) (l (2 * i + 1))

/-- Executing the instruction answers a next state in which it has trapped: nothing of it happened but the fault. -/
def Traps (i : Instr) (s : State) (f : FaultName) (addr detail : W64) : Prop :=
  ∃ t, exec i s = .next t ∧ Passed (s.trap f addr detail) t s.words

end Sys2Proof.Machine
end

