-- ==== Sys2Proof/Certificates/Slice0/Obligations.lean ====
section
/-! DEFINITION. What is claimed of the model, each a rule of the spec or more: the statements for the provers. A statement is about
one instruction or event at a time; `Completes`, `Branches`, `Waits`, `Traps`, `Issues` and `Passed` of Sys2Proof/Safety.lean say
what each asks of its state and that nothing else changes. -/

open Sys2Proof Sys2Proof.Machine

/-! ### The scalar ALU (R135–R141) -/

/-- R136, R137, R135: a unit 0 instruction writes the result of the table to sd, and divisions take 36 cycles; s0 discards it
(RegistersAndFieldsArePut); nothing else changes but time. -/
def Obligations.ScalarRegisterForms : Prop :=
  ∀ (sd sa sb : SReg) (s : State),
    let gives := fun (i : Instr) (f : W64 → W64 → W64) (extra : Nat) =>
      Issues i s → Completes i s (s.modCore fun x => x.setS sd (f (x.getS sa) (x.getS sb))) extra
    gives (.add sd sa sb) (fun a b => a + b) 0 ∧
    gives (.sub sd sa sb) (fun a b => a - b) 0 ∧
    gives (.mul sd sa sb) (fun a b => a * b) 0 ∧
    gives (.mulh sd sa sb) (fun a b => BitVec.ofInt 64 (a.toInt * b.toInt / 2 ^ 64)) 0 ∧
    gives (.and sd sa sb) (fun a b => a &&& b) 0 ∧
    gives (.or sd sa sb) (fun a b => a ||| b) 0 ∧
    gives (.xor sd sa sb) (fun a b => a ^^^ b) 0 ∧
    gives (.shl sd sa sb) (fun a b => a <<< (b.toNat % 64)) 0 ∧
    gives (.shr sd sa sb) (fun a b => a >>> (b.toNat % 64)) 0 ∧
    gives (.sar sd sa sb) (fun a b => a.sshiftRight (b.toNat % 64)) 0 ∧
    gives (.min sd sa sb) (fun a b => if a.toInt ≤ b.toInt then a else b) 0 ∧
    gives (.max sd sa sb) (fun a b => if b.toInt ≤ a.toInt then a else b) 0 ∧
    gives (.minu sd sa sb) (fun a b => if a.toNat ≤ b.toNat then a else b) 0 ∧
    gives (.maxu sd sa sb) (fun a b => if b.toNat ≤ a.toNat then a else b) 0 ∧
    gives (.slt sd sa sb) (fun a b => if a.toInt < b.toInt then 1 else 0) 0 ∧
    gives (.sltu sd sa sb) (fun a b => if a.toNat < b.toNat then 1 else 0) 0 ∧
    (s.core.getS sb ≠ 0 →
      gives (.div sd sa sb) (fun a b => BitVec.ofInt 64 (a.toInt.tdiv b.toInt)) 35 ∧
      gives (.divu sd sa sb) (fun a b => BitVec.ofNat 64 (a.toNat / b.toNat)) 35 ∧
      gives (.rem sd sa sb) (fun a b => a - b * BitVec.ofInt 64 (a.toInt.tdiv b.toInt)) 35 ∧
      gives (.remu sd sa sb) (fun a b => a - b * BitVec.ofNat 64 (a.toNat / b.toNat)) 35)

/-- R137: division by zero, and the most negative number by −1, trap nothing and give the results of the table. -/
def Obligations.DivisionCorners : Prop :=
  ∀ (sd sa sb : SReg) (s : State),
    let gives := fun (i : Instr) (v : W64) => Issues i s → Completes i s (s.modCore fun x => x.setS sd v) 35
    (s.core.getS sb = 0 →
      gives (.div sd sa sb) (BitVec.allOnes 64) ∧ gives (.divu sd sa sb) (BitVec.allOnes 64) ∧
      gives (.rem sd sa sb) (s.core.getS sa) ∧ gives (.remu sd sa sb) (s.core.getS sa)) ∧
    (s.core.getS sa = BitVec.intMin 64 → s.core.getS sb = BitVec.allOnes 64 →
      gives (.div sd sa sb) (BitVec.intMin 64) ∧ gives (.rem sd sa sb) 0 ∧
      gives (.divu sd sa sb) 0 ∧ gives (.remu sd sa sb) (BitVec.intMin 64))

/-- R138, R139, R141: an immediate form computes its unit 0 counterpart with the immediate for b; LI writes it; MKA keeps the
offset and replaces the home.
R140, R136: BFX and BFI bit by bit for every field that lies within 64 bits; CLZ counts the zeros above the highest one, and
POPC the ones. -/
def Obligations.ScalarImmediatesAndBitFields : Prop :=
  (∀ (sd sa : SReg) (imm : W64) (n : BitVec 6) (home : BitVec 7) (s : State),
    let gives := fun (i : Instr) (f : W64 → W64) =>
      Issues i s → Completes i s (s.modCore fun x => x.setS sd (f (x.getS sa))) 0
    gives (.addi sd sa imm) (fun a => a + imm) ∧
    gives (.muli sd sa imm) (fun a => a * imm) ∧
    gives (.andi sd sa imm) (fun a => a &&& imm) ∧
    gives (.ori sd sa imm) (fun a => a ||| imm) ∧
    gives (.xori sd sa imm) (fun a => a ^^^ imm) ∧
    gives (.slti sd sa imm) (fun a => if a.toInt < imm.toInt then 1 else 0) ∧
    gives (.sltiu sd sa imm) (fun a => if a.toNat < imm.toNat then 1 else 0) ∧
    gives (.li sd imm) (fun _ => imm) ∧
    gives (.shli sd sa n) (fun a => a <<< n.toNat) ∧
    gives (.shri sd sa n) (fun a => a >>> n.toNat) ∧
    gives (.sari sd sa n) (fun a => a.sshiftRight n.toNat) ∧
    gives (.mka sd sa home) (fun a => home ++ a.extractLsb' 0 57)) ∧
  (∀ (sd sa : SReg) (s : State),
    let a := s.core.getS sa
    let gives := fun (i : Instr) (v : W64) => Issues i s → Completes i s (s.modCore fun x => x.setS sd v) 0
    (∀ pos lenM1 : BitVec 6, pos.toNat + lenM1.toNat + 1 ≤ 64 →
      (∃ v : W64, (∀ j, j < 64 → v.getLsbD j = (decide (j ≤ lenM1.toNat) && a.getLsbD (pos.toNat + j))) ∧
        gives (.bfx sd sa pos lenM1) v) ∧
      (∃ v : W64, (∀ j, j < 64 → v.getLsbD j =
          if pos.toNat ≤ j ∧ j ≤ pos.toNat + lenM1.toNat then a.getLsbD (j - pos.toNat) else (s.core.getS sd).getLsbD j) ∧
        gives (.bfi sd sa pos lenM1) v)) ∧
    (∃ n, n ≤ 64 ∧ (∀ j, j < 64 → 64 - n ≤ j → a.getLsbD j = false) ∧ (n < 64 → a.getLsbD (63 - n) = true) ∧
      gives (.clz sd sa) (BitVec.ofNat 64 n)) ∧
    gives (.popc sd sa) (BitVec.ofNat 64 ((List.range 64).countP fun j => a.getLsbD j)))

/-! ### Control flow (R80–R86) -/

/-- R80, R38, R83: a branch whose condition holds goes to its target, which lies outside a captured body, and two more cycles pass;
otherwise control goes on. No register changes but the program counter; leaving a body ends its loop (R86).
R32: the conditions of branches and QSET. -/
def Obligations.BranchesTakenAndNot : Prop :=
  (∀ (c : Cond) (q : QReg) (sa sb : SReg) (off : W32) (s : State),
    let dst := s.core.ipc + off.signExtend 64 * 8
    let goes := fun (i : Instr) (pc : W64) => Issues i s → (∀ l, s.core.loop = some l → l.inside pc = false) → Branches i s s pc 2
    let stays := fun (i : Instr) => Issues i s → Completes i s s 0
    (condHolds c (s.core.getS sa) (s.core.getS sb) = true → goes (.br c sa sb off) dst) ∧
    (condHolds c (s.core.getS sa) (s.core.getS sb) = false → stays (.br c sa sb off)) ∧
    (s.core.getQ q = true → goes (.bqT q off) dst ∧ stays (.bqF q off)) ∧
    (s.core.getQ q = false → goes (.bqF q off) dst ∧ stays (.bqT q off)) ∧
    goes (.jmp off) dst ∧
    ((s.core.getS sa).toNat % 8 = 0 → goes (.jmpr sa) (s.core.getS sa)) ∧
    ((s.core.getS sa).toNat % 8 ≠ 0 → Issues (.jmpr sa) s → Traps (.jmpr sa) s .progAlign (s.core.getS sa) 0)) ∧
  (∀ a b : W64,
    (condHolds .eq a b = true ↔ a = b) ∧ (condHolds .ne a b = true ↔ a ≠ b) ∧
    (condHolds .lt a b = true ↔ a.toInt < b.toInt) ∧ (condHolds .ge a b = true ↔ b.toInt ≤ a.toInt) ∧
    (condHolds .ltu a b = true ↔ a.toNat < b.toNat) ∧ (condHolds .geu a b = true ↔ b.toNat ≤ a.toNat) ∧
    (condHolds .le a b = true ↔ a.toInt ≤ b.toInt) ∧ (condHolds .gt a b = true ↔ b.toInt < a.toInt) ∧
    (condHolds .leu a b = true ↔ a.toNat ≤ b.toNat) ∧ (condHolds .gtu a b = true ↔ b.toNat < a.toNat) ∧
    (condHolds .any a b = true ↔ ∃ j, j < 64 ∧ a.getLsbD j = true ∧ b.getLsbD j = true) ∧
    (condHolds .none a b = true ↔ ∀ j, j < 64 → a.getLsbD j = true → b.getLsbD j = false))

/-- R81: QSET writes its condition to the predicate; q0 stays true. -/
def Obligations.QsetWritesPredicate : Prop :=
  ∀ (c : Cond) (q : QReg) (sa sb : SReg) (s : State), Issues (.qset c q sa sb) s →
    ∃ y : Slot, y = { s.core with q := y.q } ∧
      (∀ r : QReg, y.getQ r = if r = q ∧ r ≠ 0 then condHolds c (s.core.getS sa) (s.core.getS sb) else s.core.getQ r) ∧
      Completes (.qset c q sa sb) s (s.modCore fun _ => y) 0

/-- R82, R83: outside a loop, a call pushes the address after it and goes to its target, and a return pops the newest entry;
with 16 entries the oldest is stored below sp, and with none the entry at sp returns. -/
def Obligations.CallsAndReturns : Prop :=
  ∀ (sa : SReg) (off : W32) (s : State), s.core.loop = none →
    let x := s.core
    let half := halfKey s.cur (s.run s.cur)
    let sp := x.getS spReg
    let inStack := fun a : W64 => 0x400000 - hdrStack x.header ≤ a.toNat ∧ a.toNat < 0x400000
    let calls := fun (i : Instr) (tgt : W64) => Issues i s →
      (x.ret.length < 16 → Branches i s (s.modCore fun x => { x with ret := x.npc :: x.ret }) tgt 2) ∧
      (16 ≤ x.ret.length → sp.toNat % 8 = 0 → inStack (sp - 8) → x.rss ≠ 0xFFFFFFFF →
        Branches i s ((s.writeMem (half + (sp - 8).toNat) 8 (x.ret.getLastD 0).toNat).modCore fun x =>
          { x.setS spReg (sp - 8) with rss := x.rss + 1, ret := x.npc :: x.ret.take 15 }) tgt 3) ∧
      (16 ≤ x.ret.length → ¬(sp.toNat % 8 = 0 ∧ inStack (sp - 8) ∧ x.rss ≠ 0xFFFFFFFF) → Traps i s .progStack (sp - 8) 0)
    calls (.call off) (x.ipc + off.signExtend 64 * 8) ∧
    ((x.getS sa).toNat % 8 = 0 → calls (.callr sa) (x.getS sa)) ∧
    ((x.getS sa).toNat % 8 ≠ 0 → Issues (.callr sa) s → Traps (.callr sa) s .progAlign (x.getS sa) 0) ∧
    (Issues .ret s →
      (∀ t r, x.ret = t :: r → t.toNat % 8 = 0 → Branches .ret s (s.modCore fun x => { x with ret := r }) t 2) ∧
      (∀ t r, x.ret = t :: r → t.toNat % 8 ≠ 0 → Traps .ret s .progAlign t 0) ∧
      (x.ret = [] → x.rss = 0 → Traps .ret s .progStack 0 0) ∧
      (x.ret = [] → x.rss ≠ 0 → ¬(sp.toNat % 8 = 0 ∧ inStack sp) → Traps .ret s .progStack sp 0) ∧
      (x.ret = [] → x.rss ≠ 0 → sp.toNat % 8 = 0 → inStack sp → s.isPoisoned (half + sp.toNat) 8 = false →
        s.readMem (half + sp.toNat) 8 % 8 = 0 →
        Branches .ret s (s.modCore fun x => { x.setS spReg (sp + 8) with rss := x.rss - 1 })
          (BitVec.ofNat 64 (s.readMem (half + sp.toNat) 8)) 6))

/-- R84: a loop of no iterations passes over its body; any other captures the words of its body, which its core fetches from its
own half, and sets LC, and LOOP.P the predicates.
R84, R85: the end of an iteration: LC falls to zero at least; LOOP.P turns RB back and shifts the predicates, with q1 saying that
iterations remain; at zero the loop ends at the address after its body, and otherwise the body begins again.
R86: in a captured body a call, a return or a loop traps before any check of its own, and so does a taken branch whose target
lies in the body. -/
def Obligations.LoopsRepeatTheirBodies : Prop :=
  (∀ (sa : SReg) (len : BitVec 7) (count : BitVec 24) (epi : BitVec 3) (s : State), s.core.loop = none →
    let x := s.core
    let after := x.npc + BitVec.ofNat 64 (8 * len.toNat)
    let begins := fun (i : Instr) (n : W64) (e : Nat) (piped : Bool) => Issues i s →
      (n = 0 → Branches i s (s.modCore fun x => { x with lc := 0 }) after 0) ∧
      (n ≠ 0 → 2 ^ 64 ≤ n.toNat + e → Traps i s .progLoop 0 0) ∧
      (n ≠ 0 → n.toNat + e < 2 ^ 64 → ∀ ws : List W64, ws.length = len.toNat →
        (∀ j, j < ws.length → s.fetchWord s.cur (s.run s.cur) (x.npc + BitVec.ofNat 64 (8 * j)) = (.ok (ws.getD j 0), s)) →
        (ws.getLast?.any isPfx = false) →
        Completes i s (s.modCore fun x => { x with
          loop := some ⟨ws, after, e, piped⟩
          lc := n + BitVec.ofNat 64 e
          q := if piped then 0b11 else x.q }) 0)
    begins (.loop sa len) (x.getS sa) 0 false ∧
    begins (.loopi count len) (count.setWidth 64) 0 false ∧
    begins (.loopP sa len epi) (x.getS sa) epi.toNat true) ∧
  (∀ (x : Slot) (l : LoopSt), x.loop = some l → x.npc = l.after →
    let lc := if x.lc = 0 then 0 else x.lc - 1
    x.advance.lc = lc ∧
    x.advance.rb = (if l.piped then x.rb - 1 else x.rb) ∧
    (∀ r : QReg, x.advance.getQ r =
      if l.piped = false then x.getQ r
      else if r = 0 then true else if r = 1 then decide (l.epi < lc.toNat) else x.getQ (r - 1)) ∧
    (lc = 0 → x.advance.loop = none ∧ x.advance.pc = l.after) ∧
    (lc ≠ 0 → x.advance.loop = some l ∧ x.advance.pc = l.after - BitVec.ofNat 64 (8 * l.words.length)) ∧
    x.advance = { x with lc := x.advance.lc, rb := x.advance.rb, q := x.advance.q, loop := x.advance.loop, pc := x.advance.pc }) ∧
  (∀ (i : Instr) (sa sb : SReg) (c : Cond) (q : QReg) (off : W32) (len : BitVec 7) (epi : BitVec 3) (count : BitVec 24) (l : LoopSt)
    (s : State), s.core.loop = some l →
    (i ∈ [.call off, .callr sa, .ret, .loop sa len, .loopP sa len epi, .loopi count len] →
      s.canIssue = true → s.interlocked s.cur (s.run s.cur) (named i) = false → s.core.early s.issueCyc i = false →
      Traps i s .progLoop 0 0) ∧
    (l.inside (s.core.ipc + off.signExtend 64 * 8) = true →
      (Issues (.jmp off) s → Traps (.jmp off) s .progLoop 0 0) ∧
      (condHolds c (s.core.getS sa) (s.core.getS sb) = true → Issues (.br c sa sb off) s → Traps (.br c sa sb off) s .progLoop 0 0) ∧
      (s.core.getQ q = true → Issues (.bqT q off) s → Traps (.bqT q off) s .progLoop 0 0) ∧
      (s.core.getQ q = false → Issues (.bqF q off) s → Traps (.bqF q off) s .progLoop 0 0)) ∧
    (l.inside (s.core.getS sa) = true → (s.core.getS sa).toNat % 8 = 0 → Issues (.jmpr sa) s → Traps (.jmpr sa) s .progLoop 0 0))

/-! ### Loads, stores and atomics (R230–R234, R253, R259–R266) -/

/-- R262, R260, R146, R135: a load from the core's own half writes the bytes at s[base] + disp, zero- or sign-extended, and HLD the
32 bytes of a handle; nothing else changes but time. -/
def Obligations.OwnHalfLoads : Prop :=
  ∀ (z : Size) (o : Ord) (sd base : SReg) (hd : HReg) (disp : W64) (s : State),
    let va := s.core.getS base + disp
    let k := halfKey s.cur (s.run s.cur) + offBits va
    homeBits va = 0 → s.mayAccess o va →
    let reads := fun n => offBits va + n ≤ 0x400000 ∧ inGap s.core.header (offBits va) n = false ∧ s.isPoisoned k n = false
    (∀ n, n = sizeBytes z → reads n → (offBits va % n = 0 ∨ offBits va % 64 + n ≤ 64) →
      (Issues (.ld z o sd base disp) s →
        Completes (.ld z o sd base disp) s (s.modCore fun x => x.setS sd (BitVec.ofNat 64 (s.readMem k n))) 0) ∧
      (Issues (.lds z o sd base disp) s →
        Completes (.lds z o sd base disp) s (s.modCore fun x => x.setS sd
          (BitVec.ofInt 64 (if 2 * s.readMem k n < 256 ^ n then s.readMem k n else s.readMem k n - 256 ^ n))) 0)) ∧
    (reads 32 → offBits va % 32 = 0 → Issues (.hld hd base disp) s →
      Completes (.hld hd base disp) s (s.modCore fun x => x.setH hd (BitVec.ofNat 256 (s.readMem k 32))) 0)

/-- R262, R146: a store to the core's own half writes the low bytes of its register, and HST its handle, at s[base] + disp, and no
other byte of memory. -/
def Obligations.OwnHalfStores : Prop :=
  ∀ (z : Size) (o : Ord) (sd base : SReg) (ha : HReg) (disp : W64) (s : State),
    let va := s.core.getS base + disp
    let k := halfKey s.cur (s.run s.cur) + offBits va
    homeBits va = 0 → s.mayAccess o va → s.Safe →
    let writes := fun (i : Instr) (n v : Nat) =>
      offBits va + n ≤ 0x400000 → inGap s.core.header (offBits va) n = false → Issues i s →
      Completes i s (s.writeMem k n v) 0 ∧ (s.writeMem k n v).readMem k n = v % 256 ^ n ∧
      ∀ a, a < k ∨ k + n ≤ a → memGet (s.writeMem k n v).mem a = memGet s.mem a
    (∀ n, n = sizeBytes z → (offBits va % n = 0 ∨ offBits va % 64 + n ≤ 64) →
      writes (.st z o sd base disp) n (s.core.getS sd).toNat) ∧
    (offBits va % 32 = 0 → writes (.hst ha base disp) 32 (s.core.getH ha).toNat)

/-- R259, R260, R265, R231: an access is checked in this order: alignment, then the home and offset (an atomic reaches shared memory
alone), then the gap of home 0x00. Nothing happens but the first failing check's fault.
R261–R263, R266: an access of another home is handed over with its operand, and the core is held for the reply; it waits at
issue while there is no room, or while a release waits. -/
def Obligations.AccessesThatTrapOrLeave : Prop :=
  (∀ (z : Size) (o : Ord) (f : Bool) (sd base : SReg) (h : HReg) (disp : W64) (s : State),
    let va := s.core.getS base + disp
    let n := sizeBytes z
    let plain := [Instr.ld z o sd base disp, .lds z o sd base disp, .st z o sd base disp]
    let atomics := [Instr.aadd z o f sd base disp, .aand z o f sd base disp, .aor z o f sd base disp, .axor z o f sd base disp,
      .amin z o f sd base disp, .amax z o f sd base disp, .aminu z o f sd base disp, .amaxu z o f sd base disp,
      .afadd z o f sd base disp, .afmin z o f sd base disp, .afmax z o f sd base disp, .aswp z o f sd base disp,
      .acas z o f sd base disp]
    let reserved := (homeBits va = 0 ∧ 0x400000 ≤ offBits va) ∨ (4 < homeBits va ∧ homeBits va < 0x10) ∨
      (0x10 < homeBits va ∧ homeBits va < 0x20) ∨ (0x20 < homeBits va ∧ homeBits va < 0x40)
    ∀ i, Issues i s →
      (i ∈ plain → windowCell va = none → offBits va % n ≠ 0 → 64 < offBits va % 64 + n → Traps i s .progAlign va 0) ∧
      (i ∈ plain → offBits va % n = 0 → reserved → Traps i s .progAddr va 0) ∧
      (i ∈ plain → homeBits va = 0 → offBits va % n = 0 → offBits va + n ≤ 0x400000 → inGap s.core.header (offBits va) n = true →
        Traps i s .progResource va 0) ∧
      (i ∈ atomics → offBits va % n ≠ 0 → Traps i s .progAlign va 0) ∧
      (i ∈ atomics → offBits va % n = 0 →
        (reserved ∨ homeBits va = 0 ∨ homeBits va = 0x10 ∨ homeBits va = 0x20 ∨ (homeBits va ≤ 4 ∧ 0x8000000 ≤ offBits va)) →
        Traps i s .progAddr va 0) ∧
      (i = .hld h base disp ∨ i = .hst h base disp → offBits va % 32 ≠ 0 → Traps i s .progAlign va 0)) ∧
  (∀ (z : Size) (o : Ord) (f : Bool) (sd base : SReg) (h : HReg) (disp : W64) (s : State),
    let va := s.core.getS base + disp
    let v := s.core.getS sd
    let hands := fun (i : Instr) (op : AccOp) (n : Nat) (o : Ord) (data : W256) (atomic : Bool) =>
      homeBits va ≠ 0 → offBits va % n = 0 → s.tileCheck s.core.header s.core.part va n op.writes atomic = none → Issues i s →
      (s.mayAccess o va → Waits i s (s.handsOver op n o [{ lane := 0, va := va, data := data }])) ∧
      (¬ s.mayAccess o va → Waits i s s)
    let atomic := fun (i : Instr) (c : Nat) (data : W64) => hands i (.atomic c f sd v) (sizeBytes z) o (data.setWidth 256) true
    hands (.ld z o sd base disp) (.load false sd) (sizeBytes z) o 0 false ∧
    hands (.lds z o sd base disp) (.load true sd) (sizeBytes z) o 0 false ∧
    hands (.st z o sd base disp) .store (sizeBytes z) o (v.setWidth 256) false ∧
    hands (.hld h base disp) (.hload h) 32 .plain 0 false ∧
    hands (.hst h base disp) .hstore 32 .plain (s.core.getH h) false ∧
    atomic (.aadd z o f sd base disp) 0x03 v ∧ atomic (.aand z o f sd base disp) 0x04 v ∧
    atomic (.aor z o f sd base disp) 0x05 v ∧ atomic (.axor z o f sd base disp) 0x06 v ∧
    atomic (.amin z o f sd base disp) 0x07 v ∧ atomic (.amax z o f sd base disp) 0x08 v ∧
    atomic (.aminu z o f sd base disp) 0x09 v ∧ atomic (.amaxu z o f sd base disp) 0x0A v ∧
    atomic (.afadd z o f sd base disp) 0x0B v ∧ atomic (.afmin z o f sd base disp) 0x0C v ∧
    atomic (.afmax z o f sd base disp) 0x0D v ∧ atomic (.aswp z o f sd base disp) 0x0E v ∧
    atomic (.acas z o f sd base disp) 0x0F (s.core.getS (sd + 1)))

/-- R253, R264, R266: the bank unit performs an accepted atomic as one step: the element takes the new value of the table, the
access keeps the old one, and no other byte of memory changes. -/
def Obligations.BankAtomicsPerform : Prop :=
  ∀ (t i c : Nat) (f : Bool) (sd : SReg) (cmp : W64) (a : Access) (e : Elem) (k : Nat) (s : State),
    let b := s.run t
    let n := a.size
    let old := s.readMem k n
    let op := e.data.toNat % 256 ^ n
    let signed := fun v : Nat => if 2 * v < 256 ^ n then (v : Int) else v - 256 ^ n
    (s.slot t b).accs[i]? = some a → a.op = .atomic c f sd cmp → a.elems = [e] → e.loc = some (.mem k) → (n = 2 ∨ n = 4 ∨ n = 8) →
    mayPerform (s.slot t b).accs i 0 = true → s.isPoisoned k n = false → s.Safe →
    ∃ u, exec (.bankAtomic t i) s = .next u ∧ (∀ m, m < k ∨ k + n ≤ m → memGet u.mem m = memGet s.mem m) ∧
      (f = true → (u.slot t b).accs[i]? = some { a with elems := [{ e with data := BitVec.ofNat 256 old, done := true, poisoned := false }] }) ∧
      (f = false → (u.slot t b).accs = (s.slot t b).accs.eraseIdx i) ∧
      (∀ r, (u.slot t b).getS r = (s.slot t b).getS r) ∧
      (n = 2 → c = 0x0B → u.readMem k n = (bf16Add (BitVec.ofNat 16 old) (BitVec.ofNat 16 op)).toNat) ∧
      (n ≠ 2 →
        (c = 0x03 → u.readMem k n = (old + op) % 256 ^ n) ∧
        (c = 0x04 → u.readMem k n = old &&& op) ∧ (c = 0x05 → u.readMem k n = old ||| op) ∧
        (c = 0x06 → u.readMem k n = old ^^^ op) ∧
        (c = 0x07 → u.readMem k n = if signed old ≤ signed op then old else op) ∧
        (c = 0x08 → u.readMem k n = if signed op ≤ signed old then old else op) ∧
        (c = 0x09 → u.readMem k n = if old ≤ op then old else op) ∧ (c = 0x0A → u.readMem k n = if op ≤ old then old else op) ∧
        (c = 0x0E → u.readMem k n = op) ∧
        (c = 0x0F → u.readMem k n = if old = cmp.toNat % 256 ^ n then op else old) ∧
        (n = 4 → (c = 0x0B → u.readMem k n = (f32Add .rne (BitVec.ofNat 32 old) (BitVec.ofNat 32 op)).toNat) ∧
          (c = 0x0C → u.readMem k n = (f32Min (BitVec.ofNat 32 old) (BitVec.ofNat 32 op)).toNat) ∧
          (c = 0x0D → u.readMem k n = (f32Max (BitVec.ofNat 32 old) (BitVec.ofNat 32 op)).toNat)))

/-- R261, R259, R307: the reply of a home of shared memory to an access of one element: accepted, it holds its place there and the
core goes on, or waits for an acquire's performance; refused, it is gone and the group has trapped. -/
def Obligations.RepliesAcceptOrRefuse : Prop :=
  ∀ (t : Nat) (a : Access) (e : Elem) (home off : Nat) (s : State),
    let b := s.run t
    let x := s.slot t b
    x.hold = .reply → x.accs.getLast? = some a → a.elems = [e] → spaceOf e.va = .shared home off →
    (∀ l u, s.homeAccept t b x.part e.va a.size = (.ok l, u) → u.readsPoison a.op a.size { e with loc := some l } = false →
      exec (.accessReply t none) s = .next (u.modSlot t b fun y =>
        let y := { y with accs := y.accs.dropLast ++ [{ a with accepted := true, elems := [{ e with loc := some l }] }] }
        if acquires a.ord then { y with hold := .perf } else y.release)) ∧
    (∀ f u, a.op ≠ .vstore → (∀ ty vd r, a.op ≠ .vload ty vd r) → s.homeAccept t b x.part e.va a.size = (.fault f, u) →
      exec (.accessReply t none) s = .next (u.modSlot t b fun y => ({ y with accs := y.accs.dropLast } : Slot).trap f e.va 0))

/-- R240, R243, R262: an accepted load is performed by reading its bytes, and its destination is written when the data returns; an
accepted store is performed by writing its bytes alone, and is then complete. -/
def Obligations.AccessesArePerformed : Prop :=
  ∀ (t i k : Nat) (a : Access) (e : Elem) (s : State),
    let b := s.run t
    let accs := (s.slot t b).accs
    accs[i]? = some a → a.elems = [e] → s.Safe →
    (e.loc = some (.mem k) → mayPerform accs i 0 = true → a.op = .store → e.poisoned = false →
      ∃ u, exec (.sharedMemoryAccess t i 0) s = .next u ∧ u.readMem k a.size = e.data.toNat % 256 ^ a.size ∧
        (∀ m, m < k ∨ k + a.size ≤ m → memGet u.mem m = memGet s.mem m) ∧ (u.slot t b).accs = accs.eraseIdx i) ∧
    (e.loc = some (.mem k) → mayPerform accs i 0 = true → (∃ sgn sd, a.op = .load sgn sd) →
      exec (.sharedMemoryAccess t i 0) s = .next (s.modSlot t b fun x => { x with accs := x.accs.set i { a with elems :=
        [{ e with data := BitVec.ofNat 256 (s.readMem k a.size), done := true, poisoned := s.isPoisoned k a.size }] } })) ∧
    (∀ sgn sd, a.op = .load sgn sd → a.accepted = true → e.done = true → e.poisoned = false → isPeerLoc e.loc = false →
      exec (.loadDataReturn t i []) s = .next (s.modSlot t b fun x =>
        (x.setS sd (extendTo sgn a.size e.data)).closeAccess i)) ∧
    (∀ sgn sd, a.op = .load sgn sd → a.accepted = true → e.done = true → e.poisoned = true → isPeerLoc e.loc = false →
      (s.slot t b).stopsForGood = false →
      exec (.loadDataReturn t i []) s = .next (s.modSlot t b fun x => ({ x with accs := x.accs.eraseIdx i } : Slot).takeFault
        { name := .hwPoison, src := 0, addr := e.va, detail := BitVec.ofNat 64 e.lane, ip := a.ip, words := a.words, resume := x.pc }))

/-- R234, R250: an access of a core to the window of a cell that its partition owns: a load reads the cell's word, and a store sets
the cell, signals it or arrives at it, by its place; of a cell owned by no one or by another it traps ISO.WINDOW. -/
def Obligations.CellWindowsAreRegisters : Prop :=
  ∀ (t ct c sub : Nat) (a : Access) (e : Elem) (s : State),
    let b := s.run t
    let x := s.slot t b
    x.hold = .reply → x.accs.getLast? = some a → a.elems = [e] → spaceOf e.va = .cell ct c sub →
    let gone := fun y : Slot => ({ y with accs := y.accs.dropLast } : Slot)
    let v := e.data.extractLsb' 0 32
    ((s.cell ct c).ownedBy x.part = false →
      exec (.cellWindowAccess t) s = .next (s.modSlot t b fun y => (gone y).trap .isoWindow e.va 0)) ∧
    ((s.cell ct c).ownedBy x.part = true → a.op = .store →
      let r := if sub = 0 then (s.cell ct c).cset v else if sub = 8 then (s.cell ct c).sig v else (s.cell ct c).arrive
      (∀ y, r = .ok y → exec (.cellWindowAccess t) s = .next ((s.putCell ct c y).modSlot t b fun z => (gone z).release)) ∧
      (∀ f, r = .error f → exec (.cellWindowAccess t) s = .next (s.modSlot t b fun y => (gone y).trap f e.va (s.cell ct c).detail))) ∧
    (∀ sd, (s.cell ct c).ownedBy x.part = true → a.op = .load false sd → a.size = 8 → (∀ w ∈ (s.tile ct).waiters, w.cell ≠ c) →
      exec (.cellWindowAccess t) s = .next (s.modSlot t b fun y => ((gone y).setS sd (s.cell ct c).word).release))

/-! ### Cells (R88–R96, R234) -/

/-- R89, R90: a cell of the tile that the partition owns becomes what its mode and the instruction give, or the group traps with its
ceiling and count; of a cell that it does not own, ISO.WINDOW.
R89, R91: on a tile where nothing else waits, CRD reads the cell's word; WAIT and TAKE end with 0 once their need is met, TAKE
and TRYTAKE with what they take gone from the cell; TRYTAKE answers 1 or 0 at once; an unmet WAIT or TAKE holds the core with its
limit, and the cell stands; a take from a barrier traps. -/
def Obligations.OwnCellsAnswer : Prop :=
  (∀ (o : Ord) (c : CellNo) (v : W32) (sa : SReg) (s : State),
    let x := s.cell s.cur c.toNat
    let w := s.core.getS sa
    let free := releases o = true → s.releaseWaits s.cur (s.run s.cur) (some (s.cur, c.toNat)) = false
    let becomes := fun (i : Instr) (y : Cell) => Issues i s → free → Completes i s (s.putCell s.cur c.toNat y) 0
    let traps := fun (i : Instr) (f : FaultName) => Issues i s → free → Traps i s f (cellAddr s.cur c.toNat) x.detail
    let sig := Instr.sig o (.own c) v
    let arrive := Instr.arrive o (.own c)
    let cset := Instr.cset o (.own c) v
    let ccfg := Instr.ccfg sa (.own c)
    let mode : BitVec 2 := w.extractLsb' 62 2
    let a : BitVec 30 := w.extractLsb' 32 30
    (x.ownedBy s.core.part = true →
      (v = 0 → becomes sig x) ∧
      (x.mode = 0 →
        (x.count.toNat + v.toNat ≤ x.ceil.toNat → becomes sig { x with count := x.count + v }) ∧
        (v ≠ 0 → x.ceil.toNat < x.count.toNat + v.toNat → traps sig .progCeil) ∧
        (v.toNat ≤ x.ceil.toNat → becomes cset { x with count := v }) ∧ (x.ceil.toNat < v.toNat → traps cset .progCeil)) ∧
      (x.mode = 1 →
        (v &&& ~~~x.ceil = 0 → becomes sig { x with count := x.count ||| v } ∧ becomes cset { x with count := v }) ∧
        (v &&& ~~~x.ceil ≠ 0 → traps sig .progCeil ∧ traps cset .progCeil)) ∧
      (x.mode = 2 →
        (x.count.toNat + v.toNat < x.a.toNat → becomes sig { x with count := x.count + v }) ∧
        (v ≠ 0 → x.count.toNat + v.toNat = x.a.toNat → becomes sig { x with count := 0, phase := !x.phase }) ∧
        (v ≠ 0 → x.a.toNat < x.count.toNat + v.toNat → traps sig .progCeil) ∧
        (x.count.toNat + 1 < x.a.toNat → becomes arrive { x with count := x.count + 1 }) ∧
        (x.count.toNat + 1 = x.a.toNat → becomes arrive { x with count := 0, phase := !x.phase }) ∧
        (x.a.toNat < x.count.toNat + 1 → traps arrive .progCeil) ∧
        (v.toNat < x.a.toNat → becomes cset { x with count := v }) ∧ (x.a.toNat ≤ v.toNat → traps cset .progCeil)) ∧
      (x.mode ≠ 2 → traps arrive .progCellmode) ∧
      ((mode ≠ 3 ∧ (mode = 2 ↔ a ≠ 0)) →
        becomes ccfg { x with mode := mode, a := a, ceil := w.extractLsb' 0 32, count := 0, phase := false }) ∧
      (¬(mode ≠ 3 ∧ (mode = 2 ↔ a ≠ 0)) → traps ccfg .progCellcfg) ∧
      becomes (.cclr (.own c)) { x with count := 0, phase := false }) ∧
    (x.ownedBy s.core.part = false → ∀ i ∈ [sig, arrive, cset, ccfg, .cclr (.own c)], Issues i s → free →
      Traps i s .isoWindow (cellAddr s.cur c.toNat) 0)) ∧
  (∀ (t : Test) (o : Ord) (sd lim : SReg) (c : CellNo) (v : W32) (s : State),
    let x := s.cell s.cur c.toNat
    let limit := if lim = 0 then none else some (s.core.getS lim).toNat
    let held := fun (i : Instr) => Issues i s → ∃ u, exec i s = .next u ∧ u.core.hold = .wait sd limit ∧ u.core.pc = s.core.pc ∧
      (∀ r, u.core.getS r = s.core.getS r) ∧ u.cell s.cur c.toNat = x ∧ u.mem = s.mem
    let gives := fun (i : Instr) (y : Cell) (r : W64) => Issues i s →
      Completes i s ((s.putCell s.cur c.toNat y).modCore fun z => z.setS sd r) 0
    let answers := fun (i : Instr) (r : W64) => Issues i s → Completes i s (s.modCore fun z => z.setS sd r) 0
    let takes := fun (y : Cell) => gives (.take o sd lim (.own c) v) y 0 ∧ gives (.trytake o sd (.own c) v) y 1
    let fails := held (.take o sd lim (.own c) v) ∧ answers (.trytake o sd (.own c) v) 0
    (s.tile s.cur).waiters = [] → x.ownedBy s.core.part = true →
    answers (.crd o sd (.own c)) ((x.mode.setWidth 64 <<< 33) ||| ((if x.phase then 1 else 0 : W64) <<< 32) ||| x.count.setWidth 64) ∧
    (x.test t v = true → answers (.wait t o sd lim (.own c) v) 0) ∧ (x.test t v = false → held (.wait t o sd lim (.own c) v)) ∧
    (x.mode = 0 → (v.toNat ≤ x.count.toNat → takes { x with count := x.count - v }) ∧ (x.count.toNat < v.toNat → fails)) ∧
    (x.mode = 1 → (x.count &&& v = v → takes { x with count := x.count &&& ~~~v }) ∧ (x.count &&& v ≠ v → fails)) ∧
    (x.mode = 2 → ∀ i ∈ [Instr.take o sd lim (.own c) v, .trytake o sd (.own c) v], Issues i s →
      Traps i s .progCellmode (cellAddr s.cur c.toNat) x.detail))

/-- R93, R94, R29: an operation on the cell whose window address a scalar holds leaves as a request, a WAIT or TAKE with its limit,
and the core is held for the reply; an address that names no cell traps PROG.ADDR. -/
def Obligations.RemoteCellsAreAsked : Prop :=
  ∀ (t : Test) (o : Ord) (sd lim sa sb : SReg) (v : W32) (s : State),
    let va := s.core.getS sb
    let c := CellRef.remote sb
    let limit := if lim = 0 then none else some (s.core.getS lim).toNat
    let asks := fun (i : Instr) (u n : Nat) (op : CellOp) (once : Bool) (d : SReg) (l : Option Nat) => Issues i s →
      Waits i s (({ s with
        nextNum := s.nextNum + 1
        remotes := s.remotes ++ [{ id := s.nextNum, tile := s.cur, slot := s.run s.cur, part := s.core.part, target := u, cell := n,
                                   op := op, once := once, st := .sent, cancel := false }] } : State).modCore fun x =>
        { x with hold := .remote s.nextNum d l })
    (∀ u n, spaceOf va = .cell u n 0 →
      ((releases o = true → s.releaseWaits s.cur (s.run s.cur) (some (u, n)) = false) →
        asks (.sig o c v) u n (.sig v) false 0 none ∧ asks (.arrive o c) u n .arrive false 0 none ∧
        asks (.cset o c v) u n (.cset v) false 0 none) ∧
      asks (.ccfg sa c) u n (.ccfg (s.core.getS sa)) false 0 none ∧ asks (.cclr c) u n .cclr false 0 none ∧
      asks (.crd o sd c) u n .crd false sd none ∧ asks (.trytake o sd c v) u n (.tryTake v) true sd none ∧
      asks (.wait t o sd lim c v) u n (.wait t v) (limit == some 0) sd (limit.map (· + s.words)) ∧
      asks (.take o sd lim c v) u n (.take v) (limit == some 0) sd (limit.map (· + s.words))) ∧
    ((spaceOf va = .reserved ∨ spaceOf va = .config ∨ ∃ u n sub, spaceOf va = .cell u n sub ∧ sub ≠ 0) →
      ∀ i ∈ [Instr.sig o c v, .arrive o c, .cset o c v, .ccfg sa c, .cclr c, .crd o sd c, .trytake o sd c v, .wait t o sd lim c v,
        .take o sd lim c v], Issues i s → Traps i s .progAddr va 0)

/-- R92–R94: at its cell's tile a request is resolved, or refused with ISO.WINDOW, or waits; the reply writes its value and lets the
core go on, or traps; a waiter that alone waits on its cell is satisfied when its need is met; a limit that has passed ends a local
wait with 1 and sends the cancel of a remote one. -/
def Obligations.CellEventsHappen : Prop :=
  ∀ (s : State),
    (∀ (i : Nat) (m : Remote), s.remotes[i]? = some m → m.peer = none → m.st = .sent →
      let x := s.cell m.target m.cell
      let req := exec (.remoteCellRequest i) s
      (x.ownedBy m.part = false → req = .next (s.replyRemote m.id (.replied (some .isoWindow) 0 0))) ∧
      (x.ownedBy m.part = true →
        (m.op ≠ .crd → m.op.waits = false →
          (∀ y, x.change m.op = .ok y → req = .next ((s.putCell m.target m.cell y).replyRemote m.id (.replied none 0 0))) ∧
          (∀ f, x.change m.op = .error f → req = .next (s.replyRemote m.id (.replied (some f) 0 x.detail)))) ∧
        (m.op = .crd → (∀ w ∈ (s.tile m.target).waiters, w.cell ≠ m.cell) →
          req = .next (s.replyRemote m.id (.replied none x.word 0))) ∧
        (∀ t v, m.op = .wait t v → req = .next ((s.addWaiter m.target
          ⟨.remote m.id, m.cell, .test t v, (s.tile m.target).cyc, m.once⟩).replyRemote m.id .pending)))) ∧
    (∀ (i : Nat) (m : Remote) (sd : SReg) (l : Option Nat) (v d : W64), s.remotes[i]? = some m → m.origin = none →
      (s.slot m.tile m.slot).hold = .remote m.id sd l → (s.slot m.tile m.slot).st = .busy →
      let rest : State := { s with remotes := s.remotes.eraseIdx i }
      (m.st = .replied none v d →
        exec (.remoteCellReply i) s = .next (rest.modSlot m.tile m.slot fun x => (x.setS sd v).release)) ∧
      (∀ f, m.peer = none → m.st = .replied (some f) v d →
        exec (.remoteCellReply i) s = .next (rest.modSlot m.tile m.slot fun x => x.trap f (cellAddr m.target m.cell) d))) ∧
    (∀ (t : Nat) (c : CellNo) (w : Waiter) (sd : SReg) (l : Option Nat) (y : Cell),
      (s.tile t).waiters = [w] → w.cell = c.toNat → w.who = .core (s.run t) → (s.tile t).idle = false →
      (s.slot t (s.run t)).st = .busy → (s.slot t (s.run t)).hold = .wait sd l → (s.cell t c.toNat).meet w.need = some y →
      exec (.cellWaiterSatisfied t c) s =
        .next (((s.putCell t c.toNat y).dropWaiter t w.who).modSlot t (s.run t) fun x => (x.setS sd 0).release)) ∧
    (∀ (t : Nat) (sd : SReg) (id : Nat),
      ((s.slot t (s.run t)).hold = .wait sd (some 0) → exec (.waitLimitExpiry t) s =
        .next ((s.dropWaiter t (.core (s.run t))).modSlot t (s.run t) fun x => (x.setS sd 1).release)) ∧
      ((s.slot t (s.run t)).hold = .remote id sd (some 0) → exec (.waitLimitExpiry t) s =
        .next { s with remotes := s.remotes.map fun m => if m.id = id then { m with cancel := true } else m }))


/-! ### Tasks and dispatch (R60–R72, R79, R97–R102) -/

/-- R97–R102: SPAWN and SPAWNB read the record once the core's earlier accesses are performed and hand it to the die; PARK checks
the record's place; DONE, PARK and YIELD hold or stop their core; WIDF reads a field of the WID; a record that is not aligned traps. -/
def Obligations.TaskInstructions : Prop :=
  ∀ (sd sa : SReg) (disp : BitVec 36) (f : BitVec 3) (s : State),
    let x := s.core
    let a := x.getS sa + disp.signExtend 64
    let b := s.run s.cur
    let held := fun (i : Instr) (u : State) (h : Hold) => Issues i s → Waits i s (u.modCore fun x => { x with hold := h })
    (offBits a % 64 ≠ 0 → ∀ i ∈ [Instr.spawn sd sa disp, .spawnb sd sa disp, .park sd sa disp], Issues i s → Traps i s .progAlign a 0) ∧
    (offBits a % 64 = 0 →
      (∀ v u, (∀ c ∈ x.accs, c.pending = false) → s.readNow x.header s.cur b x.part a 64 = (.ok v, u) →
        let leaves := fun (via : Via) =>
          ({ u with arrivals := u.arrivals ++ [⟨via, x.part, dieOf s.cur, BitVec.ofNat 512 v, 0⟩] } : State)
        held (.spawn sd sa disp) (leaves (.spawn s.cur b sd)) (.spawn sd) ∧
        held (.spawnb sd sa disp) (leaves (.spawnb s.cur b sd)) (.spawn sd)) ∧
      (∀ k u, s.continuationKey s.cur b x.part a = (.ok k, u) → held (.park sd sa disp) u (.park sd a false))) ∧
    held (.taskDone sa) s (.done sa (x.getS sa) false) ∧
    (Issues .yield s → Waits .yield s (s.modCore fun x => { x with st := .stopping .yield })) ∧
    (∀ k, x.task = some k → Issues (.widf sd f) s →
      Completes (.widf sd f) s (s.modCore fun x => x.setS sd (widField k.header k.wid f.toNat)) 0)

/-- R99, R100: once its phase, queues and accesses are done, a task that DONE ends retires; with a record named, its join field falls
by one first, and at zero the continuation arrives; a PARK is refused while its partition is disabled or the level full, answers 2
for a record that is no continuation, and otherwise registers the continuation, decrements the join for the parent, and retires it. -/
def Obligations.TasksRetire : Prop :=
  ∀ (t : Nat) (sd sa : SReg) (addr : W64) (c : Bool) (s : State),
    let b := s.run t
    let x := s.slot t b
    let fin := exec (.doneRetire t) s
    let reg := exec (.parkRegister t) s
    x.drained = true →
    (x.hold = .done 0 addr c → fin = .next (s.retire t b)) ∧
    (∀ k u, s.continuationKey t b x.part addr = (.ok k, u) →
      (x.hold = .done sa addr c → sa ≠ 0 → offBits addr % 64 = 0 → u.isPoisoned (k + 28) 4 = false →
        let j := u.readMem (k + 28) 4
        (2 ≤ j → fin = .next ((u.writeMem (k + 28) 4 (j - 1)).retire t b)) ∧
        (j = 1 → fin = .next (((u.writeMem (k + 28) 4 0).joinZeroed x.part k).retire t b)) ∧
        (j = 0 → fin = .next ((u.infoRecord x.part (keyDie k) 0 false x.wid
          { name := .progJoin, src := 6, addr := addr, ip := addr }).retire t b))) ∧
      (x.hold = .park sd addr c → u.isPoisoned k 64 = false →
        let raw := u.recordAt k
        let l := recLevel (joinZero raw)
        let status := fun (u : State) (v : W64) => u.modSlot t b fun x => (x.setS sd v).release
        ((u.part x.part).en = false → reg = .next (status u 1)) ∧
        ((u.part x.part).en = true →
          (recCrc (joinZero raw) = recordCrc (joinZero raw) →
            (recJoin raw = 0 → reg = .next (status (u.quarantine (keyDie k) x.part l raw 0 .progRecord) 2)) ∧
            (recJoin raw ≠ 0 → recordFault (joinZero raw) = none →
              (u.full (keyDie k) x.part l = true → reg = .next (status u 1)) ∧
              (u.full (keyDie k) x.part l = false → reg = .next
                ((({ u with parked := u.parked ++ [⟨k, addr, x.part, keyDie k, l⟩] } : State).decrementJoin x.part x.wid k addr).retire
                  t b)))) ∧
          (recCrc (joinZero raw) ≠ recordCrc (joinZero raw) →
            reg = .next (status (u.quarantine (keyDie k) x.part l raw 0 .hwCrc) 2)))))

/-- R68, R69, R97, R300: the next arrival of a die is admitted at the tail of its level's ring, or the head where it is a context
that comes back; new work is refused at a disabled partition or a full level and quarantined where a check fails; a continuation
whose place is lacking is held.
R61, R68: a tail behind the one in force is ignored with SQERR; the record at the head of a submission ring that holds one is
admitted once its partition is enabled and its level has room, or quarantined; so is the oldest held continuation. -/
def Obligations.WorkIsAdmitted : Prop :=
  (∀ (d i : Nat) (a : Arrival) (s : State), nextArrival d s.arrivals = some i → s.arrivals[i]? = some a →
    let u : State := { s with arrivals := s.arrivals.eraseIdx i }
    let p := a.part
    let l := recLevel a.crec
    let r := u.ring a.die p l
    let adm := exec (.recordAdmission d) s
    let status := fun (u : State) (t b : Nat) (sd : SReg) (v : W64) => u.modSlot t b fun x => (x.setS sd v).release
    let enters := fun (u : State) (recs : List RingRec) => u.modRing a.die p l fun x => { x with recs := recs }
    let one : RingRec := ⟨a.crec, 0, none⟩
    (∀ t b sd, a.via = .spawn t b sd →
      ((u.part p).en = false → adm = .next (status u t b sd 1)) ∧
      ((u.part p).en = true →
        (∀ f, recordFault a.crec = some f → adm = .next (status (u.quarantine a.die p l a.crec 0 f) t b sd 2)) ∧
        (recordFault a.crec = none → (u.full a.die p l = true → adm = .next (status u t b sd 1)) ∧
          (u.full a.die p l = false → adm = .next (status (enters u (r.recs ++ [one])) t b sd 0))))) ∧
    (∀ t, a.via = .head t → adm = .next (enters { u with saved := u.saved.map fun k =>
      if k.addr = a.addr then { k with moved := false } else k } (one :: r.recs))) ∧
    (a.via = .tail → adm = .next (enters { u with saved := u.saved.map fun k =>
      if k.addr = a.addr then { k with moved := false } else k } (r.recs ++ [one]))) ∧
    (a.via = .peer →
      ((u.part p).en = false → adm = .next u) ∧
      ((u.part p).en = true →
        (∀ f, recordFault a.crec = some f → adm = .next (u.quarantine a.die p l a.crec 0 f)) ∧
        (recordFault a.crec = none →
          (u.full a.die p l = false → r.held = [] → adm = .next (enters u (r.recs ++ [one]))) ∧
          (u.full a.die p l = true → adm = .next ((lqBit u a.die p l 2).modRing a.die p l fun x => { x with held := x.held ++ [a] })))))) ∧
  (∀ (p : PartNo) (d : Nat) (l : BitVec 3) (v : W64) (s : State), d < 4 →
    let n := s.sqLen d p l.toNat
    let r := s.ring d p l.toNat
    let back := fun (i : Nat) => (i + 2 ^ 20 - r.sqHead) % n
    let tail := v.toNat % 2 ^ 20
    let k := homeKey (1 + d) ((s.reg (.sqbase (BitVec.ofNat 2 d) p l)).toNat % 2 ^ 26 / 64 * 64 + 64 * (r.sqHead % n))
    let w := s.recordAt k
    let u := s.modRing d p l.toNat fun x => { x with sqHead := (x.sqHead + 1) % 2 ^ 20 }
    let sub := exec (.submissionAdmission p d l) s
    (back tail < back r.sqTail → exec (.sqtailWrite p d l v) s = .next (lqBit s d p l.toNat 1)) ∧
    (back r.sqTail ≤ back tail →
      exec (.sqtailWrite p d l v) s = .next (s.modRing d p l.toNat fun x => { x with sqTail := tail })) ∧
    (back r.sqTail ≠ 0 → (s.part p).en = true → s.full d p l.toNat = false →
      (u.isPoisoned k 64 = true → sub = .next (u.quarantine d p l.toNat w 0 .hwPoison)) ∧
      (u.isPoisoned k 64 = false →
        (∀ f, recordFault w = some f → sub = .next (u.quarantine d p l.toNat w 0 f)) ∧
        (recordFault w = none → recLevel w ≠ l.toNat → sub = .next (u.quarantine d p l.toNat w 0 .progRecord)) ∧
        (recordFault w = none → recLevel w = l.toNat → sub = .next (u.enqueue d p w false)))) ∧
    (∀ a rest, r.held = a :: rest → s.full d p l.toNat = false → a.via = .peer → exec (.heldContinuationAdmission p d l) s =
      .next ((s.modRing d p l.toNat fun x => { x with held := rest }).enqueue d p a.crec false)))

/-- R65, R70, R71: a dispatch loads the tile that it places the next instance on: the registers are zero but for those that the
record gives, the scratchpad's stack top and the constants, the task runs from its code under its header and budget, and the record's
next instance, or the next record, is at the head of the ring. -/
def Obligations.DispatchStartsTasks : Prop :=
  ∀ (d : Nat) (p : PartNo) (l : Nat) (e : RingRec) (rest : List RingRec) (h : W512) (s u : State),
    s.nextDispatch d = some (p, l) → (s.ring d p l).recs = e :: rest → s.readyAt d p l e.crec = (.load h, u) →
    let wid := recWid e.crec + BitVec.ofNat 64 e.next
    let t := (place h wid e.bind (s.idleTiles d p)).2
    let bind := (place h wid e.bind (s.idleTiles d p)).1
    ∃ v, exec (.dispatch d) s = .next v ∧
      (let x := v.slot t (s.run t)
       (∀ r, x.getS r = if r = 1 then recArg0 e.crec else if r = 2 then recArg1 e.crec else if r = 61 then wid
          else if r = 62 then recFrame e.crec else if r = 63 then 0x400000 else 0) ∧
       (∀ r, x.getH r = 0) ∧ (∀ r, x.getQ r = (r == 0)) ∧ (∀ r, x.getK r = if r = 0 then BitVec.allOnes 1024 else 0) ∧
       x.pc = recCode e.crec ∧ x.budg = hdrBudget h ∧ x.lc = 0 ∧ x.rb = 0 ∧ x.mstat = 0 ∧ x.ret = [] ∧ x.rss = 0 ∧
       x.loop = none ∧ x.phase = none ∧ x.accs = [] ∧ x.mq = [] ∧ x.cq = [] ∧ x.queries = [] ∧ x.st = .busy ∧ x.hold = .none ∧
       x.task = some ⟨p, l, wid, h, ownRecord e.crec wid, s.nextNum⟩) ∧
      (∀ t' b, ¬(t' = t ∧ (b = 0 ↔ s.run t = 0)) → v.slot t' b = s.slot t' b) ∧
      (recCount e.crec ≤ e.next + 1 → (v.ring d p l).recs = rest) ∧
      (e.next + 1 < recCount e.crec → (v.ring d p l).recs = { e with next := e.next + 1, bind := bind } :: rest) ∧ v.mem = s.mem


/-! ### Control registers and system instructions (R142, R249, R267–R270, R358–R361, R367, R368) -/

/-- R142: CRR reads each control register in its issue cycle, and CRW writes LC, the four bits of RB, and clears the bits of MSTAT
that are set in its operand; a write of any other register does nothing. -/
def Obligations.ControlRegisters : Prop :=
  ∀ (sd sa : SReg) (n : BitVec 2) (l : BitVec 6) (t : TReg) (s : State),
    let x := s.core
    let v := x.getS sa
    let y := x.getT t
    let reads := fun (r : CtlReg) (v : W64) => Issues (.crr sd r) s → Completes (.crr sd r) s (s.modCore fun x => x.setS sd v) 0
    let writes := fun (r : CtlReg) (e : State) => Issues (.crw r sa) s → Completes (.crw r sa) s e 0
    reads .cyc (BitVec.ofNat 64 (s.tile s.cur).cyc) ∧ reads .budg (x.budg.setWidth 64) ∧ reads .lc x.lc ∧
    reads .rb (x.rb.setWidth 64) ∧ reads .mstat (x.mstat.setWidth 64) ∧ reads (.finfo n) (tget 0 x.finfo n.toNat) ∧
    reads .tstat ((BitVec.ofNat 64 ((x.queries.filter fun q => !q.taken).length % 16) <<< 32) |||
      ((if x.restoring then 1 else 0 : W64) <<< 28) ||| (BitVec.ofNat 64 (x.canc % 16) <<< 24) |||
      ((if x.cq.any (fun c => c.held && !c.started) then 1 else 0 : W64) <<< 21) |||
      ((if x.phase.isSome then 1 else 0 : W64) <<< 20) ||| (BitVec.ofNat 64 (x.cq.length % 32) <<< 13) |||
      (BitVec.ofNat 64 (x.mq.length % 32) <<< 8) |||
      ((if (if s.run s.cur = 0 then (s.tile s.cur).tslot.vb else (s.tile s.cur).tslot.va) then 1 else 0 : W64) <<< 1) |||
      BitVec.ofNat 64 (s.run s.cur)) ∧
    reads (.linklat l) (((s.link l.toNat).st.setWidth 64 <<< 32) ||| ((s.link l.toNat).gen.setWidth 64 <<< 16) |||
      (s.link l.toNat).delta.setWidth 64) ∧
    (y.conf = true → reads (.tcfg t) ((1 <<< 32) ||| (BitVec.ofNat 64 (tyCode y.ty) <<< 28) ||| (BitVec.ofNat 64 y.rows <<< 16) |||
      BitVec.ofNat 64 y.cols)) ∧
    (y.conf = false → reads (.tcfg t) 0) ∧
    writes .lc (s.modCore fun x => { x with lc := v }) ∧ writes .rb (s.modCore fun x => { x with rb := v.extractLsb' 0 4 }) ∧
    writes .mstat (s.modCore fun x => { x with mstat := x.mstat &&& ~~~(v.extractLsb' 0 6) }) ∧
    (∀ r, r ≠ .lc → r ≠ .rb → r ≠ .mstat → writes r s)

/-- R249, R267, R358–R361, R368: a fence whose scope holds no access that is not yet performed ends, and waits otherwise; PHASE and
QWAIT hold their core; BRK traps with its code, resuming at the next word; FQPOP gives the oldest fault record that was not popped, or
all ones; an answer to a popped record goes on with its context, and one to any other address traps PROG.FANS. -/
def Obligations.SystemInstructions : Prop :=
  ∀ (sc : Scope) (m c : Bool) (code : BitVec 24) (sd sa : SReg) (s : State),
    let x := s.core
    let p := x.part
    let a := x.getS sa
    let far := fun (e : Elem) => !e.done && inScope s.cur sc e.va
    (Issues .nop s → Completes .nop s s 0) ∧
    ((∀ b ∈ x.accs, ∀ e ∈ b.elems, far e = false) → Issues (.fence sc) s → Completes (.fence sc) s s 0) ∧
    ((∃ b ∈ x.accs, ∃ e ∈ b.elems, far e = true) → Issues (.fence sc) s → Waits (.fence sc) s s) ∧
    (Issues .phase s → Waits .phase s (s.modCore fun x => { x with hold := .phase })) ∧
    ((m || c) = true → Issues (.qwait m c) s → Waits (.qwait m c) s (s.modCore fun x => { x with hold := .qwait m c })) ∧
    (Issues (.qwait false false) s → Traps (.qwait false false) s .progIllegal 0 0) ∧
    (Issues (.brk code) s → Waits (.brk code) s (s.modCore fun y => y.advance.takeFault (x.coreFault .progBreak 0 (code.setWidth 64)))) ∧
    (Issues (.fqpop sd) s → ((s.part p).fq.all FEntry.popped = true →
        Completes (.fqpop sd) s (s.modCore fun x => x.setS sd (BitVec.allOnes 64)) 0) ∧
      (∀ l e r, (s.part p).fq = l ++ e :: r → l.all FEntry.popped = true → e.popped = false →
        Completes (.fqpop sd) s ((s.modPart p fun y => { y with fq := l ++ { e with popped := true } :: r }).modCore fun x =>
          x.setS sd e.addr) 0)) ∧
    (∀ e, s.answerable p a = some e → e.frec.ctx = .none →
      ∀ i ∈ [Instr.fresume sa, .fabort sa, .frestart sa], Issues i s → Completes i s (s.freeEntry p a) 0) ∧
    (∀ e t b, s.answerable p a = some e → e.frec.ctx = .slot t b → ¬(t = s.cur ∧ (b = 0 ↔ s.run s.cur = 0)) →
      (s.slot t b).st = .faulted →
      (Issues (.fresume sa) s → Completes (.fresume sa) s ((s.freeEntry p a).resumeHeld t b) 0) ∧
      (Issues (.fabort sa) s → Completes (.fabort sa) s ((s.freeEntry p a).retire t b) 0) ∧
      (Issues (.frestart sa) s → Completes (.frestart sa) s
        (((s.freeEntry p a).restartTask e.frec.part e.frec.die (s.slot t b).taskRecord 0).retire t b) 0)) ∧
    (∀ e at' k, s.answerable p a = some e → e.frec.ctx = .saved at' →
      s.saved.find? (fun k => k.addr == at' && k.part == e.frec.part && k.die == e.frec.die) = some k →
      (Issues (.fresume sa) s → Completes (.fresume sa) s ((s.freeEntry p a).resumeSaved e.frec.tile k) 0) ∧
      (Issues (.fabort sa) s → Completes (.fabort sa) s ((s.freeEntry p a).dropSaved at') 0) ∧
      (Issues (.frestart sa) s → Completes (.frestart sa) s
        (((s.freeEntry p a).restartTask e.frec.part e.frec.die k.slot.taskRecord at').dropSaved at') 0)) ∧
    (s.answerable p a = none →
      ∀ i ∈ [Instr.fresume sa, .fabort sa, .frestart sa], Issues i s → Traps i s .progFans a 0)

/-- R268–R270: TLOCK answers 2 where a page of its range is not mapped, 3 where the range overlaps a locked one, 1 for want of
entries, and 0 with the range locked; TUNLOCK drops the locked ranges that its range holds; a length of zero or a range past its home
traps PROG.ADDR. -/
def Obligations.TranslationsLock : Prop :=
  ∀ (sd sa sl : SReg) (s : State),
    let p := s.core.part
    let va := s.core.getS sa
    let len := s.core.getS sl
    let lock := Instr.tlock sd sa sl
    let unlock := Instr.tunlock sa sl
    let answers := fun (u : State) (v : W64) => Issues lock s → Completes lock s (u.modCore fun x => x.setS sd v) 0
    ((len = 0 ∨ 2 ^ 57 < offBits va + len.toNat) →
      (Issues lock s → Traps lock s .progAddr va 0) ∧ (Issues unlock s → Traps unlock s .progAddr va 0)) ∧
    (∀ home off, s.lockAt p va len = .here home off →
      let stop := off + len.toNat
      let ws := s.pagesOf home p stop (len.toNat / 0x10000 + 2) off
      let es := lockedEntries p ws
      let u := s.unit ((unitsOf home).headD 0)
      let held := u.tlb.filter Tlb.locked
      let new := es.filter fun e => !held.any fun x => x.part == p && x.base == e.base && x.size == e.size
      let full := 1024 < (held.filter fun x => x.part == p).length + new.length ∨ 4096 < held.length + new.length
      (ws.contains .poison = true → Issues lock s → Traps lock s .hwPoison va 0) ∧
      (ws.all (s.pageOwned home p off stop) = false → ws.contains .poison = false → Issues lock s → Traps lock s .isoWindow va 0) ∧
      (ws.all (s.pageOwned home p off stop) = true → ws.contains .poison = false →
        (es.length ≠ ws.length → answers s 2) ∧
        (es.length = ws.length →
          (s.locks.any (fun r => r.touches home p off len.toNat) = true → answers s 3) ∧
          (s.locks.any (fun r => r.touches home p off len.toNat) = false →
            (full → answers s 1) ∧
            (¬ full → answers { (unitsOf home).foldl (fun s n => s.modUnit n fun u => u.lock es) s with
              locks := s.locks ++ [⟨home, p, off, len.toNat⟩] } 0)))) ∧
      (ws.all (s.pageOwned home p off stop) = false → Issues unlock s → Traps unlock s .isoWindow va 0) ∧
      (ws.all (s.pageOwned home p off stop) = true → Issues unlock s →
        let rs := s.locks.filter fun r => !(r.home == home && r.part == p && decide (off ≤ r.base) && decide (r.base + r.len ≤ stop))
        Completes unlock s ((unitsOf home).foldl (fun s n => s.modUnit n fun u => u.unlock home p rs) { s with locks := rs }) 0))

/-- R351, R356, R370: a fault of a running core leaves its registers, its place and memory as they were, writes FINFO0 to FINFO3, and
stops the context for the fault, or for a cancellation of its open phase where the fault is poison or a failed check and the phase
has been cancelled fewer than three times. -/
def Obligations.TakingAFault : Prop :=
  ∀ (f : FaultName) (addr detail : W64) (s : State), s.core.st = .busy →
    let x := s.core
    let y := (s.trap f addr detail).core
    let info : FaultInfo := ⟨f, 0, addr, detail, 0, x.ipc, x.gwords, x.pc⟩
    (∀ r, y.getS r = x.getS r) ∧ (∀ r, y.getH r = x.getH r) ∧ (∀ r, y.getQ r = x.getQ r) ∧ (∀ r, y.getK r = x.getK r) ∧
    (∀ r, y.getV r = x.getV r) ∧ (∀ r, y.getT r = x.getT r) ∧ (∀ r, y.getA r = x.getA r) ∧ y.pc = x.pc ∧ y.lc = x.lc ∧ y.rb = x.rb ∧
    y.mstat = x.mstat ∧ y.ret = x.ret ∧ y.loop = x.loop ∧ y.mq = x.mq ∧ y.cq = x.cq ∧ y.hold = .none ∧
    tget 0 y.finfo 0 = ((faultCode f).setWidth 64 <<< 52) ∧ tget 0 y.finfo 1 = addr ∧ tget 0 y.finfo 2 = detail ∧ tget 0 y.finfo 3 = 0 ∧
    ((f = .hwPoison ∨ f = .hwAbft) → x.phase.isSome = true → x.canc < 3 → y.st = .stopping (.cancel info)) ∧
    (((f ≠ .hwPoison ∧ f ≠ .hwAbft) ∨ x.phase = none ∨ 3 ≤ x.canc) → y.st = .stopping (.fault info)) ∧
    (s.trap f addr detail).mem = s.mem


/-! ### Contexts: stops, saves, phases, switches (R75, R302, R351–R357, R363, R368–R371) -/

/-- R75, R302, R353, R357: a spent budget, the end of a slice and a PREQ stop the running task; a PREQ of a slot that does not run
sends its task to be saved, and marks one held on a fault to be moved out, as FHOLD does after its cycles.
R351, R352, R355, R359: once a stopping context with no access or copy chunk in flight stands at its boundary, a fault leaves it
held with its record due, which names the address of its next group; a pre-emption, an overrun or a YIELD sends it to be saved; a
switch lets the other slot run. -/
def Obligations.ContextsStop : Prop :=
  (∀ (t : Nat) (b : Bool) (v : W64) (s : State),
    let r := s.run t
    let x := s.slot t r
    let c := if b then 1 else 0
    let y := s.slot t c
    let stops := fun (e : Instr) (w : Stop) => exec e s = .next (s.modSlot t r fun x => { x with st := .stopping w })
    let n := (s.reg (.tslice t)).toNat % 2 ^ 32
    let h := (s.reg (.fhold t)).toNat % 2 ^ 32
    let running := (s.tile t).idle = false ∧ x.task.isSome = true ∧ x.st = .busy
    (running → x.budg = 0 → stops (.budgetExpiry t) .budget) ∧
    (running → n ≠ 0 → n ≤ x.ran → (∀ k < 2, s.eligible t k = true ∧ (s.slot t k).task.isSome = true) →
      stops (.sliceExpiry t) .switch) ∧
    (v.getLsbD 0 = !b → v.getLsbD 1 = b → y.task.isSome = true →
      (y.st = .busy → (s.tile t).idle = false → r = c → stops (.preqWrite t v) .preempt) ∧
      (y.st = .busy → ((s.tile t).idle = true ∨ r ≠ c) →
        exec (.preqWrite t v) s = .next (s.modSlot t c fun x => { x with st := .saving .preempt })) ∧
      (y.st = .faulted → exec (.preqWrite t v) s = .next (s.modSlot t c fun x => { x with moveDue := true }))) ∧
    (y.st = .faulted → h ≠ 0 → h ≤ y.waited →
      exec (.fholdExpiry t b) s = .next (s.modSlot t c fun x => { x with moveDue := true })) ∧
    exec (.shadowWriteOutComplete t b) s = .next (s.modSlot t c fun x => { x with writeOut := false })) ∧
  (∀ (t : Nat) (b : Bool) (s : State),
    let c := if b then 1 else 0
    let x := s.slot t c
    let ends := exec (.contextStopEnd t b) s
    let dst := fun (f : Slot → Slot) => (s.dropWaiter t (.core c)).modSlot t c fun x => f { x with hold := .none }
    x.accs = [] → x.cq.all (fun q => !q.started) = true → x.hold = .none →
    (∀ f, x.st = .stopping (.fault f) → ∃ u, ends = .next u ∧ (u.slot t c).st = .faulted ∧ (u.slot t c).pc = x.pc ∧
      (∀ r, (u.slot t c).getS r = x.getS r) ∧ u.mem = s.mem ∧
      (u.part x.part).recs = (s.part x.part).recs ++ [⟨{ f with resume := x.pc }, x.part, dieOf t, t, b, false, x.wid, 0, .slot t c⟩]) ∧
    (x.st = .stopping .preempt → ends = .next ((dst id).modSlot t c fun x => { x with st := .saving .preempt })) ∧
    (x.st = .stopping .budget → ends = .next ((dst id).modSlot t c fun x => { x with st := .saving .overrun })) ∧
    (x.st = .stopping .yield → ends = .next ((dst Slot.advance).modSlot t c fun x => { x with st := .saving .overrun })) ∧
    (x.st = .stopping .clear → ends = .next ((dst id).modSlot t c fun x => { x with st := .clearing })) ∧
    (x.st = .stopping .switch → ends = .next ((s.modSlot t c fun x => { x with st := .busy }).yieldTile t)))

/-- R75, R302, R363–R365: a saved context's registers, cells and bytes stand in an entry of its context area, whose image has its
header and CRC, and no other byte of memory changes; its record, flagged RESUME with PREEMPT or OVERRUN, is on its way to the head or
the tail of its level, and a held one that moves out takes its fault record with it. A record with RESUME that names no such entry is
quarantined as PROG.RECORD, one whose image header fails its CRC as HW.CRC; a good one's registers are restored. A restored context's
entry is freed. -/
def Obligations.ContextsAreSavedAndRestored : Prop :=
  (∀ (t : Nat) (b : Bool) (at' : W64) (s : State),
    let c := if b then 1 else 0
    let x := s.slot t c
    let lo := homeKey (homeBits at') (offBits at')
    let imaged := fun (u : State) => Memory.wf s.mem = true → (∀ k, k < lo ∨ lo + 0x800000 ≤ k → memGet u.mem k = memGet s.mem k) ∧
      u.readMem lo 8 = 0x00015854434B ∧ u.readMem (lo + 8) 8 = x.pc.toNat ∧ u.readMem (lo + 0x10) 8 = x.budg.toNat ∧
      u.readMem (lo + 0x18) 8 = x.lc.toNat ∧ u.readMem (lo + 0x190) 64 = x.taskRecord.toNat ∧
      u.readMem (lo + 0x1D0) 64 = x.header.toNat ∧ u.imageGood at' = true
    let free := s.freeEntryAddr (dieOf t) x.part = some at'
    let kept := fun (u : State) (moved : Bool) => ∃ k, u.saved = (s.vacate t c).saved ++ [k] ∧ k.addr = at' ∧ k.part = x.part ∧
      k.slot = { x with hold := .none } ∧ k.cells = s.cellsBelow t x.header ∧ k.bytes = s.halfBytes t c x.header ∧ k.moved = moved ∧
      k.used = false
    (∀ w, x.st = .saving w → x.writeOut = false → s.serves (.dispatcher (BitVec.ofNat 2 (dieOf t))) = true → free →
      let pre := w == .preempt
      ∃ u, exec (.contextSaveComplete t b) s = .next u ∧ kept u false ∧
        u.arrivals = s.arrivals ++ [⟨if pre then .head t else .tail, x.part, dieOf t, resumeRecord x.taskRecord pre (!pre) at', 0⟩] ∧
        imaged u) ∧
    (x.st = .faulted → (x.moveDue || x.pendPreempt) = true → x.writeOut = false → s.full (dieOf t) x.part x.taskLevel = false → free →
      ∃ u, exec (.contextMoveOut t b) s = .next u ∧ kept u true ∧ u.arrivals = s.arrivals ∧ imaged u ∧
        (u.slot t c).task = none) ∧
    (∀ a, x.source = some a → exec (.contextRestoreComplete t b) s = .next ((s.dropSaved a).modSlot t c fun x =>
      { x with restoring := false, source := none })) ∧
    (x.source = none → exec (.contextRestoreComplete t b) s = .next s)) ∧
  (∀ (d : Nat) (p : PartNo) (l : Nat) (e : RingRec) (rest : List RingRec) (s : State),
    s.nextDispatch d = some (p, l) → (s.ring d p l).recs = e :: rest → recordFault e.crec = none → recResume e.crec = true →
    let named := s.saved.find? fun k => k.addr == recArg0 e.crec && k.die == d && k.part == p && !k.used
    let refused := fun (f : FaultName) => exec (.dispatch d) s =
      .next ((s.modRing d p l fun x => { x with recs := rest }).quarantine d p l e.crec (BitVec.ofNat 64 e.next) f)
    (named = none → refused .progRecord) ∧
    (∀ k, named = some k →
      (s.imageGood k.addr = false → refused .hwCrc) ∧
      (s.imageGood k.addr = true → headerFault k.slot.header l = none →
        let t := (place k.slot.header (recWid e.crec + BitVec.ofNat 64 e.next) e.bind (s.idleTiles d p)).2
        ∃ u, exec (.dispatch d) s = .next u ∧
          (let y := u.slot t (s.run t)
           y.s = k.slot.s ∧ y.h = k.slot.h ∧ y.q = k.slot.q ∧ y.v = k.slot.v ∧ y.k = k.slot.k ∧ y.t = k.slot.t ∧ y.a = k.slot.a ∧
           y.ml = k.slot.ml ∧ y.lc = k.slot.lc ∧ y.rb = k.slot.rb ∧ y.ret = k.slot.ret ∧ y.rss = k.slot.rss ∧ y.loop = k.slot.loop ∧
           y.pc = k.slot.pc ∧ y.phase = k.slot.phase ∧ y.task = k.slot.task ∧ y.restoring = true ∧ y.source = some k.addr ∧
           y.budg = if recOverrun e.crec then hdrBudget k.slot.header else k.slot.budg))))

/-- R360, R368–R371: PHASE commits the open phase and keeps a snapshot once the phase's commands and accesses are done; a DONE or a
PARK commits it too; a cancellation restores the snapshot at the PHASE, counts, and leaves a record of source 7; QWAIT ends when the
queues that it names are empty. -/
def Obligations.PhasesCommitOrCancel : Prop :=
  ∀ (t : Nat) (b : Bool) (s : State),
    let r := s.run t
    let x := s.slot t r
    let done := (s.modSlot t r Slot.commit).arm t r false
    let c := if b then 1 else 0
    let z := s.slot t c
    (x.st = .busy → x.phaseDone = true →
      (x.hold = .phase → exec (.phaseCommit t) s = .next (done.modSlot t r fun x =>
        { x with phase := some (x.pc, x.snapshot (done.cellsBelow t (s.slot t r).header)) }.release)) ∧
      (∀ sd a k, (x.hold = .park sd a k ∨ x.hold = .done sd a k) → x.phase.isSome = true → exec (.phaseCommit t) s = .next done)) ∧
    (∀ m q, x.st = .busy → x.hold = .qwait m q → (m = true → x.mq = []) → (q = true → x.cq = []) →
      exec (.qwaitComplete t) s = .next (s.modSlot t r Slot.release)) ∧
    (∀ f pc y, z.st = .stopping (.cancel f) → z.phase = some (pc, y) → z.accs = [] → z.cq.all (fun q => !q.started) = true →
      z.hold = .none → z.pendPreempt = false → z.mq.all (fun q => q.phased) = true → z.cq.all (fun q => q.phased) = true →
      ∃ u, exec (.phaseCancellation t b) s = .next u ∧
        (let w := u.slot t c
         w.s = y.s ∧ w.h = y.h ∧ w.q = y.q ∧ w.loop = y.loop ∧ w.lc = y.lc ∧ w.rb = y.rb ∧ w.ret = y.ret ∧ w.rss = y.rss ∧
         w.v = [] ∧ w.k = [] ∧ w.t = [] ∧ w.a = [] ∧ w.pc = pc ∧ w.phase = none ∧ w.canc = z.canc + 1 ∧ w.st = .busy ∧ w.mq = [] ∧
         w.cq = []) ∧
        (∀ i k, y.cells[i]? = some k → (s.cell t i).ownedBy z.part = true →
          u.cell t i = { k with v := (s.cell t i).v, part := (s.cell t i).part }) ∧
        (u.part z.part).recs = (s.part z.part).recs ++
          [⟨{ f with src := 7, resume := 0 }, z.part, dieOf t, t, b, true, z.wid, 0, .none⟩] ∧ u.mem = s.mem)

/-- R302, R114, R373: an idle tile runs the slot that it ran, if eligible, or the other; a running slot that is not eligible, or
has neither a task nor a record while the other has, yields; a stall past DRSTALL on a link that is not UP, or on a peer, raises
LINK.STALL at the waiting access. -/
def Obligations.SlotsSwitchAndStallsEnd : Prop :=
  ∀ (t : Nat) (s : State),
    let r := s.run t
    let o := 1 - r
    let x := s.slot t r
    let sw := exec (.slotSwitch t) s
    ((s.tile t).idle = true → s.eligible t r = true → sw = .next (s.switchTo t r)) ∧
    ((s.tile t).idle = true → s.eligible t r = false → s.eligible t o = true → sw = .next (s.switchTo t o)) ∧
    ((s.tile t).idle = false → (∀ w, x.st ≠ .stopping w) → s.eligible t r = false → s.eligible t o = true → sw = .next (s.switchTo t o)) ∧
    ((s.tile t).idle = false → (∀ w, x.st ≠ .stopping w) → s.eligible t r = false → s.eligible t o = false →
      sw = .next (s.modTile t fun x => { x with idle := true })) ∧
    ((s.tile t).idle = false → s.eligible t r = true → x.st = .free → x.task = none → s.slotHasRecord t r = false →
      s.eligible t o = true → ((s.slot t o).task.isSome = true ∨ s.slotHasRecord t o = true) → sw = .next (s.switchTo t o)) ∧
    (∀ l a e, (s.reg (.drstall x.part)).toNat % 2 ^ 32 ≠ 0 → (s.reg (.drstall x.part)).toNat % 2 ^ 32 < x.stall → x.hold = .reply →
      x.accs = l ++ [a] → a.elems.find? (fun e => !e.done) = some e →
      (homeBits e.va = 0x10 ∧ (s.link (linkOf (offBits e.va))).st ≠ 0 ∨ 0x40 ≤ homeBits e.va) →
      exec (.linkStallTimeout t) s = .next ((s.modSlot t r fun x =>
        (dropLastAccess x).trap .linkStall e.va (BitVec.ofNat 64 e.lane)).modSlot t r fun x => { x with stall := 0 }))

/-- R354, R355: the oldest record that waits is written at the tail of its partition's queue, counted, and its vector raised; while
the queue is full, or its place cannot be written, it waits with FQSTAT set. -/
def Obligations.FaultRecordsAreWritten : Prop :=
  ∀ (p : PartNo) (r : FRec) (rest : List FRec) (s : State),
    let x := s.part p
    let va := (s.reg (.fqbase p) &&& ~~~127) + BitVec.ofNat 64 (128 * x.fqTail)
    let writes := s.writeNow 0 0 0 p va 128 (leNat (r.bytes x.seq)) true
    let ev := exec (.faultRecordWrite p) s
    x.recs = r :: rest → x.fqStuck = false → s.serves (.dispatcher (BitVec.ofNat 2 r.die)) = true →
    (s.fqLen p ≤ x.fq.length → ev = .next (s.orReg (.fqstat p) 2)) ∧
    (x.fq.length < s.fqLen p →
      (∀ u, writes = (.ok (), u) → ev = .next (u.modPart p fun y => { y with
        recs := rest, seq := y.seq + 1, fq := y.fq ++ [⟨va, r, false, false⟩], fqTail := (y.fqTail + 1) % u.fqLen p,
        msi := (u.reg (.fqvec p)).toNat % 64 :: y.msi })) ∧
      (∀ f u, writes = (.fault f, u) → ev = .next ((u.modPart p fun y => { y with fqStuck := true }).orReg (.fqstat p) 4)))


/-! ### Handles and tile registers (R143–R146, R185) -/

/-- R143, R146: a field of a handle that is put reads back, and no other bit of the handle changes.
The writing of registers that are fixed: s0 reads zero, q0 true and k0 all ones in every state, whatever is written to them (R23). -/
def Obligations.RegistersAndFieldsArePut : Prop :=
  (∀ (h : W256) (lo n v : Nat), lo + n ≤ 256 →
    (hPut h lo n v).extractLsb' lo n = BitVec.ofNat n v ∧
    ∀ i, (i < lo ∨ lo + n ≤ i) → (hPut h lo n v).getLsbD i = h.getLsbD i) ∧
  (∀ (x : Slot) (v : W64) (b : Bool) (m : Mask) (r : SReg) (q : QReg) (k : KReg),
    x.getS 0 = 0 ∧ x.getQ 0 = true ∧ x.getK 0 = BitVec.allOnes 1024 ∧ x.setS 0 v = x ∧ x.setQ 0 b = x ∧ x.setK 0 m = x ∧
    (r ≠ 0 → (x.setS r v).getS r = v) ∧ (q ≠ 0 → (x.setQ q b).getQ q = b) ∧ (k ≠ 0 → (x.setK k m).getK k = m) ∧
    (∀ r', r' ≠ r → (x.setS r v).getS r' = x.getS r') ∧ (∀ q', q' ≠ q → (x.setQ q b).getQ q' = x.getQ q') ∧
    (∀ k', k' ≠ k → (x.setK k m).getK k' = x.getK k'))

/-- R146, R185: the handle instructions copy the source handle, change the field that they name, and write the destination; a value
that the field cannot hold traps PROG.BOUNDS; HGET reads a field and HCHK checks the footprint. TCFG shapes a tile register that no
queued command names, every byte of it zero, and traps PROG.TBUSY otherwise. -/
def Obligations.HandleForms : Prop :=
  ∀ (hd ha : HReg) (sd sa : SReg) (d : BitVec 3) (sel : BitVec 4) (t : TReg) (ty : Ty) (rows cols : BitVec 10) (s : State),
    d.toNat < 6 → sel.toNat < 13 →
    let x := s.core
    let h := x.getH ha
    let v := x.getS sa
    let base := hBase h
    let gives := fun (i : Instr) (w : W256) => Issues i s → Completes i s (s.modCore fun x => x.setH hd w) 0
    let reads := fun (w : W64) => Issues (.hget sd ha sel) s → Completes (.hget sd ha sel) s (s.modCore fun x => x.setS sd w) 0
    let bounds := fun (i : Instr) => Issues i s → Traps i s .progBounds 0 0
    let o := (offBits base : Int) + v.toInt * hStride h d.toNat
    gives (.hmov hd ha) h ∧ gives (.hclr hd) 0 ∧ gives (.hsetb hd ha sa) (hPut h 0 64 v.toNat) ∧
    (1 ≤ v.toNat → v.toNat ≤ 4096 → gives (.hsetd hd ha sa d) (hPut h (64 + 12 * d.toNat) 12 (v.toNat - 1))) ∧
    ((v.toNat = 0 ∨ 4096 < v.toNat) → bounds (.hsetd hd ha sa d)) ∧
    (-524288 ≤ v.toInt → v.toInt ≤ 524287 → gives (.hsets hd ha sa d) (hPut h (136 + 20 * d.toNat) 20 v.toNat)) ∧
    ((v.toInt < -524288 ∨ 524287 < v.toInt) → bounds (.hsets hd ha sa d)) ∧
    (0 ≤ o → o < 2 ^ 57 → gives (.hadv hd ha sa d) (hPut h 0 57 o.toNat)) ∧
    ((o < 0 ∨ 2 ^ 57 ≤ o) → bounds (.hadv hd ha sa d)) ∧
    (sel = 0 → reads base) ∧
    (∀ k < 6, sel.toNat = k + 1 → reads (BitVec.ofNat 64 (hExt h k + 1))) ∧
    (∀ k < 6, sel.toNat = k + 7 → reads (BitVec.ofInt 64 (hStride h k))) ∧
    (1 ≤ v.toNat → v.toNat ≤ 4096 → hValid h v.toNat = true → Issues (.hchk ha sa) s → Completes (.hchk ha sa) s s 0) ∧
    ((v.toNat = 0 ∨ 4096 < v.toNat ∨ hValid h v.toNat = false) → Issues (.hchk ha sa) s → Traps (.hchk ha sa) s .progBounds base 0) ∧
    (Issues (.tcfg t ty rows cols) s →
      ((∀ c ∈ x.mq, t ∉ (named c.instr).t) → Completes (.tcfg t ty rows cols) s
        (s.modCore fun x => x.setT t ⟨true, ty, rows.toNat, cols.toNat, [], [], (x.getT t).gen + 1⟩) 0) ∧
      ((∃ c ∈ x.mq, t ∈ (named c.instr).t) → Traps (.tcfg t ty rows cols) s .progTbusy 0 0))

/-! ### Vector instructions (R147–R183) -/

/-- R148, R149, R151–R160: each elementwise form writes, in the lanes of its mask, its function of the source lanes as they stand at
issue, and leaves every other lane of the destination; nothing else changes. -/
def Obligations.VectorLanes : Prop :=
  ∀ (r : Rnd) (dty sty : Ty) (lt : LaneTy) (vd va vb vc : VReg) (k : KReg) (sa : SReg) (imm : W32) (s : State),
    let x := s.core
    let a := fun e => (x.getV va).get e
    let b := fun e => (x.getV vb).get e
    let c := fun e => (x.getV vc).get e
    let lanes := fun (i : Instr) (f : Nat → W32) => Issues i s → Completes i s (s.modCore fun x => x.setV vd
      (Lanes.ofFn fun e => if (x.getK k).getLsbD e then f e else (x.getV vd).get e)) 0
    let sat := fun (n : Int) => BitVec.ofInt 32 (if n < -2147483648 then -2147483648 else if 2147483647 < n then 2147483647 else n)
    lanes (.vadd .f32 r vd va vb k) (fun e => toF32 r ((f32 (a e)).add r (f32 (b e)))) ∧
    lanes (.vsub .f32 r vd va vb k) (fun e => toF32 r ((f32 (a e)).add r (f32 (b e)).neg)) ∧
    lanes (.vmul .f32 r vd va vb k) (fun e => toF32 r ((f32 (a e)).mul (f32 (b e)))) ∧
    lanes (.vfma r vd va vb vc k) (fun e => toF32 r (((f32 (a e)).mul (f32 (b e))).add r (f32 (c e)))) ∧
    lanes (.vfms r vd va vb vc k) (fun e => toF32 r (((f32 (a e)).mul (f32 (b e))).add r (f32 (c e)).neg)) ∧
    lanes (.vfnma r vd va vb vc k) (fun e => toF32 r (((f32 (a e)).neg.mul (f32 (b e))).add r (f32 (c e)))) ∧
    lanes (.vadd .i32 r vd va vb k) (fun e => a e + b e) ∧ lanes (.vsub .i32 r vd va vb k) (fun e => a e - b e) ∧
    lanes (.vmul .i32 r vd va vb k) (fun e => a e * b e) ∧
    lanes (.vmin .f32 vd va vb k) (fun e => f32Min (a e) (b e)) ∧ lanes (.vmax .f32 vd va vb k) (fun e => f32Max (a e) (b e)) ∧
    lanes (.vmin .i32 vd va vb k) (fun e => if (b e).toInt < (a e).toInt then b e else a e) ∧
    lanes (.vmax .i32 vd va vb k) (fun e => if (a e).toInt < (b e).toInt then b e else a e) ∧
    lanes (.vabs .f32 vd va k) (fun e => if (f32 (a e)).isNan then 0x7FC00000 else a e &&& 0x7FFFFFFF) ∧
    lanes (.vneg .f32 vd va k) (fun e => if (f32 (a e)).isNan then 0x7FC00000 else a e ^^^ 0x80000000) ∧
    lanes (.vabs .i32 vd va k) (fun e => if (a e).msb then -a e else a e) ∧ lanes (.vneg .i32 vd va k) (fun e => -a e) ∧
    lanes (.vadds vd va vb k) (fun e => sat ((a e).toInt + (b e).toInt)) ∧
    lanes (.vsubs vd va vb k) (fun e => sat ((a e).toInt - (b e).toInt)) ∧
    lanes (.vclamp lt vd va vb vc k) (fun e => laneMin lt (laneMax lt (a e) (b e)) (c e)) ∧
    lanes (.vscale r vd va vb k) (fun e => laneScale r (a e) (b e)) ∧ lanes (.vrint r vd va k) (fun e => laneRint r (a e)) ∧
    lanes (.vand vd va vb k) (fun e => a e &&& b e) ∧ lanes (.vor vd va vb k) (fun e => a e ||| b e) ∧
    lanes (.vxor vd va vb k) (fun e => a e ^^^ b e) ∧ lanes (.vandn vd va vb k) (fun e => a e &&& ~~~b e) ∧
    lanes (.vshl vd va vb k) (fun e => a e <<< ((b e).toNat % 32)) ∧ lanes (.vshr vd va vb k) (fun e => a e >>> ((b e).toNat % 32)) ∧
    lanes (.vsar vd va vb k) (fun e => (a e).sshiftRight ((b e).toNat % 32)) ∧
    lanes (.vpopc vd va k) (fun e => BitVec.ofNat 32 (((List.range 32).filter fun i => (a e).getLsbD i).length)) ∧
    lanes (.vcvt dty sty r vd va k) (fun e => convert dty sty r (a e)) ∧ lanes (.vmovi lt vd imm k) (fun _ => imm) ∧
    lanes (.vbcs lt vd sa k) (fun _ => (x.getS sa).setWidth 32) ∧
    lanes (.vexp2 vd va k) (fun e => f32Exp2 (a e)) ∧ lanes (.vlog2 vd va k) (fun e => f32Log2 (a e)) ∧
    lanes (.vrcp vd va k) (fun e => f32Rcp (a e)) ∧ lanes (.vrsq vd va k) (fun e => f32Rsq (a e)) ∧
    lanes (.vsqrt vd va k) (fun e => f32Sqrt (a e)) ∧ lanes (.vtanh vd va k) (fun e => f32Tanh (a e)) ∧
    lanes (.vsinpi vd va k) (fun e => f32SinPi (a e)) ∧ lanes (.vcospi vd va k) (fun e => f32CosPi (a e)) ∧
    lanes (.vhash vd va sa k) (fun e => laneHash e (x.getS sa) (a e))

/-- R156, R170: a comparison writes its mask register, a bit for each lane of the mask and zero elsewhere, where k0 discards it;
INT32 compares as signed integers, FP32 with every comparison of a NaN false but VCMPNE. The mask instructions combine, count and
search masks. -/
def Obligations.MasksAndComparisons : Prop :=
  ∀ (kd ka kb k : KReg) (va vb : VReg) (sd : SReg) (s : State),
    let x := s.core
    let a := fun e => (x.getV va).get e
    let b := fun e => (x.getV vb).get e
    let sets := fun (i : Instr) (f : Nat → Bool) => Issues i s → ∃ m : Mask, Completes i s (s.modCore fun x => x.setK kd m) 0 ∧
      ∀ e < 1024, m.getLsbD e = f e
    let under := fun (i : Instr) (f : W32 → W32 → Bool) => sets i fun e => (x.getK k).getLsbD e && f (a e) (b e)
    under (.vcmpeq .i32 kd va vb k) (fun p q => p == q) ∧ under (.vcmpne .i32 kd va vb k) (fun p q => p != q) ∧
    under (.vcmplt .i32 kd va vb k) (fun p q => decide (p.toInt < q.toInt)) ∧
    under (.vcmple .i32 kd va vb k) (fun p q => decide (p.toInt ≤ q.toInt)) ∧
    under (.vcmpeq .f32 kd va vb k) (fun p q => (f32 p).eqv (f32 q)) ∧
    under (.vcmpne .f32 kd va vb k) (fun p q => !(f32 p).eqv (f32 q)) ∧
    under (.vcmplt .f32 kd va vb k) (fun p q => (f32 p).lt false (f32 q)) ∧
    under (.vcmple .f32 kd va vb k) (fun p q => (f32 p).lt false (f32 q) || (f32 p).eqv (f32 q)) ∧
    sets (.kand kd ka kb) (fun e => (x.getK ka).getLsbD e && (x.getK kb).getLsbD e) ∧
    sets (.kor kd ka kb) (fun e => (x.getK ka).getLsbD e || (x.getK kb).getLsbD e) ∧
    sets (.kxor kd ka kb) (fun e => (x.getK ka).getLsbD e ^^ (x.getK kb).getLsbD e) ∧
    sets (.knot kd ka) (fun e => !(x.getK ka).getLsbD e) ∧
    (Issues (.kpopc sd ka) s → Completes (.kpopc sd ka) s (s.modCore fun y => y.setS sd
      (BitVec.ofNat 64 ((List.range 1024).filter fun e => (x.getK ka).getLsbD e).length)) 0) ∧
    (Issues (.kfirst sd ka) s → ∃ n, Completes (.kfirst sd ka) s (s.modCore fun y => y.setS sd (BitVec.ofNat 64 n)) 0 ∧
      n ≤ 1024 ∧ (n < 1024 → (x.getK ka).getLsbD n = true) ∧ ∀ e < n, (x.getK ka).getLsbD e = false)

/-- R157, R166–R169: VSEL picks by the mask; VMOV, VEXT and VINS move whole lanes; the row and column forms rotate, broadcast, permute
and reduce, the lane at row e ÷ 64 and column e mod 64 receiving the one that the form names. -/
def Obligations.VectorMoves : Prop :=
  ∀ (lt : LaneTy) (vd va vb : VReg) (sd sa : SReg) (idx : BitVec 10) (n : BitVec 6) (m : BitVec 4) (k : KReg) (s : State),
    let x := s.core
    let a := fun e => (x.getV va).get e
    let writes := fun (i : Instr) (f : Nat → W32) => Issues i s → Completes i s (s.modCore fun x => x.setV vd (Lanes.ofFn f)) 0
    let at' := fun (r c : Nat) => a (64 * r + c)
    let f := combine lt
    writes (.vsel lt vd va vb k) (fun e => if (x.getK k).getLsbD e then a e else (x.getV vb).get e) ∧
    writes (.vmov vd va) a ∧
    (Issues (.vext sd va idx) s → Completes (.vext sd va idx) s (s.modCore fun x => x.setS sd ((a idx.toNat).setWidth 64)) 0) ∧
    writes (.vins vd sa idx) (fun e => if e = idx.toNat then (x.getS sa).setWidth 32 else (x.getV vd).get e) ∧
    writes (.vrotr vd va n) (fun e => at' (e / 64) ((e % 64 + 64 - n.toNat) % 64)) ∧
    writes (.vbcr vd va n) (fun e => at' (e / 64) n.toNat) ∧
    writes (.vpermr vd va vb) (fun e => at' (e / 64) (((x.getV vb).get e).toNat % 64)) ∧
    writes (.vrotc vd va m) (fun e => at' ((e / 64 + 16 - m.toNat) % 16) (e % 64)) ∧
    writes (.vbcc vd va m) (fun e => at' m.toNat (e % 64)) ∧
    (∀ op, writes (.vredr lt op vd va) (fun e => pairwise (f op) 6 fun c => at' (e / 64) c)) ∧
    (∀ op, writes (.vredc lt op vd va) (fun e => pairwise (f op) 4 fun r => at' r (e % 64)))

/-- R172–R183: a selection writes its pair of registers; VPART, VCOMPRESS and VEXPAND write their counts too; VSPREAD48 traps
PROG.META with the lowest group whose metadata byte has not four bits set. -/
def Obligations.SelectionForms : Prop :=
  ∀ (lt : LaneTy) (ty : Ty) (vd va vb : VReg) (sS sC sn : SReg) (k : KReg) (n : BitVec 7) (m : BitVec 5) (s : State),
    let x := s.core
    let a := x.getV va
    let mask := x.getK k
    let pair := fun (i : Instr) (p : Lanes × Lanes) => Issues i s →
      Completes i s (s.modCore fun x => (x.setV vd p.1).setV (vd + 1) p.2) 0
    let bits := BitVec.ofNat 64 ((List.range 1024).filter fun e => mask.getLsbD e).length
    let full := ∀ g < 128, ((List.range 8).filter fun i => (((x.getV (va + 1)).get g).getLsbD i)).length = 4
    pair (.vargmaxr lt vd va k) (argRows lt true mask a) ∧ pair (.vargmaxc lt vd va k) (argCols lt true mask a) ∧
    pair (.vargminr lt vd va k) (argRows lt false mask a) ∧ pair (.vargminc lt vd va k) (argCols lt false mask a) ∧
    pair (.vtopk lt vd va vb k n) (topK lt n.toNat mask a (x.getV vb)) ∧
    pair (.vtopkm lt vd va vb n) (topKMerge lt n.toNat a (x.getV (va + 1)) (x.getV vb) (x.getV (vb + 1))) ∧
    pair (.vbucket vd va m k) (buckets m.toNat mask a) ∧ pair (.vprune48 ty vd va) (prune48 ty a) ∧
    (Issues (.vpart vd sS sC k) s → Completes (.vpart vd sS sC k) s (s.modCore fun x =>
      (((x.setV vd (denseList ((List.range 1024).filter fun e => mask.getLsbD e))).setV (vd + 1)
        (denseList ((List.range 1024).filter fun e => !mask.getLsbD e))).setS sC (1024 - bits)).setS sS bits) 0) ∧
    (full → Issues (.vspread48 ty vd va) s → Completes (.vspread48 ty vd va) s
      (s.modCore fun x => x.setV vd (spread48 a (x.getV (va + 1)))) 0) ∧
    (¬ full → Issues (.vspread48 ty vd va) s → ∃ g < 128, Traps (.vspread48 ty vd va) s .progMeta 0 (BitVec.ofNat 64 g)) ∧
    (Issues (.vcompress vd va sn k) s → Completes (.vcompress vd va sn k) s
      (s.modCore fun x => (x.setV vd (compress mask a)).setS sn bits) 0) ∧
    (Issues (.vexpand vd va sn k) s → Completes (.vexpand vd va sn k) s
      (s.modCore fun x => (x.setV vd (expand mask a)).setS sn bits) 0)

/-- R161, R162, R164: a vector load from the core's own half reads the elements of the handle's window, dimension 0 along the columns
and dimension 1 along the rows (VLDR one row of them), a 4-bit type two lanes a byte; lanes outside the window become zero, and VLDR
leaves the other rows. -/
def Obligations.VectorLoads : Prop :=
  ∀ (ty : Ty) (vd : VReg) (h : HReg) (row : BitVec 4) (s : State),
    let x := s.core
    let H := x.getH h
    let n := memBytesOf ty
    let two := nibbles ty
    let step := if two then 2 else 1
    let cols := min (64 / step) (hExt H 0 + 1)
    let rows := min 16 (hExt H 1 + 1)
    let key := fun (r c : Nat) => halfKey s.cur (s.run s.cur) + offBits (hAddrAt H [c, r])
    let lane := fun (r e : Nat) =>
      if two then laneIn ty (s.readMem (key r (e % 64 / 2)) 1 / 16 ^ (e % 2) % 16) else laneIn ty (s.readMem (key r (e % 64)) n)
    let reads := fun (R : Nat) => ∀ r < R, ∀ c < cols,
      s.tileCheck x.header x.part (hAddrAt H [c, r]) n false false = none ∧ s.isPoisoned (key r c) n = false
    homeBits (hBase H) = 0 → x.accessRoom = true → hValid H n = true → hAligned H n = true →
    (reads rows → Issues (.vld ty vd h) s → Completes (.vld ty vd h) s (s.modCore fun x => x.setV vd
      (Lanes.ofFn fun e => if e / 64 < rows ∧ e % 64 / step < cols then lane (e / 64) e else 0)) 0) ∧
    (reads 1 → Issues (.vldr ty vd h row) s → Completes (.vldr ty vd h row) s (s.modCore fun x => x.setV vd
      (Lanes.ofFn fun e => if e / 64 = row.toNat then (if e % 64 / step < cols then lane 0 e else 0) else (x.getV vd).get e)) 0)

/-- R161, R163–R165, R261: a vector store to the core's own half writes the window's elements, in lane order, each the lane converted
to the memory type, and no other byte; an access of another home is handed over; an invalid footprint traps PROG.BOUNDS, and a
misaligned one PROG.ALIGN. WLD reads 1,024 weights of the tile's own tier. -/
def Obligations.VectorStoresAndWeights : Prop :=
  ∀ (ty : Ty) (r : Rnd) (vd va : VReg) (h : HReg) (row : BitVec 4) (sa : SReg) (s : State),
    let x := s.core
    let H := x.getH h
    let n := memBytesOf ty
    let w := x.getS sa
    let es := windowElems ty H none
    let er := windowElems ty H (some row.toNat)
    let out := fun (e : Elem) => elemOut ty r (x.getV va) e.lane
    let key := fun (e : Elem) => halfKey s.cur (s.run s.cur) + offBits e.va
    let after := fun (l : List Elem) => l.foldl (fun s' e => s'.writeMem (key e) n (out e).toNat) s
    let pass := fun (wr : Bool) (l : List Elem) => ∀ e ∈ l, s.tileCheck x.header x.part e.va n wr false = none
    let forms := [(Instr.vld ty vd h, es), (.vldr ty vd h row, er), (.vst ty r h va, es), (.vstr ty r h va row, er)]
    (hValid H n = false → ∀ p ∈ forms, Issues p.1 s → Traps p.1 s .progBounds (hBase H) 0) ∧
    (hValid H n = true → hAligned H n = false → ∀ p ∈ forms, Issues p.1 s → Traps p.1 s .progAlign (hBase H) 0) ∧
    (hValid H n = true → hAligned H n = true → x.accessRoom = true →
      (homeBits (hBase H) = 0 → s.Safe → ∀ p ∈ forms.drop 2, pass true p.2 → Issues p.1 s →
        Completes p.1 s (after p.2) 0 ∧
        ∀ a, (∀ e ∈ p.2, a < key e ∨ key e + n ≤ a) → memGet (after p.2).mem a = memGet s.mem a) ∧
      (homeBits (hBase H) ≠ 0 →
        (pass false (es.take 1) → Issues (.vld ty vd h) s → Waits (.vld ty vd h) s (s.handsOver (.vload ty (x.phys vd) none) n .plain es)) ∧
        (pass false (er.take 1) → Issues (.vldr ty vd h row) s →
          Waits (.vldr ty vd h row) s (s.handsOver (.vload ty (x.phys vd) (some row.toNat)) n .plain er)) ∧
        (∀ p ∈ forms.drop 2, pass true (p.2.take 1) → Issues p.1 s →
          Waits p.1 s (s.handsOver .vstore n .plain (p.2.map fun e => { e with data := out e }))))) ∧
    (∀ v, weightAddr w s.cur = true → w.toNat % 2 ^ 26 % (1024 * ty.bits / 8) = 0 →
      s.weightRead x.part w.toNat (1024 * ty.bits / 8) = .ok v → Issues (.wld ty vd sa) s →
      Completes (.wld ty vd sa) s (s.modCore fun x => x.setV vd
        (Lanes.ofFn fun e => laneIn ty (v / 2 ^ (e * ty.bits) % 2 ^ ty.bits))) 0) ∧
    (weightAddr w s.cur = false → Issues (.wld ty vd sa) s → Traps (.wld ty vd sa) s .progAddr w 0) ∧
    (weightAddr w s.cur = true → w.toNat % 2 ^ 26 % (1024 * ty.bits / 8) ≠ 0 → Issues (.wld ty vd sa) s →
      Traps (.wld ty vd sa) s .progAlign w 0)

/-! ### The engines (R16, R95, R131–R133, R184–R202, R271–R281, R340–R343) -/

/-- R16, R95, R192, R272: a matrix or copy command whose registers or parameter are as its rule asks takes the last place of its
queue, with its operands as they stand at issue, and the wait of the first command that has not started is examined; a core whose
queue holds sixteen is held. Any other traps PROG.TSHAPE or PROG.CARG. -/
def Obligations.CommandsAreQueued : Prop :=
  ∀ (acc : AReg) (ta tb : TReg) (tya tyb ty : Ty) (z lock : Bool) (rnd : Rnd) (op : RedaOp) (size : Size) (hd ha : HReg) (sa : SReg)
    (e : Eng) (s : State),
    let x := s.core
    let p := x.getS sa
    let Hd := x.getH hd
    let Ha := x.getH ha
    let Hw := x.getH (tb.setWidth 5)
    let A := x.getT ta
    let B := x.getT tb
    let M := x.getT (tb + 1)
    let queues := fun (m : Bool) (i : Instr) (d a : W256) (v : W64) (ok : Prop) (f : FaultName) =>
      let c : Cmd := { instr := i, hd := d, ha := a, param := v, words := x.gwords, addr := x.ipc, num := s.nextNum,
                       wtaken := e.wait.isNone, phased := x.phase.isSome, held := e.hold && x.phase.isSome }
      let u := (({ s with nextNum := s.nextNum + 1 } : State).modCore fun x => x.putQueue m (x.queue m ++ [c])).arm s.cur (s.run s.cur) m
      (¬ ok → Issues i s → Traps i s f 0 0) ∧ (ok → 16 ≤ (x.queue m).length → Issues i s → Waits i s s) ∧
      (ok → (x.queue m).length < 16 → Issues i s → Completes i s u 0)
    let mat := fun (i : Instr) (a : W256) (v : W64) (ok : Prop) => queues true i 0 a v ok .progTshape
    let cpy := fun (i : Instr) (d a : W256) (v : W64) (ok : Prop) => queues false i d a v ok .progCarg
    let is := fun (r : TileReg) (ty : Ty) => r.conf = true ∧ r.ty = ty
    let tagged := z = true ∨ tagAfter acc x.mq (x.getA acc).tag = .clear ∨
      tagAfter acc x.mq (x.getA acc).tag = if ty = .f32 then .f32 else .i32
    let packed := 4 * ((A.cols + 7) / 8)
    let meta' := fun (n : Nat) => is M .ui8 ∧ M.rows = n ∧ M.cols = (A.cols + 7) / 8
    let plain := fun (h : W256) => hExt h 2 = 0 ∧ hExt h 3 = 0 ∧ hExt h 4 = 0 ∧ hExt h 5 = 0
    let indexed := p.toNat < 2 ^ 38 ∧ p.toNat % 2 ^ 18 < 4 ∧ plain Hd ∧ plain Ha ∧ hExt Hd 0 = hExt Ha 0
    let secret := fun (small big : W256) => p.toNat < 2 ^ 38 ∧ p.toNat % 2 ^ 19 < 64 ∧ hCount small ≤ 65536 ∧ hCount big = hCount small + 48
    mat (.tld ta ha e) Ha 0 (A.conf = true) ∧ mat (.tldw ta sa e) 0 p (A.conf = true) ∧ mat (.tst ta ha e) Ha 0 (A.conf = true) ∧
    mat (.mma acc ta tb tya tyb ty z e) 0 0 (is A tya ∧ is B tyb ∧ B.cols = A.cols ∧ B.rows ≤ 128 ∧ tagged) ∧
    mat (.mmaw acc ta tb tya tyb ty z e) Hw 0 (is A tya ∧ hExt Hw 0 + 1 = A.cols ∧ hExt Hw 1 + 1 ≤ 128 ∧ tagged) ∧
    mat (.mmasp acc ta tb tya tyb ty z e) 0 0 (is A tya ∧ is B tyb ∧ B.cols = packed ∧ B.rows ≤ 128 ∧ meta' B.rows ∧ tagged) ∧
    mat (.mmaspw acc ta tb tya tyb ty z e) Hw 0
      (is A tya ∧ hExt Hw 0 + 1 = packed ∧ hExt Hw 1 + 1 ≤ 128 ∧ meta' (hExt Hw 1 + 1) ∧ tagged) ∧
    mat (.mtrans acc ta tya ty z e) 0 0 (is A tya ∧ A.rows ≤ 128 ∧ A.cols ≤ 128 ∧ tagged) ∧
    mat (.mperm acc ta tb tya ty z e) 0 0 (is A tya ∧ is B .i32 ∧ B.rows = 1 ∧ B.cols ≤ 128 ∧ A.cols ≤ 128 ∧ tagged) ∧
    mat (.mrsum acc ta tya ty z e) 0 0 (is A tya ∧ A.rows ≤ 128 ∧ tagged) ∧ mat (.mzero acc e) 0 0 True ∧
    mat (.mdrain acc tya rnd (.tile ta) e) 0 0 (is A tya ∧ A.rows ≤ 128 ∧ A.cols ≤ 128) ∧
    mat (.mdrain acc tya rnd (.handle ha) e) Ha 0 True ∧ mat (.mnop e) 0 0 True ∧
    cpy (.copy hd ha sa lock e) Hd Ha p (p.toNat < 16 ∧ p.toNat % 8 < 4 ∧ hCount Hd = hCount Ha) ∧
    cpy (.gath hd ha sa lock e) Hd Ha p indexed ∧ cpy (.scat hd ha sa lock e) Hd Ha p indexed ∧
    cpy (.fill size hd sa lock e) Hd 0 p True ∧ cpy (.reda op hd ha lock e) Hd Ha 0 (hCount Hd = hCount Ha) ∧
    cpy (.putc hd ha sa e) Hd Ha p (p.toNat % 64 < 4 ∧ hCount Hd = hCount Ha) ∧
    cpy (.rrot hd ha sa e) Hd Ha p (p.toNat < 4 ∧ hCount Hd = hCount Ha) ∧
    cpy (.copySeal hd ha sa e) Hd Ha p (secret Ha Hd) ∧ cpy (.copyOpen hd ha sa e) Hd Ha p (secret Hd Ha) ∧
    cpy (.cnop e) 0 0 0 True

/-- R190, R192, R193, R202, R251: the command at the head of a matrix queue starts once its wait is met and its core's earlier accesses
are performed, or faults; at its completion point it has its effect whole and sends its signal. -/
def Obligations.MatrixCommandsRun : Prop :=
  ∀ (t : Nat) (c : Cmd) (rest : List Cmd) (s : State),
    let b := s.run t
    let x := s.slot t b
    let start := exec (.matrixCommandStart t) s
    let done := exec (.matrixCommandComplete t) s
    let ends := fun (u : State) => done = .next (u.finishCmd t b true c)
    let reg := fun (r : TReg) (y : TileReg) => ends (s.modSlot t b fun x => x.setT r y)
    (s.tile t).idle = false → x.st = .busy → x.task.isSome = true → x.mq = c :: rest → c.fpend = none →
    (c.started = false → c.wtaken = true →
      ((∃ a ∈ x.accs, a.num < c.num ∧ a.pending = true) → start = .next s) ∧
      ((∀ a ∈ x.accs, a.num < c.num → a.pending = false) →
        (startBad t x c = none → start = .next ((s.modCmd t b true c.num fun y => { y with started := true }).arm t b true)) ∧
        ∀ f a d, startBad t x c = some (f, a, d) → start = .next (s.engineFault t b true c f a d))) ∧
    (c.started = false → done = .next s) ∧
    (c.started = true → (c.sigdue = true → ends s) ∧
      (c.sigdue = false → (∀ e, c.instr = .mnop e → ends s) ∧ (∀ a e, c.instr = .mzero a e → ends (s.modSlot t b fun x => x.setA a {})) ∧
        (∀ r h e, c.instr = .tld r h e →
          let y := x.getT r
          let ixs := tilePlaces y.ty y.rows y.cols c.ha
          ((∀ ix ∈ ixs, s.isPoisoned (halfKey t b + offOf c.ha ix) (tileBytes y.ty) = false) → reg r (s.loadTile t b y c.ha)) ∧
          ((∃ ix ∈ ixs, s.isPoisoned (halfKey t b + offOf c.ha ix) (tileBytes y.ty) = true) →
            ∃ a, done = .next (s.engineFault t b true c .hwPoison a 0))) ∧
        (∀ r h e, c.instr = .tst r h e →
          let y := x.getT r
          ends (s.storeHalf t b (tileStores y.ty y.rows y.cols c.ha (fun i j => tget 0 y.data (512 * i + j))
            fun i j => tget 0 y.scale (16 * i + j)))) ∧
        (∀ a ty rnd dst e, c.instr = .mdrain a ty rnd dst e → (x.getA a).chk = false →
          ends ((s.modSlot t b fun x => { x with mstat := x.mstat ||| mstatUnchk }).drainTo t b c (x.getA a) ty rnd dst))))

/-- R132, R133, R187, R197: an integer product of two tile registers adds, to each element (i, j) of its accumulator, or to zero under Z,
the sum over k of A(i, k) × B(j, k), modulo 2^32; the tag becomes INT32, and no element outside the product's rows and columns changes. -/
def Obligations.IntegerProducts : Prop :=
  ∀ (t : Nat) (c : Cmd) (rest : List Cmd) (acc : AReg) (ta tb : TReg) (tya tyb : Ty) (z : Bool) (e : Eng) (s : State),
    let b := s.run t
    let x := s.slot t b
    let A := x.getT ta
    let B := x.getT tb
    let whole := fun (ty : Ty) => ty = .i8 ∨ ty = .ui8 ∨ ty = .i4
    let value := fun (r : TileReg) (i k : Nat) => match readTy r.ty (tget 0 r.data (512 * i + k)) with
      | .int n => n
      | .flt _ => 0
    let old := fun (n : Nat) => tget 0 (x.getA acc).elems n
    (s.tile t).idle = false → x.st = .busy → x.task.isSome = true → x.mq = c :: rest → c.fpend = none → c.started = true →
    c.sigdue = false → c.count = 0 → c.instr = .mma acc ta tb tya tyb .i32 z e → whole tya → whole tyb →
    A.ty = tya → B.ty = tyb → A.cols = B.cols → 0 < A.cols → A.cols ≤ 512 → A.rows ≤ 128 → B.rows ≤ 128 →
    ∃ u, exec (.matrixCommandComplete t) s = .next u ∧
      let a := (u.slot t b).getA acc
      a.tag = .i32 ∧
      (∀ i < A.rows, ∀ j < B.rows, tget 0 a.elems (128 * i + j) =
        (if z then 0 else old (128 * i + j)) + BitVec.ofInt 32 (((List.range A.cols).map fun k => value A i k * value B j k).sum)) ∧
      (∀ i < 128, ∀ j < 128, (A.rows ≤ i ∨ B.rows ≤ j) → tget 0 a.elems (128 * i + j) = old (128 * i + j))

/-- R273–R281, R340–R343: the head of a copy queue starts under its checks, a command's next element is read and then written, and the
command completes when all are presented; an encrypted buffer takes the security core's step, which draws the counter of its stream;
the lockstep commands of a partition in a cluster start together. -/
def Obligations.CopyCommandsRun : Prop :=
  ∀ (t : Nat) (c : Cmd) (rest : List Cmd) (s : State),
    let b := s.run t
    let x := s.slot t b
    let one := exec (.copyCommandStart t 0 1 []) s
    let done := exec (.copyCommandComplete t) s
    let step := fun (code : Nat) (v : W64) (u : State) => u.modCmd t b false c.num fun y => { y with sealStep := some (code, v) }
    let k := slotNo c.param
    let y := s.keySlot k
    (s.tile t).idle = false → x.st = .busy → x.task.isSome = true → x.cq = c :: rest → c.fpend = none →
    (c.started = false → lockstep c.instr = false → x.copyReady = some c → ∀ f a d, s.copyBad x.header c = some (f, a, d) →
      exec (.copyCommandStart t 0 0 []) s = .next (s.engineFault t b false c f a d)) ∧
    (c.started = true → c.count < c.total →
      (∀ z hd sa l e u, c.instr = .fill z hd sa l e →
        s.writeNow x.header t b x.part (hAddr c.hd c.count) c.size (c.param.toNat % 256 ^ c.size)
          (coversBlock c.hd c.size (hAddr c.hd c.count)) = (.ok (), u) →
        one = .next (u.modCmd t b false c.num fun y => { y with count := y.count + 1 })) ∧
      (∀ hd ha sa l e, c.instr = .copy hd ha sa l e → c.param.getLsbD 3 = false →
        (∀ v u w, s.readNow x.header t b x.part (hAddr c.ha c.count) c.size = (.ok v, u) →
          u.writeNow (u.slot t b).header t b (u.slot t b).part (hAddr c.hd c.count) c.size v
            (coversBlock c.hd c.size (hAddr c.hd c.count)) = (.ok (), w) →
          one = .next (w.modCmd t b false c.num fun y => { y with count := y.count + 1 })) ∧
        (∀ f u, s.readNow x.header t b x.part (hAddr c.ha c.count) c.size = (.fault f, u) →
          one = .next (u.engineFault t b false c f (hAddr c.ha c.count) (BitVec.ofNat 64 c.count))))) ∧
    (c.started = true → c.sigdue = true → done = .next (s.finishCmd t b false c)) ∧
    (c.started = true → c.sigdue = false → encrypted c.instr = false → isRrot c.instr = false →
      (∀ hd ha sa e, c.instr ≠ .putc hd ha sa e) →
      (c.total ≤ c.count → done = .next (s.finishCmd t b false c)) ∧ (c.count < c.total → done = .next s)) ∧
    (c.started = true → c.sealStep = none → s.serves .security = true → ∀ hd ha sa e,
      (c.instr = .copySeal hd ha sa e →
        let act := exec (.copySealCounterStep t) s
        (y.streamOf x.part = false → act = .next (step 3 0 s)) ∧
        (y.streamOf x.part = true → y.ctrs = BitVec.allOnes 64 → act = .next (step 6 0 s)) ∧
        (y.streamOf x.part = true → y.ctrs ≠ BitVec.allOnes 64 →
          act = .next (step 0 (y.ctrs + 1) (s.putKeySlot k { y with ctrs := y.ctrs + 1 })))) ∧
      (c.instr = .copyOpen hd ha sa e → c.indexed = true →
        let act := exec (.copyOpenCounterStep t) s
        let bs := c.index.map BitVec.toNat
        (∀ code, openCode y x.part (hCount c.hd) bs = some code → act = .next (step code 0 s)) ∧
        (openCode y x.part (hCount c.hd) bs = none → hCount c.ha ≤ bs.length → openText y (hCount c.hd) bs = none → act = .next (step 1 0 s)))) ∧
    (∀ die cluster, (∀ q, s.participants die cluster q ≠ [] → ∃ u ∈ s.participants die cluster q, s.readyLockstep q u = none) →
      exec (.lockstepRendezvous die cluster) s = .next s) ∧
    (∀ die cluster p, let ts := s.participants die cluster p
      ts ≠ [] → (∀ u ∈ ts, (s.readyLockstep p u).isSome = true) → (∀ q < p, s.participants die cluster q = []) →
      exec (.lockstepRendezvous die cluster) s = .next (ts.foldl (fun z u => match s.readyLockstep p u with
        | some c => z.startCopy u (s.run u) c (some s.nextNum) (s.successor ts u)
        | none => z) { s with nextNum := s.nextNum + 1 }))

/-! ### The Sward unit and the weight engines (R203–R220, R318–R334) -/

/-- R207, R208, R323: a Sward or weight command reads its operands at issue and holds its core with the offer, after its wait cell's
need where it names one; a cell of another partition raises ISO.WINDOW, and a pop waits for the pops before it. WSTAT reads the
status of a region that the partition owns, and 7 for any other. -/
def Obligations.OffersAreMade : Prop :=
  ∀ (sx sy : SReg) (v : VReg) (row : BitVec 4) (h : HReg) (sd : SReg) (e : Eng) (s : State),
    let x := s.core
    let X := x.getS sx
    let Y := x.getS sy
    let H := x.getH h
    let offers := fun (i : Instr) (mk : Offer → Offer) =>
      let o := mk { instr := i, num := s.nextNum, words := x.gwords, addr := x.ipc, wid := x.wid, header := x.header }
      (e.wait = none → Issues i s → Waits i s
        (({ s with nextNum := s.nextNum + 1 } : State).modCore fun x => { x with hold := .offer o })) ∧
      (∀ c w, e.wait = some (c, w) →
        ((s.cell s.cur c.toNat).ownedBy x.part = false → Issues i s → Traps i s .isoWindow (cellAddr s.cur c.toNat) 0) ∧
        ((s.cell s.cur c.toNat).ownedBy x.part = true → Issues i s →
          ∃ u, exec i s = .next u ∧ (u.core.hold = .offerWait o ∨ u.core.hold = .offer o) ∧ u.core.pc = x.pc ∧
            (∀ r, u.core.getS r = x.getS r) ∧ u.mem = s.mem))
    offers (.swopen sx sy e) (fun o => { o with x := X, y := Y }) ∧ offers (.swqry sx sy e) (fun o => { o with x := X, y := Y }) ∧
    offers (.swapp sx sy v row e) (fun o => { o with x := X, y := Y, toks :=
      (List.range (min Y.toNat (1024 - 64 * row.toNat))).map fun i => (x.getV v).get (64 * row.toNat + i) }) ∧
    offers (.swevt sx sy e) (fun o => { o with x := X, y := Y }) ∧ offers (.swsave sx sy e) (fun o => { o with x := X, y := Y }) ∧
    offers (.swload sx sy e) (fun o => { o with x := X, y := Y }) ∧ offers (.swclose sx e) (fun o => { o with x := X }) ∧
    ((∀ o ∈ s.swOpsOf s.cur (s.run s.cur), o.writesV = []) → offers (.swpop v sx row e) (fun o => { o with x := X, vd := x.phys v })) ∧
    ((∃ o ∈ s.swOpsOf s.cur (s.run s.cur), o.writesV ≠ []) → Issues (.swpop v sx row e) s → Waits (.swpop v sx row e) s s) ∧
    offers (.wprog sx h e) (fun o => { o with x := X, ha := H }) ∧ offers (.wprogs sx h sy e) (fun o => { o with x := X, y := Y, ha := H }) ∧
    offers (.wfree sx e) (fun o => { o with x := X }) ∧ offers (.wmeas h sx e) (fun o => { o with x := X, ha := H }) ∧
    offers (.wscrub sx e) (fun o => { o with x := X }) ∧ offers (.wchk h sx e) (fun o => { o with x := X, ha := H }) ∧
    (let k := regionNo X.toNat
     let i := Instr.wstat sd sx
     (wAddrBad X = true → Issues i s → Traps i s .progAddr X 0) ∧
     (wAddrBad X = false → X.toNat % 2 ^ 26 ≠ 0 → Issues i s → Traps i s .progAlign X 0) ∧
     (wAddrBad X = false → X.toNat % 2 ^ 26 = 0 → Issues i s →
       Completes i s (s.modCore fun y => y.setS sd (if (s.region k).ownedBy k x.part then (s.region k).word else 7)) 0))

/-- R203–R216: the unit of a die takes the offer of the next tile in turn, or refuses it with the fault of its checks; SWOPEN reserves a
quota, SWQRY counts and records its query; then an append, an eviction, a query and a close, each first on its context, do what
their rules say. -/
def Obligations.SwardCommandsRun : Prop :=
  ∀ (d : Nat) (s : State),
    let turn := fun (i : Nat) => d * 48 + ((s.die d).swLast + 1 + i) % 48
    (∀ i < 48, ∀ o, (∀ j < i, ∀ o', s.offerOf (turn j) = some o' → isSward o'.instr = false) → s.offerOf (turn i) = some o →
      isSward o.instr = true →
      let t := turn i
      let b := s.run t
      let x := s.slot t b
      let u := s.modDie d fun y => { y with swLast := t }
      let acc := exec (.swardAccept d) s
      (∀ f, s.swardBad d x o = some f →
        acc = .next (u.modSlot t b fun x => x.trap f (if f = .progAlign then o.y else 0) 0)) ∧
      (s.swardBad d x o = none → ∀ k, x.task = some k →
        let op : SwOp := { id := s.nextNum, tile := t, slot := b, task := k.num, part := x.part, offer := o,
                           serial := (((s.die d).ctx o.x.toNat).map SwCtx.serial).getD 0 }
        let w := (({ u with nextNum := s.nextNum + 1 } : State).modSlot t b Slot.release).modDie d fun y =>
          { y with swOps := y.swOps ++ [op] }
        (∀ sx sy e, o.instr = .swopen sx sy e →
          (∀ n, w.reserve d x.part o.y.toNat = some n → acc = .next (((w.openCtx d n ⟨x.part, o.y.toNat, 0, 0, [], 0, false⟩).modSlot t b
            fun x => x.setS sx (BitVec.ofNat 64 n)).finishOp d op)) ∧
          (w.reserve d x.part o.y.toNat = none →
            acc = .next ((w.modSlot t b fun x => x.setS sx (BitVec.allOnes 64)).finishOp d op))) ∧
        (∀ sx sy e, o.instr = .swqry sx sy e → acc = .next ((w.modDie d fun y => y.modCtx o.x.toNat fun c =>
          { c with serial := c.serial + 1 }).modSlot t b fun x => { x with queries := x.queries ++ [⟨o.x.toNat, s.nextNum, none, false⟩] })) ∧
        (∀ sx sy v row e, o.instr = .swapp sx sy v row e → acc = .next w) ∧
        (∀ sx e, o.instr = .swclose sx e → acc = .next (w.modDie d fun y => y.modCtx o.x.toNat fun c => { c with closing := true })))) ∧
    (∀ i o c, (s.die d).swOps[i]? = some o → o.fpend = none → o.sigdue = false → (∀ y ∈ (s.die d).swOps.take i, y.ctx ≠ o.ctx ∨ y.sigdue = true ∨ y.fpend.isSome = true) →
      (s.die d).ctx o.offer.x.toNat = some c →
      let n := o.offer.x.toNat
      let act := exec (.swardPerform d i) s
      (∀ sx sy v row e, o.offer.instr = .swapp sx sy v row e →
        let ts := o.offer.toks.map fun w => w.setWidth 24
        act = .next ((s.modDie d fun y => y.modCtx n fun c =>
          let cut := c.win.length + ts.length - c.quota
          { c with win := (c.win ++ ts).drop cut, base := c.base + cut, stop := c.stop + ts.length }).finishOp d o)) ∧
      (∀ sx sy e, o.offer.instr = .swevt sx sy e →
        act = .next ((s.modDie d fun y => y.modCtx n fun c => c.evict o.offer.y.toNat).finishOp d o)) ∧
      (∀ sx e, o.offer.instr = .swclose sx e → act = .next ((s.modDie d fun y => y.dropCtx n).finishOp d o)) ∧
      (∀ sx sy e, o.offer.instr = .swqry sx sy e → act = .next ((s.modTask d o.task (storeAnswer o.id
        (swAnswer c.win c.base (o.offer.y.toNat % 128) (o.offer.y.toNat / 256 % 32) o.serial))).finishOp d o)))

/-- R205, R206: the answer to a query is the longest match, of at most Lmax tokens and 64, between the end of the window and an
earlier place in it, and of those the latest; the draft is what followed there, at most k tokens. -/
def Obligations.QueriesFindTheLongestMatch : Prop :=
  ∀ (w : List (BitVec 24)) (base lmax k : Nat) (serial : W32), w.length < 2 ^ 22 → base < 2 ^ 31 →
    let n := w.length
    let top := min lmax 64
    let occurs := fun (l p : Nat) => l ≤ p + 1 ∧ p + 1 < n ∧ ∀ i < l, w[p - i]? = w[n - 1 - i]?
    let a := swAnswer w base lmax k serial
    ((∀ l p, 1 ≤ l → l ≤ top → ¬ occurs l p) → a = ⟨0, 0, 0xFFFFFFFF, serial, []⟩) ∧
    (∀ l p, 1 ≤ l → l ≤ top → l ≤ n → occurs l p → (∀ q, p < q → ¬ occurs l q) → (∀ m q, l < m → m ≤ top → m ≤ n → ¬ occurs m q) →
      let draft := (w.drop (p + 1)).take (min k (n - 1 - p))
      a = ⟨BitVec.ofNat 32 l, BitVec.ofNat 32 draft.length, BitVec.ofNat 32 (base + p + 1), serial, draft.map (·.setWidth 32)⟩)

/-- R318–R321, R323–R328, R333: a die's engine takes the next offer, refuses it with the fault of its checks, and begins its oldest
command, which a region in the wrong state ends with result 4; WFREE ends with its lines programmed to zeros, WMEAS
records the digest of an unsealed region, WCHK compares it, and a region with a poisoned line ends both ABORTED. A scrub
of a line with few errors changes nothing, and one of a line with more than sixteen poisons it. -/
def Obligations.WeightCommandsRun : Prop :=
  ∀ (d : Nat) (s : State), s.serves (.programming (BitVec.ofNat 2 d)) = true →
    let turn := fun (i : Nat) => d * 48 + ((s.die d).wLast + 1 + i) % 48
    (4 ≤ s.devstat.toNat → (s.die d).wq.length < 64 → ∀ i < 48, ∀ o,
      (∀ j < i, ∀ o', s.offerOf (turn j) = some o' → isWeightCommand o'.instr = false) → s.offerOf (turn i) = some o →
      isWeightCommand o.instr = true →
      let t := turn i
      let b := s.run t
      let x := s.slot t b
      let u := s.modDie d fun y => { y with wLast := t }
      let acc := exec (.weightCommandAccept d) s
      (∀ f, s.weightBad d x.part o = some f → acc = .next (u.modSlot t b fun x => x.trap f o.x 0)) ∧
      (s.weightBad d x.part o = none → ∀ k, x.task = some k →
        acc = .next ((({ u with nextNum := s.nextNum + 1 } : State).modSlot t b Slot.release).modDie d fun y =>
          { y with wq := y.wq ++ [{ id := s.nextNum, tile := t, slot := b, task := k.num, part := x.part, offer := o }] }))) ∧
    (∀ c r, (s.die d).wq = c :: r → c.started = false → s.releasedFor d c.task c.offer.num = true →
      let k := c.region
      let g := s.region k
      let act := exec (.weightCommandStart d) s
      let begins := fun (u : State) => act = .next (u.markStarted d c)
      (∀ sa h e, c.offer.instr = .wprog sa h e →
        (g.st = .locked ∨ g.sealed = true ∨ g.st = .programming → act = .next (s.endWeight d c 4)) ∧
        (g.st ≠ .locked → g.sealed = false → g.st ≠ .programming → begins (s.setRegSt k .programming))) ∧
      (∀ sa h sb e, c.offer.instr = .wprogs sa h sb e → g.st ≠ .free → act = .next (s.endWeight d c 4)) ∧
      (∀ sa e, c.offer.instr = .wfree sa e →
        (g.st = .programming → act = .next (s.endWeight d c 4)) ∧
        (g.st ≠ .programming → begins (s.modRegion k fun g => { g with st := .free, sealed := false, digest := none }))) ∧
      (∀ h sa e, c.offer.instr = .wmeas h sa e ∨ c.offer.instr = .wchk h sa e ∨ c.offer.instr = .wscrub sa e →
        ((g.st = .opened ∨ g.st = .locked) → begins s) ∧ (g.st = .free ∨ g.st = .programming → act = .next (s.endWeight d c 4)))) ∧
    (∀ c r l, (s.die d).wq = c :: r → c.started = true →
      let k := c.region
      let act := exec (.weightCommandComplete d l) s
      (∀ sa e, c.offer.instr = .wfree sa e →
        act = .next ((s.zeroLines k l).2.endWeight d c (if (s.zeroLines k l).1 then 0 else 1))) ∧
      (∀ h sa e, c.offer.instr = .wchk h sa e ∨ c.offer.instr = .wmeas h sa e →
        let u := s.modRegion k fun g => g.poisonLines l
        let D := digestOf (u.measure k)
        ((u.region k).bad ≠ [] → act = .next (u.abortWeight d c .hwPoison c.offer.x 0)) ∧
        ((u.region k).bad = [] → ∀ t b w a, u.weightPlace d c = .ok (t, b) →
          u.putHandleBytes c t b (u.measure k) 0 = (.ok (), a, w) →
          (c.offer.instr = .wchk h sa e →
            ((w.region k).digest = none → act = .next (w.endWeight d c 6)) ∧
            ((w.region k).digest = some D → act = .next (w.endWeight d c 0)) ∧
            (∀ D', (w.region k).digest = some D' → D' ≠ D → act = .next (w.endWeight d c 5))) ∧
          (c.offer.instr = .wmeas h sa e → act = .next ((w.modRegion k fun g =>
            if g.sealed then g else { g with digest := some D }).endWeight d c 0))))) ∧
    (∀ t (r : BitVec 5) (line : BitVec 14) errs bad, dieOf t = d → (∀ c ∈ (s.die d).wq, c.started = false) →
      let k := t * 32 + r.toNat
      let act := exec (.scrubLine t r line errs bad) s
      (s.region k).st = .opened ∨ (s.region k).st = .locked →
      (errs ≤ 8 → act = .next s) ∧ (16 < errs → act = .next (s.modRegion k fun g => g.poison line.toNat)))

/-! ### Drawer links (R103–R115, R316) -/

/-- R106–R115: a committed table is pended where it is well formed and reported where it is not, and takes effect at a frame boundary; an
outbound slot sends the oldest request of its owner that it may, and passes idle while its link is not UP or waits to replay; a
damaged frame makes every unresolved request wait to be sent again, and an intact one resolves the oldest; a link loses lock, locks
again with a new generation, is declared DOWN with its requests discarded, and is brought back. -/
def Obligations.LinksCarryRequests : Prop :=
  ∀ (l : Nat) (delta : BitVec 10) (v : W64) (s : State),
    let x := s.link l
    let dst := fun (e : Instr) (f : Link → Link) => exec e s = .next (s.modLink l f)
    let up := fun (y : Link) => { y with st := 0, gen := y.gen + 1, delta := delta }
    let unsent := x.queue.map fun r => { r with sent := none }
    (v.getLsbD 0 = false → exec (.swcmt l v) s = .next s) ∧
    (v.getLsbD 0 = true → s.serves (linkFw l) = true →
      (validTable (s.shadow l) = true →
        exec (.swcmt l v) s = .next ((s.modLink l fun y => { y with pending := some (s.shadow l) }).putReg (.swstat l) (s.reg (.swstat l) ||| 4))) ∧
      (validTable (s.shadow l) = false → exec (.swcmt l v) s = .next (s.putReg (.swstat l) (s.reg (.swstat l) ||| 2)))) ∧
    (x.slot % 512 ≠ 0 → exec (.frameBoundary l) s = .next s) ∧
    (x.slot % 512 = 0 → ∀ tab, x.pending = some tab → x.st ≠ 0 →
      exec (.frameBoundary l) s = .next ((s.modLink l fun y => { y with active := tab, pending := none }).putReg (.swstat l)
        ((s.reg (.swstat l) &&& ~~~4) ||| 1))) ∧
    (x.slot % 512 ≠ 0 → let e := tget 0 x.active (x.slot % 512)
      ((x.st ≠ 0 ∨ x.replay = true ∨ swKind e = 0) → dst (.outboundSlot l) fun y => { y with slot := y.slot + 1 }) ∧
      (x.st = 0 → x.replay = false → swKind e = 1 → ∀ r rest, x.queue = r :: rest → r.part = swOwner e → r.sent = none → r.write = true →
        r.merge = false →
        dst (.outboundSlot l) fun y => { y with slot := y.slot + 1, queue := { r with sent := some x.slot } :: rest }) ∧
      (x.st = 0 → x.replay = false → swKind e = 2 → ∀ r rest, x.queue = r :: rest → r.part = swOwner e → r.sent = none → r.write = true →
        r.merge = false → dst (.outboundSlot l) fun y => { y with slot := y.slot + 1 })) ∧
    (∀ intact tagOk, x.st ≠ 0 → exec (.inboundFrame l intact tagOk) s = .next s) ∧
    (∀ tagOk, x.st = 0 → dst (.inboundFrame l false tagOk) fun y => { y with queue := unsent, replay := true }) ∧
    (∀ tagOk, x.st = 0 → (∀ r ∈ x.queue, r.sent = none) → exec (.inboundFrame l true tagOk) s = .next s) ∧
    (∀ tagOk r n, x.st = 0 → x.queue = [r] → r.sent = some n → r.merge = false → r.write = false → (s.part r.part).prot = false →
      r.items ≠ [] →
      let found := r.items.map fun i => (i.elem,
        if s.isPoisoned (homeKey 0x10 i.pa) i.n then none else some (s.readMem (homeKey 0x10 i.pa) i.n))
      exec (.inboundFrame l true tagOk) s = .next ((s.modLink l fun y => { y with queue := [] }).fillElems r found)) ∧
    (x.st = 0 → dst (.linkLossOfLock l) fun y => { y with queue := unsent, replay := true, st := 1 }) ∧
    (x.st ≠ 0 → exec (.linkLossOfLock l) s = .next s) ∧
    (x.st = 1 ∨ x.st = 3 → 128 ≤ delta.toNat → s.serves (linkFw l) = true → dst (.linkRelock l delta) up) ∧
    (x.st ≠ 1 → x.st ≠ 3 → exec (.linkRelock l delta) s = .next s) ∧
    (x.st = 1 → (∀ r ∈ x.queue, ∀ a, (s.slot r.tile r.slot).accs.getLast? = some a → a.num ≠ r.acc) → ∃ u,
      exec (.linkDownDeclare l) s = .next u ∧ (u.link l).st = 2 ∧ (u.link l).queue = [] ∧ ∀ t b, u.slot t b = s.slot t b) ∧
    (x.st = 1 → ∀ r a as e es, x.queue = [r] → (s.slot r.tile r.slot).hold = .reply → (s.slot r.tile r.slot).accs = as ++ [a] → a.num = r.acc →
      a.elems = e :: es → e.done = false →
      exec (.linkDownDeclare l) s = .next ((s.modLink l fun y => { y with st := 2, queue := [] }).modSlot r.tile r.slot fun z =>
        { z with accs := as }.trap .linkDown e.va (BitVec.ofNat 64 e.lane))) ∧
    (x.st ≠ 1 → exec (.linkDownDeclare l) s = .next s) ∧
    (x.st = 2 → 128 ≤ delta.toNat → dst (.linkBroughtBackToUp l delta) fun y => { up y with replay := false })

/-- R109, R115, R259, R307: the drawer access that a core waits for is translated and checked, an element that fails a check is refused with
that fault, an element whose link is DOWN with LINK.DOWN, the elements of a vector store before it being performed; otherwise it leaves one
request for each block of 256 bytes in the queue of the block's link. -/
def Obligations.DrawerAccessesBecomeRequests : Prop :=
  ∀ (t : Nat) (as : List Access) (a : Access) (s : State),
    let b := s.run t
    let x := s.slot t b
    let act := exec (.drawerRequest t as.length) s
    let down := fun (e : Elem) => (s.link (linkOf (offBits e.va))).st = 2
    let refused := fun (u : State) (f : FaultName) (before : List Elem) (e : Elem) =>
      act = .next ((if a.op = .vstore then u.storePrefix x.part a.size before else u).modSlot t b fun x =>
        { x with accs := as }.trap f e.va (BitVec.ofNat 64 e.lane))
    x.hold = .reply → x.accs = as ++ [a] → a.handed = false → (∀ e ∈ a.elems, homeBits e.va = 0x10) → (s.part x.part).keysDue = false →
    (∀ f pre bad u, s.acceptElems t b x.part a.size a.elems = (.fault f, pre, bad, u) → (∀ e ∈ pre, ¬ down e) → refused u f pre bad) ∧
    (∀ es pre bad u, s.acceptElems t b x.part a.size a.elems = (.ok es, pre, bad, u) →
      (∀ p e r, es = p ++ e :: r → (∀ q ∈ p, ¬ down q) → down e → refused u .linkDown p e) ∧
      ((∀ e ∈ es, ¬ down e) →
        ∃ w, act = .next w ∧ w.mem = u.mem ∧
          (w.slot t b).accs = (u.slot t b).accs.set as.length { a with elems := es, accepted := true, handed := true } ∧
          ∀ l, (w.link l).queue = (u.link l).queue ++ (requestsOf t b x.part a es).filter fun r => linkOf (r.block * 256) == l))

/-! ### The host, peers and configuration (R8, R67, R234, R235, R299–R312, R321, R354, R385–R396) -/

/-- R234, R235, R386, R387, R393: a host request that its checks admit is performed as its partition's or refused, a refused one leaving
HERR and its vector; a peer's request for this package is translated by its tables, performed and answered, and any other is
forwarded or refused; a port that has replayed sixteen times is down. -/
def Obligations.OutsideRequestsAreServed : Prop :=
  ∀ (p : PartNo) (off : W32) (data : W64) (q : PeerReq) (port : Nat) (s : State),
    let va := barAddr off
    let write := fun (n : Nat) => exec (.hostPostedWrite p off n data) s
    let read := fun (n : Nat) => exec (.hostRead p off n) s
    let answer := fun (v : Option W64) (u : State) => u.modPart p fun x => { x with reads := v :: x.reads }
    let seen := (s.part p).en = true ∧ 5 ≤ s.devstat.toNat
    let peer := exec (.peerRequest q) s
    let here := q.dest = (s.reg .pkgid).extractLsb' 0 6
    let x : Port := tget {} s.ports port
    let flit := fun (good : Bool) (y : Port) => exec (.vonyxFlitReceive port good) s = .next { s with ports := tput s.ports port y }
    (¬ seen → ∀ n, write n = .next s ∧ read n = .next (answer none s)) ∧
    (seen → ∀ n, n = 4 ∨ n = 8 →
      (offBits va % n ≠ 0 → write n = .next (s.hostError p va .progAlign) ∧
        read n = .next (answer none (s.hostError p va .progAlign))) ∧
      (offBits va % n = 0 → (∀ t c k, spaceOf va ≠ .cell t c k) →
        (∀ u, s.writeNow 0 0 0 p va n (data.toNat % 256 ^ n) false = (.ok (), u) → write n = .next u) ∧
        (∀ f u, s.writeNow 0 0 0 p va n (data.toNat % 256 ^ n) false = (.fault f, u) → write n = .next (u.hostError p va f)) ∧
        ((s.part p).prot = false → ∀ v u, s.readNow 0 0 0 p va n = (.ok v, u) → read n = .next (answer (some (BitVec.ofNat 64 v)) u)))) ∧
    (here → s.peerEntry q.part q.offset.toNat = none → (∀ tag, q.op ≠ .cancel tag) → peer = .next (s.peerAnswer q (some .xlatMiss) 0)) ∧
    (here → ∀ e, s.peerEntry q.part q.offset.toNat = some e →
      let va := e.base + BitVec.ofNat 64 (q.offset.toNat - e.lo)
      peerHome va = true →
      (∀ n v u, q.op = .load n → s.readNow 0 0 0 e.part va n = (.ok v, u) → peer = .next (u.peerAnswer q none (BitVec.ofNat 256 v))) ∧
      (∀ n d u, q.op = .store n d → s.writeNow 0 0 0 e.part va n (d.toNat % 256 ^ n) false = (.ok (), u) →
        peer = .next (u.peerAnswer q none 0))) ∧
    (¬ here → (∀ k, s.portFor q.dest.toNat q.tile.toNat = some k →
        (q.hops < 8 → peer = .next { s with forwarded := (k, { q with hops := q.hops + 1 }) :: s.forwarded }) ∧
        (8 ≤ q.hops → peer = .next { s with refused := q :: s.refused })) ∧
      (s.portFor q.dest.toNat q.tile.toNat = none → peer = .next { s with refused := q :: s.refused })) ∧
    (port < 48 → x.down = false → x.keyed = true → flit true { x with replays := 0 } ∧
      (x.replays < 15 → flit false { x with replays := x.replays + 1 }) ∧
      (15 ≤ x.replays → ∃ u, exec (.vonyxFlitReceive port false) s = .next u ∧ (tget ({} : Port) u.ports port).down = true))

/-- R299–R305, R321, R331, R388: a partition is enabled, or begins to be cleared; a clearing ends once none of its slots is assigned, and leaves
nothing of the partition; a slot that is assigned is cleared first, and its half is zero after; a cell that changes owner is zero; a
region's owner changes while no command uses it. -/
def Obligations.PartitionsAreConfigured : Prop :=
  ∀ (p : PartNo) (v : W64) (t : Nat) (s : State),
    let x := s.part p
    let locked := x.tdisp = .configLocked ∨ x.tdisp = .run
    let cfg := exec (.pcfgWrite p v) s
    (locked → cfg = .next s) ∧
    (¬ locked → (x.en = true → (v.getLsbD 0 = true → cfg = .next s) ∧ (v.getLsbD 0 = false → cfg = .next (s.startClearing p))) ∧
      (x.en = false → let on := v.getLsbD 0 && !x.clrBusy
        cfg = .next (s.modPart p fun x => { x with en := on, prot := v.getLsbD 1, keysDue := on && v.getLsbD 1 }))) ∧
    (x.keysDue = true → s.serves .security = true → exec (.drawerKeysPlaced p) s =
      .next ({ s with fresh := s.fresh + 3 }.modPart p fun x => { x with keys := some s.fresh, keysDue := false })) ∧
    (∃ u, exec (.tdispError p) s = .next u ∧ (u.part p).tdisp = .error ∧ (u.part p).en = false) ∧
    (∀ dst, exec (.tdispInterfaceRequest p dst) s = .next (
      if dst = .unlocked ∨ (dst = .configLocked ∧ x.tdisp = .unlocked) ∨ (dst = .run ∧ x.tdisp = .configLocked) then
        s.modPart p fun x => { x with tdisp := dst } else s)) ∧
    (x.clrBusy = true → (∀ u ∈ s.knownTiles, s.holder u 0 ≠ some p ∧ s.holder u 1 ≠ some p) →
      ∃ u, exec (.partitionClearDone p) s = .next u ∧ (u.part p).clrBusy = false ∧ (u.part p).fq = [] ∧ (u.part p).recs = [] ∧
        (u.part p).seq = 0 ∧ (u.part p).keys = none ∧ (∀ k ∈ u.saved, k.part ≠ p) ∧ (∀ k ∈ u.parked, k.part ≠ p) ∧
        (∀ r ∈ u.locks, r.part ≠ p) ∧ (∀ d < 4, ∀ l < 8, (u.ring d p l).recs = []) ∧ u.mem = s.mem) ∧
    ((∃ u ∈ s.knownTiles, s.holder u 0 = some p ∨ s.holder u 1 = some p) → exec (.partitionClearDone p) s = .next s) ∧
    (let y := s.tile t
     let q : PartNo := v.extractLsb' 0 4
     v.extractLsb' 5 4 = y.tslot.pb → v.getLsbD 9 = y.tslot.vb →
     ((s.slot t 0).task.isSome = true → exec (.tslotWrite t v) s = .next s) ∧
     ((s.slot t 0).task = none → (s.slot t 0).writeOut = false → (v.getLsbD 4 = true → (s.part q).en = true) →
       (y.tslot.pa, y.tslot.va) ≠ (q, v.getLsbD 4) → exec (.tslotWrite t v) s =
         .next ((s.modTile t fun z => { z with tslot := { z.tslot with pa := q, va := v.getLsbD 4 } }).modSlot t 0 fun z =>
           { z with st := .clearing }))) ∧
    (∀ b : Bool, let n := if b then 1 else 0
      let k := halfKey t n
      ((s.slot t n).st ≠ .clearing → exec (.slotClearDone t b) s = .next s) ∧
      ((s.slot t n).st = .clearing → s.Safe → ∃ u, exec (.slotClearDone t b) s = .next u ∧ u.slot t n = {} ∧
        u.slot t (1 - n) = s.slot t (1 - n) ∧ ∀ a, memGet u.mem a = if k ≤ a ∧ a < k + 0x400000 then 0 else memGet s.mem a)) ∧
    (∀ c : CellNo, (s.tile t).waiters = [] → let y := s.cell t c.toNat
      let q : PartNo := v.extractLsb' 0 4
      (y.v = v.getLsbD 4 → y.part = q → exec (.cownWrite t c v) s = .next s) ∧
      (¬(y.v = v.getLsbD 4 ∧ y.part = q) →
        exec (.cownWrite t c v) s = .next (s.putCell t c.toNat { v := v.getLsbD 4, part := q })) ∧
      (y.v = false → exec (.ccfgwWrite t c v) s = .next s) ∧
      (y.v = true → ∀ z, y.ccfg v = .ok z → exec (.ccfgwWrite t c v) s = .next (s.putCell t c.toNat z))) ∧
    (∀ (r : BitVec 5), let k := t * 32 + r.toNat
      let q : PartNo := v.extractLsb' 0 4
      k ≠ lmsRegion → t < 192 → ¬((s.region k).v = v.getLsbD 4 ∧ (s.region k).part = q) → (s.region k).st ≠ .programming →
      (∀ c ∈ (s.die (dieOf t)).wq, c.region ≠ k) →
      exec (.wownWrite t r v) s = .next (s.modRegion k fun g => { g with
        v := v.getLsbD 4, part := q, st := if g.sealed = true ∧ g.st = .opened then .locked else g.st }))

/-- R306, R308, R311, R312: a window that ends past its home, or meets another partition's, is refused and reported; one that is put in
force, and an invalidation, make the home BUSY until every access made before is performed; an invalidation drops the entries of its
partition that it names from every unit of its home. -/
def Obligations.WindowsAndInvalidations : Prop :=
  ∀ (home : BitVec 7) (p : PartNo) (w : BitVec 4) (v : W64) (unit : BitVec 3) (off : BitVec 41) (s : State),
    let h := home.toNat
    let m := v &&& 0x1FFFFFFF1FFFFFFF
    let open' := (s.part p).tdisp ≠ .configLocked ∧ (s.part p).tdisp ≠ .run
    let top := if h = 0x10 then 0x80000000000 else 0x8000000
    let taken := ∃ q : PartNo, q ≠ p ∧ ∃ i < 16, winSize (s.pwin h q i) ≠ 0 ∧ winBase m < winBase (s.pwin h q i) + winSize (s.pwin h q i) ∧
      winBase (s.pwin h q i) < winBase m + winSize m
    let act := exec (.pwinWrite home p w v) s
    let put : State := { s with pwins := tput s.pwins (pwinNo h p w.toNat) m }
    let bad := winSize m ≠ 0 ∧ (top < winBase m + winSize m ∨ taken)
    (¬ open' → act = .next s) ∧
    (open' → h = 0x20 → act = .next put) ∧
    (open' → (h = 1 ∨ h = 2 ∨ h = 3 ∨ h = 4 ∨ h = 0x10) →
      (bad → act = .next (s.putReg (.xstat (homeUnit h)) (s.reg (.xstat (homeUnit h)) ||| 2))) ∧
      (¬ bad → act = .next ((put.startDrain (homeUnit h)).retryRecords h))) ∧
    (unit.toNat ≤ 4 → ∀ k ∈ unitsOf (unitHome unit),
      (∃ u, exec (.tinvAll unit p) s = .next u ∧ (u.unit k).tlb = (s.unit k).tlb.filter (fun e => e.part != p) ∧
        (u.reg (.xstat unit)).getLsbD 2 = true) ∧
      (∃ u, exec (.tinvPage unit p off) s = .next u ∧
        (u.unit k).tlb = (s.unit k).tlb.filter (fun e => !e.covers p (off.toNat * 0x10000)) ∧ (u.reg (.xstat unit)).getLsbD 2 = true)) ∧
    (∀ n, (s.unit (drainUnit unit)).drain = some n →
      (s.accessesBefore (unitHome unit) n = true → exec (.invalidationDrainEnd unit) s = .next s) ∧
      (s.accessesBefore (unitHome unit) n = false → exec (.invalidationDrainEnd unit) s =
        .next ((s.modUnit (drainUnit unit) fun x => { x with drain := none }).putReg (.xstat unit) (s.reg (.xstat unit) &&& ~~~4))))

/-- R8, R67, R204, R354, R357, R362, R392: a plain register takes the bits that it holds, a status bit clears where one is written, a ring
register keeps its value while its level holds records; a region table is installed whole or not at all; the host pops and answers
fault records. -/
def Obligations.RegistersAreWritten : Prop :=
  ∀ (p : PartNo) (t l : Nat) (d : BitVec 2) (n : BitVec 3) (v : W64) (s : State),
    let writes := fun (r : CfgReg) (w : W64) => exec (.configRegisterWrite r v) s = .next (s.putReg r w)
    let keeps := fun (r : CfgReg) => exec (.configRegisterWrite r v) s = .next s
    let low := fun (k : Nat) => v &&& BitVec.ofNat 64 (2 ^ k - 1)
    let clears := fun (r : CfgReg) (m : W64) => writes r (s.reg r &&& ~~~(v &&& m))
    let busy := s.lqocc d.toNat p n.toNat ≠ 0 ∨ (s.ring d.toNat p n.toNat).sqHead ≠ (s.ring d.toNat p n.toNat).sqTail
    let answers := fun (e : Instr) (a : Answer) =>
      (∀ u, s.answer p (v &&& ~~~127) a = some u → exec e s = .next u) ∧
      (s.answer p (v &&& ~~~127) a = none → exec e s = .next (s.putReg (.fqstat p) (s.reg (.fqstat p) ||| 1)))
    writes (.fhold t) (low 32) ∧ writes (.tslice t) (low 32) ∧ writes (.proster p) v ∧ writes (.drstall p) (low 32) ∧
    writes (.fqvec p) (low 6) ∧ writes (.rtbase p) v ∧ writes (.rtcount p) (low 9) ∧ writes .pkgid (low 6) ∧
    (swPool < v.toNat % 2 ^ 23 → writes (.swshare d p) (BitVec.ofNat 64 swPool)) ∧
    (v.toNat % 2 ^ 23 ≤ swPool → writes (.swshare d p) (low 23)) ∧
    clears (.lqstat d p n) 7 ∧ clears (.fqstat p) 7 ∧ clears (.swstat l) 3 ∧ clears (.xstat n) 3 ∧
    (busy → keeps (.lqbase d p n) ∧ keeps (.sqbase d p n) ∧ keeps (.lqsize d p n) ∧ keeps (.sqsize d p n)) ∧
    (¬ busy → writes (.lqbase d p n) (v &&& 0x3FFFFC0) ∧ writes (.sqbase d p n) (v &&& 0x3FFFFC0) ∧
      ((8 ≤ v.toNat % 32 ∧ v.toNat % 32 ≤ 20) → writes (.lqsize d p n) (v &&& 31) ∧ writes (.sqsize d p n) (v &&& 31))) ∧
    (v.toNat % 32 < 8 ∨ 20 < v.toNat % 32 → keeps (.lqsize d p n) ∧ keeps (.sqsize d p n)) ∧
    ((4 ≤ v.toNat % 16 ∧ v.toNat % 16 ≤ 12) → writes (.fqsize p) (v &&& 15)) ∧
    ((s.part p).en = true → keeps (.hport p)) ∧
    (v.getLsbD 0 = true → (s.part p).rtBusy = false →
      exec (.rtcmd p v) s = .next ((s.modPart p fun x => { x with rtBusy := true }).putReg (.rtstat p) (s.reg (.rtstat p) ||| 4))) ∧
    ((s.part p).rtBusy = true → let done := exec (.regionTableInstallDone p) s
      (∀ es, s.install p = .ok es → ∃ u, done = .next u ∧ (u.part p).regions = es ∧ (u.part p).rtBusy = false) ∧
      (∀ c i, s.install p = .error (c, i) → ∃ u, done = .next u ∧ (u.part p).regions = (s.part p).regions ∧ (u.part p).rtBusy = false)) ∧
    (v.getLsbD 0 = false → exec (.fqhpop p v) s = .next s) ∧
    (v.getLsbD 0 = true → (s.part p).fq.all FEntry.popped = true →
      exec (.fqhpop p v) s = .next (s.modPart p fun x => { x with fqHres := BitVec.allOnes 64 })) ∧
    (∀ a e r, v.getLsbD 0 = true → (s.part p).fq = a ++ e :: r → a.all FEntry.popped = true → e.popped = false →
      exec (.fqhpop p v) s = .next (s.modPart p fun x => { x with fq := a ++ { e with popped := true } :: r, fqHres := e.addr })) ∧
    answers (.fqansResume p v) .resume ∧ answers (.fqansAbort p v) .abort ∧ answers (.fqansRestart p v) .restart

/-! ### The security core, firmware, power (R329–R339, R374–R376, R393–R398) -/

/-- R329, R330, R334, R337, R338, R393: a key reaches an empty slot of an enabled partition through a session, and leaves it by KERASE or
by the session that loaded it; a sealed region opens in a session that has had a signed answer, where owner, model and digest agree;
an answer carries the digests of its index and a signature, which takes a leaf; a key exchange establishes a session and keys the
ports to a peer. -/
def Obligations.KeysAndMeasurements : Prop :=
  ∀ (session k : Nat) (kind : BitVec 2) (p : PartNo) (key model : W256) (o q : W32) (w : BitVec 40) (d : BitVec 384) (i : Byte)
    (peer : Option (BitVec 6)) (v : W64) (s : State),
    let y := s.keySlot k
    let load := exec (.keyLoad session k kind p key o q) s
    let erase := exec (.keyErase session k) s
    let admits := k < 64 ∧ y.kind = 0 ∧ (s.part p).en = true ∧ (kind = 1 ∧ (s.part p).prot = true ∨ kind = 2 ∧ o ≠ q)
    let r := regionNo w.toNat
    let g := s.region r
    let opens := wAddrBad (w.setWidth 64) = false ∧ g.st = .locked ∧ r ≠ lmsRegion ∧ g.v = true ∧ g.part = p ∧ (s.part p).en = true ∧
      (s.part p).prot = true ∧ g.model = model ∧ g.digest = some d ∧ g.differs = false
    let open' := exec (.unsealModel session w p model d) s
    let asks := exec (.getMeasurements session i) s
    s.serves .security = true →
    exec (.kerase v) s = .next { s with keys := tput s.keys (v.toNat % 64) {} } ∧
    (s.session session = none → load = .next s ∧ erase = .next s ∧ open' = .next s ∧ asks = .next s ∧
      exec (.getManifest session) s = .next s) ∧
    (∀ x, s.session session = some x →
      (admits → load = .next (s.putKeySlot k
        { kind := kind, part := p, key := key, openStream := if kind = 2 then o else 0, sealStream := if kind = 2 then q else 0,
          loader := some session })) ∧
      (¬ admits → load = .next s) ∧
      (y.loader = some session → erase = .next (s.putKeySlot k {})) ∧ (y.loader ≠ some session → erase = .next s) ∧
      ((x.measured = true ∧ opens) → open' = .next (s.modRegion r fun g => { g with st := .opened })) ∧
      (¬(x.measured = true ∧ opens) → open' = .next s) ∧
      (∀ bs, s.measurements i.toNat = some bs → asks = .next { s with
        fresh := s.fresh + 1, lmsLeaf := s.lmsLeaf + 1, sessions := tput s.sessions session { x with measured := true }
        responses := (session, bs.map (BitVec.ofNat 8) ++ Config.freeSignature s.fresh) :: s.responses }) ∧
      exec (.getManifest session) s = .next { s with responses := (session, s.manifest.map (BitVec.ofNat 8)) :: s.responses }) ∧
    (peer = none →
      exec (.spdmKeyExchange session peer true) s = .next { s with sessions := tput s.sessions session { peer := peer } }) ∧
    (∀ n, peer = some n → ∃ u, exec (.spdmKeyExchange session peer true) s = .next u ∧
      ∀ j < 48, (s.reg (.vroute n)).getLsbD j = true → (tget ({} : Port) u.ports j).keyed = true) ∧
    exec (.spdmKeyExchange session peer false) s =
      .next { s with sessions := s.sessions.filter fun (x : Nat × Session) => x.1 != session }

/-- R336–R339, R374–R376, R395–R398: an image is verified, handed over, committed with its counter raised, or reverted when a signal
is missed, and requests to a controller between two images are held until it serves; DEVSTAT rises by the steps of start-up; power that fails, or is removed at the limit of temperature, leaves the drawer, the
weight tier and host memory, and no other byte; the governor narrows a hot die's issue, and too little coolant lowers every share. -/
def Obligations.FirmwareAndPower : Prop :=
  ∀ (c : Controller) (version : Byte) (signed : Bool) (die : BitVec 2) (power : Nat) (temp : Byte) (s : State),
    let f := s.firmware c
    let puts := fun (e : Instr) (g : Fw) => exec e s = .next (s.putFw c g)
    let keeps := fun (e : Instr) => exec e s = .next s
    let ends := fun (u : State) => { u with fw := u.fw.map fun (x : Controller × Fw) => (x.1, { x.2 with busy := false }) }
    let served := fun (u : State) => { u with
      agenda := (s.heldReqs.filter fun (x : Controller × Request) => x.1 == c).map (fun x => .held x.2) ++ s.agenda
      heldReqs := s.heldReqs.filter fun (x : Controller × Request) => x.1 != c }
    let good := signed = true ∧ version.toNat ≤ 128 ∧ (s.antiRollback (kindOf c)).toNat ≤ version.toNat
    let other := ∃ x ∈ s.fw, x.1 ≠ c ∧ (x.2.st = .handover ∨ x.2.st = .serving ∨ x.2.st = .healthy)
    let down := fun (e : Instr) => s.powered = true → ∃ u, exec e s = .next u ∧ u.powered = false ∧ u.tiles = [] ∧ u.parts = [] ∧
      u.keys = [] ∧ u.cfg = [] ∧ u.arb = s.arb ∧ s.lmsLeaf ≤ u.lmsLeaf ∧
      (∀ k, memGet u.mem k = if 2 ^ 64 ≤ k ∨ k / 2 ^ 57 = 0x10 ∨ k / 2 ^ 57 = 0x20 then memGet s.mem k else 0)
    (f.st = .idle → s.serves .security = true →
      (good → puts (.fwVerify c version signed) { f with standby := version, st := .verified }) ∧
      (¬ good → puts (.fwVerify c version signed) { f with standby := version, st := .rejected })) ∧
    (f.st ≠ .idle → keeps (.fwVerify c version signed)) ∧
    (other → puts (.fwHandover c) { f with busy := true }) ∧
    (¬ other → (f.st = .verified → puts (.fwHandover c) { f with st := .handover }) ∧ (f.st ≠ .verified → keeps (.fwHandover c))) ∧
    (f.st = .handover → exec (.fwServiceSignal c) s = .next (served (s.putFw c { f with st := .serving })) ∧
      exec (.fwServiceTimeout c) s = .next (served (ends (s.putFw c { f with st := .reverted })))) ∧
    ((s.firmware .security).st = .handover → ∀ v, exec (.kerase v) s =
      .next { s with heldReqs := s.heldReqs ++ [(.security, .kerase v)] }) ∧
    (f.st ≠ .handover → keeps (.fwServiceSignal c) ∧ keeps (.fwServiceTimeout c)) ∧
    (f.st = .serving → puts (.fwHealthSignal c) { f with st := .healthy } ∧
      exec (.fwHealthTimeout c) s = .next (ends (s.putFw c { f with st := .reverted }))) ∧
    (f.st ≠ .serving → keeps (.fwHealthSignal c) ∧ keeps (.fwHealthTimeout c)) ∧
    (f.st = .healthy → ∃ u, exec (.fwCommit c) s = .next u ∧ (u.firmware c).active = f.standby ∧ (u.firmware c).st = .idle ∧
      f.standby.toNat ≤ (u.antiRollback (kindOf c)).toNat ∧ (s.antiRollback (kindOf c)).toNat ≤ (u.antiRollback (kindOf c)).toNat) ∧
    (f.st ≠ .healthy → keeps (.fwCommit c)) ∧
    (f.st = .verified ∨ f.st = .rejected ∨ f.st = .reverted → puts (.fwAbandon c) { f with st := .idle }) ∧
    (s.powered = false → exec .powerGood s = .next { s with powered := true, devstat := 0 }) ∧ (s.powered = true → keeps .powerGood) ∧
    ((s.devstat = 1 ∨ s.devstat = 2 ∨ s.devstat = 4 ∨ s.devstat = 5) →
      exec .startupStepComplete s = .next { s with devstat := s.devstat + 1 }) ∧
    (s.devstat = 3 → ∃ u, exec .startupStepComplete s = .next u ∧ u.devstat = 4 ∧
      ∀ r g, (r, g) ∈ s.regions → (s.regions.filter fun x => x.1 == r).length = 1 → g.readable = true → g.sealed = false →
        (u.region r).digest = some (digestOf (s.measure r))) ∧
    (6 ≤ s.devstat.toNat → keeps .startupStepComplete) ∧
    down .powerLoss ∧ down .thermalShutdown ∧
    (let hot := (s.reg (.pwrshare die)).toNat < power ∨ 105 ≤ temp.toNat
     let gap := (s.die die.toNat).govGap.toNat
     ∃ u, exec (.governorWindow die power temp) s = .next u ∧ (u.die die.toNat).tjMax = temp ∧
       (hot → gap < 48 → gap < (u.die die.toNat).govGap.toNat ∧ (u.die die.toNat).govGap.toNat ≤ 48) ∧
       (¬ hot → (u.die die.toNat).govGap.toNat ≤ gap)) ∧
    (s.serves .management = true → ∃ u, exec .coolantFlowLow s = .next u ∧ ∀ e, u.reg (.pwrshare e) = 100)

/-! ### Groups at issue (R16, R25, R26, R46, R66) -/

/-- R26, R46, R66: a defective word traps PROG.ILLEGAL, a breach of the prefix rules PROG.PREFIX, and an instruction that names a register or
a cell above the limits of its task PROG.RESOURCE; a core that cannot issue does nothing, and a word that waits for a register of
its own lets a cycle pass. -/
def Obligations.GroupsTrapAtIssue : Prop :=
  ∀ (i : Instr) (s : State), isEvent i = false →
    (i = .illegalWord .illegal → Issues i s → Traps i s .progIllegal 0 0) ∧
    (i = .illegalWord .breach → Issues i s → Traps i s .progPfx 0 0) ∧
    (s.canIssue = false → exec i s = .next s) ∧
    (s.canIssue = true → (s.interlocked s.cur (s.run s.cur) (named i) = true ∨ s.core.early s.issueCyc i = true) →
      exec i s = .next (s.tick s.cur 1)) ∧
    (s.canIssue = true → s.interlocked s.cur (s.run s.cur) (named i) = false → s.core.early s.issueCyc i = false → s.core.loop = none →
      withinLimits s.core.header (named i) = false → Traps i s .progResource 0 0)

/-! ### The machine: encodings, steps, reset -/

/-- R24–R45: every instruction that has an encoding and is well formed is what its own words decode to, under every guard but the
reserved one. -/
def Obligations.DecodeEncode : Prop :=
  ∀ (i : Instr) (g : BitVec 4) (w : W64), i.wf = true → g ≠ 8 → encodeWord g i = some w →
    decode (encode g i) = .ok ⟨g, i, encode g i⟩

/-- R24–R46: words of the manual's own examples decode to the instructions that they stand for; the all-zero word, the all-ones word and
any word with guard 8 decode to none. -/
def Obligations.DecodedSpecWords : Prop :=
  decodeWord 0x0012103040000000 = some (.add 4 3 1) ∧ decodeWord 0x13001C3000000010 = some (.mka 7 3 0x10) ∧
  decodeWord 0x12801090000003E8 = some (.bfx 4 9 40 15) ∧ decodeWord 0x1000144FFFFFFFFD = some (.addi 5 4 (-3)) ∧
  decodeWord 0x5090180000000000 = some (.hclr 3) ∧ decodeWord 0x503018C400000000 = some (.hsetb 3 3 4) ∧
  decodeWord 0x9000000000118000 = some (.tld 1 3 ⟨none, none, false⟩) ∧ decodeWord 0x8100300000000000 = some (.vpart 6 0 0 0) ∧
  decodeWord 0x4130000000000000 = some (.taskDone 0) ∧ decodeWord 0xD000000000000000 = some .nop ∧
  decodeWord 0 = none ∧ decodeWord 0xFFFFFFFFFFFFFFFF = none ∧ decodeWord 0x0018103040000000 = none

/-- R42, R47, R84, R25: a step whose move is a core's, where the core can issue and the words at its pc are fetched and decode, executes
the decoded instruction in that state, with the group's words noted; a group whose guard is not met takes its cycles and changes
nothing else; a group that does not decode executes as a defective word. A word in the core's own half is the eight bytes at pc. -/
def Obligations.StepRunsDecodedInstruction : Prop :=
  ∀ (t : Nat) (rest : List Move) (s : State), s.agenda = .core t :: rest → s.powered = true →
    let u : State := { s with agenda := rest, cur := t }
    let b := u.run t
    let x := u.core
    (u.canIssue = false → step s = .next (u.tick t 1)) ∧
    (u.canIssue = true →
      (∀ ws w va, u.fetchWords t b x.pc 4 = (.ok ws, w, va) →
        let y := w.modCore fun z => z.issuing ws
        (∀ g, decodeGroup ws = .ok g → y.core.guardMet g.guard = true → step s = exec g.instr y) ∧
        (∀ g, decodeGroup ws = .ok g → y.core.guardMet g.guard = false → step s = .next ((y.modCore Slot.advance).tick t ws.length)) ∧
        (∀ d, decodeGroup ws = .error d → step s = exec (.illegalWord d) y)) ∧
      (∀ f w va, u.fetchWords t b x.pc 4 = (.fault f, w, va) →
        step s = .next ((w.modCore fun z => { z with ipc := z.pc, gwords := [] }.trap f va 0).tick t 1)) ∧
      (x.loop = none → homeBits x.pc = 0 → u.tileCheck x.header x.part x.pc 8 false false = none →
        u.isPoisoned (halfKey t b + offBits x.pc) 8 = false →
        let w : W64 := BitVec.ofNat 64 (u.readMem (halfKey t b + offBits x.pc) 8)
        isPfx w = false → ∀ i, decodeWord w = some i → x.guardMet (wGuard w) = true →
          step s = exec i (u.modCore fun z => z.issuing [w])))

/-- R8, R23, R108, R300, R329, R339, R395: what reset leaves. Every register of every slot is zero but for q0, which is true, and k0, all
ones; every cell has no owner and is zero; no byte is set and none poisoned; no partition is enabled, no key slot filled, no link
trained, and DEVSTAT is 0. Of a register that no rule gives a value, this is the model's choice (notes/assumptions/12), and of
memory (notes/assumptions/3). -/
def Obligations.ResetState : Prop :=
  let s := State.reset
  s.Safe ∧ s.devstat = 0 ∧ s.poisoned = [] ∧ (∀ k, memGet s.mem k = 0) ∧
  (∀ t b, let x := s.slot t b
    (∀ r, x.getS r = 0) ∧ (∀ r, x.getH r = 0) ∧ (∀ r, x.getQ r = (r == 0)) ∧ (∀ r, x.getK r = if r = 0 then BitVec.allOnes 1024 else 0) ∧
    (∀ r e, (x.getV r).get e = 0) ∧ (∀ r, (x.getT r).conf = false) ∧ (∀ r, (x.getA r).tag = .clear) ∧ x.pc = 0 ∧ x.lc = 0 ∧ x.rb = 0 ∧
    x.mstat = 0 ∧ x.ret = [] ∧ x.rss = 0 ∧ x.task = none ∧ x.st = .free ∧ x.accs = [] ∧ x.mq = [] ∧ x.cq = []) ∧
  (∀ t c, (s.cell t c).v = false ∧ (s.cell t c).count = 0 ∧ (s.cell t c).ceil = 0 ∧ (s.cell t c).phase = false) ∧
  (∀ t, (s.tile t).tslot.va = false ∧ (s.tile t).tslot.vb = false ∧ (s.tile t).cyc = 0) ∧
  (∀ p, (s.part p).en = false ∧ (s.part p).prot = false ∧ (s.part p).clrBusy = false ∧ (s.part p).fq = []) ∧
  (∀ d p l, (s.ring d p l).recs = [] ∧ (s.ring d p l).sqHead = 0 ∧ (s.ring d p l).sqTail = 0) ∧
  (∀ l, (s.link l).st = 3 ∧ (s.link l).gen = 0 ∧ (s.link l).delta = 0) ∧ (∀ k, (s.keySlot k).kind = 0)

/-- Every step keeps the memory in canonical form: keys rising, and no byte listed that is zero (the model's own invariant,
notes/assumptions/3). -/
def Obligations.StepKeepsMemoryForm : Prop :=
  ∀ s t : State, s.Safe → step s = .next t → t.Safe
end

