-- ==== Sys2Proof/Laws/State.lean ====
section
/-! SUPPORT. What each update of the state leaves unchanged: one lemma a field and update. -/

set_option Elab.async false

namespace Sys2Proof.Machine

/-! ### putTile -/

@[simp] theorem State.putTile_agenda (s : State) (t : Nat) (x : Tile) : (s.putTile t x).agenda = s.agenda := rfl
@[simp] theorem State.putTile_cur (s : State) (t : Nat) (x : Tile) : (s.putTile t x).cur = s.cur := rfl
@[simp] theorem State.putTile_fresh (s : State) (t : Nat) (x : Tile) : (s.putTile t x).fresh = s.fresh := rfl
@[simp] theorem State.putTile_nextNum (s : State) (t : Nat) (x : Tile) : (s.putTile t x).nextNum = s.nextNum := rfl
@[simp] theorem State.putTile_powered (s : State) (t : Nat) (x : Tile) : (s.putTile t x).powered = s.powered := rfl
@[simp] theorem State.putTile_devstat (s : State) (t : Nat) (x : Tile) : (s.putTile t x).devstat = s.devstat := rfl
@[simp] theorem State.putTile_mem (s : State) (t : Nat) (x : Tile) : (s.putTile t x).mem = s.mem := rfl
@[simp] theorem State.putTile_poisoned (s : State) (t : Nat) (x : Tile) : (s.putTile t x).poisoned = s.poisoned := rfl
@[simp] theorem State.putTile_dtags (s : State) (t : Nat) (x : Tile) : (s.putTile t x).dtags = s.dtags := rfl
@[simp] theorem State.putTile_inbox (s : State) (t : Nat) (x : Tile) : (s.putTile t x).inbox = s.inbox := rfl
@[simp] theorem State.putTile_cfg (s : State) (t : Nat) (x : Tile) : (s.putTile t x).cfg = s.cfg := rfl
@[simp] theorem State.putTile_pwins (s : State) (t : Nat) (x : Tile) : (s.putTile t x).pwins = s.pwins := rfl
@[simp] theorem State.putTile_parts (s : State) (t : Nat) (x : Tile) : (s.putTile t x).parts = s.parts := rfl
@[simp] theorem State.putTile_rings (s : State) (t : Nat) (x : Tile) : (s.putTile t x).rings = s.rings := rfl
@[simp] theorem State.putTile_arrivals (s : State) (t : Nat) (x : Tile) : (s.putTile t x).arrivals = s.arrivals := rfl
@[simp] theorem State.putTile_parked (s : State) (t : Nat) (x : Tile) : (s.putTile t x).parked = s.parked := rfl
@[simp] theorem State.putTile_saved (s : State) (t : Nat) (x : Tile) : (s.putTile t x).saved = s.saved := rfl
@[simp] theorem State.putTile_dies (s : State) (t : Nat) (x : Tile) : (s.putTile t x).dies = s.dies := rfl
@[simp] theorem State.putTile_regions (s : State) (t : Nat) (x : Tile) : (s.putTile t x).regions = s.regions := rfl
@[simp] theorem State.putTile_links (s : State) (t : Nat) (x : Tile) : (s.putTile t x).links = s.links := rfl
@[simp] theorem State.putTile_units (s : State) (t : Nat) (x : Tile) : (s.putTile t x).units = s.units := rfl
@[simp] theorem State.putTile_locks (s : State) (t : Nat) (x : Tile) : (s.putTile t x).locks = s.locks := rfl
@[simp] theorem State.putTile_remotes (s : State) (t : Nat) (x : Tile) : (s.putTile t x).remotes = s.remotes := rfl
@[simp] theorem State.putTile_keys (s : State) (t : Nat) (x : Tile) : (s.putTile t x).keys = s.keys := rfl
@[simp] theorem State.putTile_sessions (s : State) (t : Nat) (x : Tile) : (s.putTile t x).sessions = s.sessions := rfl
@[simp] theorem State.putTile_arb (s : State) (t : Nat) (x : Tile) : (s.putTile t x).arb = s.arb := rfl
@[simp] theorem State.putTile_lmsLeaf (s : State) (t : Nat) (x : Tile) : (s.putTile t x).lmsLeaf = s.lmsLeaf := rfl
@[simp] theorem State.putTile_fw (s : State) (t : Nat) (x : Tile) : (s.putTile t x).fw = s.fw := rfl
@[simp] theorem State.putTile_heldReqs (s : State) (t : Nat) (x : Tile) : (s.putTile t x).heldReqs = s.heldReqs := rfl
@[simp] theorem State.putTile_ports (s : State) (t : Nat) (x : Tile) : (s.putTile t x).ports = s.ports := rfl
@[simp] theorem State.putTile_peerMap (s : State) (t : Nat) (x : Tile) : (s.putTile t x).peerMap = s.peerMap := rfl
@[simp] theorem State.putTile_forwarded (s : State) (t : Nat) (x : Tile) : (s.putTile t x).forwarded = s.forwarded := rfl
@[simp] theorem State.putTile_refused (s : State) (t : Nat) (x : Tile) : (s.putTile t x).refused = s.refused := rfl
@[simp] theorem State.putTile_peerReplies (s : State) (t : Nat) (x : Tile) : (s.putTile t x).peerReplies = s.peerReplies := rfl
@[simp] theorem State.putTile_responses (s : State) (t : Nat) (x : Tile) : (s.putTile t x).responses = s.responses := rfl

/-! ### modTile -/

@[simp] theorem State.modTile_agenda (s : State) (t : Nat) (f : Tile → Tile) : (s.modTile t f).agenda = s.agenda := rfl
@[simp] theorem State.modTile_cur (s : State) (t : Nat) (f : Tile → Tile) : (s.modTile t f).cur = s.cur := rfl
@[simp] theorem State.modTile_fresh (s : State) (t : Nat) (f : Tile → Tile) : (s.modTile t f).fresh = s.fresh := rfl
@[simp] theorem State.modTile_nextNum (s : State) (t : Nat) (f : Tile → Tile) : (s.modTile t f).nextNum = s.nextNum := rfl
@[simp] theorem State.modTile_powered (s : State) (t : Nat) (f : Tile → Tile) : (s.modTile t f).powered = s.powered := rfl
@[simp] theorem State.modTile_devstat (s : State) (t : Nat) (f : Tile → Tile) : (s.modTile t f).devstat = s.devstat := rfl
@[simp] theorem State.modTile_mem (s : State) (t : Nat) (f : Tile → Tile) : (s.modTile t f).mem = s.mem := rfl
@[simp] theorem State.modTile_poisoned (s : State) (t : Nat) (f : Tile → Tile) : (s.modTile t f).poisoned = s.poisoned := rfl
@[simp] theorem State.modTile_dtags (s : State) (t : Nat) (f : Tile → Tile) : (s.modTile t f).dtags = s.dtags := rfl
@[simp] theorem State.modTile_inbox (s : State) (t : Nat) (f : Tile → Tile) : (s.modTile t f).inbox = s.inbox := rfl
@[simp] theorem State.modTile_cfg (s : State) (t : Nat) (f : Tile → Tile) : (s.modTile t f).cfg = s.cfg := rfl
@[simp] theorem State.modTile_pwins (s : State) (t : Nat) (f : Tile → Tile) : (s.modTile t f).pwins = s.pwins := rfl
@[simp] theorem State.modTile_parts (s : State) (t : Nat) (f : Tile → Tile) : (s.modTile t f).parts = s.parts := rfl
@[simp] theorem State.modTile_rings (s : State) (t : Nat) (f : Tile → Tile) : (s.modTile t f).rings = s.rings := rfl
@[simp] theorem State.modTile_arrivals (s : State) (t : Nat) (f : Tile → Tile) : (s.modTile t f).arrivals = s.arrivals := rfl
@[simp] theorem State.modTile_parked (s : State) (t : Nat) (f : Tile → Tile) : (s.modTile t f).parked = s.parked := rfl
@[simp] theorem State.modTile_saved (s : State) (t : Nat) (f : Tile → Tile) : (s.modTile t f).saved = s.saved := rfl
@[simp] theorem State.modTile_dies (s : State) (t : Nat) (f : Tile → Tile) : (s.modTile t f).dies = s.dies := rfl
@[simp] theorem State.modTile_regions (s : State) (t : Nat) (f : Tile → Tile) : (s.modTile t f).regions = s.regions := rfl
@[simp] theorem State.modTile_links (s : State) (t : Nat) (f : Tile → Tile) : (s.modTile t f).links = s.links := rfl
@[simp] theorem State.modTile_units (s : State) (t : Nat) (f : Tile → Tile) : (s.modTile t f).units = s.units := rfl
@[simp] theorem State.modTile_locks (s : State) (t : Nat) (f : Tile → Tile) : (s.modTile t f).locks = s.locks := rfl
@[simp] theorem State.modTile_remotes (s : State) (t : Nat) (f : Tile → Tile) : (s.modTile t f).remotes = s.remotes := rfl
@[simp] theorem State.modTile_keys (s : State) (t : Nat) (f : Tile → Tile) : (s.modTile t f).keys = s.keys := rfl
@[simp] theorem State.modTile_sessions (s : State) (t : Nat) (f : Tile → Tile) : (s.modTile t f).sessions = s.sessions := rfl
@[simp] theorem State.modTile_arb (s : State) (t : Nat) (f : Tile → Tile) : (s.modTile t f).arb = s.arb := rfl
@[simp] theorem State.modTile_lmsLeaf (s : State) (t : Nat) (f : Tile → Tile) : (s.modTile t f).lmsLeaf = s.lmsLeaf := rfl
@[simp] theorem State.modTile_fw (s : State) (t : Nat) (f : Tile → Tile) : (s.modTile t f).fw = s.fw := rfl
@[simp] theorem State.modTile_heldReqs (s : State) (t : Nat) (f : Tile → Tile) : (s.modTile t f).heldReqs = s.heldReqs := rfl
@[simp] theorem State.modTile_ports (s : State) (t : Nat) (f : Tile → Tile) : (s.modTile t f).ports = s.ports := rfl
@[simp] theorem State.modTile_peerMap (s : State) (t : Nat) (f : Tile → Tile) : (s.modTile t f).peerMap = s.peerMap := rfl
@[simp] theorem State.modTile_forwarded (s : State) (t : Nat) (f : Tile → Tile) : (s.modTile t f).forwarded = s.forwarded := rfl
@[simp] theorem State.modTile_refused (s : State) (t : Nat) (f : Tile → Tile) : (s.modTile t f).refused = s.refused := rfl
@[simp] theorem State.modTile_peerReplies (s : State) (t : Nat) (f : Tile → Tile) : (s.modTile t f).peerReplies = s.peerReplies := rfl
@[simp] theorem State.modTile_responses (s : State) (t : Nat) (f : Tile → Tile) : (s.modTile t f).responses = s.responses := rfl

/-! ### modSlot -/

@[simp] theorem State.modSlot_agenda (s : State) (t b : Nat) (f : Slot → Slot) : (s.modSlot t b f).agenda = s.agenda := rfl
@[simp] theorem State.modSlot_cur (s : State) (t b : Nat) (f : Slot → Slot) : (s.modSlot t b f).cur = s.cur := rfl
@[simp] theorem State.modSlot_fresh (s : State) (t b : Nat) (f : Slot → Slot) : (s.modSlot t b f).fresh = s.fresh := rfl
@[simp] theorem State.modSlot_nextNum (s : State) (t b : Nat) (f : Slot → Slot) : (s.modSlot t b f).nextNum = s.nextNum := rfl
@[simp] theorem State.modSlot_powered (s : State) (t b : Nat) (f : Slot → Slot) : (s.modSlot t b f).powered = s.powered := rfl
@[simp] theorem State.modSlot_devstat (s : State) (t b : Nat) (f : Slot → Slot) : (s.modSlot t b f).devstat = s.devstat := rfl
@[simp] theorem State.modSlot_mem (s : State) (t b : Nat) (f : Slot → Slot) : (s.modSlot t b f).mem = s.mem := rfl
@[simp] theorem State.modSlot_poisoned (s : State) (t b : Nat) (f : Slot → Slot) : (s.modSlot t b f).poisoned = s.poisoned := rfl
@[simp] theorem State.modSlot_dtags (s : State) (t b : Nat) (f : Slot → Slot) : (s.modSlot t b f).dtags = s.dtags := rfl
@[simp] theorem State.modSlot_inbox (s : State) (t b : Nat) (f : Slot → Slot) : (s.modSlot t b f).inbox = s.inbox := rfl
@[simp] theorem State.modSlot_cfg (s : State) (t b : Nat) (f : Slot → Slot) : (s.modSlot t b f).cfg = s.cfg := rfl
@[simp] theorem State.modSlot_pwins (s : State) (t b : Nat) (f : Slot → Slot) : (s.modSlot t b f).pwins = s.pwins := rfl
@[simp] theorem State.modSlot_parts (s : State) (t b : Nat) (f : Slot → Slot) : (s.modSlot t b f).parts = s.parts := rfl
@[simp] theorem State.modSlot_rings (s : State) (t b : Nat) (f : Slot → Slot) : (s.modSlot t b f).rings = s.rings := rfl
@[simp] theorem State.modSlot_arrivals (s : State) (t b : Nat) (f : Slot → Slot) : (s.modSlot t b f).arrivals = s.arrivals := rfl
@[simp] theorem State.modSlot_parked (s : State) (t b : Nat) (f : Slot → Slot) : (s.modSlot t b f).parked = s.parked := rfl
@[simp] theorem State.modSlot_saved (s : State) (t b : Nat) (f : Slot → Slot) : (s.modSlot t b f).saved = s.saved := rfl
@[simp] theorem State.modSlot_dies (s : State) (t b : Nat) (f : Slot → Slot) : (s.modSlot t b f).dies = s.dies := rfl
@[simp] theorem State.modSlot_regions (s : State) (t b : Nat) (f : Slot → Slot) : (s.modSlot t b f).regions = s.regions := rfl
@[simp] theorem State.modSlot_links (s : State) (t b : Nat) (f : Slot → Slot) : (s.modSlot t b f).links = s.links := rfl
@[simp] theorem State.modSlot_units (s : State) (t b : Nat) (f : Slot → Slot) : (s.modSlot t b f).units = s.units := rfl
@[simp] theorem State.modSlot_locks (s : State) (t b : Nat) (f : Slot → Slot) : (s.modSlot t b f).locks = s.locks := rfl
@[simp] theorem State.modSlot_remotes (s : State) (t b : Nat) (f : Slot → Slot) : (s.modSlot t b f).remotes = s.remotes := rfl
@[simp] theorem State.modSlot_keys (s : State) (t b : Nat) (f : Slot → Slot) : (s.modSlot t b f).keys = s.keys := rfl
@[simp] theorem State.modSlot_sessions (s : State) (t b : Nat) (f : Slot → Slot) : (s.modSlot t b f).sessions = s.sessions := rfl
@[simp] theorem State.modSlot_arb (s : State) (t b : Nat) (f : Slot → Slot) : (s.modSlot t b f).arb = s.arb := rfl
@[simp] theorem State.modSlot_lmsLeaf (s : State) (t b : Nat) (f : Slot → Slot) : (s.modSlot t b f).lmsLeaf = s.lmsLeaf := rfl
@[simp] theorem State.modSlot_fw (s : State) (t b : Nat) (f : Slot → Slot) : (s.modSlot t b f).fw = s.fw := rfl
@[simp] theorem State.modSlot_heldReqs (s : State) (t b : Nat) (f : Slot → Slot) : (s.modSlot t b f).heldReqs = s.heldReqs := rfl
@[simp] theorem State.modSlot_ports (s : State) (t b : Nat) (f : Slot → Slot) : (s.modSlot t b f).ports = s.ports := rfl
@[simp] theorem State.modSlot_peerMap (s : State) (t b : Nat) (f : Slot → Slot) : (s.modSlot t b f).peerMap = s.peerMap := rfl
@[simp] theorem State.modSlot_forwarded (s : State) (t b : Nat) (f : Slot → Slot) : (s.modSlot t b f).forwarded = s.forwarded := rfl
@[simp] theorem State.modSlot_refused (s : State) (t b : Nat) (f : Slot → Slot) : (s.modSlot t b f).refused = s.refused := rfl
@[simp] theorem State.modSlot_peerReplies (s : State) (t b : Nat) (f : Slot → Slot) : (s.modSlot t b f).peerReplies = s.peerReplies := rfl
@[simp] theorem State.modSlot_responses (s : State) (t b : Nat) (f : Slot → Slot) : (s.modSlot t b f).responses = s.responses := rfl

/-! ### modCore -/

@[simp] theorem State.modCore_agenda (s : State) (f : Slot → Slot) : (s.modCore f).agenda = s.agenda := rfl
@[simp] theorem State.modCore_cur (s : State) (f : Slot → Slot) : (s.modCore f).cur = s.cur := rfl
@[simp] theorem State.modCore_fresh (s : State) (f : Slot → Slot) : (s.modCore f).fresh = s.fresh := rfl
@[simp] theorem State.modCore_nextNum (s : State) (f : Slot → Slot) : (s.modCore f).nextNum = s.nextNum := rfl
@[simp] theorem State.modCore_powered (s : State) (f : Slot → Slot) : (s.modCore f).powered = s.powered := rfl
@[simp] theorem State.modCore_devstat (s : State) (f : Slot → Slot) : (s.modCore f).devstat = s.devstat := rfl
@[simp] theorem State.modCore_mem (s : State) (f : Slot → Slot) : (s.modCore f).mem = s.mem := rfl
@[simp] theorem State.modCore_poisoned (s : State) (f : Slot → Slot) : (s.modCore f).poisoned = s.poisoned := rfl
@[simp] theorem State.modCore_dtags (s : State) (f : Slot → Slot) : (s.modCore f).dtags = s.dtags := rfl
@[simp] theorem State.modCore_inbox (s : State) (f : Slot → Slot) : (s.modCore f).inbox = s.inbox := rfl
@[simp] theorem State.modCore_cfg (s : State) (f : Slot → Slot) : (s.modCore f).cfg = s.cfg := rfl
@[simp] theorem State.modCore_pwins (s : State) (f : Slot → Slot) : (s.modCore f).pwins = s.pwins := rfl
@[simp] theorem State.modCore_parts (s : State) (f : Slot → Slot) : (s.modCore f).parts = s.parts := rfl
@[simp] theorem State.modCore_rings (s : State) (f : Slot → Slot) : (s.modCore f).rings = s.rings := rfl
@[simp] theorem State.modCore_arrivals (s : State) (f : Slot → Slot) : (s.modCore f).arrivals = s.arrivals := rfl
@[simp] theorem State.modCore_parked (s : State) (f : Slot → Slot) : (s.modCore f).parked = s.parked := rfl
@[simp] theorem State.modCore_saved (s : State) (f : Slot → Slot) : (s.modCore f).saved = s.saved := rfl
@[simp] theorem State.modCore_dies (s : State) (f : Slot → Slot) : (s.modCore f).dies = s.dies := rfl
@[simp] theorem State.modCore_regions (s : State) (f : Slot → Slot) : (s.modCore f).regions = s.regions := rfl
@[simp] theorem State.modCore_links (s : State) (f : Slot → Slot) : (s.modCore f).links = s.links := rfl
@[simp] theorem State.modCore_units (s : State) (f : Slot → Slot) : (s.modCore f).units = s.units := rfl
@[simp] theorem State.modCore_locks (s : State) (f : Slot → Slot) : (s.modCore f).locks = s.locks := rfl
@[simp] theorem State.modCore_remotes (s : State) (f : Slot → Slot) : (s.modCore f).remotes = s.remotes := rfl
@[simp] theorem State.modCore_keys (s : State) (f : Slot → Slot) : (s.modCore f).keys = s.keys := rfl
@[simp] theorem State.modCore_sessions (s : State) (f : Slot → Slot) : (s.modCore f).sessions = s.sessions := rfl
@[simp] theorem State.modCore_arb (s : State) (f : Slot → Slot) : (s.modCore f).arb = s.arb := rfl
@[simp] theorem State.modCore_lmsLeaf (s : State) (f : Slot → Slot) : (s.modCore f).lmsLeaf = s.lmsLeaf := rfl
@[simp] theorem State.modCore_fw (s : State) (f : Slot → Slot) : (s.modCore f).fw = s.fw := rfl
@[simp] theorem State.modCore_heldReqs (s : State) (f : Slot → Slot) : (s.modCore f).heldReqs = s.heldReqs := rfl
@[simp] theorem State.modCore_ports (s : State) (f : Slot → Slot) : (s.modCore f).ports = s.ports := rfl
@[simp] theorem State.modCore_peerMap (s : State) (f : Slot → Slot) : (s.modCore f).peerMap = s.peerMap := rfl
@[simp] theorem State.modCore_forwarded (s : State) (f : Slot → Slot) : (s.modCore f).forwarded = s.forwarded := rfl
@[simp] theorem State.modCore_refused (s : State) (f : Slot → Slot) : (s.modCore f).refused = s.refused := rfl
@[simp] theorem State.modCore_peerReplies (s : State) (f : Slot → Slot) : (s.modCore f).peerReplies = s.peerReplies := rfl
@[simp] theorem State.modCore_responses (s : State) (f : Slot → Slot) : (s.modCore f).responses = s.responses := rfl

/-! ### putCell -/

@[simp] theorem State.putCell_agenda (s : State) (t c : Nat) (x : Cell) : (s.putCell t c x).agenda = s.agenda := rfl
@[simp] theorem State.putCell_cur (s : State) (t c : Nat) (x : Cell) : (s.putCell t c x).cur = s.cur := rfl
@[simp] theorem State.putCell_fresh (s : State) (t c : Nat) (x : Cell) : (s.putCell t c x).fresh = s.fresh := rfl
@[simp] theorem State.putCell_nextNum (s : State) (t c : Nat) (x : Cell) : (s.putCell t c x).nextNum = s.nextNum := rfl
@[simp] theorem State.putCell_powered (s : State) (t c : Nat) (x : Cell) : (s.putCell t c x).powered = s.powered := rfl
@[simp] theorem State.putCell_devstat (s : State) (t c : Nat) (x : Cell) : (s.putCell t c x).devstat = s.devstat := rfl
@[simp] theorem State.putCell_mem (s : State) (t c : Nat) (x : Cell) : (s.putCell t c x).mem = s.mem := rfl
@[simp] theorem State.putCell_poisoned (s : State) (t c : Nat) (x : Cell) : (s.putCell t c x).poisoned = s.poisoned := rfl
@[simp] theorem State.putCell_dtags (s : State) (t c : Nat) (x : Cell) : (s.putCell t c x).dtags = s.dtags := rfl
@[simp] theorem State.putCell_inbox (s : State) (t c : Nat) (x : Cell) : (s.putCell t c x).inbox = s.inbox := rfl
@[simp] theorem State.putCell_cfg (s : State) (t c : Nat) (x : Cell) : (s.putCell t c x).cfg = s.cfg := rfl
@[simp] theorem State.putCell_pwins (s : State) (t c : Nat) (x : Cell) : (s.putCell t c x).pwins = s.pwins := rfl
@[simp] theorem State.putCell_parts (s : State) (t c : Nat) (x : Cell) : (s.putCell t c x).parts = s.parts := rfl
@[simp] theorem State.putCell_rings (s : State) (t c : Nat) (x : Cell) : (s.putCell t c x).rings = s.rings := rfl
@[simp] theorem State.putCell_arrivals (s : State) (t c : Nat) (x : Cell) : (s.putCell t c x).arrivals = s.arrivals := rfl
@[simp] theorem State.putCell_parked (s : State) (t c : Nat) (x : Cell) : (s.putCell t c x).parked = s.parked := rfl
@[simp] theorem State.putCell_saved (s : State) (t c : Nat) (x : Cell) : (s.putCell t c x).saved = s.saved := rfl
@[simp] theorem State.putCell_dies (s : State) (t c : Nat) (x : Cell) : (s.putCell t c x).dies = s.dies := rfl
@[simp] theorem State.putCell_regions (s : State) (t c : Nat) (x : Cell) : (s.putCell t c x).regions = s.regions := rfl
@[simp] theorem State.putCell_links (s : State) (t c : Nat) (x : Cell) : (s.putCell t c x).links = s.links := rfl
@[simp] theorem State.putCell_units (s : State) (t c : Nat) (x : Cell) : (s.putCell t c x).units = s.units := rfl
@[simp] theorem State.putCell_locks (s : State) (t c : Nat) (x : Cell) : (s.putCell t c x).locks = s.locks := rfl
@[simp] theorem State.putCell_remotes (s : State) (t c : Nat) (x : Cell) : (s.putCell t c x).remotes = s.remotes := rfl
@[simp] theorem State.putCell_keys (s : State) (t c : Nat) (x : Cell) : (s.putCell t c x).keys = s.keys := rfl
@[simp] theorem State.putCell_sessions (s : State) (t c : Nat) (x : Cell) : (s.putCell t c x).sessions = s.sessions := rfl
@[simp] theorem State.putCell_arb (s : State) (t c : Nat) (x : Cell) : (s.putCell t c x).arb = s.arb := rfl
@[simp] theorem State.putCell_lmsLeaf (s : State) (t c : Nat) (x : Cell) : (s.putCell t c x).lmsLeaf = s.lmsLeaf := rfl
@[simp] theorem State.putCell_fw (s : State) (t c : Nat) (x : Cell) : (s.putCell t c x).fw = s.fw := rfl
@[simp] theorem State.putCell_heldReqs (s : State) (t c : Nat) (x : Cell) : (s.putCell t c x).heldReqs = s.heldReqs := rfl
@[simp] theorem State.putCell_ports (s : State) (t c : Nat) (x : Cell) : (s.putCell t c x).ports = s.ports := rfl
@[simp] theorem State.putCell_peerMap (s : State) (t c : Nat) (x : Cell) : (s.putCell t c x).peerMap = s.peerMap := rfl
@[simp] theorem State.putCell_forwarded (s : State) (t c : Nat) (x : Cell) : (s.putCell t c x).forwarded = s.forwarded := rfl
@[simp] theorem State.putCell_refused (s : State) (t c : Nat) (x : Cell) : (s.putCell t c x).refused = s.refused := rfl
@[simp] theorem State.putCell_peerReplies (s : State) (t c : Nat) (x : Cell) : (s.putCell t c x).peerReplies = s.peerReplies := rfl
@[simp] theorem State.putCell_responses (s : State) (t c : Nat) (x : Cell) : (s.putCell t c x).responses = s.responses := rfl

/-! ### addWaiter -/

@[simp] theorem State.addWaiter_agenda (s : State) (t : Nat) (w : Waiter) : (s.addWaiter t w).agenda = s.agenda := rfl
@[simp] theorem State.addWaiter_cur (s : State) (t : Nat) (w : Waiter) : (s.addWaiter t w).cur = s.cur := rfl
@[simp] theorem State.addWaiter_fresh (s : State) (t : Nat) (w : Waiter) : (s.addWaiter t w).fresh = s.fresh := rfl
@[simp] theorem State.addWaiter_nextNum (s : State) (t : Nat) (w : Waiter) : (s.addWaiter t w).nextNum = s.nextNum := rfl
@[simp] theorem State.addWaiter_powered (s : State) (t : Nat) (w : Waiter) : (s.addWaiter t w).powered = s.powered := rfl
@[simp] theorem State.addWaiter_devstat (s : State) (t : Nat) (w : Waiter) : (s.addWaiter t w).devstat = s.devstat := rfl
@[simp] theorem State.addWaiter_mem (s : State) (t : Nat) (w : Waiter) : (s.addWaiter t w).mem = s.mem := rfl
@[simp] theorem State.addWaiter_poisoned (s : State) (t : Nat) (w : Waiter) : (s.addWaiter t w).poisoned = s.poisoned := rfl
@[simp] theorem State.addWaiter_dtags (s : State) (t : Nat) (w : Waiter) : (s.addWaiter t w).dtags = s.dtags := rfl
@[simp] theorem State.addWaiter_inbox (s : State) (t : Nat) (w : Waiter) : (s.addWaiter t w).inbox = s.inbox := rfl
@[simp] theorem State.addWaiter_cfg (s : State) (t : Nat) (w : Waiter) : (s.addWaiter t w).cfg = s.cfg := rfl
@[simp] theorem State.addWaiter_pwins (s : State) (t : Nat) (w : Waiter) : (s.addWaiter t w).pwins = s.pwins := rfl
@[simp] theorem State.addWaiter_parts (s : State) (t : Nat) (w : Waiter) : (s.addWaiter t w).parts = s.parts := rfl
@[simp] theorem State.addWaiter_rings (s : State) (t : Nat) (w : Waiter) : (s.addWaiter t w).rings = s.rings := rfl
@[simp] theorem State.addWaiter_arrivals (s : State) (t : Nat) (w : Waiter) : (s.addWaiter t w).arrivals = s.arrivals := rfl
@[simp] theorem State.addWaiter_parked (s : State) (t : Nat) (w : Waiter) : (s.addWaiter t w).parked = s.parked := rfl
@[simp] theorem State.addWaiter_saved (s : State) (t : Nat) (w : Waiter) : (s.addWaiter t w).saved = s.saved := rfl
@[simp] theorem State.addWaiter_dies (s : State) (t : Nat) (w : Waiter) : (s.addWaiter t w).dies = s.dies := rfl
@[simp] theorem State.addWaiter_regions (s : State) (t : Nat) (w : Waiter) : (s.addWaiter t w).regions = s.regions := rfl
@[simp] theorem State.addWaiter_links (s : State) (t : Nat) (w : Waiter) : (s.addWaiter t w).links = s.links := rfl
@[simp] theorem State.addWaiter_units (s : State) (t : Nat) (w : Waiter) : (s.addWaiter t w).units = s.units := rfl
@[simp] theorem State.addWaiter_locks (s : State) (t : Nat) (w : Waiter) : (s.addWaiter t w).locks = s.locks := rfl
@[simp] theorem State.addWaiter_remotes (s : State) (t : Nat) (w : Waiter) : (s.addWaiter t w).remotes = s.remotes := rfl
@[simp] theorem State.addWaiter_keys (s : State) (t : Nat) (w : Waiter) : (s.addWaiter t w).keys = s.keys := rfl
@[simp] theorem State.addWaiter_sessions (s : State) (t : Nat) (w : Waiter) : (s.addWaiter t w).sessions = s.sessions := rfl
@[simp] theorem State.addWaiter_arb (s : State) (t : Nat) (w : Waiter) : (s.addWaiter t w).arb = s.arb := rfl
@[simp] theorem State.addWaiter_lmsLeaf (s : State) (t : Nat) (w : Waiter) : (s.addWaiter t w).lmsLeaf = s.lmsLeaf := rfl
@[simp] theorem State.addWaiter_fw (s : State) (t : Nat) (w : Waiter) : (s.addWaiter t w).fw = s.fw := rfl
@[simp] theorem State.addWaiter_heldReqs (s : State) (t : Nat) (w : Waiter) : (s.addWaiter t w).heldReqs = s.heldReqs := rfl
@[simp] theorem State.addWaiter_ports (s : State) (t : Nat) (w : Waiter) : (s.addWaiter t w).ports = s.ports := rfl
@[simp] theorem State.addWaiter_peerMap (s : State) (t : Nat) (w : Waiter) : (s.addWaiter t w).peerMap = s.peerMap := rfl
@[simp] theorem State.addWaiter_forwarded (s : State) (t : Nat) (w : Waiter) : (s.addWaiter t w).forwarded = s.forwarded := rfl
@[simp] theorem State.addWaiter_refused (s : State) (t : Nat) (w : Waiter) : (s.addWaiter t w).refused = s.refused := rfl
@[simp] theorem State.addWaiter_peerReplies (s : State) (t : Nat) (w : Waiter) : (s.addWaiter t w).peerReplies = s.peerReplies := rfl
@[simp] theorem State.addWaiter_responses (s : State) (t : Nat) (w : Waiter) : (s.addWaiter t w).responses = s.responses := rfl

/-! ### dropWaiter -/

@[simp] theorem State.dropWaiter_agenda (s : State) (t : Nat) (w : Who) : (s.dropWaiter t w).agenda = s.agenda := rfl
@[simp] theorem State.dropWaiter_cur (s : State) (t : Nat) (w : Who) : (s.dropWaiter t w).cur = s.cur := rfl
@[simp] theorem State.dropWaiter_fresh (s : State) (t : Nat) (w : Who) : (s.dropWaiter t w).fresh = s.fresh := rfl
@[simp] theorem State.dropWaiter_nextNum (s : State) (t : Nat) (w : Who) : (s.dropWaiter t w).nextNum = s.nextNum := rfl
@[simp] theorem State.dropWaiter_powered (s : State) (t : Nat) (w : Who) : (s.dropWaiter t w).powered = s.powered := rfl
@[simp] theorem State.dropWaiter_devstat (s : State) (t : Nat) (w : Who) : (s.dropWaiter t w).devstat = s.devstat := rfl
@[simp] theorem State.dropWaiter_mem (s : State) (t : Nat) (w : Who) : (s.dropWaiter t w).mem = s.mem := rfl
@[simp] theorem State.dropWaiter_poisoned (s : State) (t : Nat) (w : Who) : (s.dropWaiter t w).poisoned = s.poisoned := rfl
@[simp] theorem State.dropWaiter_dtags (s : State) (t : Nat) (w : Who) : (s.dropWaiter t w).dtags = s.dtags := rfl
@[simp] theorem State.dropWaiter_inbox (s : State) (t : Nat) (w : Who) : (s.dropWaiter t w).inbox = s.inbox := rfl
@[simp] theorem State.dropWaiter_cfg (s : State) (t : Nat) (w : Who) : (s.dropWaiter t w).cfg = s.cfg := rfl
@[simp] theorem State.dropWaiter_pwins (s : State) (t : Nat) (w : Who) : (s.dropWaiter t w).pwins = s.pwins := rfl
@[simp] theorem State.dropWaiter_parts (s : State) (t : Nat) (w : Who) : (s.dropWaiter t w).parts = s.parts := rfl
@[simp] theorem State.dropWaiter_rings (s : State) (t : Nat) (w : Who) : (s.dropWaiter t w).rings = s.rings := rfl
@[simp] theorem State.dropWaiter_arrivals (s : State) (t : Nat) (w : Who) : (s.dropWaiter t w).arrivals = s.arrivals := rfl
@[simp] theorem State.dropWaiter_parked (s : State) (t : Nat) (w : Who) : (s.dropWaiter t w).parked = s.parked := rfl
@[simp] theorem State.dropWaiter_saved (s : State) (t : Nat) (w : Who) : (s.dropWaiter t w).saved = s.saved := rfl
@[simp] theorem State.dropWaiter_dies (s : State) (t : Nat) (w : Who) : (s.dropWaiter t w).dies = s.dies := rfl
@[simp] theorem State.dropWaiter_regions (s : State) (t : Nat) (w : Who) : (s.dropWaiter t w).regions = s.regions := rfl
@[simp] theorem State.dropWaiter_links (s : State) (t : Nat) (w : Who) : (s.dropWaiter t w).links = s.links := rfl
@[simp] theorem State.dropWaiter_units (s : State) (t : Nat) (w : Who) : (s.dropWaiter t w).units = s.units := rfl
@[simp] theorem State.dropWaiter_locks (s : State) (t : Nat) (w : Who) : (s.dropWaiter t w).locks = s.locks := rfl
@[simp] theorem State.dropWaiter_remotes (s : State) (t : Nat) (w : Who) : (s.dropWaiter t w).remotes = s.remotes := rfl
@[simp] theorem State.dropWaiter_keys (s : State) (t : Nat) (w : Who) : (s.dropWaiter t w).keys = s.keys := rfl
@[simp] theorem State.dropWaiter_sessions (s : State) (t : Nat) (w : Who) : (s.dropWaiter t w).sessions = s.sessions := rfl
@[simp] theorem State.dropWaiter_arb (s : State) (t : Nat) (w : Who) : (s.dropWaiter t w).arb = s.arb := rfl
@[simp] theorem State.dropWaiter_lmsLeaf (s : State) (t : Nat) (w : Who) : (s.dropWaiter t w).lmsLeaf = s.lmsLeaf := rfl
@[simp] theorem State.dropWaiter_fw (s : State) (t : Nat) (w : Who) : (s.dropWaiter t w).fw = s.fw := rfl
@[simp] theorem State.dropWaiter_heldReqs (s : State) (t : Nat) (w : Who) : (s.dropWaiter t w).heldReqs = s.heldReqs := rfl
@[simp] theorem State.dropWaiter_ports (s : State) (t : Nat) (w : Who) : (s.dropWaiter t w).ports = s.ports := rfl
@[simp] theorem State.dropWaiter_peerMap (s : State) (t : Nat) (w : Who) : (s.dropWaiter t w).peerMap = s.peerMap := rfl
@[simp] theorem State.dropWaiter_forwarded (s : State) (t : Nat) (w : Who) : (s.dropWaiter t w).forwarded = s.forwarded := rfl
@[simp] theorem State.dropWaiter_refused (s : State) (t : Nat) (w : Who) : (s.dropWaiter t w).refused = s.refused := rfl
@[simp] theorem State.dropWaiter_peerReplies (s : State) (t : Nat) (w : Who) : (s.dropWaiter t w).peerReplies = s.peerReplies := rfl
@[simp] theorem State.dropWaiter_responses (s : State) (t : Nat) (w : Who) : (s.dropWaiter t w).responses = s.responses := rfl

/-! ### modPart -/

@[simp] theorem State.modPart_agenda (s : State) (p : PartNo) (f : Part → Part) : (s.modPart p f).agenda = s.agenda := rfl
@[simp] theorem State.modPart_cur (s : State) (p : PartNo) (f : Part → Part) : (s.modPart p f).cur = s.cur := rfl
@[simp] theorem State.modPart_fresh (s : State) (p : PartNo) (f : Part → Part) : (s.modPart p f).fresh = s.fresh := rfl
@[simp] theorem State.modPart_nextNum (s : State) (p : PartNo) (f : Part → Part) : (s.modPart p f).nextNum = s.nextNum := rfl
@[simp] theorem State.modPart_powered (s : State) (p : PartNo) (f : Part → Part) : (s.modPart p f).powered = s.powered := rfl
@[simp] theorem State.modPart_devstat (s : State) (p : PartNo) (f : Part → Part) : (s.modPart p f).devstat = s.devstat := rfl
@[simp] theorem State.modPart_tiles (s : State) (p : PartNo) (f : Part → Part) : (s.modPart p f).tiles = s.tiles := rfl
@[simp] theorem State.modPart_mem (s : State) (p : PartNo) (f : Part → Part) : (s.modPart p f).mem = s.mem := rfl
@[simp] theorem State.modPart_poisoned (s : State) (p : PartNo) (f : Part → Part) : (s.modPart p f).poisoned = s.poisoned := rfl
@[simp] theorem State.modPart_dtags (s : State) (p : PartNo) (f : Part → Part) : (s.modPart p f).dtags = s.dtags := rfl
@[simp] theorem State.modPart_inbox (s : State) (p : PartNo) (f : Part → Part) : (s.modPart p f).inbox = s.inbox := rfl
@[simp] theorem State.modPart_cfg (s : State) (p : PartNo) (f : Part → Part) : (s.modPart p f).cfg = s.cfg := rfl
@[simp] theorem State.modPart_pwins (s : State) (p : PartNo) (f : Part → Part) : (s.modPart p f).pwins = s.pwins := rfl
@[simp] theorem State.modPart_rings (s : State) (p : PartNo) (f : Part → Part) : (s.modPart p f).rings = s.rings := rfl
@[simp] theorem State.modPart_arrivals (s : State) (p : PartNo) (f : Part → Part) : (s.modPart p f).arrivals = s.arrivals := rfl
@[simp] theorem State.modPart_parked (s : State) (p : PartNo) (f : Part → Part) : (s.modPart p f).parked = s.parked := rfl
@[simp] theorem State.modPart_saved (s : State) (p : PartNo) (f : Part → Part) : (s.modPart p f).saved = s.saved := rfl
@[simp] theorem State.modPart_dies (s : State) (p : PartNo) (f : Part → Part) : (s.modPart p f).dies = s.dies := rfl
@[simp] theorem State.modPart_regions (s : State) (p : PartNo) (f : Part → Part) : (s.modPart p f).regions = s.regions := rfl
@[simp] theorem State.modPart_links (s : State) (p : PartNo) (f : Part → Part) : (s.modPart p f).links = s.links := rfl
@[simp] theorem State.modPart_units (s : State) (p : PartNo) (f : Part → Part) : (s.modPart p f).units = s.units := rfl
@[simp] theorem State.modPart_locks (s : State) (p : PartNo) (f : Part → Part) : (s.modPart p f).locks = s.locks := rfl
@[simp] theorem State.modPart_remotes (s : State) (p : PartNo) (f : Part → Part) : (s.modPart p f).remotes = s.remotes := rfl
@[simp] theorem State.modPart_keys (s : State) (p : PartNo) (f : Part → Part) : (s.modPart p f).keys = s.keys := rfl
@[simp] theorem State.modPart_sessions (s : State) (p : PartNo) (f : Part → Part) : (s.modPart p f).sessions = s.sessions := rfl
@[simp] theorem State.modPart_arb (s : State) (p : PartNo) (f : Part → Part) : (s.modPart p f).arb = s.arb := rfl
@[simp] theorem State.modPart_lmsLeaf (s : State) (p : PartNo) (f : Part → Part) : (s.modPart p f).lmsLeaf = s.lmsLeaf := rfl
@[simp] theorem State.modPart_fw (s : State) (p : PartNo) (f : Part → Part) : (s.modPart p f).fw = s.fw := rfl
@[simp] theorem State.modPart_heldReqs (s : State) (p : PartNo) (f : Part → Part) : (s.modPart p f).heldReqs = s.heldReqs := rfl
@[simp] theorem State.modPart_ports (s : State) (p : PartNo) (f : Part → Part) : (s.modPart p f).ports = s.ports := rfl
@[simp] theorem State.modPart_peerMap (s : State) (p : PartNo) (f : Part → Part) : (s.modPart p f).peerMap = s.peerMap := rfl
@[simp] theorem State.modPart_forwarded (s : State) (p : PartNo) (f : Part → Part) : (s.modPart p f).forwarded = s.forwarded := rfl
@[simp] theorem State.modPart_refused (s : State) (p : PartNo) (f : Part → Part) : (s.modPart p f).refused = s.refused := rfl
@[simp] theorem State.modPart_peerReplies (s : State) (p : PartNo) (f : Part → Part) : (s.modPart p f).peerReplies = s.peerReplies := rfl
@[simp] theorem State.modPart_responses (s : State) (p : PartNo) (f : Part → Part) : (s.modPart p f).responses = s.responses := rfl

/-! ### modDie -/

@[simp] theorem State.modDie_agenda (s : State) (d : Nat) (f : Die → Die) : (s.modDie d f).agenda = s.agenda := rfl
@[simp] theorem State.modDie_cur (s : State) (d : Nat) (f : Die → Die) : (s.modDie d f).cur = s.cur := rfl
@[simp] theorem State.modDie_fresh (s : State) (d : Nat) (f : Die → Die) : (s.modDie d f).fresh = s.fresh := rfl
@[simp] theorem State.modDie_nextNum (s : State) (d : Nat) (f : Die → Die) : (s.modDie d f).nextNum = s.nextNum := rfl
@[simp] theorem State.modDie_powered (s : State) (d : Nat) (f : Die → Die) : (s.modDie d f).powered = s.powered := rfl
@[simp] theorem State.modDie_devstat (s : State) (d : Nat) (f : Die → Die) : (s.modDie d f).devstat = s.devstat := rfl
@[simp] theorem State.modDie_tiles (s : State) (d : Nat) (f : Die → Die) : (s.modDie d f).tiles = s.tiles := rfl
@[simp] theorem State.modDie_mem (s : State) (d : Nat) (f : Die → Die) : (s.modDie d f).mem = s.mem := rfl
@[simp] theorem State.modDie_poisoned (s : State) (d : Nat) (f : Die → Die) : (s.modDie d f).poisoned = s.poisoned := rfl
@[simp] theorem State.modDie_dtags (s : State) (d : Nat) (f : Die → Die) : (s.modDie d f).dtags = s.dtags := rfl
@[simp] theorem State.modDie_inbox (s : State) (d : Nat) (f : Die → Die) : (s.modDie d f).inbox = s.inbox := rfl
@[simp] theorem State.modDie_cfg (s : State) (d : Nat) (f : Die → Die) : (s.modDie d f).cfg = s.cfg := rfl
@[simp] theorem State.modDie_pwins (s : State) (d : Nat) (f : Die → Die) : (s.modDie d f).pwins = s.pwins := rfl
@[simp] theorem State.modDie_parts (s : State) (d : Nat) (f : Die → Die) : (s.modDie d f).parts = s.parts := rfl
@[simp] theorem State.modDie_rings (s : State) (d : Nat) (f : Die → Die) : (s.modDie d f).rings = s.rings := rfl
@[simp] theorem State.modDie_arrivals (s : State) (d : Nat) (f : Die → Die) : (s.modDie d f).arrivals = s.arrivals := rfl
@[simp] theorem State.modDie_parked (s : State) (d : Nat) (f : Die → Die) : (s.modDie d f).parked = s.parked := rfl
@[simp] theorem State.modDie_saved (s : State) (d : Nat) (f : Die → Die) : (s.modDie d f).saved = s.saved := rfl
@[simp] theorem State.modDie_regions (s : State) (d : Nat) (f : Die → Die) : (s.modDie d f).regions = s.regions := rfl
@[simp] theorem State.modDie_links (s : State) (d : Nat) (f : Die → Die) : (s.modDie d f).links = s.links := rfl
@[simp] theorem State.modDie_units (s : State) (d : Nat) (f : Die → Die) : (s.modDie d f).units = s.units := rfl
@[simp] theorem State.modDie_locks (s : State) (d : Nat) (f : Die → Die) : (s.modDie d f).locks = s.locks := rfl
@[simp] theorem State.modDie_remotes (s : State) (d : Nat) (f : Die → Die) : (s.modDie d f).remotes = s.remotes := rfl
@[simp] theorem State.modDie_keys (s : State) (d : Nat) (f : Die → Die) : (s.modDie d f).keys = s.keys := rfl
@[simp] theorem State.modDie_sessions (s : State) (d : Nat) (f : Die → Die) : (s.modDie d f).sessions = s.sessions := rfl
@[simp] theorem State.modDie_arb (s : State) (d : Nat) (f : Die → Die) : (s.modDie d f).arb = s.arb := rfl
@[simp] theorem State.modDie_lmsLeaf (s : State) (d : Nat) (f : Die → Die) : (s.modDie d f).lmsLeaf = s.lmsLeaf := rfl
@[simp] theorem State.modDie_fw (s : State) (d : Nat) (f : Die → Die) : (s.modDie d f).fw = s.fw := rfl
@[simp] theorem State.modDie_heldReqs (s : State) (d : Nat) (f : Die → Die) : (s.modDie d f).heldReqs = s.heldReqs := rfl
@[simp] theorem State.modDie_ports (s : State) (d : Nat) (f : Die → Die) : (s.modDie d f).ports = s.ports := rfl
@[simp] theorem State.modDie_peerMap (s : State) (d : Nat) (f : Die → Die) : (s.modDie d f).peerMap = s.peerMap := rfl
@[simp] theorem State.modDie_forwarded (s : State) (d : Nat) (f : Die → Die) : (s.modDie d f).forwarded = s.forwarded := rfl
@[simp] theorem State.modDie_refused (s : State) (d : Nat) (f : Die → Die) : (s.modDie d f).refused = s.refused := rfl
@[simp] theorem State.modDie_peerReplies (s : State) (d : Nat) (f : Die → Die) : (s.modDie d f).peerReplies = s.peerReplies := rfl
@[simp] theorem State.modDie_responses (s : State) (d : Nat) (f : Die → Die) : (s.modDie d f).responses = s.responses := rfl

/-! ### modRegion -/

@[simp] theorem State.modRegion_agenda (s : State) (k : Nat) (f : Region → Region) : (s.modRegion k f).agenda = s.agenda := rfl
@[simp] theorem State.modRegion_cur (s : State) (k : Nat) (f : Region → Region) : (s.modRegion k f).cur = s.cur := rfl
@[simp] theorem State.modRegion_fresh (s : State) (k : Nat) (f : Region → Region) : (s.modRegion k f).fresh = s.fresh := rfl
@[simp] theorem State.modRegion_nextNum (s : State) (k : Nat) (f : Region → Region) : (s.modRegion k f).nextNum = s.nextNum := rfl
@[simp] theorem State.modRegion_powered (s : State) (k : Nat) (f : Region → Region) : (s.modRegion k f).powered = s.powered := rfl
@[simp] theorem State.modRegion_devstat (s : State) (k : Nat) (f : Region → Region) : (s.modRegion k f).devstat = s.devstat := rfl
@[simp] theorem State.modRegion_tiles (s : State) (k : Nat) (f : Region → Region) : (s.modRegion k f).tiles = s.tiles := rfl
@[simp] theorem State.modRegion_mem (s : State) (k : Nat) (f : Region → Region) : (s.modRegion k f).mem = s.mem := rfl
@[simp] theorem State.modRegion_poisoned (s : State) (k : Nat) (f : Region → Region) : (s.modRegion k f).poisoned = s.poisoned := rfl
@[simp] theorem State.modRegion_dtags (s : State) (k : Nat) (f : Region → Region) : (s.modRegion k f).dtags = s.dtags := rfl
@[simp] theorem State.modRegion_inbox (s : State) (k : Nat) (f : Region → Region) : (s.modRegion k f).inbox = s.inbox := rfl
@[simp] theorem State.modRegion_cfg (s : State) (k : Nat) (f : Region → Region) : (s.modRegion k f).cfg = s.cfg := rfl
@[simp] theorem State.modRegion_pwins (s : State) (k : Nat) (f : Region → Region) : (s.modRegion k f).pwins = s.pwins := rfl
@[simp] theorem State.modRegion_parts (s : State) (k : Nat) (f : Region → Region) : (s.modRegion k f).parts = s.parts := rfl
@[simp] theorem State.modRegion_rings (s : State) (k : Nat) (f : Region → Region) : (s.modRegion k f).rings = s.rings := rfl
@[simp] theorem State.modRegion_arrivals (s : State) (k : Nat) (f : Region → Region) : (s.modRegion k f).arrivals = s.arrivals := rfl
@[simp] theorem State.modRegion_parked (s : State) (k : Nat) (f : Region → Region) : (s.modRegion k f).parked = s.parked := rfl
@[simp] theorem State.modRegion_saved (s : State) (k : Nat) (f : Region → Region) : (s.modRegion k f).saved = s.saved := rfl
@[simp] theorem State.modRegion_dies (s : State) (k : Nat) (f : Region → Region) : (s.modRegion k f).dies = s.dies := rfl
@[simp] theorem State.modRegion_links (s : State) (k : Nat) (f : Region → Region) : (s.modRegion k f).links = s.links := rfl
@[simp] theorem State.modRegion_units (s : State) (k : Nat) (f : Region → Region) : (s.modRegion k f).units = s.units := rfl
@[simp] theorem State.modRegion_locks (s : State) (k : Nat) (f : Region → Region) : (s.modRegion k f).locks = s.locks := rfl
@[simp] theorem State.modRegion_remotes (s : State) (k : Nat) (f : Region → Region) : (s.modRegion k f).remotes = s.remotes := rfl
@[simp] theorem State.modRegion_keys (s : State) (k : Nat) (f : Region → Region) : (s.modRegion k f).keys = s.keys := rfl
@[simp] theorem State.modRegion_sessions (s : State) (k : Nat) (f : Region → Region) : (s.modRegion k f).sessions = s.sessions := rfl
@[simp] theorem State.modRegion_arb (s : State) (k : Nat) (f : Region → Region) : (s.modRegion k f).arb = s.arb := rfl
@[simp] theorem State.modRegion_lmsLeaf (s : State) (k : Nat) (f : Region → Region) : (s.modRegion k f).lmsLeaf = s.lmsLeaf := rfl
@[simp] theorem State.modRegion_fw (s : State) (k : Nat) (f : Region → Region) : (s.modRegion k f).fw = s.fw := rfl
@[simp] theorem State.modRegion_heldReqs (s : State) (k : Nat) (f : Region → Region) : (s.modRegion k f).heldReqs = s.heldReqs := rfl
@[simp] theorem State.modRegion_ports (s : State) (k : Nat) (f : Region → Region) : (s.modRegion k f).ports = s.ports := rfl
@[simp] theorem State.modRegion_peerMap (s : State) (k : Nat) (f : Region → Region) : (s.modRegion k f).peerMap = s.peerMap := rfl
@[simp] theorem State.modRegion_forwarded (s : State) (k : Nat) (f : Region → Region) : (s.modRegion k f).forwarded = s.forwarded := rfl
@[simp] theorem State.modRegion_refused (s : State) (k : Nat) (f : Region → Region) : (s.modRegion k f).refused = s.refused := rfl
@[simp] theorem State.modRegion_peerReplies (s : State) (k : Nat) (f : Region → Region) : (s.modRegion k f).peerReplies = s.peerReplies := rfl
@[simp] theorem State.modRegion_responses (s : State) (k : Nat) (f : Region → Region) : (s.modRegion k f).responses = s.responses := rfl

/-! ### modLink -/

@[simp] theorem State.modLink_agenda (s : State) (l : Nat) (f : Link → Link) : (s.modLink l f).agenda = s.agenda := rfl
@[simp] theorem State.modLink_cur (s : State) (l : Nat) (f : Link → Link) : (s.modLink l f).cur = s.cur := rfl
@[simp] theorem State.modLink_fresh (s : State) (l : Nat) (f : Link → Link) : (s.modLink l f).fresh = s.fresh := rfl
@[simp] theorem State.modLink_nextNum (s : State) (l : Nat) (f : Link → Link) : (s.modLink l f).nextNum = s.nextNum := rfl
@[simp] theorem State.modLink_powered (s : State) (l : Nat) (f : Link → Link) : (s.modLink l f).powered = s.powered := rfl
@[simp] theorem State.modLink_devstat (s : State) (l : Nat) (f : Link → Link) : (s.modLink l f).devstat = s.devstat := rfl
@[simp] theorem State.modLink_tiles (s : State) (l : Nat) (f : Link → Link) : (s.modLink l f).tiles = s.tiles := rfl
@[simp] theorem State.modLink_mem (s : State) (l : Nat) (f : Link → Link) : (s.modLink l f).mem = s.mem := rfl
@[simp] theorem State.modLink_poisoned (s : State) (l : Nat) (f : Link → Link) : (s.modLink l f).poisoned = s.poisoned := rfl
@[simp] theorem State.modLink_dtags (s : State) (l : Nat) (f : Link → Link) : (s.modLink l f).dtags = s.dtags := rfl
@[simp] theorem State.modLink_inbox (s : State) (l : Nat) (f : Link → Link) : (s.modLink l f).inbox = s.inbox := rfl
@[simp] theorem State.modLink_cfg (s : State) (l : Nat) (f : Link → Link) : (s.modLink l f).cfg = s.cfg := rfl
@[simp] theorem State.modLink_pwins (s : State) (l : Nat) (f : Link → Link) : (s.modLink l f).pwins = s.pwins := rfl
@[simp] theorem State.modLink_parts (s : State) (l : Nat) (f : Link → Link) : (s.modLink l f).parts = s.parts := rfl
@[simp] theorem State.modLink_rings (s : State) (l : Nat) (f : Link → Link) : (s.modLink l f).rings = s.rings := rfl
@[simp] theorem State.modLink_arrivals (s : State) (l : Nat) (f : Link → Link) : (s.modLink l f).arrivals = s.arrivals := rfl
@[simp] theorem State.modLink_parked (s : State) (l : Nat) (f : Link → Link) : (s.modLink l f).parked = s.parked := rfl
@[simp] theorem State.modLink_saved (s : State) (l : Nat) (f : Link → Link) : (s.modLink l f).saved = s.saved := rfl
@[simp] theorem State.modLink_dies (s : State) (l : Nat) (f : Link → Link) : (s.modLink l f).dies = s.dies := rfl
@[simp] theorem State.modLink_regions (s : State) (l : Nat) (f : Link → Link) : (s.modLink l f).regions = s.regions := rfl
@[simp] theorem State.modLink_units (s : State) (l : Nat) (f : Link → Link) : (s.modLink l f).units = s.units := rfl
@[simp] theorem State.modLink_locks (s : State) (l : Nat) (f : Link → Link) : (s.modLink l f).locks = s.locks := rfl
@[simp] theorem State.modLink_remotes (s : State) (l : Nat) (f : Link → Link) : (s.modLink l f).remotes = s.remotes := rfl
@[simp] theorem State.modLink_keys (s : State) (l : Nat) (f : Link → Link) : (s.modLink l f).keys = s.keys := rfl
@[simp] theorem State.modLink_sessions (s : State) (l : Nat) (f : Link → Link) : (s.modLink l f).sessions = s.sessions := rfl
@[simp] theorem State.modLink_arb (s : State) (l : Nat) (f : Link → Link) : (s.modLink l f).arb = s.arb := rfl
@[simp] theorem State.modLink_lmsLeaf (s : State) (l : Nat) (f : Link → Link) : (s.modLink l f).lmsLeaf = s.lmsLeaf := rfl
@[simp] theorem State.modLink_fw (s : State) (l : Nat) (f : Link → Link) : (s.modLink l f).fw = s.fw := rfl
@[simp] theorem State.modLink_heldReqs (s : State) (l : Nat) (f : Link → Link) : (s.modLink l f).heldReqs = s.heldReqs := rfl
@[simp] theorem State.modLink_ports (s : State) (l : Nat) (f : Link → Link) : (s.modLink l f).ports = s.ports := rfl
@[simp] theorem State.modLink_peerMap (s : State) (l : Nat) (f : Link → Link) : (s.modLink l f).peerMap = s.peerMap := rfl
@[simp] theorem State.modLink_forwarded (s : State) (l : Nat) (f : Link → Link) : (s.modLink l f).forwarded = s.forwarded := rfl
@[simp] theorem State.modLink_refused (s : State) (l : Nat) (f : Link → Link) : (s.modLink l f).refused = s.refused := rfl
@[simp] theorem State.modLink_peerReplies (s : State) (l : Nat) (f : Link → Link) : (s.modLink l f).peerReplies = s.peerReplies := rfl
@[simp] theorem State.modLink_responses (s : State) (l : Nat) (f : Link → Link) : (s.modLink l f).responses = s.responses := rfl

/-! ### modUnit -/

@[simp] theorem State.modUnit_agenda (s : State) (u : Nat) (f : XUnit → XUnit) : (s.modUnit u f).agenda = s.agenda := rfl
@[simp] theorem State.modUnit_cur (s : State) (u : Nat) (f : XUnit → XUnit) : (s.modUnit u f).cur = s.cur := rfl
@[simp] theorem State.modUnit_fresh (s : State) (u : Nat) (f : XUnit → XUnit) : (s.modUnit u f).fresh = s.fresh := rfl
@[simp] theorem State.modUnit_nextNum (s : State) (u : Nat) (f : XUnit → XUnit) : (s.modUnit u f).nextNum = s.nextNum := rfl
@[simp] theorem State.modUnit_powered (s : State) (u : Nat) (f : XUnit → XUnit) : (s.modUnit u f).powered = s.powered := rfl
@[simp] theorem State.modUnit_devstat (s : State) (u : Nat) (f : XUnit → XUnit) : (s.modUnit u f).devstat = s.devstat := rfl
@[simp] theorem State.modUnit_tiles (s : State) (u : Nat) (f : XUnit → XUnit) : (s.modUnit u f).tiles = s.tiles := rfl
@[simp] theorem State.modUnit_mem (s : State) (u : Nat) (f : XUnit → XUnit) : (s.modUnit u f).mem = s.mem := rfl
@[simp] theorem State.modUnit_poisoned (s : State) (u : Nat) (f : XUnit → XUnit) : (s.modUnit u f).poisoned = s.poisoned := rfl
@[simp] theorem State.modUnit_dtags (s : State) (u : Nat) (f : XUnit → XUnit) : (s.modUnit u f).dtags = s.dtags := rfl
@[simp] theorem State.modUnit_inbox (s : State) (u : Nat) (f : XUnit → XUnit) : (s.modUnit u f).inbox = s.inbox := rfl
@[simp] theorem State.modUnit_cfg (s : State) (u : Nat) (f : XUnit → XUnit) : (s.modUnit u f).cfg = s.cfg := rfl
@[simp] theorem State.modUnit_pwins (s : State) (u : Nat) (f : XUnit → XUnit) : (s.modUnit u f).pwins = s.pwins := rfl
@[simp] theorem State.modUnit_parts (s : State) (u : Nat) (f : XUnit → XUnit) : (s.modUnit u f).parts = s.parts := rfl
@[simp] theorem State.modUnit_rings (s : State) (u : Nat) (f : XUnit → XUnit) : (s.modUnit u f).rings = s.rings := rfl
@[simp] theorem State.modUnit_arrivals (s : State) (u : Nat) (f : XUnit → XUnit) : (s.modUnit u f).arrivals = s.arrivals := rfl
@[simp] theorem State.modUnit_parked (s : State) (u : Nat) (f : XUnit → XUnit) : (s.modUnit u f).parked = s.parked := rfl
@[simp] theorem State.modUnit_saved (s : State) (u : Nat) (f : XUnit → XUnit) : (s.modUnit u f).saved = s.saved := rfl
@[simp] theorem State.modUnit_dies (s : State) (u : Nat) (f : XUnit → XUnit) : (s.modUnit u f).dies = s.dies := rfl
@[simp] theorem State.modUnit_regions (s : State) (u : Nat) (f : XUnit → XUnit) : (s.modUnit u f).regions = s.regions := rfl
@[simp] theorem State.modUnit_links (s : State) (u : Nat) (f : XUnit → XUnit) : (s.modUnit u f).links = s.links := rfl
@[simp] theorem State.modUnit_locks (s : State) (u : Nat) (f : XUnit → XUnit) : (s.modUnit u f).locks = s.locks := rfl
@[simp] theorem State.modUnit_remotes (s : State) (u : Nat) (f : XUnit → XUnit) : (s.modUnit u f).remotes = s.remotes := rfl
@[simp] theorem State.modUnit_keys (s : State) (u : Nat) (f : XUnit → XUnit) : (s.modUnit u f).keys = s.keys := rfl
@[simp] theorem State.modUnit_sessions (s : State) (u : Nat) (f : XUnit → XUnit) : (s.modUnit u f).sessions = s.sessions := rfl
@[simp] theorem State.modUnit_arb (s : State) (u : Nat) (f : XUnit → XUnit) : (s.modUnit u f).arb = s.arb := rfl
@[simp] theorem State.modUnit_lmsLeaf (s : State) (u : Nat) (f : XUnit → XUnit) : (s.modUnit u f).lmsLeaf = s.lmsLeaf := rfl
@[simp] theorem State.modUnit_fw (s : State) (u : Nat) (f : XUnit → XUnit) : (s.modUnit u f).fw = s.fw := rfl
@[simp] theorem State.modUnit_heldReqs (s : State) (u : Nat) (f : XUnit → XUnit) : (s.modUnit u f).heldReqs = s.heldReqs := rfl
@[simp] theorem State.modUnit_ports (s : State) (u : Nat) (f : XUnit → XUnit) : (s.modUnit u f).ports = s.ports := rfl
@[simp] theorem State.modUnit_peerMap (s : State) (u : Nat) (f : XUnit → XUnit) : (s.modUnit u f).peerMap = s.peerMap := rfl
@[simp] theorem State.modUnit_forwarded (s : State) (u : Nat) (f : XUnit → XUnit) : (s.modUnit u f).forwarded = s.forwarded := rfl
@[simp] theorem State.modUnit_refused (s : State) (u : Nat) (f : XUnit → XUnit) : (s.modUnit u f).refused = s.refused := rfl
@[simp] theorem State.modUnit_peerReplies (s : State) (u : Nat) (f : XUnit → XUnit) : (s.modUnit u f).peerReplies = s.peerReplies := rfl
@[simp] theorem State.modUnit_responses (s : State) (u : Nat) (f : XUnit → XUnit) : (s.modUnit u f).responses = s.responses := rfl

/-! ### modRing -/

@[simp] theorem State.modRing_agenda (s : State) (d : Nat) (p : PartNo) (l : Nat) (f : Ring → Ring) : (s.modRing d p l f).agenda = s.agenda := rfl
@[simp] theorem State.modRing_cur (s : State) (d : Nat) (p : PartNo) (l : Nat) (f : Ring → Ring) : (s.modRing d p l f).cur = s.cur := rfl
@[simp] theorem State.modRing_fresh (s : State) (d : Nat) (p : PartNo) (l : Nat) (f : Ring → Ring) : (s.modRing d p l f).fresh = s.fresh := rfl
@[simp] theorem State.modRing_nextNum (s : State) (d : Nat) (p : PartNo) (l : Nat) (f : Ring → Ring) : (s.modRing d p l f).nextNum = s.nextNum := rfl
@[simp] theorem State.modRing_powered (s : State) (d : Nat) (p : PartNo) (l : Nat) (f : Ring → Ring) : (s.modRing d p l f).powered = s.powered := rfl
@[simp] theorem State.modRing_devstat (s : State) (d : Nat) (p : PartNo) (l : Nat) (f : Ring → Ring) : (s.modRing d p l f).devstat = s.devstat := rfl
@[simp] theorem State.modRing_tiles (s : State) (d : Nat) (p : PartNo) (l : Nat) (f : Ring → Ring) : (s.modRing d p l f).tiles = s.tiles := rfl
@[simp] theorem State.modRing_mem (s : State) (d : Nat) (p : PartNo) (l : Nat) (f : Ring → Ring) : (s.modRing d p l f).mem = s.mem := rfl
@[simp] theorem State.modRing_poisoned (s : State) (d : Nat) (p : PartNo) (l : Nat) (f : Ring → Ring) : (s.modRing d p l f).poisoned = s.poisoned := rfl
@[simp] theorem State.modRing_dtags (s : State) (d : Nat) (p : PartNo) (l : Nat) (f : Ring → Ring) : (s.modRing d p l f).dtags = s.dtags := rfl
@[simp] theorem State.modRing_inbox (s : State) (d : Nat) (p : PartNo) (l : Nat) (f : Ring → Ring) : (s.modRing d p l f).inbox = s.inbox := rfl
@[simp] theorem State.modRing_cfg (s : State) (d : Nat) (p : PartNo) (l : Nat) (f : Ring → Ring) : (s.modRing d p l f).cfg = s.cfg := rfl
@[simp] theorem State.modRing_pwins (s : State) (d : Nat) (p : PartNo) (l : Nat) (f : Ring → Ring) : (s.modRing d p l f).pwins = s.pwins := rfl
@[simp] theorem State.modRing_parts (s : State) (d : Nat) (p : PartNo) (l : Nat) (f : Ring → Ring) : (s.modRing d p l f).parts = s.parts := rfl
@[simp] theorem State.modRing_arrivals (s : State) (d : Nat) (p : PartNo) (l : Nat) (f : Ring → Ring) : (s.modRing d p l f).arrivals = s.arrivals := rfl
@[simp] theorem State.modRing_parked (s : State) (d : Nat) (p : PartNo) (l : Nat) (f : Ring → Ring) : (s.modRing d p l f).parked = s.parked := rfl
@[simp] theorem State.modRing_saved (s : State) (d : Nat) (p : PartNo) (l : Nat) (f : Ring → Ring) : (s.modRing d p l f).saved = s.saved := rfl
@[simp] theorem State.modRing_dies (s : State) (d : Nat) (p : PartNo) (l : Nat) (f : Ring → Ring) : (s.modRing d p l f).dies = s.dies := rfl
@[simp] theorem State.modRing_regions (s : State) (d : Nat) (p : PartNo) (l : Nat) (f : Ring → Ring) : (s.modRing d p l f).regions = s.regions := rfl
@[simp] theorem State.modRing_links (s : State) (d : Nat) (p : PartNo) (l : Nat) (f : Ring → Ring) : (s.modRing d p l f).links = s.links := rfl
@[simp] theorem State.modRing_units (s : State) (d : Nat) (p : PartNo) (l : Nat) (f : Ring → Ring) : (s.modRing d p l f).units = s.units := rfl
@[simp] theorem State.modRing_locks (s : State) (d : Nat) (p : PartNo) (l : Nat) (f : Ring → Ring) : (s.modRing d p l f).locks = s.locks := rfl
@[simp] theorem State.modRing_remotes (s : State) (d : Nat) (p : PartNo) (l : Nat) (f : Ring → Ring) : (s.modRing d p l f).remotes = s.remotes := rfl
@[simp] theorem State.modRing_keys (s : State) (d : Nat) (p : PartNo) (l : Nat) (f : Ring → Ring) : (s.modRing d p l f).keys = s.keys := rfl
@[simp] theorem State.modRing_sessions (s : State) (d : Nat) (p : PartNo) (l : Nat) (f : Ring → Ring) : (s.modRing d p l f).sessions = s.sessions := rfl
@[simp] theorem State.modRing_arb (s : State) (d : Nat) (p : PartNo) (l : Nat) (f : Ring → Ring) : (s.modRing d p l f).arb = s.arb := rfl
@[simp] theorem State.modRing_lmsLeaf (s : State) (d : Nat) (p : PartNo) (l : Nat) (f : Ring → Ring) : (s.modRing d p l f).lmsLeaf = s.lmsLeaf := rfl
@[simp] theorem State.modRing_fw (s : State) (d : Nat) (p : PartNo) (l : Nat) (f : Ring → Ring) : (s.modRing d p l f).fw = s.fw := rfl
@[simp] theorem State.modRing_heldReqs (s : State) (d : Nat) (p : PartNo) (l : Nat) (f : Ring → Ring) : (s.modRing d p l f).heldReqs = s.heldReqs := rfl
@[simp] theorem State.modRing_ports (s : State) (d : Nat) (p : PartNo) (l : Nat) (f : Ring → Ring) : (s.modRing d p l f).ports = s.ports := rfl
@[simp] theorem State.modRing_peerMap (s : State) (d : Nat) (p : PartNo) (l : Nat) (f : Ring → Ring) : (s.modRing d p l f).peerMap = s.peerMap := rfl
@[simp] theorem State.modRing_forwarded (s : State) (d : Nat) (p : PartNo) (l : Nat) (f : Ring → Ring) : (s.modRing d p l f).forwarded = s.forwarded := rfl
@[simp] theorem State.modRing_refused (s : State) (d : Nat) (p : PartNo) (l : Nat) (f : Ring → Ring) : (s.modRing d p l f).refused = s.refused := rfl
@[simp] theorem State.modRing_peerReplies (s : State) (d : Nat) (p : PartNo) (l : Nat) (f : Ring → Ring) : (s.modRing d p l f).peerReplies = s.peerReplies := rfl
@[simp] theorem State.modRing_responses (s : State) (d : Nat) (p : PartNo) (l : Nat) (f : Ring → Ring) : (s.modRing d p l f).responses = s.responses := rfl

/-! ### putReg -/

@[simp] theorem State.putReg_agenda (s : State) (r : CfgReg) (v : W64) : (s.putReg r v).agenda = s.agenda := rfl
@[simp] theorem State.putReg_cur (s : State) (r : CfgReg) (v : W64) : (s.putReg r v).cur = s.cur := rfl
@[simp] theorem State.putReg_fresh (s : State) (r : CfgReg) (v : W64) : (s.putReg r v).fresh = s.fresh := rfl
@[simp] theorem State.putReg_nextNum (s : State) (r : CfgReg) (v : W64) : (s.putReg r v).nextNum = s.nextNum := rfl
@[simp] theorem State.putReg_powered (s : State) (r : CfgReg) (v : W64) : (s.putReg r v).powered = s.powered := rfl
@[simp] theorem State.putReg_devstat (s : State) (r : CfgReg) (v : W64) : (s.putReg r v).devstat = s.devstat := rfl
@[simp] theorem State.putReg_tiles (s : State) (r : CfgReg) (v : W64) : (s.putReg r v).tiles = s.tiles := rfl
@[simp] theorem State.putReg_mem (s : State) (r : CfgReg) (v : W64) : (s.putReg r v).mem = s.mem := rfl
@[simp] theorem State.putReg_poisoned (s : State) (r : CfgReg) (v : W64) : (s.putReg r v).poisoned = s.poisoned := rfl
@[simp] theorem State.putReg_dtags (s : State) (r : CfgReg) (v : W64) : (s.putReg r v).dtags = s.dtags := rfl
@[simp] theorem State.putReg_inbox (s : State) (r : CfgReg) (v : W64) : (s.putReg r v).inbox = s.inbox := rfl
@[simp] theorem State.putReg_pwins (s : State) (r : CfgReg) (v : W64) : (s.putReg r v).pwins = s.pwins := rfl
@[simp] theorem State.putReg_parts (s : State) (r : CfgReg) (v : W64) : (s.putReg r v).parts = s.parts := rfl
@[simp] theorem State.putReg_rings (s : State) (r : CfgReg) (v : W64) : (s.putReg r v).rings = s.rings := rfl
@[simp] theorem State.putReg_arrivals (s : State) (r : CfgReg) (v : W64) : (s.putReg r v).arrivals = s.arrivals := rfl
@[simp] theorem State.putReg_parked (s : State) (r : CfgReg) (v : W64) : (s.putReg r v).parked = s.parked := rfl
@[simp] theorem State.putReg_saved (s : State) (r : CfgReg) (v : W64) : (s.putReg r v).saved = s.saved := rfl
@[simp] theorem State.putReg_dies (s : State) (r : CfgReg) (v : W64) : (s.putReg r v).dies = s.dies := rfl
@[simp] theorem State.putReg_regions (s : State) (r : CfgReg) (v : W64) : (s.putReg r v).regions = s.regions := rfl
@[simp] theorem State.putReg_links (s : State) (r : CfgReg) (v : W64) : (s.putReg r v).links = s.links := rfl
@[simp] theorem State.putReg_units (s : State) (r : CfgReg) (v : W64) : (s.putReg r v).units = s.units := rfl
@[simp] theorem State.putReg_locks (s : State) (r : CfgReg) (v : W64) : (s.putReg r v).locks = s.locks := rfl
@[simp] theorem State.putReg_remotes (s : State) (r : CfgReg) (v : W64) : (s.putReg r v).remotes = s.remotes := rfl
@[simp] theorem State.putReg_keys (s : State) (r : CfgReg) (v : W64) : (s.putReg r v).keys = s.keys := rfl
@[simp] theorem State.putReg_sessions (s : State) (r : CfgReg) (v : W64) : (s.putReg r v).sessions = s.sessions := rfl
@[simp] theorem State.putReg_arb (s : State) (r : CfgReg) (v : W64) : (s.putReg r v).arb = s.arb := rfl
@[simp] theorem State.putReg_lmsLeaf (s : State) (r : CfgReg) (v : W64) : (s.putReg r v).lmsLeaf = s.lmsLeaf := rfl
@[simp] theorem State.putReg_fw (s : State) (r : CfgReg) (v : W64) : (s.putReg r v).fw = s.fw := rfl
@[simp] theorem State.putReg_heldReqs (s : State) (r : CfgReg) (v : W64) : (s.putReg r v).heldReqs = s.heldReqs := rfl
@[simp] theorem State.putReg_ports (s : State) (r : CfgReg) (v : W64) : (s.putReg r v).ports = s.ports := rfl
@[simp] theorem State.putReg_peerMap (s : State) (r : CfgReg) (v : W64) : (s.putReg r v).peerMap = s.peerMap := rfl
@[simp] theorem State.putReg_forwarded (s : State) (r : CfgReg) (v : W64) : (s.putReg r v).forwarded = s.forwarded := rfl
@[simp] theorem State.putReg_refused (s : State) (r : CfgReg) (v : W64) : (s.putReg r v).refused = s.refused := rfl
@[simp] theorem State.putReg_peerReplies (s : State) (r : CfgReg) (v : W64) : (s.putReg r v).peerReplies = s.peerReplies := rfl
@[simp] theorem State.putReg_responses (s : State) (r : CfgReg) (v : W64) : (s.putReg r v).responses = s.responses := rfl

/-! ### writeMem -/

@[simp] theorem State.writeMem_agenda (s : State) (k n v : Nat) : (s.writeMem k n v).agenda = s.agenda := rfl
@[simp] theorem State.writeMem_cur (s : State) (k n v : Nat) : (s.writeMem k n v).cur = s.cur := rfl
@[simp] theorem State.writeMem_fresh (s : State) (k n v : Nat) : (s.writeMem k n v).fresh = s.fresh := rfl
@[simp] theorem State.writeMem_nextNum (s : State) (k n v : Nat) : (s.writeMem k n v).nextNum = s.nextNum := rfl
@[simp] theorem State.writeMem_powered (s : State) (k n v : Nat) : (s.writeMem k n v).powered = s.powered := rfl
@[simp] theorem State.writeMem_devstat (s : State) (k n v : Nat) : (s.writeMem k n v).devstat = s.devstat := rfl
@[simp] theorem State.writeMem_tiles (s : State) (k n v : Nat) : (s.writeMem k n v).tiles = s.tiles := rfl
@[simp] theorem State.writeMem_dtags (s : State) (k n v : Nat) : (s.writeMem k n v).dtags = s.dtags := rfl
@[simp] theorem State.writeMem_inbox (s : State) (k n v : Nat) : (s.writeMem k n v).inbox = s.inbox := rfl
@[simp] theorem State.writeMem_cfg (s : State) (k n v : Nat) : (s.writeMem k n v).cfg = s.cfg := rfl
@[simp] theorem State.writeMem_pwins (s : State) (k n v : Nat) : (s.writeMem k n v).pwins = s.pwins := rfl
@[simp] theorem State.writeMem_parts (s : State) (k n v : Nat) : (s.writeMem k n v).parts = s.parts := rfl
@[simp] theorem State.writeMem_rings (s : State) (k n v : Nat) : (s.writeMem k n v).rings = s.rings := rfl
@[simp] theorem State.writeMem_arrivals (s : State) (k n v : Nat) : (s.writeMem k n v).arrivals = s.arrivals := rfl
@[simp] theorem State.writeMem_parked (s : State) (k n v : Nat) : (s.writeMem k n v).parked = s.parked := rfl
@[simp] theorem State.writeMem_saved (s : State) (k n v : Nat) : (s.writeMem k n v).saved = s.saved := rfl
@[simp] theorem State.writeMem_dies (s : State) (k n v : Nat) : (s.writeMem k n v).dies = s.dies := rfl
@[simp] theorem State.writeMem_regions (s : State) (k n v : Nat) : (s.writeMem k n v).regions = s.regions := rfl
@[simp] theorem State.writeMem_links (s : State) (k n v : Nat) : (s.writeMem k n v).links = s.links := rfl
@[simp] theorem State.writeMem_units (s : State) (k n v : Nat) : (s.writeMem k n v).units = s.units := rfl
@[simp] theorem State.writeMem_locks (s : State) (k n v : Nat) : (s.writeMem k n v).locks = s.locks := rfl
@[simp] theorem State.writeMem_remotes (s : State) (k n v : Nat) : (s.writeMem k n v).remotes = s.remotes := rfl
@[simp] theorem State.writeMem_keys (s : State) (k n v : Nat) : (s.writeMem k n v).keys = s.keys := rfl
@[simp] theorem State.writeMem_sessions (s : State) (k n v : Nat) : (s.writeMem k n v).sessions = s.sessions := rfl
@[simp] theorem State.writeMem_arb (s : State) (k n v : Nat) : (s.writeMem k n v).arb = s.arb := rfl
@[simp] theorem State.writeMem_lmsLeaf (s : State) (k n v : Nat) : (s.writeMem k n v).lmsLeaf = s.lmsLeaf := rfl
@[simp] theorem State.writeMem_fw (s : State) (k n v : Nat) : (s.writeMem k n v).fw = s.fw := rfl
@[simp] theorem State.writeMem_heldReqs (s : State) (k n v : Nat) : (s.writeMem k n v).heldReqs = s.heldReqs := rfl
@[simp] theorem State.writeMem_ports (s : State) (k n v : Nat) : (s.writeMem k n v).ports = s.ports := rfl
@[simp] theorem State.writeMem_peerMap (s : State) (k n v : Nat) : (s.writeMem k n v).peerMap = s.peerMap := rfl
@[simp] theorem State.writeMem_forwarded (s : State) (k n v : Nat) : (s.writeMem k n v).forwarded = s.forwarded := rfl
@[simp] theorem State.writeMem_refused (s : State) (k n v : Nat) : (s.writeMem k n v).refused = s.refused := rfl
@[simp] theorem State.writeMem_peerReplies (s : State) (k n v : Nat) : (s.writeMem k n v).peerReplies = s.peerReplies := rfl
@[simp] theorem State.writeMem_responses (s : State) (k n v : Nat) : (s.writeMem k n v).responses = s.responses := rfl

/-! ### writeBytes -/

@[simp] theorem State.writeBytes_agenda (s : State) (k : Nat) (bs : Bytes) : (s.writeBytes k bs).agenda = s.agenda := rfl
@[simp] theorem State.writeBytes_cur (s : State) (k : Nat) (bs : Bytes) : (s.writeBytes k bs).cur = s.cur := rfl
@[simp] theorem State.writeBytes_fresh (s : State) (k : Nat) (bs : Bytes) : (s.writeBytes k bs).fresh = s.fresh := rfl
@[simp] theorem State.writeBytes_nextNum (s : State) (k : Nat) (bs : Bytes) : (s.writeBytes k bs).nextNum = s.nextNum := rfl
@[simp] theorem State.writeBytes_powered (s : State) (k : Nat) (bs : Bytes) : (s.writeBytes k bs).powered = s.powered := rfl
@[simp] theorem State.writeBytes_devstat (s : State) (k : Nat) (bs : Bytes) : (s.writeBytes k bs).devstat = s.devstat := rfl
@[simp] theorem State.writeBytes_tiles (s : State) (k : Nat) (bs : Bytes) : (s.writeBytes k bs).tiles = s.tiles := rfl
@[simp] theorem State.writeBytes_dtags (s : State) (k : Nat) (bs : Bytes) : (s.writeBytes k bs).dtags = s.dtags := rfl
@[simp] theorem State.writeBytes_inbox (s : State) (k : Nat) (bs : Bytes) : (s.writeBytes k bs).inbox = s.inbox := rfl
@[simp] theorem State.writeBytes_cfg (s : State) (k : Nat) (bs : Bytes) : (s.writeBytes k bs).cfg = s.cfg := rfl
@[simp] theorem State.writeBytes_pwins (s : State) (k : Nat) (bs : Bytes) : (s.writeBytes k bs).pwins = s.pwins := rfl
@[simp] theorem State.writeBytes_parts (s : State) (k : Nat) (bs : Bytes) : (s.writeBytes k bs).parts = s.parts := rfl
@[simp] theorem State.writeBytes_rings (s : State) (k : Nat) (bs : Bytes) : (s.writeBytes k bs).rings = s.rings := rfl
@[simp] theorem State.writeBytes_arrivals (s : State) (k : Nat) (bs : Bytes) : (s.writeBytes k bs).arrivals = s.arrivals := rfl
@[simp] theorem State.writeBytes_parked (s : State) (k : Nat) (bs : Bytes) : (s.writeBytes k bs).parked = s.parked := rfl
@[simp] theorem State.writeBytes_saved (s : State) (k : Nat) (bs : Bytes) : (s.writeBytes k bs).saved = s.saved := rfl
@[simp] theorem State.writeBytes_dies (s : State) (k : Nat) (bs : Bytes) : (s.writeBytes k bs).dies = s.dies := rfl
@[simp] theorem State.writeBytes_regions (s : State) (k : Nat) (bs : Bytes) : (s.writeBytes k bs).regions = s.regions := rfl
@[simp] theorem State.writeBytes_links (s : State) (k : Nat) (bs : Bytes) : (s.writeBytes k bs).links = s.links := rfl
@[simp] theorem State.writeBytes_units (s : State) (k : Nat) (bs : Bytes) : (s.writeBytes k bs).units = s.units := rfl
@[simp] theorem State.writeBytes_locks (s : State) (k : Nat) (bs : Bytes) : (s.writeBytes k bs).locks = s.locks := rfl
@[simp] theorem State.writeBytes_remotes (s : State) (k : Nat) (bs : Bytes) : (s.writeBytes k bs).remotes = s.remotes := rfl
@[simp] theorem State.writeBytes_keys (s : State) (k : Nat) (bs : Bytes) : (s.writeBytes k bs).keys = s.keys := rfl
@[simp] theorem State.writeBytes_sessions (s : State) (k : Nat) (bs : Bytes) : (s.writeBytes k bs).sessions = s.sessions := rfl
@[simp] theorem State.writeBytes_arb (s : State) (k : Nat) (bs : Bytes) : (s.writeBytes k bs).arb = s.arb := rfl
@[simp] theorem State.writeBytes_lmsLeaf (s : State) (k : Nat) (bs : Bytes) : (s.writeBytes k bs).lmsLeaf = s.lmsLeaf := rfl
@[simp] theorem State.writeBytes_fw (s : State) (k : Nat) (bs : Bytes) : (s.writeBytes k bs).fw = s.fw := rfl
@[simp] theorem State.writeBytes_heldReqs (s : State) (k : Nat) (bs : Bytes) : (s.writeBytes k bs).heldReqs = s.heldReqs := rfl
@[simp] theorem State.writeBytes_ports (s : State) (k : Nat) (bs : Bytes) : (s.writeBytes k bs).ports = s.ports := rfl
@[simp] theorem State.writeBytes_peerMap (s : State) (k : Nat) (bs : Bytes) : (s.writeBytes k bs).peerMap = s.peerMap := rfl
@[simp] theorem State.writeBytes_forwarded (s : State) (k : Nat) (bs : Bytes) : (s.writeBytes k bs).forwarded = s.forwarded := rfl
@[simp] theorem State.writeBytes_refused (s : State) (k : Nat) (bs : Bytes) : (s.writeBytes k bs).refused = s.refused := rfl
@[simp] theorem State.writeBytes_peerReplies (s : State) (k : Nat) (bs : Bytes) : (s.writeBytes k bs).peerReplies = s.peerReplies := rfl
@[simp] theorem State.writeBytes_responses (s : State) (k : Nat) (bs : Bytes) : (s.writeBytes k bs).responses = s.responses := rfl

/-! ### replyRemote -/

@[simp] theorem State.replyRemote_agenda (s : State) (i : Nat) (r : RemoteSt) : (s.replyRemote i r).agenda = s.agenda := rfl
@[simp] theorem State.replyRemote_cur (s : State) (i : Nat) (r : RemoteSt) : (s.replyRemote i r).cur = s.cur := rfl
@[simp] theorem State.replyRemote_fresh (s : State) (i : Nat) (r : RemoteSt) : (s.replyRemote i r).fresh = s.fresh := rfl
@[simp] theorem State.replyRemote_nextNum (s : State) (i : Nat) (r : RemoteSt) : (s.replyRemote i r).nextNum = s.nextNum := rfl
@[simp] theorem State.replyRemote_powered (s : State) (i : Nat) (r : RemoteSt) : (s.replyRemote i r).powered = s.powered := rfl
@[simp] theorem State.replyRemote_devstat (s : State) (i : Nat) (r : RemoteSt) : (s.replyRemote i r).devstat = s.devstat := rfl
@[simp] theorem State.replyRemote_tiles (s : State) (i : Nat) (r : RemoteSt) : (s.replyRemote i r).tiles = s.tiles := rfl
@[simp] theorem State.replyRemote_mem (s : State) (i : Nat) (r : RemoteSt) : (s.replyRemote i r).mem = s.mem := rfl
@[simp] theorem State.replyRemote_poisoned (s : State) (i : Nat) (r : RemoteSt) : (s.replyRemote i r).poisoned = s.poisoned := rfl
@[simp] theorem State.replyRemote_dtags (s : State) (i : Nat) (r : RemoteSt) : (s.replyRemote i r).dtags = s.dtags := rfl
@[simp] theorem State.replyRemote_inbox (s : State) (i : Nat) (r : RemoteSt) : (s.replyRemote i r).inbox = s.inbox := rfl
@[simp] theorem State.replyRemote_cfg (s : State) (i : Nat) (r : RemoteSt) : (s.replyRemote i r).cfg = s.cfg := rfl
@[simp] theorem State.replyRemote_pwins (s : State) (i : Nat) (r : RemoteSt) : (s.replyRemote i r).pwins = s.pwins := rfl
@[simp] theorem State.replyRemote_parts (s : State) (i : Nat) (r : RemoteSt) : (s.replyRemote i r).parts = s.parts := rfl
@[simp] theorem State.replyRemote_rings (s : State) (i : Nat) (r : RemoteSt) : (s.replyRemote i r).rings = s.rings := rfl
@[simp] theorem State.replyRemote_arrivals (s : State) (i : Nat) (r : RemoteSt) : (s.replyRemote i r).arrivals = s.arrivals := rfl
@[simp] theorem State.replyRemote_parked (s : State) (i : Nat) (r : RemoteSt) : (s.replyRemote i r).parked = s.parked := rfl
@[simp] theorem State.replyRemote_saved (s : State) (i : Nat) (r : RemoteSt) : (s.replyRemote i r).saved = s.saved := rfl
@[simp] theorem State.replyRemote_dies (s : State) (i : Nat) (r : RemoteSt) : (s.replyRemote i r).dies = s.dies := rfl
@[simp] theorem State.replyRemote_regions (s : State) (i : Nat) (r : RemoteSt) : (s.replyRemote i r).regions = s.regions := rfl
@[simp] theorem State.replyRemote_links (s : State) (i : Nat) (r : RemoteSt) : (s.replyRemote i r).links = s.links := rfl
@[simp] theorem State.replyRemote_units (s : State) (i : Nat) (r : RemoteSt) : (s.replyRemote i r).units = s.units := rfl
@[simp] theorem State.replyRemote_locks (s : State) (i : Nat) (r : RemoteSt) : (s.replyRemote i r).locks = s.locks := rfl
@[simp] theorem State.replyRemote_keys (s : State) (i : Nat) (r : RemoteSt) : (s.replyRemote i r).keys = s.keys := rfl
@[simp] theorem State.replyRemote_sessions (s : State) (i : Nat) (r : RemoteSt) : (s.replyRemote i r).sessions = s.sessions := rfl
@[simp] theorem State.replyRemote_arb (s : State) (i : Nat) (r : RemoteSt) : (s.replyRemote i r).arb = s.arb := rfl
@[simp] theorem State.replyRemote_lmsLeaf (s : State) (i : Nat) (r : RemoteSt) : (s.replyRemote i r).lmsLeaf = s.lmsLeaf := rfl
@[simp] theorem State.replyRemote_fw (s : State) (i : Nat) (r : RemoteSt) : (s.replyRemote i r).fw = s.fw := rfl
@[simp] theorem State.replyRemote_heldReqs (s : State) (i : Nat) (r : RemoteSt) : (s.replyRemote i r).heldReqs = s.heldReqs := rfl
@[simp] theorem State.replyRemote_ports (s : State) (i : Nat) (r : RemoteSt) : (s.replyRemote i r).ports = s.ports := rfl
@[simp] theorem State.replyRemote_peerMap (s : State) (i : Nat) (r : RemoteSt) : (s.replyRemote i r).peerMap = s.peerMap := rfl
@[simp] theorem State.replyRemote_forwarded (s : State) (i : Nat) (r : RemoteSt) : (s.replyRemote i r).forwarded = s.forwarded := rfl
@[simp] theorem State.replyRemote_refused (s : State) (i : Nat) (r : RemoteSt) : (s.replyRemote i r).refused = s.refused := rfl
@[simp] theorem State.replyRemote_peerReplies (s : State) (i : Nat) (r : RemoteSt) : (s.replyRemote i r).peerReplies = s.peerReplies := rfl
@[simp] theorem State.replyRemote_responses (s : State) (i : Nat) (r : RemoteSt) : (s.replyRemote i r).responses = s.responses := rfl

/-! ### answerRemote -/

@[simp] theorem State.answerRemote_agenda (s : State) (i : Nat) (b : Bool) : (s.answerRemote i b).agenda = s.agenda := rfl
@[simp] theorem State.answerRemote_cur (s : State) (i : Nat) (b : Bool) : (s.answerRemote i b).cur = s.cur := rfl
@[simp] theorem State.answerRemote_fresh (s : State) (i : Nat) (b : Bool) : (s.answerRemote i b).fresh = s.fresh := rfl
@[simp] theorem State.answerRemote_nextNum (s : State) (i : Nat) (b : Bool) : (s.answerRemote i b).nextNum = s.nextNum := rfl
@[simp] theorem State.answerRemote_powered (s : State) (i : Nat) (b : Bool) : (s.answerRemote i b).powered = s.powered := rfl
@[simp] theorem State.answerRemote_devstat (s : State) (i : Nat) (b : Bool) : (s.answerRemote i b).devstat = s.devstat := rfl
@[simp] theorem State.answerRemote_tiles (s : State) (i : Nat) (b : Bool) : (s.answerRemote i b).tiles = s.tiles := rfl
@[simp] theorem State.answerRemote_mem (s : State) (i : Nat) (b : Bool) : (s.answerRemote i b).mem = s.mem := rfl
@[simp] theorem State.answerRemote_poisoned (s : State) (i : Nat) (b : Bool) : (s.answerRemote i b).poisoned = s.poisoned := rfl
@[simp] theorem State.answerRemote_dtags (s : State) (i : Nat) (b : Bool) : (s.answerRemote i b).dtags = s.dtags := rfl
@[simp] theorem State.answerRemote_inbox (s : State) (i : Nat) (b : Bool) : (s.answerRemote i b).inbox = s.inbox := rfl
@[simp] theorem State.answerRemote_cfg (s : State) (i : Nat) (b : Bool) : (s.answerRemote i b).cfg = s.cfg := rfl
@[simp] theorem State.answerRemote_pwins (s : State) (i : Nat) (b : Bool) : (s.answerRemote i b).pwins = s.pwins := rfl
@[simp] theorem State.answerRemote_parts (s : State) (i : Nat) (b : Bool) : (s.answerRemote i b).parts = s.parts := rfl
@[simp] theorem State.answerRemote_rings (s : State) (i : Nat) (b : Bool) : (s.answerRemote i b).rings = s.rings := rfl
@[simp] theorem State.answerRemote_arrivals (s : State) (i : Nat) (b : Bool) : (s.answerRemote i b).arrivals = s.arrivals := rfl
@[simp] theorem State.answerRemote_parked (s : State) (i : Nat) (b : Bool) : (s.answerRemote i b).parked = s.parked := rfl
@[simp] theorem State.answerRemote_saved (s : State) (i : Nat) (b : Bool) : (s.answerRemote i b).saved = s.saved := rfl
@[simp] theorem State.answerRemote_dies (s : State) (i : Nat) (b : Bool) : (s.answerRemote i b).dies = s.dies := rfl
@[simp] theorem State.answerRemote_regions (s : State) (i : Nat) (b : Bool) : (s.answerRemote i b).regions = s.regions := rfl
@[simp] theorem State.answerRemote_links (s : State) (i : Nat) (b : Bool) : (s.answerRemote i b).links = s.links := rfl
@[simp] theorem State.answerRemote_units (s : State) (i : Nat) (b : Bool) : (s.answerRemote i b).units = s.units := rfl
@[simp] theorem State.answerRemote_locks (s : State) (i : Nat) (b : Bool) : (s.answerRemote i b).locks = s.locks := rfl
@[simp] theorem State.answerRemote_keys (s : State) (i : Nat) (b : Bool) : (s.answerRemote i b).keys = s.keys := rfl
@[simp] theorem State.answerRemote_sessions (s : State) (i : Nat) (b : Bool) : (s.answerRemote i b).sessions = s.sessions := rfl
@[simp] theorem State.answerRemote_arb (s : State) (i : Nat) (b : Bool) : (s.answerRemote i b).arb = s.arb := rfl
@[simp] theorem State.answerRemote_lmsLeaf (s : State) (i : Nat) (b : Bool) : (s.answerRemote i b).lmsLeaf = s.lmsLeaf := rfl
@[simp] theorem State.answerRemote_fw (s : State) (i : Nat) (b : Bool) : (s.answerRemote i b).fw = s.fw := rfl
@[simp] theorem State.answerRemote_heldReqs (s : State) (i : Nat) (b : Bool) : (s.answerRemote i b).heldReqs = s.heldReqs := rfl
@[simp] theorem State.answerRemote_ports (s : State) (i : Nat) (b : Bool) : (s.answerRemote i b).ports = s.ports := rfl
@[simp] theorem State.answerRemote_peerMap (s : State) (i : Nat) (b : Bool) : (s.answerRemote i b).peerMap = s.peerMap := rfl
@[simp] theorem State.answerRemote_forwarded (s : State) (i : Nat) (b : Bool) : (s.answerRemote i b).forwarded = s.forwarded := rfl
@[simp] theorem State.answerRemote_refused (s : State) (i : Nat) (b : Bool) : (s.answerRemote i b).refused = s.refused := rfl
@[simp] theorem State.answerRemote_peerReplies (s : State) (i : Nat) (b : Bool) : (s.answerRemote i b).peerReplies = s.peerReplies := rfl
@[simp] theorem State.answerRemote_responses (s : State) (i : Nat) (b : Bool) : (s.answerRemote i b).responses = s.responses := rfl

/-! ### A register of a slot -/

@[simp] theorem Slot.setS_h (x : Slot) (r : SReg) (v : W64) : (x.setS r v).h = x.h := by unfold Slot.setS; split <;> rfl
@[simp] theorem Slot.setS_q (x : Slot) (r : SReg) (v : W64) : (x.setS r v).q = x.q := by unfold Slot.setS; split <;> rfl
@[simp] theorem Slot.setS_v (x : Slot) (r : SReg) (v : W64) : (x.setS r v).v = x.v := by unfold Slot.setS; split <;> rfl
@[simp] theorem Slot.setS_k (x : Slot) (r : SReg) (v : W64) : (x.setS r v).k = x.k := by unfold Slot.setS; split <;> rfl
@[simp] theorem Slot.setS_t (x : Slot) (r : SReg) (v : W64) : (x.setS r v).t = x.t := by unfold Slot.setS; split <;> rfl
@[simp] theorem Slot.setS_a (x : Slot) (r : SReg) (v : W64) : (x.setS r v).a = x.a := by unfold Slot.setS; split <;> rfl
@[simp] theorem Slot.setS_ml (x : Slot) (r : SReg) (v : W64) : (x.setS r v).ml = x.ml := by unfold Slot.setS; split <;> rfl
@[simp] theorem Slot.setS_lc (x : Slot) (r : SReg) (v : W64) : (x.setS r v).lc = x.lc := by unfold Slot.setS; split <;> rfl
@[simp] theorem Slot.setS_rb (x : Slot) (r : SReg) (v : W64) : (x.setS r v).rb = x.rb := by unfold Slot.setS; split <;> rfl
@[simp] theorem Slot.setS_mstat (x : Slot) (r : SReg) (v : W64) : (x.setS r v).mstat = x.mstat := by unfold Slot.setS; split <;> rfl
@[simp] theorem Slot.setS_budg (x : Slot) (r : SReg) (v : W64) : (x.setS r v).budg = x.budg := by unfold Slot.setS; split <;> rfl
@[simp] theorem Slot.setS_finfo (x : Slot) (r : SReg) (v : W64) : (x.setS r v).finfo = x.finfo := by unfold Slot.setS; split <;> rfl
@[simp] theorem Slot.setS_ret (x : Slot) (r : SReg) (v : W64) : (x.setS r v).ret = x.ret := by unfold Slot.setS; split <;> rfl
@[simp] theorem Slot.setS_rss (x : Slot) (r : SReg) (v : W64) : (x.setS r v).rss = x.rss := by unfold Slot.setS; split <;> rfl
@[simp] theorem Slot.setS_loop (x : Slot) (r : SReg) (v : W64) : (x.setS r v).loop = x.loop := by unfold Slot.setS; split <;> rfl
@[simp] theorem Slot.setS_pc (x : Slot) (r : SReg) (v : W64) : (x.setS r v).pc = x.pc := by unfold Slot.setS; split <;> rfl
@[simp] theorem Slot.setS_ipc (x : Slot) (r : SReg) (v : W64) : (x.setS r v).ipc = x.ipc := by unfold Slot.setS; split <;> rfl
@[simp] theorem Slot.setS_npc (x : Slot) (r : SReg) (v : W64) : (x.setS r v).npc = x.npc := by unfold Slot.setS; split <;> rfl
@[simp] theorem Slot.setS_gwords (x : Slot) (r : SReg) (v : W64) : (x.setS r v).gwords = x.gwords := by unfold Slot.setS; split <;> rfl
@[simp] theorem Slot.setS_task (x : Slot) (r : SReg) (v : W64) : (x.setS r v).task = x.task := by unfold Slot.setS; split <;> rfl
@[simp] theorem Slot.setS_st (x : Slot) (r : SReg) (v : W64) : (x.setS r v).st = x.st := by unfold Slot.setS; split <;> rfl
@[simp] theorem Slot.setS_hold (x : Slot) (r : SReg) (v : W64) : (x.setS r v).hold = x.hold := by unfold Slot.setS; split <;> rfl
@[simp] theorem Slot.setS_accs (x : Slot) (r : SReg) (v : W64) : (x.setS r v).accs = x.accs := by unfold Slot.setS; split <;> rfl
@[simp] theorem Slot.setS_mq (x : Slot) (r : SReg) (v : W64) : (x.setS r v).mq = x.mq := by unfold Slot.setS; split <;> rfl
@[simp] theorem Slot.setS_cq (x : Slot) (r : SReg) (v : W64) : (x.setS r v).cq = x.cq := by unfold Slot.setS; split <;> rfl
@[simp] theorem Slot.setS_queries (x : Slot) (r : SReg) (v : W64) : (x.setS r v).queries = x.queries := by unfold Slot.setS; split <;> rfl
@[simp] theorem Slot.setS_phase (x : Slot) (r : SReg) (v : W64) : (x.setS r v).phase = x.phase := by unfold Slot.setS; split <;> rfl
@[simp] theorem Slot.setS_canc (x : Slot) (r : SReg) (v : W64) : (x.setS r v).canc = x.canc := by unfold Slot.setS; split <;> rfl
@[simp] theorem Slot.setS_restoring (x : Slot) (r : SReg) (v : W64) : (x.setS r v).restoring = x.restoring := by unfold Slot.setS; split <;> rfl
@[simp] theorem Slot.setS_pendPreempt (x : Slot) (r : SReg) (v : W64) : (x.setS r v).pendPreempt = x.pendPreempt := by unfold Slot.setS; split <;> rfl
@[simp] theorem Slot.setS_moveDue (x : Slot) (r : SReg) (v : W64) : (x.setS r v).moveDue = x.moveDue := by unfold Slot.setS; split <;> rfl
@[simp] theorem Slot.setS_writeOut (x : Slot) (r : SReg) (v : W64) : (x.setS r v).writeOut = x.writeOut := by unfold Slot.setS; split <;> rfl
@[simp] theorem Slot.setS_ran (x : Slot) (r : SReg) (v : W64) : (x.setS r v).ran = x.ran := by unfold Slot.setS; split <;> rfl
@[simp] theorem Slot.setS_waited (x : Slot) (r : SReg) (v : W64) : (x.setS r v).waited = x.waited := by unfold Slot.setS; split <;> rfl
@[simp] theorem Slot.setS_stall (x : Slot) (r : SReg) (v : W64) : (x.setS r v).stall = x.stall := by unfold Slot.setS; split <;> rfl
@[simp] theorem Slot.setS_source (x : Slot) (r : SReg) (v : W64) : (x.setS r v).source = x.source := by unfold Slot.setS; split <;> rfl
@[simp] theorem Slot.setS_due (x : Slot) (r : SReg) (v : W64) : (x.setS r v).due = x.due := by unfold Slot.setS; split <;> rfl
@[simp] theorem Slot.setS_vfree (x : Slot) (r : SReg) (v : W64) : (x.setS r v).vfree = x.vfree := by unfold Slot.setS; split <;> rfl

@[simp] theorem Slot.setH_s (x : Slot) (r : HReg) (v : W256) : (x.setH r v).s = x.s := rfl
@[simp] theorem Slot.setH_q (x : Slot) (r : HReg) (v : W256) : (x.setH r v).q = x.q := rfl
@[simp] theorem Slot.setH_v (x : Slot) (r : HReg) (v : W256) : (x.setH r v).v = x.v := rfl
@[simp] theorem Slot.setH_k (x : Slot) (r : HReg) (v : W256) : (x.setH r v).k = x.k := rfl
@[simp] theorem Slot.setH_t (x : Slot) (r : HReg) (v : W256) : (x.setH r v).t = x.t := rfl
@[simp] theorem Slot.setH_a (x : Slot) (r : HReg) (v : W256) : (x.setH r v).a = x.a := rfl
@[simp] theorem Slot.setH_ml (x : Slot) (r : HReg) (v : W256) : (x.setH r v).ml = x.ml := rfl
@[simp] theorem Slot.setH_lc (x : Slot) (r : HReg) (v : W256) : (x.setH r v).lc = x.lc := rfl
@[simp] theorem Slot.setH_rb (x : Slot) (r : HReg) (v : W256) : (x.setH r v).rb = x.rb := rfl
@[simp] theorem Slot.setH_mstat (x : Slot) (r : HReg) (v : W256) : (x.setH r v).mstat = x.mstat := rfl
@[simp] theorem Slot.setH_budg (x : Slot) (r : HReg) (v : W256) : (x.setH r v).budg = x.budg := rfl
@[simp] theorem Slot.setH_finfo (x : Slot) (r : HReg) (v : W256) : (x.setH r v).finfo = x.finfo := rfl
@[simp] theorem Slot.setH_ret (x : Slot) (r : HReg) (v : W256) : (x.setH r v).ret = x.ret := rfl
@[simp] theorem Slot.setH_rss (x : Slot) (r : HReg) (v : W256) : (x.setH r v).rss = x.rss := rfl
@[simp] theorem Slot.setH_loop (x : Slot) (r : HReg) (v : W256) : (x.setH r v).loop = x.loop := rfl
@[simp] theorem Slot.setH_pc (x : Slot) (r : HReg) (v : W256) : (x.setH r v).pc = x.pc := rfl
@[simp] theorem Slot.setH_ipc (x : Slot) (r : HReg) (v : W256) : (x.setH r v).ipc = x.ipc := rfl
@[simp] theorem Slot.setH_npc (x : Slot) (r : HReg) (v : W256) : (x.setH r v).npc = x.npc := rfl
@[simp] theorem Slot.setH_gwords (x : Slot) (r : HReg) (v : W256) : (x.setH r v).gwords = x.gwords := rfl
@[simp] theorem Slot.setH_task (x : Slot) (r : HReg) (v : W256) : (x.setH r v).task = x.task := rfl
@[simp] theorem Slot.setH_st (x : Slot) (r : HReg) (v : W256) : (x.setH r v).st = x.st := rfl
@[simp] theorem Slot.setH_hold (x : Slot) (r : HReg) (v : W256) : (x.setH r v).hold = x.hold := rfl
@[simp] theorem Slot.setH_accs (x : Slot) (r : HReg) (v : W256) : (x.setH r v).accs = x.accs := rfl
@[simp] theorem Slot.setH_mq (x : Slot) (r : HReg) (v : W256) : (x.setH r v).mq = x.mq := rfl
@[simp] theorem Slot.setH_cq (x : Slot) (r : HReg) (v : W256) : (x.setH r v).cq = x.cq := rfl
@[simp] theorem Slot.setH_queries (x : Slot) (r : HReg) (v : W256) : (x.setH r v).queries = x.queries := rfl
@[simp] theorem Slot.setH_phase (x : Slot) (r : HReg) (v : W256) : (x.setH r v).phase = x.phase := rfl
@[simp] theorem Slot.setH_canc (x : Slot) (r : HReg) (v : W256) : (x.setH r v).canc = x.canc := rfl
@[simp] theorem Slot.setH_restoring (x : Slot) (r : HReg) (v : W256) : (x.setH r v).restoring = x.restoring := rfl
@[simp] theorem Slot.setH_pendPreempt (x : Slot) (r : HReg) (v : W256) : (x.setH r v).pendPreempt = x.pendPreempt := rfl
@[simp] theorem Slot.setH_moveDue (x : Slot) (r : HReg) (v : W256) : (x.setH r v).moveDue = x.moveDue := rfl
@[simp] theorem Slot.setH_writeOut (x : Slot) (r : HReg) (v : W256) : (x.setH r v).writeOut = x.writeOut := rfl
@[simp] theorem Slot.setH_ran (x : Slot) (r : HReg) (v : W256) : (x.setH r v).ran = x.ran := rfl
@[simp] theorem Slot.setH_waited (x : Slot) (r : HReg) (v : W256) : (x.setH r v).waited = x.waited := rfl
@[simp] theorem Slot.setH_stall (x : Slot) (r : HReg) (v : W256) : (x.setH r v).stall = x.stall := rfl
@[simp] theorem Slot.setH_source (x : Slot) (r : HReg) (v : W256) : (x.setH r v).source = x.source := rfl
@[simp] theorem Slot.setH_due (x : Slot) (r : HReg) (v : W256) : (x.setH r v).due = x.due := rfl
@[simp] theorem Slot.setH_vfree (x : Slot) (r : HReg) (v : W256) : (x.setH r v).vfree = x.vfree := rfl

@[simp] theorem Slot.setQ_s (x : Slot) (r : QReg) (v : Bool) : (x.setQ r v).s = x.s := by unfold Slot.setQ; split <;> rfl
@[simp] theorem Slot.setQ_h (x : Slot) (r : QReg) (v : Bool) : (x.setQ r v).h = x.h := by unfold Slot.setQ; split <;> rfl
@[simp] theorem Slot.setQ_v (x : Slot) (r : QReg) (v : Bool) : (x.setQ r v).v = x.v := by unfold Slot.setQ; split <;> rfl
@[simp] theorem Slot.setQ_k (x : Slot) (r : QReg) (v : Bool) : (x.setQ r v).k = x.k := by unfold Slot.setQ; split <;> rfl
@[simp] theorem Slot.setQ_t (x : Slot) (r : QReg) (v : Bool) : (x.setQ r v).t = x.t := by unfold Slot.setQ; split <;> rfl
@[simp] theorem Slot.setQ_a (x : Slot) (r : QReg) (v : Bool) : (x.setQ r v).a = x.a := by unfold Slot.setQ; split <;> rfl
@[simp] theorem Slot.setQ_ml (x : Slot) (r : QReg) (v : Bool) : (x.setQ r v).ml = x.ml := by unfold Slot.setQ; split <;> rfl
@[simp] theorem Slot.setQ_lc (x : Slot) (r : QReg) (v : Bool) : (x.setQ r v).lc = x.lc := by unfold Slot.setQ; split <;> rfl
@[simp] theorem Slot.setQ_rb (x : Slot) (r : QReg) (v : Bool) : (x.setQ r v).rb = x.rb := by unfold Slot.setQ; split <;> rfl
@[simp] theorem Slot.setQ_mstat (x : Slot) (r : QReg) (v : Bool) : (x.setQ r v).mstat = x.mstat := by unfold Slot.setQ; split <;> rfl
@[simp] theorem Slot.setQ_budg (x : Slot) (r : QReg) (v : Bool) : (x.setQ r v).budg = x.budg := by unfold Slot.setQ; split <;> rfl
@[simp] theorem Slot.setQ_finfo (x : Slot) (r : QReg) (v : Bool) : (x.setQ r v).finfo = x.finfo := by unfold Slot.setQ; split <;> rfl
@[simp] theorem Slot.setQ_ret (x : Slot) (r : QReg) (v : Bool) : (x.setQ r v).ret = x.ret := by unfold Slot.setQ; split <;> rfl
@[simp] theorem Slot.setQ_rss (x : Slot) (r : QReg) (v : Bool) : (x.setQ r v).rss = x.rss := by unfold Slot.setQ; split <;> rfl
@[simp] theorem Slot.setQ_loop (x : Slot) (r : QReg) (v : Bool) : (x.setQ r v).loop = x.loop := by unfold Slot.setQ; split <;> rfl
@[simp] theorem Slot.setQ_pc (x : Slot) (r : QReg) (v : Bool) : (x.setQ r v).pc = x.pc := by unfold Slot.setQ; split <;> rfl
@[simp] theorem Slot.setQ_ipc (x : Slot) (r : QReg) (v : Bool) : (x.setQ r v).ipc = x.ipc := by unfold Slot.setQ; split <;> rfl
@[simp] theorem Slot.setQ_npc (x : Slot) (r : QReg) (v : Bool) : (x.setQ r v).npc = x.npc := by unfold Slot.setQ; split <;> rfl
@[simp] theorem Slot.setQ_gwords (x : Slot) (r : QReg) (v : Bool) : (x.setQ r v).gwords = x.gwords := by unfold Slot.setQ; split <;> rfl
@[simp] theorem Slot.setQ_task (x : Slot) (r : QReg) (v : Bool) : (x.setQ r v).task = x.task := by unfold Slot.setQ; split <;> rfl
@[simp] theorem Slot.setQ_st (x : Slot) (r : QReg) (v : Bool) : (x.setQ r v).st = x.st := by unfold Slot.setQ; split <;> rfl
@[simp] theorem Slot.setQ_hold (x : Slot) (r : QReg) (v : Bool) : (x.setQ r v).hold = x.hold := by unfold Slot.setQ; split <;> rfl
@[simp] theorem Slot.setQ_accs (x : Slot) (r : QReg) (v : Bool) : (x.setQ r v).accs = x.accs := by unfold Slot.setQ; split <;> rfl
@[simp] theorem Slot.setQ_mq (x : Slot) (r : QReg) (v : Bool) : (x.setQ r v).mq = x.mq := by unfold Slot.setQ; split <;> rfl
@[simp] theorem Slot.setQ_cq (x : Slot) (r : QReg) (v : Bool) : (x.setQ r v).cq = x.cq := by unfold Slot.setQ; split <;> rfl
@[simp] theorem Slot.setQ_queries (x : Slot) (r : QReg) (v : Bool) : (x.setQ r v).queries = x.queries := by unfold Slot.setQ; split <;> rfl
@[simp] theorem Slot.setQ_phase (x : Slot) (r : QReg) (v : Bool) : (x.setQ r v).phase = x.phase := by unfold Slot.setQ; split <;> rfl
@[simp] theorem Slot.setQ_canc (x : Slot) (r : QReg) (v : Bool) : (x.setQ r v).canc = x.canc := by unfold Slot.setQ; split <;> rfl
@[simp] theorem Slot.setQ_restoring (x : Slot) (r : QReg) (v : Bool) : (x.setQ r v).restoring = x.restoring := by unfold Slot.setQ; split <;> rfl
@[simp] theorem Slot.setQ_pendPreempt (x : Slot) (r : QReg) (v : Bool) : (x.setQ r v).pendPreempt = x.pendPreempt := by unfold Slot.setQ; split <;> rfl
@[simp] theorem Slot.setQ_moveDue (x : Slot) (r : QReg) (v : Bool) : (x.setQ r v).moveDue = x.moveDue := by unfold Slot.setQ; split <;> rfl
@[simp] theorem Slot.setQ_writeOut (x : Slot) (r : QReg) (v : Bool) : (x.setQ r v).writeOut = x.writeOut := by unfold Slot.setQ; split <;> rfl
@[simp] theorem Slot.setQ_ran (x : Slot) (r : QReg) (v : Bool) : (x.setQ r v).ran = x.ran := by unfold Slot.setQ; split <;> rfl
@[simp] theorem Slot.setQ_waited (x : Slot) (r : QReg) (v : Bool) : (x.setQ r v).waited = x.waited := by unfold Slot.setQ; split <;> rfl
@[simp] theorem Slot.setQ_stall (x : Slot) (r : QReg) (v : Bool) : (x.setQ r v).stall = x.stall := by unfold Slot.setQ; split <;> rfl
@[simp] theorem Slot.setQ_source (x : Slot) (r : QReg) (v : Bool) : (x.setQ r v).source = x.source := by unfold Slot.setQ; split <;> rfl
@[simp] theorem Slot.setQ_due (x : Slot) (r : QReg) (v : Bool) : (x.setQ r v).due = x.due := by unfold Slot.setQ; split <;> rfl
@[simp] theorem Slot.setQ_vfree (x : Slot) (r : QReg) (v : Bool) : (x.setQ r v).vfree = x.vfree := by unfold Slot.setQ; split <;> rfl

@[simp] theorem Slot.setV_s (x : Slot) (r : VReg) (v : Lanes) : (x.setV r v).s = x.s := rfl
@[simp] theorem Slot.setV_h (x : Slot) (r : VReg) (v : Lanes) : (x.setV r v).h = x.h := rfl
@[simp] theorem Slot.setV_q (x : Slot) (r : VReg) (v : Lanes) : (x.setV r v).q = x.q := rfl
@[simp] theorem Slot.setV_k (x : Slot) (r : VReg) (v : Lanes) : (x.setV r v).k = x.k := rfl
@[simp] theorem Slot.setV_t (x : Slot) (r : VReg) (v : Lanes) : (x.setV r v).t = x.t := rfl
@[simp] theorem Slot.setV_a (x : Slot) (r : VReg) (v : Lanes) : (x.setV r v).a = x.a := rfl
@[simp] theorem Slot.setV_ml (x : Slot) (r : VReg) (v : Lanes) : (x.setV r v).ml = x.ml := rfl
@[simp] theorem Slot.setV_lc (x : Slot) (r : VReg) (v : Lanes) : (x.setV r v).lc = x.lc := rfl
@[simp] theorem Slot.setV_rb (x : Slot) (r : VReg) (v : Lanes) : (x.setV r v).rb = x.rb := rfl
@[simp] theorem Slot.setV_mstat (x : Slot) (r : VReg) (v : Lanes) : (x.setV r v).mstat = x.mstat := rfl
@[simp] theorem Slot.setV_budg (x : Slot) (r : VReg) (v : Lanes) : (x.setV r v).budg = x.budg := rfl
@[simp] theorem Slot.setV_finfo (x : Slot) (r : VReg) (v : Lanes) : (x.setV r v).finfo = x.finfo := rfl
@[simp] theorem Slot.setV_ret (x : Slot) (r : VReg) (v : Lanes) : (x.setV r v).ret = x.ret := rfl
@[simp] theorem Slot.setV_rss (x : Slot) (r : VReg) (v : Lanes) : (x.setV r v).rss = x.rss := rfl
@[simp] theorem Slot.setV_loop (x : Slot) (r : VReg) (v : Lanes) : (x.setV r v).loop = x.loop := rfl
@[simp] theorem Slot.setV_pc (x : Slot) (r : VReg) (v : Lanes) : (x.setV r v).pc = x.pc := rfl
@[simp] theorem Slot.setV_ipc (x : Slot) (r : VReg) (v : Lanes) : (x.setV r v).ipc = x.ipc := rfl
@[simp] theorem Slot.setV_npc (x : Slot) (r : VReg) (v : Lanes) : (x.setV r v).npc = x.npc := rfl
@[simp] theorem Slot.setV_gwords (x : Slot) (r : VReg) (v : Lanes) : (x.setV r v).gwords = x.gwords := rfl
@[simp] theorem Slot.setV_task (x : Slot) (r : VReg) (v : Lanes) : (x.setV r v).task = x.task := rfl
@[simp] theorem Slot.setV_st (x : Slot) (r : VReg) (v : Lanes) : (x.setV r v).st = x.st := rfl
@[simp] theorem Slot.setV_hold (x : Slot) (r : VReg) (v : Lanes) : (x.setV r v).hold = x.hold := rfl
@[simp] theorem Slot.setV_accs (x : Slot) (r : VReg) (v : Lanes) : (x.setV r v).accs = x.accs := rfl
@[simp] theorem Slot.setV_mq (x : Slot) (r : VReg) (v : Lanes) : (x.setV r v).mq = x.mq := rfl
@[simp] theorem Slot.setV_cq (x : Slot) (r : VReg) (v : Lanes) : (x.setV r v).cq = x.cq := rfl
@[simp] theorem Slot.setV_queries (x : Slot) (r : VReg) (v : Lanes) : (x.setV r v).queries = x.queries := rfl
@[simp] theorem Slot.setV_phase (x : Slot) (r : VReg) (v : Lanes) : (x.setV r v).phase = x.phase := rfl
@[simp] theorem Slot.setV_canc (x : Slot) (r : VReg) (v : Lanes) : (x.setV r v).canc = x.canc := rfl
@[simp] theorem Slot.setV_restoring (x : Slot) (r : VReg) (v : Lanes) : (x.setV r v).restoring = x.restoring := rfl
@[simp] theorem Slot.setV_pendPreempt (x : Slot) (r : VReg) (v : Lanes) : (x.setV r v).pendPreempt = x.pendPreempt := rfl
@[simp] theorem Slot.setV_moveDue (x : Slot) (r : VReg) (v : Lanes) : (x.setV r v).moveDue = x.moveDue := rfl
@[simp] theorem Slot.setV_writeOut (x : Slot) (r : VReg) (v : Lanes) : (x.setV r v).writeOut = x.writeOut := rfl
@[simp] theorem Slot.setV_ran (x : Slot) (r : VReg) (v : Lanes) : (x.setV r v).ran = x.ran := rfl
@[simp] theorem Slot.setV_waited (x : Slot) (r : VReg) (v : Lanes) : (x.setV r v).waited = x.waited := rfl
@[simp] theorem Slot.setV_stall (x : Slot) (r : VReg) (v : Lanes) : (x.setV r v).stall = x.stall := rfl
@[simp] theorem Slot.setV_source (x : Slot) (r : VReg) (v : Lanes) : (x.setV r v).source = x.source := rfl
@[simp] theorem Slot.setV_due (x : Slot) (r : VReg) (v : Lanes) : (x.setV r v).due = x.due := rfl
@[simp] theorem Slot.setV_vfree (x : Slot) (r : VReg) (v : Lanes) : (x.setV r v).vfree = x.vfree := rfl

@[simp] theorem Slot.setK_s (x : Slot) (r : KReg) (v : Mask) : (x.setK r v).s = x.s := by unfold Slot.setK; split <;> rfl
@[simp] theorem Slot.setK_h (x : Slot) (r : KReg) (v : Mask) : (x.setK r v).h = x.h := by unfold Slot.setK; split <;> rfl
@[simp] theorem Slot.setK_q (x : Slot) (r : KReg) (v : Mask) : (x.setK r v).q = x.q := by unfold Slot.setK; split <;> rfl
@[simp] theorem Slot.setK_v (x : Slot) (r : KReg) (v : Mask) : (x.setK r v).v = x.v := by unfold Slot.setK; split <;> rfl
@[simp] theorem Slot.setK_t (x : Slot) (r : KReg) (v : Mask) : (x.setK r v).t = x.t := by unfold Slot.setK; split <;> rfl
@[simp] theorem Slot.setK_a (x : Slot) (r : KReg) (v : Mask) : (x.setK r v).a = x.a := by unfold Slot.setK; split <;> rfl
@[simp] theorem Slot.setK_ml (x : Slot) (r : KReg) (v : Mask) : (x.setK r v).ml = x.ml := by unfold Slot.setK; split <;> rfl
@[simp] theorem Slot.setK_lc (x : Slot) (r : KReg) (v : Mask) : (x.setK r v).lc = x.lc := by unfold Slot.setK; split <;> rfl
@[simp] theorem Slot.setK_rb (x : Slot) (r : KReg) (v : Mask) : (x.setK r v).rb = x.rb := by unfold Slot.setK; split <;> rfl
@[simp] theorem Slot.setK_mstat (x : Slot) (r : KReg) (v : Mask) : (x.setK r v).mstat = x.mstat := by unfold Slot.setK; split <;> rfl
@[simp] theorem Slot.setK_budg (x : Slot) (r : KReg) (v : Mask) : (x.setK r v).budg = x.budg := by unfold Slot.setK; split <;> rfl
@[simp] theorem Slot.setK_finfo (x : Slot) (r : KReg) (v : Mask) : (x.setK r v).finfo = x.finfo := by unfold Slot.setK; split <;> rfl
@[simp] theorem Slot.setK_ret (x : Slot) (r : KReg) (v : Mask) : (x.setK r v).ret = x.ret := by unfold Slot.setK; split <;> rfl
@[simp] theorem Slot.setK_rss (x : Slot) (r : KReg) (v : Mask) : (x.setK r v).rss = x.rss := by unfold Slot.setK; split <;> rfl
@[simp] theorem Slot.setK_loop (x : Slot) (r : KReg) (v : Mask) : (x.setK r v).loop = x.loop := by unfold Slot.setK; split <;> rfl
@[simp] theorem Slot.setK_pc (x : Slot) (r : KReg) (v : Mask) : (x.setK r v).pc = x.pc := by unfold Slot.setK; split <;> rfl
@[simp] theorem Slot.setK_ipc (x : Slot) (r : KReg) (v : Mask) : (x.setK r v).ipc = x.ipc := by unfold Slot.setK; split <;> rfl
@[simp] theorem Slot.setK_npc (x : Slot) (r : KReg) (v : Mask) : (x.setK r v).npc = x.npc := by unfold Slot.setK; split <;> rfl
@[simp] theorem Slot.setK_gwords (x : Slot) (r : KReg) (v : Mask) : (x.setK r v).gwords = x.gwords := by unfold Slot.setK; split <;> rfl
@[simp] theorem Slot.setK_task (x : Slot) (r : KReg) (v : Mask) : (x.setK r v).task = x.task := by unfold Slot.setK; split <;> rfl
@[simp] theorem Slot.setK_st (x : Slot) (r : KReg) (v : Mask) : (x.setK r v).st = x.st := by unfold Slot.setK; split <;> rfl
@[simp] theorem Slot.setK_hold (x : Slot) (r : KReg) (v : Mask) : (x.setK r v).hold = x.hold := by unfold Slot.setK; split <;> rfl
@[simp] theorem Slot.setK_accs (x : Slot) (r : KReg) (v : Mask) : (x.setK r v).accs = x.accs := by unfold Slot.setK; split <;> rfl
@[simp] theorem Slot.setK_mq (x : Slot) (r : KReg) (v : Mask) : (x.setK r v).mq = x.mq := by unfold Slot.setK; split <;> rfl
@[simp] theorem Slot.setK_cq (x : Slot) (r : KReg) (v : Mask) : (x.setK r v).cq = x.cq := by unfold Slot.setK; split <;> rfl
@[simp] theorem Slot.setK_queries (x : Slot) (r : KReg) (v : Mask) : (x.setK r v).queries = x.queries := by unfold Slot.setK; split <;> rfl
@[simp] theorem Slot.setK_phase (x : Slot) (r : KReg) (v : Mask) : (x.setK r v).phase = x.phase := by unfold Slot.setK; split <;> rfl
@[simp] theorem Slot.setK_canc (x : Slot) (r : KReg) (v : Mask) : (x.setK r v).canc = x.canc := by unfold Slot.setK; split <;> rfl
@[simp] theorem Slot.setK_restoring (x : Slot) (r : KReg) (v : Mask) : (x.setK r v).restoring = x.restoring := by unfold Slot.setK; split <;> rfl
@[simp] theorem Slot.setK_pendPreempt (x : Slot) (r : KReg) (v : Mask) : (x.setK r v).pendPreempt = x.pendPreempt := by unfold Slot.setK; split <;> rfl
@[simp] theorem Slot.setK_moveDue (x : Slot) (r : KReg) (v : Mask) : (x.setK r v).moveDue = x.moveDue := by unfold Slot.setK; split <;> rfl
@[simp] theorem Slot.setK_writeOut (x : Slot) (r : KReg) (v : Mask) : (x.setK r v).writeOut = x.writeOut := by unfold Slot.setK; split <;> rfl
@[simp] theorem Slot.setK_ran (x : Slot) (r : KReg) (v : Mask) : (x.setK r v).ran = x.ran := by unfold Slot.setK; split <;> rfl
@[simp] theorem Slot.setK_waited (x : Slot) (r : KReg) (v : Mask) : (x.setK r v).waited = x.waited := by unfold Slot.setK; split <;> rfl
@[simp] theorem Slot.setK_stall (x : Slot) (r : KReg) (v : Mask) : (x.setK r v).stall = x.stall := by unfold Slot.setK; split <;> rfl
@[simp] theorem Slot.setK_source (x : Slot) (r : KReg) (v : Mask) : (x.setK r v).source = x.source := by unfold Slot.setK; split <;> rfl
@[simp] theorem Slot.setK_due (x : Slot) (r : KReg) (v : Mask) : (x.setK r v).due = x.due := by unfold Slot.setK; split <;> rfl
@[simp] theorem Slot.setK_vfree (x : Slot) (r : KReg) (v : Mask) : (x.setK r v).vfree = x.vfree := by unfold Slot.setK; split <;> rfl

@[simp] theorem Slot.setT_s (x : Slot) (r : TReg) (v : TileReg) : (x.setT r v).s = x.s := rfl
@[simp] theorem Slot.setT_h (x : Slot) (r : TReg) (v : TileReg) : (x.setT r v).h = x.h := rfl
@[simp] theorem Slot.setT_q (x : Slot) (r : TReg) (v : TileReg) : (x.setT r v).q = x.q := rfl
@[simp] theorem Slot.setT_v (x : Slot) (r : TReg) (v : TileReg) : (x.setT r v).v = x.v := rfl
@[simp] theorem Slot.setT_k (x : Slot) (r : TReg) (v : TileReg) : (x.setT r v).k = x.k := rfl
@[simp] theorem Slot.setT_a (x : Slot) (r : TReg) (v : TileReg) : (x.setT r v).a = x.a := rfl
@[simp] theorem Slot.setT_ml (x : Slot) (r : TReg) (v : TileReg) : (x.setT r v).ml = x.ml := rfl
@[simp] theorem Slot.setT_lc (x : Slot) (r : TReg) (v : TileReg) : (x.setT r v).lc = x.lc := rfl
@[simp] theorem Slot.setT_rb (x : Slot) (r : TReg) (v : TileReg) : (x.setT r v).rb = x.rb := rfl
@[simp] theorem Slot.setT_mstat (x : Slot) (r : TReg) (v : TileReg) : (x.setT r v).mstat = x.mstat := rfl
@[simp] theorem Slot.setT_budg (x : Slot) (r : TReg) (v : TileReg) : (x.setT r v).budg = x.budg := rfl
@[simp] theorem Slot.setT_finfo (x : Slot) (r : TReg) (v : TileReg) : (x.setT r v).finfo = x.finfo := rfl
@[simp] theorem Slot.setT_ret (x : Slot) (r : TReg) (v : TileReg) : (x.setT r v).ret = x.ret := rfl
@[simp] theorem Slot.setT_rss (x : Slot) (r : TReg) (v : TileReg) : (x.setT r v).rss = x.rss := rfl
@[simp] theorem Slot.setT_loop (x : Slot) (r : TReg) (v : TileReg) : (x.setT r v).loop = x.loop := rfl
@[simp] theorem Slot.setT_pc (x : Slot) (r : TReg) (v : TileReg) : (x.setT r v).pc = x.pc := rfl
@[simp] theorem Slot.setT_ipc (x : Slot) (r : TReg) (v : TileReg) : (x.setT r v).ipc = x.ipc := rfl
@[simp] theorem Slot.setT_npc (x : Slot) (r : TReg) (v : TileReg) : (x.setT r v).npc = x.npc := rfl
@[simp] theorem Slot.setT_gwords (x : Slot) (r : TReg) (v : TileReg) : (x.setT r v).gwords = x.gwords := rfl
@[simp] theorem Slot.setT_task (x : Slot) (r : TReg) (v : TileReg) : (x.setT r v).task = x.task := rfl
@[simp] theorem Slot.setT_st (x : Slot) (r : TReg) (v : TileReg) : (x.setT r v).st = x.st := rfl
@[simp] theorem Slot.setT_hold (x : Slot) (r : TReg) (v : TileReg) : (x.setT r v).hold = x.hold := rfl
@[simp] theorem Slot.setT_accs (x : Slot) (r : TReg) (v : TileReg) : (x.setT r v).accs = x.accs := rfl
@[simp] theorem Slot.setT_mq (x : Slot) (r : TReg) (v : TileReg) : (x.setT r v).mq = x.mq := rfl
@[simp] theorem Slot.setT_cq (x : Slot) (r : TReg) (v : TileReg) : (x.setT r v).cq = x.cq := rfl
@[simp] theorem Slot.setT_queries (x : Slot) (r : TReg) (v : TileReg) : (x.setT r v).queries = x.queries := rfl
@[simp] theorem Slot.setT_phase (x : Slot) (r : TReg) (v : TileReg) : (x.setT r v).phase = x.phase := rfl
@[simp] theorem Slot.setT_canc (x : Slot) (r : TReg) (v : TileReg) : (x.setT r v).canc = x.canc := rfl
@[simp] theorem Slot.setT_restoring (x : Slot) (r : TReg) (v : TileReg) : (x.setT r v).restoring = x.restoring := rfl
@[simp] theorem Slot.setT_pendPreempt (x : Slot) (r : TReg) (v : TileReg) : (x.setT r v).pendPreempt = x.pendPreempt := rfl
@[simp] theorem Slot.setT_moveDue (x : Slot) (r : TReg) (v : TileReg) : (x.setT r v).moveDue = x.moveDue := rfl
@[simp] theorem Slot.setT_writeOut (x : Slot) (r : TReg) (v : TileReg) : (x.setT r v).writeOut = x.writeOut := rfl
@[simp] theorem Slot.setT_ran (x : Slot) (r : TReg) (v : TileReg) : (x.setT r v).ran = x.ran := rfl
@[simp] theorem Slot.setT_waited (x : Slot) (r : TReg) (v : TileReg) : (x.setT r v).waited = x.waited := rfl
@[simp] theorem Slot.setT_stall (x : Slot) (r : TReg) (v : TileReg) : (x.setT r v).stall = x.stall := rfl
@[simp] theorem Slot.setT_source (x : Slot) (r : TReg) (v : TileReg) : (x.setT r v).source = x.source := rfl
@[simp] theorem Slot.setT_due (x : Slot) (r : TReg) (v : TileReg) : (x.setT r v).due = x.due := rfl
@[simp] theorem Slot.setT_vfree (x : Slot) (r : TReg) (v : TileReg) : (x.setT r v).vfree = x.vfree := rfl

@[simp] theorem Slot.setA_s (x : Slot) (r : AReg) (v : Acc) : (x.setA r v).s = x.s := rfl
@[simp] theorem Slot.setA_h (x : Slot) (r : AReg) (v : Acc) : (x.setA r v).h = x.h := rfl
@[simp] theorem Slot.setA_q (x : Slot) (r : AReg) (v : Acc) : (x.setA r v).q = x.q := rfl
@[simp] theorem Slot.setA_v (x : Slot) (r : AReg) (v : Acc) : (x.setA r v).v = x.v := rfl
@[simp] theorem Slot.setA_k (x : Slot) (r : AReg) (v : Acc) : (x.setA r v).k = x.k := rfl
@[simp] theorem Slot.setA_t (x : Slot) (r : AReg) (v : Acc) : (x.setA r v).t = x.t := rfl
@[simp] theorem Slot.setA_ml (x : Slot) (r : AReg) (v : Acc) : (x.setA r v).ml = x.ml := rfl
@[simp] theorem Slot.setA_lc (x : Slot) (r : AReg) (v : Acc) : (x.setA r v).lc = x.lc := rfl
@[simp] theorem Slot.setA_rb (x : Slot) (r : AReg) (v : Acc) : (x.setA r v).rb = x.rb := rfl
@[simp] theorem Slot.setA_mstat (x : Slot) (r : AReg) (v : Acc) : (x.setA r v).mstat = x.mstat := rfl
@[simp] theorem Slot.setA_budg (x : Slot) (r : AReg) (v : Acc) : (x.setA r v).budg = x.budg := rfl
@[simp] theorem Slot.setA_finfo (x : Slot) (r : AReg) (v : Acc) : (x.setA r v).finfo = x.finfo := rfl
@[simp] theorem Slot.setA_ret (x : Slot) (r : AReg) (v : Acc) : (x.setA r v).ret = x.ret := rfl
@[simp] theorem Slot.setA_rss (x : Slot) (r : AReg) (v : Acc) : (x.setA r v).rss = x.rss := rfl
@[simp] theorem Slot.setA_loop (x : Slot) (r : AReg) (v : Acc) : (x.setA r v).loop = x.loop := rfl
@[simp] theorem Slot.setA_pc (x : Slot) (r : AReg) (v : Acc) : (x.setA r v).pc = x.pc := rfl
@[simp] theorem Slot.setA_ipc (x : Slot) (r : AReg) (v : Acc) : (x.setA r v).ipc = x.ipc := rfl
@[simp] theorem Slot.setA_npc (x : Slot) (r : AReg) (v : Acc) : (x.setA r v).npc = x.npc := rfl
@[simp] theorem Slot.setA_gwords (x : Slot) (r : AReg) (v : Acc) : (x.setA r v).gwords = x.gwords := rfl
@[simp] theorem Slot.setA_task (x : Slot) (r : AReg) (v : Acc) : (x.setA r v).task = x.task := rfl
@[simp] theorem Slot.setA_st (x : Slot) (r : AReg) (v : Acc) : (x.setA r v).st = x.st := rfl
@[simp] theorem Slot.setA_hold (x : Slot) (r : AReg) (v : Acc) : (x.setA r v).hold = x.hold := rfl
@[simp] theorem Slot.setA_accs (x : Slot) (r : AReg) (v : Acc) : (x.setA r v).accs = x.accs := rfl
@[simp] theorem Slot.setA_mq (x : Slot) (r : AReg) (v : Acc) : (x.setA r v).mq = x.mq := rfl
@[simp] theorem Slot.setA_cq (x : Slot) (r : AReg) (v : Acc) : (x.setA r v).cq = x.cq := rfl
@[simp] theorem Slot.setA_queries (x : Slot) (r : AReg) (v : Acc) : (x.setA r v).queries = x.queries := rfl
@[simp] theorem Slot.setA_phase (x : Slot) (r : AReg) (v : Acc) : (x.setA r v).phase = x.phase := rfl
@[simp] theorem Slot.setA_canc (x : Slot) (r : AReg) (v : Acc) : (x.setA r v).canc = x.canc := rfl
@[simp] theorem Slot.setA_restoring (x : Slot) (r : AReg) (v : Acc) : (x.setA r v).restoring = x.restoring := rfl
@[simp] theorem Slot.setA_pendPreempt (x : Slot) (r : AReg) (v : Acc) : (x.setA r v).pendPreempt = x.pendPreempt := rfl
@[simp] theorem Slot.setA_moveDue (x : Slot) (r : AReg) (v : Acc) : (x.setA r v).moveDue = x.moveDue := rfl
@[simp] theorem Slot.setA_writeOut (x : Slot) (r : AReg) (v : Acc) : (x.setA r v).writeOut = x.writeOut := rfl
@[simp] theorem Slot.setA_ran (x : Slot) (r : AReg) (v : Acc) : (x.setA r v).ran = x.ran := rfl
@[simp] theorem Slot.setA_waited (x : Slot) (r : AReg) (v : Acc) : (x.setA r v).waited = x.waited := rfl
@[simp] theorem Slot.setA_stall (x : Slot) (r : AReg) (v : Acc) : (x.setA r v).stall = x.stall := rfl
@[simp] theorem Slot.setA_source (x : Slot) (r : AReg) (v : Acc) : (x.setA r v).source = x.source := rfl
@[simp] theorem Slot.setA_due (x : Slot) (r : AReg) (v : Acc) : (x.setA r v).due = x.due := rfl
@[simp] theorem Slot.setA_vfree (x : Slot) (r : AReg) (v : Acc) : (x.setA r v).vfree = x.vfree := rfl

@[simp] theorem Slot.goTo_s (x : Slot) (v : W64) : (x.goTo v).s = x.s := rfl
@[simp] theorem Slot.goTo_h (x : Slot) (v : W64) : (x.goTo v).h = x.h := rfl
@[simp] theorem Slot.goTo_q (x : Slot) (v : W64) : (x.goTo v).q = x.q := rfl
@[simp] theorem Slot.goTo_v (x : Slot) (v : W64) : (x.goTo v).v = x.v := rfl
@[simp] theorem Slot.goTo_k (x : Slot) (v : W64) : (x.goTo v).k = x.k := rfl
@[simp] theorem Slot.goTo_t (x : Slot) (v : W64) : (x.goTo v).t = x.t := rfl
@[simp] theorem Slot.goTo_a (x : Slot) (v : W64) : (x.goTo v).a = x.a := rfl
@[simp] theorem Slot.goTo_ml (x : Slot) (v : W64) : (x.goTo v).ml = x.ml := rfl
@[simp] theorem Slot.goTo_lc (x : Slot) (v : W64) : (x.goTo v).lc = x.lc := rfl
@[simp] theorem Slot.goTo_rb (x : Slot) (v : W64) : (x.goTo v).rb = x.rb := rfl
@[simp] theorem Slot.goTo_mstat (x : Slot) (v : W64) : (x.goTo v).mstat = x.mstat := rfl
@[simp] theorem Slot.goTo_budg (x : Slot) (v : W64) : (x.goTo v).budg = x.budg := rfl
@[simp] theorem Slot.goTo_finfo (x : Slot) (v : W64) : (x.goTo v).finfo = x.finfo := rfl
@[simp] theorem Slot.goTo_ret (x : Slot) (v : W64) : (x.goTo v).ret = x.ret := rfl
@[simp] theorem Slot.goTo_rss (x : Slot) (v : W64) : (x.goTo v).rss = x.rss := rfl
@[simp] theorem Slot.goTo_ipc (x : Slot) (v : W64) : (x.goTo v).ipc = x.ipc := rfl
@[simp] theorem Slot.goTo_npc (x : Slot) (v : W64) : (x.goTo v).npc = x.npc := rfl
@[simp] theorem Slot.goTo_gwords (x : Slot) (v : W64) : (x.goTo v).gwords = x.gwords := rfl
@[simp] theorem Slot.goTo_task (x : Slot) (v : W64) : (x.goTo v).task = x.task := rfl
@[simp] theorem Slot.goTo_st (x : Slot) (v : W64) : (x.goTo v).st = x.st := rfl
@[simp] theorem Slot.goTo_hold (x : Slot) (v : W64) : (x.goTo v).hold = x.hold := rfl
@[simp] theorem Slot.goTo_accs (x : Slot) (v : W64) : (x.goTo v).accs = x.accs := rfl
@[simp] theorem Slot.goTo_mq (x : Slot) (v : W64) : (x.goTo v).mq = x.mq := rfl
@[simp] theorem Slot.goTo_cq (x : Slot) (v : W64) : (x.goTo v).cq = x.cq := rfl
@[simp] theorem Slot.goTo_queries (x : Slot) (v : W64) : (x.goTo v).queries = x.queries := rfl
@[simp] theorem Slot.goTo_phase (x : Slot) (v : W64) : (x.goTo v).phase = x.phase := rfl
@[simp] theorem Slot.goTo_canc (x : Slot) (v : W64) : (x.goTo v).canc = x.canc := rfl
@[simp] theorem Slot.goTo_restoring (x : Slot) (v : W64) : (x.goTo v).restoring = x.restoring := rfl
@[simp] theorem Slot.goTo_pendPreempt (x : Slot) (v : W64) : (x.goTo v).pendPreempt = x.pendPreempt := rfl
@[simp] theorem Slot.goTo_moveDue (x : Slot) (v : W64) : (x.goTo v).moveDue = x.moveDue := rfl
@[simp] theorem Slot.goTo_writeOut (x : Slot) (v : W64) : (x.goTo v).writeOut = x.writeOut := rfl
@[simp] theorem Slot.goTo_ran (x : Slot) (v : W64) : (x.goTo v).ran = x.ran := rfl
@[simp] theorem Slot.goTo_waited (x : Slot) (v : W64) : (x.goTo v).waited = x.waited := rfl
@[simp] theorem Slot.goTo_stall (x : Slot) (v : W64) : (x.goTo v).stall = x.stall := rfl
@[simp] theorem Slot.goTo_source (x : Slot) (v : W64) : (x.goTo v).source = x.source := rfl
@[simp] theorem Slot.goTo_due (x : Slot) (v : W64) : (x.goTo v).due = x.due := rfl
@[simp] theorem Slot.goTo_vfree (x : Slot) (v : W64) : (x.goTo v).vfree = x.vfree := rfl

end Sys2Proof.Machine
end

