-- ==== Sys2Proof/Laws/Tables.lean ====
section
/-! SUPPORT. Tables, memory in its canonical form, registers of a slot, tiles and slots: read after write. -/

set_option Elab.async false

namespace Sys2Proof.Machine

/-! ### Tables -/

@[simp] theorem tget_nil (d : α) (k : Nat) : tget d [] k = d := rfl

theorem tget_tput (d : α) (m : Tab α) (k j : Nat) (x : α) : tget d (tput m k x) j = if j = k then x else tget d m j := by
  induction m with
  | nil => by_cases h : k = j <;> simp [tput, tget, h, eq_comm]
  | cons e r ih =>
    obtain ⟨i, y⟩ := e
    simp only [tput]
    split
    · next h =>
      subst h
      by_cases h : k = j
      · subst h; simp [tget]
      · simp [tget, h, Ne.symm h]
    · split
      · by_cases h : k = j
        · subst h; simp [tget]
        · simp [tget, h, Ne.symm h]
      · next h1 h2 =>
        by_cases h : i = j
        · subst h; simp [tget, Ne.symm h1]
        · simp [tget, h, ih]

@[simp] theorem tget_tput_same (d : α) (m : Tab α) (k : Nat) (x : α) : tget d (tput m k x) k = x := by simp [tget_tput]
theorem tget_tput_ne (d : α) (m : Tab α) {k j : Nat} (x : α) (h : j ≠ k) : tget d (tput m k x) j = tget d m j := by
  simp [tget_tput, h]

/-! ### Memory -/

theorem Memory.wf_tail {c : Host.Cell} {r : List Host.Cell} (h : Memory.wf (c :: r) = true) : Memory.wf r = true := by
  cases r with
  | nil => rfl
  | cons d r => simp only [Memory.wf, Bool.and_eq_true] at h; exact h.2

theorem Memory.wf_head {c : Host.Cell} {r : List Host.Cell} (h : Memory.wf (c :: r) = true) :
    c.2 ≠ 0 ∧ ∀ e ∈ r, c.1 < e.1 := by
  induction r generalizing c with
  | nil => simp only [Memory.wf, bne_iff_ne] at h; exact ⟨h, by simp⟩
  | cons d r ih =>
    simp only [Memory.wf, Bool.and_eq_true, bne_iff_ne, decide_eq_true_eq] at h
    refine ⟨h.1.1, fun e he => ?_⟩
    rcases List.mem_cons.mp he with rfl | he
    · exact h.1.2
    · exact Nat.lt_trans h.1.2 ((ih h.2).2 e he)

theorem Memory.wf_cons {c : Host.Cell} {r : List Host.Cell} (h0 : c.2 ≠ 0) (h : ∀ e ∈ r, c.1 < e.1)
    (hr : Memory.wf r = true) : Memory.wf (c :: r) = true := by
  cases r with
  | nil => exact bne_iff_ne.mpr h0
  | cons d r =>
    simp only [Memory.wf, Bool.and_eq_true, bne_iff_ne, decide_eq_true_eq]
    exact ⟨⟨h0, h d (by simp)⟩, hr⟩

theorem memPut_mem {m : List Host.Cell} {k : Nat} {x : Byte} {e : Host.Cell} (h : e ∈ memPut m k x) :
    e ∈ m ∨ (e = (k, x) ∧ x ≠ 0) := by
  induction m with
  | nil => simp only [memPut] at h; split at h <;> simp_all
  | cons c r ih =>
    simp only [memPut] at h
    split at h
    · split at h
      · exact .inl h
      · next hx =>
        rcases List.mem_cons.mp h with rfl | h
        · exact .inr ⟨rfl, hx⟩
        · exact .inl h
    · split at h
      · split at h
        · exact .inl (List.mem_cons_of_mem _ h)
        · next hx =>
          rcases List.mem_cons.mp h with rfl | h
          · exact .inr ⟨rfl, hx⟩
          · exact .inl (List.mem_cons_of_mem _ h)
      · rcases List.mem_cons.mp h with rfl | h
        · simp
        · exact (ih h).imp_left fun h => List.mem_cons_of_mem _ h

/-- A write of a byte keeps the canonical form. -/
theorem Memory.wf_memPut {m : List Host.Cell} (hm : Memory.wf m = true) (k : Nat) (x : Byte) : Memory.wf (memPut m k x) = true := by
  induction m with
  | nil => simp only [memPut]; split <;> simp_all [Memory.wf]
  | cons c r ih =>
    obtain ⟨h0, h1⟩ := Memory.wf_head hm
    simp only [memPut]
    split
    · next hlt =>
      split
      · exact hm
      · next hx =>
        refine Memory.wf_cons hx (fun e he => ?_) hm
        rcases List.mem_cons.mp he with rfl | he
        · exact hlt
        · exact Nat.lt_trans hlt (h1 e he)
    · split
      · next hk =>
        split
        · exact Memory.wf_tail hm
        · next hx => exact Memory.wf_cons hx (fun e he => hk ▸ h1 e he) (Memory.wf_tail hm)
      · refine Memory.wf_cons h0 (fun e he => ?_) (ih (Memory.wf_tail hm))
        rcases memPut_mem he with he | ⟨rfl, _⟩
        · exact h1 e he
        · show c.1 < k; omega

theorem memGet_lt {m : List Host.Cell} {k : Nat} (h : ∀ e ∈ m, k < e.1) : memGet m k = 0 := by
  induction m with
  | nil => rfl
  | cons c r ih =>
    have := h c (by simp)
    simp only [memGet]
    rw [if_neg (by omega)]
    exact ih fun e he => h e (by simp [he])

/-- Read after write, of one byte. -/
theorem memGet_memPut {m : List Host.Cell} (hm : Memory.wf m = true) (k j : Nat) (x : Byte) :
    memGet (memPut m k x) j = if j = k then x else memGet m j := by
  induction m with
  | nil =>
    simp only [memPut]
    split
    · next h => subst h; simp [memGet]
    · by_cases h : k = j <;> simp [memGet, h, eq_comm]
  | cons c r ih =>
    obtain ⟨a, b⟩ := c
    obtain ⟨h0, h1⟩ := Memory.wf_head hm
    simp only [memPut]
    split
    · next hlt =>
      have hk : memGet ((a, b) :: r) k = 0 := memGet_lt (by
        intro e he
        rcases List.mem_cons.mp he with rfl | he
        · exact hlt
        · exact Nat.lt_trans hlt (h1 e he))
      split
      · next hx =>
        subst hx
        by_cases h : j = k
        · subst h; simp [hk]
        · simp [h]
      · by_cases h : k = j
        · subst h; simp [memGet]
        · simp [memGet, h, Ne.symm h]
    · split
      · next hk =>
        subst hk
        have hr : memGet r k = 0 := memGet_lt h1
        split
        · next hx =>
          subst hx
          by_cases h : j = k
          · subst h; simp [hr]
          · simp [memGet, h, Ne.symm h]
        · by_cases h : k = j
          · subst h; simp [memGet]
          · simp [memGet, h, Ne.symm h]
      · next hne =>
        by_cases h : a = j
        · subst h; simp [memGet, Ne.symm hne]
        · simp [memGet, h, ih (Memory.wf_tail hm)]

theorem Memory.wf_memWrite {m : List Host.Cell} (hm : Memory.wf m = true) (k n v : Nat) : Memory.wf (memWrite m k n v) = true := by
  induction n generalizing m k v with
  | zero => exact hm
  | succ n ih => exact ih (Memory.wf_memPut hm _ _) _ _

theorem Memory.wf_memPutBytes {m : List Host.Cell} (hm : Memory.wf m = true) (k : Nat) (bs : List Byte) :
    Memory.wf (memPutBytes m k bs) = true := by
  induction bs generalizing m k with
  | nil => exact hm
  | cons b r ih => exact ih (Memory.wf_memPut hm _ _) _

theorem Memory.wf_filter {m : List Host.Cell} (hm : Memory.wf m = true) (p : Host.Cell → Bool) : Memory.wf (m.filter p) = true := by
  induction m with
  | nil => rfl
  | cons c r ih =>
    obtain ⟨h0, h1⟩ := Memory.wf_head hm
    simp only [List.filter_cons]
    split
    · exact Memory.wf_cons h0 (fun e he => h1 e (List.mem_filter.mp he).1) (ih (Memory.wf_tail hm))
    · exact ih (Memory.wf_tail hm)

theorem Memory.wf_memClear {m : List Host.Cell} (hm : Memory.wf m = true) (lo hi : Nat) : Memory.wf (memClear m lo hi) = true :=
  Memory.wf_filter hm _

/-- A write of n bytes leaves every byte outside them as it was. -/
theorem memGet_memWrite_out {m : List Host.Cell} (hm : Memory.wf m = true) (k n v j : Nat) (hj : j < k ∨ k + n ≤ j) :
    memGet (memWrite m k n v) j = memGet m j := by
  induction n generalizing m k v with
  | zero => rfl
  | succ n ih =>
    rw [memWrite, ih (Memory.wf_memPut hm _ _) _ _ (by omega), memGet_memPut hm, if_neg (by omega)]

/-- A write of n bytes gives each of them its byte of the value, the least significant first. -/
theorem memGet_memWrite_in {m : List Host.Cell} (hm : Memory.wf m = true) (k n v i : Nat) (hi : i < n) :
    memGet (memWrite m k n v) (k + i) = BitVec.ofNat 8 (v / 256 ^ i) := by
  induction n generalizing m k v i with
  | zero => omega
  | succ n ih =>
    cases i with
    | zero =>
      rw [memWrite, memGet_memWrite_out (Memory.wf_memPut hm _ _) _ _ _ _ (by omega), memGet_memPut hm]
      simp
    | succ i =>
      rw [memWrite, show k + (i + 1) = k + 1 + i by omega, ih (Memory.wf_memPut hm _ _) _ _ _ (by omega), Nat.div_div_eq_div_mul,
        Nat.pow_succ, Nat.mul_comm]

/-- A read of n bytes is below 256 to the n. -/
theorem memRead_lt (m : List Host.Cell) (k n : Nat) : memRead m k n < 256 ^ n := by
  induction n generalizing k with
  | zero => simp [memRead]
  | succ n ih =>
    have h1 := (memGet m k).isLt
    have h2 := ih (k + 1)
    rw [memRead, Nat.pow_succ]
    omega

theorem memRead_congr {m m' : List Host.Cell} {k n : Nat} (h : ∀ i < n, memGet m (k + i) = memGet m' (k + i)) :
    memRead m k n = memRead m' k n := by
  induction n generalizing k with
  | zero => rfl
  | succ n ih =>
    rw [memRead, memRead, ih (fun i hi => by have := h (i + 1) (by omega); rwa [Nat.add_assoc, Nat.add_comm 1 i]),
      show memGet m k = memGet m' k from h 0 (by omega)]

/-- Read after write of the same n bytes. -/
theorem memRead_memWrite_same {m : List Host.Cell} (hm : Memory.wf m = true) (k n v : Nat) :
    memRead (memWrite m k n v) k n = v % 256 ^ n := by
  induction n generalizing m k v with
  | zero => simp [memRead, Nat.mod_one]
  | succ n ih =>
    have h := memGet_memWrite_in hm k (n + 1) v 0 (by omega)
    rw [memRead, show memGet (memWrite m k (n + 1) v) k = _ from h, memWrite, ih (Memory.wf_memPut hm _ _)]
    have e : 256 ^ (n + 1) = 256 * 256 ^ n := by rw [Nat.pow_succ, Nat.mul_comm]
    rw [e, Nat.mod_mul]
    simp [BitVec.toNat_ofNat]

theorem memRead_memWrite_out {m : List Host.Cell} (hm : Memory.wf m = true) (k n v j l : Nat) (h : j + l ≤ k ∨ k + n ≤ j) :
    memRead (memWrite m k n v) j l = memRead m j l :=
  memRead_congr fun i hi => memGet_memWrite_out hm _ _ _ _ (by omega)

/-! ### Registers of a slot -/

theorem Slot.getS_zero (x : Slot) : x.getS 0 = 0 := rfl
theorem Slot.setS_zero (x : Slot) (v : W64) : x.setS 0 v = x := rfl
theorem Slot.getS_setS (x : Slot) (r q : SReg) (v : W64) : (x.setS r v).getS q = if q = r ∧ r ≠ 0 then v else x.getS q := by
  by_cases hr : r = 0
  · subst hr; simp [Slot.setS]
  · by_cases hq : q = 0
    · subst hq; rw [if_neg fun h => hr h.1.symm]; rfl
    · simp only [Slot.setS, if_neg hr, Slot.getS, if_neg hq, tget_tput]
      by_cases h : q = r
      · subst h; rw [if_pos rfl, if_pos ⟨rfl, hr⟩]
      · rw [if_neg fun e => h (BitVec.eq_of_toNat_eq e), if_neg fun e => h e.1]

theorem Slot.getH_setH (x : Slot) (r q : HReg) (v : W256) : (x.setH r v).getH q = if q = r then v else x.getH q := by
  simp only [Slot.setH, Slot.getH, tget_tput, BitVec.toNat_inj]

theorem Slot.getK_setK (x : Slot) (r q : KReg) (v : Mask) : (x.setK r v).getK q = if q = r ∧ r ≠ 0 then v else x.getK q := by
  by_cases hr : r = 0
  · subst hr; simp [Slot.setK]
  · by_cases hq : q = 0
    · subst hq; rw [if_neg fun h => hr h.1.symm]; rfl
    · simp only [Slot.setK, if_neg hr, Slot.getK, if_neg hq, tget_tput]
      by_cases h : q = r
      · subst h; rw [if_pos rfl, if_pos ⟨rfl, hr⟩]
      · rw [if_neg fun e => h (BitVec.eq_of_toNat_eq e), if_neg fun e => h e.1]

theorem Slot.phys_inj (x : Slot) {r q : VReg} (h : x.phys r = x.phys q) : r = q := by
  apply BitVec.eq_of_toNat_eq
  have h1 := r.isLt; have h2 := q.isLt
  simp only [Slot.phys] at h
  split at h <;> split at h <;> omega

theorem Slot.getV_setV (x : Slot) (r q : VReg) (v : Lanes) : (x.setV r v).getV q = if q = r then v else x.getV q := by
  show tget [] (tput x.v (x.phys r) v) (x.phys q) = _
  rw [tget_tput]
  by_cases hq : q = r
  · subst hq; simp
  · rw [if_neg (fun e => hq (x.phys_inj e)), if_neg hq]; rfl

theorem Slot.getT_setT (x : Slot) (r q : TReg) (v : TileReg) : (x.setT r v).getT q = if q = r then v else x.getT q := by
  simp only [Slot.setT, Slot.getT, tget_tput, BitVec.toNat_inj]

theorem Slot.getA_setA (x : Slot) (r q : AReg) (v : Acc) : (x.setA r v).getA q = if q = r then v else x.getA q := by
  simp only [Slot.setA, Slot.getA, tget_tput, BitVec.toNat_inj]

theorem Slot.getQ_setQ (x : Slot) (r q : QReg) (b : Bool) : (x.setQ r b).getQ q = if q = r ∧ r ≠ 0 then b else x.getQ q := by
  by_cases hr : r = 0
  · subst hr; simp [Slot.setQ]
  · by_cases hq : q = 0
    · subst hq; rw [if_neg fun h => hr h.1.symm]; rfl
    · simp only [Slot.setQ, if_neg hr, Slot.getQ, if_neg hq]
      have h8 : q.toNat < 8 := q.isLt
      have hone : ∀ i, (1 : BitVec 8).getLsbD i = decide (i = 0) := fun i => by simp [BitVec.getLsbD_one]
      have hb : ∀ i, (if b then 1 else 0 : BitVec 8).getLsbD i = (b && decide (i = 0)) := fun i => by cases b <;> simp
      simp only [BitVec.getLsbD_or, BitVec.getLsbD_and, BitVec.getLsbD_not, BitVec.getLsbD_shiftLeft, hone, hb]
      by_cases h : q = r
      · subst h; rw [if_pos ⟨rfl, hr⟩]; simp [h8]
      · have h2 : q.toNat ≠ r.toNat := fun e => h (BitVec.eq_of_toNat_eq e)
        by_cases h3 : q.toNat < r.toNat
        · simp [h, h3, h8]
        · simp [h, h3, h8, show ¬ q.toNat - r.toNat = 0 by omega]

/-! ### Tiles and slots -/

theorem Tile.slot_putSlot (x : Tile) (b c : Nat) (y : Slot) :
    (x.putSlot b y).slot c = if (c = 0 ↔ b = 0) then y else x.slot c := by
  unfold Tile.putSlot Tile.slot
  by_cases hb : b = 0 <;> by_cases hc : c = 0 <;> simp [hb, hc]

@[simp] theorem Tile.slot_putSlot_same (x : Tile) (b : Nat) (y : Slot) : (x.putSlot b y).slot b = y := by simp [Tile.slot_putSlot]

@[simp] theorem Tile.putSlot_runB (x : Tile) (b : Nat) (y : Slot) : (x.putSlot b y).runB = x.runB := by unfold Tile.putSlot; split <;> rfl
@[simp] theorem Tile.putSlot_idle (x : Tile) (b : Nat) (y : Slot) : (x.putSlot b y).idle = x.idle := by unfold Tile.putSlot; split <;> rfl
@[simp] theorem Tile.putSlot_cells (x : Tile) (b : Nat) (y : Slot) : (x.putSlot b y).cells = x.cells := by unfold Tile.putSlot; split <;> rfl
@[simp] theorem Tile.putSlot_waiters (x : Tile) (b : Nat) (y : Slot) : (x.putSlot b y).waiters = x.waiters := by
  unfold Tile.putSlot; split <;> rfl
@[simp] theorem Tile.putSlot_cyc (x : Tile) (b : Nat) (y : Slot) : (x.putSlot b y).cyc = x.cyc := by unfold Tile.putSlot; split <;> rfl
@[simp] theorem Tile.putSlot_tslot (x : Tile) (b : Nat) (y : Slot) : (x.putSlot b y).tslot = x.tslot := by unfold Tile.putSlot; split <;> rfl
@[simp] theorem Tile.putSlot_run (x : Tile) (b : Nat) (y : Slot) : (x.putSlot b y).run = x.run := by simp [Tile.run]

theorem Tile.run_lt (x : Tile) : x.run < 2 := by unfold Tile.run; split <;> decide

theorem State.tile_putTile (s : State) (t u : Nat) (x : Tile) : (s.putTile t x).tile u = if u = t then x else s.tile u := by
  simp only [State.tile, State.putTile, tget_tput]
@[simp] theorem State.tile_putTile_same (s : State) (t : Nat) (x : Tile) : (s.putTile t x).tile t = x := by simp [State.tile_putTile]

theorem State.tile_modTile (s : State) (t u : Nat) (f : Tile → Tile) :
    (s.modTile t f).tile u = if u = t then f (s.tile t) else s.tile u := by simp only [State.modTile, State.tile_putTile]
@[simp] theorem State.tile_modTile_same (s : State) (t : Nat) (f : Tile → Tile) : (s.modTile t f).tile t = f (s.tile t) := by
  simp [State.tile_modTile]
theorem State.tile_modTile_ne (s : State) {t u : Nat} (f : Tile → Tile) (h : u ≠ t) : (s.modTile t f).tile u = s.tile u := by
  simp [State.tile_modTile, h]

theorem State.tile_modSlot (s : State) (t b u : Nat) (f : Slot → Slot) :
    (s.modSlot t b f).tile u = if u = t then (s.tile t).putSlot b (f ((s.tile t).slot b)) else s.tile u := by
  simp only [State.modSlot, State.tile_modTile]
@[simp] theorem State.tile_modSlot_same (s : State) (t b : Nat) (f : Slot → Slot) :
    (s.modSlot t b f).tile t = (s.tile t).putSlot b (f ((s.tile t).slot b)) := by simp [State.tile_modSlot]
theorem State.tile_modSlot_ne (s : State) {t u : Nat} (b : Nat) (f : Slot → Slot) (h : u ≠ t) :
    (s.modSlot t b f).tile u = s.tile u := by simp [State.tile_modSlot, h]

@[simp] theorem State.slot_modSlot_same (s : State) (t b : Nat) (f : Slot → Slot) : (s.modSlot t b f).slot t b = f (s.slot t b) := by
  simp [State.slot]
theorem State.slot_modSlot (s : State) (t b u c : Nat) (f : Slot → Slot) :
    (s.modSlot t b f).slot u c = if u = t ∧ (c = 0 ↔ b = 0) then f (s.slot t b) else s.slot u c := by
  simp only [State.slot, State.tile_modSlot]
  by_cases h : u = t
  · subst h
    simp only [if_true, true_and, Tile.slot_putSlot]
  · simp [h]

@[simp] theorem State.run_modSlot (s : State) (t b u : Nat) (f : Slot → Slot) : (s.modSlot t b f).run u = s.run u := by
  simp only [State.run, State.tile_modSlot]
  split
  · next h => subst h; simp
  · rfl
@[simp] theorem State.run_modCore (s : State) (u : Nat) (f : Slot → Slot) : (s.modCore f).run u = s.run u := by simp [State.modCore]
@[simp] theorem State.core_modCore (s : State) (f : Slot → Slot) : (s.modCore f).core = f s.core := by
  simp only [State.core, State.run_modCore, State.modCore_cur]
  simp [State.modCore, State.slot_modSlot_same]
theorem State.run_lt (s : State) (t : Nat) : s.run t < 2 := (s.tile t).run_lt

end Sys2Proof.Machine
end

