-- ==== Sys2Proof/Laws/Time.lean ====
section
/-! SUPPORT. What the evaluation of waiters and the passing of cycles leave unchanged (R74, R92), and how a core's instruction
completes (R42, R66). -/

set_option Elab.async false

namespace Sys2Proof.Machine

/-- A slot without its engine queues. -/
def Slot.noQueues (x : Slot) : Slot := { x with mq := [], cq := [] }

/-- The state after waiters of cells that `p` names were evaluated at tile t. -/
structure Calm (t : Nat) (p : Nat → Prop) (s s' : State) : Prop where
  slots : ∀ b, ((s'.slot t b).mq.map Cmd.unmarked = (s.slot t b).mq.map Cmd.unmarked) ∧
    ((s'.slot t b).cq.map Cmd.unmarked = (s.slot t b).cq.map Cmd.unmarked) ∧
    (s'.slot t b).noQueues = (s.slot t b).noQueues
  run   : (s'.tile t).runB = (s.tile t).runB
  idle  : (s'.tile t).idle = (s.tile t).idle
  tslot : (s'.tile t).tslot = (s.tile t).tslot
  cyc   : (s'.tile t).cyc = (s.tile t).cyc
  cells : ∀ c, ¬ p c → s'.cell t c = s.cell t c
  tiles : ∀ u, u ≠ t → s'.tile u = s.tile u
  rest  : s'.rest = s.rest

theorem Calm.refl {t p s} : Calm t p s s := ⟨fun _ => ⟨rfl, rfl, rfl⟩, rfl, rfl, rfl, rfl, fun _ _ => rfl, fun _ _ => rfl, rfl⟩

theorem Calm.trans {t p a b c} (h : Calm t p a b) (k : Calm t p b c) : Calm t p a c :=
  ⟨fun i => ⟨(k.slots i).1.trans (h.slots i).1, (k.slots i).2.1.trans (h.slots i).2.1, (k.slots i).2.2.trans (h.slots i).2.2⟩,
    k.run.trans h.run, k.idle.trans h.idle, k.tslot.trans h.tslot, k.cyc.trans h.cyc,
    fun i hi => (k.cells i hi).trans (h.cells i hi), fun u hu => (k.tiles u hu).trans (h.tiles u hu), k.rest.trans h.rest⟩

theorem Calm.mono {t p q s s'} (h : Calm t p s s') (hpq : ∀ c, p c → q c) : Calm t q s s' :=
  { h with cells := fun c hc => h.cells c fun hp => hc (hpq c hp) }

theorem Calm.hold {t p s s'} (h : Calm t p s s') (b : Nat) : (s'.slot t b).hold = (s.slot t b).hold := by
  have := congrArg Slot.hold (h.slots b).2.2; exact this

theorem Calm.runNo {t p s s'} (h : Calm t p s s') : s'.run t = s.run t := by simp only [State.run, Tile.run, h.run]

theorem Calm.still {t p s s'} (h : Calm t p s s') (b : Nat) : (s'.slot t b).still = (s.slot t b).still := by
  obtain ⟨h1, h2, h3⟩ := h.slots b
  have hs : ∀ x : Slot, x.still =
      { x.noQueues.still with mq := x.mq.map Cmd.unmarked, cq := x.cq.map Cmd.unmarked } := fun _ => rfl
  rw [hs, hs (s.slot t b), h1, h2, h3]

theorem markHead_unmarked (f : Cmd → Cmd) (hf : ∀ c, (f c).unmarked = c.unmarked) (q : List Cmd) :
    (markHead f q).map Cmd.unmarked = q.map Cmd.unmarked := by
  induction q with
  | nil => rfl
  | cons c r ih => simp only [markHead]; split <;> simp [ih, hf]

/-- A change of a tile that keeps its slots. -/
theorem Calm.ofTile {t p s} (f : Tile → Tile) (ha : (f (s.tile t)).a = (s.tile t).a) (hb : (f (s.tile t)).b = (s.tile t).b)
    (h1 : (f (s.tile t)).runB = (s.tile t).runB) (h2 : (f (s.tile t)).idle = (s.tile t).idle)
    (h3 : (f (s.tile t)).tslot = (s.tile t).tslot) (h4 : (f (s.tile t)).cyc = (s.tile t).cyc)
    (h5 : ∀ c, ¬ p c → tget {} (f (s.tile t)).cells c = s.cell t c) : Calm t p s (s.modTile t f) := by
  have h : ∀ b, (s.modTile t f).slot t b = s.slot t b := fun b => by
    simp only [State.slot, State.tile_modTile_same, Tile.slot, ha, hb]
  refine ⟨fun b => by rw [h b]; exact ⟨rfl, rfl, rfl⟩, ?_, ?_, ?_, ?_, ?_, fun u hu => State.tile_modTile_ne _ _ hu, rfl⟩
  · simpa using h1
  · simpa using h2
  · simpa using h3
  · simpa using h4
  · intro c hc; simpa [State.cell] using h5 c hc

/-- A change of a slot that keeps all but the marks of its queues. -/
theorem Calm.ofSlot {t p s} (b : Nat) (f : Slot → Slot)
    (h1 : (f (s.slot t b)).mq.map Cmd.unmarked = (s.slot t b).mq.map Cmd.unmarked)
    (h2 : (f (s.slot t b)).cq.map Cmd.unmarked = (s.slot t b).cq.map Cmd.unmarked)
    (h3 : (f (s.slot t b)).noQueues = (s.slot t b).noQueues) : Calm t p s (s.modSlot t b f) := by
  refine ⟨fun c => ?_, by simp, by simp, by simp, by simp, fun c _ => by simp [State.cell],
    fun u hu => State.tile_modSlot_ne _ _ _ hu, rfl⟩
  rw [State.slot_modSlot]
  by_cases hc : t = t ∧ (c = 0 ↔ b = 0)
  · rw [if_pos hc]
    have : s.slot t c = s.slot t b := by
      simp only [State.slot, Tile.slot]
      by_cases hb : b = 0
      · simp [hb, hc.2.mpr hb]
      · simp [hb, show c ≠ 0 from fun e => hb (hc.2.mp e)]
    rw [this]; exact ⟨h1, h2, h3⟩
  · rw [if_neg hc]; exact ⟨rfl, rfl, rfl⟩

theorem Calm.answer {t p s} (id : Nat) (b : Bool) : Calm t p s (s.answerRemote id b) := by
  refine ⟨fun _ => ⟨rfl, rfl, rfl⟩, rfl, rfl, rfl, rfl, fun _ _ => rfl, fun _ _ => rfl, ?_⟩
  simp only [State.rest, State.answerRemote]
  congr 1
  rw [List.map_map]
  apply List.map_congr_left
  intro m _
  simp only [Function.comp]
  split <;> rfl

theorem Calm.satisfied {t p s} (w : Waiter) (he : (s.tile t).evaluates w.who = true)
    (hh : (s.slot t (s.run t)).hold.inert = true) : Calm t p s (s.satisfied t w) := by
  unfold State.satisfied
  split
  · next b hw =>
    rw [hw] at he
    simp only [Tile.evaluates, Bool.and_eq_true, beq_iff_eq] at he
    have hb : (s.slot t b).hold.inert = true := by rw [← he.1.2]; exact hh
    refine Calm.ofSlot b _ ?_ ?_ ?_ <;> (split <;> simp_all [Hold.inert])
  · refine Calm.ofSlot _ _ (markHead_unmarked (fun c => { c with wtaken := true }) (fun _ => rfl) _) rfl rfl
  · refine Calm.ofSlot _ _ rfl (markHead_unmarked (fun c => { c with wtaken := true }) (fun _ => rfl) _) rfl
  · exact Calm.answer _ _

theorem Calm.drop {t p s} (w : Who) : Calm t p s (s.dropWaiter t w) :=
  Calm.ofTile (fun x => { x with waiters := x.waiters.filter fun y => y.who != w }) rfl rfl rfl rfl rfl rfl fun _ _ => rfl

theorem Calm.putCell {t s} (c : Nat) (x : Cell) {p : Nat → Prop} (hp : p c) : Calm t p s (s.putCell t c x) := by
  refine Calm.ofTile (fun y => { y with cells := tput y.cells c x }) rfl rfl rfl rfl rfl rfl fun d hd => ?_
  exact tget_tput_ne _ _ _ fun e => hd (e ▸ hp)

theorem Calm.evalWaiter {t s} (w : Waiter) {p : Nat → Prop} (hp : p w.cell)
    (hh : (s.slot t (s.run t)).hold.inert = true) : Calm t p s (s.evalWaiter t w) := by
  unfold State.evalWaiter
  split
  · next he =>
    split
    · next c hc =>
      have h1 : Calm t p s ((s.putCell t w.cell c).dropWaiter t w.who) := (Calm.putCell _ _ hp).trans (Calm.drop _)
      refine h1.trans (Calm.satisfied w ?_ (by rw [h1.runNo, h1.hold]; exact hh))
      cases hw : w.who with
      | remote id => rfl
      | _ b =>
        rw [hw] at he h1
        have h2 := congrArg Slot.st (h1.slots b).2.2
        have h3 := h1.runNo
        simp only [Tile.evaluates, Bool.and_eq_true, beq_iff_eq] at he ⊢
        exact ⟨⟨by rw [h1.idle]; exact he.1.1, h3.trans he.1.2⟩, h2.trans he.2⟩
    · unfold State.unsatisfied
      split
      · split
        · exact (Calm.drop _).trans (Calm.answer _ _)
        · exact Calm.refl
      · exact Calm.refl
  · exact Calm.refl

theorem Calm.fold {t s} (ws : List Waiter) {p : Nat → Prop} (hp : ∀ w ∈ ws, p w.cell)
    (hh : (s.slot t (s.run t)).hold.inert = true) : Calm t p s (ws.foldl (fun s w => s.evalWaiter t w) s) := by
  induction ws generalizing s with
  | nil => exact Calm.refl
  | cons w r ih =>
    have h1 := Calm.evalWaiter (t := t) (s := s) w (hp w (by simp)) hh
    exact h1.trans (ih (fun x hx => hp x (by simp [hx])) (by rw [h1.runNo, h1.hold]; exact hh))

theorem Calm.settleIf {t s} (q : Nat → Bool) (hh : (s.slot t (s.run t)).hold.inert = true) :
    Calm t (fun c => ∃ w ∈ (s.tile t).waiters, w.cell = c) s (s.settleIf t q) := by
  unfold State.settleIf
  have h1 := Calm.fold (t := t) (s := s) (p := fun c => ∃ w ∈ (s.tile t).waiters, w.cell = c)
    (((s.tile t).waiters.filter fun w => q w.cell).filter fun w => w.need.isTest)
    (fun w hw => ⟨w, (List.mem_filter.mp (List.mem_filter.mp hw).1).1, rfl⟩) hh
  refine h1.trans (Calm.fold _ (fun w hw => ⟨w, (List.mem_filter.mp (List.mem_filter.mp hw).1).1, rfl⟩) ?_)
  rw [h1.runNo, h1.hold]; exact hh

/-! ### Cycles -/

theorem Hold.pass_untimed (h : Hold) (hi : h.inert = true) (n : Nat) : (h.pass n).untimed = h.untimed := by
  cases h with
  | wait => simp [Hold.inert] at hi
  | remote a b l => cases l <;> rfl
  | _ => rfl

theorem Slot.runFor_still (x : Slot) (hi : x.hold.inert = true) (b : Bool) (n : Nat) : (x.runFor b n).still = x.still := by
  simp only [Slot.still, Slot.runFor, Hold.pass_untimed _ hi]

theorem Slot.restFor_still (x : Slot) (n : Nat) : (x.restFor n).still = x.still := by
  unfold Slot.restFor; split <;> rfl

theorem Hold.expired_inert {h : Hold} (hi : h.inert = true) (n : Nat) : (h.pass n).expired = false := by
  cases h with
  | wait => simp [Hold.inert] at hi
  | remote a b l => cases l <;> rfl
  | _ => rfl

theorem Slot.hold_runFor (x : Slot) (b : Bool) (n : Nat) : (x.runFor b n).hold = x.hold.pass n := rfl

theorem Tile.pass_slot (x : Tile) (st : Bool) (n b : Nat) (hb : b < 2) :
    (x.pass st n).slot b = (if !x.idle && x.run == b && (x.slot b).runs then (x.slot b).runFor st n else (x.slot b).restFor n) := by
  have : b = 0 ∨ b = 1 := by omega
  rcases this with rfl | rfl <;> rfl

theorem Tile.pass_still (x : Tile) (hi : (x.slot x.run).hold.inert = true) (st : Bool) (n b : Nat) (hb : b < 2) :
    ((x.pass st n).slot b).still = (x.slot b).still := by
  rw [Tile.pass_slot _ _ _ _ hb]
  split
  · next h =>
    simp only [Bool.and_eq_true, beq_iff_eq] at h
    exact Slot.runFor_still _ (h.1.2 ▸ hi) _ _
  · exact Slot.restFor_still _ _

/-- The passing of cycles on the current tile, whose core waits on no local cell. -/
theorem State.tick_passed (s : State) (hi : s.core.hold.inert = true) (n : Nat) : Passed s (s.tick s.cur n) n := by
  have hc := Calm.settleIf (t := s.cur) (s := s) (fun _ => true) hi
  rw [show s.settleIf s.cur (fun _ => true) = s.settle s.cur from rfl] at hc
  generalize hs' : s.settle s.cur = s' at hc
  have hi' : (s'.slot s.cur (s'.run s.cur)).hold.inert = true := by rw [hc.runNo, hc.hold]; exact hi
  have hw : s.tick s.cur n = s'.modTile s.cur fun x => x.pass (s'.stalled s.cur (s'.run s.cur)) n := by
    simp only [State.tick, hs', State.endWaits]
    rw [if_neg]
    simp only [State.run, State.slot, State.tile_modTile_same]
    rw [show ∀ st, ((s'.tile s.cur).pass st n).run = (s'.tile s.cur).run from fun _ => rfl, Tile.pass_slot _ _ _ _ (Tile.run_lt _)]
    split
    · rw [Slot.hold_runFor]; exact fun h => absurd ((Hold.expired_inert hi' n).symm.trans h) (by decide)
    · have : ((s'.tile s.cur).slot (s'.tile s.cur).run |>.restFor n).hold = ((s'.tile s.cur).slot (s'.tile s.cur).run).hold := by
        unfold Slot.restFor; split <;> rfl
      rw [this]
      have := Hold.expired_inert hi' 0
      simp only [State.slot, State.run] at this hi'
      cases hh : ((s'.tile s.cur).slot (s'.tile s.cur).run).hold with
      | wait => rw [hh] at hi'; simp [Hold.inert] at hi'
      | _ => simp [Hold.expired]
  rw [hw]
  have hcur : s'.cur = s.cur := by have := congrArg State.cur hc.rest; exact this
  have hsl : ∀ b, b < 2 → ((s'.modTile s.cur fun x => x.pass (s'.stalled s.cur (s'.run s.cur)) n).slot s.cur b).still = (s.slot s.cur b).still := by
    intro b hb
    rw [← hc.still b]
    simp only [State.slot, State.tile_modTile_same]
    exact Tile.pass_still _ hi' _ _ _ hb
  refine ⟨?_, hsl _ (by have := s.run_lt s.cur; omega), ?_, ?_, ?_, ?_, ?_, ?_, hc.rest⟩
  · simp only [State.core, State.modTile_cur, hcur]
    rw [show (s'.modTile s.cur fun x => x.pass (s'.stalled s.cur (s'.run s.cur)) n).run s.cur = s.run s.cur by
      rw [← hc.runNo]; simp only [State.run, State.tile_modTile_same]; rfl]
    exact hsl _ (s.run_lt _)
  · simp only [State.tile_modTile_same]; exact hc.run
  · simp only [State.tile_modTile_same]; exact hc.idle
  · simp only [State.tile_modTile_same]; exact hc.tslot
  · simp only [State.tile_modTile_same]; show (s'.tile s.cur).cyc + n = _; rw [hc.cyc]
  · intro c hcc
    simp only [State.cell, State.tile_modTile_same]
    exact hc.cells c fun ⟨w, hw, he⟩ => hcc w hw he
  · intro u hu; rw [State.tile_modTile_ne _ _ hu]; exact hc.tiles u hu

theorem Passed.refl_of_still {s e t : State} {n : Nat} (h : Passed e t n) (hc : s.cur = e.cur)
    (h1 : e.core.still = s.core.still) (h2 : (e.slot e.cur (1 - e.run e.cur)).still = (s.slot e.cur (1 - e.run e.cur)).still)
    (h3 : (e.tile e.cur).runB = (s.tile e.cur).runB) (h4 : (e.tile e.cur).idle = (s.tile e.cur).idle)
    (h5 : (e.tile e.cur).tslot = (s.tile e.cur).tslot) (h6 : (e.tile e.cur).cyc = (s.tile e.cur).cyc)
    (h7 : (e.tile e.cur).cells = (s.tile e.cur).cells) (h8 : (e.tile e.cur).waiters = (s.tile e.cur).waiters)
    (h9 : ∀ u, u ≠ e.cur → e.tile u = s.tile u) (h10 : e.rest = s.rest) : Passed s t n := by
  have hr : e.run e.cur = s.run e.cur := by simp only [State.run, Tile.run, h3]
  refine ⟨h.core.trans h1, ?_, ?_, ?_, ?_, ?_, ?_, ?_, h.rest.trans h10⟩
  · rw [hc, ← hr]; exact h.other.trans h2
  · rw [hc]; exact h.run.trans h3
  · rw [hc]; exact h.idle.trans h4
  · rw [hc]; exact h.tslot.trans h5
  · rw [hc, ← h6]; exact h.cyc
  · rw [hc, ← h8]; intro c hcc; rw [h.cells c hcc]; simp only [State.cell, h7]
  · rw [hc]; intro u hu; exact (h.tiles u hu).trans (h9 u hu)

/-! ### A core's instruction -/

theorem State.canIssue_hold {s : State} (h : s.canIssue = true) : s.core.hold = .none := by
  simp only [State.canIssue, Bool.and_eq_true, beq_iff_eq] at h; exact h.1.1.2

theorem State.canIssue_st {s : State} (h : s.canIssue = true) : s.core.st = .busy := by
  simp only [State.canIssue, Bool.and_eq_true, beq_iff_eq] at h; exact h.1.1.1.2

theorem State.canIssue_task {s : State} (h : s.canIssue = true) : s.core.task.isSome = true := by
  simp only [State.canIssue, Bool.and_eq_true, beq_iff_eq] at h; exact h.1.1.1.1.2

theorem State.canIssue_idle {s : State} (h : s.canIssue = true) : (s.tile s.cur).idle = false := by
  simp only [State.canIssue, Bool.and_eq_true, beq_iff_eq, Bool.not_eq_true'] at h; exact h.1.1.1.1.1

theorem Slot.endIteration_hold (x : Slot) (l : LoopSt) : (x.endIteration l).hold = x.hold := by
  unfold Slot.endIteration; dsimp only; split <;> split <;> rfl

theorem Slot.advance_hold (x : Slot) : x.advance.hold = x.hold := by
  unfold Slot.advance
  split
  · split
    · exact Slot.endIteration_hold _ _
    · rfl
  · rfl

/-- The note of an instruction's pace changes nothing that `still` shows. -/
theorem Passed.noted {e t : State} {n : Nat} (h : Passed e t n) (s : State) (i : Instr) (hc : s.cur = e.cur)
    (hr : s.run s.cur = e.run e.cur) : Passed e (t.noted s i) n := by
  unfold State.noted
  dsimp only
  split
  · exact h
  · have htc : t.cur = e.cur := by have := congrArg State.cur h.rest; exact this
    have htr : t.run e.cur = e.run e.cur := by simp only [State.run, Tile.run, h.run]
    refine ⟨?_, ?_, by simp [hc, h.run], by simp [hc, h.idle], by simp [hc, h.tslot], by simp [hc, h.cyc],
      fun c hcc => ?_, fun u hu => ?_, h.rest⟩
    · rw [hr, hc]
      simp only [State.core, State.modSlot_cur, State.run_modSlot, htc, htr, State.slot_modSlot_same]
      have := h.core
      simp only [State.core, htc, htr] at this
      exact this
    · rw [hr, hc, State.slot_modSlot, if_neg]
      · exact h.other
      · have := e.run_lt e.cur; omega
    · rw [← h.cells c hcc, hc]; simp [State.cell]
    · rw [hc, State.tile_modSlot_ne _ _ _ hu]; exact h.tiles u hu

/-- The state an effect gives: the same tile's same slot issues. -/
structure Same (s e : State) : Prop where
  cur : e.cur = s.cur
  run : e.run s.cur = s.run s.cur

theorem Same.refl {s : State} : Same s s := ⟨rfl, rfl⟩
theorem Same.modCore {s e : State} (h : Same s e) (f : Slot → Slot) : Same s (e.modCore f) :=
  ⟨h.cur, by rw [State.run_modCore]; exact h.run⟩
theorem Same.core {s e : State} (h : Same s e) : e.core = e.slot s.cur (s.run s.cur) := by
  rw [State.core, h.cur, h.run]

theorem conclude_done {s e : State} (n : Nat) (h : Same s e) (hi : e.core.hold.inert = true) :
    Ends s e (conclude s (.done e n)) n := by
  have hcur : (e.modCore Slot.advance).cur = s.cur := h.cur
  simp only [conclude]
  rw [← hcur]
  exact State.tick_passed _ (by rw [State.core_modCore, Slot.advance_hold]; exact hi) _

theorem conclude_jump {s e : State} (pc : W64) (n : Nat) (h : Same s e) (hi : e.core.hold.inert = true) :
    Goes s e (conclude s (.jump e pc n)) pc n := by
  have hcur : (e.modCore fun x => x.goTo pc).cur = s.cur := h.cur
  simp only [conclude]
  rw [← hcur]
  exact State.tick_passed _ (by rw [State.core_modCore]; exact hi) _

theorem conclude_hold {s e : State} (h : Same s e) (hi : e.core.hold.inert = true) :
    Passed e (conclude s (.hold e)) s.words := by
  simp only [conclude]
  rw [← h.cur]
  exact State.tick_passed _ hi _

theorem issuePre_issues {i : Instr} {s : State} (h : Issues i s) {pre : Slot → Option FaultName} (hp : pre s.core = none)
    (k : State → Res) : issuePre i s pre k = .next (settle i s (k s)) := by
  simp [issuePre, h.can, h.free, h.due, hp, h.limits]

theorem issue_issues {i : Instr} {s : State} (h : Issues i s) (k : State → Res) : issue i s k = .next (settle i s (k s)) :=
  issuePre_issues h rfl k

theorem issuePre_done {i : Instr} {s e : State} {k : State → Res} {n : Nat} {pre : Slot → Option FaultName} (h : Issues i s)
    (hp : pre s.core = none) (hk : k s = .done e n) (hs : Same s e) (hi : e.core.hold.inert = true) :
    ∃ t, issuePre i s pre k = .next t ∧ Ends s e t n := by
  rw [issuePre_issues h hp, hk]
  exact ⟨_, rfl, (conclude_done n hs hi).noted s i hs.cur.symm
    (by rw [State.run_modCore, State.modCore_cur, hs.cur, hs.run])⟩

theorem issue_done {i : Instr} {s e : State} {k : State → Res} {n : Nat} (h : Issues i s) (hk : k s = .done e n) (hs : Same s e)
    (hi : e.core.hold.inert = true) : ∃ t, issue i s k = .next t ∧ Ends s e t n := issuePre_done h rfl hk hs hi

/-- An instruction that only changes its core's slot. -/
theorem issue_core {i : Instr} {s : State} {k : State → Res} {n : Nat} (h : Issues i s) (f : Slot → Slot)
    (hk : k s = .done (s.modCore f) n) (hf : (f s.core).hold = s.core.hold) :
    ∃ t, issue i s k = .next t ∧ Ends s (s.modCore f) t n :=
  issue_done h hk (Same.refl.modCore f) (by rw [State.core_modCore, hf, State.canIssue_hold h.can]; rfl)

theorem issuePre_jump {i : Instr} {s e : State} {k : State → Res} {pc : W64} {n : Nat} {pre : Slot → Option FaultName}
    (h : Issues i s) (hp : pre s.core = none) (hk : k s = .jump e pc n) (hs : Same s e) (hi : e.core.hold.inert = true) :
    ∃ t, issuePre i s pre k = .next t ∧ Goes s e t pc n := by
  rw [issuePre_issues h hp, hk]
  exact ⟨_, rfl, conclude_jump pc n hs hi⟩

theorem issuePre_hold {i : Instr} {s e : State} {k : State → Res} {pre : Slot → Option FaultName} (h : Issues i s)
    (hp : pre s.core = none) (hk : k s = .hold e) (hs : Same s e) (hi : e.core.hold.inert = true) :
    ∃ t, issuePre i s pre k = .next t ∧ Passed e t s.words := by
  rw [issuePre_issues h hp, hk]
  exact ⟨_, rfl, conclude_hold hs hi⟩

theorem Slot.setFinfo_hold (x : Slot) (f : FaultInfo) : (x.setFinfo f).hold = x.hold := rfl
theorem Slot.beginStop_hold (x : Slot) (w : Stop) : (x.beginStop w).hold = x.hold := by
  unfold Slot.beginStop; split <;> rfl
theorem Slot.faults_hold (x : Slot) (f : FaultInfo) : (x.faults f).hold = x.hold := by
  unfold Slot.faults; split
  · rfl
  · rw [Slot.beginStop_hold]; rfl
theorem Slot.trap_hold (x : Slot) (n : FaultName) (a d : W64) : (x.trap n a d).hold = .none := by
  simp only [Slot.trap, Slot.takeFault, Slot.faults_hold]

theorem issuePre_trap {i : Instr} {s : State} {k : State → Res} {f : FaultName} {a d : W64} {pre : Slot → Option FaultName}
    (h : Issues i s) (hp : pre s.core = none) (hk : k s = .trap f a d) :
    ∃ t, issuePre i s pre k = .next t ∧ Passed (s.trap f a d) t s.words := by
  rw [issuePre_issues h hp, hk]
  exact ⟨_, rfl, State.tick_passed (s.trap f a d)
    (by simp only [State.trap, State.core_modCore, Slot.trap_hold]; rfl) _⟩

end Sys2Proof.Machine
end

