-- ==== Sys2Proof/Laws/Core.lean ====
section
/-! SUPPORT. How the instructions of a core end: what a meaning over `issue` gives, by the answer of its effect (R42, R66, R83). -/

set_option Elab.async false

namespace Sys2Proof.Machine

theorem State.modCore_congr (s : State) {f g : Slot → Slot} (h : f s.core = g s.core) : s.modCore f = s.modCore g := by
  simp only [State.modCore, State.modSlot, State.modTile]
  have : f ((s.tile s.cur).slot (s.run s.cur)) = g ((s.tile s.cur).slot (s.run s.cur)) := h
  rw [this]

theorem completes_core {i : Instr} {s : State} {k : State → Res} {n : Nat} {f g : Slot → Slot}
    (he : exec i s = issue i s k) (hk : k s = .done (s.modCore f) n) (hh : (f s.core).hold = s.core.hold)
    (hv : f s.core = g s.core) (h : Issues i s) : Completes i s (s.modCore g) n := by
  unfold Completes
  rw [he, ← State.modCore_congr s hv]
  exact issue_core h f hk hh

theorem reg_result {i : Instr} {s : State} {k : State → Res} {n : Nat} {sd : SReg} {v w : Slot → W64}
    (he : exec i s = issue i s k) (hk : k s = .done (s.modCore fun x => x.setS sd (v x)) n) (hv : v s.core = w s.core)
    (h : Issues i s) : Completes i s (s.modCore fun x => x.setS sd (w x)) n :=
  completes_core he hk (Slot.setS_hold _ _ _) (congrArg _ hv) h

theorem shamt_eq (b : W64) : shamt64 b = b.toNat % 64 := by
  simp [shamt64]
theorem slt_iff (a b : W64) : a.slt b = decide (a.toInt < b.toInt) := rfl
theorem ult_iff (a b : W64) : a.ult b = decide (a.toNat < b.toNat) := rfl

theorem tmod_eq (a b : W64) : BitVec.ofInt 64 (a.toInt.tmod b.toInt) = a - b * BitVec.ofInt 64 (a.toInt.tdiv b.toInt) := by
  rw [Int.tmod_def, Int.sub_eq_add_neg, BitVec.ofInt_add, BitVec.ofInt_neg, BitVec.ofInt_mul, BitVec.ofInt_toInt, BitVec.ofInt_toInt,
    BitVec.sub_eq_add_neg]
theorem umod_eq (a b : W64) : BitVec.ofNat 64 (a.toNat % b.toNat) = a - b * BitVec.ofNat 64 (a.toNat / b.toNat) := by
  have h := Nat.div_add_mod a.toNat b.toNat
  have : a = b * BitVec.ofNat 64 (a.toNat / b.toNat) + BitVec.ofNat 64 (a.toNat % b.toNat) := by
    conv => lhs; rw [show a = BitVec.ofNat 64 a.toNat from (BitVec.ofNat_toNat 64 a).symm ▸ (BitVec.setWidth_eq a).symm, ← h, BitVec.ofNat_add, BitVec.ofNat_mul]
    simp
  conv => rhs; arg 1; rw [this]
  rw [BitVec.add_comm, BitVec.add_sub_cancel]


theorem completes_of {i : Instr} {s e : State} {k : State → Res} {n : Nat} (he : exec i s = issue i s k) (h : Issues i s)
    (hk : k s = .done e n) (hs : Same s e) (hi : e.core.hold.inert = true) : Completes i s e n := by
  unfold Completes; rw [he]; exact issue_done h hk hs hi

/-- An effect that leaves every slot's hold as it was. -/
theorem Same.inert {s e : State} (hs : Same s e) {i : Instr} (h : Issues i s)
    (hh : (e.slot s.cur (s.run s.cur)).hold = s.core.hold) : e.core.hold.inert = true := by
  rw [hs.core, hh, State.canIssue_hold h.can]; rfl

theorem tput_tput (m : Tab α) (k : Nat) (x y : α) : tput (tput m k x) k y = tput m k y := by
  induction m with
  | nil => simp [tput]
  | cons e r ih =>
    obtain ⟨j, z⟩ := e
    simp only [tput]
    split
    · simp [tput]
    · split
      · simp [tput]
      · next h1 h2 => simp only [tput, h1, h2, if_false, ih]

theorem Tile.putSlot_putSlot (x : Tile) (b : Nat) (y z : Slot) : (x.putSlot b y).putSlot b z = x.putSlot b z := by
  unfold Tile.putSlot; split <;> rfl

/-- Two changes of the core's slot are one. -/
theorem State.modCore_modCore (s : State) (f g : Slot → Slot) : (s.modCore f).modCore g = s.modCore fun x => g (f x) := by
  have hr : (s.modCore f).run s.cur = s.run s.cur := State.run_modCore _ _ _
  show (s.modCore f).modSlot s.cur ((s.modCore f).run s.cur) g = _
  rw [hr]
  have ht : (s.modCore f).tile s.cur = (s.tile s.cur).putSlot (s.run s.cur) (f ((s.tile s.cur).slot (s.run s.cur))) :=
    State.tile_modTile_same _ _ _
  simp only [State.modSlot, State.modTile, ht, Tile.slot_putSlot_same, Tile.putSlot_putSlot]
  simp only [State.modCore, State.modSlot, State.modTile, State.putTile, tput_tput]

/-- An effect that changes no slot. -/
theorem completes_id {i : Instr} {s e : State} {n : Nat} (h : Completes i s (e.modCore fun x => x) n) : Completes i s e n := by
  obtain ⟨t, h1, h2⟩ := h
  refine ⟨t, h1, ?_⟩
  unfold Ends at *
  rwa [State.modCore_modCore] at h2

theorem branches_of {i : Instr} {s e : State} {k : State → Res} {pc : W64} {n : Nat} {pre : Slot → Option FaultName}
    (he : exec i s = issuePre i s pre k) (h : Issues i s) (hp : pre s.core = none) (hk : k s = .jump e pc n) (hs : Same s e)
    (hh : (e.slot s.cur (s.run s.cur)).hold = s.core.hold) : Branches i s e pc n := by
  unfold Branches; rw [he]; exact issuePre_jump h hp hk hs (hs.inert h hh)

theorem Same.slot_modCore {s e : State} (hs : Same s e) (f : Slot → Slot) : (e.modCore f).slot s.cur (s.run s.cur) = f e.core := by
  rw [← (hs.modCore f).core, State.core_modCore]

/-- A jump whose effect ends with a change of the core's slot. -/
theorem branches_core {i : Instr} {s e : State} {k : State → Res} {pc : W64} {n : Nat} {pre : Slot → Option FaultName}
    {f : Slot → Slot} (he : exec i s = issuePre i s pre k) (h : Issues i s) (hp : pre s.core = none)
    (hk : k s = .jump (e.modCore f) pc n) (hs : Same s e) (hc : e.core = s.core) (hh : (f s.core).hold = s.core.hold) :
    Branches i s (e.modCore f) pc n :=
  branches_of he h hp hk (hs.modCore f) (by rw [hs.slot_modCore, hc, hh])

theorem traps_of {i : Instr} {s : State} {k : State → Res} {f : FaultName} {a d : W64} {pre : Slot → Option FaultName}
    (he : exec i s = issuePre i s pre k) (h : Issues i s) (hp : pre s.core = none) (hk : k s = .trap f a d) : Traps i s f a d := by
  unfold Traps; rw [he]; exact issuePre_trap h hp hk

theorem traps_issue {i : Instr} {s : State} {k : State → Res} {f : FaultName} {a d : W64} (he : exec i s = issue i s k)
    (h : Issues i s) (hk : k s = .trap f a d) : Traps i s f a d := traps_of he h rfl hk

theorem waits_of {i : Instr} {s e : State} {k : State → Res} {pre : Slot → Option FaultName}
    (he : exec i s = issuePre i s pre k) (h : Issues i s) (hp : pre s.core = none) (hk : k s = .hold e) (hs : Same s e)
    (hi : e.core.hold.inert = true) : Waits i s e := by
  unfold Waits; rw [he]; exact issuePre_hold h hp hk hs hi

end Sys2Proof.Machine
end

