-- ==== Sys2Proof/Laws/Access.lean ====
section
/-! SUPPORT. What the checks and the making of an access of one element come to (R231, R259–R262). -/

set_option Elab.async false

namespace Sys2Proof.Machine

theorem spaceOf_zero {va : W64} (h : homeBits va = 0) :
    spaceOf va = if offBits va < 0x400000 then .own (offBits va) else .reserved := by simp only [spaceOf, h, if_true]

theorem windowCell_zero {va : W64} (h : homeBits va = 0) : windowCell va = none := by
  rw [windowCell, spaceOf_zero h]
  by_cases hh : offBits va < 0x400000
  · rw [if_pos hh]
  · rw [if_neg hh]

/-- The homes that the package does not have (R231). -/
theorem spaceOf_reserved {va : W64} (h : (homeBits va = 0 ∧ 0x400000 ≤ offBits va) ∨ (4 < homeBits va ∧ homeBits va < 0x10) ∨
    (0x10 < homeBits va ∧ homeBits va < 0x20) ∨ (0x20 < homeBits va ∧ homeBits va < 0x40)) : spaceOf va = .reserved := by
  rcases h with ⟨h0, h1⟩ | h
  · rw [spaceOf_zero h0, if_neg (by omega)]
  · unfold spaceOf; dsimp only
    rw [if_neg (by omega), if_neg (by omega), if_neg (by omega), if_neg (by omega), if_neg (by omega)]

theorem windowCell_reserved {va : W64} (h : spaceOf va = .reserved) : windowCell va = none := by rw [windowCell, h]

theorem tileCheck_reserved {s : State} {hd : W512} {p : PartNo} {va : W64} {n : Nat} {wr a : Bool} (h : spaceOf va = .reserved) :
    s.tileCheck hd p va n wr a = some .progAddr := by rw [State.tileCheck, h]

/-- The checks of a plain access of home 0x00. -/
theorem tileCheck_own {s : State} {hd : W512} {p : PartNo} {va : W64} {n : Nat} {wr : Bool} (h : homeBits va = 0) (hn : 0 < n)
    (hb : offBits va + n ≤ 0x400000) : s.tileCheck hd p va n wr false = if inGap hd (offBits va) n then some .progResource else none := by
  have : ¬ (0x400000 < offBits va + n) := by omega
  rw [State.tileCheck, spaceOf_zero h, if_pos (by omega)]
  simp [this]

/-- An atomic of a home or a window that has no bank unit (R265). -/
theorem tileCheck_atomic {s : State} {hd : W512} {p : PartNo} {va : W64} {n : Nat}
    (h : homeBits va = 0 ∨ homeBits va = 0x10 ∨ homeBits va = 0x20 ∨ (homeBits va ≤ 4 ∧ 0x8000000 ≤ offBits va)) :
    s.tileCheck hd p va n true true = some .progAddr := by
  unfold State.tileCheck
  by_cases h0 : homeBits va = 0
  · rw [spaceOf_zero h0]; by_cases hh : offBits va < 0x400000
    · rw [if_pos hh]; rfl
    · rw [if_neg hh]
  rcases h with h | h | h | ⟨h, h2⟩
  · exact absurd h h0
  · simp [spaceOf, h]
  · simp [spaceOf, h]
  · have : spaceOf va = dieSpace (homeBits va) (offBits va) := by unfold spaceOf; dsimp only; rw [if_neg h0, if_pos h]
    rw [this]; unfold dieSpace
    rw [if_neg (by omega)]
    by_cases ha : 0x10000000 ≤ offBits va ∧ offBits va < 0x28000000
    · rw [if_pos ha]; rfl
    · rw [if_neg ha]
      by_cases hb : 0x30000000 ≤ offBits va ∧ offBits va < 0x30300000
      · rw [if_pos hb]; rfl
      · rw [if_neg hb]
        by_cases hc : 0x40000000 ≤ offBits va ∧ offBits va < 0x41000000
        · rw [if_pos hc]; rfl
        · rw [if_neg hc]

theorem fitsBlock_of {va : W64} {n : Nat} (h : offBits va % n = 0 ∨ offBits va % 64 + n ≤ 64) : fitsBlock va n = true := by
  simp only [fitsBlock, Bool.or_eq_true, beq_iff_eq, decide_eq_true_eq]; exact h

theorem ownElem_eq (s : State) (n : Nat) (wr : Bool) (e : Elem) : s.ownElem n wr e =
    if wr then ({ e with done := true }, s.writeMem (halfKey s.cur (s.run s.cur) + offBits e.va) n e.data.toNat)
    else ({ e with data := BitVec.ofNat 256 (s.readMem (halfKey s.cur (s.run s.cur) + offBits e.va) n), done := true,
                   poisoned := s.isPoisoned (halfKey s.cur (s.run s.cur) + offBits e.va) n }, s) := rfl

theorem isOwn_iff (va : W64) : isOwn va = decide (homeBits va = 0) := rfl

/-- A load of one element from the core's own half. -/
theorem makeAccess_load {s : State} {op : AccOp} {n : Nat} {o : Ord} {va : W64} {d : W256} (hw : op.writes = false)
    (hm : s.mayAccess o va) (ho : homeBits va = 0)
    (hp : s.isPoisoned (halfKey s.cur (s.run s.cur) + offBits va) n = false) :
    ∃ e, e.data = BitVec.ofNat 256 (s.readMem (halfKey s.cur (s.run s.cur) + offBits va) n) ∧
      s.makeAccess op n o [{ lane := 0, va := va, data := d }] = .done (s.modCore fun x => x.finish op n [e]) 0 := by
  refine ⟨⟨0, va, BitVec.ofNat 256 (s.readMem (halfKey s.cur (s.run s.cur) + offBits va) n), none, true,
    s.isPoisoned (halfKey s.cur (s.run s.cur) + offBits va) n⟩, rfl, ?_⟩
  unfold State.makeAccess
  simp only [List.head?_cons, Option.map_some, Option.getD_some, hm.1, isOwn_iff, ho]
  rw [if_neg]
  · simp only [decide_true, if_true, State.ownElems, ownElem_eq, hw, List.find?_cons, hp]
    rfl
  · simp only [Bool.not_true, Bool.false_or, Bool.and_eq_true]
    intro ⟨h1, h2⟩; rw [hm.2 h1] at h2; cases h2

/-- A store of one element to the core's own half. -/
theorem makeAccess_store {s : State} {op : AccOp} {n : Nat} {o : Ord} {va : W64} {d : W256} (hw : op.writes = true)
    (hf : ∀ x es, Slot.finish x op n es = x) (hm : s.mayAccess o va) (ho : homeBits va = 0) :
    s.makeAccess op n o [{ lane := 0, va := va, data := d }] =
      .done ((s.writeMem (halfKey s.cur (s.run s.cur) + offBits va) n d.toNat).modCore fun x => x) 0 := by
  unfold State.makeAccess
  simp only [List.head?_cons, Option.map_some, Option.getD_some, hm.1, isOwn_iff, ho]
  rw [if_neg]
  · simp only [decide_true, if_true, State.ownElems, ownElem_eq, hw, if_true, List.find?_cons, hf]
    rfl
  · simp only [Bool.not_true, Bool.false_or, Bool.and_eq_true]
    intro ⟨h1, h2⟩; rw [hm.2 h1] at h2; cases h2

/-- An access of another home is handed over. -/
theorem makeAccess_far {s : State} {op : AccOp} {n : Nat} {o : Ord} {va : W64} {d : W256} (hm : s.mayAccess o va)
    (ho : homeBits va ≠ 0) : s.makeAccess op n o [{ lane := 0, va := va, data := d }] =
      .hold (s.handsOver op n o [{ lane := 0, va := va, data := d }]) := by
  unfold State.makeAccess
  simp only [List.head?_cons, Option.map_some, Option.getD_some, hm.1, isOwn_iff, ho]
  rw [if_neg]
  · rfl
  · simp only [Bool.not_true, Bool.false_or, Bool.and_eq_true]
    intro ⟨h1, h2⟩; rw [hm.2 h1] at h2; cases h2

/-- Without room, or while a release waits, an access is held at issue. -/
theorem makeAccess_held {s : State} {op : AccOp} {n : Nat} {o : Ord} {va : W64} {d : W256} (hm : ¬ s.mayAccess o va) :
    s.makeAccess op n o [{ lane := 0, va := va, data := d }] = .hold s := by
  have hc : (!s.core.accessRoom || releases o && s.releaseWaits s.cur (s.run s.cur) (windowCell va)) = true := by
    simp only [Bool.or_eq_true, Bool.not_eq_true', Bool.and_eq_true]
    apply Classical.byContradiction; intro h
    apply hm
    refine ⟨?_, fun hr => ?_⟩
    · cases h1 : s.core.accessRoom
      · exact absurd (.inl h1) h
      · rfl
    · cases h2 : s.releaseWaits s.cur (s.run s.cur) (windowCell va)
      · rfl
      · exact absurd (.inr ⟨hr, h2⟩) h
  simp only [State.makeAccess, List.head?_cons, Option.map_some, Option.getD_some, hc, if_true]

theorem State.modSlot_congr (s : State) (t b : Nat) {f g : Slot → Slot} (h : f (s.slot t b) = g (s.slot t b)) :
    s.modSlot t b f = s.modSlot t b g := by
  simp only [State.modSlot, State.modTile]
  have : f ((s.tile t).slot b) = g ((s.tile t).slot b) := h
  rw [this]

/-! ### What acceptance changes: translation units and XSTAT alone (R307–R310) -/

theorem translate_tiles {s u : State} {home : Nat} {p : PartNo} {off n : Nat} {r : Got Nat} (h : s.translate home p off n = (r, u)) :
    u.tiles = s.tiles ∧ u.mem = s.mem ∧ u.poisoned = s.poisoned := by
  unfold State.translate at h
  dsimp only at h
  split at h
  · cases h; exact ⟨rfl, rfl, rfl⟩
  · split at h
    · cases h; exact ⟨rfl, rfl, rfl⟩
    · split at h
      · cases h; exact ⟨rfl, rfl, rfl⟩
      · cases h; split <;> exact ⟨rfl, rfl, rfl⟩
      · cases h; exact ⟨rfl, rfl, rfl⟩

theorem homeAccept_tiles {s u : State} {t b : Nat} {p : PartNo} {va : W64} {n : Nat} {r : Got Loc}
    (h : s.homeAccept t b p va n = (r, u)) : u.tiles = s.tiles ∧ u.mem = s.mem ∧ u.poisoned = s.poisoned := by
  unfold State.homeAccept at h
  split at h
  all_goals try (cases h; exact ⟨rfl, rfl, rfl⟩)
  · split at h
    · next hh => have := translate_tiles hh; split at h <;> (cases h; exact this)
    · next hh => have := translate_tiles hh; cases h; exact this
    · next hh => have := translate_tiles hh; cases h; exact this
  · split at h
    · split at h <;> (cases h; exact ⟨rfl, rfl, rfl⟩)
    · cases h; exact ⟨rfl, rfl, rfl⟩
  · split at h
    · cases h; exact ⟨rfl, rfl, rfl⟩
    · split at h <;> (cases h; exact ⟨rfl, rfl, rfl⟩)
  · split at h
    · next hh => have := translate_tiles hh; split at h <;> (cases h; exact this)
    · next hh => have := translate_tiles hh; cases h; exact this
    · next hh => have := translate_tiles hh; cases h; exact this
  · split at h <;> (cases h; exact ⟨rfl, rfl, rfl⟩)

theorem slot_of_tiles {s u : State} (h : u.tiles = s.tiles) (t b : Nat) : u.slot t b = s.slot t b := by
  simp only [State.slot, State.tile, h]

/-! ### Cells at a window (R234) -/

/-- What a store to a window does to its cell. -/
theorem change_windowStore (x : Cell) (sub : Nat) (v : W32) :
    x.change (windowStore sub v) = if sub = 0 then x.cset v else if sub = 8 then x.sig v else x.arrive := by
  unfold windowStore; split
  · rfl
  · split <;> rfl

/-- Where no waiter waits on the cells named, their evaluation does nothing. -/
theorem settleIf_none {s : State} {t : Nat} {p : Nat → Bool} (h : ∀ w ∈ (s.tile t).waiters, p w.cell = false) :
    s.settleIf t p = s := by
  have : (s.tile t).waiters.filter (fun w => p w.cell) = [] := by
    rw [List.filter_eq_nil_iff]; intro w hw; rw [h w hw]; simp
  simp only [State.settleIf, this, List.filter_nil, List.foldl_nil]

/-! ### The end of an access (R261, R262) -/

/-- Access i complete without poison: its data is written, and it leaves the list. -/
theorem completeAccess_eq {x : Slot} {i : Nat} {a : Access} (hi : x.accs[i]? = some a)
    (hp : a.elems.find? Elem.poisoned = none) : x.completeAccess i = (x.finish a.op a.size a.elems).closeAccess i := by
  simp only [Slot.completeAccess, hi, Access.poisonFault, hp, Option.map_none]

/-- Access i complete with poison in its data: it is gone, and its error is consumed. -/
theorem completeAccess_poison {x : Slot} {i : Nat} {a : Access} {e : Elem} (hi : x.accs[i]? = some a)
    (hp : a.elems.find? Elem.poisoned = some e) (hs : x.stopsForGood = false) :
    x.completeAccess i = ({ x with accs := x.accs.eraseIdx i } : Slot).takeFault
      { name := .hwPoison, src := 0, addr := e.va, detail := BitVec.ofNat 64 e.lane, ip := a.ip, words := a.words, resume := x.pc } := by
  simp only [Slot.completeAccess, hi, Access.poisonFault, hp, Option.map_some, hs]; rfl

theorem closeAccess_accs (x : Slot) (i : Nat) : (x.closeAccess i).accs = x.accs.eraseIdx i := by
  unfold Slot.closeAccess
  dsimp only
  split
  · split
    · unfold Slot.release Slot.advance Slot.endIteration; dsimp only; (repeat' split) <;> rfl
    · rfl
  · rfl

theorem closeAccess_getS (x : Slot) (i : Nat) (r : SReg) : (x.closeAccess i).getS r = x.getS r := by
  unfold Slot.closeAccess
  dsimp only
  split
  · split
    · unfold Slot.release Slot.advance Slot.endIteration; dsimp only; (repeat' split) <;> rfl
    · rfl
  · rfl

/-- What an access was before it leaves the list does not matter. -/
theorem closeAccess_set (x : Slot) (i : Nat) (a : Access) :
    ({ x with accs := x.accs.set i a } : Slot).closeAccess i = x.closeAccess i := by
  unfold Slot.closeAccess
  dsimp only
  rw [List.length_set, List.eraseIdx_set_eq]

/-! ### Reads performed at once -/

/-- What a read done at once may change: translation units, status registers, words from peers, free values and the counters of
failed blocks. -/
def Reads (s u : State) : Prop :=
  ∃ U C I F P, u = { s with units := U, cfg := C, inbox := I, fresh := F, parts := P }

theorem Reads.refl (s : State) : Reads s s := ⟨_, _, _, _, _, rfl⟩
theorem Reads.trans {a b c : State} (h : Reads a b) (k : Reads b c) : Reads a c := by
  obtain ⟨U, C, I, F, P, rfl⟩ := h
  obtain ⟨U', C', I', F', P', rfl⟩ := k
  exact ⟨U', C', I', F', P', rfl⟩

theorem Reads.tile {s u : State} (h : Reads s u) (t : Nat) : u.tile t = s.tile t := by obtain ⟨U, C, I, F, P, rfl⟩ := h; rfl
theorem Reads.slot {s u : State} (h : Reads s u) (t b : Nat) : u.slot t b = s.slot t b := by obtain ⟨U, C, I, F, P, rfl⟩ := h; rfl
theorem Reads.core {s u : State} (h : Reads s u) : u.core = s.core := by obtain ⟨U, C, I, F, P, rfl⟩ := h; rfl
theorem Reads.mem {s u : State} (h : Reads s u) : u.mem = s.mem := by obtain ⟨U, C, I, F, P, rfl⟩ := h; rfl
theorem Reads.same {s u : State} (h : Reads s u) : Same s u := by obtain ⟨U, C, I, F, P, rfl⟩ := h; exact ⟨rfl, rfl⟩

theorem translate_reads {s u : State} {home : Nat} {p : PartNo} {off n : Nat} {r : Got Nat} (h : s.translate home p off n = (r, u)) :
    Reads s u := by
  unfold State.translate at h
  dsimp only at h
  split at h
  · cases h; exact ⟨_, _, _, _, _, rfl⟩
  · split at h
    · cases h; exact .refl _
    · split at h
      · cases h; exact ⟨_, _, _, _, _, rfl⟩
      · cases h; split <;> exact ⟨_, _, _, _, _, rfl⟩
      · cases h; exact .refl _

theorem homeAccept_reads {s u : State} {t b : Nat} {p : PartNo} {va : W64} {n : Nat} {r : Got Loc}
    (h : s.homeAccept t b p va n = (r, u)) : Reads s u := by
  unfold State.homeAccept at h
  split at h
  all_goals try (cases h; exact .refl _)
  · split at h
    · next hh => have := translate_reads hh; split at h <;> (cases h; exact this)
    · next hh => have := translate_reads hh; cases h; exact this
    · next hh => have := translate_reads hh; cases h; exact this
  · split at h
    · split at h <;> (cases h; exact .refl _)
    · cases h; exact .refl _
  · split at h
    · cases h; exact .refl _
    · split at h <;> (cases h; exact .refl _)
  · split at h
    · next hh => have := translate_reads hh; split at h <;> (cases h; exact this)
    · next hh => have := translate_reads hh; cases h; exact this
    · next hh => have := translate_reads hh; cases h; exact this
  · split at h <;> (cases h; exact .refl _)

theorem peerWord_reads (s : State) : Reads s s.peerWord.2 := by
  unfold State.peerWord; split <;> exact ⟨_, _, _, _, _, rfl⟩

theorem peerWords_reads (s : State) (n : Nat) : Reads s (s.peerWords n).2 := by
  induction n generalizing s with
  | zero => exact .refl _
  | succ n ih => exact (peerWord_reads s).trans (ih _)

theorem drawerRead_reads {s u : State} {p : PartNo} {off pa n : Nat} {r : Got Nat} (h : s.drawerRead p off pa n = (r, u)) : Reads s u := by
  unfold State.drawerRead at h
  split at h
  · split at h
    · cases h; exact .refl _
    · cases h; exact ⟨_, _, _, _, _, rfl⟩
  · split at h <;> (cases h; exact .refl _)

theorem readNow_reads {s u : State} {hd : W512} {t b : Nat} {p : PartNo} {va : W64} {n : Nat} {r : Got Nat}
    (h : s.readNow hd t b p va n = (r, u)) : Reads s u := by
  unfold State.readNow at h
  split at h
  · cases h; exact .refl _
  · dsimp only at h
    split at h
    · next hh => cases h; exact homeAccept_reads hh
    · next hh => cases h; exact homeAccept_reads hh
    · next hh =>
      have := homeAccept_reads hh
      split at h
      · split at h
        · cases h; exact this
        · cases h; exact this
        · exact this.trans (drawerRead_reads h)
      · split at h <;> (cases h; exact this)
    · next hh => cases h; exact homeAccept_reads hh
    · next hh =>
      cases h
      exact (homeAccept_reads hh).trans (peerWords_reads _ _)

end Sys2Proof.Machine
end

