-- ==== Sys2Proof/Laws/Cells.lean ====
section
/-! SUPPORT. What a cell becomes, by its mode (R89–R91), and how the instructions on an own cell end. -/

set_option Elab.async false

namespace Sys2Proof.Machine

theorem Cell.sig_zero (x : Cell) : x.sig 0 = .ok x := rfl

theorem Cell.sig_counter {x : Cell} {v : W32} (hm : x.mode = 0) (h : x.count.toNat + v.toNat ≤ x.ceil.toNat) :
    x.sig v = .ok { x with count := x.count + v } := by
  unfold Cell.sig
  by_cases hv : v = 0
  · subst hv; simp
  · rw [if_neg hv, hm, if_neg (by decide), if_neg (by decide), if_neg (by omega)]

theorem Cell.sig_counter_ceil {x : Cell} {v : W32} (hm : x.mode = 0) (hv : v ≠ 0) (h : x.ceil.toNat < x.count.toNat + v.toNat) :
    x.sig v = .error .progCeil := by
  unfold Cell.sig
  rw [if_neg hv, hm, if_neg (by decide), if_neg (by decide), if_pos h]

theorem Cell.sig_flags {x : Cell} {v : W32} (hm : x.mode = 1) (h : v &&& ~~~x.ceil = 0) :
    x.sig v = .ok { x with count := x.count ||| v } := by
  unfold Cell.sig
  by_cases hv : v = 0
  · subst hv; simp
  · rw [if_neg hv, if_pos hm, if_neg fun e => e h]

theorem Cell.sig_flags_ceil {x : Cell} {v : W32} (hm : x.mode = 1) (h : v &&& ~~~x.ceil ≠ 0) : x.sig v = .error .progCeil := by
  unfold Cell.sig
  have hv : v ≠ 0 := by rintro rfl; simp at h
  rw [if_neg hv, if_pos hm, if_pos h]

theorem Cell.sig_barrier {x : Cell} {v : W32} (hm : x.mode = 2) (h : x.count.toNat + v.toNat < x.a.toNat) :
    x.sig v = .ok { x with count := x.count + v } := by
  unfold Cell.sig
  by_cases hv : v = 0
  · subst hv; simp
  · rw [if_neg hv, hm, if_neg (by decide), if_pos rfl, if_neg (by omega), if_neg (by omega)]

theorem Cell.sig_barrier_full {x : Cell} {v : W32} (hm : x.mode = 2) (hv : v ≠ 0) (h : x.count.toNat + v.toNat = x.a.toNat) :
    x.sig v = .ok { x with count := 0, phase := !x.phase } := by
  unfold Cell.sig
  rw [if_neg hv, hm, if_neg (by decide), if_pos rfl, if_neg (by omega), if_pos h]

theorem Cell.sig_barrier_ceil {x : Cell} {v : W32} (hm : x.mode = 2) (hv : v ≠ 0) (h : x.a.toNat < x.count.toNat + v.toNat) :
    x.sig v = .error .progCeil := by
  unfold Cell.sig
  rw [if_neg hv, hm, if_neg (by decide), if_pos rfl, if_pos h]

theorem Cell.arrive_barrier {x : Cell} (hm : x.mode = 2) : x.arrive = x.sig 1 := by unfold Cell.arrive; rw [if_pos hm]
theorem Cell.arrive_other {x : Cell} (hm : x.mode ≠ 2) : x.arrive = .error .progCellmode := by unfold Cell.arrive; rw [if_neg hm]

theorem Cell.cset_counter {x : Cell} {v : W32} (hm : x.mode = 0) (h : v.toNat ≤ x.ceil.toNat) : x.cset v = .ok { x with count := v } := by
  unfold Cell.cset; rw [hm, if_neg (by decide), if_neg (by decide), if_neg (by omega)]
theorem Cell.cset_counter_ceil {x : Cell} {v : W32} (hm : x.mode = 0) (h : x.ceil.toNat < v.toNat) : x.cset v = .error .progCeil := by
  unfold Cell.cset; rw [hm, if_neg (by decide), if_neg (by decide), if_pos h]
theorem Cell.cset_flags {x : Cell} {v : W32} (hm : x.mode = 1) (h : v &&& ~~~x.ceil = 0) : x.cset v = .ok { x with count := v } := by
  unfold Cell.cset; rw [if_pos hm, if_neg fun e => e h]
theorem Cell.cset_flags_ceil {x : Cell} {v : W32} (hm : x.mode = 1) (h : v &&& ~~~x.ceil ≠ 0) : x.cset v = .error .progCeil := by
  unfold Cell.cset; rw [if_pos hm, if_pos h]
theorem Cell.cset_barrier {x : Cell} {v : W32} (hm : x.mode = 2) (h : v.toNat < x.a.toNat) : x.cset v = .ok { x with count := v } := by
  unfold Cell.cset; rw [hm, if_neg (by decide), if_pos rfl, if_neg (by omega)]
theorem Cell.cset_barrier_ceil {x : Cell} {v : W32} (hm : x.mode = 2) (h : x.a.toNat ≤ v.toNat) : x.cset v = .error .progCeil := by
  unfold Cell.cset; rw [hm, if_neg (by decide), if_pos rfl, if_pos h]

theorem Cell.ccfg_ok {x : Cell} {w : W64}
    (h : w.extractLsb' 62 2 ≠ (3 : BitVec 2) ∧ (w.extractLsb' 62 2 = (2 : BitVec 2) ↔ w.extractLsb' 32 30 ≠ (0 : BitVec 30))) :
    x.ccfg w = .ok { x with mode := w.extractLsb' 62 2, a := w.extractLsb' 32 30, ceil := w.extractLsb' 0 32, count := 0,
                            phase := false } := by
  simp only [Cell.ccfg]
  rw [if_neg h.1, if_neg (fun e => h.2.mp e.1 e.2), if_neg (fun e => e.1 (h.2.mpr e.2))]

theorem Cell.ccfg_bad {x : Cell} {w : W64}
    (h : ¬(w.extractLsb' 62 2 ≠ (3 : BitVec 2) ∧ (w.extractLsb' 62 2 = (2 : BitVec 2) ↔ w.extractLsb' 32 30 ≠ (0 : BitVec 30)))) :
    x.ccfg w = .error .progCellcfg := by
  simp only [Cell.ccfg]
  split
  · rfl
  · split
    · rfl
    · split
      · rfl
      · next h1 h2 h3 =>
        refine absurd ⟨h1, fun e => fun e2 => h2 ⟨e, e2⟩, fun e => ?_⟩ h
        exact Classical.byContradiction fun e2 => h3 ⟨e2, e⟩

theorem Cell.take_counter {x : Cell} {v : W32} (hm : x.mode = 0) :
    x.take v = if v.toNat ≤ x.count.toNat then some { x with count := x.count - v } else none := by
  unfold Cell.take; rw [hm, if_neg (by decide)]
theorem Cell.take_flags {x : Cell} {v : W32} (hm : x.mode = 1) :
    x.take v = if x.count &&& v = v then some { x with count := x.count &&& ~~~v } else none := by
  unfold Cell.take; rw [if_pos hm]

/-! ### Instructions on an own cell -/

theorem Same.setCell {s e : State} (h : Same s e) (n : Nat) (y : Cell) : Same s (e.putCell s.cur n y) :=
  ⟨h.cur, by rw [← h.run]; simp [State.putCell, State.run]; rfl⟩

theorem State.core_putCell (s : State) (n : Nat) (y : Cell) : (s.putCell s.cur n y).core = s.core := by
  rw [(Same.setCell Same.refl n y).core]
  simp [State.core, State.slot, State.putCell]; rfl

/-- SIG, ARRIVE, CSET, CCFG and CCLR of an own cell, where no release waits. -/
theorem changeCell_own {i : Instr} {op : CellOp} {o : Ord} {c : CellNo} {s : State} (he : exec i s = issue i s (changeCell op o (.own c)))
    (hf : releases o = true → s.releaseWaits s.cur (s.run s.cur) (some (s.cur, c.toNat)) = false) (h : Issues i s) :
    ((s.cell s.cur c.toNat).ownedBy s.core.part = true →
      (∀ y, (s.cell s.cur c.toNat).change op = .ok y → Completes i s (s.putCell s.cur c.toNat y) 0) ∧
      (∀ f, (s.cell s.cur c.toNat).change op = .error f → Traps i s f (cellAddr s.cur c.toNat) (s.cell s.cur c.toNat).detail)) ∧
    ((s.cell s.cur c.toNat).ownedBy s.core.part = false → Traps i s .isoWindow (cellAddr s.cur c.toNat) 0) := by
  have hr : (releases o && s.releaseWaits s.cur (s.run s.cur) (some (s.cur, c.toNat))) = false := by
    cases hh : releases o
    · rfl
    · rw [hf hh]; rfl
  refine ⟨fun ho => ⟨fun y hy => completes_of he h ?_ (Same.refl.setCell _ _) ?_, fun f hy => traps_issue he h ?_⟩, fun ho => traps_issue he h ?_⟩
  · simp only [changeCell, State.cellAt, hr, ho, hy]; rfl
  · rw [State.core_putCell, State.canIssue_hold h.can]; rfl
  · simp only [changeCell, State.cellAt, hr, ho, hy]; rfl
  · simp only [changeCell, State.cellAt, hr, ho]; rfl

end Sys2Proof.Machine
end

