-- ==== Sys2Proof/Laws/Decode.lean ====
section
/-! SUPPORT. The bit fields of the encodings, and what a group of one word or of a prefix and a word decodes to. -/

set_option Elab.async false

namespace Sys2Proof

/-! ### Field concatenation -/

theorem cat_toNat {w m n : Nat} (a : BitVec m) (b : BitVec n) (h : m + n ≤ w) :
    (cat w a b).toNat = a.toNat * 2 ^ n + b.toNat := by
  have ha := a.isLt
  have hb := b.isLt
  have h1 : a.toNat * 2 ^ n + b.toNat < 2 ^ (m + n) := by
    rw [Nat.pow_add]
    calc a.toNat * 2 ^ n + b.toNat < a.toNat * 2 ^ n + 2 ^ n := by omega
      _ = (a.toNat + 1) * 2 ^ n := by rw [Nat.add_mul, Nat.one_mul]
      _ ≤ 2 ^ m * 2 ^ n := Nat.mul_le_mul_right _ ha
  have h2 : 2 ^ (m + n) ≤ 2 ^ w := Nat.pow_le_pow_right (by decide) h
  simp only [cat, BitVec.toNat_ofNat]
  exact Nat.mod_eq_of_lt (by omega)

/-- A field that lies in the upper part. -/
theorem cat_hi {w m n lo len : Nat} (a : BitVec m) (b : BitVec n) (h : m + n ≤ w) (hl : n ≤ lo) :
    (cat w a b).extractLsb' lo len = a.extractLsb' (lo - n) len := by
  apply BitVec.eq_of_toNat_eq
  simp only [BitVec.extractLsb'_toNat, cat_toNat a b h, Nat.shiftRight_eq_div_pow]
  obtain ⟨d, rfl⟩ := Nat.exists_eq_add_of_le hl
  rw [Nat.pow_add, ← Nat.div_div_eq_div_mul, Nat.add_comm, Nat.add_mul_div_right _ _ (Nat.two_pow_pos n),
    Nat.div_eq_of_lt b.isLt, Nat.zero_add, Nat.add_sub_cancel_left]

/-- A field that lies in the lower part. -/
theorem cat_lo {w m n lo len : Nat} (a : BitVec m) (b : BitVec n) (h : m + n ≤ w) (hl : lo + len ≤ n) :
    (cat w a b).extractLsb' lo len = b.extractLsb' lo len := by
  apply BitVec.eq_of_toNat_eq
  simp only [BitVec.extractLsb'_toNat, cat_toNat a b h, Nat.shiftRight_eq_div_pow]
  obtain ⟨d, rfl⟩ := Nat.exists_eq_add_of_le hl
  rw [show a.toNat * 2 ^ (lo + len + d) = (a.toNat * 2 ^ d * 2 ^ len) * 2 ^ lo by
    rw [Nat.pow_add, Nat.pow_add]; ac_rfl, Nat.add_comm, Nat.add_mul_div_right _ _ (Nat.two_pow_pos lo), Nat.add_mul_mod_self_right]

/-! ### Formats: reading back what was written -/

theorem PS3.of_toBits (f : PS3) : PS3.of f.toBits = f := by simp [PS3.of, PS3.toBits, cat_hi, cat_lo]
theorem PSI.of_toBits (f : PSI) : PSI.of f.toBits = f := by simp [PSI.of, PSI.toBits, cat_hi, cat_lo]
theorem PB.of_toBits (f : PB) : PB.of f.toBits = f := by simp [PB.of, PB.toBits, cat_hi, cat_lo]
theorem PM.of_toBits (f : PM) : PM.of f.toBits = f := by simp [PM.of, PM.toBits, cat_hi, cat_lo]
theorem PV.of_toBits (f : PV) : PV.of f.toBits = f := by simp [PV.of, PV.toBits, cat_hi, cat_lo]
theorem PE.of_toBits (f : PE) : PE.of f.toBits = f := by simp [PE.of, PE.toBits, cat_hi, cat_lo]
theorem PH.of_toBits (f : PH) : PH.of f.toBits = f := by simp [PH.of, PH.toBits, cat_hi, cat_lo]
theorem PY.of_toBits (f : PY) : PY.of f.toBits = f := by simp [PY.of, PY.toBits, cat_hi, cat_lo]
theorem SIC.of_toBits (f : SIC) : SIC.of f.toBits = f := by simp [SIC.of, SIC.toBits, cat_hi, cat_lo]
theorem OMX.of_toBits (f : OMX) : OMX.of f.toBits = f := by simp [OMX.of, OMX.toBits, cat_hi, cat_lo]
theorem OET.of_toBits (f : OET) : OET.of f.toBits = f := by simp [OET.of, OET.toBits, cat_hi, cat_lo]
theorem OED.of_toBits (f : OED) : OED.of f.toBits = f := by simp [OED.of, OED.toBits, cat_hi, cat_lo]
theorem OEC.of_toBits (f : OEC) : OEC.of f.toBits = f := by simp [OEC.of, OEC.toBits, cat_hi, cat_lo]
theorem OES.of_toBits (f : OES) : OES.of f.toBits = f := by simp [OES.of, OES.toBits, cat_hi, cat_lo]
theorem OEW.of_toBits (f : OEW) : OEW.of f.toBits = f := by simp [OEW.of, OEW.toBits, cat_hi, cat_lo]
theorem PfE.of_toBits (f : PfE) : PfE.of f.toBits = f := by simp [PfE.of, PfE.toBits, cat_hi, cat_lo]

theorem wUnit_mkWord (u o g p) : wUnit (mkWord u o g p) = u := by simp [wUnit, mkWord, cat_hi]
theorem wOp_mkWord (u o g p) : wOp (mkWord u o g p) = o := by simp [wOp, mkWord, cat_hi, cat_lo]
theorem wGuard_mkWord (u o g p) : wGuard (mkWord u o g p) = g := by simp [wGuard, mkWord, cat_hi, cat_lo]
theorem wPay_mkWord (u o g p) : wPay (mkWord u o g p) = p := by simp [wPay, mkWord, cat_lo]

/-! ### Codes: reading back what was written -/

theorem Ty.ofCode_code (c : Ty) : Ty.ofCode c.code = some c := by cases c <;> rfl
theorem Rnd.ofCode_code (c : Rnd) : Rnd.ofCode c.code = some c := by cases c <;> rfl
theorem Cond.ofCode_code (c : Cond) : Cond.ofCode c.code = some c := by cases c <;> rfl
theorem Test.ofCode_code (c : Test) : Test.ofCode c.code = some c := by cases c <;> rfl
theorem Ord.ofCode_code (c : Ord) : Ord.ofCode c.code = some c := by cases c <;> rfl
theorem Size.ofCode_code (c : Size) : Size.ofCode c.code = some c := by cases c <;> rfl
theorem Scope.ofCode_code (c : Scope) : Scope.ofCode c.code = some c := by cases c <;> rfl
theorem LaneTy.ofCode_code (c : LaneTy) : LaneTy.ofCode c.code = some c := by cases c <;> rfl
theorem RedOp.ofCode_code (c : RedOp) : RedOp.ofCode c.code = some c := by cases c <;> rfl
theorem RedaOp.ofCode_code (c : RedaOp) : RedaOp.ofCode c.code = some c := by cases c <;> rfl

/-! ### Words and groups -/

theorem chk_eq {b : Bool} {i : Instr} (hb : b = true) (hw : i.wf = true) : chk b i = some i := by
  rw [chk, hb, hw]; rfl

theorem decodeWord_mkWord {u o g p} (hg : g ≠ 8) : decodeWord (mkWord u o g p) = decodeUnit p o.toNat u.toNat := by
  rw [decodeWord, wGuard_mkWord, wPay_mkWord, wOp_mkWord, wUnit_mkWord, if_neg hg]

theorem isPfx_mkWord {u o g p} (hu : u ≠ 15) : isPfx (mkWord u o g p) = false := by
  rw [isPfx, wUnit_mkWord, beq_false_of_ne hu]; rfl

theorem isPfx_pfxWord {o p} (ho : o.toNat ≤ 2) : isPfx (pfxWord o p) = true := by
  rw [isPfx, pfxWord, wUnit_mkWord, wOp_mkWord, decide_eq_true ho]; rfl

/-- A group of one word. -/
theorem decode_one {w : W64} {i : Instr} (hp : isPfx w = false) (hd : decodeWord w = some i) :
    decode [w] = .ok ⟨wGuard w, i, [w]⟩ := by
  simp only [decode, groupWords, hp]
  simp [decodeGroup, hp, groupPfx, hd, Pfx.apply]

/-- A group of one prefix and a word. -/
theorem decode_two {p w : W64} {a : Pfx} {i j : Instr} (hp : isPfx p = true) (hw : isPfx w = false)
    (ha : decodePfx p = some a) (hd : decodeWord w = some i) (hj : a.apply i = some j) :
    decode [p, w] = .ok ⟨wGuard w, j, [p, w]⟩ := by
  have h : a.join {} = some a := by cases a; simp [Pfx.join]
  simp only [decode, groupWords, hp, hw]
  simp [decodeGroup, hw, groupPfx, ha, hd, h, hj]

theorem decodePfx_imm (q : W32) : decodePfx (immWord q) = some { imm := some q } := by
  simp [decodePfx, immWord, pfxWord, wGuard_mkWord, wPay_mkWord, wOp_mkWord, cat_hi, cat_lo]

theorem decodePfx_eng (f : PfE) (hz : f.z = 0) :
    decodePfx (pfxWord 1 f.toBits) = some { eng := some (f.hold == 1, f.wa, f.sa) } := by
  simp [decodePfx, pfxWord, wGuard_mkWord, wPay_mkWord, wOp_mkWord, PfE.of_toBits, hz]

theorem decodePfx_epi (n : BitVec 3) : decodePfx (pfxWord 2 (cat 48 0#45 n)) = some { epi := some n } := by
  simp [decodePfx, pfxWord, wGuard_mkWord, wPay_mkWord, wOp_mkWord, cat_hi, cat_lo]

/-! ### Units -/

theorem decodeUnit_0 (p op) : decodeUnit p op 0 = decodeU0 (PS3.of p) op := rfl
theorem decodeUnit_1 (p op) : decodeUnit p op 1 = decodeU1 (PSI.of p) op := rfl
theorem decodeUnit_2 (p op) : decodeUnit p op 2 = decodeU2 (PS3.of p) (PSI.of p) (PB.of p) p op := rfl
theorem decodeUnit_3 (p op) : decodeUnit p op 3 = decodeU3 (PM.of p) op := rfl
theorem decodeUnit_4 (p op) : decodeUnit p op 4 = decodeU4 (PSI.of p) (PS3.of p) p op := rfl
theorem decodeUnit_5 (p op) : decodeUnit p op 5 = decodeU5 (PH.of p) op := rfl
theorem decodeUnit_6 (p op) : decodeUnit p op 6 = decodeU6 (PV.of p) op := rfl
theorem decodeUnit_7 (p op) : decodeUnit p op 7 = decodeU7 (PV.of p) op := rfl
theorem decodeUnit_8 (p op) : decodeUnit p op 8 = decodeU8 (PV.of p) op := rfl
theorem decodeUnit_9 (p op) : decodeUnit p op 9 = decodeU9 (PE.of p) (OET.of (PE.of p).ops) (OED.of (PE.of p).ops) op := rfl
theorem decodeUnit_10 (p op) : decodeUnit p op 10 = decodeU10 (PE.of p) (OEC.of (PE.of p).ops)
    ((PE.of p).zeroOk && (OEC.of (PE.of p).ops).z == 0) ((OEC.of (PE.of p).ops).lk == 1) op := rfl
theorem decodeUnit_11 (p op) : decodeUnit p op 11 = decodeU11 (PE.of p) (OES.of (PE.of p).ops)
    ((PE.of p).zeroOk && (OES.of (PE.of p).ops).z == 0) ((OES.of (PE.of p).ops).vr == 0 && (OES.of (PE.of p).ops).row == 0) op := rfl
theorem decodeUnit_12 (p op) : decodeUnit p op 12 = decodeU12 (PV.of p) (PS3.of p) (PE.of p) (OEW.of (PE.of p).ops)
    ((PE.of p).zeroOk && (OEW.of (PE.of p).ops).z == 0) op := rfl
theorem decodeUnit_13 (p op) : decodeUnit p op 13 = decodeU13 (PY.of p) ((PY.of p).sd == 0 && (PY.of p).sa == 0 && (PY.of p).cr == 0)
    ((PY.of p).low.extractLsb' 18 6) p op := rfl

/-! ### The round trip of one instruction -/

/-- Whatever words the encoder gives a well-formed instruction under a guard, they decode to it. -/
def RoundTrip (i : Instr) : Prop :=
  i.wf = true → ∀ (g : BitVec 4) (w : W64), g ≠ 8 → encodeWord g i = some w → decode (encode g i) = .ok ⟨g, i, encode g i⟩

theorem RoundTrip.event {i : Instr} (h : ∀ g, encodeWord g i = none) : RoundTrip i := by
  intro _ g w _ he; rw [h] at he; exact absurd he (by simp)

/-- An instruction that never takes a prefix. -/
theorem RoundTrip.plain {i : Instr} (u : BitVec 4) (o : BitVec 8) (p : BitVec 48) (un on : Nat) (hu : u ≠ 15)
    (hun : u.toNat = un) (hon : o.toNat = on)
    (he : ∀ g, encodeWord g i = some (mkWord u o g p)) (hx : encodePfx i = [])
    (hd : i.wf = true → decodeUnit p on un = some i) : RoundTrip i := by
  subst hun; subst hon
  intro hw g w hg _
  have h : encode g i = [mkWord u o g p] := by rw [encode, he, hx]; rfl
  rw [h, decode_one (isPfx_mkWord hu) (by rw [decodeWord_mkWord hg, hd hw]), wGuard_mkWord]

/-- An instruction whose operand may take a prefix: `i0` is what its word alone decodes to. -/
theorem RoundTrip.prefixed {i i0 : Instr} (u : BitVec 4) (o : BitVec 8) (p : BitVec 48) (un on : Nat) (hu : u ≠ 15)
    (hun : u.toNat = un) (hon : o.toNat = on)
    (he : ∀ g, encodeWord g i = some (mkWord u o g p))
    (hd : i.wf = true → decodeUnit p on un = some i0)
    (hx : i.wf = true → (encodePfx i = [] ∧ i0 = i) ∨
      ∃ q a, encodePfx i = [q] ∧ isPfx q = true ∧ decodePfx q = some a ∧ a.apply i0 = some i) : RoundTrip i := by
  subst hun; subst hon
  intro hw g w hg _
  have h : encode g i = encodePfx i ++ [mkWord u o g p] := by rw [encode, he]
  have h0 := isPfx_mkWord (u := u) (o := o) (g := g) (p := p) hu
  have h1 : decodeWord (mkWord u o g p) = some i0 := by rw [decodeWord_mkWord hg, hd hw]
  rcases hx hw with ⟨hn, rfl⟩ | ⟨q, a, hn, hq, ha, hj⟩
  · rw [h, hn, List.nil_append, decode_one h0 h1, wGuard_mkWord]
  · rw [h, hn, List.singleton_append, decode_two hq h0 ha h1 hj, wGuard_mkWord]

/-! ### Operands that may take a prefix (R44, R45) -/

/-- A value cut in two and joined again. -/
theorem cat_split {w : Nat} (n m : Nat) (h : m + n = w) (x : BitVec w) :
    cat w (x.extractLsb' n m) (x.extractLsb' 0 n) = x := by
  apply BitVec.eq_of_toNat_eq
  rw [cat_toNat _ _ (by omega)]
  simp only [BitVec.extractLsb'_toNat, Nat.shiftRight_eq_div_pow, Nat.pow_zero, Nat.div_one]
  have hx : x.toNat / 2 ^ n < 2 ^ m := by
    rw [Nat.div_lt_iff_lt_mul (Nat.two_pow_pos n), ← Nat.pow_add, h]; exact x.isLt
  rw [Nat.mod_eq_of_lt hx, Nat.mul_comm]
  exact Nat.div_add_mod _ _

theorem extract_whole {n : Nat} (x : BitVec n) : x.extractLsb' 0 n = x := by simp

theorem extract_beyond (x : BitVec 6) : x.extractLsb' 6 24 = 0 := by revert x; decide

theorem extract_signExtend {n w : Nat} (h : n ≤ w) (x : BitVec n) : (x.signExtend w).extractLsb' 0 n = x := by
  apply BitVec.eq_of_getLsbD_eq
  intro i hi
  rw [BitVec.getLsbD_extractLsb', BitVec.getLsbD_signExtend]
  simp [hi, Nat.lt_of_lt_of_le hi h]

theorem extract_extract {w : Nat} (x : BitVec w) (a b n : Nat) (h : b + n ≤ a) :
    (x.extractLsb' 0 a).extractLsb' b n = x.extractLsb' b n := by
  apply BitVec.eq_of_getLsbD_eq
  intro i hi
  simp [hi]; intro; omega

/-- The low 14 bits of a value, or zero where a prefix carries it. -/
def val14 (v : W32) : W32 := (if v.toNat < 2 ^ 14 then v.extractLsb' 0 14 else 0 : BitVec 14).zeroExtend 32

theorem needFull_cases (x : W64) : (needFull x = [] ∧ (x.extractLsb' 0 36).signExtend 64 = x) ∨
    ∃ q, needFull x = [immWord q] ∧ immFull q ((x.extractLsb' 0 36).signExtend 64) = some x := by
  by_cases h : (x.extractLsb' 0 36).signExtend 64 = x
  · exact .inl ⟨by rw [needFull, if_pos h], h⟩
  · refine .inr ⟨_, by rw [needFull, if_neg h], ?_⟩
    rw [immFull, cat_hi _ _ (by decide) (by decide), if_pos (by rfl), cat_lo _ _ (by decide) (by decide),
      extract_signExtend (by decide)]
    have h : ((x.extractLsb' 36 28).extractLsb' 0 28) = x.extractLsb' 36 28 := by simp
    rw [h, cat_split 36 28 rfl]

theorem needDisp_cases (x : W64) : (needDisp x = [] ∧ (x.extractLsb' 0 32).signExtend 64 = x) ∨
    ∃ q, needDisp x = [immWord q] ∧ immDisp q ((x.extractLsb' 0 32).signExtend 64) = x := by
  by_cases h : (x.extractLsb' 0 32).signExtend 64 = x
  · exact .inl ⟨by rw [needDisp, if_pos h], h⟩
  · refine .inr ⟨_, by rw [needDisp, if_neg h], ?_⟩
    rw [immDisp, extract_signExtend (by decide), cat_split 32 32 rfl]

theorem needAtomic_cases (x : W64) (hx : atomicDisp x = true) :
    (needAtomic x = [] ∧ (x.extractLsb' 0 31).signExtend 64 = x) ∨
    ∃ q, needAtomic x = [immWord q] ∧ immAtomic q ((x.extractLsb' 0 31).signExtend 64) = x := by
  by_cases h : (x.extractLsb' 0 31).signExtend 64 = x
  · exact .inl ⟨by rw [needAtomic, if_pos h], h⟩
  · refine .inr ⟨_, by rw [needAtomic, if_neg h], ?_⟩
    have h1 : x.extractLsb' 31 32 = (x.extractLsb' 0 63).extractLsb' 31 32 := (extract_extract x 63 31 32 (by decide)).symm
    have h2 : x.extractLsb' 0 31 = (x.extractLsb' 0 63).extractLsb' 0 31 := (extract_extract x 63 0 31 (by decide)).symm
    rw [immAtomic, extract_signExtend (by decide), h1, h2, cat_split 31 32 rfl]
    exact (eq_of_beq hx).symm

theorem atomicDisp_low (x : BitVec 31) : atomicDisp (x.signExtend 64) = true := by
  rw [atomicDisp, beq_iff_eq]
  apply BitVec.eq_of_getLsbD_eq
  intro i hi
  by_cases h : i < 31
  · simp [BitVec.getElem_signExtend, h, show i < 63 by omega, hi]
  · by_cases h' : i < 63
    · simp [BitVec.getElem_signExtend, h, h', hi]
    · simp [BitVec.getElem_signExtend, h, h', hi, BitVec.msb_eq_getLsbD_last]

theorem needVal_cases (v : W32) : (needVal v = [] ∧ val14 v = v) ∨
    (needVal v = [immWord v] ∧ immVal v (val14 v) = some v) := by
  by_cases h : v.toNat < 2 ^ 14
  · refine .inl ⟨by rw [needVal, if_pos h], ?_⟩
    rw [val14, if_pos h]
    apply BitVec.eq_of_toNat_eq
    simp only [BitVec.truncate_eq_setWidth, BitVec.toNat_setWidth, BitVec.extractLsb'_toNat, Nat.shiftRight_zero]
    omega
  · exact .inr ⟨by rw [needVal, if_neg h], by rw [val14, if_neg h, immVal, if_pos (by rfl)]⟩

theorem valueOk_val14 {t : Test} {v : W32} (h : t.valueOk v = true) : t.valueOk (val14 v) = true := by
  rcases needVal_cases v with ⟨_, h1⟩ | ⟨h0, _⟩
  · rw [h1]; exact h
  · have h2 : ¬ v.toNat < 2 ^ 14 := by
      intro h3; rw [needVal, if_pos h3] at h0; exact absurd h0 (by simp)
    rw [val14, if_neg h2]; cases t <;> rfl

/-- The cell operand that SI-C's fields give back. -/
theorem SIC_of_cellBits (r : CellRef) (t : Test) (o : Ord) (v : W32) (hr : r.wf = true) :
    let c := SIC.of (cellBits r t o v)
    c.ref = r ∧ c.refOk = true ∧ c.test = t.code ∧ c.ord = o.code ∧ c.val = (if v.toNat < 2 ^ 14 then v.extractLsb' 0 14 else 0) := by
  cases r with
  | own c => simp only [cellBits, SIC.of_toBits]; simp [SIC.ref, SIC.refOk]
  | remote sb =>
    have h : sb ≠ 0 := by simpa [CellRef.wf] using hr
    simp only [cellBits, SIC.of_toBits]
    simpa [SIC.ref, SIC.refOk] using h

theorem decodeCell_cellBits {f : PSI} {ok : PSI → SIC → Bool} {mk : SIC → Ord → CellRef → W32 → Option Instr}
    {r : CellRef} {t : Test} {o : Ord} {v : W32} (hf : f.imm = cellBits r t o v) (hr : r.wf = true)
    (hok : ok f (SIC.of f.imm) = true) : decodeCell f ok mk = mk (SIC.of f.imm) o r (val14 v) := by
  obtain ⟨h1, h2, _, h4, h5⟩ := SIC_of_cellBits r t o v hr
  simp only [decodeCell]
  rw [hok, hf, h1, h2, h4, Ord.ofCode_code, h5]
  rfl

/-- The engine fields that a word alone gives: amounts of one, no hold. -/
def eng0 (e : Eng) : Eng :=
  { wait := e.wait.map fun c => (c.1, 1), sig := e.sig.map fun c => (c.1, 1), hold := false }

theorem PE_of_engBits (e : Eng) (ops : BitVec 24) : (PE.of (engBits e ops)).eng = eng0 e ∧
    (PE.of (engBits e ops)).zeroOk = true ∧ (PE.of (engBits e ops)).ops = ops := by
  rw [engBits, PE.of_toBits]
  obtain ⟨w, s, h⟩ := e
  cases w <;> cases s <;> exact ⟨rfl, rfl, rfl⟩

theorem ofBool_beq_one (b : Bool) : (BitVec.ofBool b == 1) = b := by cases b <;> rfl

theorem ofBool_beq_one_lit (b : Bool) : (BitVec.ofBool b == 1#1) = b := by cases b <;> rfl

theorem wf_noHold {x : Bool} {e : Eng} (h : (x && e.noHold) = true) : (x && (eng0 e).noHold) = true := by
  rw [show (eng0 e).noHold = true from rfl, Bool.and_true]; exact (Bool.and_eq_true _ _ ▸ h).1

theorem CtlReg.ofCode_code (c : CtlReg) : CtlReg.ofCode c.code (c.low.extractLsb' 18 6) = some c := by
  cases c with
  | finfo n => revert n; decide
  | linklat l => revert l; decide
  | tcfg t => revert t; decide
  | _ => rfl

theorem CtlReg.ofCode_wfW (c : CtlReg) (h : c.wfW = true) : CtlReg.ofCode c.code 0 = some c := by
  cases c with
  | finfo n => revert n; decide
  | linklat l => revert h; revert l; decide
  | tcfg t => revert t; decide
  | _ => rfl

theorem eng0_noHold (e : Eng) : (eng0 e).noHold = true := rfl

theorem needEng_cases (e : Eng) : (needEng e = [] ∧ eng0 e = e) ∨
    ∃ h wa sa, needEng e = [pfxWord 1 (PfE.toBits ⟨BitVec.ofBool h, 0, wa, sa⟩)] ∧
      (eng0 e).withAmounts h wa sa = some e := by
  obtain ⟨w, s, h⟩ := e
  by_cases hc : h = false ∧ (w.isNone ∨ (w.map (·.2)).getD 0 = 1) ∧ (s.isNone ∨ (s.map (·.2)).getD 0 = 1)
  · refine .inl ⟨by simp only [needEng]; rw [if_pos hc], ?_⟩
    obtain ⟨h1, h2, h3⟩ := hc
    cases w <;> cases s <;> simp_all [eng0, Prod.ext_iff]
  · refine .inr ⟨h, _, _, by simp only [needEng]; rw [if_neg hc], ?_⟩
    cases w <;> cases s <;> simp [eng0, Eng.withAmounts]

theorem apply_eng (h : Bool) (wa sa : BitVec 20) (i : Instr) :
    Pfx.apply { eng := some (h, wa, sa) } i = i.withEng h wa sa := rfl
theorem apply_imm (q : W32) (i : Instr) : Pfx.apply { imm := some q } i = i.withImm q := rfl
theorem apply_epi (n : BitVec 3) (i : Instr) : Pfx.apply { epi := some n } i = i.withEpi n := rfl

/-- A command of an engine: `i0` has the fields of the word alone. -/
theorem RoundTrip.engine {i i0 : Instr} {e : Eng} (u : BitVec 4) (o : BitVec 8) (ops : BitVec 24) (un on : Nat) (hu : u ≠ 15)
    (hun : u.toNat = un) (hon : o.toNat = on)
    (he : ∀ g, encodeWord g i = some (mkWord u o g (engBits e ops))) (hx : encodePfx i = needEng e)
    (h0 : i0.eng? = some (eng0 e)) (h1 : i0.setEng e = i) (h2 : i0 = i.setEng (eng0 e)) (h3 : i.setEng e = i)
    (hd : i.wf = true → decodeUnit (engBits e ops) on un = some i0) : RoundTrip i := by
  refine RoundTrip.prefixed u o _ un on hu hun hon he hd fun hw => ?_
  rcases needEng_cases e with ⟨hn, h⟩ | ⟨h, wa, sa, hn, ha⟩
  · exact .inl ⟨by rw [hx, hn], by rw [h2, h, h3]⟩
  · refine .inr ⟨_, _, by rw [hx, hn], isPfx_pfxWord (by decide), decodePfx_eng _ rfl, ?_⟩
    rw [show ((BitVec.ofBool h == 1) : Bool) = h by cases h <;> rfl, apply_eng, Instr.withEng, h0]
    simp [ha, h1, hw]

end Sys2Proof
end

