-- ==== Sys2Proof/Laws/Engines.lean ====
section
/-! SUPPORT. What the work on one slot leaves of every other slot (R17, R95, R359), and what the engines' queues keep of their slot. -/

set_option Elab.async false

namespace Sys2Proof.Machine

/-- The same tile issues, the same slots run, and every slot but slot b of tile t is as it was. -/
structure Aside (t b : Nat) (s e : State) : Prop where
  cur  : e.cur = s.cur
  run  : ∀ u, e.run u = s.run u
  slot : ∀ u c, ¬(u = t ∧ (c = 0 ↔ b = 0)) → e.slot u c = s.slot u c

theorem Aside.refl {t b s} : Aside t b s s := ⟨rfl, fun _ => rfl, fun _ _ _ => rfl⟩
theorem Aside.trans {t b x y z} (h : Aside t b x y) (k : Aside t b y z) : Aside t b x z :=
  ⟨k.cur.trans h.cur, fun u => (k.run u).trans (h.run u), fun u c hc => (k.slot u c hc).trans (h.slot u c hc)⟩
theorem Aside.of_tiles {t b : Nat} {s e : State} (h : e.tiles = s.tiles) (hc : e.cur = s.cur) : Aside t b s e :=
  ⟨hc, fun u => by simp only [State.run, State.tile, h], fun u c _ => by simp only [State.slot, State.tile, h]⟩
theorem Aside.modSlot {t b s} (f : Slot → Slot) : Aside t b s (s.modSlot t b f) :=
  ⟨rfl, fun _ => State.run_modSlot _ _ _ _ _, fun u c hc => by rw [State.slot_modSlot, if_neg hc]⟩
theorem Aside.modTile {t b s} (f : Tile → Tile) (h1 : (f (s.tile t)).runB = (s.tile t).runB)
    (h2 : (f (s.tile t)).a = (s.tile t).a) (h3 : (f (s.tile t)).b = (s.tile t).b) : Aside t b s (s.modTile t f) := by
  refine ⟨rfl, fun u => ?_, fun u c _ => ?_⟩
  · simp only [State.run, Tile.run, State.tile_modTile]; split
    · next h => subst h; rw [h1]
    · rfl
  · simp only [State.slot, State.tile_modTile]
    by_cases h : u = t
    · subst h; rw [if_pos rfl]; simp only [Tile.slot, h2, h3]
    · rw [if_neg h]
theorem Aside.addWaiter {t b s} (w : Waiter) : Aside t b s (s.addWaiter t w) := .modTile _ rfl rfl rfl
theorem Aside.dropWaiter {t b s} (w : Who) : Aside t b s (s.dropWaiter t w) := .modTile _ rfl rfl rfl
theorem Aside.putCell {t b s} (n : Nat) (x : Cell) : Aside t b s (s.putCell t n x) := .modTile _ rfl rfl rfl

theorem Aside.same {t b : Nat} {s e : State} (h : Aside t b s e) : Same s e := ⟨h.cur, h.run _⟩

/-- An effect on another slot than the one that issues. -/
theorem Aside.core {t b : Nat} {s e : State} (h : Aside t b s e) (hn : ¬(t = s.cur ∧ (b = 0 ↔ s.run s.cur = 0))) :
    e.core = s.core := by
  rw [h.same.core]
  exact h.slot _ _ fun hc => hn ⟨hc.1.symm, hc.2.symm⟩

theorem Aside.arm {t b s} (m : Bool) : Aside t b s (s.arm t b m) := by
  unfold State.arm
  split
  · exact .refl
  · split
    · exact .refl
    · split
      · exact .modSlot _
      · split
        · unfold State.engineFault; exact .modSlot _
        · exact .addWaiter _

theorem Aside.resumeEngines {t b s} : Aside t b s (s.resumeEngines t b) := by
  unfold State.resumeEngines
  dsimp only
  split
  · exact .modSlot _
  · exact (Aside.arm _).trans (Aside.arm _)

theorem Aside.retire {t b s} : Aside t b s (s.retire t b) :=
  (((Aside.dropWaiter _).trans (Aside.dropWaiter _)).trans (Aside.dropWaiter _)).trans (Aside.modSlot _)

theorem Aside.resumeHeld {t b s} : Aside t b s (s.resumeHeld t b) :=
  ((Aside.modSlot _).trans Aside.resumeEngines).trans (.of_tiles rfl rfl)

/-- An instruction whose effect does not touch the core that issues it. -/
theorem completes_aside {t b : Nat} {i : Instr} {s e : State} {k : State → Res} (he : exec i s = issue i s k) (h : Issues i s)
    (hk : k s = .done e 0) (ha : Aside t b s e) (hn : ¬(t = s.cur ∧ (b = 0 ↔ s.run s.cur = 0))) : Completes i s e 0 :=
  completes_of he h hk ha.same (by rw [ha.core hn, State.canIssue_hold h.can]; rfl)

/-- One that leaves every tile as it was. -/
theorem completes_tiles {i : Instr} {s e : State} {k : State → Res} (he : exec i s = issue i s k) (h : Issues i s)
    (hk : k s = .done e 0) (ht : e.tiles = s.tiles) (hc : e.cur = s.cur) : Completes i s e 0 :=
  completes_of he h hk ⟨hc, by simp only [State.run, State.tile, ht]⟩
    (by
      have : e.core = s.core := by simp only [State.core, hc, slot_of_tiles ht, State.run, State.tile, ht]
      rw [this, State.canIssue_hold h.can]; rfl)

/-! ### Holds are kept -/

theorem Slot.modCmd_hold (x : Slot) (m : Bool) (n : Nat) (f : Cmd → Cmd) : (x.modCmd m n f).hold = x.hold := by
  unfold Slot.modCmd Slot.putQueue; split <;> rfl

theorem State.arm_hold (s : State) (t b : Nat) (m : Bool) : ((s.arm t b m).slot t b).hold = (s.slot t b).hold := by
  unfold State.arm
  split
  · rfl
  · split
    · rfl
    · split
      · rw [State.modCmd, State.slot_modSlot_same, Slot.modCmd_hold]
      · split
        · rw [State.engineFault, State.slot_modSlot_same, Slot.faults_hold, Slot.modCmd_hold]
        · simp only [State.slot, State.addWaiter, State.tile_modTile_same]; rfl

end Sys2Proof.Machine
end

