-- ==== Sys2Proof/Laws/Safe.lean ====
section
/-! SUPPORT. What each shared operation does to memory: the operations that store nothing leave it as it was (`X_mem`), those
that store keep its canonical form (`X_safe`, `State.Safe` being that form), and so does an answer or a try that carries a
state (`Res.Safe`, `Try.Safe`). The cipher, hash and line-count functions are not evaluated anywhere here. -/

set_option Elab.async false

namespace Sys2Proof.Machine

/-- The state of an answer is safe. -/
def Res.Safe : Res → Prop
  | .done s _ => s.Safe
  | .jump s _ _ => s.Safe
  | .hold s => s.Safe
  | .trap _ _ _ => True

/-- The states that a try leaves are safe. -/
def Try.Safe : Try → Prop
  | .ok s => s.Safe
  | .fault _ _ s => s.Safe
  | .wait s => s.Safe

theorem mem_foldl {f : State → α → State} (hf : ∀ s x, (f s x).mem = s.mem) (l : List α) (s : State) :
    (l.foldl f s).mem = s.mem := by
  induction l generalizing s with
  | nil => rfl
  | cons a l ih => rw [List.foldl_cons, ih, hf]
theorem safe_foldl {f : State → α → State} (hf : ∀ s x, s.Safe → (f s x).Safe) (l : List α) {s : State} (h : s.Safe) :
    (l.foldl f s).Safe := by
  induction l generalizing s with
  | nil => exact h
  | cons a l ih => exact ih (hf _ _ h)

theorem State.Safe.of_mem {s u : State} (h : s.Safe) (hm : u.mem = s.mem) :
    u.Safe := by unfold State.Safe at *; rw [hm]; exact h

theorem pair_mem {g : State → Nat → Bool × State} (hg : ∀ s i, (g s i).2.mem = s.mem) (l : List Nat) (b : Bool) (s : State) :
    (l.foldl (fun r i => let (ok, s) := g r.2 i; (r.1 && ok, s)) (b, s)).2.mem = s.mem := by
  induction l generalizing b s with
  | nil => rfl
  | cons a l ih => rw [List.foldl_cons, ih, hg]
theorem pair_safe {g : State → Nat → Bool × State} (hg : ∀ s i, s.Safe → (g s i).2.Safe) (l : List Nat) (b : Bool) {s : State} (h : s.Safe) :
    (l.foldl (fun r i => let (ok, s) := g r.2 i; (r.1 && ok, s)) (b, s)).2.Safe := by
  induction l generalizing b s with
  | nil => exact h
  | cons a l ih => exact ih _ (hg _ _ h)

theorem State.abandonHold_mem (s : State) (t : Nat) (b : Nat) : (State.abandonHold s t b).mem = s.mem := by
  first | rfl | (unfold State.abandonHold; grind [State.modSlot_mem, State.dropWaiter_mem])
theorem State.closeWeight_mem (s : State) (die : Nat) (c : WCmd) (result : BitVec 3) :
    (State.closeWeight s die c result).mem = s.mem := by
  first | rfl | (unfold State.closeWeight; grind [State.modRegion_mem, State.modDie_mem])
theorem State.pushRecord_mem (s : State) (f : FRec) : (State.pushRecord s f).mem = s.mem := by
  first | rfl | (unfold State.pushRecord; grind [State.modPart_mem])
theorem State.infoRecord_mem (s : State) (p : PartNo) (d : Nat) (t : Nat) (slotB : Bool) (wid : W64) (f : FaultInfo) :
    (State.infoRecord s p d t slotB wid f).mem = s.mem := by
  first | rfl | (unfold State.infoRecord; grind [State.pushRecord_mem])
theorem State.weightRecord_mem (s : State) (die : Nat) (c : WCmd) (f : FaultInfo) :
    (State.weightRecord s die c f).mem = s.mem := by
  first | rfl | (unfold State.weightRecord; grind [State.infoRecord_mem])
theorem State.abortWeight_mem (s : State) (die : Nat) (c : WCmd) (f : FaultName) (va : W64) (lines : Nat) :
    (State.abortWeight s die c f va lines).mem = s.mem := by
  first | rfl | (unfold State.abortWeight; grind [State.closeWeight_mem, State.weightRecord_mem])
theorem State.orReg_mem (s : State) (r : CfgReg) (v : W64) : (State.orReg s r v).mem = s.mem := by
  first | rfl | (unfold State.orReg; grind [State.putReg_mem])
theorem State.translate_mem (s : State) (home : Nat) (p : PartNo) (off : Nat) (n : Nat) :
    (State.translate s home p off n).2.mem = s.mem := by
  exact (translate_tiles (r := (s.translate home p off n).1) (u := (s.translate home p off n).2) rfl).2.1
theorem State.homeAccept_mem (s : State) (t : Nat) (b : Nat) (p : PartNo) (va : W64) (n : Nat) :
    (State.homeAccept s t b p va n).2.mem = s.mem := by
  first | rfl | (unfold State.homeAccept; grind [State.translate_mem])
theorem State.acceptElems_mem (s : State) (t : Nat) (b : Nat) (p : PartNo) (n : Nat) (x5 : List Elem) :
    (State.acceptElems s t b p n x5).2.2.2.mem = s.mem := by
  induction x5 generalizing s <;> simp only [State.acceptElems] <;> grind [State.homeAccept_mem]
theorem State.dropOp_mem (s : State) (d : Nat) (id : Nat) : (State.dropOp s d id).mem = s.mem := by
  first | rfl | (unfold State.dropOp; grind [State.modDie_mem])
theorem State.modOp_mem (s : State) (d : Nat) (id : Nat) (f : SwOp → SwOp) : (State.modOp s d id f).mem = s.mem := by
  first | rfl | (unfold State.modOp; grind [State.modDie_mem])
theorem State.raiseOp_mem (s : State) (d : Nat) (o : SwOp) (f : FaultInfo) : (State.raiseOp s d o f).mem = s.mem := by
  first | rfl | (unfold State.raiseOp; grind [State.modOp_mem, State.modSlot_mem, State.dropOp_mem, State.infoRecord_mem])
theorem State.finishOp_mem (s : State) (d : Nat) (o : SwOp) : (State.finishOp s d o).mem = s.mem := by
  first | rfl | (unfold State.finishOp; grind [State.dropOp_mem, State.raiseOp_mem, State.modOp_mem, State.putCell_mem])
theorem State.openCtx_mem (s : State) (d : Nat) (n : Nat) (c : SwCtx) : (State.openCtx s d n c).mem = s.mem := by
  first | rfl | (unfold State.openCtx; grind [State.modDie_mem])
theorem State.acceptOp_mem (s : State) (d : Nat) (t : Nat) (b : Nat) (o : SwOp) :
    (State.acceptOp s d t b o).mem = s.mem := by
  first | rfl | (unfold State.acceptOp; grind [State.modDie_mem, State.finishOp_mem, State.modSlot_mem, State.openCtx_mem])
theorem State.modCmd_mem (s : State) (t : Nat) (b : Nat) (m : Bool) (n : Nat) (f : Cmd → Cmd) :
    (State.modCmd s t b m n f).mem = s.mem := by
  first | rfl | (unfold State.modCmd; grind [State.modSlot_mem])
theorem State.engineFault_mem (s : State) (t : Nat) (b : Nat) (m : Bool) (c : Cmd) (n : FaultName) (addr : W64) (detail : W64) :
    (State.engineFault s t b m c n addr detail).mem = s.mem := by
  first | rfl | (unfold State.engineFault; grind [State.modSlot_mem])
theorem State.arm_mem (s : State) (t : Nat) (b : Nat) (m : Bool) : (State.arm s t b m).mem = s.mem := by
  first | rfl | (unfold State.arm; grind [State.modCmd_mem, State.engineFault_mem, State.addWaiter_mem])
theorem State.popCmd_mem (s : State) (t : Nat) (b : Nat) (m : Bool) (n : Nat) : (State.popCmd s t b m n).mem = s.mem := by
  first | rfl | (unfold State.popCmd; grind [State.arm_mem, State.modSlot_mem])
theorem State.finishCmd_mem (s : State) (t : Nat) (b : Nat) (m : Bool) (c : Cmd) :
    (State.finishCmd s t b m c).mem = s.mem := by
  first | rfl | (unfold State.finishCmd; grind [State.popCmd_mem, State.modCmd_mem, State.engineFault_mem,
    State.putCell_mem])
theorem State.accumulate_mem (s : State) (t : Nat) (b : Nat) (c : Cmd) (acc : AReg) (z : Bool) (w : Work) :
    (State.accumulate s t b c acc z w).mem = s.mem := by
  first | rfl | (unfold State.accumulate; grind [State.modSlot_mem, State.modCmd_mem, State.engineFault_mem,
    State.finishCmd_mem])
theorem State.ackElems_mem (s : State) (r : LinkReq) : (State.ackElems s r).mem = s.mem := by
  first | rfl | (unfold State.ackElems; grind [State.modSlot_mem])
theorem State.enqueue_mem (s : State) (d : Nat) (p : PartNo) (r : W512) (head : Bool) :
    (State.enqueue s d p r head).mem = s.mem := by
  first | rfl | (unfold State.enqueue; grind [State.modRing_mem])
theorem State.admitContext_mem (s : State) (a : Arrival) (head : Bool) : (State.admitContext s a head).mem = s.mem := by
  first | rfl | (unfold State.admitContext; grind [State.enqueue_mem])
theorem lqBit_mem (s : State) (d : Nat) (p : PartNo) (l : Nat) (v : W64) : (lqBit s d p l v).mem = s.mem := by
  first | rfl | (unfold lqBit; grind [State.orReg_mem])
theorem State.quarantine_mem (s : State) (d : Nat) (p : PartNo) (l : Nat) (raw : W512) (first : W64) (f : FaultName) :
    (State.quarantine s d p l raw first f).mem = s.mem := by
  first | rfl | (unfold State.quarantine; grind [State.pushRecord_mem, lqBit_mem])
theorem State.admitJoin_mem (s : State) (a : Arrival) : (State.admitJoin s a).mem = s.mem := by
  first | rfl | (unfold State.admitJoin; grind [State.quarantine_mem, State.enqueue_mem])
theorem State.admitNew_mem (s : State) (d : Nat) (p : PartNo) (r : W512) : (State.admitNew s d p r).2.mem = s.mem := by
  first | rfl | (unfold State.admitNew; grind [State.quarantine_mem, State.enqueue_mem])
theorem State.status_mem (s : State) (t : Nat) (b : Nat) (sd : SReg) (v : Nat) : (State.status s t b sd v).mem = s.mem := by
  first | rfl | (unfold State.status; grind [State.modSlot_mem])
theorem State.admitSpread_mem (s : State) (d : Nat) (p : PartNo) (r : W512) : (State.admitSpread s d p r).2.mem = s.mem := by
  have := fun s : State => fun l => mem_foldl (f := fun (s : State) (x : Nat × Nat × Nat) => s.enqueue x.1 p (shareRecord r x.2.1 x.2.2) false) (fun _ _ => rfl) l s
  unfold State.admitSpread; grind [State.quarantine_mem]
theorem State.landed_mem (s : State) (v : Via) : (State.landed s v).mem = s.mem := by
  first | rfl | (unfold State.landed; grind [State.modSlot_mem])
theorem State.land_mem (s : State) (a : Arrival) : (State.land s a).mem = s.mem := by
  first | rfl | (unfold State.land; grind [State.landed_mem, State.quarantine_mem, State.modRing_mem, lqBit_mem,
    State.enqueue_mem])
theorem State.admitRecord_mem (s : State) (a : Arrival) : (State.admitRecord s a).mem = s.mem := by
  first | rfl | (unfold State.admitRecord; grind [State.admitContext_mem, State.admitJoin_mem, State.admitNew_mem,
    State.status_mem, State.admitSpread_mem, State.land_mem])
theorem State.resumeEngines_mem (s : State) (t : Nat) (b : Nat) : (State.resumeEngines s t b).mem = s.mem := by
  first | rfl | (unfold State.resumeEngines; grind [State.modSlot_mem, State.arm_mem])
theorem State.switchTo_mem (s : State) (t : Nat) (b : Nat) : (State.switchTo s t b).mem = s.mem := by
  first | rfl | (unfold State.switchTo; grind [State.modTile_mem, State.resumeEngines_mem, State.modSlot_mem])
theorem State.yieldTile_mem (s : State) (t : Nat) : (State.yieldTile s t).mem = s.mem := by
  first | rfl | (unfold State.yieldTile; grind [State.switchTo_mem, State.modTile_mem])
theorem State.afterStop_mem (s : State) (t : Nat) (b : Nat) (w : Stop) : (State.afterStop s t b w).mem = s.mem := by
  first | rfl | (unfold State.afterStop; grind [State.modSlot_mem, State.abandonHold_mem, State.pushRecord_mem,
    State.yieldTile_mem])
theorem State.resumeOps_mem (s : State) (d : Nat) (num : Nat) : (State.resumeOps s d num).mem = s.mem := by
  first | rfl | (unfold State.resumeOps; grind [State.modDie_mem])
theorem State.resumeHeld_mem (s : State) (t : Nat) (b : Nat) : (State.resumeHeld s t b).mem = s.mem := by
  first | rfl | (unfold State.resumeHeld; grind [State.modSlot_mem, State.resumeOps_mem, State.resumeEngines_mem])
theorem State.dropWaiters_mem (s : State) (t : Nat) (b : Nat) : (State.dropWaiters s t b).mem = s.mem := by
  first | rfl | (unfold State.dropWaiters; grind [State.dropWaiter_mem])
theorem State.retire_mem (s : State) (t : Nat) (b : Nat) : (State.retire s t b).mem = s.mem := by
  first | rfl | (unfold State.retire; grind [State.modSlot_mem, State.dropWaiters_mem])
theorem State.restartTask_mem (s : State) (p : PartNo) (d : Nat) (r : W512) (addr : W64) :
    (State.restartTask s p d r addr).mem = s.mem := by
  first | rfl | (unfold State.restartTask; grind [])
theorem State.resumeSaved_mem (s : State) (t : Nat) (k : Saved) : (State.resumeSaved s t k).mem = s.mem := by
  first | rfl | (unfold State.resumeSaved; grind [State.resumeOps_mem])
theorem State.dropSaved_mem (s : State) (addr : W64) : (State.dropSaved s addr).mem = s.mem := by
  first | rfl | (unfold State.dropSaved; grind [])
theorem State.answerContext_mem (s : State) (a : Answer) (f : FRec) : (State.answerContext s a f).mem = s.mem := by
  first | rfl | (unfold State.answerContext; grind [State.resumeHeld_mem, State.retire_mem, State.restartTask_mem,
    State.resumeSaved_mem, State.dropSaved_mem])
theorem State.freeEntry_mem (s : State) (p : PartNo) (addr : W64) : (State.freeEntry s p addr).mem = s.mem := by
  first | rfl | (unfold State.freeEntry; grind [State.modPart_mem])
theorem State.answer_mem (s : State) (p : PartNo) (addr : W64) (a : Answer) {u : State} (hu : State.answer s p addr a = some u) :
    u.mem = s.mem := by
  unfold State.answer at hu
  cases h : s.answerable p addr with
  | none => rw [h] at hu; cases hu
  | some e => rw [h] at hu; cases hu; rw [State.answerContext_mem, State.freeEntry_mem]
theorem State.assignSlot_mem (s : State) (t : Nat) (b : Nat) (p : PartNo) (v : Bool) :
    (State.assignSlot s t b p v).mem = s.mem := by
  first | rfl | (unfold State.assignSlot; grind [State.modSlot_mem, State.modTile_mem])
theorem State.countDauth_mem (s : State) (p : PartNo) : (State.countDauth s p).mem = s.mem := by
  first | rfl | (unfold State.countDauth; grind [State.modPart_mem])
theorem State.drawerRead_mem (s : State) (p : PartNo) (off : Nat) (pa : Nat) (n : Nat) :
    (State.drawerRead s p off pa n).2.mem = s.mem := by
  first | rfl | (unfold State.drawerRead; grind [State.countDauth_mem])
theorem State.blockData_mem (s : State) (r : LinkReq) (tagOk : Bool) : (State.blockData s r tagOk).2.mem = s.mem := by
  first | rfl | (unfold State.blockData; grind [State.countDauth_mem, State.drawerRead_mem])
theorem State.boundary_mem (s : State) (link : Nat) : (State.boundary s link).mem = s.mem := by
  first | rfl | (unfold State.boundary; grind [State.modLink_mem, State.putReg_mem])
theorem State.putCells_mem (s : State) (t : Nat) (p : PartNo) (cs : List Cell) : (State.putCells s t p cs).mem = s.mem := by
  exact mem_foldl (fun _ _ => by dsimp only; split <;> rfl) _ _
theorem State.cancelPhase_mem (s : State) (t : Nat) (b : Nat) (f : FaultInfo) (pc : W64) (y : Snapshot) :
    (State.cancelPhase s t b f pc y).mem = s.mem := by
  first | rfl | (unfold State.cancelPhase; grind [State.dropWaiters_mem, State.pushRecord_mem, State.putCells_mem,
    State.modSlot_mem, State.resumeEngines_mem])
theorem State.cancelRemotes_mem (s : State) (t : Nat) (b : Nat) : (State.cancelRemotes s t b).mem = s.mem := by
  first | rfl | (unfold State.cancelRemotes; grind [])
theorem State.cancelWait_mem (s : State) (t : Nat) (b : Nat) : (State.cancelWait s t b).mem = s.mem := by
  first | rfl | (unfold State.cancelWait; grind [])
theorem State.freeWord_mem (s : State) : (State.freeWord s).2.mem = s.mem := by
  first | rfl | (unfold State.freeWord; grind [])
theorem State.peerWord_mem (s : State) : (State.peerWord s).2.mem = s.mem := by
  first | rfl | (unfold State.peerWord; grind [State.freeWord_mem])
theorem State.peerWords_mem (s : State) (x1 : Nat) : (State.peerWords s x1).2.mem = s.mem := by
  induction x1 generalizing s <;> simp only [State.peerWords] <;> grind [State.peerWord_mem]
theorem State.readNow_mem (s : State) (h : W512) (t : Nat) (b : Nat) (p : PartNo) (va : W64) (n : Nat) :
    (State.readNow s h t b p va n).2.mem = s.mem := by
  first | rfl | (unfold State.readNow; grind [State.homeAccept_mem, State.drawerRead_mem, State.peerWords_mem])
theorem State.fetchWord_mem (s : State) (t : Nat) (b : Nat) (va : W64) : (State.fetchWord s t b va).2.mem = s.mem := by
  first | rfl | (unfold State.fetchWord; grind [State.readNow_mem])
theorem State.captureWords_mem (s : State) (va : W64) (x2 : Nat) : (State.captureWords s va x2).2.1.mem = s.mem := by
  induction x2 generalizing s va <;> simp only [State.captureWords] <;> grind [State.fetchWord_mem]
theorem State.clearBits_mem (s : State) (r : CfgReg) (mask : W64) (v : W64) : (State.clearBits s r mask v).mem = s.mem := by
  first | rfl | (unfold State.clearBits; grind [State.putReg_mem])
theorem State.clearDie_mem (s : State) (d : Nat) (p : PartNo) : (State.clearDie s d p).mem = s.mem := by
  have := fun s : State => fun l => mem_foldl (f := fun (s : State) c => s.closeWeight d c 7) (fun _ _ => rfl) l s
  unfold State.clearDie; grind [State.modDie_mem]
theorem State.clearHalf_safe (s : State) (t : Nat) (b : Nat) (h : W512) (hs : s.Safe) : (State.clearHalf s t b h).Safe := by
  exact Memory.wf_memClear (Memory.wf_memClear hs _ _) _ _
theorem State.clearRings_mem (s : State) (d : Nat) (p : PartNo) : (State.clearRings s d p).mem = s.mem := by
  unfold State.clearRings; refine mem_foldl ?_ _ _; intros; rfl
theorem State.clearPartition_mem (s : State) (p : PartNo) : (State.clearPartition s p).mem = s.mem := by
  have := fun s : State => fun l => mem_foldl (f := fun (s : State) d => (s.clearDie d p).clearRings d p) (fun _ _ => by rw [State.clearRings_mem, State.clearDie_mem]) l s
  unfold State.clearPartition; dsimp only; rw [State.putReg_mem, State.modPart_mem, this]
theorem State.raiseCounter_mem (s : State) (kind : Nat) (v : Byte) : (State.raiseCounter s kind v).mem = s.mem := by
  first | rfl | (unfold State.raiseCounter; grind [])
theorem State.completeCounters_mem (s : State) : (State.completeCounters s).mem = s.mem := by
  unfold State.completeCounters; refine mem_foldl ?_ _ _; intros; rfl
theorem State.continuationKey_mem (s : State) (t : Nat) (b : Nat) (p : PartNo) (a : W64) :
    (State.continuationKey s t b p a).2.mem = s.mem := by
  first | rfl | (unfold State.continuationKey; grind [State.homeAccept_mem])
theorem State.writeMem_safe (s : State) (k : Nat) (n : Nat) (v : Nat) (hs : s.Safe) : (State.writeMem s k n v).Safe := by
  exact Memory.wf_memWrite hs _ _ _
theorem State.joinZeroed_mem (s : State) (p : PartNo) (k : Nat) : (State.joinZeroed s p k).mem = s.mem := by
  first | rfl | (unfold State.joinZeroed; grind [State.quarantine_mem])
theorem State.decrementJoin_safe (s : State) (p : PartNo) (wid : W64) (k : Nat) (addr : W64) (hs : s.Safe) :
    (State.decrementJoin s p wid k addr).Safe := by
  unfold State.decrementJoin at *; grind [State.infoRecord_mem, State.writeMem_safe, State.joinZeroed_mem, State.Safe,
    Res.Safe, Try.Safe]
theorem State.writeBytes_safe (s : State) (k : Nat) (bs : Bytes) (hs : s.Safe) : (State.writeBytes s k bs).Safe := by
  exact Memory.wf_memPutBytes hs _ _
theorem State.sealBlock_safe (s : State) (n : Nat) (p : PartNo) (off : Nat) (pa : Nat) (pt : Bytes) (hs : s.Safe) :
    (State.sealBlock s n p off pa pt).Safe := by
  unfold State.sealBlock at *; grind [State.writeBytes_safe, State.Safe, Res.Safe, Try.Safe]
theorem State.drawerWrite_safe (s : State) (p : PartNo) (off : Nat) (pa : Nat) (n : Nat) (v : Nat) (whole : Bool) (hs : s.Safe) :
    (State.drawerWrite s p off pa n v whole).2.Safe := by
  unfold State.drawerWrite at *; grind [State.sealBlock_safe, State.countDauth_mem, State.writeMem_safe, State.Safe,
    Res.Safe, Try.Safe]
theorem State.writeNow_safe (s : State) (h : W512) (t : Nat) (b : Nat) (p : PartNo) (va : W64) (n : Nat) (v : Nat) (whole : Bool) (hs : s.Safe) :
    (State.writeNow s h t b p va n v whole).2.Safe := by
  unfold State.writeNow at *; grind [State.homeAccept_mem, State.drawerWrite_safe, State.writeMem_safe,
    State.putCell_mem, State.Safe, Res.Safe, Try.Safe]
theorem State.destElem_safe (s : State) (t : Nat) (b : Nat) (c : Cmd) (va : W64) (v : Nat) (hs : s.Safe) :
    (State.destElem s t b c va v).2.Safe := by
  unfold State.destElem at *; grind [State.writeMem_safe, State.writeNow_safe, State.Safe, Res.Safe, Try.Safe]
theorem State.storeHalf_safe (s : State) (t : Nat) (b : Nat) (l : List (Nat × Nat × Nat)) (hs : s.Safe) :
    (State.storeHalf s t b l).Safe := by
  exact safe_foldl (fun _ _ h => State.writeMem_safe _ _ _ _ h) _ hs
theorem State.drainTo_safe (s : State) (t : Nat) (b : Nat) (c : Cmd) (a : Acc) (ty : Ty) (rnd : Rnd) (dst : DrainTo) (hs : s.Safe) :
    (State.drainTo s t b c a ty rnd dst).Safe := by
  unfold State.drainTo at *; grind [State.modSlot_mem, State.storeHalf_safe, State.Safe, Res.Safe, Try.Safe]
theorem State.drain_safe (s : State) (t : Nat) (b : Nat) (c : Cmd) (acc : AReg) (ty : Ty) (rnd : Rnd) (dst : DrainTo) (hs : s.Safe) :
    (State.drain s t b c acc ty rnd dst).Safe := by
  unfold State.drain at *; grind [State.modSlot_mem, State.finishCmd_mem, State.drainTo_safe, State.engineFault_mem,
    State.Safe, Res.Safe, Try.Safe]
theorem State.undoEntry_mem (s u : State) : (s.undoEntry u).mem = s.mem := rfl
theorem State.sourceElem_mem (s : State) (t : Nat) (b : Nat) (c : Cmd) (va : W64) (w : Option Nat) :
    (State.sourceElem s t b c va w).2.mem = s.mem := by
  first | rfl | (unfold State.sourceElem; grind [State.readNow_mem])
theorem State.reduceElem_safe (s : State) (t : Nat) (b : Nat) (c : Cmd) (op : RedaOp) (va : W64) (v : Nat) (hs : s.Safe) :
    (State.reduceElem s t b c op va v).2.Safe := by
  unfold State.reduceElem at *; grind [State.homeAccept_mem, State.writeMem_safe, State.Safe, Res.Safe, Try.Safe]
theorem State.moveElem_safe (s : State) (t : Nat) (b : Nat) (c : Cmd) (src : W64) (dst : W64) (w : Option Nat) (hs : s.Safe) :
    (State.moveElem s t b c src dst w).Safe := by
  unfold State.moveElem at *; grind [State.sourceElem_mem, State.reduceElem_safe, State.destElem_safe, State.Safe,
    Res.Safe, Try.Safe]
theorem State.moveRow_safe (s : State) (t : Nat) (b : Nat) (c : Cmd) (srcRow : Nat) (dstRow : Nat) (x6 : Nat) (x7 : Nat) (hs : s.Safe) :
    (State.moveRow s t b c srcRow dstRow x6 x7).Safe := by
  induction x6 generalizing s x7 <;> simp only [State.moveRow] <;> grind [State.moveElem_safe, State.Safe, Res.Safe,
    Try.Safe]
theorem State.presentOne_safe (s : State) (t : Nat) (b : Nat) (c : Cmd) (hs : s.Safe) : (State.presentOne s t b c).Safe := by
  unfold State.presentOne at *; grind [State.undoEntry_mem, State.moveRow_safe, State.destElem_safe, State.moveElem_safe,
    State.Safe, Res.Safe, Try.Safe]
theorem State.present_safe (s : State) (t : Nat) (b : Nat) (num : Nat) (x4 : Nat) (hs : s.Safe) :
    (State.present s t b num x4).Safe := by
  induction x4 generalizing s with
  | zero => exact hs
  | succ n ih =>
    simp only [State.present]
    split
    · exact hs
    · next c _ =>
      split
      · exact hs
      · have h := State.presentOne_safe s t b c hs
        cases hp : s.presentOne t b c <;> rw [hp] at h
        · exact ih _ (h.of_mem (State.modCmd_mem _ _ _ _ _ _))
        · exact State.Safe.of_mem h (State.engineFault_mem _ _ _ _ _ _ _ _)
        · exact h
theorem State.finishChunks_safe (s : State) (t : Nat) (b : Nat) (hs : s.Safe) : (State.finishChunks s t b).Safe := by
  refine safe_foldl (fun s x h => ?_) _ hs
  dsimp only; split
  · exact h
  · exact State.present_safe _ _ _ _ _ h
theorem State.peerElems_mem (s : State) (n : Nat) (x2 : List W64) (x3 : List Elem) :
    (State.peerElems s n x2 x3).2.mem = s.mem := by
  induction x3 generalizing s x2 <;> simp only [State.peerElems] <;> grind [State.peerWords_mem]
theorem State.performElem_safe (s : State) (op : AccOp) (n : Nat) (e : Elem) (hs : s.Safe) :
    (State.performElem s op n e).2.Safe := by
  unfold State.performElem at *; grind [State.writeMem_safe, State.Safe, Res.Safe, Try.Safe]
theorem State.performElems_safe (s : State) (op : AccOp) (n : Nat) (x3 : List Elem) (hs : s.Safe) :
    (State.performElems s op n x3).2.Safe := by
  induction x3 generalizing s <;> simp only [State.performElems] <;> grind [State.performElem_safe, State.Safe, Res.Safe,
    Try.Safe]
theorem State.finishAccesses_safe (s : State) (t : Nat) (b : Nat) (x3 : Nat) (x4 : Nat) (hs : s.Safe) :
    (State.finishAccesses s t b x3 x4).Safe := by
  induction x3 generalizing s x4 <;> simp only [State.finishAccesses] <;> grind [State.peerElems_mem,
    State.performElems_safe, State.modSlot_mem, State.Safe, Res.Safe, Try.Safe]
theorem State.drainContext_safe (s : State) (t : Nat) (b : Nat) (hs : s.Safe) : (State.drainContext s t b).Safe := by
  unfold State.drainContext at *; grind [State.finishChunks_safe, State.finishAccesses_safe, State.Safe, Res.Safe, Try.Safe]
theorem State.retryRecords_mem (s : State) (home : Nat) : (State.retryRecords s home).mem = s.mem := by
  exact mem_foldl (fun _ _ => by dsimp only; split <;> rfl) _ _
theorem State.startDrain_mem (s : State) (u : BitVec 3) : (State.startDrain s u).mem = s.mem := by
  first | rfl | (unfold State.startDrain; grind [State.orReg_mem, State.modUnit_mem])
theorem State.dropEntries_mem (s : State) (u : BitVec 3) (f : Tlb → Bool) : (State.dropEntries s u f).mem = s.mem := by
  unfold State.dropEntries; dsimp only
  rw [State.retryRecords_mem, State.startDrain_mem]; refine mem_foldl ?_ _ _; intros; rfl
theorem State.dropPort_mem (s : State) (port : Nat) : (State.dropPort s port).mem = s.mem := by
  exact mem_foldl (fun _ _ => by dsimp only; split <;> rfl) _ _
theorem State.dropReq_mem (s : State) (link : Nat) (r : LinkReq) : (State.dropReq s link r).mem = s.mem := by
  first | rfl | (unfold State.dropReq; grind [State.modLink_mem])
theorem State.endBusy_mem (s : State) : (State.endBusy s).mem = s.mem := by
  first | rfl | (unfold State.endBusy; grind [])
theorem State.putHandleBytes_safe (s : State) (c : WCmd) (t : Nat) (b : Nat) (x4 : Bytes) (x5 : Nat) (hs : s.Safe) :
    (State.putHandleBytes s c t b x4 x5).2.2.Safe := by
  induction x4 generalizing s x5 <;> simp only [State.putHandleBytes] <;> grind [State.writeNow_safe, State.Safe,
    Res.Safe, Try.Safe]
theorem State.endWeight_mem (s : State) (die : Nat) (c : WCmd) (result : BitVec 3) :
    (State.endWeight s die c result).mem = s.mem := by
  first | rfl | (unfold State.endWeight; grind [State.closeWeight_mem, State.weightRecord_mem, State.putCell_mem])
theorem State.endMeasure_safe (s : State) (die : Nat) (c : WCmd) (l : LineFacts) (check : Bool) (hs : s.Safe) :
    (State.endMeasure s die c l check).Safe := by
  unfold State.endMeasure at *; grind [State.modRegion_mem, State.abortWeight_mem, State.putHandleBytes_safe,
    State.endWeight_mem, State.Safe, Res.Safe, Try.Safe]
theorem State.writeStatus_safe (s : State) (t : Nat) (b : Nat) (c : Cmd) (code : Nat) (hs : s.Safe) :
    (State.writeStatus s t b c code).Safe := by
  unfold State.writeStatus at *; grind [State.writeMem_safe, State.Safe, Res.Safe, Try.Safe]
theorem State.endOpen_safe (s : State) (t : Nat) (b : Nat) (c : Cmd) (code : Nat) (hs : s.Safe) :
    (State.endOpen s t b c code).Safe := by
  have := fun l => safe_foldl (f := fun (s : State) i => s.writeMem (halfKey t b + offBits (hAddr c.hd i)) 1 (c.index.getD i 0).toNat) (fun _ _ h => State.writeMem_safe _ _ _ _ h) l hs
  unfold State.endOpen; dsimp only
  refine State.Safe.of_mem (State.writeStatus_safe _ _ _ _ _ ?_) (State.finishCmd_mem _ _ _ _ _)
  split
  · exact this _
  · exact hs
theorem State.setRegSt_mem (s : State) (k : Nat) (st : RegSt) : (State.setRegSt s k st).mem = s.mem := by
  first | rfl | (unfold State.setRegSt; grind [State.modRegion_mem])
theorem State.handleBytes_mem (s : State) (c : WCmd) (t : Nat) (b : Nat) (x4 : Nat) (x5 : Nat) :
    (State.handleBytes s c t b x4 x5).2.2.mem = s.mem := by
  induction x4 generalizing s x5 <;> simp only [State.handleBytes] <;> grind [State.readNow_mem]
theorem State.programLine_safe (s : State) (k : Nat) (i : Nat) (fails : Nat) (bs : Bytes) (hs : s.Safe) :
    (State.programLine s k i fails bs).2.Safe := by
  unfold State.programLine at *; grind [State.writeBytes_safe, State.modRegion_mem, State.Safe, Res.Safe, Try.Safe]
theorem State.programRange_safe (s : State) (c : WCmd) (t : Nat) (b : Nat) (l : LineFacts) (x5 : Nat) (x6 : Nat) (hs : s.Safe) :
    (State.programRange s c t b l x5 x6).2.2.2.Safe := by
  induction x5 generalizing s x6 <;> simp only [State.programRange] <;> grind [State.handleBytes_mem,
    State.programLine_safe, State.Safe, Res.Safe, Try.Safe]
theorem State.endProgram_safe (s : State) (die : Nat) (c : WCmd) (l : LineFacts) (hs : s.Safe) :
    (State.endProgram s die c l).Safe := by
  unfold State.endProgram at *; grind [State.abortWeight_mem, State.setRegSt_mem, State.programRange_safe,
    State.endWeight_mem, State.modRegion_mem, State.Safe, Res.Safe, Try.Safe]
theorem State.endPutc_mem (s : State) (t : Nat) (b : Nat) (c : Cmd) : (State.endPutc s t b c).mem = s.mem := by
  first | rfl | (unfold State.endPutc; grind [State.finishCmd_mem, State.modCmd_mem])
theorem State.endRrot_mem (s : State) (t : Nat) (b : Nat) (c : Cmd) : (State.endRrot s t b c).mem = s.mem := by
  have := fun s : State => fun l => mem_foldl (f := fun (s : State) (m : Nat × Nat × Cmd) => s.finishCmd m.1 m.2.1 false m.2.2) (fun _ _ => State.finishCmd_mem _ _ _ _ _) l s
  unfold State.endRrot; grind [State.finishCmd_mem]
theorem State.scrub_mem (s : State) (k : Nat) (i : Nat) (errs : Nat) (fails : Nat) :
    (State.scrub s k i errs fails).2.mem = s.mem := by
  first | rfl | (unfold State.scrub; grind [State.modRegion_mem])
theorem State.endScrub_mem (s : State) (die : Nat) (c : WCmd) (l : LineFacts) : (State.endScrub s die c l).mem = s.mem := by
  unfold State.endScrub
  generalize hl : List.range dataLines = lst
  split
  next ok u hp =>
    rw [State.endWeight_mem]
    have h := pair_mem (g := fun s i => s.scrub c.region i (l.errs i) (l.fails i)) (fun s i => State.scrub_mem _ _ _ _ _) lst true s
    dsimp only at h
    rw [hp] at h
    exact h
theorem State.readElems_mem (s : State) (t : Nat) (b : Nat) (h : W256) (x4 : Nat) (x5 : Nat) :
    (State.readElems s t b h x4 x5).2.2.mem = s.mem := by
  induction x4 generalizing s x5 <;> simp only [State.readElems] <;> grind [State.readNow_mem]
theorem State.writeElems_safe (s : State) (t : Nat) (b : Nat) (h : W256) (x4 : Bytes) (x5 : Nat) (hs : s.Safe) :
    (State.writeElems s t b h x4 x5).2.2.Safe := by
  induction x4 generalizing s x5 <;> simp only [State.writeElems] <;> grind [State.writeMem_safe, State.writeNow_safe,
    State.Safe, Res.Safe, Try.Safe]
theorem State.endSeal_safe (s : State) (t : Nat) (b : Nat) (c : Cmd) (code : Nat) (ctr : W64) (hs : s.Safe) :
    (State.endSeal s t b c code ctr).Safe := by
  unfold State.endSeal
  dsimp only
  split
  · exact State.Safe.of_mem (State.writeStatus_safe _ _ _ _ _ hs) (State.finishCmd_mem _ _ _ _ _)
  · have h := State.readElems_mem s t b c.ha (hCount c.ha) 0
    split
    · next hp =>
      rw [hp] at h
      exact State.Safe.of_mem (State.Safe.of_mem hs h) (by rw [State.engineFault_mem, State.modCmd_mem])
    · next hp => rw [hp] at h; exact State.Safe.of_mem hs h
    · next l i u hp =>
      rw [hp] at h
      have hu : u.Safe := State.Safe.of_mem hs h
      generalize gcmSeal _ _ _ _ = g
      have h2 := State.writeElems_safe u t b c.hd (bufferHeader (s.keySlot (slotNo c.param)).sealStream ctr.toNat (hCount c.ha) ++ g.1 ++ g.2) 0 hu
      split
      · next hq =>
        rw [hq] at h2
        exact State.Safe.of_mem (State.writeStatus_safe _ _ _ _ _ h2) (State.finishCmd_mem _ _ _ _ _)
      · next hq => rw [hq] at h2; exact State.Safe.of_mem h2 (by rw [State.engineFault_mem, State.modCmd_mem])
      · exact hu
theorem State.wipe_safe (s : State) (k : Nat) (hs : s.Safe) : (State.wipe s k).Safe := by
  exact Memory.wf_memClear hs _ _
theorem State.failSealed_safe (s : State) (k : Nat) (hs : s.Safe) : (State.failSealed s k).Safe := by
  unfold State.failSealed at *; grind [State.modRegion_mem, State.wipe_safe, State.Safe, Res.Safe, Try.Safe]
theorem State.programAll_safe (s : State) (k : Nat) (l : LineFacts) (text : Bytes) (hs : s.Safe) :
    (State.programAll s k l text).2.Safe := by
  unfold State.programAll
  generalize List.range dataLines = l'
  refine pair_safe (g := fun s i => s.programLine k i (l.fails i) (((text.drop (4096 * i)).take 4096) ++ List.replicate (4096 - ((text.drop (4096 * i)).take 4096).length) 0))
    (fun s i h => ?_) _ _ hs
  exact State.programLine_safe _ _ _ _ _ h
theorem State.zeroLines_safe (s : State) (k : Nat) (l : LineFacts) (hs : s.Safe) : (State.zeroLines s k l).2.Safe := by
  unfold State.zeroLines
  generalize List.range dataLines = l'
  refine pair_safe (g := fun s i => s.programLine k i (l.fails i) (List.replicate 4096 0)) (fun s i h => ?_) _ _ hs
  exact State.programLine_safe _ _ _ _ _ h
theorem State.stopSealed_safe (s : State) (die : Nat) (c : WCmd) (l : LineFacts) (f : FaultName) (va : W64) (hs : s.Safe) :
    (State.stopSealed s die c l f va).Safe :=
  State.Safe.of_mem (State.failSealed_safe _ _ (State.zeroLines_safe _ _ _ hs)) (State.abortWeight_mem _ _ _ _ _ _)
theorem State.endSealed_safe (s : State) (die : Nat) (c : WCmd) (l : LineFacts) (hs : s.Safe) :
    (State.endSealed s die c l).Safe := by
  unfold State.endSealed
  split
  · exact hs
  · exact State.stopSealed_safe _ _ _ _ _ _ hs
  · next t b _ =>
    have h := State.handleBytes_mem s c t b (hCount c.offer.ha) 0
    split
    · exact hs
    · next hp => rw [hp] at h; exact State.stopSealed_safe _ _ _ _ _ _ (State.Safe.of_mem hs h)
    · next bs i u hp =>
      rw [hp] at h
      have hu : u.Safe := State.Safe.of_mem hs h
      extract_lets k len model
      split
      · exact State.Safe.of_mem (State.failSealed_safe _ _ (State.programAll_safe _ _ _ _ hu)) (State.endWeight_mem _ _ _ _)
      · next text _ =>
        have hv := State.programAll_safe u c.region l text hu
        split
        next ok v hq =>
        rw [hq] at hv
        extract_lets p
        split
        · exact State.Safe.of_mem (State.failSealed_safe _ _ hv) (State.endWeight_mem _ _ _ _)
        · split
          · exact State.Safe.of_mem (State.failSealed_safe _ _ hv) (State.endWeight_mem _ _ _ _)
          · exact State.Safe.of_mem hv (by rw [State.endWeight_mem, State.modRegion_mem])
theorem State.endWaits_mem (s : State) (t : Nat) : (State.endWaits s t).mem = s.mem := by
  first | rfl | (unfold State.endWaits; grind [State.dropWaiter_mem])
theorem State.satisfied_mem (s : State) (t : Nat) (w : Waiter) : (State.satisfied s t w).mem = s.mem := by
  first | rfl | (unfold State.satisfied; grind [State.modSlot_mem, State.answerRemote_mem])
theorem State.unsatisfied_mem (s : State) (t : Nat) (w : Waiter) : (State.unsatisfied s t w).mem = s.mem := by
  first | rfl | (unfold State.unsatisfied; grind [State.answerRemote_mem, State.dropWaiter_mem])
theorem State.evalWaiter_mem (s : State) (t : Nat) (w : Waiter) : (State.evalWaiter s t w).mem = s.mem := by
  first | rfl | (unfold State.evalWaiter; grind [State.satisfied_mem, State.dropWaiter_mem, State.putCell_mem,
    State.unsatisfied_mem])
theorem State.evict_mem (s : State) (t : Nat) (w : Waiter) : (State.evict s t w).mem = s.mem := by
  first | rfl | (unfold State.evict; grind [State.dropWaiter_mem, State.engineFault_mem, State.modSlot_mem,
    State.replyRemote_mem])
theorem State.failOp_mem (s : State) (d : Nat) (o : SwOp) (f : FaultName) (va : W64) :
    (State.failOp s d o f va).mem = s.mem := by
  first | rfl | (unfold State.failOp; grind [State.raiseOp_mem])
theorem State.fetchWords_mem (s : State) (t : Nat) (b : Nat) (va : W64) (x4 : Nat) :
    (State.fetchWords s t b va x4).2.1.mem = s.mem := by
  induction x4 generalizing s va <;> simp only [State.fetchWords] <;> grind [State.fetchWord_mem]
theorem State.fillElems_mem (s : State) (r : LinkReq) (ds : List (Nat × Option Nat)) :
    (State.fillElems s r ds).mem = s.mem := by
  first | rfl | (unfold State.fillElems; grind [State.modSlot_mem])
theorem State.hostAnswer_mem (s : State) (p : PartNo) (addr : W64) (a : Answer) :
    (State.hostAnswer s p addr a).mem = s.mem := by
  first | rfl | (unfold State.hostAnswer; grind [State.answer_mem, State.orReg_mem])
theorem State.hostError_mem (s : State) (p : PartNo) (va : W64) (f : FaultName) :
    (State.hostError s p va f).mem = s.mem := by
  first | rfl | (unfold State.hostError; grind [State.modPart_mem, State.putReg_mem])
theorem State.keyPorts_mem (s : State) (peer : BitVec 6) : (State.keyPorts s peer).mem = s.mem := by
  exact mem_foldl (fun _ _ => by dsimp only; split <;> rfl) _ _
theorem State.modTask_mem (s : State) (d : Nat) (num : Nat) (f : Slot → Slot) : (State.modTask s d num f).mem = s.mem := by
  first | rfl | (unfold State.modTask; grind [State.modSlot_mem])
theorem State.readPieces_mem (s : State) (o : SwOp) (t : Nat) (b : Nat) (x4 : Nat) (x5 : W64) (x6 : Nat) :
    (State.readPieces s o t b x4 x5 x6).2.2.mem = s.mem := by
  induction x4 generalizing s x5 x6 <;> simp only [State.readPieces] <;> grind [State.readNow_mem]
theorem State.loadImage_mem (s : State) (d : Nat) (o : SwOp) (sx : SReg) : (State.loadImage s d o sx).mem = s.mem := by
  unfold State.loadImage; dsimp only; (repeat' split) <;> grind [State.finishOp_mem, State.modTask_mem, State.failOp_mem,
    State.readPieces_mem, State.openCtx_mem]
theorem State.lockRange_mem (s : State) (home : Nat) (p : PartNo) (off : Nat) (len : Nat) (ws : List Walk) :
    (State.lockRange s home p off len ws).2.mem = s.mem := by
  have := fun s : State => fun l => mem_foldl (f := fun (s : State) n => s.modUnit n fun u => u.lock (lockedEntries p ws)) (fun _ _ => rfl) l s
  unfold State.lockRange; grind
theorem State.ownElem_safe (s : State) (n : Nat) (wr : Bool) (e : Elem) (hs : s.Safe) : (State.ownElem s n wr e).2.Safe := by
  unfold State.ownElem at *; grind [State.writeMem_safe, State.Safe, Res.Safe, Try.Safe]
theorem State.ownElems_safe (s : State) (n : Nat) (wr : Bool) (x3 : List Elem) (hs : s.Safe) :
    (State.ownElems s n wr x3).2.Safe := by
  induction x3 generalizing s <;> simp only [State.ownElems] <;> grind [State.ownElem_safe, State.Safe, Res.Safe, Try.Safe]
theorem State.newNum_mem (s : State) : (State.newNum s).2.mem = s.mem := by
  first | rfl | (unfold State.newNum; grind [])
theorem State.makeAccess_safe (s : State) (op : AccOp) (n : Nat) (ord : Ord) (es : List Elem) (hs : s.Safe) :
    (State.makeAccess s op n ord es).Safe := by
  unfold State.makeAccess at *; grind [State.ownElems_safe, State.modCore_mem, State.newNum_mem, State.Safe, Res.Safe,
    Try.Safe]
theorem State.markStarted_mem (s : State) (die : Nat) (c : WCmd) : (State.markStarted s die c).mem = s.mem := by
  first | rfl | (unfold State.markStarted; grind [State.modDie_mem])
theorem State.measureRegion_mem (s : State) (k : Nat) : (State.measureRegion s k).mem = s.mem := by
  first | rfl | (unfold State.measureRegion; grind [State.modRegion_mem])
theorem State.noted_mem (t s : State) (i : Instr) : (t.noted s i).mem = t.mem := by
  unfold State.noted; dsimp only; split <;> rfl
theorem State.outside_safe (s : State) (o : Outside) (hs : s.Safe) : (State.outside s o).Safe := by
  unfold State.outside; cases o <;> first | exact hs | exact Memory.wf_memPut hs _ _ | skip
theorem State.park_safe (s : State) (t : Nat) (b : Nat) (sd : SReg) (addr : W64) (k : Nat) (hs : s.Safe) :
    (State.park s t b sd addr k).Safe := by
  unfold State.park at *; grind [State.status_mem, State.quarantine_mem, State.retire_mem, State.decrementJoin_safe,
    State.Safe, Res.Safe, Try.Safe]
theorem State.peerAnswer_mem (s : State) (r : PeerReq) (f : Option FaultName) (v : W256) :
    (State.peerAnswer s r f v).mem = s.mem := by
  first | rfl | (unfold State.peerAnswer; grind [])
theorem State.peerAtomic_safe (s : State) (r : PeerReq) (p : PartNo) (va : W64) (op : Nat) (n : Nat) (data : W64) (cmp : W64) (hs : s.Safe) :
    (State.peerAtomic s r p va op n data cmp).Safe := by
  unfold State.peerAtomic at *; grind [State.peerAnswer_mem, State.homeAccept_mem, State.writeMem_safe, State.Safe,
    Res.Safe, Try.Safe]
theorem State.settleIf_mem (s : State) (t : Nat) (p : Nat → Bool) : (State.settleIf s t p).mem = s.mem := by
  unfold State.settleIf; dsimp only
  rw [mem_foldl (fun _ _ => State.evalWaiter_mem _ _ _), mem_foldl (fun _ _ => State.evalWaiter_mem _ _ _)]
theorem resolveRemote_mem (m : Remote) (s : State) : (resolveRemote m s).mem = s.mem := by
  unfold resolveRemote
  dsimp only
  split
  · rfl
  · generalize m.op = op
    generalize m.st = st
    cases st with
    | replied => rfl
    | pending => dsimp only; split <;> rfl
    | sent =>
      dsimp only
      generalize (!(s.cell m.target m.cell).ownedBy m.part) = z
      cases z
      · rw [if_neg Bool.false_ne_true]; cases op <;> (try rfl) <;>
          first | (exact (by rw [State.replyRemote_mem, State.settleIf_mem])) | (dsimp only; split <;> rfl)
      · rfl
theorem State.peerCancel_mem (s : State) (r : PeerReq) (tag : Nat) : (State.peerCancel s r tag).mem = s.mem := by
  first | rfl | (unfold State.peerCancel; grind [resolveRemote_mem])
theorem State.peerCellOp_mem (s : State) (r : PeerReq) (p : PartNo) (va : W64) (op : CellOp) (once : Bool) :
    (State.peerCellOp s r p va op once).mem = s.mem := by
  first | rfl | (unfold State.peerCellOp; grind [State.newNum_mem, resolveRemote_mem, State.peerAnswer_mem])
theorem State.performAt_safe (s : State) (t : Nat) (b : Nat) (i : Nat) (n : Nat) (hs : s.Safe) :
    (State.performAt s t b i n).Safe := by
  unfold State.performAt at *; grind [State.performElem_safe, State.modSlot_mem, State.Safe, Res.Safe, Try.Safe]
theorem State.performMatrix_safe (s : State) (t : Nat) (b : Nat) (c : Cmd) (hs : s.Safe) :
    (State.performMatrix s t b c).Safe := by
  unfold State.performMatrix at *; grind [State.finishCmd_mem, State.modSlot_mem, State.engineFault_mem,
    State.storeHalf_safe, State.drain_safe, State.accumulate_mem, State.Safe, Res.Safe, Try.Safe]
theorem State.writePieces_safe (s : State) (o : SwOp) (t : Nat) (b : Nat) (whole : W64 → Bool) (x5 : Nat) (x6 : W64) (x7 : Bytes) (hs : s.Safe) :
    (State.writePieces s o t b whole x5 x6 x7).2.2.Safe := by
  induction x5 generalizing s x6 x7 <;> simp only [State.writePieces] <;> grind [State.writeNow_safe, State.Safe,
    Res.Safe, Try.Safe]
theorem State.saveImage_safe (s : State) (d : Nat) (o : SwOp) (c : SwCtx) (hs : s.Safe) :
    (State.saveImage s d o c).Safe := by
  unfold State.saveImage; dsimp only; (repeat' split) <;> grind [State.failOp_mem, State.writePieces_safe,
    State.writeNow_safe, State.finishOp_mem, State.Safe, Res.Safe, Try.Safe]
theorem State.performOp_safe (s : State) (d : Nat) (o : SwOp) (hs : s.Safe) : (State.performOp s d o).Safe := by
  unfold State.performOp at *; grind [State.finishOp_mem, State.modDie_mem, State.modTask_mem, State.saveImage_safe,
    State.failOp_mem, State.loadImage_mem, State.Safe, Res.Safe, Try.Safe]
theorem State.popFault_mem (s : State) (p : PartNo) : (State.popFault s p).2.mem = s.mem := by
  first | rfl | (unfold State.popFault; grind [State.modPart_mem])
theorem State.popInstance_mem (s : State) (d : Nat) (p : PartNo) (l : Nat) (bind : Option (Nat × Nat)) :
    (State.popInstance s d p l bind).mem = s.mem := by
  first | rfl | (unfold State.popInstance; grind [State.modRing_mem])
theorem State.powerDown_safe (s : State) (hs : s.Safe) : (State.powerDown s).Safe := by
  exact Memory.wf_filter hs _
theorem State.preempt_mem (s : State) (t : Nat) (b : Nat) : (State.preempt s t b).mem = s.mem := by
  first | rfl | (unfold State.preempt; grind [State.modSlot_mem])
theorem State.putFw_mem (s : State) (c : Controller) (f : Fw) : (State.putFw s c f).mem = s.mem := by
  first | rfl | (unfold State.putFw; grind [])
theorem State.putHalf_safe (s : State) (t : Nat) (b : Nat) (bs : List Host.Cell) (hs : s.Safe) :
    (State.putHalf s t b bs).Safe := by
  exact safe_foldl (fun _ _ h => State.writeMem_safe _ _ _ _ h) _ hs
theorem State.putKey_mem (s : State) (k : Nat) (y : KeySlot) : (State.putKey s k y).mem = s.mem := by
  first | rfl | (unfold State.putKey; grind [])
theorem State.putKeySlot_mem (s : State) (k : Nat) (y : KeySlot) : (State.putKeySlot s k y).mem = s.mem := by
  first | rfl | (unfold State.putKeySlot; grind [])
theorem State.readBuffer_mem (s : State) (t : Nat) (b : Nat) (c : Cmd) : (State.readBuffer s t b c).mem = s.mem := by
  first | rfl | (unfold State.readBuffer; grind [State.readElems_mem, State.modCmd_mem, State.engineFault_mem])
theorem State.readyAt_mem (s : State) (d : Nat) (p : PartNo) (l : Nat) (r : W512) :
    (State.readyAt s d p l r).2.mem = s.mem := by
  first | rfl | (unfold State.readyAt; grind [State.readNow_mem])
theorem State.refuseAccess_safe (s : State) (t : Nat) (b : Nat) (a : Access) (pre : List Elem) (bad : Elem) (f : FaultName) (hs : s.Safe) :
    (State.refuseAccess s t b a pre bad f).Safe := by
  unfold State.refuseAccess at *; grind [State.performElems_safe, State.modSlot_mem, State.Safe, Res.Safe, Try.Safe]
theorem State.renameContext_mem (s : State) (p : PartNo) (t : Nat) (b : Nat) (addr : W64) :
    (State.renameContext s p t b addr).mem = s.mem := by
  first | rfl | (unfold State.renameContext; grind [State.modPart_mem])
theorem State.resolveReq_safe (s : State) (link : Nat) (r : LinkReq) (tagOk : Bool) (hs : s.Safe) :
    (State.resolveReq s link r tagOk).Safe := by
  unfold State.resolveReq
  dsimp only
  split
  · have h := State.blockData_mem s { r with items := [⟨0, r.block * 256, ((r.items.head?.map LinkItem.pa).getD 0) / 256 * 256, 256, 0⟩] } tagOk
    split
    · next hp => rw [hp] at h; exact State.Safe.of_mem hs h
    · next hp => rw [hp] at h; exact State.Safe.of_mem hs (by rw [State.fillElems_mem, State.dropReq_mem]; exact h)
  · split
    · refine State.Safe.of_mem ?_ (by rw [State.ackElems_mem, State.dropReq_mem])
      exact safe_foldl (fun _ _ h => State.drawerWrite_safe _ _ _ _ _ _ _ h) _ hs
    · exact State.Safe.of_mem hs (by rw [State.fillElems_mem, State.dropReq_mem, State.blockData_mem])
theorem State.respond_mem (s : State) (session : Nat) (bs : Bytes) : (State.respond s session bs).mem = s.mem := by
  first | rfl | (unfold State.respond; grind [])
theorem State.restore_safe (s : State) (t : Nat) (b : Nat) (k : Saved) (overrun : Bool) (hs : s.Safe) :
    (State.restore s t b k overrun).Safe := by
  unfold State.restore at *; grind [State.modSlot_mem, State.putHalf_safe, State.clearHalf_safe, State.putCells_mem,
    State.resumeEngines_mem, State.Safe, Res.Safe, Try.Safe]
theorem State.ringWrite_mem (s : State) (die : BitVec 2) (p : PartNo) (l : BitVec 3) (r : CfgReg) (v : W64) :
    (State.ringWrite s die p l r v).mem = s.mem := by
  first | rfl | (unfold State.ringWrite; grind [State.putReg_mem])
theorem State.vacate_mem (s : State) (t : Nat) (b : Nat) : (State.vacate s t b).mem = s.mem := by
  first | rfl | (unfold State.vacate; grind [State.dropSaved_mem, State.modSlot_mem, State.retire_mem])
theorem State.writeImage_safe (s : State) (addr : W64) (l : List Piece) (hs : s.Safe) : (State.writeImage s addr l).Safe := by
  exact safe_foldl (fun _ _ h => State.writeBytes_safe _ _ _ h) _ (Memory.wf_memClear hs _ _)
theorem State.saveTo_safe (s : State) (t : Nat) (b : Nat) (addr : W64) (moved : Bool) (hs : s.Safe) :
    (State.saveTo s t b addr moved).Safe := by
  unfold State.saveTo
  extract_lets x k u
  have h : u.Safe := State.writeImage_safe _ _ _ (State.Safe.of_mem hs (State.vacate_mem s t b))
  clear_value u
  exact h
theorem State.servePeer_safe (s : State) (r : PeerReq) (hs : s.Safe) : (State.servePeer s r).Safe := by
  unfold State.servePeer at *; grind [State.peerCancel_mem, State.peerAnswer_mem, State.readNow_mem, State.writeNow_safe,
    State.peerAtomic_safe, State.peerCellOp_mem, State.Safe, Res.Safe, Try.Safe]
theorem State.settle_mem (s : State) (t : Nat) : (State.settle s t).mem = s.mem := by
  first | rfl | (unfold State.settle; grind [State.settleIf_mem])
theorem State.sign_mem (s : State) : (State.sign s).2.mem = s.mem := by
  first | rfl | (unfold State.sign; grind [])
theorem State.startClearing_mem (s : State) (p : PartNo) : (State.startClearing s p).mem = s.mem := by
  unfold State.startClearing; dsimp only
  rw [mem_foldl]
  · rfl
  · intro s t; refine mem_foldl (fun _ _ => ?_) _ _; split <;> rfl
theorem State.startCopy_mem (s : State) (t : Nat) (b : Nat) (c : Cmd) (id : Option Nat) (dst : Nat) :
    (State.startCopy s t b c id dst).mem = s.mem := by
  first | rfl | (unfold State.startCopy; grind [State.arm_mem, State.modCmd_mem, State.engineFault_mem])
theorem State.startSealed_safe (s : State) (die : Nat) (c : WCmd) (hs : s.Safe) : (State.startSealed s die c).Safe := by
  unfold State.startSealed at *; grind [State.endWeight_mem, State.stopSealed_safe,
    State.handleBytes_mem, State.modDie_mem, State.setRegSt_mem, State.Safe, Res.Safe, Try.Safe]
theorem State.startupWork_mem (s : State) {u : State} (hu : State.startupWork s = some u) : u.mem = s.mem := by
  unfold State.startupWork at hu
  split at hu
  · dsimp only at hu; split at hu <;> cases hu; exact State.completeCounters_mem s
  · cases hu; exact mem_foldl (fun _ _ => State.measureRegion_mem _ _) _ _
  · cases hu; rfl
theorem State.storePrefix_safe (s : State) (p : PartNo) (n : Nat) (es : List Elem) (hs : s.Safe) :
    (State.storePrefix s p n es).Safe := by
  exact safe_foldl (fun _ _ h => State.drawerWrite_safe _ _ _ _ _ _ _ h) _ hs
theorem State.tick_mem (s : State) (t : Nat) (n : Nat) : (State.tick s t n).mem = s.mem := by
  first | rfl | (unfold State.tick; grind [State.settle_mem, State.endWaits_mem, State.modTile_mem])
theorem State.trap_mem (s : State) (n : FaultName) (addr : W64) (detail : W64) :
    (State.trap s n addr detail).mem = s.mem := by
  first | rfl | (unfold State.trap; grind [State.modCore_mem])
theorem State.unlockRange_mem (s : State) (home : Nat) (p : PartNo) (off : Nat) (len : Nat) :
    (State.unlockRange s home p off len).mem = s.mem := by
  unfold State.unlockRange; dsimp only; refine mem_foldl ?_ _ _; intros; rfl
theorem State.holdRequest_mem (s : State) (c : Controller) (r : Request) : (State.holdRequest s c r).mem = s.mem := by
  unfold State.holdRequest; split <;> rfl
theorem State.serveHeld_mem (s : State) (c : Controller) : (State.serveHeld s c).mem = s.mem := rfl
theorem State.writeReg_mem (s : State) (r : CfgReg) (v : W64) : (State.writeReg s r v).mem = s.mem := by
  first | rfl | (unfold State.writeReg; grind [State.holdRequest_mem, State.ringWrite_mem, State.clearBits_mem, State.putReg_mem,
    State.retryRecords_mem, State.modPart_mem])
theorem acceptLast_safe (t : Nat) (b : Nat) (a : Access) (s : State) (hs : s.Safe) : (acceptLast t b a s).Safe := by
  unfold acceptLast at *; grind [State.acceptElems_mem, State.refuseAccess_safe, State.modSlot_mem, State.Safe, Res.Safe,
    Try.Safe]
theorem alu2_safe (f : W64 → W64) (sd : SReg) (sa : SReg) (s : State) (hs : s.Safe) : (alu2 f sd sa s).Safe := by
  unfold alu2 at *; grind [State.modCore_mem, State.Safe, Res.Safe, Try.Safe]
theorem alu3_safe (f : W64 → W64 → W64) (extra : Nat) (sd : SReg) (sa : SReg) (sb : SReg) (s : State) (hs : s.Safe) :
    (alu3 f extra sd sa sb s).Safe := by
  unfold alu3 at *; grind [State.modCore_mem, State.Safe, Res.Safe, Try.Safe]
theorem answerRecord_safe (a : Answer) (sa : SReg) (s : State) (hs : s.Safe) : (answerRecord a sa s).Safe := by
  unfold answerRecord at *; grind [State.answer_mem, State.Safe, Res.Safe, Try.Safe]
theorem scalarAccess_safe (op : AccOp) (atomic : Bool) (n : Nat) (ord : Ord) (va : W64) (data : W256) (s : State) (hs : s.Safe) :
    (scalarAccess op atomic n ord va data s).Safe := by
  unfold scalarAccess at *; grind [State.makeAccess_safe, State.Safe, Res.Safe, Try.Safe]
theorem atomicAt_safe (op : Nat) (z : Size) (o : Ord) (f : Bool) (sd : SReg) (base : SReg) (disp : W64) (s : State) (hs : s.Safe) :
    (atomicAt op z o f sd base disp s).Safe := by
  unfold atomicAt at *; grind [scalarAccess_safe, State.Safe, Res.Safe, Try.Safe]
theorem beginLoop_safe (n : W64) (len : Nat) (epi : Option Nat) (s : State) (hs : s.Safe) :
    (beginLoop n len epi s).Safe := by
  unfold beginLoop at *; grind [State.modCore_mem, State.captureWords_mem, State.Safe, Res.Safe, Try.Safe]
theorem takeBranch_safe (s : State) (pc : W64) (hs : s.Safe) : (takeBranch s pc).Safe := by
  unfold takeBranch at *; grind [State.Safe, Res.Safe, Try.Safe]
theorem branchIf_safe (b : Bool) (pc : W64) (s : State) (hs : s.Safe) : (branchIf b pc s).Safe := by
  unfold branchIf at *; grind [takeBranch_safe, State.Safe, Res.Safe, Try.Safe]
theorem sendRemote_safe (s : State) (t : Nat) (c : Nat) (peer : Option W64) (op : CellOp) (once : Bool) (sd : SReg) (limit : Option Nat) (hs : s.Safe) :
    (sendRemote s t c peer op once sd limit).Safe := by
  unfold sendRemote at *; grind [State.newNum_mem, State.modCore_mem, State.Safe, Res.Safe, Try.Safe]
theorem changeCell_safe (op : CellOp) (o : Ord) (c : CellRef) (s : State) (hs : s.Safe) : (changeCell op o c s).Safe := by
  unfold changeCell at *; grind [sendRemote_safe, State.putCell_mem, State.Safe, Res.Safe, Try.Safe]
theorem compareLanes_safe (f : W32 → W32 → Bool) (kd : KReg) (va : VReg) (vb : VReg) (k : KReg) (s : State) (hs : s.Safe) :
    (compareLanes f kd va vb k s).Safe := by
  unfold compareLanes at *; grind [State.modCore_mem, State.Safe, Res.Safe, Try.Safe]
theorem conclude_safe {s : State} (hs : s.Safe) {r : Res} (hr : r.Safe) : (conclude s r).Safe := by
  cases r with
  | done u n => exact State.Safe.of_mem hr (by simp only [conclude, State.tick_mem, State.modCore_mem])
  | jump u p n => exact State.Safe.of_mem hr (by simp only [conclude, State.tick_mem, State.modCore_mem])
  | hold u => exact State.Safe.of_mem hr (by simp only [conclude, State.tick_mem])
  | trap n a d => exact State.Safe.of_mem hs (by simp only [conclude, State.tick_mem, State.trap_mem])
theorem enqueue_safe (m : Bool) (mk : Cmd → Cmd) (i : Instr) (s : State) (hs : s.Safe) : (enqueue m mk i s).Safe := by
  unfold enqueue at *; grind [State.newNum_mem, State.modCore_mem, State.arm_mem, State.Safe, Res.Safe, Try.Safe]
theorem settle_safe {s : State} (hs : s.Safe) {r : Res} (hr : r.Safe) (i : Instr) : (settle i s r).Safe := by
  unfold settle
  split
  · exact State.Safe.of_mem (conclude_safe hs hr) (State.noted_mem _ _ _)
  · exact conclude_safe hs hr
theorem onCore_safe (f : Slot → Slot) (s : State) (hs : s.Safe) : (onCore f s).Safe := by
  unfold onCore at *; grind [State.modCore_mem, State.Safe, Res.Safe, Try.Safe]
theorem pushCall_safe (s : State) (tgt : W64) (hs : s.Safe) : (pushCall s tgt).Safe := by
  unfold pushCall at *; grind [State.modCore_mem, State.writeMem_safe, State.Safe, Res.Safe, Try.Safe]
theorem loadFrom_safe (sgn : Bool) (z : Size) (o : Ord) (sd : SReg) (base : SReg) (disp : W64) (s : State) (hs : s.Safe) :
    (loadFrom sgn z o sd base disp s).Safe := by
  unfold loadFrom at *; grind [scalarAccess_safe, State.Safe, Res.Safe, Try.Safe]
theorem waitCell_safe (op : CellOp) (need : Need) (sd : SReg) (lim : SReg) (c : CellRef) (s : State) (hs : s.Safe) :
    (waitCell op need sd lim c s).Safe := by
  unfold waitCell at *; grind [sendRemote_safe, State.modCore_mem, State.addWaiter_mem, State.Safe, Res.Safe, Try.Safe]
theorem tryTakeCell_safe (sd : SReg) (c : CellRef) (v : W32) (s : State) (hs : s.Safe) : (tryTakeCell sd c v s).Safe := by
  unfold tryTakeCell at *; grind [sendRemote_safe, State.settleIf_mem, State.modCore_mem, State.putCell_mem, State.Safe,
    Res.Safe, Try.Safe]
theorem readCell_safe (sd : SReg) (c : CellRef) (s : State) (hs : s.Safe) : (readCell sd c s).Safe := by
  unfold readCell at *; grind [sendRemote_safe, State.settleIf_mem, State.modCore_mem, State.Safe, Res.Safe, Try.Safe]
theorem spawnRecord_safe (via : SReg → Via) (sd : SReg) (sa : SReg) (disp : BitVec 36) (s : State) (hs : s.Safe) :
    (spawnRecord via sd sa disp s).Safe := by
  unfold spawnRecord at *; grind [State.readNow_mem, State.modCore_mem, State.Safe, Res.Safe, Try.Safe]
theorem parkRecord_safe (sd : SReg) (sa : SReg) (disp : BitVec 36) (s : State) (hs : s.Safe) :
    (parkRecord sd sa disp s).Safe := by
  unfold parkRecord at *; grind [State.continuationKey_mem, State.modCore_mem, State.Safe, Res.Safe, Try.Safe]
theorem handleAccess_safe (op : AccOp) (va : W64) (data : W256) (s : State) (hs : s.Safe) :
    (handleAccess op va data s).Safe := by
  unfold handleAccess at *; grind [State.makeAccess_safe, State.Safe, Res.Safe, Try.Safe]
theorem handleSet_safe (f : W256 → W64 → Option W256) (hd : HReg) (ha : HReg) (sa : SReg) (s : State) (hs : s.Safe) :
    (handleSet f hd ha sa s).Safe := by
  unfold handleSet at *; grind [State.modCore_mem, State.Safe, Res.Safe, Try.Safe]
theorem lanesUnder_safe (k : KReg) (vd : VReg) (f : Slot → Nat → W32) (s : State) (hs : s.Safe) :
    (lanesUnder k vd f s).Safe := by
  unfold lanesUnder at *; grind [State.modCore_mem, State.Safe, Res.Safe, Try.Safe]
theorem vec2_safe (f : W32 → W32 → W32) (vd : VReg) (va : VReg) (vb : VReg) (k : KReg) (s : State) (hs : s.Safe) :
    (vec2 f vd va vb k s).Safe := by
  unfold vec2 at *; grind [lanesUnder_safe, State.Safe, Res.Safe, Try.Safe]
theorem vec3_safe (f : W32 → W32 → W32 → W32) (vd : VReg) (va : VReg) (vb : VReg) (vc : VReg) (k : KReg) (s : State) (hs : s.Safe) :
    (vec3 f vd va vb vc k s).Safe := by
  unfold vec3 at *; grind [lanesUnder_safe, State.Safe, Res.Safe, Try.Safe]
theorem vec1_safe (f : W32 → W32) (vd : VReg) (va : VReg) (k : KReg) (s : State) (hs : s.Safe) :
    (vec1 f vd va k s).Safe := by
  unfold vec1 at *; grind [lanesUnder_safe, State.Safe, Res.Safe, Try.Safe]
theorem vectorAccess_safe (op : AccOp) (ty : Ty) (h : W256) (es : List Elem) (s : State) (hs : s.Safe) :
    (vectorAccess op ty h es s).Safe := by
  unfold vectorAccess at *; grind [State.makeAccess_safe, State.Safe, Res.Safe, Try.Safe]
theorem whole_safe (f : Lanes → Lanes) (vd : VReg) (va : VReg) (s : State) (hs : s.Safe) : (whole f vd va s).Safe := by
  unfold whole at *; grind [State.modCore_mem, State.Safe, Res.Safe, Try.Safe]
theorem pairOf_safe (f : Slot → Lanes × Lanes) (vd : VReg) (s : State) (hs : s.Safe) : (pairOf f vd s).Safe := by
  unfold pairOf at *; grind [State.modCore_mem, State.Safe, Res.Safe, Try.Safe]
theorem pushMatrix_safe (i : Instr) (ha : Slot → W256) (param : Slot → W64) (s : State) (hs : s.Safe) :
    (pushMatrix i ha param s).Safe := by
  unfold pushMatrix at *; grind [enqueue_safe, State.Safe, Res.Safe, Try.Safe]
theorem pushCopy_safe (i : Instr) (hd : Slot → W256) (ha : Slot → W256) (param : Slot → W64) (s : State) (hs : s.Safe) :
    (pushCopy i hd ha param s).Safe := by
  unfold pushCopy at *; grind [enqueue_safe, State.Safe, Res.Safe, Try.Safe]
theorem offerCommand_safe (mk : Slot → Offer → Offer) (i : Instr) (s : State) (hs : s.Safe) :
    (offerCommand mk i s).Safe := by
  unfold offerCommand at *; grind [State.newNum_mem, State.modCore_mem, State.addWaiter_mem, State.Safe, Res.Safe, Try.Safe]
end Sys2Proof.Machine
end

