-- ==== Sys2Proof/Laws/Image.lean ====
section
/-! SUPPORT. What the writing of a context image does to memory: nothing outside its entry, and its last piece, the header with its
CRC, reads back (R364, R365). -/

set_option Elab.async false

namespace Sys2Proof.Machine

theorem memGet_filter {m : List Host.Cell} (p : Host.Cell → Bool) (j : Nat) (h : ∀ b, p (j, b) = true) :
    memGet (m.filter p) j = memGet m j := by
  induction m with
  | nil => rfl
  | cons c r ih =>
    obtain ⟨a, b⟩ := c
    by_cases ha : a = j
    · subst ha; simp [h, memGet]
    · simp only [List.filter_cons]
      split <;> simp [memGet, ha, ih]

/-- A cleared range leaves every byte outside it. -/
theorem memGet_memClear_out (m : List Host.Cell) (lo hi j : Nat) (h : j < lo ∨ hi ≤ j) : memGet (memClear m lo hi) j = memGet m j :=
  memGet_filter _ _ fun _ => by simp; omega

/-- Bytes that are written leave every other byte. -/
theorem memGet_memPutBytes_out {m : List Host.Cell} (hm : Memory.wf m = true) (k : Nat) (bs : List Byte) (j : Nat)
    (h : j < k ∨ k + bs.length ≤ j) : memGet (memPutBytes m k bs) j = memGet m j := by
  induction bs generalizing m k with
  | nil => rfl
  | cons b r ih =>
    simp only [List.length_cons] at h
    rw [memPutBytes, ih (Memory.wf_memPut hm _ _) _ (by omega), memGet_memPut hm, if_neg (by omega)]

/-- Bytes that are written read back. -/
theorem memGet_memPutBytes_in {m : List Host.Cell} (hm : Memory.wf m = true) (k : Nat) (bs : List Byte) (i : Nat) (h : i < bs.length) :
    memGet (memPutBytes m k bs) (k + i) = bs[i] := by
  induction bs generalizing m k i with
  | nil => simp at h
  | cons b r ih =>
    cases i with
    | zero =>
      rw [memPutBytes, memGet_memPutBytes_out (Memory.wf_memPut hm _ _) _ _ _ (by omega), memGet_memPut hm]
      simp
    | succ i =>
      rw [memPutBytes, show k + (i + 1) = k + 1 + i by omega, ih (Memory.wf_memPut hm _ _) _ _ (by simpa using h)]
      simp

/-- Bytes in little-endian order read as their number (R6). -/
theorem memRead_of_bytes {m : List Host.Cell} {k n v : Nat} (h : ∀ i < n, memGet m (k + i) = BitVec.ofNat 8 (v / 256 ^ i)) :
    memRead m k n = v % 256 ^ n := by
  induction n generalizing k v with
  | zero => simp [memRead, Nat.mod_one]
  | succ n ih =>
    have h0 := h 0 (by omega)
    rw [memRead, ih (k := k + 1) (v := v / 256) fun i hi => by
        have := h (i + 1) (by omega)
        rw [Nat.pow_succ, Nat.mul_comm, ← Nat.div_div_eq_div_mul] at this
        rwa [Nat.add_assoc, Nat.add_comm 1 i]]
    rw [show 256 ^ (n + 1) = 256 * 256 ^ n by rw [Nat.pow_succ, Nat.mul_comm], Nat.mod_mul,
      show memGet m k = BitVec.ofNat 8 v by simpa using h0]
    simp [BitVec.toNat_ofNat]

@[simp] theorem bytesOf_length (k n : Nat) : (bytesOf k n).length = k := by
  induction k generalizing n with
  | zero => rfl
  | succ k ih => simp [bytesOf, ih]

theorem bytesOf_get (k n i : Nat) (h : i < (bytesOf k n).length) : (bytesOf k n)[i] = n / 256 ^ i % 256 := by
  induction k generalizing n i with
  | zero => simp [bytesOf] at h
  | succ k ih =>
    cases i with
    | zero => simp [bytesOf]
    | succ i => simp [bytesOf, ih, Nat.pow_succ, Nat.mul_comm, Nat.div_div_eq_div_mul]

/-! ### Writing an image -/

theorem State.writePieces_frame (k : Nat) (l : List Piece) (hl : ∀ c ∈ l, c.1 + c.2.length ≤ entrySize) (s : State) (hs : s.Safe)
    (j : Nat) (h : j < k ∨ k + entrySize ≤ j) :
    memGet (l.foldl (fun s (c : Piece) => s.writeBytes (k + c.1) c.2) s).mem j = memGet s.mem j := by
  induction l generalizing s with
  | nil => rfl
  | cons c r ih =>
    have hc := hl c (by simp)
    rw [List.foldl_cons, ih (fun c h => hl c (by simp [h])) _ (State.writeBytes_safe _ _ _ hs)]
    exact memGet_memPutBytes_out hs _ _ _ (by simp only [List.length_map]; omega)

/-- Nothing outside the entry changes. -/
theorem State.writeImage_frame (s : State) (hs : s.Safe) (addr : W64) (l : List Piece) (j : Nat)
    (h : j < entryKey addr ∨ entryKey addr + entrySize ≤ j) : memGet (s.writeImage addr l).mem j = memGet s.mem j := by
  unfold State.writeImage
  rw [State.writePieces_frame _ _ (fun c h => by simpa using (List.mem_filter.mp h).2)]
  · exact memGet_memClear_out _ _ _ _ h
  · exact Memory.wf_memClear hs _ _
  · exact h

/-- The last piece reads back. -/
theorem State.writeImage_last (s : State) (hs : s.Safe) (addr : W64) (l : List Piece) (off : Nat) (bs : Bytes)
    (h : off + bs.length ≤ entrySize) (i : Nat) (hi : i < bs.length) :
    memGet (s.writeImage addr (l ++ [(off, bs)])).mem (entryKey addr + off + i) = BitVec.ofNat 8 bs[i] := by
  unfold State.writeImage
  rw [List.filter_append, List.foldl_append, List.filter_cons_of_pos (by simpa using h)]
  simp only [List.filter_nil, List.foldl_cons, List.foldl_nil]
  refine (memGet_memPutBytes_in ?_ _ _ i (by simpa using hi)).trans (by simp)
  exact safe_foldl (fun _ _ h => State.writeBytes_safe _ _ _ h) _ (Memory.wf_memClear hs _ _)

@[simp] theorem wordBytes_length (w : W64) : (wordBytes w).length = 8 := bytesOf_length ..
@[simp] theorem unlaidBytes_length (xs : List Nat) (n : Nat) : (unlaidBytes xs n).length = n := by
  simp only [unlaidBytes, List.length_map, List.length_range]
theorem length_flatMap_const {α β : Type} (l : List α) (f : α → List β) (n : Nat) (h : ∀ x ∈ l, (f x).length = n) :
    (l.flatMap f).length = n * l.length := by
  induction l with
  | nil => rfl
  | cons a r ih =>
    rw [List.flatMap_cons, List.length_append, h a (by simp), ih fun x hx => h x (by simp [hx]), List.length_cons]
    rw [Nat.mul_add, Nat.mul_one, Nat.add_comm]

/-- The check of a header whose CRC field has just been written (R364). -/
theorem State.imageGood_writeMem (s : State) (hs : s.Safe) (addr : W64) (v : Nat) :
    (s.writeMem (entryKey addr + 0xFFC) 4 v).imageGood addr =
      (v % 2 ^ 32 == (crc32c (s.readBytes (entryKey addr) 0xFFC)).toNat) := by
  have h : (s.writeMem (entryKey addr + 0xFFC) 4 v).readBytes (entryKey addr) 0xFFC = s.readBytes (entryKey addr) 0xFFC := by
    unfold State.readBytes memBytes
    refine congrArg _ (List.map_inj_left.mpr fun i hi => ?_)
    exact memGet_memWrite_out hs _ _ _ _ (by have := List.mem_range.mp hi; omega)
  have hr : (s.writeMem (entryKey addr + 0xFFC) 4 v).readMem (entryKey addr + 0xFFC) 4 = v % 2 ^ 32 :=
    memRead_memWrite_same hs _ _ _
  unfold State.imageGood
  rw [h, hr]

theorem Slot.controlBytes_length (x : Slot) : x.controlBytes.length = 192 := by
  have h := length_flatMap_const (List.range 4) (fun i => bytesOf 4 (x.getMl i).toNat) 4 fun _ _ => bytesOf_length ..
  simp only [Slot.controlBytes, stackBytes, List.length_append, wordBytes_length, unlaidBytes_length, h, List.length_range]

theorem padTo_length (n : Nat) (bs : Bytes) (h : bs.length ≤ n) : (padTo n bs).length = n := by
  simp only [padTo, List.length_append, List.length_replicate]; omega

/-- The header is 4 KiB less its CRC. -/
theorem Slot.headerBytes_length (x : Slot) : x.headerBytes.length = 0xFFC := by
  have h1 := length_flatMap_const (List.range 4) (fun i => (x.getA (BitVec.ofNat 2 i)).stateBytes) 8 fun _ _ => unlaidBytes_length ..
  have h2 := length_flatMap_const (List.range 16) (fun i => wordBytes (x.getT (BitVec.ofNat 4 i)).image) 8 fun _ _ => wordBytes_length _
  unfold Slot.headerBytes
  refine padTo_length _ _ ?_
  simp only [List.length_append, wordBytes_length, Slot.controlBytes_length, h1, h2, List.length_range, bytesOf_length]
  decide

/-- A field of the header of an image that has been written reads as the header's bytes say. -/
theorem State.readMem_writeImage (s : State) (hs : s.Safe) (addr : W64) (x : Slot) (cs : List Cell) (bs : List Host.Cell)
    (off n v : Nat) (ho : off + n ≤ 0x1000)
    (h : ∀ i < n, (x.headerBytes ++ bytesOf 4 (crc32c x.headerBytes).toNat)[off + i]? = some (v / 256 ^ i % 256)) :
    (s.writeImage addr (x.image cs bs)).readMem (entryKey addr + off) n = v % 256 ^ n := by
  refine memRead_of_bytes fun i hi => ?_
  have hl : (x.headerBytes ++ bytesOf 4 (crc32c x.headerBytes).toNat).length = 0x1000 := by
    rw [List.length_append, Slot.headerBytes_length, bytesOf_length]
  have hr := State.writeImage_last s hs addr (x.zones cs bs) 0 _ (by rw [hl]; decide) (off + i) (by rw [hl]; omega)
  rw [Nat.add_zero, ← Nat.add_assoc] at hr
  have hv := h i hi
  rw [List.getElem?_eq_getElem (by rw [hl]; omega)] at hv
  refine hr.trans ?_
  rw [Option.some.inj hv]
  apply BitVec.eq_of_toNat_eq
  simp

end Sys2Proof.Machine
end

