-- ==== Sys2Proof/Laws/PerInstr.lean ====
section
/-! SUPPORT. Lemmas per instruction: what the encoder gives a well-formed instruction decodes to it (R26–R45). -/

set_option Elab.async false

set_option linter.unusedSimpArgs false

namespace Sys2Proof.Laws.RoundTrip

def Statement (i : Instr) : Prop := Sys2Proof.RoundTrip i

theorem illegalWord (why : Defect) : Statement (.illegalWord why) := Sys2Proof.RoundTrip.event fun _ => rfl
theorem add (d : SReg) (a : SReg) (b : SReg) : Statement (.add d a b) := by
  refine Sys2Proof.RoundTrip.plain 0 0x01 (PS3.toBits ⟨d, a, b, 0⟩) 0 0x01 (by decide) rfl rfl (fun _ => rfl) rfl fun hw => ?_
  rw [decodeUnit_0, PS3.of_toBits]
  simp only [decodeU0]
  first | rfl | exact chk_eq rfl hw | (simp [cat_hi, cat_lo]; done) | (simp [cat_hi, cat_lo]; exact chk_eq rfl hw)
theorem sub (d : SReg) (a : SReg) (b : SReg) : Statement (.sub d a b) := by
  refine Sys2Proof.RoundTrip.plain 0 0x02 (PS3.toBits ⟨d, a, b, 0⟩) 0 0x02 (by decide) rfl rfl (fun _ => rfl) rfl fun hw => ?_
  rw [decodeUnit_0, PS3.of_toBits]
  simp only [decodeU0]
  first | rfl | exact chk_eq rfl hw | (simp [cat_hi, cat_lo]; done) | (simp [cat_hi, cat_lo]; exact chk_eq rfl hw)
theorem mul (d : SReg) (a : SReg) (b : SReg) : Statement (.mul d a b) := by
  refine Sys2Proof.RoundTrip.plain 0 0x03 (PS3.toBits ⟨d, a, b, 0⟩) 0 0x03 (by decide) rfl rfl (fun _ => rfl) rfl fun hw => ?_
  rw [decodeUnit_0, PS3.of_toBits]
  simp only [decodeU0]
  first | rfl | exact chk_eq rfl hw | (simp [cat_hi, cat_lo]; done) | (simp [cat_hi, cat_lo]; exact chk_eq rfl hw)
theorem mulh (d : SReg) (a : SReg) (b : SReg) : Statement (.mulh d a b) := by
  refine Sys2Proof.RoundTrip.plain 0 0x04 (PS3.toBits ⟨d, a, b, 0⟩) 0 0x04 (by decide) rfl rfl (fun _ => rfl) rfl fun hw => ?_
  rw [decodeUnit_0, PS3.of_toBits]
  simp only [decodeU0]
  first | rfl | exact chk_eq rfl hw | (simp [cat_hi, cat_lo]; done) | (simp [cat_hi, cat_lo]; exact chk_eq rfl hw)
theorem div (d : SReg) (a : SReg) (b : SReg) : Statement (.div d a b) := by
  refine Sys2Proof.RoundTrip.plain 0 0x05 (PS3.toBits ⟨d, a, b, 0⟩) 0 0x05 (by decide) rfl rfl (fun _ => rfl) rfl fun hw => ?_
  rw [decodeUnit_0, PS3.of_toBits]
  simp only [decodeU0]
  first | rfl | exact chk_eq rfl hw | (simp [cat_hi, cat_lo]; done) | (simp [cat_hi, cat_lo]; exact chk_eq rfl hw)
theorem divu (d : SReg) (a : SReg) (b : SReg) : Statement (.divu d a b) := by
  refine Sys2Proof.RoundTrip.plain 0 0x06 (PS3.toBits ⟨d, a, b, 0⟩) 0 0x06 (by decide) rfl rfl (fun _ => rfl) rfl fun hw => ?_
  rw [decodeUnit_0, PS3.of_toBits]
  simp only [decodeU0]
  first | rfl | exact chk_eq rfl hw | (simp [cat_hi, cat_lo]; done) | (simp [cat_hi, cat_lo]; exact chk_eq rfl hw)
theorem rem (d : SReg) (a : SReg) (b : SReg) : Statement (.rem d a b) := by
  refine Sys2Proof.RoundTrip.plain 0 0x07 (PS3.toBits ⟨d, a, b, 0⟩) 0 0x07 (by decide) rfl rfl (fun _ => rfl) rfl fun hw => ?_
  rw [decodeUnit_0, PS3.of_toBits]
  simp only [decodeU0]
  first | rfl | exact chk_eq rfl hw | (simp [cat_hi, cat_lo]; done) | (simp [cat_hi, cat_lo]; exact chk_eq rfl hw)
theorem remu (d : SReg) (a : SReg) (b : SReg) : Statement (.remu d a b) := by
  refine Sys2Proof.RoundTrip.plain 0 0x08 (PS3.toBits ⟨d, a, b, 0⟩) 0 0x08 (by decide) rfl rfl (fun _ => rfl) rfl fun hw => ?_
  rw [decodeUnit_0, PS3.of_toBits]
  simp only [decodeU0]
  first | rfl | exact chk_eq rfl hw | (simp [cat_hi, cat_lo]; done) | (simp [cat_hi, cat_lo]; exact chk_eq rfl hw)
theorem and (d : SReg) (a : SReg) (b : SReg) : Statement (.and d a b) := by
  refine Sys2Proof.RoundTrip.plain 0 0x10 (PS3.toBits ⟨d, a, b, 0⟩) 0 0x10 (by decide) rfl rfl (fun _ => rfl) rfl fun hw => ?_
  rw [decodeUnit_0, PS3.of_toBits]
  simp only [decodeU0]
  first | rfl | exact chk_eq rfl hw | (simp [cat_hi, cat_lo]; done) | (simp [cat_hi, cat_lo]; exact chk_eq rfl hw)
theorem or (d : SReg) (a : SReg) (b : SReg) : Statement (.or d a b) := by
  refine Sys2Proof.RoundTrip.plain 0 0x11 (PS3.toBits ⟨d, a, b, 0⟩) 0 0x11 (by decide) rfl rfl (fun _ => rfl) rfl fun hw => ?_
  rw [decodeUnit_0, PS3.of_toBits]
  simp only [decodeU0]
  first | rfl | exact chk_eq rfl hw | (simp [cat_hi, cat_lo]; done) | (simp [cat_hi, cat_lo]; exact chk_eq rfl hw)
theorem xor (d : SReg) (a : SReg) (b : SReg) : Statement (.xor d a b) := by
  refine Sys2Proof.RoundTrip.plain 0 0x12 (PS3.toBits ⟨d, a, b, 0⟩) 0 0x12 (by decide) rfl rfl (fun _ => rfl) rfl fun hw => ?_
  rw [decodeUnit_0, PS3.of_toBits]
  simp only [decodeU0]
  first | rfl | exact chk_eq rfl hw | (simp [cat_hi, cat_lo]; done) | (simp [cat_hi, cat_lo]; exact chk_eq rfl hw)
theorem shl (d : SReg) (a : SReg) (b : SReg) : Statement (.shl d a b) := by
  refine Sys2Proof.RoundTrip.plain 0 0x18 (PS3.toBits ⟨d, a, b, 0⟩) 0 0x18 (by decide) rfl rfl (fun _ => rfl) rfl fun hw => ?_
  rw [decodeUnit_0, PS3.of_toBits]
  simp only [decodeU0]
  first | rfl | exact chk_eq rfl hw | (simp [cat_hi, cat_lo]; done) | (simp [cat_hi, cat_lo]; exact chk_eq rfl hw)
theorem shr (d : SReg) (a : SReg) (b : SReg) : Statement (.shr d a b) := by
  refine Sys2Proof.RoundTrip.plain 0 0x19 (PS3.toBits ⟨d, a, b, 0⟩) 0 0x19 (by decide) rfl rfl (fun _ => rfl) rfl fun hw => ?_
  rw [decodeUnit_0, PS3.of_toBits]
  simp only [decodeU0]
  first | rfl | exact chk_eq rfl hw | (simp [cat_hi, cat_lo]; done) | (simp [cat_hi, cat_lo]; exact chk_eq rfl hw)
theorem sar (d : SReg) (a : SReg) (b : SReg) : Statement (.sar d a b) := by
  refine Sys2Proof.RoundTrip.plain 0 0x1A (PS3.toBits ⟨d, a, b, 0⟩) 0 0x1A (by decide) rfl rfl (fun _ => rfl) rfl fun hw => ?_
  rw [decodeUnit_0, PS3.of_toBits]
  simp only [decodeU0]
  first | rfl | exact chk_eq rfl hw | (simp [cat_hi, cat_lo]; done) | (simp [cat_hi, cat_lo]; exact chk_eq rfl hw)
theorem min (d : SReg) (a : SReg) (b : SReg) : Statement (.min d a b) := by
  refine Sys2Proof.RoundTrip.plain 0 0x20 (PS3.toBits ⟨d, a, b, 0⟩) 0 0x20 (by decide) rfl rfl (fun _ => rfl) rfl fun hw => ?_
  rw [decodeUnit_0, PS3.of_toBits]
  simp only [decodeU0]
  first | rfl | exact chk_eq rfl hw | (simp [cat_hi, cat_lo]; done) | (simp [cat_hi, cat_lo]; exact chk_eq rfl hw)
theorem max (d : SReg) (a : SReg) (b : SReg) : Statement (.max d a b) := by
  refine Sys2Proof.RoundTrip.plain 0 0x21 (PS3.toBits ⟨d, a, b, 0⟩) 0 0x21 (by decide) rfl rfl (fun _ => rfl) rfl fun hw => ?_
  rw [decodeUnit_0, PS3.of_toBits]
  simp only [decodeU0]
  first | rfl | exact chk_eq rfl hw | (simp [cat_hi, cat_lo]; done) | (simp [cat_hi, cat_lo]; exact chk_eq rfl hw)
theorem minu (d : SReg) (a : SReg) (b : SReg) : Statement (.minu d a b) := by
  refine Sys2Proof.RoundTrip.plain 0 0x22 (PS3.toBits ⟨d, a, b, 0⟩) 0 0x22 (by decide) rfl rfl (fun _ => rfl) rfl fun hw => ?_
  rw [decodeUnit_0, PS3.of_toBits]
  simp only [decodeU0]
  first | rfl | exact chk_eq rfl hw | (simp [cat_hi, cat_lo]; done) | (simp [cat_hi, cat_lo]; exact chk_eq rfl hw)
theorem maxu (d : SReg) (a : SReg) (b : SReg) : Statement (.maxu d a b) := by
  refine Sys2Proof.RoundTrip.plain 0 0x23 (PS3.toBits ⟨d, a, b, 0⟩) 0 0x23 (by decide) rfl rfl (fun _ => rfl) rfl fun hw => ?_
  rw [decodeUnit_0, PS3.of_toBits]
  simp only [decodeU0]
  first | rfl | exact chk_eq rfl hw | (simp [cat_hi, cat_lo]; done) | (simp [cat_hi, cat_lo]; exact chk_eq rfl hw)
theorem slt (d : SReg) (a : SReg) (b : SReg) : Statement (.slt d a b) := by
  refine Sys2Proof.RoundTrip.plain 0 0x28 (PS3.toBits ⟨d, a, b, 0⟩) 0 0x28 (by decide) rfl rfl (fun _ => rfl) rfl fun hw => ?_
  rw [decodeUnit_0, PS3.of_toBits]
  simp only [decodeU0]
  first | rfl | exact chk_eq rfl hw | (simp [cat_hi, cat_lo]; done) | (simp [cat_hi, cat_lo]; exact chk_eq rfl hw)
theorem sltu (d : SReg) (a : SReg) (b : SReg) : Statement (.sltu d a b) := by
  refine Sys2Proof.RoundTrip.plain 0 0x29 (PS3.toBits ⟨d, a, b, 0⟩) 0 0x29 (by decide) rfl rfl (fun _ => rfl) rfl fun hw => ?_
  rw [decodeUnit_0, PS3.of_toBits]
  simp only [decodeU0]
  first | rfl | exact chk_eq rfl hw | (simp [cat_hi, cat_lo]; done) | (simp [cat_hi, cat_lo]; exact chk_eq rfl hw)
theorem clz (d : SReg) (a : SReg) : Statement (.clz d a) := by
  refine Sys2Proof.RoundTrip.plain 0 0x30 (PS3.toBits ⟨d, a, 0, 0⟩) 0 0x30 (by decide) rfl rfl (fun _ => rfl) rfl fun hw => ?_
  rw [decodeUnit_0, PS3.of_toBits]
  simp only [decodeU0]
  first | rfl | exact chk_eq rfl hw | (simp [cat_hi, cat_lo]; done) | (simp [cat_hi, cat_lo]; exact chk_eq rfl hw)
theorem popc (d : SReg) (a : SReg) : Statement (.popc d a) := by
  refine Sys2Proof.RoundTrip.plain 0 0x31 (PS3.toBits ⟨d, a, 0, 0⟩) 0 0x31 (by decide) rfl rfl (fun _ => rfl) rfl fun hw => ?_
  rw [decodeUnit_0, PS3.of_toBits]
  simp only [decodeU0]
  first | rfl | exact chk_eq rfl hw | (simp [cat_hi, cat_lo]; done) | (simp [cat_hi, cat_lo]; exact chk_eq rfl hw)
theorem addi (d : SReg) (a : SReg) (x : W64) : Statement (.addi d a x) := by
  refine Sys2Proof.RoundTrip.prefixed (i0 := .addi d a ((x.extractLsb' 0 36).signExtend 64)) 1 0x00 (PSI.toBits ⟨d, a, x.extractLsb' 0 36⟩) 1 0x00 (by decide) rfl rfl (fun _ => rfl) (fun hw => ?_) fun hw => ?_
  · rw [decodeUnit_1, PSI.of_toBits]
    rfl
  · rcases needFull_cases x with ⟨hn, he⟩ | ⟨q, hn, he⟩
    · exact .inl ⟨hn, by rw [he]⟩
    · exact .inr ⟨_, _, hn, isPfx_pfxWord (by decide), decodePfx_imm _, (congrArg (Option.map (Instr.addi d a)) he).trans rfl⟩
theorem muli (d : SReg) (a : SReg) (x : W64) : Statement (.muli d a x) := by
  refine Sys2Proof.RoundTrip.prefixed (i0 := .muli d a ((x.extractLsb' 0 36).signExtend 64)) 1 0x01 (PSI.toBits ⟨d, a, x.extractLsb' 0 36⟩) 1 0x01 (by decide) rfl rfl (fun _ => rfl) (fun hw => ?_) fun hw => ?_
  · rw [decodeUnit_1, PSI.of_toBits]
    rfl
  · rcases needFull_cases x with ⟨hn, he⟩ | ⟨q, hn, he⟩
    · exact .inl ⟨hn, by rw [he]⟩
    · exact .inr ⟨_, _, hn, isPfx_pfxWord (by decide), decodePfx_imm _, (congrArg (Option.map (Instr.muli d a)) he).trans rfl⟩
theorem andi (d : SReg) (a : SReg) (x : W64) : Statement (.andi d a x) := by
  refine Sys2Proof.RoundTrip.prefixed (i0 := .andi d a ((x.extractLsb' 0 36).signExtend 64)) 1 0x08 (PSI.toBits ⟨d, a, x.extractLsb' 0 36⟩) 1 0x08 (by decide) rfl rfl (fun _ => rfl) (fun hw => ?_) fun hw => ?_
  · rw [decodeUnit_1, PSI.of_toBits]
    rfl
  · rcases needFull_cases x with ⟨hn, he⟩ | ⟨q, hn, he⟩
    · exact .inl ⟨hn, by rw [he]⟩
    · exact .inr ⟨_, _, hn, isPfx_pfxWord (by decide), decodePfx_imm _, (congrArg (Option.map (Instr.andi d a)) he).trans rfl⟩
theorem ori (d : SReg) (a : SReg) (x : W64) : Statement (.ori d a x) := by
  refine Sys2Proof.RoundTrip.prefixed (i0 := .ori d a ((x.extractLsb' 0 36).signExtend 64)) 1 0x09 (PSI.toBits ⟨d, a, x.extractLsb' 0 36⟩) 1 0x09 (by decide) rfl rfl (fun _ => rfl) (fun hw => ?_) fun hw => ?_
  · rw [decodeUnit_1, PSI.of_toBits]
    rfl
  · rcases needFull_cases x with ⟨hn, he⟩ | ⟨q, hn, he⟩
    · exact .inl ⟨hn, by rw [he]⟩
    · exact .inr ⟨_, _, hn, isPfx_pfxWord (by decide), decodePfx_imm _, (congrArg (Option.map (Instr.ori d a)) he).trans rfl⟩
theorem xori (d : SReg) (a : SReg) (x : W64) : Statement (.xori d a x) := by
  refine Sys2Proof.RoundTrip.prefixed (i0 := .xori d a ((x.extractLsb' 0 36).signExtend 64)) 1 0x0A (PSI.toBits ⟨d, a, x.extractLsb' 0 36⟩) 1 0x0A (by decide) rfl rfl (fun _ => rfl) (fun hw => ?_) fun hw => ?_
  · rw [decodeUnit_1, PSI.of_toBits]
    rfl
  · rcases needFull_cases x with ⟨hn, he⟩ | ⟨q, hn, he⟩
    · exact .inl ⟨hn, by rw [he]⟩
    · exact .inr ⟨_, _, hn, isPfx_pfxWord (by decide), decodePfx_imm _, (congrArg (Option.map (Instr.xori d a)) he).trans rfl⟩
theorem shli (d : SReg) (a : SReg) (n : BitVec 6) : Statement (.shli d a n) := by
  refine Sys2Proof.RoundTrip.plain 1 0x10 (PSI.toBits ⟨d, a, cat 36 0#30 n⟩) 1 0x10 (by decide) rfl rfl (fun _ => rfl) rfl fun hw => ?_
  rw [decodeUnit_1, PSI.of_toBits]
  simp only [decodeU1]
  first | rfl | exact chk_eq rfl hw | (simp [cat_hi, cat_lo]; done) | (simp [cat_hi, cat_lo]; exact chk_eq rfl hw)
theorem shri (d : SReg) (a : SReg) (n : BitVec 6) : Statement (.shri d a n) := by
  refine Sys2Proof.RoundTrip.plain 1 0x11 (PSI.toBits ⟨d, a, cat 36 0#30 n⟩) 1 0x11 (by decide) rfl rfl (fun _ => rfl) rfl fun hw => ?_
  rw [decodeUnit_1, PSI.of_toBits]
  simp only [decodeU1]
  first | rfl | exact chk_eq rfl hw | (simp [cat_hi, cat_lo]; done) | (simp [cat_hi, cat_lo]; exact chk_eq rfl hw)
theorem sari (d : SReg) (a : SReg) (n : BitVec 6) : Statement (.sari d a n) := by
  refine Sys2Proof.RoundTrip.plain 1 0x12 (PSI.toBits ⟨d, a, cat 36 0#30 n⟩) 1 0x12 (by decide) rfl rfl (fun _ => rfl) rfl fun hw => ?_
  rw [decodeUnit_1, PSI.of_toBits]
  simp only [decodeU1]
  first | rfl | exact chk_eq rfl hw | (simp [cat_hi, cat_lo]; done) | (simp [cat_hi, cat_lo]; exact chk_eq rfl hw)
theorem slti (d : SReg) (a : SReg) (x : W64) : Statement (.slti d a x) := by
  refine Sys2Proof.RoundTrip.prefixed (i0 := .slti d a ((x.extractLsb' 0 36).signExtend 64)) 1 0x18 (PSI.toBits ⟨d, a, x.extractLsb' 0 36⟩) 1 0x18 (by decide) rfl rfl (fun _ => rfl) (fun hw => ?_) fun hw => ?_
  · rw [decodeUnit_1, PSI.of_toBits]
    rfl
  · rcases needFull_cases x with ⟨hn, he⟩ | ⟨q, hn, he⟩
    · exact .inl ⟨hn, by rw [he]⟩
    · exact .inr ⟨_, _, hn, isPfx_pfxWord (by decide), decodePfx_imm _, (congrArg (Option.map (Instr.slti d a)) he).trans rfl⟩
theorem sltiu (d : SReg) (a : SReg) (x : W64) : Statement (.sltiu d a x) := by
  refine Sys2Proof.RoundTrip.prefixed (i0 := .sltiu d a ((x.extractLsb' 0 36).signExtend 64)) 1 0x19 (PSI.toBits ⟨d, a, x.extractLsb' 0 36⟩) 1 0x19 (by decide) rfl rfl (fun _ => rfl) (fun hw => ?_) fun hw => ?_
  · rw [decodeUnit_1, PSI.of_toBits]
    rfl
  · rcases needFull_cases x with ⟨hn, he⟩ | ⟨q, hn, he⟩
    · exact .inl ⟨hn, by rw [he]⟩
    · exact .inr ⟨_, _, hn, isPfx_pfxWord (by decide), decodePfx_imm _, (congrArg (Option.map (Instr.sltiu d a)) he).trans rfl⟩
theorem li (d : SReg) (x : W64) : Statement (.li d x) := by
  refine Sys2Proof.RoundTrip.prefixed (i0 := .li d ((x.extractLsb' 0 36).signExtend 64)) 1 0x20 (PSI.toBits ⟨d, 0, x.extractLsb' 0 36⟩) 1 0x20 (by decide) rfl rfl (fun _ => rfl) (fun hw => ?_) fun hw => ?_
  · rw [decodeUnit_1, PSI.of_toBits]
    exact chk_eq rfl rfl
  · rcases needFull_cases x with ⟨hn, he⟩ | ⟨q, hn, he⟩
    · exact .inl ⟨hn, by rw [he]⟩
    · exact .inr ⟨_, _, hn, isPfx_pfxWord (by decide), decodePfx_imm _, (congrArg (Option.map (Instr.li d)) he).trans rfl⟩
theorem bfx (d : SReg) (a : SReg) (pos : BitVec 6) (l : BitVec 6) : Statement (.bfx d a pos l) := by
  refine Sys2Proof.RoundTrip.plain 1 0x28 (PSI.toBits ⟨d, a, cat 36 l pos⟩) 1 0x28 (by decide) rfl rfl (fun _ => rfl) rfl fun hw => ?_
  rw [decodeUnit_1, PSI.of_toBits]
  simp only [decodeU1]
  simp [cat_hi, cat_lo]
  exact chk_eq (by first | rfl | rw [extract_beyond l]; rfl) hw
theorem bfi (d : SReg) (a : SReg) (pos : BitVec 6) (l : BitVec 6) : Statement (.bfi d a pos l) := by
  refine Sys2Proof.RoundTrip.plain 1 0x29 (PSI.toBits ⟨d, a, cat 36 l pos⟩) 1 0x29 (by decide) rfl rfl (fun _ => rfl) rfl fun hw => ?_
  rw [decodeUnit_1, PSI.of_toBits]
  simp only [decodeU1]
  simp [cat_hi, cat_lo]
  exact chk_eq (by first | rfl | rw [extract_beyond l]; rfl) hw
theorem mka (d : SReg) (a : SReg) (h : BitVec 7) : Statement (.mka d a h) := by
  refine Sys2Proof.RoundTrip.plain 1 0x30 (PSI.toBits ⟨d, a, cat 36 0#29 h⟩) 1 0x30 (by decide) rfl rfl (fun _ => rfl) rfl fun hw => ?_
  rw [decodeUnit_1, PSI.of_toBits]
  simp only [decodeU1]
  first | rfl | exact chk_eq rfl hw | (simp [cat_hi, cat_lo]; done) | (simp [cat_hi, cat_lo]; exact chk_eq rfl hw)
theorem br (c : Cond) (a : SReg) (b : SReg) (o : W32) : Statement (.br c a b o) := by
  refine Sys2Proof.RoundTrip.plain 2 0x00 (PB.toBits ⟨a, b, c.code, o⟩) 2 0x00 (by decide) rfl rfl (fun _ => rfl) rfl fun hw => ?_
  rw [decodeUnit_2, PB.of_toBits]
  simp only [decodeU2, Cond.ofCode_code, Option.map_some]
theorem bqT (q : QReg) (o : W32) : Statement (.bqT q o) := by
  refine Sys2Proof.RoundTrip.plain 2 0x01 (PB.toBits ⟨cat 6 0#3 q, 0, 0, o⟩) 2 0x01 (by decide) rfl rfl (fun _ => rfl) rfl fun hw => ?_
  rw [decodeUnit_2, PB.of_toBits]
  simp only [decodeU2]
  first | rfl | exact chk_eq rfl hw | (simp [cat_hi, cat_lo]; done) | (simp [cat_hi, cat_lo]; exact chk_eq rfl hw)
theorem bqF (q : QReg) (o : W32) : Statement (.bqF q o) := by
  refine Sys2Proof.RoundTrip.plain 2 0x02 (PB.toBits ⟨cat 6 0#3 q, 0, 0, o⟩) 2 0x02 (by decide) rfl rfl (fun _ => rfl) rfl fun hw => ?_
  rw [decodeUnit_2, PB.of_toBits]
  simp only [decodeU2]
  first | rfl | exact chk_eq rfl hw | (simp [cat_hi, cat_lo]; done) | (simp [cat_hi, cat_lo]; exact chk_eq rfl hw)
theorem jmp (o : W32) : Statement (.jmp o) := by
  refine Sys2Proof.RoundTrip.plain 2 0x03 (PB.toBits ⟨0, 0, 0, o⟩) 2 0x03 (by decide) rfl rfl (fun _ => rfl) rfl fun hw => ?_
  rw [decodeUnit_2, PB.of_toBits]
  simp only [decodeU2]
  first | rfl | exact chk_eq rfl hw | (simp [cat_hi, cat_lo]; done) | (simp [cat_hi, cat_lo]; exact chk_eq rfl hw)
theorem jmpr (a : SReg) : Statement (.jmpr a) := by
  refine Sys2Proof.RoundTrip.plain 2 0x04 (PS3.toBits ⟨0, a, 0, 0⟩) 2 0x04 (by decide) rfl rfl (fun _ => rfl) rfl fun hw => ?_
  rw [decodeUnit_2, PS3.of_toBits]
  simp only [decodeU2]
  first | rfl | exact chk_eq rfl hw | (simp [cat_hi, cat_lo]; done) | (simp [cat_hi, cat_lo]; exact chk_eq rfl hw)
theorem call (o : W32) : Statement (.call o) := by
  refine Sys2Proof.RoundTrip.plain 2 0x05 (PB.toBits ⟨0, 0, 0, o⟩) 2 0x05 (by decide) rfl rfl (fun _ => rfl) rfl fun hw => ?_
  rw [decodeUnit_2, PB.of_toBits]
  simp only [decodeU2]
  first | rfl | exact chk_eq rfl hw | (simp [cat_hi, cat_lo]; done) | (simp [cat_hi, cat_lo]; exact chk_eq rfl hw)
theorem callr (a : SReg) : Statement (.callr a) := by
  refine Sys2Proof.RoundTrip.plain 2 0x06 (PS3.toBits ⟨0, a, 0, 0⟩) 2 0x06 (by decide) rfl rfl (fun _ => rfl) rfl fun hw => ?_
  rw [decodeUnit_2, PS3.of_toBits]
  simp only [decodeU2]
  first | rfl | exact chk_eq rfl hw | (simp [cat_hi, cat_lo]; done) | (simp [cat_hi, cat_lo]; exact chk_eq rfl hw)
theorem ret : Statement .ret := Sys2Proof.RoundTrip.plain 2 0x07 0 2 0x07 (by decide) rfl rfl (fun _ => rfl) rfl fun _ => rfl
theorem loop (a : SReg) (n : BitVec 7) : Statement (.loop a n) := by
  refine Sys2Proof.RoundTrip.plain 2 0x08 (PSI.toBits ⟨0, a, cat 36 0#29 n⟩) 2 0x08 (by decide) rfl rfl (fun _ => rfl) rfl fun hw => ?_
  rw [decodeUnit_2, PSI.of_toBits]
  simp only [decodeU2]
  first | rfl | exact chk_eq rfl hw | (simp [cat_hi, cat_lo]; done) | (simp [cat_hi, cat_lo]; exact chk_eq rfl hw)
theorem loopP (a : SReg) (n : BitVec 7) (x2 : BitVec 3) : Statement (.loopP a n x2) := by
  refine Sys2Proof.RoundTrip.prefixed (i0 := .loopP a n 0) 2 0x09 (PSI.toBits ⟨0, a, cat 36 0#29 n⟩) 2 0x09 (by decide) rfl rfl (fun _ => rfl) (fun hw => ?_) fun hw => ?_
  · rw [decodeUnit_2, PSI.of_toBits]
    simp only [decodeU2]
    simp [cat_hi, cat_lo]
    exact chk_eq rfl hw
  · by_cases h : x2 = 0
    · exact .inl ⟨if_pos h, by rw [h]⟩
    · exact .inr ⟨_, _, if_neg h, isPfx_pfxWord (by decide), decodePfx_epi _, rfl⟩
theorem loopi (c : BitVec 24) (n : BitVec 7) : Statement (.loopi c n) := by
  refine Sys2Proof.RoundTrip.plain 2 0x0A (PSI.toBits ⟨0, 0, cat 36 (cat 29 c 0#5) n⟩) 2 0x0A (by decide) rfl rfl (fun _ => rfl) rfl fun hw => ?_
  rw [decodeUnit_2, PSI.of_toBits]
  simp only [decodeU2]
  first | rfl | exact chk_eq rfl hw | (simp [cat_hi, cat_lo]; done) | (simp [cat_hi, cat_lo]; exact chk_eq rfl hw)
theorem qset (c : Cond) (q : QReg) (a : SReg) (b : SReg) : Statement (.qset c q a b) := by
  refine Sys2Proof.RoundTrip.plain 2 0x0B (PB.toBits ⟨a, b, c.code, cat 32 0#29 q⟩) 2 0x0B (by decide) rfl rfl (fun _ => rfl) rfl fun hw => ?_
  rw [decodeUnit_2, PB.of_toBits]
  simp only [decodeU2, Cond.ofCode_code, Option.bind_some]
  first | rfl | exact chk_eq rfl hw | (simp [cat_hi, cat_lo]; done) | (simp [cat_hi, cat_lo]; exact chk_eq rfl hw)
theorem ld (z : Size) (o : Ord) (d : SReg) (b : SReg) (x : W64) : Statement (.ld z o d b x) := by
  refine Sys2Proof.RoundTrip.prefixed (i0 := .ld z o d b ((x.extractLsb' 0 32).signExtend 64)) 3 0x00 (PM.toBits ⟨d, b, z.code, o.code, x.extractLsb' 0 32⟩) 3 0x00 (by decide) rfl rfl (fun _ => rfl) (fun hw => ?_) fun hw => ?_
  · rw [decodeUnit_3, PM.of_toBits]
    simp only [decodeU3, decodeScalarMem, Size.ofCode_code, Ord.ofCode_code, Option.bind_some]
    exact chk_eq rfl hw
  · rcases needDisp_cases x with ⟨hn, he⟩ | ⟨q, hn, he⟩
    · exact .inl ⟨hn, by rw [he]⟩
    · exact .inr ⟨_, _, hn, isPfx_pfxWord (by decide), decodePfx_imm _, congrArg (fun y => some (Instr.ld z o d b y)) he⟩
theorem lds (z : Size) (o : Ord) (d : SReg) (b : SReg) (x : W64) : Statement (.lds z o d b x) := by
  refine Sys2Proof.RoundTrip.prefixed (i0 := .lds z o d b ((x.extractLsb' 0 32).signExtend 64)) 3 0x01 (PM.toBits ⟨d, b, z.code, o.code, x.extractLsb' 0 32⟩) 3 0x01 (by decide) rfl rfl (fun _ => rfl) (fun hw => ?_) fun hw => ?_
  · rw [decodeUnit_3, PM.of_toBits]
    simp only [decodeU3, decodeScalarMem, Size.ofCode_code, Ord.ofCode_code, Option.bind_some]
    exact chk_eq rfl hw
  · rcases needDisp_cases x with ⟨hn, he⟩ | ⟨q, hn, he⟩
    · exact .inl ⟨hn, by rw [he]⟩
    · exact .inr ⟨_, _, hn, isPfx_pfxWord (by decide), decodePfx_imm _, congrArg (fun y => some (Instr.lds z o d b y)) he⟩
theorem st (z : Size) (o : Ord) (d : SReg) (b : SReg) (x : W64) : Statement (.st z o d b x) := by
  refine Sys2Proof.RoundTrip.prefixed (i0 := .st z o d b ((x.extractLsb' 0 32).signExtend 64)) 3 0x02 (PM.toBits ⟨d, b, z.code, o.code, x.extractLsb' 0 32⟩) 3 0x02 (by decide) rfl rfl (fun _ => rfl) (fun hw => ?_) fun hw => ?_
  · rw [decodeUnit_3, PM.of_toBits]
    simp only [decodeU3, decodeScalarMem, Size.ofCode_code, Ord.ofCode_code, Option.bind_some]
    exact chk_eq rfl hw
  · rcases needDisp_cases x with ⟨hn, he⟩ | ⟨q, hn, he⟩
    · exact .inl ⟨hn, by rw [he]⟩
    · exact .inr ⟨_, _, hn, isPfx_pfxWord (by decide), decodePfx_imm _, congrArg (fun y => some (Instr.st z o d b y)) he⟩
theorem aadd (z : Size) (o : Ord) (fe : Bool) (d : SReg) (b : SReg) (x : W64) : Statement (.aadd z o fe d b x) := by
  refine Sys2Proof.RoundTrip.prefixed (i0 := .aadd z o fe d b ((x.extractLsb' 0 31).signExtend 64)) 3 0x03 (PM.toBits ⟨d, b, z.code, o.code, cat 32 (BitVec.ofBool fe) (x.extractLsb' 0 31)⟩) 3 0x03 (by decide) rfl rfl (fun _ => rfl) (fun hw => ?_) fun hw => ?_
  · rw [decodeUnit_3, PM.of_toBits]
    simp only [decodeU3, decodeAtomic, Size.ofCode_code, Ord.ofCode_code, Option.bind_some, cat_hi _ _ (show 1 + 31 ≤ 32 by decide) (show 31 ≤ 31 by decide), cat_lo _ _ (show 1 + 31 ≤ 32 by decide) (show 0 + 31 ≤ 31 by decide)]
    rw [show ((BitVec.ofBool fe).extractLsb' (31 - 31) 1 == 1) = fe by cases fe <;> rfl, extract_whole]
    exact chk_eq rfl (by
      obtain ⟨h1, h2⟩ := (Bool.and_eq_true _ _).mp hw
      exact (Bool.and_eq_true _ _).mpr ⟨h1, atomicDisp_low _⟩)
  · rcases needAtomic_cases x ((Bool.and_eq_true _ _).mp hw).2 with ⟨hn, he⟩ | ⟨q, hn, he⟩
    · exact .inl ⟨hn, by rw [he]⟩
    · exact .inr ⟨_, _, hn, isPfx_pfxWord (by decide), decodePfx_imm _, congrArg (fun y => some (Instr.aadd z o fe d b y)) he⟩
theorem aand (z : Size) (o : Ord) (fe : Bool) (d : SReg) (b : SReg) (x : W64) : Statement (.aand z o fe d b x) := by
  refine Sys2Proof.RoundTrip.prefixed (i0 := .aand z o fe d b ((x.extractLsb' 0 31).signExtend 64)) 3 0x04 (PM.toBits ⟨d, b, z.code, o.code, cat 32 (BitVec.ofBool fe) (x.extractLsb' 0 31)⟩) 3 0x04 (by decide) rfl rfl (fun _ => rfl) (fun hw => ?_) fun hw => ?_
  · rw [decodeUnit_3, PM.of_toBits]
    simp only [decodeU3, decodeAtomic, Size.ofCode_code, Ord.ofCode_code, Option.bind_some, cat_hi _ _ (show 1 + 31 ≤ 32 by decide) (show 31 ≤ 31 by decide), cat_lo _ _ (show 1 + 31 ≤ 32 by decide) (show 0 + 31 ≤ 31 by decide)]
    rw [show ((BitVec.ofBool fe).extractLsb' (31 - 31) 1 == 1) = fe by cases fe <;> rfl, extract_whole]
    exact chk_eq rfl (by
      obtain ⟨h1, h2⟩ := (Bool.and_eq_true _ _).mp hw
      exact (Bool.and_eq_true _ _).mpr ⟨h1, atomicDisp_low _⟩)
  · rcases needAtomic_cases x ((Bool.and_eq_true _ _).mp hw).2 with ⟨hn, he⟩ | ⟨q, hn, he⟩
    · exact .inl ⟨hn, by rw [he]⟩
    · exact .inr ⟨_, _, hn, isPfx_pfxWord (by decide), decodePfx_imm _, congrArg (fun y => some (Instr.aand z o fe d b y)) he⟩
theorem aor (z : Size) (o : Ord) (fe : Bool) (d : SReg) (b : SReg) (x : W64) : Statement (.aor z o fe d b x) := by
  refine Sys2Proof.RoundTrip.prefixed (i0 := .aor z o fe d b ((x.extractLsb' 0 31).signExtend 64)) 3 0x05 (PM.toBits ⟨d, b, z.code, o.code, cat 32 (BitVec.ofBool fe) (x.extractLsb' 0 31)⟩) 3 0x05 (by decide) rfl rfl (fun _ => rfl) (fun hw => ?_) fun hw => ?_
  · rw [decodeUnit_3, PM.of_toBits]
    simp only [decodeU3, decodeAtomic, Size.ofCode_code, Ord.ofCode_code, Option.bind_some, cat_hi _ _ (show 1 + 31 ≤ 32 by decide) (show 31 ≤ 31 by decide), cat_lo _ _ (show 1 + 31 ≤ 32 by decide) (show 0 + 31 ≤ 31 by decide)]
    rw [show ((BitVec.ofBool fe).extractLsb' (31 - 31) 1 == 1) = fe by cases fe <;> rfl, extract_whole]
    exact chk_eq rfl (by
      obtain ⟨h1, h2⟩ := (Bool.and_eq_true _ _).mp hw
      exact (Bool.and_eq_true _ _).mpr ⟨h1, atomicDisp_low _⟩)
  · rcases needAtomic_cases x ((Bool.and_eq_true _ _).mp hw).2 with ⟨hn, he⟩ | ⟨q, hn, he⟩
    · exact .inl ⟨hn, by rw [he]⟩
    · exact .inr ⟨_, _, hn, isPfx_pfxWord (by decide), decodePfx_imm _, congrArg (fun y => some (Instr.aor z o fe d b y)) he⟩
theorem axor (z : Size) (o : Ord) (fe : Bool) (d : SReg) (b : SReg) (x : W64) : Statement (.axor z o fe d b x) := by
  refine Sys2Proof.RoundTrip.prefixed (i0 := .axor z o fe d b ((x.extractLsb' 0 31).signExtend 64)) 3 0x06 (PM.toBits ⟨d, b, z.code, o.code, cat 32 (BitVec.ofBool fe) (x.extractLsb' 0 31)⟩) 3 0x06 (by decide) rfl rfl (fun _ => rfl) (fun hw => ?_) fun hw => ?_
  · rw [decodeUnit_3, PM.of_toBits]
    simp only [decodeU3, decodeAtomic, Size.ofCode_code, Ord.ofCode_code, Option.bind_some, cat_hi _ _ (show 1 + 31 ≤ 32 by decide) (show 31 ≤ 31 by decide), cat_lo _ _ (show 1 + 31 ≤ 32 by decide) (show 0 + 31 ≤ 31 by decide)]
    rw [show ((BitVec.ofBool fe).extractLsb' (31 - 31) 1 == 1) = fe by cases fe <;> rfl, extract_whole]
    exact chk_eq rfl (by
      obtain ⟨h1, h2⟩ := (Bool.and_eq_true _ _).mp hw
      exact (Bool.and_eq_true _ _).mpr ⟨h1, atomicDisp_low _⟩)
  · rcases needAtomic_cases x ((Bool.and_eq_true _ _).mp hw).2 with ⟨hn, he⟩ | ⟨q, hn, he⟩
    · exact .inl ⟨hn, by rw [he]⟩
    · exact .inr ⟨_, _, hn, isPfx_pfxWord (by decide), decodePfx_imm _, congrArg (fun y => some (Instr.axor z o fe d b y)) he⟩
theorem amin (z : Size) (o : Ord) (fe : Bool) (d : SReg) (b : SReg) (x : W64) : Statement (.amin z o fe d b x) := by
  refine Sys2Proof.RoundTrip.prefixed (i0 := .amin z o fe d b ((x.extractLsb' 0 31).signExtend 64)) 3 0x07 (PM.toBits ⟨d, b, z.code, o.code, cat 32 (BitVec.ofBool fe) (x.extractLsb' 0 31)⟩) 3 0x07 (by decide) rfl rfl (fun _ => rfl) (fun hw => ?_) fun hw => ?_
  · rw [decodeUnit_3, PM.of_toBits]
    simp only [decodeU3, decodeAtomic, Size.ofCode_code, Ord.ofCode_code, Option.bind_some, cat_hi _ _ (show 1 + 31 ≤ 32 by decide) (show 31 ≤ 31 by decide), cat_lo _ _ (show 1 + 31 ≤ 32 by decide) (show 0 + 31 ≤ 31 by decide)]
    rw [show ((BitVec.ofBool fe).extractLsb' (31 - 31) 1 == 1) = fe by cases fe <;> rfl, extract_whole]
    exact chk_eq rfl (by
      obtain ⟨h1, h2⟩ := (Bool.and_eq_true _ _).mp hw
      exact (Bool.and_eq_true _ _).mpr ⟨h1, atomicDisp_low _⟩)
  · rcases needAtomic_cases x ((Bool.and_eq_true _ _).mp hw).2 with ⟨hn, he⟩ | ⟨q, hn, he⟩
    · exact .inl ⟨hn, by rw [he]⟩
    · exact .inr ⟨_, _, hn, isPfx_pfxWord (by decide), decodePfx_imm _, congrArg (fun y => some (Instr.amin z o fe d b y)) he⟩
theorem amax (z : Size) (o : Ord) (fe : Bool) (d : SReg) (b : SReg) (x : W64) : Statement (.amax z o fe d b x) := by
  refine Sys2Proof.RoundTrip.prefixed (i0 := .amax z o fe d b ((x.extractLsb' 0 31).signExtend 64)) 3 0x08 (PM.toBits ⟨d, b, z.code, o.code, cat 32 (BitVec.ofBool fe) (x.extractLsb' 0 31)⟩) 3 0x08 (by decide) rfl rfl (fun _ => rfl) (fun hw => ?_) fun hw => ?_
  · rw [decodeUnit_3, PM.of_toBits]
    simp only [decodeU3, decodeAtomic, Size.ofCode_code, Ord.ofCode_code, Option.bind_some, cat_hi _ _ (show 1 + 31 ≤ 32 by decide) (show 31 ≤ 31 by decide), cat_lo _ _ (show 1 + 31 ≤ 32 by decide) (show 0 + 31 ≤ 31 by decide)]
    rw [show ((BitVec.ofBool fe).extractLsb' (31 - 31) 1 == 1) = fe by cases fe <;> rfl, extract_whole]
    exact chk_eq rfl (by
      obtain ⟨h1, h2⟩ := (Bool.and_eq_true _ _).mp hw
      exact (Bool.and_eq_true _ _).mpr ⟨h1, atomicDisp_low _⟩)
  · rcases needAtomic_cases x ((Bool.and_eq_true _ _).mp hw).2 with ⟨hn, he⟩ | ⟨q, hn, he⟩
    · exact .inl ⟨hn, by rw [he]⟩
    · exact .inr ⟨_, _, hn, isPfx_pfxWord (by decide), decodePfx_imm _, congrArg (fun y => some (Instr.amax z o fe d b y)) he⟩
theorem aminu (z : Size) (o : Ord) (fe : Bool) (d : SReg) (b : SReg) (x : W64) : Statement (.aminu z o fe d b x) := by
  refine Sys2Proof.RoundTrip.prefixed (i0 := .aminu z o fe d b ((x.extractLsb' 0 31).signExtend 64)) 3 0x09 (PM.toBits ⟨d, b, z.code, o.code, cat 32 (BitVec.ofBool fe) (x.extractLsb' 0 31)⟩) 3 0x09 (by decide) rfl rfl (fun _ => rfl) (fun hw => ?_) fun hw => ?_
  · rw [decodeUnit_3, PM.of_toBits]
    simp only [decodeU3, decodeAtomic, Size.ofCode_code, Ord.ofCode_code, Option.bind_some, cat_hi _ _ (show 1 + 31 ≤ 32 by decide) (show 31 ≤ 31 by decide), cat_lo _ _ (show 1 + 31 ≤ 32 by decide) (show 0 + 31 ≤ 31 by decide)]
    rw [show ((BitVec.ofBool fe).extractLsb' (31 - 31) 1 == 1) = fe by cases fe <;> rfl, extract_whole]
    exact chk_eq rfl (by
      obtain ⟨h1, h2⟩ := (Bool.and_eq_true _ _).mp hw
      exact (Bool.and_eq_true _ _).mpr ⟨h1, atomicDisp_low _⟩)
  · rcases needAtomic_cases x ((Bool.and_eq_true _ _).mp hw).2 with ⟨hn, he⟩ | ⟨q, hn, he⟩
    · exact .inl ⟨hn, by rw [he]⟩
    · exact .inr ⟨_, _, hn, isPfx_pfxWord (by decide), decodePfx_imm _, congrArg (fun y => some (Instr.aminu z o fe d b y)) he⟩
theorem amaxu (z : Size) (o : Ord) (fe : Bool) (d : SReg) (b : SReg) (x : W64) : Statement (.amaxu z o fe d b x) := by
  refine Sys2Proof.RoundTrip.prefixed (i0 := .amaxu z o fe d b ((x.extractLsb' 0 31).signExtend 64)) 3 0x0A (PM.toBits ⟨d, b, z.code, o.code, cat 32 (BitVec.ofBool fe) (x.extractLsb' 0 31)⟩) 3 0x0A (by decide) rfl rfl (fun _ => rfl) (fun hw => ?_) fun hw => ?_
  · rw [decodeUnit_3, PM.of_toBits]
    simp only [decodeU3, decodeAtomic, Size.ofCode_code, Ord.ofCode_code, Option.bind_some, cat_hi _ _ (show 1 + 31 ≤ 32 by decide) (show 31 ≤ 31 by decide), cat_lo _ _ (show 1 + 31 ≤ 32 by decide) (show 0 + 31 ≤ 31 by decide)]
    rw [show ((BitVec.ofBool fe).extractLsb' (31 - 31) 1 == 1) = fe by cases fe <;> rfl, extract_whole]
    exact chk_eq rfl (by
      obtain ⟨h1, h2⟩ := (Bool.and_eq_true _ _).mp hw
      exact (Bool.and_eq_true _ _).mpr ⟨h1, atomicDisp_low _⟩)
  · rcases needAtomic_cases x ((Bool.and_eq_true _ _).mp hw).2 with ⟨hn, he⟩ | ⟨q, hn, he⟩
    · exact .inl ⟨hn, by rw [he]⟩
    · exact .inr ⟨_, _, hn, isPfx_pfxWord (by decide), decodePfx_imm _, congrArg (fun y => some (Instr.amaxu z o fe d b y)) he⟩
theorem afadd (z : Size) (o : Ord) (fe : Bool) (d : SReg) (b : SReg) (x : W64) : Statement (.afadd z o fe d b x) := by
  refine Sys2Proof.RoundTrip.prefixed (i0 := .afadd z o fe d b ((x.extractLsb' 0 31).signExtend 64)) 3 0x0B (PM.toBits ⟨d, b, z.code, o.code, cat 32 (BitVec.ofBool fe) (x.extractLsb' 0 31)⟩) 3 0x0B (by decide) rfl rfl (fun _ => rfl) (fun hw => ?_) fun hw => ?_
  · rw [decodeUnit_3, PM.of_toBits]
    simp only [decodeU3, decodeAtomic, Size.ofCode_code, Ord.ofCode_code, Option.bind_some, cat_hi _ _ (show 1 + 31 ≤ 32 by decide) (show 31 ≤ 31 by decide), cat_lo _ _ (show 1 + 31 ≤ 32 by decide) (show 0 + 31 ≤ 31 by decide)]
    rw [show ((BitVec.ofBool fe).extractLsb' (31 - 31) 1 == 1) = fe by cases fe <;> rfl, extract_whole]
    exact chk_eq rfl (by
      obtain ⟨h1, h2⟩ := (Bool.and_eq_true _ _).mp hw
      exact (Bool.and_eq_true _ _).mpr ⟨h1, atomicDisp_low _⟩)
  · rcases needAtomic_cases x ((Bool.and_eq_true _ _).mp hw).2 with ⟨hn, he⟩ | ⟨q, hn, he⟩
    · exact .inl ⟨hn, by rw [he]⟩
    · exact .inr ⟨_, _, hn, isPfx_pfxWord (by decide), decodePfx_imm _, congrArg (fun y => some (Instr.afadd z o fe d b y)) he⟩
theorem afmin (z : Size) (o : Ord) (fe : Bool) (d : SReg) (b : SReg) (x : W64) : Statement (.afmin z o fe d b x) := by
  refine Sys2Proof.RoundTrip.prefixed (i0 := .afmin z o fe d b ((x.extractLsb' 0 31).signExtend 64)) 3 0x0C (PM.toBits ⟨d, b, z.code, o.code, cat 32 (BitVec.ofBool fe) (x.extractLsb' 0 31)⟩) 3 0x0C (by decide) rfl rfl (fun _ => rfl) (fun hw => ?_) fun hw => ?_
  · rw [decodeUnit_3, PM.of_toBits]
    simp only [decodeU3, decodeAtomic, Size.ofCode_code, Ord.ofCode_code, Option.bind_some, cat_hi _ _ (show 1 + 31 ≤ 32 by decide) (show 31 ≤ 31 by decide), cat_lo _ _ (show 1 + 31 ≤ 32 by decide) (show 0 + 31 ≤ 31 by decide)]
    rw [show ((BitVec.ofBool fe).extractLsb' (31 - 31) 1 == 1) = fe by cases fe <;> rfl, extract_whole]
    exact chk_eq rfl (by
      obtain ⟨h1, h2⟩ := (Bool.and_eq_true _ _).mp hw
      exact (Bool.and_eq_true _ _).mpr ⟨h1, atomicDisp_low _⟩)
  · rcases needAtomic_cases x ((Bool.and_eq_true _ _).mp hw).2 with ⟨hn, he⟩ | ⟨q, hn, he⟩
    · exact .inl ⟨hn, by rw [he]⟩
    · exact .inr ⟨_, _, hn, isPfx_pfxWord (by decide), decodePfx_imm _, congrArg (fun y => some (Instr.afmin z o fe d b y)) he⟩
theorem afmax (z : Size) (o : Ord) (fe : Bool) (d : SReg) (b : SReg) (x : W64) : Statement (.afmax z o fe d b x) := by
  refine Sys2Proof.RoundTrip.prefixed (i0 := .afmax z o fe d b ((x.extractLsb' 0 31).signExtend 64)) 3 0x0D (PM.toBits ⟨d, b, z.code, o.code, cat 32 (BitVec.ofBool fe) (x.extractLsb' 0 31)⟩) 3 0x0D (by decide) rfl rfl (fun _ => rfl) (fun hw => ?_) fun hw => ?_
  · rw [decodeUnit_3, PM.of_toBits]
    simp only [decodeU3, decodeAtomic, Size.ofCode_code, Ord.ofCode_code, Option.bind_some, cat_hi _ _ (show 1 + 31 ≤ 32 by decide) (show 31 ≤ 31 by decide), cat_lo _ _ (show 1 + 31 ≤ 32 by decide) (show 0 + 31 ≤ 31 by decide)]
    rw [show ((BitVec.ofBool fe).extractLsb' (31 - 31) 1 == 1) = fe by cases fe <;> rfl, extract_whole]
    exact chk_eq rfl (by
      obtain ⟨h1, h2⟩ := (Bool.and_eq_true _ _).mp hw
      exact (Bool.and_eq_true _ _).mpr ⟨h1, atomicDisp_low _⟩)
  · rcases needAtomic_cases x ((Bool.and_eq_true _ _).mp hw).2 with ⟨hn, he⟩ | ⟨q, hn, he⟩
    · exact .inl ⟨hn, by rw [he]⟩
    · exact .inr ⟨_, _, hn, isPfx_pfxWord (by decide), decodePfx_imm _, congrArg (fun y => some (Instr.afmax z o fe d b y)) he⟩
theorem aswp (z : Size) (o : Ord) (fe : Bool) (d : SReg) (b : SReg) (x : W64) : Statement (.aswp z o fe d b x) := by
  refine Sys2Proof.RoundTrip.prefixed (i0 := .aswp z o fe d b ((x.extractLsb' 0 31).signExtend 64)) 3 0x0E (PM.toBits ⟨d, b, z.code, o.code, cat 32 (BitVec.ofBool fe) (x.extractLsb' 0 31)⟩) 3 0x0E (by decide) rfl rfl (fun _ => rfl) (fun hw => ?_) fun hw => ?_
  · rw [decodeUnit_3, PM.of_toBits]
    simp only [decodeU3, decodeAtomic, Size.ofCode_code, Ord.ofCode_code, Option.bind_some, cat_hi _ _ (show 1 + 31 ≤ 32 by decide) (show 31 ≤ 31 by decide), cat_lo _ _ (show 1 + 31 ≤ 32 by decide) (show 0 + 31 ≤ 31 by decide)]
    rw [show ((BitVec.ofBool fe).extractLsb' (31 - 31) 1 == 1) = fe by cases fe <;> rfl, extract_whole]
    exact chk_eq rfl (by
      obtain ⟨h1, h2⟩ := (Bool.and_eq_true _ _).mp hw
      exact (Bool.and_eq_true _ _).mpr ⟨h1, atomicDisp_low _⟩)
  · rcases needAtomic_cases x ((Bool.and_eq_true _ _).mp hw).2 with ⟨hn, he⟩ | ⟨q, hn, he⟩
    · exact .inl ⟨hn, by rw [he]⟩
    · exact .inr ⟨_, _, hn, isPfx_pfxWord (by decide), decodePfx_imm _, congrArg (fun y => some (Instr.aswp z o fe d b y)) he⟩
theorem acas (z : Size) (o : Ord) (fe : Bool) (d : SReg) (b : SReg) (x : W64) : Statement (.acas z o fe d b x) := by
  refine Sys2Proof.RoundTrip.prefixed (i0 := .acas z o fe d b ((x.extractLsb' 0 31).signExtend 64)) 3 0x0F (PM.toBits ⟨d, b, z.code, o.code, cat 32 (BitVec.ofBool fe) (x.extractLsb' 0 31)⟩) 3 0x0F (by decide) rfl rfl (fun _ => rfl) (fun hw => ?_) fun hw => ?_
  · rw [decodeUnit_3, PM.of_toBits]
    simp only [decodeU3, decodeAtomic, Size.ofCode_code, Ord.ofCode_code, Option.bind_some, cat_hi _ _ (show 1 + 31 ≤ 32 by decide) (show 31 ≤ 31 by decide), cat_lo _ _ (show 1 + 31 ≤ 32 by decide) (show 0 + 31 ≤ 31 by decide)]
    rw [show ((BitVec.ofBool fe).extractLsb' (31 - 31) 1 == 1) = fe by cases fe <;> rfl, extract_whole]
    exact chk_eq rfl (by
      obtain ⟨h1, h2⟩ := (Bool.and_eq_true _ _).mp hw
      obtain ⟨h3, h4⟩ := (Bool.and_eq_true _ _).mp h1
      exact (Bool.and_eq_true _ _).mpr ⟨(Bool.and_eq_true _ _).mpr ⟨h3, atomicDisp_low _⟩, h2⟩)
  · rcases needAtomic_cases x ((Bool.and_eq_true _ _).mp ((Bool.and_eq_true _ _).mp hw).1).2 with ⟨hn, he⟩ | ⟨q, hn, he⟩
    · exact .inl ⟨hn, by rw [he]⟩
    · exact .inr ⟨_, _, hn, isPfx_pfxWord (by decide), decodePfx_imm _, congrArg (fun y => some (Instr.acas z o fe d b y)) he⟩
theorem wait (t : Test) (o : Ord) (d : SReg) (l : SReg) (r : CellRef) (v : W32) : Statement (.wait t o d l r v) := by
  refine Sys2Proof.RoundTrip.prefixed (i0 := .wait t o d l r (val14 v)) 4 0x00 (PSI.toBits ⟨d, l, cellBits r t o v⟩) 4 0x00 (by decide) rfl rfl (fun _ => rfl) (fun hw => ?_) fun hw => ?_
  · have hr : r.wf = true := ((Bool.and_eq_true _ _).mp ((Bool.and_eq_true _ _).mp hw).1).2
    obtain ⟨-, -, h3, h4, h5⟩ := SIC_of_cellBits r t o v hr
    rw [decodeUnit_4, PSI.of_toBits]
    simp only [decodeU4]
    rw [decodeCell_cellBits rfl hr (by rfl)]
    simp only [h3, Test.ofCode_code, Option.bind_some]
    exact chk_eq rfl ((Bool.and_eq_true _ _).mpr ⟨((Bool.and_eq_true _ _).mp hw).1, valueOk_val14 ((Bool.and_eq_true _ _).mp hw).2⟩)
  · rcases needVal_cases v with ⟨hn, he⟩ | ⟨hn, he⟩
    · exact .inl ⟨hn, by rw [he]⟩
    · exact .inr ⟨_, _, hn, isPfx_pfxWord (by decide), decodePfx_imm _, by
        rw [apply_imm]; show (immVal v (val14 v)).bind (fun y => if t.valueOk y then some (Instr.wait t o d l r y) else none) = some (Instr.wait t o d l r v)
        rw [he, Option.bind_some, if_pos ((Bool.and_eq_true _ _).mp hw).2]⟩
theorem take (o : Ord) (d : SReg) (l : SReg) (r : CellRef) (v : W32) : Statement (.take o d l r v) := by
  refine Sys2Proof.RoundTrip.prefixed (i0 := .take o d l r (val14 v)) 4 0x01 (PSI.toBits ⟨d, l, cellBits r .ge o v⟩) 4 0x01 (by decide) rfl rfl (fun _ => rfl) (fun hw => ?_) fun hw => ?_
  · have hr : r.wf = true := ((Bool.and_eq_true _ _).mp hw).2
    obtain ⟨-, -, h3, h4, h5⟩ := SIC_of_cellBits r .ge o v hr
    rw [decodeUnit_4, PSI.of_toBits]
    simp only [decodeU4]
    rw [decodeCell_cellBits rfl hr (by simp only [h3]; rfl)]
    exact chk_eq rfl hw
  · rcases needVal_cases v with ⟨hn, he⟩ | ⟨hn, he⟩
    · exact .inl ⟨hn, by rw [he]⟩
    · exact .inr ⟨_, _, hn, isPfx_pfxWord (by decide), decodePfx_imm _, (congrArg (Option.map (Instr.take o d l r)) he).trans rfl⟩
theorem trytake (o : Ord) (d : SReg) (r : CellRef) (v : W32) : Statement (.trytake o d r v) := by
  refine Sys2Proof.RoundTrip.prefixed (i0 := .trytake o d r (val14 v)) 4 0x02 (PSI.toBits ⟨d, 0, cellBits r .ge o v⟩) 4 0x02 (by decide) rfl rfl (fun _ => rfl) (fun hw => ?_) fun hw => ?_
  · have hr : r.wf = true := ((Bool.and_eq_true _ _).mp hw).2
    obtain ⟨-, -, h3, h4, h5⟩ := SIC_of_cellBits r .ge o v hr
    rw [decodeUnit_4, PSI.of_toBits]
    simp only [decodeU4]
    rw [decodeCell_cellBits rfl hr (by simp only [h3]; rfl)]
    exact chk_eq rfl hw
  · rcases needVal_cases v with ⟨hn, he⟩ | ⟨hn, he⟩
    · exact .inl ⟨hn, by rw [he]⟩
    · exact .inr ⟨_, _, hn, isPfx_pfxWord (by decide), decodePfx_imm _, (congrArg (Option.map (Instr.trytake o d r)) he).trans rfl⟩
theorem sig (o : Ord) (r : CellRef) (v : W32) : Statement (.sig o r v) := by
  refine Sys2Proof.RoundTrip.prefixed (i0 := .sig o r (val14 v)) 4 0x03 (PSI.toBits ⟨0, 0, cellBits r .ge o v⟩) 4 0x03 (by decide) rfl rfl (fun _ => rfl) (fun hw => ?_) fun hw => ?_
  · have hr : r.wf = true := ((Bool.and_eq_true _ _).mp hw).2
    obtain ⟨-, -, h3, h4, h5⟩ := SIC_of_cellBits r .ge o v hr
    rw [decodeUnit_4, PSI.of_toBits]
    simp only [decodeU4]
    rw [decodeCell_cellBits rfl hr (by simp only [h3]; rfl)]
    exact chk_eq rfl hw
  · rcases needVal_cases v with ⟨hn, he⟩ | ⟨hn, he⟩
    · exact .inl ⟨hn, by rw [he]⟩
    · exact .inr ⟨_, _, hn, isPfx_pfxWord (by decide), decodePfx_imm _, (congrArg (Option.map (Instr.sig o r)) he).trans rfl⟩
theorem arrive (o : Ord) (r : CellRef) : Statement (.arrive o r) := by
  refine Sys2Proof.RoundTrip.plain 4 0x04 (PSI.toBits ⟨0, 0, cellBits r .ge o 0⟩) 4 0x04 (by decide) rfl rfl (fun _ => rfl) rfl fun hw => ?_
  have hr : r.wf = true := by first | exact hw | exact ((Bool.and_eq_true _ _).mp hw).2
  obtain ⟨-, -, h3, h4, h5⟩ := SIC_of_cellBits r .ge o 0 hr
  rw [decodeUnit_4, PSI.of_toBits]
  simp only [decodeU4]
  rw [decodeCell_cellBits rfl hr (by simp only [h3, h4, h5]; rfl)]
  exact chk_eq rfl hw
theorem cset (o : Ord) (r : CellRef) (v : W32) : Statement (.cset o r v) := by
  refine Sys2Proof.RoundTrip.prefixed (i0 := .cset o r (val14 v)) 4 0x05 (PSI.toBits ⟨0, 0, cellBits r .ge o v⟩) 4 0x05 (by decide) rfl rfl (fun _ => rfl) (fun hw => ?_) fun hw => ?_
  · have hr : r.wf = true := ((Bool.and_eq_true _ _).mp hw).2
    obtain ⟨-, -, h3, h4, h5⟩ := SIC_of_cellBits r .ge o v hr
    rw [decodeUnit_4, PSI.of_toBits]
    simp only [decodeU4]
    rw [decodeCell_cellBits rfl hr (by simp only [h3]; rfl)]
    exact chk_eq rfl hw
  · rcases needVal_cases v with ⟨hn, he⟩ | ⟨hn, he⟩
    · exact .inl ⟨hn, by rw [he]⟩
    · exact .inr ⟨_, _, hn, isPfx_pfxWord (by decide), decodePfx_imm _, (congrArg (Option.map (Instr.cset o r)) he).trans rfl⟩
theorem crd (o : Ord) (d : SReg) (r : CellRef) : Statement (.crd o d r) := by
  refine Sys2Proof.RoundTrip.plain 4 0x06 (PSI.toBits ⟨d, 0, cellBits r .ge o 0⟩) 4 0x06 (by decide) rfl rfl (fun _ => rfl) rfl fun hw => ?_
  have hr : r.wf = true := by first | exact hw | exact ((Bool.and_eq_true _ _).mp hw).2
  obtain ⟨-, -, h3, h4, h5⟩ := SIC_of_cellBits r .ge o 0 hr
  rw [decodeUnit_4, PSI.of_toBits]
  simp only [decodeU4]
  rw [decodeCell_cellBits rfl hr (by simp only [h3, h4, h5]; rfl)]
  exact chk_eq rfl hw
theorem ccfg (a : SReg) (r : CellRef) : Statement (.ccfg a r) := by
  refine Sys2Proof.RoundTrip.plain 4 0x07 (PSI.toBits ⟨0, a, cellBits r .ge .plain 0⟩) 4 0x07 (by decide) rfl rfl (fun _ => rfl) rfl fun hw => ?_
  have hr : r.wf = true := by first | exact hw | exact ((Bool.and_eq_true _ _).mp hw).2
  obtain ⟨-, -, h3, h4, h5⟩ := SIC_of_cellBits r .ge .plain 0 hr
  rw [decodeUnit_4, PSI.of_toBits]
  simp only [decodeU4]
  rw [decodeCell_cellBits rfl hr (by simp only [h3, h4, h5]; rfl)]
  exact chk_eq rfl hw
theorem cclr (r : CellRef) : Statement (.cclr r) := by
  refine Sys2Proof.RoundTrip.plain 4 0x08 (PSI.toBits ⟨0, 0, cellBits r .ge .plain 0⟩) 4 0x08 (by decide) rfl rfl (fun _ => rfl) rfl fun hw => ?_
  have hr : r.wf = true := by first | exact hw | exact ((Bool.and_eq_true _ _).mp hw).2
  obtain ⟨-, -, h3, h4, h5⟩ := SIC_of_cellBits r .ge .plain 0 hr
  rw [decodeUnit_4, PSI.of_toBits]
  simp only [decodeU4]
  rw [decodeCell_cellBits rfl hr (by simp only [h3, h4, h5]; rfl)]
  exact chk_eq rfl hw
theorem spawn (d : SReg) (a : SReg) (x : BitVec 36) : Statement (.spawn d a x) := by
  refine Sys2Proof.RoundTrip.plain 4 0x10 (PSI.toBits ⟨d, a, x⟩) 4 0x10 (by decide) rfl rfl (fun _ => rfl) rfl fun hw => ?_
  rw [decodeUnit_4, PSI.of_toBits]
  simp only [decodeU4]
theorem spawnb (d : SReg) (a : SReg) (x : BitVec 36) : Statement (.spawnb d a x) := by
  refine Sys2Proof.RoundTrip.plain 4 0x11 (PSI.toBits ⟨d, a, x⟩) 4 0x11 (by decide) rfl rfl (fun _ => rfl) rfl fun hw => ?_
  rw [decodeUnit_4, PSI.of_toBits]
  simp only [decodeU4]
theorem park (d : SReg) (a : SReg) (x : BitVec 36) : Statement (.park d a x) := by
  refine Sys2Proof.RoundTrip.plain 4 0x12 (PSI.toBits ⟨d, a, x⟩) 4 0x12 (by decide) rfl rfl (fun _ => rfl) rfl fun hw => ?_
  rw [decodeUnit_4, PSI.of_toBits]
  simp only [decodeU4]
theorem taskDone (a : SReg) : Statement (.taskDone a) := by
  refine Sys2Proof.RoundTrip.plain 4 0x13 (PS3.toBits ⟨0, a, 0, 0⟩) 4 0x13 (by decide) rfl rfl (fun _ => rfl) rfl fun hw => ?_
  rw [decodeUnit_4, PS3.of_toBits]
  simp only [decodeU4]
  first | rfl | exact chk_eq rfl hw | (simp [cat_hi, cat_lo]; done) | (simp [cat_hi, cat_lo]; exact chk_eq rfl hw)
theorem yield : Statement .yield := Sys2Proof.RoundTrip.plain 4 0x14 0 4 0x14 (by decide) rfl rfl (fun _ => rfl) rfl fun _ => rfl
theorem widf (d : SReg) (f : BitVec 3) : Statement (.widf d f) := by
  refine Sys2Proof.RoundTrip.plain 4 0x15 (PSI.toBits ⟨d, 0, cat 36 0#33 f⟩) 4 0x15 (by decide) rfl rfl (fun _ => rfl) rfl fun hw => ?_
  rw [decodeUnit_4, PSI.of_toBits]
  simp only [decodeU4]
  first | rfl | exact chk_eq rfl hw | (simp [cat_hi, cat_lo]; done) | (simp [cat_hi, cat_lo]; exact chk_eq rfl hw)
theorem hld (d : HReg) (a : SReg) (x : W64) : Statement (.hld d a x) := by
  refine Sys2Proof.RoundTrip.prefixed (i0 := .hld d a ((x.extractLsb' 0 32).signExtend 64)) 5 0x00 (PH.toBits ⟨d, 0, a, x.extractLsb' 0 32⟩) 5 0x00 (by decide) rfl rfl (fun _ => rfl) (fun hw => ?_) fun hw => ?_
  · rw [decodeUnit_5, PH.of_toBits]
    exact chk_eq rfl rfl
  · rcases needDisp_cases x with ⟨hn, he⟩ | ⟨q, hn, he⟩
    · exact .inl ⟨hn, by rw [he]⟩
    · exact .inr ⟨_, _, hn, isPfx_pfxWord (by decide), decodePfx_imm _, congrArg (fun y => some (Instr.hld d a y)) he⟩
theorem hst (h : HReg) (a : SReg) (x : W64) : Statement (.hst h a x) := by
  refine Sys2Proof.RoundTrip.prefixed (i0 := .hst h a ((x.extractLsb' 0 32).signExtend 64)) 5 0x01 (PH.toBits ⟨0, h, a, x.extractLsb' 0 32⟩) 5 0x01 (by decide) rfl rfl (fun _ => rfl) (fun hw => ?_) fun hw => ?_
  · rw [decodeUnit_5, PH.of_toBits]
    exact chk_eq rfl rfl
  · rcases needDisp_cases x with ⟨hn, he⟩ | ⟨q, hn, he⟩
    · exact .inl ⟨hn, by rw [he]⟩
    · exact .inr ⟨_, _, hn, isPfx_pfxWord (by decide), decodePfx_imm _, congrArg (fun y => some (Instr.hst h a y)) he⟩
theorem hmov (d : HReg) (h : HReg) : Statement (.hmov d h) := by
  refine Sys2Proof.RoundTrip.plain 5 0x02 (PH.toBits ⟨d, h, 0, 0⟩) 5 0x02 (by decide) rfl rfl (fun _ => rfl) rfl fun hw => ?_
  rw [decodeUnit_5, PH.of_toBits]
  simp only [decodeU5]
  first | rfl | exact chk_eq rfl hw | (simp [cat_hi, cat_lo]; done) | (simp [cat_hi, cat_lo]; exact chk_eq rfl hw)
theorem hsetb (d : HReg) (h : HReg) (a : SReg) : Statement (.hsetb d h a) := by
  refine Sys2Proof.RoundTrip.plain 5 0x03 (PH.toBits ⟨d, h, a, 0⟩) 5 0x03 (by decide) rfl rfl (fun _ => rfl) rfl fun hw => ?_
  rw [decodeUnit_5, PH.of_toBits]
  simp only [decodeU5]
  first | rfl | exact chk_eq rfl hw | (simp [cat_hi, cat_lo]; done) | (simp [cat_hi, cat_lo]; exact chk_eq rfl hw)
theorem hsetd (d : HReg) (h : HReg) (a : SReg) (n : BitVec 3) : Statement (.hsetd d h a n) := by
  refine Sys2Proof.RoundTrip.plain 5 0x04 (PH.toBits ⟨d, h, a, cat 32 0#29 n⟩) 5 0x04 (by decide) rfl rfl (fun _ => rfl) rfl fun hw => ?_
  rw [decodeUnit_5, PH.of_toBits]
  simp only [decodeU5]
  first | rfl | exact chk_eq rfl hw | (simp [cat_hi, cat_lo]; done) | (simp [cat_hi, cat_lo]; exact chk_eq rfl hw)
theorem hsets (d : HReg) (h : HReg) (a : SReg) (n : BitVec 3) : Statement (.hsets d h a n) := by
  refine Sys2Proof.RoundTrip.plain 5 0x05 (PH.toBits ⟨d, h, a, cat 32 0#29 n⟩) 5 0x05 (by decide) rfl rfl (fun _ => rfl) rfl fun hw => ?_
  rw [decodeUnit_5, PH.of_toBits]
  simp only [decodeU5]
  first | rfl | exact chk_eq rfl hw | (simp [cat_hi, cat_lo]; done) | (simp [cat_hi, cat_lo]; exact chk_eq rfl hw)
theorem hadv (d : HReg) (h : HReg) (a : SReg) (n : BitVec 3) : Statement (.hadv d h a n) := by
  refine Sys2Proof.RoundTrip.plain 5 0x06 (PH.toBits ⟨d, h, a, cat 32 0#29 n⟩) 5 0x06 (by decide) rfl rfl (fun _ => rfl) rfl fun hw => ?_
  rw [decodeUnit_5, PH.of_toBits]
  simp only [decodeU5]
  first | rfl | exact chk_eq rfl hw | (simp [cat_hi, cat_lo]; done) | (simp [cat_hi, cat_lo]; exact chk_eq rfl hw)
theorem hget (d : SReg) (h : HReg) (n : BitVec 4) : Statement (.hget d h n) := by
  refine Sys2Proof.RoundTrip.plain 5 0x07 (PH.toBits ⟨0, h, d, cat 32 0#28 n⟩) 5 0x07 (by decide) rfl rfl (fun _ => rfl) rfl fun hw => ?_
  rw [decodeUnit_5, PH.of_toBits]
  simp only [decodeU5]
  first | rfl | exact chk_eq rfl hw | (simp [cat_hi, cat_lo]; done) | (simp [cat_hi, cat_lo]; exact chk_eq rfl hw)
theorem hchk (h : HReg) (a : SReg) : Statement (.hchk h a) := by
  refine Sys2Proof.RoundTrip.plain 5 0x08 (PH.toBits ⟨0, h, a, 0⟩) 5 0x08 (by decide) rfl rfl (fun _ => rfl) rfl fun hw => ?_
  rw [decodeUnit_5, PH.of_toBits]
  simp only [decodeU5]
  first | rfl | exact chk_eq rfl hw | (simp [cat_hi, cat_lo]; done) | (simp [cat_hi, cat_lo]; exact chk_eq rfl hw)
theorem hclr (d : HReg) : Statement (.hclr d) := by
  refine Sys2Proof.RoundTrip.plain 5 0x09 (PH.toBits ⟨d, 0, 0, 0⟩) 5 0x09 (by decide) rfl rfl (fun _ => rfl) rfl fun hw => ?_
  rw [decodeUnit_5, PH.of_toBits]
  simp only [decodeU5]
  first | rfl | exact chk_eq rfl hw | (simp [cat_hi, cat_lo]; done) | (simp [cat_hi, cat_lo]; exact chk_eq rfl hw)
theorem tcfg (t : TReg) (ty : Ty) (r : BitVec 10) (c : BitVec 10) : Statement (.tcfg t ty r c) := by
  refine Sys2Proof.RoundTrip.plain 5 0x0A (PH.toBits ⟨cat 5 0#1 t, 0, 0, cat 32 (cat 22 (cat 16 (cat 6 ty.code 0#2) r) 0#6) c⟩) 5 0x0A (by decide) rfl rfl (fun _ => rfl) rfl fun hw => ?_
  rw [decodeUnit_5, PH.of_toBits]
  simp only [decodeU5, Ty.ofCode_code, Option.bind_some]
  simp [cat_hi, cat_lo, Ty.ofCode_code]
  exact chk_eq (by first | rfl | rw [extract_beyond l]; rfl) hw
theorem vadd (ty : LaneTy) (r : Rnd) (d : VReg) (a : VReg) (b : VReg) (k : KReg) : Statement (.vadd ty r d a b k) := by
  refine Sys2Proof.RoundTrip.plain 6 0x00 (PV.toBits ⟨d, a, b, 0, k, ty.code, r.code, 0⟩) 6 0x00 (by decide) rfl rfl (fun _ => rfl) rfl fun hw => ?_
  rw [decodeUnit_6, PV.of_toBits]
  simp only [decodeU6, Rnd.ofCode_code, LaneTy.ofCode_code, Option.bind_some]
  first | rfl | exact chk_eq rfl hw | (simp [cat_hi, cat_lo]; done) | (simp [cat_hi, cat_lo]; exact chk_eq rfl hw)
theorem vsub (ty : LaneTy) (r : Rnd) (d : VReg) (a : VReg) (b : VReg) (k : KReg) : Statement (.vsub ty r d a b k) := by
  refine Sys2Proof.RoundTrip.plain 6 0x01 (PV.toBits ⟨d, a, b, 0, k, ty.code, r.code, 0⟩) 6 0x01 (by decide) rfl rfl (fun _ => rfl) rfl fun hw => ?_
  rw [decodeUnit_6, PV.of_toBits]
  simp only [decodeU6, Rnd.ofCode_code, LaneTy.ofCode_code, Option.bind_some]
  first | rfl | exact chk_eq rfl hw | (simp [cat_hi, cat_lo]; done) | (simp [cat_hi, cat_lo]; exact chk_eq rfl hw)
theorem vmul (ty : LaneTy) (r : Rnd) (d : VReg) (a : VReg) (b : VReg) (k : KReg) : Statement (.vmul ty r d a b k) := by
  refine Sys2Proof.RoundTrip.plain 6 0x02 (PV.toBits ⟨d, a, b, 0, k, ty.code, r.code, 0⟩) 6 0x02 (by decide) rfl rfl (fun _ => rfl) rfl fun hw => ?_
  rw [decodeUnit_6, PV.of_toBits]
  simp only [decodeU6, Rnd.ofCode_code, LaneTy.ofCode_code, Option.bind_some]
  first | rfl | exact chk_eq rfl hw | (simp [cat_hi, cat_lo]; done) | (simp [cat_hi, cat_lo]; exact chk_eq rfl hw)
theorem vfma (r : Rnd) (d : VReg) (a : VReg) (b : VReg) (c : VReg) (k : KReg) : Statement (.vfma r d a b c k) := by
  refine Sys2Proof.RoundTrip.plain 6 0x03 (PV.toBits ⟨d, a, b, c, k, 0, r.code, 0⟩) 6 0x03 (by decide) rfl rfl (fun _ => rfl) rfl fun hw => ?_
  rw [decodeUnit_6, PV.of_toBits]
  simp only [decodeU6, Rnd.ofCode_code, Option.bind_some]
  first | rfl | exact chk_eq rfl hw | (simp [cat_hi, cat_lo]; done) | (simp [cat_hi, cat_lo]; exact chk_eq rfl hw)
theorem vfms (r : Rnd) (d : VReg) (a : VReg) (b : VReg) (c : VReg) (k : KReg) : Statement (.vfms r d a b c k) := by
  refine Sys2Proof.RoundTrip.plain 6 0x04 (PV.toBits ⟨d, a, b, c, k, 0, r.code, 0⟩) 6 0x04 (by decide) rfl rfl (fun _ => rfl) rfl fun hw => ?_
  rw [decodeUnit_6, PV.of_toBits]
  simp only [decodeU6, Rnd.ofCode_code, Option.bind_some]
  first | rfl | exact chk_eq rfl hw | (simp [cat_hi, cat_lo]; done) | (simp [cat_hi, cat_lo]; exact chk_eq rfl hw)
theorem vfnma (r : Rnd) (d : VReg) (a : VReg) (b : VReg) (c : VReg) (k : KReg) : Statement (.vfnma r d a b c k) := by
  refine Sys2Proof.RoundTrip.plain 6 0x05 (PV.toBits ⟨d, a, b, c, k, 0, r.code, 0⟩) 6 0x05 (by decide) rfl rfl (fun _ => rfl) rfl fun hw => ?_
  rw [decodeUnit_6, PV.of_toBits]
  simp only [decodeU6, Rnd.ofCode_code, Option.bind_some]
  first | rfl | exact chk_eq rfl hw | (simp [cat_hi, cat_lo]; done) | (simp [cat_hi, cat_lo]; exact chk_eq rfl hw)
theorem vmin (ty : LaneTy) (d : VReg) (a : VReg) (b : VReg) (k : KReg) : Statement (.vmin ty d a b k) := by
  refine Sys2Proof.RoundTrip.plain 6 0x06 (PV.toBits ⟨d, a, b, 0, k, ty.code, 0, 0⟩) 6 0x06 (by decide) rfl rfl (fun _ => rfl) rfl fun hw => ?_
  rw [decodeUnit_6, PV.of_toBits]
  simp only [decodeU6, LaneTy.ofCode_code, Option.bind_some]
  first | rfl | exact chk_eq rfl hw | (simp [cat_hi, cat_lo]; done) | (simp [cat_hi, cat_lo]; exact chk_eq rfl hw)
theorem vmax (ty : LaneTy) (d : VReg) (a : VReg) (b : VReg) (k : KReg) : Statement (.vmax ty d a b k) := by
  refine Sys2Proof.RoundTrip.plain 6 0x07 (PV.toBits ⟨d, a, b, 0, k, ty.code, 0, 0⟩) 6 0x07 (by decide) rfl rfl (fun _ => rfl) rfl fun hw => ?_
  rw [decodeUnit_6, PV.of_toBits]
  simp only [decodeU6, LaneTy.ofCode_code, Option.bind_some]
  first | rfl | exact chk_eq rfl hw | (simp [cat_hi, cat_lo]; done) | (simp [cat_hi, cat_lo]; exact chk_eq rfl hw)
theorem vabs (ty : LaneTy) (d : VReg) (a : VReg) (k : KReg) : Statement (.vabs ty d a k) := by
  refine Sys2Proof.RoundTrip.plain 6 0x08 (PV.toBits ⟨d, a, 0, 0, k, ty.code, 0, 0⟩) 6 0x08 (by decide) rfl rfl (fun _ => rfl) rfl fun hw => ?_
  rw [decodeUnit_6, PV.of_toBits]
  simp only [decodeU6, LaneTy.ofCode_code, Option.bind_some]
  first | rfl | exact chk_eq rfl hw | (simp [cat_hi, cat_lo]; done) | (simp [cat_hi, cat_lo]; exact chk_eq rfl hw)
theorem vneg (ty : LaneTy) (d : VReg) (a : VReg) (k : KReg) : Statement (.vneg ty d a k) := by
  refine Sys2Proof.RoundTrip.plain 6 0x09 (PV.toBits ⟨d, a, 0, 0, k, ty.code, 0, 0⟩) 6 0x09 (by decide) rfl rfl (fun _ => rfl) rfl fun hw => ?_
  rw [decodeUnit_6, PV.of_toBits]
  simp only [decodeU6, LaneTy.ofCode_code, Option.bind_some]
  first | rfl | exact chk_eq rfl hw | (simp [cat_hi, cat_lo]; done) | (simp [cat_hi, cat_lo]; exact chk_eq rfl hw)
theorem vadds (d : VReg) (a : VReg) (b : VReg) (k : KReg) : Statement (.vadds d a b k) := by
  refine Sys2Proof.RoundTrip.plain 6 0x0A (PV.toBits ⟨d, a, b, 0, k, 10, 0, 0⟩) 6 0x0A (by decide) rfl rfl (fun _ => rfl) rfl fun hw => ?_
  rw [decodeUnit_6, PV.of_toBits]
  simp only [decodeU6]
  first | rfl | exact chk_eq rfl hw | (simp [cat_hi, cat_lo]; done) | (simp [cat_hi, cat_lo]; exact chk_eq rfl hw)
theorem vsubs (d : VReg) (a : VReg) (b : VReg) (k : KReg) : Statement (.vsubs d a b k) := by
  refine Sys2Proof.RoundTrip.plain 6 0x0B (PV.toBits ⟨d, a, b, 0, k, 10, 0, 0⟩) 6 0x0B (by decide) rfl rfl (fun _ => rfl) rfl fun hw => ?_
  rw [decodeUnit_6, PV.of_toBits]
  simp only [decodeU6]
  first | rfl | exact chk_eq rfl hw | (simp [cat_hi, cat_lo]; done) | (simp [cat_hi, cat_lo]; exact chk_eq rfl hw)
theorem vclamp (ty : LaneTy) (d : VReg) (a : VReg) (b : VReg) (c : VReg) (k : KReg) : Statement (.vclamp ty d a b c k) := by
  refine Sys2Proof.RoundTrip.plain 6 0x0C (PV.toBits ⟨d, a, b, c, k, ty.code, 0, 0⟩) 6 0x0C (by decide) rfl rfl (fun _ => rfl) rfl fun hw => ?_
  rw [decodeUnit_6, PV.of_toBits]
  simp only [decodeU6, LaneTy.ofCode_code, Option.bind_some]
  first | rfl | exact chk_eq rfl hw | (simp [cat_hi, cat_lo]; done) | (simp [cat_hi, cat_lo]; exact chk_eq rfl hw)
theorem vscale (r : Rnd) (d : VReg) (a : VReg) (b : VReg) (k : KReg) : Statement (.vscale r d a b k) := by
  refine Sys2Proof.RoundTrip.plain 6 0x0D (PV.toBits ⟨d, a, b, 0, k, 0, r.code, 0⟩) 6 0x0D (by decide) rfl rfl (fun _ => rfl) rfl fun hw => ?_
  rw [decodeUnit_6, PV.of_toBits]
  simp only [decodeU6, Rnd.ofCode_code, Option.bind_some]
  first | rfl | exact chk_eq rfl hw | (simp [cat_hi, cat_lo]; done) | (simp [cat_hi, cat_lo]; exact chk_eq rfl hw)
theorem vrint (r : Rnd) (d : VReg) (a : VReg) (k : KReg) : Statement (.vrint r d a k) := by
  refine Sys2Proof.RoundTrip.plain 6 0x0E (PV.toBits ⟨d, a, 0, 0, k, 0, r.code, 0⟩) 6 0x0E (by decide) rfl rfl (fun _ => rfl) rfl fun hw => ?_
  rw [decodeUnit_6, PV.of_toBits]
  simp only [decodeU6, Rnd.ofCode_code, Option.bind_some]
  first | rfl | exact chk_eq rfl hw | (simp [cat_hi, cat_lo]; done) | (simp [cat_hi, cat_lo]; exact chk_eq rfl hw)
theorem vand (d : VReg) (a : VReg) (b : VReg) (k : KReg) : Statement (.vand d a b k) := by
  refine Sys2Proof.RoundTrip.plain 6 0x10 (PV.toBits ⟨d, a, b, 0, k, 10, 0, 0⟩) 6 0x10 (by decide) rfl rfl (fun _ => rfl) rfl fun hw => ?_
  rw [decodeUnit_6, PV.of_toBits]
  simp only [decodeU6]
  first | rfl | exact chk_eq rfl hw | (simp [cat_hi, cat_lo]; done) | (simp [cat_hi, cat_lo]; exact chk_eq rfl hw)
theorem vor (d : VReg) (a : VReg) (b : VReg) (k : KReg) : Statement (.vor d a b k) := by
  refine Sys2Proof.RoundTrip.plain 6 0x11 (PV.toBits ⟨d, a, b, 0, k, 10, 0, 0⟩) 6 0x11 (by decide) rfl rfl (fun _ => rfl) rfl fun hw => ?_
  rw [decodeUnit_6, PV.of_toBits]
  simp only [decodeU6]
  first | rfl | exact chk_eq rfl hw | (simp [cat_hi, cat_lo]; done) | (simp [cat_hi, cat_lo]; exact chk_eq rfl hw)
theorem vxor (d : VReg) (a : VReg) (b : VReg) (k : KReg) : Statement (.vxor d a b k) := by
  refine Sys2Proof.RoundTrip.plain 6 0x12 (PV.toBits ⟨d, a, b, 0, k, 10, 0, 0⟩) 6 0x12 (by decide) rfl rfl (fun _ => rfl) rfl fun hw => ?_
  rw [decodeUnit_6, PV.of_toBits]
  simp only [decodeU6]
  first | rfl | exact chk_eq rfl hw | (simp [cat_hi, cat_lo]; done) | (simp [cat_hi, cat_lo]; exact chk_eq rfl hw)
theorem vandn (d : VReg) (a : VReg) (b : VReg) (k : KReg) : Statement (.vandn d a b k) := by
  refine Sys2Proof.RoundTrip.plain 6 0x13 (PV.toBits ⟨d, a, b, 0, k, 10, 0, 0⟩) 6 0x13 (by decide) rfl rfl (fun _ => rfl) rfl fun hw => ?_
  rw [decodeUnit_6, PV.of_toBits]
  simp only [decodeU6]
  first | rfl | exact chk_eq rfl hw | (simp [cat_hi, cat_lo]; done) | (simp [cat_hi, cat_lo]; exact chk_eq rfl hw)
theorem vshl (d : VReg) (a : VReg) (b : VReg) (k : KReg) : Statement (.vshl d a b k) := by
  refine Sys2Proof.RoundTrip.plain 6 0x14 (PV.toBits ⟨d, a, b, 0, k, 10, 0, 0⟩) 6 0x14 (by decide) rfl rfl (fun _ => rfl) rfl fun hw => ?_
  rw [decodeUnit_6, PV.of_toBits]
  simp only [decodeU6]
  first | rfl | exact chk_eq rfl hw | (simp [cat_hi, cat_lo]; done) | (simp [cat_hi, cat_lo]; exact chk_eq rfl hw)
theorem vshr (d : VReg) (a : VReg) (b : VReg) (k : KReg) : Statement (.vshr d a b k) := by
  refine Sys2Proof.RoundTrip.plain 6 0x15 (PV.toBits ⟨d, a, b, 0, k, 10, 0, 0⟩) 6 0x15 (by decide) rfl rfl (fun _ => rfl) rfl fun hw => ?_
  rw [decodeUnit_6, PV.of_toBits]
  simp only [decodeU6]
  first | rfl | exact chk_eq rfl hw | (simp [cat_hi, cat_lo]; done) | (simp [cat_hi, cat_lo]; exact chk_eq rfl hw)
theorem vsar (d : VReg) (a : VReg) (b : VReg) (k : KReg) : Statement (.vsar d a b k) := by
  refine Sys2Proof.RoundTrip.plain 6 0x16 (PV.toBits ⟨d, a, b, 0, k, 10, 0, 0⟩) 6 0x16 (by decide) rfl rfl (fun _ => rfl) rfl fun hw => ?_
  rw [decodeUnit_6, PV.of_toBits]
  simp only [decodeU6]
  first | rfl | exact chk_eq rfl hw | (simp [cat_hi, cat_lo]; done) | (simp [cat_hi, cat_lo]; exact chk_eq rfl hw)
theorem vpopc (d : VReg) (a : VReg) (k : KReg) : Statement (.vpopc d a k) := by
  refine Sys2Proof.RoundTrip.plain 6 0x17 (PV.toBits ⟨d, a, 0, 0, k, 10, 0, 0⟩) 6 0x17 (by decide) rfl rfl (fun _ => rfl) rfl fun hw => ?_
  rw [decodeUnit_6, PV.of_toBits]
  simp only [decodeU6]
  first | rfl | exact chk_eq rfl hw | (simp [cat_hi, cat_lo]; done) | (simp [cat_hi, cat_lo]; exact chk_eq rfl hw)
theorem vcmpeq (ty : LaneTy) (d : KReg) (a : VReg) (b : VReg) (k : KReg) : Statement (.vcmpeq ty d a b k) := by
  refine Sys2Proof.RoundTrip.plain 6 0x18 (PV.toBits ⟨cat 5 0#2 d, a, b, 0, k, ty.code, 0, 0⟩) 6 0x18 (by decide) rfl rfl (fun _ => rfl) rfl fun hw => ?_
  rw [decodeUnit_6, PV.of_toBits]
  simp only [decodeU6, LaneTy.ofCode_code, Option.bind_some]
  first | rfl | exact chk_eq rfl hw | (simp [cat_hi, cat_lo]; done) | (simp [cat_hi, cat_lo]; exact chk_eq rfl hw)
theorem vcmpne (ty : LaneTy) (d : KReg) (a : VReg) (b : VReg) (k : KReg) : Statement (.vcmpne ty d a b k) := by
  refine Sys2Proof.RoundTrip.plain 6 0x19 (PV.toBits ⟨cat 5 0#2 d, a, b, 0, k, ty.code, 0, 0⟩) 6 0x19 (by decide) rfl rfl (fun _ => rfl) rfl fun hw => ?_
  rw [decodeUnit_6, PV.of_toBits]
  simp only [decodeU6, LaneTy.ofCode_code, Option.bind_some]
  first | rfl | exact chk_eq rfl hw | (simp [cat_hi, cat_lo]; done) | (simp [cat_hi, cat_lo]; exact chk_eq rfl hw)
theorem vcmplt (ty : LaneTy) (d : KReg) (a : VReg) (b : VReg) (k : KReg) : Statement (.vcmplt ty d a b k) := by
  refine Sys2Proof.RoundTrip.plain 6 0x1A (PV.toBits ⟨cat 5 0#2 d, a, b, 0, k, ty.code, 0, 0⟩) 6 0x1A (by decide) rfl rfl (fun _ => rfl) rfl fun hw => ?_
  rw [decodeUnit_6, PV.of_toBits]
  simp only [decodeU6, LaneTy.ofCode_code, Option.bind_some]
  first | rfl | exact chk_eq rfl hw | (simp [cat_hi, cat_lo]; done) | (simp [cat_hi, cat_lo]; exact chk_eq rfl hw)
theorem vcmple (ty : LaneTy) (d : KReg) (a : VReg) (b : VReg) (k : KReg) : Statement (.vcmple ty d a b k) := by
  refine Sys2Proof.RoundTrip.plain 6 0x1B (PV.toBits ⟨cat 5 0#2 d, a, b, 0, k, ty.code, 0, 0⟩) 6 0x1B (by decide) rfl rfl (fun _ => rfl) rfl fun hw => ?_
  rw [decodeUnit_6, PV.of_toBits]
  simp only [decodeU6, LaneTy.ofCode_code, Option.bind_some]
  first | rfl | exact chk_eq rfl hw | (simp [cat_hi, cat_lo]; done) | (simp [cat_hi, cat_lo]; exact chk_eq rfl hw)
theorem vcvt (d : Ty) (s : Ty) (r : Rnd) (v : VReg) (a : VReg) (k : KReg) : Statement (.vcvt d s r v a k) := by
  refine Sys2Proof.RoundTrip.plain 6 0x20 (PV.toBits ⟨v, a, 0, 0, k, d.code, r.code, cat 18 0#14 s.code⟩) 6 0x20 (by decide) rfl rfl (fun _ => rfl) rfl fun hw => ?_
  rw [decodeUnit_6, PV.of_toBits]
  simp only [decodeU6, Ty.ofCode_code, Rnd.ofCode_code, Option.bind_some]
  simp [cat_hi, cat_lo, Ty.ofCode_code, Rnd.ofCode_code]
  exact chk_eq (by first | rfl | rw [extract_beyond l]; rfl) hw
theorem vsel (ty : LaneTy) (d : VReg) (a : VReg) (b : VReg) (k : KReg) : Statement (.vsel ty d a b k) := by
  refine Sys2Proof.RoundTrip.plain 6 0x21 (PV.toBits ⟨d, a, b, 0, k, ty.code, 0, 0⟩) 6 0x21 (by decide) rfl rfl (fun _ => rfl) rfl fun hw => ?_
  rw [decodeUnit_6, PV.of_toBits]
  simp only [decodeU6, LaneTy.ofCode_code, Option.bind_some]
  first | rfl | exact chk_eq rfl hw | (simp [cat_hi, cat_lo]; done) | (simp [cat_hi, cat_lo]; exact chk_eq rfl hw)
theorem vmovi (ty : LaneTy) (d : VReg) (x : W32) (k : KReg) : Statement (.vmovi ty d x k) := by
  refine Sys2Proof.RoundTrip.prefixed (i0 := .vmovi ty d ((if (x.extractLsb' 0 18).signExtend 32 = x then x.extractLsb' 0 18 else 0).signExtend 32) k) 6 0x22 (PV.toBits ⟨d, 0, 0, 0, k, ty.code, 0, if (x.extractLsb' 0 18).signExtend 32 = x then x.extractLsb' 0 18 else 0⟩) 6 0x22 (by decide) rfl rfl (fun _ => rfl) (fun hw => ?_) fun hw => ?_
  · rw [decodeUnit_6, PV.of_toBits]
    simp only [decodeU6, LaneTy.ofCode_code, Option.bind_some]
    exact chk_eq rfl rfl
  · by_cases h : (x.extractLsb' 0 18).signExtend 32 = x
    · exact .inl ⟨if_pos h, by rw [if_pos h, h]⟩
    · exact .inr ⟨_, _, if_neg h, isPfx_pfxWord (by decide), decodePfx_imm _, by rw [if_neg h]; rfl⟩
theorem vbcs (ty : LaneTy) (d : VReg) (a : SReg) (k : KReg) : Statement (.vbcs ty d a k) := by
  refine Sys2Proof.RoundTrip.plain 6 0x23 (PV.toBits ⟨d, 0, 0, 0, k, ty.code, 0, cat 18 0#12 a⟩) 6 0x23 (by decide) rfl rfl (fun _ => rfl) rfl fun hw => ?_
  rw [decodeUnit_6, PV.of_toBits]
  simp only [decodeU6, LaneTy.ofCode_code, Option.bind_some]
  first | rfl | exact chk_eq rfl hw | (simp [cat_hi, cat_lo]; done) | (simp [cat_hi, cat_lo]; exact chk_eq rfl hw)
theorem vexp2 (d : VReg) (a : VReg) (k : KReg) : Statement (.vexp2 d a k) := by
  refine Sys2Proof.RoundTrip.plain 6 0x28 (PV.toBits ⟨d, a, 0, 0, k, 0, 0, 0⟩) 6 0x28 (by decide) rfl rfl (fun _ => rfl) rfl fun hw => ?_
  rw [decodeUnit_6, PV.of_toBits]
  simp only [decodeU6]
  first | rfl | exact chk_eq rfl hw | (simp [cat_hi, cat_lo]; done) | (simp [cat_hi, cat_lo]; exact chk_eq rfl hw)
theorem vlog2 (d : VReg) (a : VReg) (k : KReg) : Statement (.vlog2 d a k) := by
  refine Sys2Proof.RoundTrip.plain 6 0x29 (PV.toBits ⟨d, a, 0, 0, k, 0, 0, 0⟩) 6 0x29 (by decide) rfl rfl (fun _ => rfl) rfl fun hw => ?_
  rw [decodeUnit_6, PV.of_toBits]
  simp only [decodeU6]
  first | rfl | exact chk_eq rfl hw | (simp [cat_hi, cat_lo]; done) | (simp [cat_hi, cat_lo]; exact chk_eq rfl hw)
theorem vrcp (d : VReg) (a : VReg) (k : KReg) : Statement (.vrcp d a k) := by
  refine Sys2Proof.RoundTrip.plain 6 0x2A (PV.toBits ⟨d, a, 0, 0, k, 0, 0, 0⟩) 6 0x2A (by decide) rfl rfl (fun _ => rfl) rfl fun hw => ?_
  rw [decodeUnit_6, PV.of_toBits]
  simp only [decodeU6]
  first | rfl | exact chk_eq rfl hw | (simp [cat_hi, cat_lo]; done) | (simp [cat_hi, cat_lo]; exact chk_eq rfl hw)
theorem vrsq (d : VReg) (a : VReg) (k : KReg) : Statement (.vrsq d a k) := by
  refine Sys2Proof.RoundTrip.plain 6 0x2B (PV.toBits ⟨d, a, 0, 0, k, 0, 0, 0⟩) 6 0x2B (by decide) rfl rfl (fun _ => rfl) rfl fun hw => ?_
  rw [decodeUnit_6, PV.of_toBits]
  simp only [decodeU6]
  first | rfl | exact chk_eq rfl hw | (simp [cat_hi, cat_lo]; done) | (simp [cat_hi, cat_lo]; exact chk_eq rfl hw)
theorem vsqrt (d : VReg) (a : VReg) (k : KReg) : Statement (.vsqrt d a k) := by
  refine Sys2Proof.RoundTrip.plain 6 0x2C (PV.toBits ⟨d, a, 0, 0, k, 0, 0, 0⟩) 6 0x2C (by decide) rfl rfl (fun _ => rfl) rfl fun hw => ?_
  rw [decodeUnit_6, PV.of_toBits]
  simp only [decodeU6]
  first | rfl | exact chk_eq rfl hw | (simp [cat_hi, cat_lo]; done) | (simp [cat_hi, cat_lo]; exact chk_eq rfl hw)
theorem vtanh (d : VReg) (a : VReg) (k : KReg) : Statement (.vtanh d a k) := by
  refine Sys2Proof.RoundTrip.plain 6 0x2D (PV.toBits ⟨d, a, 0, 0, k, 0, 0, 0⟩) 6 0x2D (by decide) rfl rfl (fun _ => rfl) rfl fun hw => ?_
  rw [decodeUnit_6, PV.of_toBits]
  simp only [decodeU6]
  first | rfl | exact chk_eq rfl hw | (simp [cat_hi, cat_lo]; done) | (simp [cat_hi, cat_lo]; exact chk_eq rfl hw)
theorem vsinpi (d : VReg) (a : VReg) (k : KReg) : Statement (.vsinpi d a k) := by
  refine Sys2Proof.RoundTrip.plain 6 0x2E (PV.toBits ⟨d, a, 0, 0, k, 0, 0, 0⟩) 6 0x2E (by decide) rfl rfl (fun _ => rfl) rfl fun hw => ?_
  rw [decodeUnit_6, PV.of_toBits]
  simp only [decodeU6]
  first | rfl | exact chk_eq rfl hw | (simp [cat_hi, cat_lo]; done) | (simp [cat_hi, cat_lo]; exact chk_eq rfl hw)
theorem vcospi (d : VReg) (a : VReg) (k : KReg) : Statement (.vcospi d a k) := by
  refine Sys2Proof.RoundTrip.plain 6 0x2F (PV.toBits ⟨d, a, 0, 0, k, 0, 0, 0⟩) 6 0x2F (by decide) rfl rfl (fun _ => rfl) rfl fun hw => ?_
  rw [decodeUnit_6, PV.of_toBits]
  simp only [decodeU6]
  first | rfl | exact chk_eq rfl hw | (simp [cat_hi, cat_lo]; done) | (simp [cat_hi, cat_lo]; exact chk_eq rfl hw)
theorem vhash (d : VReg) (a : VReg) (s : SReg) (k : KReg) : Statement (.vhash d a s k) := by
  refine Sys2Proof.RoundTrip.plain 6 0x30 (PV.toBits ⟨d, a, 0, 0, k, 10, 0, cat 18 0#12 s⟩) 6 0x30 (by decide) rfl rfl (fun _ => rfl) rfl fun hw => ?_
  rw [decodeUnit_6, PV.of_toBits]
  simp only [decodeU6]
  first | rfl | exact chk_eq rfl hw | (simp [cat_hi, cat_lo]; done) | (simp [cat_hi, cat_lo]; exact chk_eq rfl hw)
theorem vld (ty : Ty) (d : VReg) (h : HReg) : Statement (.vld ty d h) := by
  refine Sys2Proof.RoundTrip.plain 7 0x00 (PV.toBits ⟨d, 0, 0, 0, 0, ty.code, 0, cat 18 h 0#13⟩) 7 0x00 (by decide) rfl rfl (fun _ => rfl) rfl fun hw => ?_
  rw [decodeUnit_7, PV.of_toBits]
  simp only [decodeU7, Ty.ofCode_code, Option.bind_some]
  first | rfl | exact chk_eq rfl hw | (simp [cat_hi, cat_lo]; done) | (simp [cat_hi, cat_lo]; exact chk_eq rfl hw)
theorem vst (ty : Ty) (r : Rnd) (h : HReg) (a : VReg) : Statement (.vst ty r h a) := by
  refine Sys2Proof.RoundTrip.plain 7 0x01 (PV.toBits ⟨0, a, 0, 0, 0, ty.code, r.code, cat 18 h 0#13⟩) 7 0x01 (by decide) rfl rfl (fun _ => rfl) rfl fun hw => ?_
  rw [decodeUnit_7, PV.of_toBits]
  simp only [decodeU7, Ty.ofCode_code, Rnd.ofCode_code, Option.bind_some]
  first | rfl | exact chk_eq rfl hw | (simp [cat_hi, cat_lo]; done) | (simp [cat_hi, cat_lo]; exact chk_eq rfl hw)
theorem vldr (ty : Ty) (d : VReg) (h : HReg) (n : BitVec 4) : Statement (.vldr ty d h n) := by
  refine Sys2Proof.RoundTrip.plain 7 0x02 (PV.toBits ⟨d, 0, 0, 0, 0, ty.code, 0, cat 18 (cat 9 h n) 0#9⟩) 7 0x02 (by decide) rfl rfl (fun _ => rfl) rfl fun hw => ?_
  rw [decodeUnit_7, PV.of_toBits]
  simp only [decodeU7, Ty.ofCode_code, Option.bind_some]
  first | rfl | exact chk_eq rfl hw | (simp [cat_hi, cat_lo]; done) | (simp [cat_hi, cat_lo]; exact chk_eq rfl hw)
theorem vstr (ty : Ty) (r : Rnd) (h : HReg) (a : VReg) (n : BitVec 4) : Statement (.vstr ty r h a n) := by
  refine Sys2Proof.RoundTrip.plain 7 0x03 (PV.toBits ⟨0, a, 0, 0, 0, ty.code, r.code, cat 18 (cat 9 h n) 0#9⟩) 7 0x03 (by decide) rfl rfl (fun _ => rfl) rfl fun hw => ?_
  rw [decodeUnit_7, PV.of_toBits]
  simp only [decodeU7, Ty.ofCode_code, Rnd.ofCode_code, Option.bind_some]
  first | rfl | exact chk_eq rfl hw | (simp [cat_hi, cat_lo]; done) | (simp [cat_hi, cat_lo]; exact chk_eq rfl hw)
theorem vmov (d : VReg) (a : VReg) : Statement (.vmov d a) := by
  refine Sys2Proof.RoundTrip.plain 7 0x04 (PV.toBits ⟨d, a, 0, 0, 0, 0, 0, 0⟩) 7 0x04 (by decide) rfl rfl (fun _ => rfl) rfl fun hw => ?_
  rw [decodeUnit_7, PV.of_toBits]
  simp only [decodeU7]
  first | rfl | exact chk_eq rfl hw | (simp [cat_hi, cat_lo]; done) | (simp [cat_hi, cat_lo]; exact chk_eq rfl hw)
theorem vext (d : SReg) (a : VReg) (n : BitVec 10) : Statement (.vext d a n) := by
  refine Sys2Proof.RoundTrip.plain 7 0x05 (PV.toBits ⟨0, a, 0, 0, 0, 0, 0, cat 18 (cat 8 d 0#2) n⟩) 7 0x05 (by decide) rfl rfl (fun _ => rfl) rfl fun hw => ?_
  rw [decodeUnit_7, PV.of_toBits]
  simp only [decodeU7]
  first | rfl | exact chk_eq rfl hw | (simp [cat_hi, cat_lo]; done) | (simp [cat_hi, cat_lo]; exact chk_eq rfl hw)
theorem vins (d : VReg) (a : SReg) (n : BitVec 10) : Statement (.vins d a n) := by
  refine Sys2Proof.RoundTrip.plain 7 0x06 (PV.toBits ⟨d, 0, 0, 0, 0, 0, 0, cat 18 (cat 8 a 0#2) n⟩) 7 0x06 (by decide) rfl rfl (fun _ => rfl) rfl fun hw => ?_
  rw [decodeUnit_7, PV.of_toBits]
  simp only [decodeU7]
  first | rfl | exact chk_eq rfl hw | (simp [cat_hi, cat_lo]; done) | (simp [cat_hi, cat_lo]; exact chk_eq rfl hw)
theorem vrotr (d : VReg) (a : VReg) (n : BitVec 6) : Statement (.vrotr d a n) := by
  refine Sys2Proof.RoundTrip.plain 7 0x08 (PV.toBits ⟨d, a, 0, 0, 0, 0, 0, cat 18 0#12 n⟩) 7 0x08 (by decide) rfl rfl (fun _ => rfl) rfl fun hw => ?_
  rw [decodeUnit_7, PV.of_toBits]
  simp only [decodeU7]
  first | rfl | exact chk_eq rfl hw | (simp [cat_hi, cat_lo]; done) | (simp [cat_hi, cat_lo]; exact chk_eq rfl hw)
theorem vbcr (d : VReg) (a : VReg) (n : BitVec 6) : Statement (.vbcr d a n) := by
  refine Sys2Proof.RoundTrip.plain 7 0x09 (PV.toBits ⟨d, a, 0, 0, 0, 0, 0, cat 18 0#12 n⟩) 7 0x09 (by decide) rfl rfl (fun _ => rfl) rfl fun hw => ?_
  rw [decodeUnit_7, PV.of_toBits]
  simp only [decodeU7]
  first | rfl | exact chk_eq rfl hw | (simp [cat_hi, cat_lo]; done) | (simp [cat_hi, cat_lo]; exact chk_eq rfl hw)
theorem vredr (ty : LaneTy) (q : RedOp) (d : VReg) (a : VReg) : Statement (.vredr ty q d a) := by
  refine Sys2Proof.RoundTrip.plain 7 0x0A (PV.toBits ⟨d, a, 0, 0, 0, ty.code, 0, cat 18 0#16 q.code⟩) 7 0x0A (by decide) rfl rfl (fun _ => rfl) rfl fun hw => ?_
  rw [decodeUnit_7, PV.of_toBits]
  simp only [decodeU7, LaneTy.ofCode_code, RedOp.ofCode_code, Option.bind_some]
  simp [cat_hi, cat_lo, LaneTy.ofCode_code, RedOp.ofCode_code]
  exact chk_eq (by first | rfl | rw [extract_beyond l]; rfl) hw
theorem vrotc (d : VReg) (a : VReg) (n : BitVec 4) : Statement (.vrotc d a n) := by
  refine Sys2Proof.RoundTrip.plain 7 0x0C (PV.toBits ⟨d, a, 0, 0, 0, 0, 0, cat 18 0#14 n⟩) 7 0x0C (by decide) rfl rfl (fun _ => rfl) rfl fun hw => ?_
  rw [decodeUnit_7, PV.of_toBits]
  simp only [decodeU7]
  first | rfl | exact chk_eq rfl hw | (simp [cat_hi, cat_lo]; done) | (simp [cat_hi, cat_lo]; exact chk_eq rfl hw)
theorem vbcc (d : VReg) (a : VReg) (n : BitVec 4) : Statement (.vbcc d a n) := by
  refine Sys2Proof.RoundTrip.plain 7 0x0D (PV.toBits ⟨d, a, 0, 0, 0, 0, 0, cat 18 0#14 n⟩) 7 0x0D (by decide) rfl rfl (fun _ => rfl) rfl fun hw => ?_
  rw [decodeUnit_7, PV.of_toBits]
  simp only [decodeU7]
  first | rfl | exact chk_eq rfl hw | (simp [cat_hi, cat_lo]; done) | (simp [cat_hi, cat_lo]; exact chk_eq rfl hw)
theorem vredc (ty : LaneTy) (q : RedOp) (d : VReg) (a : VReg) : Statement (.vredc ty q d a) := by
  refine Sys2Proof.RoundTrip.plain 7 0x0E (PV.toBits ⟨d, a, 0, 0, 0, ty.code, 0, cat 18 0#16 q.code⟩) 7 0x0E (by decide) rfl rfl (fun _ => rfl) rfl fun hw => ?_
  rw [decodeUnit_7, PV.of_toBits]
  simp only [decodeU7, LaneTy.ofCode_code, RedOp.ofCode_code, Option.bind_some]
  simp [cat_hi, cat_lo, LaneTy.ofCode_code, RedOp.ofCode_code]
  exact chk_eq (by first | rfl | rw [extract_beyond l]; rfl) hw
theorem vpermr (d : VReg) (a : VReg) (b : VReg) : Statement (.vpermr d a b) := by
  refine Sys2Proof.RoundTrip.plain 7 0x10 (PV.toBits ⟨d, a, b, 0, 0, 0, 0, 0⟩) 7 0x10 (by decide) rfl rfl (fun _ => rfl) rfl fun hw => ?_
  rw [decodeUnit_7, PV.of_toBits]
  simp only [decodeU7]
  first | rfl | exact chk_eq rfl hw | (simp [cat_hi, cat_lo]; done) | (simp [cat_hi, cat_lo]; exact chk_eq rfl hw)
theorem kand (d : KReg) (a : KReg) (b : KReg) : Statement (.kand d a b) := by
  refine Sys2Proof.RoundTrip.plain 7 0x18 (PV.toBits ⟨cat 5 0#2 d, cat 5 0#2 a, cat 5 0#2 b, 0, 0, 0, 0, 0⟩) 7 0x18 (by decide) rfl rfl (fun _ => rfl) rfl fun hw => ?_
  rw [decodeUnit_7, PV.of_toBits]
  simp only [decodeU7]
  first | rfl | exact chk_eq rfl hw | (simp [cat_hi, cat_lo]; done) | (simp [cat_hi, cat_lo]; exact chk_eq rfl hw)
theorem kor (d : KReg) (a : KReg) (b : KReg) : Statement (.kor d a b) := by
  refine Sys2Proof.RoundTrip.plain 7 0x19 (PV.toBits ⟨cat 5 0#2 d, cat 5 0#2 a, cat 5 0#2 b, 0, 0, 0, 0, 0⟩) 7 0x19 (by decide) rfl rfl (fun _ => rfl) rfl fun hw => ?_
  rw [decodeUnit_7, PV.of_toBits]
  simp only [decodeU7]
  first | rfl | exact chk_eq rfl hw | (simp [cat_hi, cat_lo]; done) | (simp [cat_hi, cat_lo]; exact chk_eq rfl hw)
theorem kxor (d : KReg) (a : KReg) (b : KReg) : Statement (.kxor d a b) := by
  refine Sys2Proof.RoundTrip.plain 7 0x1A (PV.toBits ⟨cat 5 0#2 d, cat 5 0#2 a, cat 5 0#2 b, 0, 0, 0, 0, 0⟩) 7 0x1A (by decide) rfl rfl (fun _ => rfl) rfl fun hw => ?_
  rw [decodeUnit_7, PV.of_toBits]
  simp only [decodeU7]
  first | rfl | exact chk_eq rfl hw | (simp [cat_hi, cat_lo]; done) | (simp [cat_hi, cat_lo]; exact chk_eq rfl hw)
theorem knot (d : KReg) (a : KReg) : Statement (.knot d a) := by
  refine Sys2Proof.RoundTrip.plain 7 0x1B (PV.toBits ⟨cat 5 0#2 d, cat 5 0#2 a, 0, 0, 0, 0, 0, 0⟩) 7 0x1B (by decide) rfl rfl (fun _ => rfl) rfl fun hw => ?_
  rw [decodeUnit_7, PV.of_toBits]
  simp only [decodeU7]
  first | rfl | exact chk_eq rfl hw | (simp [cat_hi, cat_lo]; done) | (simp [cat_hi, cat_lo]; exact chk_eq rfl hw)
theorem kpopc (d : SReg) (a : KReg) : Statement (.kpopc d a) := by
  refine Sys2Proof.RoundTrip.plain 7 0x1C (PV.toBits ⟨0, cat 5 0#2 a, 0, 0, 0, 0, 0, cat 18 0#12 d⟩) 7 0x1C (by decide) rfl rfl (fun _ => rfl) rfl fun hw => ?_
  rw [decodeUnit_7, PV.of_toBits]
  simp only [decodeU7]
  first | rfl | exact chk_eq rfl hw | (simp [cat_hi, cat_lo]; done) | (simp [cat_hi, cat_lo]; exact chk_eq rfl hw)
theorem kfirst (d : SReg) (a : KReg) : Statement (.kfirst d a) := by
  refine Sys2Proof.RoundTrip.plain 7 0x1D (PV.toBits ⟨0, cat 5 0#2 a, 0, 0, 0, 0, 0, cat 18 0#12 d⟩) 7 0x1D (by decide) rfl rfl (fun _ => rfl) rfl fun hw => ?_
  rw [decodeUnit_7, PV.of_toBits]
  simp only [decodeU7]
  first | rfl | exact chk_eq rfl hw | (simp [cat_hi, cat_lo]; done) | (simp [cat_hi, cat_lo]; exact chk_eq rfl hw)
theorem vargmaxr (ty : LaneTy) (d : VReg) (a : VReg) (k : KReg) : Statement (.vargmaxr ty d a k) := by
  refine Sys2Proof.RoundTrip.plain 8 0x00 (PV.toBits ⟨d, a, 0, 0, k, ty.code, 0, 0⟩) 8 0x00 (by decide) rfl rfl (fun _ => rfl) rfl fun hw => ?_
  rw [decodeUnit_8, PV.of_toBits]
  simp only [decodeU8, LaneTy.ofCode_code, Option.bind_some]
  first | rfl | exact chk_eq rfl hw | (simp [cat_hi, cat_lo]; done) | (simp [cat_hi, cat_lo]; exact chk_eq rfl hw)
theorem vargmaxc (ty : LaneTy) (d : VReg) (a : VReg) (k : KReg) : Statement (.vargmaxc ty d a k) := by
  refine Sys2Proof.RoundTrip.plain 8 0x01 (PV.toBits ⟨d, a, 0, 0, k, ty.code, 0, 0⟩) 8 0x01 (by decide) rfl rfl (fun _ => rfl) rfl fun hw => ?_
  rw [decodeUnit_8, PV.of_toBits]
  simp only [decodeU8, LaneTy.ofCode_code, Option.bind_some]
  first | rfl | exact chk_eq rfl hw | (simp [cat_hi, cat_lo]; done) | (simp [cat_hi, cat_lo]; exact chk_eq rfl hw)
theorem vargminr (ty : LaneTy) (d : VReg) (a : VReg) (k : KReg) : Statement (.vargminr ty d a k) := by
  refine Sys2Proof.RoundTrip.plain 8 0x02 (PV.toBits ⟨d, a, 0, 0, k, ty.code, 0, 0⟩) 8 0x02 (by decide) rfl rfl (fun _ => rfl) rfl fun hw => ?_
  rw [decodeUnit_8, PV.of_toBits]
  simp only [decodeU8, LaneTy.ofCode_code, Option.bind_some]
  first | rfl | exact chk_eq rfl hw | (simp [cat_hi, cat_lo]; done) | (simp [cat_hi, cat_lo]; exact chk_eq rfl hw)
theorem vargminc (ty : LaneTy) (d : VReg) (a : VReg) (k : KReg) : Statement (.vargminc ty d a k) := by
  refine Sys2Proof.RoundTrip.plain 8 0x03 (PV.toBits ⟨d, a, 0, 0, k, ty.code, 0, 0⟩) 8 0x03 (by decide) rfl rfl (fun _ => rfl) rfl fun hw => ?_
  rw [decodeUnit_8, PV.of_toBits]
  simp only [decodeU8, LaneTy.ofCode_code, Option.bind_some]
  first | rfl | exact chk_eq rfl hw | (simp [cat_hi, cat_lo]; done) | (simp [cat_hi, cat_lo]; exact chk_eq rfl hw)
theorem vtopk (ty : LaneTy) (d : VReg) (a : VReg) (b : VReg) (k : KReg) (n : BitVec 7) : Statement (.vtopk ty d a b k n) := by
  refine Sys2Proof.RoundTrip.plain 8 0x08 (PV.toBits ⟨d, a, b, 0, k, ty.code, 0, cat 18 0#11 n⟩) 8 0x08 (by decide) rfl rfl (fun _ => rfl) rfl fun hw => ?_
  rw [decodeUnit_8, PV.of_toBits]
  simp only [decodeU8, LaneTy.ofCode_code, Option.bind_some]
  first | rfl | exact chk_eq rfl hw | (simp [cat_hi, cat_lo]; done) | (simp [cat_hi, cat_lo]; exact chk_eq rfl hw)
theorem vtopkm (ty : LaneTy) (d : VReg) (a : VReg) (b : VReg) (n : BitVec 7) : Statement (.vtopkm ty d a b n) := by
  refine Sys2Proof.RoundTrip.plain 8 0x09 (PV.toBits ⟨d, a, b, 0, 0, ty.code, 0, cat 18 0#11 n⟩) 8 0x09 (by decide) rfl rfl (fun _ => rfl) rfl fun hw => ?_
  rw [decodeUnit_8, PV.of_toBits]
  simp only [decodeU8, LaneTy.ofCode_code, Option.bind_some]
  first | rfl | exact chk_eq rfl hw | (simp [cat_hi, cat_lo]; done) | (simp [cat_hi, cat_lo]; exact chk_eq rfl hw)
theorem vpart (d : VReg) (a : SReg) (b : SReg) (k : KReg) : Statement (.vpart d a b k) := by
  refine Sys2Proof.RoundTrip.plain 8 0x10 (PV.toBits ⟨d, 0, 0, 0, k, 0, 0, cat 18 (cat 12 a b) 0#6⟩) 8 0x10 (by decide) rfl rfl (fun _ => rfl) rfl fun hw => ?_
  rw [decodeUnit_8, PV.of_toBits]
  simp only [decodeU8]
  first | rfl | exact chk_eq rfl hw | (simp [cat_hi, cat_lo]; done) | (simp [cat_hi, cat_lo]; exact chk_eq rfl hw)
theorem vbucket (d : VReg) (a : VReg) (n : BitVec 5) (k : KReg) : Statement (.vbucket d a n k) := by
  refine Sys2Proof.RoundTrip.plain 8 0x11 (PV.toBits ⟨d, a, 0, 0, k, 0, 0, cat 18 0#13 n⟩) 8 0x11 (by decide) rfl rfl (fun _ => rfl) rfl fun hw => ?_
  rw [decodeUnit_8, PV.of_toBits]
  simp only [decodeU8]
  first | rfl | exact chk_eq rfl hw | (simp [cat_hi, cat_lo]; done) | (simp [cat_hi, cat_lo]; exact chk_eq rfl hw)
theorem vprune48 (ty : Ty) (d : VReg) (a : VReg) : Statement (.vprune48 ty d a) := by
  refine Sys2Proof.RoundTrip.plain 8 0x18 (PV.toBits ⟨d, a, 0, 0, 0, ty.code, 0, 0⟩) 8 0x18 (by decide) rfl rfl (fun _ => rfl) rfl fun hw => ?_
  rw [decodeUnit_8, PV.of_toBits]
  simp only [decodeU8, Ty.ofCode_code, Option.bind_some]
  first | rfl | exact chk_eq rfl hw | (simp [cat_hi, cat_lo]; done) | (simp [cat_hi, cat_lo]; exact chk_eq rfl hw)
theorem vspread48 (ty : Ty) (d : VReg) (a : VReg) : Statement (.vspread48 ty d a) := by
  refine Sys2Proof.RoundTrip.plain 8 0x19 (PV.toBits ⟨d, a, 0, 0, 0, ty.code, 0, 0⟩) 8 0x19 (by decide) rfl rfl (fun _ => rfl) rfl fun hw => ?_
  rw [decodeUnit_8, PV.of_toBits]
  simp only [decodeU8, Ty.ofCode_code, Option.bind_some]
  first | rfl | exact chk_eq rfl hw | (simp [cat_hi, cat_lo]; done) | (simp [cat_hi, cat_lo]; exact chk_eq rfl hw)
theorem vcompress (d : VReg) (a : VReg) (n : SReg) (k : KReg) : Statement (.vcompress d a n k) := by
  refine Sys2Proof.RoundTrip.plain 8 0x20 (PV.toBits ⟨d, a, 0, 0, k, 0, 0, cat 18 0#12 n⟩) 8 0x20 (by decide) rfl rfl (fun _ => rfl) rfl fun hw => ?_
  rw [decodeUnit_8, PV.of_toBits]
  simp only [decodeU8]
  first | rfl | exact chk_eq rfl hw | (simp [cat_hi, cat_lo]; done) | (simp [cat_hi, cat_lo]; exact chk_eq rfl hw)
theorem vexpand (d : VReg) (a : VReg) (n : SReg) (k : KReg) : Statement (.vexpand d a n k) := by
  refine Sys2Proof.RoundTrip.plain 8 0x21 (PV.toBits ⟨d, a, 0, 0, k, 0, 0, cat 18 0#12 n⟩) 8 0x21 (by decide) rfl rfl (fun _ => rfl) rfl fun hw => ?_
  rw [decodeUnit_8, PV.of_toBits]
  simp only [decodeU8]
  first | rfl | exact chk_eq rfl hw | (simp [cat_hi, cat_lo]; done) | (simp [cat_hi, cat_lo]; exact chk_eq rfl hw)
theorem tld (t : TReg) (h : HReg) (e : Eng) : Statement (.tld t h e) := by
  refine Sys2Proof.RoundTrip.engine (i0 := .tld t h (eng0 e)) 9 0x00 (OET.toBits ⟨t, cat 20 h 0#15⟩) 9 0x00 (by decide) rfl rfl (fun _ => rfl) rfl rfl rfl rfl rfl fun hw => ?_
  obtain ⟨h1, h2, h3⟩ := PE_of_engBits e (OET.toBits ⟨t, cat 20 h 0#15⟩)
  rw [decodeUnit_9]
  simp only [decodeU9, h1, h2, h3, OET.of_toBits]
  simp [cat_hi, cat_lo]
  exact chk_eq rfl rfl
theorem tldw (t : TReg) (a : SReg) (e : Eng) : Statement (.tldw t a e) := by
  refine Sys2Proof.RoundTrip.engine (i0 := .tldw t a (eng0 e)) 9 0x01 (OET.toBits ⟨t, cat 20 a 0#14⟩) 9 0x01 (by decide) rfl rfl (fun _ => rfl) rfl rfl rfl rfl rfl fun hw => ?_
  obtain ⟨h1, h2, h3⟩ := PE_of_engBits e (OET.toBits ⟨t, cat 20 a 0#14⟩)
  rw [decodeUnit_9]
  simp only [decodeU9, h1, h2, h3, OET.of_toBits]
  simp [cat_hi, cat_lo]
  exact chk_eq rfl rfl
theorem tst (t : TReg) (h : HReg) (e : Eng) : Statement (.tst t h e) := by
  refine Sys2Proof.RoundTrip.engine (i0 := .tst t h (eng0 e)) 9 0x02 (OET.toBits ⟨t, cat 20 h 0#15⟩) 9 0x02 (by decide) rfl rfl (fun _ => rfl) rfl rfl rfl rfl rfl fun hw => ?_
  obtain ⟨h1, h2, h3⟩ := PE_of_engBits e (OET.toBits ⟨t, cat 20 h 0#15⟩)
  rw [decodeUnit_9]
  simp only [decodeU9, h1, h2, h3, OET.of_toBits]
  simp [cat_hi, cat_lo]
  exact chk_eq rfl rfl
theorem mma (q : AReg) (x : TReg) (y : TReg) (a : Ty) (b : Ty) (c : Ty) (z : Bool) (e : Eng) : Statement (.mma q x y a b c z e) := by
  refine Sys2Proof.RoundTrip.engine (i0 := .mma q x y a b c z (eng0 e)) 9 0x08 (OMX.toBits ⟨q, x, y, a.code, b.code, c.code, 0, BitVec.ofBool z⟩) 9 0x08 (by decide) rfl rfl (fun _ => rfl) rfl rfl rfl rfl rfl fun hw => ?_
  obtain ⟨h1, h2, h3⟩ := PE_of_engBits e (OMX.toBits ⟨q, x, y, a.code, b.code, c.code, 0, BitVec.ofBool z⟩)
  rw [decodeUnit_9]
  simp only [decodeU9, decodeMX, h1, h2, h3, OMX.of_toBits, Ty.ofCode_code, Option.bind_some]
  rw [ofBool_beq_one]; exact chk_eq (by simp) (wf_noHold hw)
theorem mmaw (q : AReg) (x : TReg) (y : TReg) (a : Ty) (b : Ty) (c : Ty) (z : Bool) (e : Eng) : Statement (.mmaw q x y a b c z e) := by
  refine Sys2Proof.RoundTrip.engine (i0 := .mmaw q x y a b c z (eng0 e)) 9 0x09 (OMX.toBits ⟨q, x, y, a.code, b.code, c.code, 0, BitVec.ofBool z⟩) 9 0x09 (by decide) rfl rfl (fun _ => rfl) rfl rfl rfl rfl rfl fun hw => ?_
  obtain ⟨h1, h2, h3⟩ := PE_of_engBits e (OMX.toBits ⟨q, x, y, a.code, b.code, c.code, 0, BitVec.ofBool z⟩)
  rw [decodeUnit_9]
  simp only [decodeU9, decodeMX, h1, h2, h3, OMX.of_toBits, Ty.ofCode_code, Option.bind_some]
  rw [ofBool_beq_one]; exact chk_eq (by simp) (wf_noHold hw)
theorem mmasp (q : AReg) (x : TReg) (y : TReg) (a : Ty) (b : Ty) (c : Ty) (z : Bool) (e : Eng) : Statement (.mmasp q x y a b c z e) := by
  refine Sys2Proof.RoundTrip.engine (i0 := .mmasp q x y a b c z (eng0 e)) 9 0x0A (OMX.toBits ⟨q, x, y, a.code, b.code, c.code, 0, BitVec.ofBool z⟩) 9 0x0A (by decide) rfl rfl (fun _ => rfl) rfl rfl rfl rfl rfl fun hw => ?_
  obtain ⟨h1, h2, h3⟩ := PE_of_engBits e (OMX.toBits ⟨q, x, y, a.code, b.code, c.code, 0, BitVec.ofBool z⟩)
  rw [decodeUnit_9]
  simp only [decodeU9, decodeMX, h1, h2, h3, OMX.of_toBits, Ty.ofCode_code, Option.bind_some]
  rw [ofBool_beq_one]; exact chk_eq (by simp) (wf_noHold hw)
theorem mmaspw (q : AReg) (x : TReg) (y : TReg) (a : Ty) (b : Ty) (c : Ty) (z : Bool) (e : Eng) : Statement (.mmaspw q x y a b c z e) := by
  refine Sys2Proof.RoundTrip.engine (i0 := .mmaspw q x y a b c z (eng0 e)) 9 0x0B (OMX.toBits ⟨q, x, y, a.code, b.code, c.code, 0, BitVec.ofBool z⟩) 9 0x0B (by decide) rfl rfl (fun _ => rfl) rfl rfl rfl rfl rfl fun hw => ?_
  obtain ⟨h1, h2, h3⟩ := PE_of_engBits e (OMX.toBits ⟨q, x, y, a.code, b.code, c.code, 0, BitVec.ofBool z⟩)
  rw [decodeUnit_9]
  simp only [decodeU9, decodeMX, h1, h2, h3, OMX.of_toBits, Ty.ofCode_code, Option.bind_some]
  rw [ofBool_beq_one]; exact chk_eq (by simp) (wf_noHold hw)
theorem mtrans (q : AReg) (x : TReg) (a : Ty) (c : Ty) (z : Bool) (e : Eng) : Statement (.mtrans q x a c z e) := by
  refine Sys2Proof.RoundTrip.engine (i0 := .mtrans q x a c z (eng0 e)) 9 0x0C (OMX.toBits ⟨q, x, 0, a.code, a.code, c.code, 0, BitVec.ofBool z⟩) 9 0x0C (by decide) rfl rfl (fun _ => rfl) rfl rfl rfl rfl rfl fun hw => ?_
  obtain ⟨h1, h2, h3⟩ := PE_of_engBits e (OMX.toBits ⟨q, x, 0, a.code, a.code, c.code, 0, BitVec.ofBool z⟩)
  rw [decodeUnit_9]
  simp only [decodeU9, decodeMX, h1, h2, h3, OMX.of_toBits, Ty.ofCode_code, Option.bind_some]
  rw [ofBool_beq_one]; exact chk_eq (by simp) (wf_noHold hw)
theorem mperm (q : AReg) (x : TReg) (y : TReg) (a : Ty) (c : Ty) (z : Bool) (e : Eng) : Statement (.mperm q x y a c z e) := by
  refine Sys2Proof.RoundTrip.engine (i0 := .mperm q x y a c z (eng0 e)) 9 0x0D (OMX.toBits ⟨q, x, y, a.code, 10, c.code, 0, BitVec.ofBool z⟩) 9 0x0D (by decide) rfl rfl (fun _ => rfl) rfl rfl rfl rfl rfl fun hw => ?_
  obtain ⟨h1, h2, h3⟩ := PE_of_engBits e (OMX.toBits ⟨q, x, y, a.code, 10, c.code, 0, BitVec.ofBool z⟩)
  rw [decodeUnit_9]
  simp only [decodeU9, decodeMX, h1, h2, h3, OMX.of_toBits, Ty.ofCode_code, Option.bind_some]
  rw [ofBool_beq_one]; exact chk_eq (by simp) (wf_noHold hw)
theorem mrsum (q : AReg) (x : TReg) (a : Ty) (c : Ty) (z : Bool) (e : Eng) : Statement (.mrsum q x a c z e) := by
  refine Sys2Proof.RoundTrip.engine (i0 := .mrsum q x a c z (eng0 e)) 9 0x0E (OMX.toBits ⟨q, x, 0, a.code, 0, c.code, 0, BitVec.ofBool z⟩) 9 0x0E (by decide) rfl rfl (fun _ => rfl) rfl rfl rfl rfl rfl fun hw => ?_
  obtain ⟨h1, h2, h3⟩ := PE_of_engBits e (OMX.toBits ⟨q, x, 0, a.code, 0, c.code, 0, BitVec.ofBool z⟩)
  rw [decodeUnit_9]
  simp only [decodeU9, decodeMX, h1, h2, h3, OMX.of_toBits, Ty.ofCode_code, Option.bind_some]
  rw [ofBool_beq_one]; exact chk_eq (by simp) (wf_noHold hw)
theorem mzero (q : AReg) (e : Eng) : Statement (.mzero q e) := by
  refine Sys2Proof.RoundTrip.engine (i0 := .mzero q (eng0 e)) 9 0x10 (cat 24 q 0#22) 9 0x10 (by decide) rfl rfl (fun _ => rfl) rfl rfl rfl rfl rfl fun hw => ?_
  obtain ⟨h1, h2, h3⟩ := PE_of_engBits e (cat 24 q 0#22)
  rw [decodeUnit_9]
  simp only [decodeU9, h1, h2, h3]
  simp [cat_hi, cat_lo]
  exact chk_eq rfl rfl
theorem mdrain (q : AReg) (ty : Ty) (r : Rnd) (d : DrainTo) (e : Eng) : Statement (.mdrain q ty r d e) := by
  cases d with
  | tile t =>
    refine Sys2Proof.RoundTrip.engine (i0 := .mdrain q ty r (.tile t) (eng0 e)) 9 0x11 (OED.toBits ⟨q, ty.code, r.code, 0, cat 5 0#1 t, 0⟩) 9 0x11 (by decide) rfl rfl (fun _ => rfl) rfl rfl rfl rfl rfl fun hw => ?_
    obtain ⟨h1, h2, h3⟩ := PE_of_engBits e (OED.toBits ⟨q, ty.code, r.code, 0, cat 5 0#1 t, 0⟩)
    rw [decodeUnit_9]
    simp only [decodeU9, h1, h2, h3, OED.of_toBits]
    simp [cat_hi, cat_lo, Ty.ofCode_code, Rnd.ofCode_code]
    exact chk_eq rfl (wf_noHold hw)
  | handle h =>
    refine Sys2Proof.RoundTrip.engine (i0 := .mdrain q ty r (.handle h) (eng0 e)) 9 0x11 (OED.toBits ⟨q, ty.code, r.code, 1, h, 0⟩) 9 0x11 (by decide) rfl rfl (fun _ => rfl) rfl rfl rfl rfl rfl fun hw => ?_
    obtain ⟨h1, h2, h3⟩ := PE_of_engBits e (OED.toBits ⟨q, ty.code, r.code, 1, h, 0⟩)
    rw [decodeUnit_9]
    simp only [decodeU9, h1, h2, h3, OED.of_toBits]
    simp [Ty.ofCode_code, Rnd.ofCode_code]
    exact chk_eq rfl (wf_noHold hw)
theorem mnop (e : Eng) : Statement (.mnop e) := by
  refine Sys2Proof.RoundTrip.engine (i0 := .mnop (eng0 e)) 9 0x18 (0) 9 0x18 (by decide) rfl rfl (fun _ => rfl) rfl rfl rfl rfl rfl fun hw => ?_
  obtain ⟨h1, h2, h3⟩ := PE_of_engBits e (0)
  rw [decodeUnit_9]
  simp only [decodeU9, h1, h2, h3]
  simp
  exact chk_eq rfl rfl
theorem copy (d : HReg) (h : HReg) (a : SReg) (l : Bool) (e : Eng) : Statement (.copy d h a l e) := by
  refine Sys2Proof.RoundTrip.engine (i0 := .copy d h a l (eng0 e)) 10 0x00 (OEC.toBits ⟨d, h, a, 0, BitVec.ofBool l, 0⟩) 10 0x00 (by decide) rfl rfl (fun _ => rfl) rfl rfl rfl rfl rfl fun hw => ?_
  obtain ⟨h1, h2, h3⟩ := PE_of_engBits e (OEC.toBits ⟨d, h, a, 0, BitVec.ofBool l, 0⟩)
  rw [decodeUnit_10]
  simp only [decodeU10, h1, h2, h3, OEC.of_toBits]
  simp [ofBool_beq_one_lit]
  exact chk_eq rfl rfl
theorem gath (d : HReg) (h : HReg) (a : SReg) (l : Bool) (e : Eng) : Statement (.gath d h a l e) := by
  refine Sys2Proof.RoundTrip.engine (i0 := .gath d h a l (eng0 e)) 10 0x01 (OEC.toBits ⟨d, h, a, 0, BitVec.ofBool l, 0⟩) 10 0x01 (by decide) rfl rfl (fun _ => rfl) rfl rfl rfl rfl rfl fun hw => ?_
  obtain ⟨h1, h2, h3⟩ := PE_of_engBits e (OEC.toBits ⟨d, h, a, 0, BitVec.ofBool l, 0⟩)
  rw [decodeUnit_10]
  simp only [decodeU10, h1, h2, h3, OEC.of_toBits]
  simp [ofBool_beq_one_lit]
  exact chk_eq rfl rfl
theorem scat (d : HReg) (h : HReg) (a : SReg) (l : Bool) (e : Eng) : Statement (.scat d h a l e) := by
  refine Sys2Proof.RoundTrip.engine (i0 := .scat d h a l (eng0 e)) 10 0x02 (OEC.toBits ⟨d, h, a, 0, BitVec.ofBool l, 0⟩) 10 0x02 (by decide) rfl rfl (fun _ => rfl) rfl rfl rfl rfl rfl fun hw => ?_
  obtain ⟨h1, h2, h3⟩ := PE_of_engBits e (OEC.toBits ⟨d, h, a, 0, BitVec.ofBool l, 0⟩)
  rw [decodeUnit_10]
  simp only [decodeU10, h1, h2, h3, OEC.of_toBits]
  simp [ofBool_beq_one_lit]
  exact chk_eq rfl rfl
theorem fill (z : Size) (d : HReg) (a : SReg) (l : Bool) (e : Eng) : Statement (.fill z d a l e) := by
  refine Sys2Proof.RoundTrip.engine (i0 := .fill z d a l (eng0 e)) 10 0x03 (OEC.toBits ⟨d, 0, a, cat 4 0#2 z.code, BitVec.ofBool l, 0⟩) 10 0x03 (by decide) rfl rfl (fun _ => rfl) rfl rfl rfl rfl rfl fun hw => ?_
  obtain ⟨h1, h2, h3⟩ := PE_of_engBits e (OEC.toBits ⟨d, 0, a, cat 4 0#2 z.code, BitVec.ofBool l, 0⟩)
  rw [decodeUnit_10]
  simp only [decodeU10, h1, h2, h3, OEC.of_toBits, Size.ofCode_code, Option.bind_some]
  simp [cat_hi, cat_lo, Size.ofCode_code, ofBool_beq_one_lit]
  exact chk_eq rfl rfl
theorem reda (r : RedaOp) (d : HReg) (h : HReg) (l : Bool) (e : Eng) : Statement (.reda r d h l e) := by
  refine Sys2Proof.RoundTrip.engine (i0 := .reda r d h l (eng0 e)) 10 0x04 (OEC.toBits ⟨d, h, 0, r.code, BitVec.ofBool l, 0⟩) 10 0x04 (by decide) rfl rfl (fun _ => rfl) rfl rfl rfl rfl rfl fun hw => ?_
  obtain ⟨h1, h2, h3⟩ := PE_of_engBits e (OEC.toBits ⟨d, h, 0, r.code, BitVec.ofBool l, 0⟩)
  rw [decodeUnit_10]
  simp only [decodeU10, h1, h2, h3, OEC.of_toBits, RedaOp.ofCode_code, Option.bind_some]
  simp [RedaOp.ofCode_code, ofBool_beq_one_lit]
  exact chk_eq rfl rfl
theorem putc (d : HReg) (h : HReg) (a : SReg) (e : Eng) : Statement (.putc d h a e) := by
  refine Sys2Proof.RoundTrip.engine (i0 := .putc d h a (eng0 e)) 10 0x05 (OEC.toBits ⟨d, h, a, 0, 0, 0⟩) 10 0x05 (by decide) rfl rfl (fun _ => rfl) rfl rfl rfl rfl rfl fun hw => ?_
  obtain ⟨h1, h2, h3⟩ := PE_of_engBits e (OEC.toBits ⟨d, h, a, 0, 0, 0⟩)
  rw [decodeUnit_10]
  simp only [decodeU10, h1, h2, h3, OEC.of_toBits]
  simp
  exact chk_eq rfl rfl
theorem rrot (d : HReg) (h : HReg) (a : SReg) (e : Eng) : Statement (.rrot d h a e) := by
  refine Sys2Proof.RoundTrip.engine (i0 := .rrot d h a (eng0 e)) 10 0x06 (OEC.toBits ⟨d, h, a, 0, 1, 0⟩) 10 0x06 (by decide) rfl rfl (fun _ => rfl) rfl rfl rfl rfl rfl fun hw => ?_
  obtain ⟨h1, h2, h3⟩ := PE_of_engBits e (OEC.toBits ⟨d, h, a, 0, 1, 0⟩)
  rw [decodeUnit_10]
  simp only [decodeU10, h1, h2, h3, OEC.of_toBits]
  simp
  exact chk_eq rfl rfl
theorem copySeal (d : HReg) (h : HReg) (a : SReg) (e : Eng) : Statement (.copySeal d h a e) := by
  refine Sys2Proof.RoundTrip.engine (i0 := .copySeal d h a (eng0 e)) 10 0x08 (OEC.toBits ⟨d, h, a, 0, 0, 0⟩) 10 0x08 (by decide) rfl rfl (fun _ => rfl) rfl rfl rfl rfl rfl fun hw => ?_
  obtain ⟨h1, h2, h3⟩ := PE_of_engBits e (OEC.toBits ⟨d, h, a, 0, 0, 0⟩)
  rw [decodeUnit_10]
  simp only [decodeU10, h1, h2, h3, OEC.of_toBits]
  simp
  exact chk_eq rfl rfl
theorem copyOpen (d : HReg) (h : HReg) (a : SReg) (e : Eng) : Statement (.copyOpen d h a e) := by
  refine Sys2Proof.RoundTrip.engine (i0 := .copyOpen d h a (eng0 e)) 10 0x09 (OEC.toBits ⟨d, h, a, 0, 0, 0⟩) 10 0x09 (by decide) rfl rfl (fun _ => rfl) rfl rfl rfl rfl rfl fun hw => ?_
  obtain ⟨h1, h2, h3⟩ := PE_of_engBits e (OEC.toBits ⟨d, h, a, 0, 0, 0⟩)
  rw [decodeUnit_10]
  simp only [decodeU10, h1, h2, h3, OEC.of_toBits]
  simp
  exact chk_eq rfl rfl
theorem cnop (e : Eng) : Statement (.cnop e) := by
  refine Sys2Proof.RoundTrip.engine (i0 := .cnop (eng0 e)) 10 0x0A (0) 10 0x0A (by decide) rfl rfl (fun _ => rfl) rfl rfl rfl rfl rfl fun hw => ?_
  obtain ⟨h1, h2, h3⟩ := PE_of_engBits e (0)
  rw [decodeUnit_10]
  simp only [decodeU10, h1, h2, h3]
  simp
  exact chk_eq rfl rfl
theorem swopen (x : SReg) (y : SReg) (e : Eng) : Statement (.swopen x y e) := by
  refine Sys2Proof.RoundTrip.engine (i0 := .swopen x y (eng0 e)) 11 0x00 (OES.toBits ⟨x, y, 0, 0, 0⟩) 11 0x00 (by decide) rfl rfl (fun _ => rfl) rfl rfl rfl rfl rfl fun hw => ?_
  obtain ⟨h1, h2, h3⟩ := PE_of_engBits e (OES.toBits ⟨x, y, 0, 0, 0⟩)
  rw [decodeUnit_11]
  simp only [decodeU11, h1, h2, h3, OES.of_toBits]
  simp
  exact chk_eq rfl rfl
theorem swapp (x : SReg) (y : SReg) (v : VReg) (r : BitVec 4) (e : Eng) : Statement (.swapp x y v r e) := by
  refine Sys2Proof.RoundTrip.engine (i0 := .swapp x y v r (eng0 e)) 11 0x01 (OES.toBits ⟨x, y, v, r, 0⟩) 11 0x01 (by decide) rfl rfl (fun _ => rfl) rfl rfl rfl rfl rfl fun hw => ?_
  obtain ⟨h1, h2, h3⟩ := PE_of_engBits e (OES.toBits ⟨x, y, v, r, 0⟩)
  rw [decodeUnit_11]
  simp only [decodeU11, h1, h2, h3, OES.of_toBits]
  simp
  exact chk_eq rfl rfl
theorem swqry (x : SReg) (y : SReg) (e : Eng) : Statement (.swqry x y e) := by
  refine Sys2Proof.RoundTrip.engine (i0 := .swqry x y (eng0 e)) 11 0x02 (OES.toBits ⟨x, y, 0, 0, 0⟩) 11 0x02 (by decide) rfl rfl (fun _ => rfl) rfl rfl rfl rfl rfl fun hw => ?_
  obtain ⟨h1, h2, h3⟩ := PE_of_engBits e (OES.toBits ⟨x, y, 0, 0, 0⟩)
  rw [decodeUnit_11]
  simp only [decodeU11, h1, h2, h3, OES.of_toBits]
  simp
  exact chk_eq rfl rfl
theorem swpop (v : VReg) (x : SReg) (r : BitVec 4) (e : Eng) : Statement (.swpop v x r e) := by
  refine Sys2Proof.RoundTrip.engine (i0 := .swpop v x r (eng0 e)) 11 0x03 (OES.toBits ⟨x, 0, v, r, 0⟩) 11 0x03 (by decide) rfl rfl (fun _ => rfl) rfl rfl rfl rfl rfl fun hw => ?_
  obtain ⟨h1, h2, h3⟩ := PE_of_engBits e (OES.toBits ⟨x, 0, v, r, 0⟩)
  rw [decodeUnit_11]
  simp only [decodeU11, h1, h2, h3, OES.of_toBits]
  simp
  exact chk_eq rfl rfl
theorem swevt (x : SReg) (y : SReg) (e : Eng) : Statement (.swevt x y e) := by
  refine Sys2Proof.RoundTrip.engine (i0 := .swevt x y (eng0 e)) 11 0x04 (OES.toBits ⟨x, y, 0, 0, 0⟩) 11 0x04 (by decide) rfl rfl (fun _ => rfl) rfl rfl rfl rfl rfl fun hw => ?_
  obtain ⟨h1, h2, h3⟩ := PE_of_engBits e (OES.toBits ⟨x, y, 0, 0, 0⟩)
  rw [decodeUnit_11]
  simp only [decodeU11, h1, h2, h3, OES.of_toBits]
  simp
  exact chk_eq rfl rfl
theorem swsave (x : SReg) (y : SReg) (e : Eng) : Statement (.swsave x y e) := by
  refine Sys2Proof.RoundTrip.engine (i0 := .swsave x y (eng0 e)) 11 0x05 (OES.toBits ⟨x, y, 0, 0, 0⟩) 11 0x05 (by decide) rfl rfl (fun _ => rfl) rfl rfl rfl rfl rfl fun hw => ?_
  obtain ⟨h1, h2, h3⟩ := PE_of_engBits e (OES.toBits ⟨x, y, 0, 0, 0⟩)
  rw [decodeUnit_11]
  simp only [decodeU11, h1, h2, h3, OES.of_toBits]
  simp
  exact chk_eq rfl rfl
theorem swload (x : SReg) (y : SReg) (e : Eng) : Statement (.swload x y e) := by
  refine Sys2Proof.RoundTrip.engine (i0 := .swload x y (eng0 e)) 11 0x06 (OES.toBits ⟨x, y, 0, 0, 0⟩) 11 0x06 (by decide) rfl rfl (fun _ => rfl) rfl rfl rfl rfl rfl fun hw => ?_
  obtain ⟨h1, h2, h3⟩ := PE_of_engBits e (OES.toBits ⟨x, y, 0, 0, 0⟩)
  rw [decodeUnit_11]
  simp only [decodeU11, h1, h2, h3, OES.of_toBits]
  simp
  exact chk_eq rfl rfl
theorem swclose (x : SReg) (e : Eng) : Statement (.swclose x e) := by
  refine Sys2Proof.RoundTrip.engine (i0 := .swclose x (eng0 e)) 11 0x07 (OES.toBits ⟨x, 0, 0, 0, 0⟩) 11 0x07 (by decide) rfl rfl (fun _ => rfl) rfl rfl rfl rfl rfl fun hw => ?_
  obtain ⟨h1, h2, h3⟩ := PE_of_engBits e (OES.toBits ⟨x, 0, 0, 0, 0⟩)
  rw [decodeUnit_11]
  simp only [decodeU11, h1, h2, h3, OES.of_toBits]
  simp
  exact chk_eq rfl rfl
theorem wld (ty : Ty) (d : VReg) (a : SReg) : Statement (.wld ty d a) := by
  refine Sys2Proof.RoundTrip.plain 12 0x00 (PV.toBits ⟨d, 0, 0, 0, 0, ty.code, 0, cat 18 a 0#12⟩) 12 0x00 (by decide) rfl rfl (fun _ => rfl) rfl fun hw => ?_
  rw [decodeUnit_12, PV.of_toBits]
  simp only [decodeU12, Ty.ofCode_code, Option.bind_some]
  first | rfl | exact chk_eq rfl hw | (simp [cat_hi, cat_lo]; done) | (simp [cat_hi, cat_lo]; exact chk_eq rfl hw)
theorem wprog (a : SReg) (h : HReg) (e : Eng) : Statement (.wprog a h e) := by
  refine Sys2Proof.RoundTrip.engine (i0 := .wprog a h (eng0 e)) 12 0x01 (OEW.toBits ⟨h, a, 0, 0⟩) 12 0x01 (by decide) rfl rfl (fun _ => rfl) rfl rfl rfl rfl rfl fun hw => ?_
  obtain ⟨h1, h2, h3⟩ := PE_of_engBits e (OEW.toBits ⟨h, a, 0, 0⟩)
  rw [decodeUnit_12]
  simp only [decodeU12, h1, h2, h3, OEW.of_toBits]
  simp
  exact chk_eq rfl rfl
theorem wprogs (a : SReg) (h : HReg) (b : SReg) (e : Eng) : Statement (.wprogs a h b e) := by
  refine Sys2Proof.RoundTrip.engine (i0 := .wprogs a h b (eng0 e)) 12 0x02 (OEW.toBits ⟨h, a, b, 0⟩) 12 0x02 (by decide) rfl rfl (fun _ => rfl) rfl rfl rfl rfl rfl fun hw => ?_
  obtain ⟨h1, h2, h3⟩ := PE_of_engBits e (OEW.toBits ⟨h, a, b, 0⟩)
  rw [decodeUnit_12]
  simp only [decodeU12, h1, h2, h3, OEW.of_toBits]
  simp
  exact chk_eq rfl rfl
theorem wfree (a : SReg) (e : Eng) : Statement (.wfree a e) := by
  refine Sys2Proof.RoundTrip.engine (i0 := .wfree a (eng0 e)) 12 0x03 (OEW.toBits ⟨0, a, 0, 0⟩) 12 0x03 (by decide) rfl rfl (fun _ => rfl) rfl rfl rfl rfl rfl fun hw => ?_
  obtain ⟨h1, h2, h3⟩ := PE_of_engBits e (OEW.toBits ⟨0, a, 0, 0⟩)
  rw [decodeUnit_12]
  simp only [decodeU12, h1, h2, h3, OEW.of_toBits]
  simp
  exact chk_eq rfl rfl
theorem wmeas (h : HReg) (a : SReg) (e : Eng) : Statement (.wmeas h a e) := by
  refine Sys2Proof.RoundTrip.engine (i0 := .wmeas h a (eng0 e)) 12 0x04 (OEW.toBits ⟨h, a, 0, 0⟩) 12 0x04 (by decide) rfl rfl (fun _ => rfl) rfl rfl rfl rfl rfl fun hw => ?_
  obtain ⟨h1, h2, h3⟩ := PE_of_engBits e (OEW.toBits ⟨h, a, 0, 0⟩)
  rw [decodeUnit_12]
  simp only [decodeU12, h1, h2, h3, OEW.of_toBits]
  simp
  exact chk_eq rfl rfl
theorem wscrub (a : SReg) (e : Eng) : Statement (.wscrub a e) := by
  refine Sys2Proof.RoundTrip.engine (i0 := .wscrub a (eng0 e)) 12 0x05 (OEW.toBits ⟨0, a, 0, 0⟩) 12 0x05 (by decide) rfl rfl (fun _ => rfl) rfl rfl rfl rfl rfl fun hw => ?_
  obtain ⟨h1, h2, h3⟩ := PE_of_engBits e (OEW.toBits ⟨0, a, 0, 0⟩)
  rw [decodeUnit_12]
  simp only [decodeU12, h1, h2, h3, OEW.of_toBits]
  simp
  exact chk_eq rfl rfl
theorem wchk (h : HReg) (a : SReg) (e : Eng) : Statement (.wchk h a e) := by
  refine Sys2Proof.RoundTrip.engine (i0 := .wchk h a (eng0 e)) 12 0x06 (OEW.toBits ⟨h, a, 0, 0⟩) 12 0x06 (by decide) rfl rfl (fun _ => rfl) rfl rfl rfl rfl rfl fun hw => ?_
  obtain ⟨h1, h2, h3⟩ := PE_of_engBits e (OEW.toBits ⟨h, a, 0, 0⟩)
  rw [decodeUnit_12]
  simp only [decodeU12, h1, h2, h3, OEW.of_toBits]
  simp
  exact chk_eq rfl rfl
theorem wstat (d : SReg) (a : SReg) : Statement (.wstat d a) := by
  refine Sys2Proof.RoundTrip.plain 12 0x07 (PS3.toBits ⟨d, a, 0, 0⟩) 12 0x07 (by decide) rfl rfl (fun _ => rfl) rfl fun hw => ?_
  rw [decodeUnit_12, PS3.of_toBits]
  simp only [decodeU12]
  first | rfl | exact chk_eq rfl hw | (simp [cat_hi, cat_lo]; done) | (simp [cat_hi, cat_lo]; exact chk_eq rfl hw)
theorem nop : Statement (.nop) := by
  refine Sys2Proof.RoundTrip.plain 13 0x00 (PY.toBits ⟨0, 0, 0, 0⟩) 13 0x00 (by decide) rfl rfl (fun _ => rfl) rfl fun hw => ?_
  rw [decodeUnit_13, PY.of_toBits]
  simp only [decodeU13]
  first | rfl | exact chk_eq rfl hw | (simp [cat_hi, cat_lo]; done) | (simp [cat_hi, cat_lo]; exact chk_eq rfl hw)
theorem crr (d : SReg) (c : CtlReg) : Statement (.crr d c) := by
  refine Sys2Proof.RoundTrip.plain 13 0x01 (PY.toBits ⟨d, 0, c.code, c.low⟩) 13 0x01 (by decide) rfl rfl (fun _ => rfl) rfl fun hw => ?_
  rw [decodeUnit_13, PY.of_toBits]
  simp only [decodeU13]
  rw [CtlReg.ofCode_code c]
  exact chk_eq (by simp) hw
theorem crw (c : CtlReg) (a : SReg) : Statement (.crw c a) := by
  refine Sys2Proof.RoundTrip.plain 13 0x02 (PY.toBits ⟨0, a, c.code, 0⟩) 13 0x02 (by decide) rfl rfl (fun _ => rfl) rfl fun hw => ?_
  rw [decodeUnit_13, PY.of_toBits]
  simp only [decodeU13]
  rw [CtlReg.ofCode_wfW c hw]
  exact chk_eq rfl hw
theorem fence (s : Scope) : Statement (.fence s) := by
  refine Sys2Proof.RoundTrip.plain 13 0x08 (PY.toBits ⟨0, 0, 0, cat 24 s.code 0#21⟩) 13 0x08 (by decide) rfl rfl (fun _ => rfl) rfl fun hw => ?_
  rw [decodeUnit_13, PY.of_toBits]
  simp only [decodeU13, Scope.ofCode_code, Option.bind_some]
  simp [cat_hi, cat_lo, Scope.ofCode_code]
  exact chk_eq (by first | rfl | rw [extract_beyond l]; rfl) hw
theorem tlock (d : SReg) (a : SReg) (l : SReg) : Statement (.tlock d a l) := by
  refine Sys2Proof.RoundTrip.plain 13 0x09 (PY.toBits ⟨d, a, 0, cat 24 l 0#18⟩) 13 0x09 (by decide) rfl rfl (fun _ => rfl) rfl fun hw => ?_
  rw [decodeUnit_13, PY.of_toBits]
  simp only [decodeU13]
  first | rfl | exact chk_eq rfl hw | (simp [cat_hi, cat_lo]; done) | (simp [cat_hi, cat_lo]; exact chk_eq rfl hw)
theorem tunlock (a : SReg) (l : SReg) : Statement (.tunlock a l) := by
  refine Sys2Proof.RoundTrip.plain 13 0x0A (PY.toBits ⟨0, a, 0, cat 24 l 0#18⟩) 13 0x0A (by decide) rfl rfl (fun _ => rfl) rfl fun hw => ?_
  rw [decodeUnit_13, PY.of_toBits]
  simp only [decodeU13]
  first | rfl | exact chk_eq rfl hw | (simp [cat_hi, cat_lo]; done) | (simp [cat_hi, cat_lo]; exact chk_eq rfl hw)
theorem phase : Statement (.phase) := by
  refine Sys2Proof.RoundTrip.plain 13 0x10 (PY.toBits ⟨0, 0, 0, 0⟩) 13 0x10 (by decide) rfl rfl (fun _ => rfl) rfl fun hw => ?_
  rw [decodeUnit_13, PY.of_toBits]
  simp only [decodeU13]
  first | rfl | exact chk_eq rfl hw | (simp [cat_hi, cat_lo]; done) | (simp [cat_hi, cat_lo]; exact chk_eq rfl hw)
theorem fqpop (d : SReg) : Statement (.fqpop d) := by
  refine Sys2Proof.RoundTrip.plain 13 0x18 (PY.toBits ⟨d, 0, 0, 0⟩) 13 0x18 (by decide) rfl rfl (fun _ => rfl) rfl fun hw => ?_
  rw [decodeUnit_13, PY.of_toBits]
  simp only [decodeU13]
  first | rfl | exact chk_eq rfl hw | (simp [cat_hi, cat_lo]; done) | (simp [cat_hi, cat_lo]; exact chk_eq rfl hw)
theorem fresume (a : SReg) : Statement (.fresume a) := by
  refine Sys2Proof.RoundTrip.plain 13 0x19 (PY.toBits ⟨0, a, 0, 0⟩) 13 0x19 (by decide) rfl rfl (fun _ => rfl) rfl fun hw => ?_
  rw [decodeUnit_13, PY.of_toBits]
  simp only [decodeU13]
  first | rfl | exact chk_eq rfl hw | (simp [cat_hi, cat_lo]; done) | (simp [cat_hi, cat_lo]; exact chk_eq rfl hw)
theorem fabort (a : SReg) : Statement (.fabort a) := by
  refine Sys2Proof.RoundTrip.plain 13 0x1A (PY.toBits ⟨0, a, 0, 0⟩) 13 0x1A (by decide) rfl rfl (fun _ => rfl) rfl fun hw => ?_
  rw [decodeUnit_13, PY.of_toBits]
  simp only [decodeU13]
  first | rfl | exact chk_eq rfl hw | (simp [cat_hi, cat_lo]; done) | (simp [cat_hi, cat_lo]; exact chk_eq rfl hw)
theorem frestart (a : SReg) : Statement (.frestart a) := by
  refine Sys2Proof.RoundTrip.plain 13 0x1B (PY.toBits ⟨0, a, 0, 0⟩) 13 0x1B (by decide) rfl rfl (fun _ => rfl) rfl fun hw => ?_
  rw [decodeUnit_13, PY.of_toBits]
  simp only [decodeU13]
  first | rfl | exact chk_eq rfl hw | (simp [cat_hi, cat_lo]; done) | (simp [cat_hi, cat_lo]; exact chk_eq rfl hw)
theorem qwait (m : Bool) (c : Bool) : Statement (.qwait m c) := by
  refine Sys2Proof.RoundTrip.plain 13 0x20 (PY.toBits ⟨0, 0, 0, cat 24 (cat 2 (BitVec.ofBool m) (BitVec.ofBool c)) 0#22⟩) 13 0x20 (by decide) rfl rfl (fun _ => rfl) rfl fun hw => ?_
  rw [decodeUnit_13, PY.of_toBits]
  simp only [decodeU13]
  simp [cat_hi, cat_lo, ofBool_beq_one_lit]
  exact chk_eq (by first | rfl | rw [extract_beyond l]; rfl) hw
theorem brk (c : BitVec 24) : Statement (.brk c) := by
  refine Sys2Proof.RoundTrip.plain 13 0x30 (PY.toBits ⟨0, 0, 0, c⟩) 13 0x30 (by decide) rfl rfl (fun _ => rfl) rfl fun hw => ?_
  rw [decodeUnit_13, PY.of_toBits]
  simp only [decodeU13]
  first | rfl | exact chk_eq rfl hw | (simp [cat_hi, cat_lo]; done) | (simp [cat_hi, cat_lo]; exact chk_eq rfl hw)
theorem cellWaiterSatisfied (t : Nat) (c : CellNo) : Statement (.cellWaiterSatisfied t c) := Sys2Proof.RoundTrip.event fun _ => rfl
theorem waitLimitExpiry (t : Nat) : Statement (.waitLimitExpiry t) := Sys2Proof.RoundTrip.event fun _ => rfl
theorem remoteCellRequest (i : Nat) : Statement (.remoteCellRequest i) := Sys2Proof.RoundTrip.event fun _ => rfl
theorem remoteCellReply (i : Nat) : Statement (.remoteCellReply i) := Sys2Proof.RoundTrip.event fun _ => rfl
theorem parkRegister (t : Nat) : Statement (.parkRegister t) := Sys2Proof.RoundTrip.event fun _ => rfl
theorem doneRetire (t : Nat) : Statement (.doneRetire t) := Sys2Proof.RoundTrip.event fun _ => rfl
theorem matrixCommandStart (t : Nat) : Statement (.matrixCommandStart t) := Sys2Proof.RoundTrip.event fun _ => rfl
theorem matrixCommandComplete (t : Nat) : Statement (.matrixCommandComplete t) := Sys2Proof.RoundTrip.event fun _ => rfl
theorem copyCommandStart (t : Nat) (i : Nat) (n : Nat) (ext : List W64) : Statement (.copyCommandStart t i n ext) := Sys2Proof.RoundTrip.event fun _ => rfl
theorem lockstepRendezvous (die : Nat) (cluster : Nat) : Statement (.lockstepRendezvous die cluster) := Sys2Proof.RoundTrip.event fun _ => rfl
theorem copyCommandComplete (t : Nat) : Statement (.copyCommandComplete t) := Sys2Proof.RoundTrip.event fun _ => rfl
theorem copyOpenCounterStep (t : Nat) : Statement (.copyOpenCounterStep t) := Sys2Proof.RoundTrip.event fun _ => rfl
theorem copySealCounterStep (t : Nat) : Statement (.copySealCounterStep t) := Sys2Proof.RoundTrip.event fun _ => rfl
theorem swardAccept (die : Nat) : Statement (.swardAccept die) := Sys2Proof.RoundTrip.event fun _ => rfl
theorem swardPerform (die : Nat) (i : Nat) : Statement (.swardPerform die i) := Sys2Proof.RoundTrip.event fun _ => rfl
theorem weightCommandAccept (die : Nat) : Statement (.weightCommandAccept die) := Sys2Proof.RoundTrip.event fun _ => rfl
theorem weightCommandStart (die : Nat) : Statement (.weightCommandStart die) := Sys2Proof.RoundTrip.event fun _ => rfl
theorem scrubLine (t : Nat) (region : BitVec 5) (line : BitVec 14) (errs : Nat) (bad : Nat) : Statement (.scrubLine t region line errs bad) := Sys2Proof.RoundTrip.event fun _ => rfl
theorem phaseCommit (t : Nat) : Statement (.phaseCommit t) := Sys2Proof.RoundTrip.event fun _ => rfl
theorem qwaitComplete (t : Nat) : Statement (.qwaitComplete t) := Sys2Proof.RoundTrip.event fun _ => rfl
theorem accessReply (t : Nat) (r : Option FaultName) : Statement (.accessReply t r) := Sys2Proof.RoundTrip.event fun _ => rfl
theorem loadDataReturn (t : Nat) (i : Nat) (ext : List W64) : Statement (.loadDataReturn t i ext) := Sys2Proof.RoundTrip.event fun _ => rfl
theorem sharedMemoryAccess (t : Nat) (i : Nat) (n : Nat) : Statement (.sharedMemoryAccess t i n) := Sys2Proof.RoundTrip.event fun _ => rfl
theorem cellWindowAccess (t : Nat) : Statement (.cellWindowAccess t) := Sys2Proof.RoundTrip.event fun _ => rfl
theorem bankAtomic (t : Nat) (i : Nat) : Statement (.bankAtomic t i) := Sys2Proof.RoundTrip.event fun _ => rfl
theorem recordAdmission (die : Nat) : Statement (.recordAdmission die) := Sys2Proof.RoundTrip.event fun _ => rfl
theorem sqtailWrite (p : PartNo) (die : Nat) (l : BitVec 3) (v : W64) : Statement (.sqtailWrite p die l v) := Sys2Proof.RoundTrip.event fun _ => rfl
theorem submissionAdmission (p : PartNo) (die : Nat) (l : BitVec 3) : Statement (.submissionAdmission p die l) := Sys2Proof.RoundTrip.event fun _ => rfl
theorem heldContinuationAdmission (p : PartNo) (die : Nat) (l : BitVec 3) : Statement (.heldContinuationAdmission p die l) := Sys2Proof.RoundTrip.event fun _ => rfl
theorem dispatch (die : Nat) : Statement (.dispatch die) := Sys2Proof.RoundTrip.event fun _ => rfl
theorem contextRestoreComplete (t : Nat) (b : Bool) : Statement (.contextRestoreComplete t b) := Sys2Proof.RoundTrip.event fun _ => rfl
theorem budgetExpiry (t : Nat) : Statement (.budgetExpiry t) := Sys2Proof.RoundTrip.event fun _ => rfl
theorem slotSwitch (t : Nat) : Statement (.slotSwitch t) := Sys2Proof.RoundTrip.event fun _ => rfl
theorem sliceExpiry (t : Nat) : Statement (.sliceExpiry t) := Sys2Proof.RoundTrip.event fun _ => rfl
theorem contextStopEnd (t : Nat) (b : Bool) : Statement (.contextStopEnd t b) := Sys2Proof.RoundTrip.event fun _ => rfl
theorem faultRecordWrite (p : PartNo) : Statement (.faultRecordWrite p) := Sys2Proof.RoundTrip.event fun _ => rfl
theorem contextSaveComplete (t : Nat) (b : Bool) : Statement (.contextSaveComplete t b) := Sys2Proof.RoundTrip.event fun _ => rfl
theorem fholdExpiry (t : Nat) (b : Bool) : Statement (.fholdExpiry t b) := Sys2Proof.RoundTrip.event fun _ => rfl
theorem contextMoveOut (t : Nat) (b : Bool) : Statement (.contextMoveOut t b) := Sys2Proof.RoundTrip.event fun _ => rfl
theorem preqWrite (t : Nat) (v : W64) : Statement (.preqWrite t v) := Sys2Proof.RoundTrip.event fun _ => rfl
theorem phaseCancellation (t : Nat) (b : Bool) : Statement (.phaseCancellation t b) := Sys2Proof.RoundTrip.event fun _ => rfl
theorem shadowWriteOutComplete (t : Nat) (b : Bool) : Statement (.shadowWriteOutComplete t b) := Sys2Proof.RoundTrip.event fun _ => rfl
theorem outboundSlot (link : Nat) : Statement (.outboundSlot link) := Sys2Proof.RoundTrip.event fun _ => rfl
theorem inboundFrame (link : Nat) (intact : Bool) (tagOk : Bool) : Statement (.inboundFrame link intact tagOk) := Sys2Proof.RoundTrip.event fun _ => rfl
theorem drawerRequest (t : Nat) (i : Nat) : Statement (.drawerRequest t i) := Sys2Proof.RoundTrip.event fun _ => rfl
theorem frameBoundary (link : Nat) : Statement (.frameBoundary link) := Sys2Proof.RoundTrip.event fun _ => rfl
theorem swcmt (link : Nat) (v : W64) : Statement (.swcmt link v) := Sys2Proof.RoundTrip.event fun _ => rfl
theorem linkLossOfLock (link : Nat) : Statement (.linkLossOfLock link) := Sys2Proof.RoundTrip.event fun _ => rfl
theorem linkRelock (link : Nat) (delta : BitVec 10) : Statement (.linkRelock link delta) := Sys2Proof.RoundTrip.event fun _ => rfl
theorem linkDownDeclare (link : Nat) : Statement (.linkDownDeclare link) := Sys2Proof.RoundTrip.event fun _ => rfl
theorem linkStallTimeout (t : Nat) : Statement (.linkStallTimeout t) := Sys2Proof.RoundTrip.event fun _ => rfl
theorem linkBroughtBackToUp (link : Nat) (delta : BitVec 10) : Statement (.linkBroughtBackToUp link delta) := Sys2Proof.RoundTrip.event fun _ => rfl
theorem hostPostedWrite (p : PartNo) (off : W32) (size : Nat) (data : W64) : Statement (.hostPostedWrite p off size data) := Sys2Proof.RoundTrip.event fun _ => rfl
theorem hostRead (p : PartNo) (off : W32) (size : Nat) : Statement (.hostRead p off size) := Sys2Proof.RoundTrip.event fun _ => rfl
theorem peerRequest (r : PeerReq) : Statement (.peerRequest r) := Sys2Proof.RoundTrip.event fun _ => rfl
theorem vonyxFlitReceive (port : Nat) (good : Bool) : Statement (.vonyxFlitReceive port good) := Sys2Proof.RoundTrip.event fun _ => rfl
theorem pcfgWrite (p : PartNo) (v : W64) : Statement (.pcfgWrite p v) := Sys2Proof.RoundTrip.event fun _ => rfl
theorem partitionClearDone (p : PartNo) : Statement (.partitionClearDone p) := Sys2Proof.RoundTrip.event fun _ => rfl
theorem drawerKeysPlaced (p : PartNo) : Statement (.drawerKeysPlaced p) := Sys2Proof.RoundTrip.event fun _ => rfl
theorem tdispError (p : PartNo) : Statement (.tdispError p) := Sys2Proof.RoundTrip.event fun _ => rfl
theorem tslotWrite (t : Nat) (v : W64) : Statement (.tslotWrite t v) := Sys2Proof.RoundTrip.event fun _ => rfl
theorem slotClearDone (t : Nat) (b : Bool) : Statement (.slotClearDone t b) := Sys2Proof.RoundTrip.event fun _ => rfl
theorem cownWrite (t : Nat) (c : CellNo) (v : W64) : Statement (.cownWrite t c v) := Sys2Proof.RoundTrip.event fun _ => rfl
theorem ccfgwWrite (t : Nat) (c : CellNo) (v : W64) : Statement (.ccfgwWrite t c v) := Sys2Proof.RoundTrip.event fun _ => rfl
theorem pwinWrite (home : BitVec 7) (p : PartNo) (w : BitVec 4) (v : W64) : Statement (.pwinWrite home p w v) := Sys2Proof.RoundTrip.event fun _ => rfl
theorem tinvPage (unit : BitVec 3) (p : PartNo) (off : BitVec 41) : Statement (.tinvPage unit p off) := Sys2Proof.RoundTrip.event fun _ => rfl
theorem tinvAll (unit : BitVec 3) (p : PartNo) : Statement (.tinvAll unit p) := Sys2Proof.RoundTrip.event fun _ => rfl
theorem invalidationDrainEnd (unit : BitVec 3) : Statement (.invalidationDrainEnd unit) := Sys2Proof.RoundTrip.event fun _ => rfl
theorem wownWrite (t : Nat) (r : BitVec 5) (v : W64) : Statement (.wownWrite t r v) := Sys2Proof.RoundTrip.event fun _ => rfl
theorem kerase (v : W64) : Statement (.kerase v) := Sys2Proof.RoundTrip.event fun _ => rfl
theorem keyLoad (session : Nat) (slot : Nat) (kind : BitVec 2) (p : PartNo) (key : W256) (openLevel : W32) (sealLevel : W32) : Statement (.keyLoad session slot kind p key openLevel sealLevel) := Sys2Proof.RoundTrip.event fun _ => rfl
theorem keyErase (session : Nat) (slot : Nat) : Statement (.keyErase session slot) := Sys2Proof.RoundTrip.event fun _ => rfl
theorem unsealModel (session : Nat) (waddr : BitVec 40) (p : PartNo) (model : W256) (digest : BitVec 384) : Statement (.unsealModel session waddr p model digest) := Sys2Proof.RoundTrip.event fun _ => rfl
theorem getMeasurements (session : Nat) (index : Byte) : Statement (.getMeasurements session index) := Sys2Proof.RoundTrip.event fun _ => rfl
theorem getManifest (session : Nat) : Statement (.getManifest session) := Sys2Proof.RoundTrip.event fun _ => rfl
theorem rtcmd (p : PartNo) (v : W64) : Statement (.rtcmd p v) := Sys2Proof.RoundTrip.event fun _ => rfl
theorem regionTableInstallDone (p : PartNo) : Statement (.regionTableInstallDone p) := Sys2Proof.RoundTrip.event fun _ => rfl
theorem fqhpop (p : PartNo) (v : W64) : Statement (.fqhpop p v) := Sys2Proof.RoundTrip.event fun _ => rfl
theorem fqansResume (p : PartNo) (addr : W64) : Statement (.fqansResume p addr) := Sys2Proof.RoundTrip.event fun _ => rfl
theorem fqansAbort (p : PartNo) (addr : W64) : Statement (.fqansAbort p addr) := Sys2Proof.RoundTrip.event fun _ => rfl
theorem fqansRestart (p : PartNo) (addr : W64) : Statement (.fqansRestart p addr) := Sys2Proof.RoundTrip.event fun _ => rfl
theorem fwVerify (c : Controller) (version : Byte) (signed : Bool) : Statement (.fwVerify c version signed) := Sys2Proof.RoundTrip.event fun _ => rfl
theorem fwHandover (c : Controller) : Statement (.fwHandover c) := Sys2Proof.RoundTrip.event fun _ => rfl
theorem fwCommit (c : Controller) : Statement (.fwCommit c) := Sys2Proof.RoundTrip.event fun _ => rfl
theorem fwAbandon (c : Controller) : Statement (.fwAbandon c) := Sys2Proof.RoundTrip.event fun _ => rfl
theorem fwServiceSignal (c : Controller) : Statement (.fwServiceSignal c) := Sys2Proof.RoundTrip.event fun _ => rfl
theorem fwServiceTimeout (c : Controller) : Statement (.fwServiceTimeout c) := Sys2Proof.RoundTrip.event fun _ => rfl
theorem fwHealthSignal (c : Controller) : Statement (.fwHealthSignal c) := Sys2Proof.RoundTrip.event fun _ => rfl
theorem fwHealthTimeout (c : Controller) : Statement (.fwHealthTimeout c) := Sys2Proof.RoundTrip.event fun _ => rfl
theorem powerGood  : Statement (.powerGood ) := Sys2Proof.RoundTrip.event fun _ => rfl
theorem startupStepComplete  : Statement (.startupStepComplete ) := Sys2Proof.RoundTrip.event fun _ => rfl
theorem governorWindow (die : BitVec 2) (power : Nat) (temp : Byte) : Statement (.governorWindow die power temp) := Sys2Proof.RoundTrip.event fun _ => rfl
theorem thermalShutdown  : Statement (.thermalShutdown ) := Sys2Proof.RoundTrip.event fun _ => rfl
theorem coolantFlowLow  : Statement (.coolantFlowLow ) := Sys2Proof.RoundTrip.event fun _ => rfl
theorem configRegisterWrite (r : CfgReg) (v : W64) : Statement (.configRegisterWrite r v) := Sys2Proof.RoundTrip.event fun _ => rfl
theorem powerLoss  : Statement (.powerLoss ) := Sys2Proof.RoundTrip.event fun _ => rfl
theorem tdispInterfaceRequest (p : PartNo) (dst : Tdisp) : Statement (.tdispInterfaceRequest p dst) := Sys2Proof.RoundTrip.event fun _ => rfl

end Sys2Proof.Laws.RoundTrip
end

