-- ==== Sys2Proof/Laws/Units.lean ====
section
/-! SUPPORT. The shared units read after write: partitions, dies, regions, links, translation units, rings, key slots,
configuration registers and firmware (R8, R231, R375). -/

set_option Elab.async false

namespace Sys2Proof.Machine

theorem State.part_modPart (s : State) (p q : PartNo) (f : Part → Part) :
    (s.modPart p f).part q = if q = p then f (s.part p) else s.part q := by
  simp only [State.part, State.modPart, tget_tput, BitVec.toNat_inj]
@[simp] theorem State.part_modPart_same (s : State) (p : PartNo) (f : Part → Part) : (s.modPart p f).part p = f (s.part p) := by
  rw [State.part_modPart, if_pos rfl]

theorem State.die_modDie (s : State) (d e : Nat) (f : Die → Die) : (s.modDie d f).die e = if e = d then f (s.die d) else s.die e :=
  tget_tput _ _ _ _ _
@[simp] theorem State.die_modDie_same (s : State) (d : Nat) (f : Die → Die) : (s.modDie d f).die d = f (s.die d) := tget_tput_same ..

theorem State.region_modRegion (s : State) (k j : Nat) (f : Region → Region) :
    (s.modRegion k f).region j = if j = k then f (s.region k) else s.region j := tget_tput _ _ _ _ _
@[simp] theorem State.region_modRegion_same (s : State) (k : Nat) (f : Region → Region) :
    (s.modRegion k f).region k = f (s.region k) := tget_tput_same ..

theorem State.link_modLink (s : State) (l m : Nat) (f : Link → Link) :
    (s.modLink l f).link m = if m = l then f (s.link l) else s.link m := tget_tput _ _ _ _ _
@[simp] theorem State.link_modLink_same (s : State) (l : Nat) (f : Link → Link) : (s.modLink l f).link l = f (s.link l) :=
  tget_tput_same ..

theorem State.unit_modUnit (s : State) (u v : Nat) (f : XUnit → XUnit) :
    (s.modUnit u f).unit v = if v = u then f (s.unit u) else s.unit v := tget_tput _ _ _ _ _
@[simp] theorem State.unit_modUnit_same (s : State) (u : Nat) (f : XUnit → XUnit) : (s.modUnit u f).unit u = f (s.unit u) :=
  tget_tput_same ..

@[simp] theorem State.ring_modRing_same (s : State) (d : Nat) (p : PartNo) (l : Nat) (f : Ring → Ring) :
    (s.modRing d p l f).ring d p l = f (s.ring d p l) := tget_tput_same ..

/-- A configuration register reads what was written last. -/
theorem cfgFind_cfgPut (m : List (CfgReg × W64)) (r q : CfgReg) (v : W64) :
    cfgFind (cfgPut m r v) q = if q = r then some v else cfgFind m q := by
  induction m with
  | nil =>
    by_cases h : q = r
    · subst h; simp [cfgPut, cfgFind]
    · simp [cfgPut, cfgFind, h, Ne.symm h]
  | cons e l ih =>
    obtain ⟨x, y⟩ := e
    simp only [cfgPut]
    by_cases hx : r = x
    · subst hx
      by_cases h : q = r
      · subst h; simp [cfgFind]
      · simp [cfgFind, h, Ne.symm h]
    · rw [if_neg (Ne.symm hx)]
      by_cases h : q = x
      · subst h; simp [cfgFind, Ne.symm hx]
      · simp only [cfgFind, Ne.symm h, if_false, ih]

theorem State.reg_putReg (s : State) (r q : CfgReg) (v : W64) : (s.putReg r v).reg q = if q = r then v else s.reg q := by
  simp only [State.reg, State.putReg, cfgFind_cfgPut]
  split <;> rfl
@[simp] theorem State.reg_putReg_same (s : State) (r : CfgReg) (v : W64) : (s.putReg r v).reg r = v := by
  rw [State.reg_putReg, if_pos rfl]

end Sys2Proof.Machine
end

