-- ==== Sys2Proof/Tests/Slice0.lean ====
section
/-! SUPPORT. Tests: terms that WellFormed refuses, words of the manual and what they decode to, one-step results worked out from the
manual's examples, and for each statement a state and operands that meet its hypotheses. -/

set_option Elab.async false

namespace Sys2Proof.Tests

open Sys2Proof Sys2Proof.Machine

set_option maxRecDepth 8000
set_option exponentiation.threshold 1100

/-! ### Ill-formed terms: one for each check of WellFormed -/

def bare : Eng := ⟨none, none, false⟩
def holding : Eng := ⟨none, none, true⟩

theorem test_wf_scalar : ∀ i ∈ ([.bfx 1 2 40 24, .bfi 1 2 63 1, .loop 3 0, .loopP 3 65 0, .loopi 4 0, .qset .eq 0 1 2] : List Instr),
    i.wf = false := by decide

theorem test_wf_memory : ∀ i ∈ ([.ld .w .rel 1 2 0, .lds .d .plain 1 2 0, .lds .w .ar 1 2 0, .st .w .acq 1 2 0,
    .aadd .b .plain true 1 2 0, .aand .h .plain true 1 2 0, .aor .d .plain true 1 2 0x4000000000000000, .axor .b .plain true 1 2 0,
    .amin .h .plain true 1 2 0, .amax .b .plain true 1 2 0, .aminu .h .plain true 1 2 0, .amaxu .b .plain true 1 2 0,
    .afadd .d .plain true 1 2 0, .afmin .h .plain true 1 2 0, .afmax .d .plain true 1 2 0, .aswp .b .plain true 1 2 0,
    .acas .w .plain true 3 2 0, .acas .w .plain true 0 2 0, .acas .d .plain true 62 2 0] : List Instr), i.wf = false := by decide

theorem test_wf_cells : ∀ i ∈ ([.wait .ph .plain 1 0 (.own 3) 2, .wait .ge .rel 1 0 (.own 3) 2, .wait .ge .plain 1 0 (.remote 0) 2,
    .take .ar 1 0 (.own 3) 2, .trytake .rel 1 (.own 3) 2, .sig .acq (.own 3) 2, .arrive .acq (.own 3), .cset .acq (.own 3) 2,
    .crd .rel 1 (.own 3), .ccfg 1 (.remote 0), .cclr (.remote 0), .widf 1 6] : List Instr), i.wf = false := by decide

theorem test_wf_handles : ∀ i ∈ ([.hsetd 1 1 2 6, .hsets 1 1 2 7, .hadv 1 1 2 6, .hget 1 1 13, .tcfg 1 .bf16 0 4, .tcfg 1 .bf16 129 4,
    .tcfg 1 .i8 1 513, .tcfg 1 .i8 1 0, .tcfg 1 .f32 128 128] : List Instr), i.wf = false := by decide

theorem test_wf_vector : ∀ i ∈ ([.vadd .i32 .rz 1 2 3 0, .vsub .i32 .rup 1 2 3 0, .vmul .i32 .rns 1 2 3 0, .vcvt .mxf4 .f32 .rne 1 2 0,
    .vcvt .f32 .mxe4m3 .rne 1 2 0, .vld .mxf4 1 2, .vst .i8 .rz 1 2, .vldr .mxe4m3 1 2 0, .vstr .f32 .rup 1 2 0] : List Instr),
    i.wf = false := by decide

theorem test_wf_selection : ∀ i ∈ ([.vargmaxr .f32 3 1 0, .vargmaxc .f32 3 1 0, .vargminr .f32 3 1 0, .vargminc .i32 5 1 0,
    .vtopk .f32 3 1 2 0 4, .vtopk .f32 4 1 2 0 65, .vtopkm .f32 4 1 2 3, .vtopkm .f32 4 2 3 3, .vpart 3 1 2 0, .vbucket 3 1 4 0,
    .vbucket 4 1 17 0, .vprune48 .f32 4 1, .vprune48 .i8 5 1, .vspread48 .i8 4 1, .vspread48 .i32 4 2] : List Instr),
    i.wf = false := by decide

theorem test_wf_matrix : ∀ i ∈ ([.tld 1 2 holding, .tldw 1 2 holding, .tst 1 2 holding, .mma 0 1 2 .bf16 .f16 .f32 false bare,
    .mma 0 1 2 .i8 .i8 .f32 false bare, .mmaw 0 1 2 .i8 .i8 .i32 false holding, .mmasp 0 1 3 .i8 .i8 .i32 false bare,
    .mmasp 0 1 2 .mxf4 .mxf4 .f32 false bare, .mmaspw 0 1 3 .i8 .i8 .i32 false bare, .mtrans 0 1 .i8 .f32 false bare,
    .mperm 0 1 2 .f32 .f32 false bare, .mrsum 0 1 .bf16 .i32 false bare, .mzero 0 holding, .mdrain 0 .mxf4 .rne (.tile 1) bare,
    .mnop holding] : List Instr), i.wf = false := by decide

theorem test_wf_units : ∀ i ∈ ([.swopen 1 2 holding, .swapp 1 2 3 0 holding, .swqry 1 2 holding, .swpop 1 2 0 holding,
    .swevt 1 2 holding, .swsave 1 2 holding, .swload 1 2 holding, .swclose 1 holding, .wld .f32 1 2, .wprog 1 2 holding,
    .wprogs 1 2 3 holding, .wfree 1 holding, .wmeas 1 2 holding, .wscrub 1 holding, .wchk 1 2 holding, .crr 1 (.linklat 48),
    .crw (.linklat 1) 1, .qwait false false] : List Instr), i.wf = false := by decide

theorem test_wf_events : ∀ i ∈ ([.parkRegister 192, .dispatch 4, .outboundSlot 48, .vonyxFlitReceive 48 true,
    .lockstepRendezvous 0 6] : List Instr), i.wf = false := by decide

/-! ### Words written out from the manual -/

theorem test_decode_scalar :
    decodeWord 0x0012103040000000 = some (.add 4 3 1) ∧ decodeWord 0x00804100C0000000 = some (.remu 16 16 3) ∧
    decodeWord 0x00100C3200000000 = some (.add 3 3 8) ∧ decodeWord 0x1000144FFFFFFFFD = some (.addi 5 4 (-3)) ∧
    decodeWord 0x1100247000000013 = some (.shli 9 7 19) ∧ decodeWord 0x1300249000000001 = some (.mka 9 9 1) ∧
    decodeWord 0x12901CA0000007E0 = some (.bfi 7 10 32 31) ∧ decodeWord 0x1200200000080000 = some (.li 8 0x80000) := by decide

theorem test_decode_branches :
    decodeWord 0x2000200100000003 = some (.br .ne 8 0 3) ∧ decodeWord 0x20B0280000000001 = some (.qset .eq 1 10 0) ∧
    decodeWord 0x20A000000000800E = some (.loopi 8 14) := by decide

theorem test_decode_memory :
    decodeWord 0x30001BEC00000000 = some (.ld .d .plain 6 62 0) ∧ decodeWord 0x30201FEE00000010 = some (.st .d .rel 7 62 16) ∧
    decodeWord 0x302018180000005C = some (.st .w .plain 6 1 92) ∧ decodeWord 0x3030109B80000000 = some (.aadd .w .ar true 4 9 0) ∧
    decodeWord 0x30F0214880000040 = some (.acas .w .plain true 8 20 64) := by decide

theorem test_decode_cells :
    decodeWord 0x4000107000604003 = some (.wait .ge .acq 4 7 (.own 12) 3) ∧
    decodeWord 0x4010282140004001 = some (.take .acq 10 2 (.remote 5) 1) ∧ decodeWord 0x4030000000100002 = some (.sig .plain (.own 2) 2) ∧
    decodeWord 0x4030000340008001 = some (.sig .rel (.remote 13) 1) ∧ decodeWord 0x4050000000080000 = some (.cset .plain (.own 1) 0) ∧
    decodeWord 0x4100207000000000 = some (.spawn 8 7 0) ∧ decodeWord 0x4120207000000000 = some (.park 8 7 0) ∧
    decodeWord 0x4130002000000000 = some (.taskDone 2) ∧ decodeWord 0x41501C0000000001 = some (.widf 7 1) := by decide

theorem test_decode_handles :
    decodeWord 0x5000100300000020 = some (.hld 2 3 32) ∧ decodeWord 0x504018C500000001 = some (.hsetd 3 3 5 1) ∧
    decodeWord 0x505018C600000001 = some (.hsets 3 3 6 1) ∧ decodeWord 0x506018C500000001 = some (.hadv 3 3 5 1) ∧
    decodeWord 0x508000C700000000 = some (.hchk 3 7) ∧ decodeWord 0x50A0180010800080 = some (.tcfg 3 .bf16 128 128) ∧
    decodeWord 0x50A0280080100004 = some (.tcfg 5 .ui8 16 4) := by decide

theorem test_decode_vector :
    decodeWord 0x6030A10B44000000 = some (.vfma .rne 20 4 5 20 2) ∧ decodeWord 0x6010100200000000 = some (.vsub .f32 .rne 2 0 1 0) ∧
    decodeWord 0x6280188000000000 = some (.vexp2 3 2 0) ∧ decodeWord 0x6200314000700000 = some (.vcvt .e4m3 .f32 .rns 6 5 0) ∧
    decodeWord 0x630020C001400006 = some (.vhash 4 3 6 0) ∧ decodeWord 0x61801B5201400000 = some (.vcmpeq .i32 3 13 9 0) ∧
    decodeWord 0x6191108001400000 = some (.vcmpne .i32 2 2 0 0) := by decide

theorem test_decode_movement :
    decodeWord 0x70A0080000000001 = some (.vredr .f32 .max 1 0) ∧ decodeWord 0x70E0200000000000 = some (.vredc .f32 .add 4 0) ∧
    decodeWord 0x7001100001004000 = some (.vld .ui8 2 2) ∧ decodeWord 0x7010028000E06000 = some (.vst .i8 .rne 3 10) ∧
    decodeWord 0x7030004001402000 = some (.vstr .i32 .rne 1 1 0) ∧ decodeWord 0x7050024000007000 = some (.vext 7 9 0) ∧
    decodeWord 0x70D060C000000000 = some (.vbcc 12 3 0) ∧ decodeWord 0x71006B1600000000 = some (.vpermr 13 12 11) ∧
    decodeWord 0x7190100000000000 = some (.kor 2 0 0) ∧ decodeWord 0x71D0010000000004 = some (.kfirst 4 4) := by decide

theorem test_decode_selection :
    decodeWord 0x8000208000000000 = some (.vargmaxr .f32 4 2 0) ∧ decodeWord 0x8080410C04000004 = some (.vtopk .f32 8 4 6 2 4) ∧
    decodeWord 0x8100300000000000 = some (.vpart 6 0 0 0) ∧ decodeWord 0x8180508000E00000 = some (.vprune48 .i8 10 2) ∧
    decodeWord 0x820072400A000000 = some (.vcompress 14 9 0 5) := by decide

theorem test_decode_matrix :
    decodeWord 0x9000801000040000 = some (.tld 0 8 ⟨some (1, 1), none, false⟩) ∧
    decodeWord 0x9010000000424000 = some (.tldw 4 9 bare) ∧
    decodeWord 0x9090000805048CC0 = some (.mmaw 0 1 2 .e4m3 .e4m3 .f32 false ⟨none, some (5, 1), false⟩) ∧
    decodeWord 0x90A0000000091DE8 = some (.mmasp 0 2 4 .i8 .i8 .i32 false bare) ∧
    decodeWord 0x9110000802040C00 = some (.mdrain 0 .bf16 .rne (.tile 6) ⟨none, some (2, 1), false⟩) ∧
    decodeWord 0x9110000000284E00 = some (.mdrain 0 .i32 .rne (.handle 7) bare) := by decide

theorem test_decode_copy :
    decodeWord 0xA000000000208500 = some (.copy 4 2 5 false bare) ∧
    decodeWord 0xA030000802100620 = some (.fill .w 2 6 false ⟨none, some (2, 1), false⟩) ∧
    decodeWord 0xA000802000410500 = some (.copy 8 4 5 false ⟨some (2, 1), none, false⟩) ∧
    decodeWord 0xA040000000104060 = some (.reda .fadd 2 1 false bare) ∧ decodeWord 0xA080000000290300 = some (.copySeal 5 4 3 bare) ∧
    decodeWord 0xA090000804104300 = some (.copyOpen 2 1 3 ⟨none, some (4, 1), false⟩) := by decide

theorem test_decode_sward_weight :
    decodeWord 0xB010000806105800 = some (.swapp 4 5 16 0 ⟨none, some (6, 1), false⟩) ∧
    decodeWord 0xB020000000109000 = some (.swqry 4 9 bare) ∧ decodeWord 0xB030000000100910 = some (.swpop 18 4 2 bare) ∧
    decodeWord 0xC000180000209000 = some (.wld .bf16 3 9) ∧ decodeWord 0xC070109000000000 = some (.wstat 4 9) := by decide

theorem test_decode_system :
    decodeWord 0xD010180010140000 = some (.crr 6 (.linklat 5)) ∧ decodeWord 0xD080000000000000 = some (.fence .tile) ∧
    decodeWord 0xD080000000800000 = some (.fence .sys) ∧ decodeWord 0xD0900CA0002C0000 = some (.tlock 3 10 11) ∧
    decodeWord 0xD100000000000000 = some .phase ∧ decodeWord 0xD1B000C000000000 = some (.frestart 12) ∧
    decodeWord 0xD200000000400000 = some (.qwait false true) ∧ decodeWord 0xD300000000000001 = some (.brk 1) := by decide

/-- Groups with a prefix: the immediate of LI, the amounts of an engine command, and an illegal word. -/
theorem test_decode_groups :
    (decode [0xF000000000001234, 0x12000C056789ABCD]).toOption =
      some ⟨0, .li 3 0x123456789ABCD, [0xF000000000001234, 0x12000C056789ABCD]⟩ ∧
    (decode [0xF010000000200001, 0x908080380448C440]).toOption =
      some ⟨0, .mma 1 2 3 .bf16 .bf16 .f32 false ⟨some (3, 2), some (4, 1), false⟩, [0xF010000000200001, 0x908080380448C440]⟩ ∧
    (decode [0xF020000000000002, 0x2090005000000003]).toOption = some ⟨0, .loopP 5 3 2, [0xF020000000000002, 0x2090005000000003]⟩ ∧
    (decode [0xF000000000000010, 0x0010103040000000]).toOption = none ∧ decodeTableWord 64 0 = none := by decide

/-! ### One step on a small state, by the manual's examples -/

/-- A task of partition 0 under the widest header, about to issue at address 0 of slot A of tile 0. -/
def ready : State := State.reset.runnable

/-- The state after an instruction, or the state before it where it stops. -/
def did (i : Instr) (s : State) : State :=
  match exec i s with
  | .next t => t
  | _ => s

def withS (l : List (Nat × W64)) (s : State) : State :=
  s.modCore fun x => l.foldl (fun y p => y.setS (BitVec.ofNat 6 p.1) p.2) x

def withV (l : List (Nat × List W32)) (s : State) : State :=
  s.modCore fun x => l.foldl (fun y p => y.setV (BitVec.ofNat 5 p.1) p.2) x

/-- What the core reads in a scalar register after an instruction. -/
def s4 (i : Instr) (s : State) : W64 := (did i s).core.getS 4
def lane (v : VReg) (e : Nat) (i : Instr) (s : State) : W32 := ((did i s).core.getV v).get e

/-- R136, R137, R140, R141: the manual's examples of divisions, a bit field and an address. -/
theorem test_scalar_examples :
    s4 (.div 4 1 2) (withS [(1, -7), (2, 2)] ready) = -3 ∧ s4 (.rem 4 1 2) (withS [(1, -7), (2, 2)] ready) = -1 ∧
    s4 (.div 4 1 2) (withS [(1, 7), (2, -2)] ready) = -3 ∧ s4 (.rem 4 1 2) (withS [(1, 7), (2, -2)] ready) = 1 ∧
    s4 (.divu 4 1 2) (withS [(1, -7), (2, 2)] ready) = 0x7FFFFFFFFFFFFFFC ∧ s4 (.remu 4 1 2) (withS [(1, -7), (2, 2)] ready) = 1 ∧
    s4 (.mka 4 3 0x10) (withS [(3, 0x0400000000123400)] ready) = 0x2000000000123400 ∧
    s4 (.bfx 4 9 40 15) (withS [(9, 0x0123456789ABCDEF)] ready) = 0x2345 := by decide

/-- A product's high half, a shift by 65, and the division of the most negative number (R136, R137). -/
theorem test_scalar_corners :
    s4 (.mulh 4 1 2) (withS [(1, 0x8000000000000000), (2, -1)] ready) = 0 ∧ s4 (.shl 4 1 2) (withS [(1, 3), (2, 65)] ready) = 6 ∧
    s4 (.div 4 1 2) (withS [(1, 0x8000000000000000), (2, -1)] ready) = 0x8000000000000000 ∧
    s4 (.remu 4 1 0) (withS [(1, 9)] ready) = 9 := by decide

/-- R80, R84: a taken branch, a loop of three iterations captured, and a call with its return address. -/
theorem test_control :
    (did (.br .ltu 1 2 5) (withS [(1, 3), (2, -1)] ready)).core.pc = 40 ∧ (did (.br .lt 1 2 5) (withS [(1, 3), (2, -1)] ready)).core.pc = 0 ∧
    (did (.loopi 3 2) ready).core.lc = 3 ∧ (did (.call 3) ready).core.ret.length = 1 := by decide

/-- The order of bytes (scope, example): a doubleword stored has its low byte first. -/
theorem test_store_bytes :
    let t := did (.st .d .plain 4 3 8) (withS [(3, 0x1000), (4, 0x0123456789ABCDEF)] ready)
    memGet t.mem (halfKey 0 0 + 0x1008) = 0xEF ∧ memGet t.mem (halfKey 0 0 + 0x100F) = 0x01 ∧
    s4 (.lds .h .plain 4 3 14) t = 0x123 ∧ s4 (.ld .b .plain 4 3 8) t = 0xEF := by decide

/-- R259, R260: a word that crosses 64 bytes misaligned traps PROG.ALIGN, and the reserved homes PROG.ADDR. -/
theorem test_access_faults :
    (did (.ld .w .plain 4 3 0) (withS [(3, 0x103E)] ready)).core.st = .stopping (.fault { name := .progAlign, addr := 0x103E }) ∧
    (did (.ld .w .plain 4 3 0) (withS [(3, 0x0A00000000000000)] ready)).core.st =
      .stopping (.fault { name := .progAddr, addr := 0x0A00000000000000 }) := by decide

/-- R89–R91: a counter of ceiling 8. -/
def celled : State := ready.putCell 0 9 { v := true, part := 0, ceil := 8, count := 1 }

theorem test_cells :
    ((did (.sig .plain (.own 9) 7) celled).cell 0 9).count = 8 ∧ ((did (.cset .plain (.own 9) 3) celled).cell 0 9).count = 3 ∧
    (did (.sig .plain (.own 9) 8) celled).core.st ≠ .busy ∧ s4 (.trytake .plain 4 (.own 9) 2) celled = 0 ∧
    s4 (.trytake .plain 4 (.own 9) 1) celled = 1 ∧ s4 (.crd .plain 4 (.own 9)) celled = 1 ∧
    (did (.take .plain 4 0 (.own 9) 2) celled).core.hold = .wait 4 none := by decide

/-- The WID 0x0000_0007_0000_0006 under .wid 32, 30, 2 (R64, R102). -/
theorem test_widf :
    widField 0x0003000000021E20 0x0000000700000006 0 = 7 ∧ widField 0x0003000000021E20 0x0000000700000006 1 = 1 ∧
    widField 0x0003000000021E20 0x0000000700000006 2 = 2 ∧ widField 0x0003000000021E20 0x0000000700000006 3 = 0 := by decide

/-- R143, R146: the manual's example of a handle advanced by sixteen rows. -/
theorem test_handle_example :
    let s := withS [(5, 16), (6, 1024)] (ready.modCore fun x => x.setH 3 (BitVec.ofNat 256 0x0400000000100000))
    let t := did (.hadv 3 3 5 1) (did (.hsets 3 3 6 1) s)
    hBase (t.core.getH 3) = 0x0400000000104000 ∧ hStride (t.core.getH 3) 1 = 1024 ∧ s4 (.hget 4 3 1) t = 1 := by decide

/-- R31, R126, R153, R158: roundings of lanes. -/
theorem test_lanes_round :
    lane 2 0 (.vrint .rne 2 1 0) (withV [(1, [0xBF000000])] ready) = 0x80000000 ∧
    lane 2 0 (.vrint .rup 2 1 0) (withV [(1, [0x40200000])] ready) = 0x40400000 ∧
    lane 2 0 (.vrint .rdn 2 1 0) (withV [(1, [0xC0200000])] ready) = 0xC0400000 ∧
    lane 2 0 (.vcvt .e4m3 .f32 .rns 2 1 0) (withV [(1, [0x43E88000])] ready) = 0x7E ∧
    lane 2 1 (.vcvt .e4m3 .f32 .rns 2 1 0) (withV [(1, [0, 0x7F800000])] ready) = 0x7E ∧
    lane 2 0 (.vcvt .e4m3 .f32 .rns 2 1 0) (withV [(1, [0x7FC00001])] ready) = 0x7F := by decide

/-- R151: a sum, a fused product, and the identity of a saturating sum. -/
theorem test_lanes_arith :
    lane 3 0 (.vadd .f32 .rne 3 1 2 0) (withV [(1, [0x3F800000]), (2, [0x3F800000])] ready) = 0x40000000 ∧
    lane 3 0 (.vmul .f32 .rne 3 1 2 0) (withV [(1, [0x40400000]), (2, [0x3F000000])] ready) = 0x3FC00000 ∧
    lane 3 0 (.vadds 3 1 2 0) (withV [(1, [0x7FFFFFFF]), (2, [1])] ready) = 0x7FFFFFFF ∧
    lane 3 0 (.vadd .i32 .rne 3 1 2 0) (withV [(1, [0x7FFFFFFF]), (2, [1])] ready) = 0x80000000 := by decide

/-- R176: row 0 of the manual's example: −0 in column 3 wins over +0 in column 7. -/
theorem test_argmax :
    let row : List W32 := [0x7FC00000, 0xBF800000, 0xBF800000, 0x80000000, 0xBF800000, 0xBF800000, 0xBF800000, 0]
    let s := withV [(0, row ++ List.replicate 56 0xBF800000)] ready
    lane 2 0 (.vargmaxr .f32 2 0 0) s = 0x80000000 ∧ lane 3 0 (.vargmaxr .f32 2 0 0) s = 3 := by decide

/-- R179, R180: the manual's examples of VPART and VBUCKET. -/
theorem test_part_and_bucket :
    lane 6 1023 (.vpart 6 0 0 0) ready = 1023 ∧ lane 7 0 (.vpart 6 0 0 0) ready = 0xFFFFFFFF ∧
    (let s := (withV [(1, [2, 0, 2, 7, 0])] ready).modCore fun x => x.setK 1 31
     let t := did (.vbucket 4 1 3 1) s
     ((t.core.getV 4).take 5 = [1, 4, 0, 2, 0xFFFFFFFF]) ∧ ((t.core.getV 5).take 3 = [2, 0, 2]) ∧
     (t.core.getV 5).get 17 = 2 ∧ (t.core.getV 5).get 18 = 2 ∧ (t.core.getV 5).get 32 = 1) := by decide

/-- R182, R183: the manual's example of a pruned group. -/
theorem test_prune :
    let s := withV [(2, [3, 0xFFFFFFF9, 5, 0, 0xFFFFFFFB, 2, 5, 0xFFFFFFFB])] ready
    let t := did (.vprune48 .i8 10 2) s
    (t.core.getV 10).take 4 = [0xFFFFFFF9, 5, 0xFFFFFFFB, 5] ∧ (t.core.getV 11).get 0 = 0x56 := by decide

/-- R169: a row that holds 2.0 in column 5 and +0 elsewhere sums to 2.0 in every column. -/
theorem test_reduce :
    lane 1 63 (.vredr .f32 .add 1 0) (withV [(0, [0, 0, 0, 0, 0, 0x40000000])] ready) = 0x40000000 := by decide

/-- R205: the two examples of queries. -/
theorem test_queries :
    swAnswer [11, 11, 11, 11] 0 8 4 0 = ⟨3, 1, 3, 0, [11]⟩ ∧
    swAnswer [7, 3, 9, 4, 7, 3, 9, 5, 7, 3] 0 8 4 6 = ⟨2, 4, 6, 6, [9, 5, 7, 3]⟩ ∧
    swAnswer [3, 9, 5, 7, 3, 9, 4] 5 8 4 1 = ⟨0, 0, 0xFFFFFFFF, 1, []⟩ := by decide

/-- R42, R25: a step fetches the word at pc; a group under a guard that is not met changes nothing but the pc. -/
theorem test_steps :
    (match step (ready.withFetchWord 64 0x12000C0000000007) with
      | .next t => t.core.getS 3 == 7 && t.core.pc == 8
      | _ => false) = true ∧
    (match step (ready.withFetchWord 64 0x12010C0000000007) with
      | .next t => t.core.getS 3 == 0 && t.core.pc == 8
      | _ => false) = true ∧
    (match step (State.reset.withFetchWord 128 0x12000C056789ABCDF000000000001234) with
      | .next t => t.core.getS 3 == 0x123456789ABCD && t.core.pc == 16
      | _ => false) = true := by decide

/-- R26, R351, R356: the all-zero word stops its context with PROG.ILLEGAL, and FINFO0 names it. -/
theorem test_illegal_word :
    (match step ready with
      | .next t => t.core.st == .stopping (.fault { name := .progIllegal, words := [0] }) && t.core.pc == 0
      | _ => false) = true := by decide

/-- R360: BRK stops with its code, and its context goes on at the next word. -/
theorem test_break :
    (match exec (.brk 5) ready with
      | .next t => match t.core.st with
        | .stopping (.fault f) => f.name == .progBreak && f.detail == 5
        | _ => false
      | _ => false) = true := by decide

/-! ### Witnesses: states and operands that meet the hypotheses of the statements -/

def canAll (l : List Instr) (s : State) : Bool := l.all fun i =>
  s.canIssue && !s.interlocked s.cur (s.run s.cur) (named i) && !s.core.early s.issueCyc i && withinLimits s.core.header (named i)

theorem issues_of {l : List Instr} {s : State} (h : canAll l s = true) : ∀ i ∈ l, Issues i s := by
  intro i hi
  have h := List.all_eq_true.1 h i hi
  simp only [Bool.and_eq_true, Bool.not_eq_true'] at h
  exact ⟨h.1.1.1, h.1.1.2, h.1.2, h.2⟩

def two : State := withS [(2, 7), (3, 3)] ready

theorem witness_ScalarRegisterForms : two.core.getS 3 ≠ 0 ∧
    ∀ i ∈ ([.add 4 2 3, .sub 4 2 3, .mul 4 2 3, .mulh 4 2 3, .and 4 2 3, .or 4 2 3, .xor 4 2 3, .shl 4 2 3, .shr 4 2 3, .sar 4 2 3,
      .min 4 2 3, .max 4 2 3, .minu 4 2 3, .maxu 4 2 3, .slt 4 2 3, .sltu 4 2 3, .div 4 2 3, .divu 4 2 3, .rem 4 2 3, .remu 4 2 3,
      .add 0 2 3] : List Instr), Issues i two := ⟨by decide, issues_of (by decide)⟩

theorem witness_DivisionCorners :
    (ready.core.getS 3 = 0 ∧ ∀ i ∈ ([.div 4 2 3, .divu 4 2 3, .rem 4 2 3, .remu 4 2 3] : List Instr), Issues i ready) ∧
    (let s := withS [(2, 0x8000000000000000), (3, -1)] ready
     s.core.getS 2 = BitVec.intMin 64 ∧ s.core.getS 3 = BitVec.allOnes 64 ∧
       ∀ i ∈ ([.div 4 2 3, .divu 4 2 3, .rem 4 2 3, .remu 4 2 3] : List Instr), Issues i s) :=
  ⟨⟨by decide, issues_of (by decide)⟩, by decide, by decide, issues_of (by decide)⟩

theorem witness_ScalarImmediatesAndBitFields : ((0 : BitVec 6).toNat + (63 : BitVec 6).toNat + 1 ≤ 64) ∧
    ((63 : BitVec 6).toNat + (0 : BitVec 6).toNat + 1 ≤ 64) ∧
    ∀ i ∈ ([.addi 4 2 (-1), .muli 4 2 3, .andi 4 2 3, .ori 4 2 3, .xori 4 2 3, .slti 4 2 3, .sltiu 4 2 3, .li 4 (-1), .shli 4 2 63,
      .shri 4 2 63, .sari 4 2 63, .mka 4 2 127, .bfx 4 2 0 63, .bfi 4 2 63 0, .clz 4 2, .popc 4 2] : List Instr), Issues i two :=
  ⟨by decide, by decide, issues_of (by decide)⟩

/-- The state in the body of a captured loop of one word at address 8, with iterations left. -/
def looping : State := ready.modCore fun x => { x with pc := 8, npc := 16, ipc := 8, lc := 2, loop := some ⟨[0xD000000000000000], 16, 0, false⟩ }

theorem witness_BranchesTakenAndNot :
    (condHolds .lt (two.core.getS 3) (two.core.getS 2) = true ∧ condHolds .eq (two.core.getS 3) (two.core.getS 2) = false) ∧
    (two.core.getQ 0 = true ∧ two.core.getQ 5 = false) ∧ ((two.core.getS 4).toNat % 8 = 0 ∧ (two.core.getS 2).toNat % 8 ≠ 0) ∧
    (∀ l, two.core.loop = some l → l.inside 40 = false) ∧ (∀ l, looping.core.loop = some l → l.inside 40 = false) ∧
    (∀ i ∈ ([.br .lt 3 2 5, .br .eq 3 2 5, .bqT 0 5, .bqF 0 5, .bqT 5 5, .bqF 5 5, .jmp 5, .jmpr 4, .jmpr 2] : List Instr),
      Issues i two) ∧
    ∀ i ∈ ([.br .eq 3 2 4, .jmp 4, .bqT 0 4] : List Instr), Issues i looping :=
  ⟨by decide, by decide, by decide, fun l h => by simp [show two.core.loop = none from rfl] at h,
   fun l h => by cases (show some (⟨[0xD000000000000000], 16, 0, false⟩ : LoopSt) = some l from h); decide,
   issues_of (by decide), issues_of (by decide)⟩

theorem witness_QsetWritesPredicate : ∀ i ∈ ([.qset .geu 1 2 3, .qset .any 7 2 3] : List Instr), Issues i two := issues_of (by decide)

/-- States for calls and returns: a deep return stack, a spilled entry, a stack pointer out of place. -/
def deep : State := ready.modCore fun x => { x.setS 63 0x400000 with ret := List.replicate 16 0x100 }
def spilled : State := (ready.modCore fun x => { x.setS 63 0x3FFFF8 with rss := 1 })
def unplaced : State := ready.modCore fun x => { x.setS 63 0x400004 with ret := List.replicate 16 0x100 }

theorem witness_CallsAndReturns :
    (ready.core.loop = none ∧ ready.core.ret.length < 16 ∧ (ready.core.getS 4).toNat % 8 = 0 ∧
      ∀ i ∈ ([.call 5, .callr 4, .ret] : List Instr), Issues i ready) ∧
    ((two.core.getS 2).toNat % 8 ≠ 0 ∧ ∀ i ∈ ([.callr 2] : List Instr), Issues i two) ∧
    (deep.core.loop = none ∧ 16 ≤ deep.core.ret.length ∧ (deep.core.getS spReg).toNat % 8 = 0 ∧
      0x400000 - hdrStack deep.core.header ≤ (deep.core.getS spReg - 8).toNat ∧ (deep.core.getS spReg - 8).toNat < 0x400000 ∧
      deep.core.rss ≠ 0xFFFFFFFF ∧ ∀ i ∈ ([.call 5, .callr 4, .ret] : List Instr), Issues i deep) ∧
    (16 ≤ unplaced.core.ret.length ∧ (unplaced.core.getS spReg).toNat % 8 ≠ 0 ∧ ∀ i ∈ ([.call 5] : List Instr), Issues i unplaced) ∧
    (ready.core.ret = [] ∧ ready.core.rss = 0) ∧
    (spilled.core.loop = none ∧ spilled.core.ret = [] ∧ spilled.core.rss ≠ 0 ∧ (spilled.core.getS spReg).toNat % 8 = 0 ∧
      0x400000 - hdrStack spilled.core.header ≤ (spilled.core.getS spReg).toNat ∧ (spilled.core.getS spReg).toNat < 0x400000 ∧
      spilled.isPoisoned (halfKey 0 0 + 0x3FFFF8) 8 = false ∧ spilled.readMem (halfKey 0 0 + 0x3FFFF8) 8 % 8 = 0 ∧
      ∀ i ∈ ([.ret] : List Instr), Issues i spilled) :=
  ⟨⟨by decide, by decide, by decide, issues_of (by decide)⟩, ⟨by decide, issues_of (by decide)⟩,
   ⟨by decide, by decide, by decide, by decide, by decide, by decide, issues_of (by decide)⟩,
   ⟨by decide, by decide, issues_of (by decide)⟩, by decide,
   by decide, by decide, by decide, by decide, by decide, by decide, by decide, by decide, issues_of (by decide)⟩

/-- The body of a loop: one NOP behind the LOOP, in the core's own half. -/
def body : State := (withS [(2, 3)] ready).modCore fun x => { x with npc := 8 }

theorem witness_LoopsRepeatTheirBodies :
    (body.core.loop = none ∧ body.core.getS 3 = 0 ∧ body.core.getS 2 ≠ 0 ∧
      ∀ i ∈ ([.loop 3 1, .loop 2 1, .loopi 0 1, .loopi 4 1, .loopP 2 1 2, .loopP 3 1 7] : List Instr), Issues i body) ∧
    (let ws : List W64 := [0]
     ws.length = (1 : BitVec 7).toNat ∧ (∀ j, j < ws.length → (body.fetchWord body.cur (body.run body.cur)
        (body.core.npc + BitVec.ofNat 64 (8 * j))) = (.ok (ws.getD j 0), body)) ∧ ws.getLast?.any isPfx = false) ∧
    (let s := withS [(2, -1)] ready
     2 ^ 64 ≤ (s.core.getS 2).toNat + (1 : BitVec 3).toNat ∧ ∀ i ∈ ([.loopP 2 1 1] : List Instr), Issues i s) ∧
    (∃ l, looping.core.loop = some l ∧ looping.core.npc = l.after) ∧
    (∃ l, looping.core.loop = some l ∧ l.inside (looping.core.ipc + (0 : W32).signExtend 64 * 8) = true ∧
      looping.canIssue = true ∧ looping.interlocked looping.cur (looping.run looping.cur) (named .ret) = false ∧
      looping.core.early looping.issueCyc .ret = false ∧
      ∀ i ∈ ([.jmp 0, .br .eq 2 3 0, .bqT 0 0, .bqF 1 0] : List Instr), Issues i looping) ∧
    (let s := looping.modCore fun x => x.setS 2 8
     ∃ l, s.core.loop = some l ∧ l.inside (s.core.getS 2) = true ∧ (s.core.getS 2).toNat % 8 = 0 ∧
       ∀ i ∈ ([.jmpr 2] : List Instr), Issues i s) := by
  refine ⟨⟨by decide, by decide, by decide, issues_of (by decide)⟩, ⟨by decide, ?_, by decide⟩, ⟨by decide, issues_of (by decide)⟩,
    ⟨_, rfl, by decide⟩, ⟨_, rfl, by decide, by decide, by decide, by decide, issues_of (by decide)⟩,
    ⟨_, rfl, by decide, by decide, issues_of (by decide)⟩⟩
  intro j hj
  obtain rfl : j = 0 := by simp only [List.length_singleton] at hj; omega
  rfl

/-! Loads, stores, atomics. -/

def far : State := withS [(3, 0x0200000000001000)] ready
def near : State := withS [(3, 0x1000), (4, 0x55)] ready

theorem witness_OwnHalfLoads :
    let va := near.core.getS 3 + 0
    let k := halfKey near.cur (near.run near.cur) + offBits va
    homeBits va = 0 ∧ near.mayAccess .acq va ∧ offBits va + 32 ≤ 0x400000 ∧ inGap near.core.header (offBits va) 32 = false ∧
      near.isPoisoned k 32 = false ∧ offBits va % 32 = 0 ∧
      (∀ z : Size, offBits va + sizeBytes z ≤ 0x400000 ∧ inGap near.core.header (offBits va) (sizeBytes z) = false ∧
        near.isPoisoned k (sizeBytes z) = false) ∧
      ∀ i ∈ ([.ld .b .plain 4 3 0, .ld .d .acq 4 3 0, .lds .h .plain 4 3 0, .hld 5 3 0] : List Instr), Issues i near :=
  ⟨by decide, ⟨by decide, fun h => absurd h (by decide)⟩, by decide, by decide, by decide, by decide,
   by intro z; cases z <;> decide, issues_of (by decide)⟩

theorem witness_OwnHalfStores :
    homeBits (near.core.getS 3 + 0) = 0 ∧ near.mayAccess .rel (near.core.getS 3 + 0) ∧ near.Safe ∧
    (∀ z : Size, offBits (near.core.getS 3 + 0) % sizeBytes z = 0 ∧
      inGap near.core.header (offBits (near.core.getS 3 + 0)) (sizeBytes z) = false) ∧
    ∀ i ∈ ([.st .b .plain 4 3 0, .st .d .rel 4 3 0, .hst 5 3 0] : List Instr), Issues i near :=
  ⟨by decide, ⟨by decide, fun _ => by decide⟩, by unfold State.Safe; decide, by intro z; cases z <;> decide, issues_of (by decide)⟩

def astray : State := withS [(3, 0x103C)] ready
def gapped : State := withS [(3, 0x3EFFFC)] (ready.modCore fun x => { x with task := some ⟨0, 0, 0, 1 <<< 128, 0, 0⟩ })
def crowded : State := far.modCore fun x => { x with accs := List.replicate 16 ⟨0, .store, 8, .plain, [⟨0, 0, 0, none, false, false⟩], true, false, [], 0, 0⟩ }

theorem witness_AccessesThatTrap :
    (windowCell (astray.core.getS 3) = none ∧ offBits (astray.core.getS 3) % 8 ≠ 0 ∧ 64 < offBits (astray.core.getS 3) % 64 + 8) ∧
    (([0x400000, 0x0A00000000000000, 0x2200000000000000, 0x4200000000000000, 0x1E00000000000000] : List W64).all fun v => offBits v % 8 == 0) ∧
    (homeBits (gapped.core.getS 3) = 0 ∧ inGap gapped.core.header (offBits (gapped.core.getS 3)) 4 = true) ∧
    ∀ i ∈ ([.ld .d .plain 4 3 0, .lds .w .plain 4 3 2, .st .d .plain 4 3 0, .aadd .d .plain true 4 3 0, .hld 5 3 0,
      .hst 5 3 0] : List Instr), Issues i astray :=
  ⟨by decide, by decide, by decide, issues_of (by decide)⟩

theorem witness_AccessesThatLeave :
    homeBits (far.core.getS 3) ≠ 0 ∧ offBits (far.core.getS 3) % 32 = 0 ∧
    far.tileCheck far.core.header far.core.part (far.core.getS 3) 8 true true = none ∧
    far.tileCheck far.core.header far.core.part (far.core.getS 3) 32 true false = none ∧
    far.core.accessRoom = true ∧ far.releaseWaits far.cur (far.run far.cur) (windowCell (far.core.getS 3)) = false ∧
    crowded.core.accessRoom = false ∧
    ∀ i ∈ ([.ld .d .plain 4 3 0, .lds .b .plain 4 3 0, .st .d .rel 4 3 0, .hld 5 3 0, .hst 5 3 0, .aadd .d .ar true 4 3 0,
      .aand .d .rel true 4 3 0, .aor .d .rel true 4 3 0, .axor .d .rel true 4 3 0, .amin .d .rel true 4 3 0, .amax .d .rel true 4 3 0,
      .aminu .d .rel true 4 3 0, .amaxu .d .rel true 4 3 0, .afadd .h .rel true 4 3 0, .afmin .w .rel true 4 3 0,
      .afmax .w .rel true 4 3 0, .aswp .d .rel true 4 3 0, .acas .d .rel true 4 3 0] : List Instr), Issues i far :=
  ⟨by decide, by decide, by decide, by decide, by decide, by decide, by decide, issues_of (by decide)⟩

/-- What is accepted, or refused, by the answer alone. -/
theorem ok_of {x : Got α × State} {p : α → Bool}
    (h : (match x.1 with | .ok v => p v | _ => false) = true) : ∃ v u, x = (.ok v, u) ∧ p v = true := by
  rcases x with ⟨_ | _ | _, u⟩ <;> simp_all

theorem fault_of {x : Got α × State} (h : (match x.1 with | .fault _ => true | _ => false) = true) : ∃ f u, x = (.fault f, u) := by
  rcases x with ⟨_ | _ | _, u⟩ <;> simp_all

/-- An access of one element, of four bytes at home 0x01. -/
def pend (op : AccOp) (acc done : Bool) : Access :=
  { num := 5, op := op, size := 4, ord := .plain, words := [], ip := 0, resume := 0, accepted := acc,
    elems := [{ lane := 0, va := 0x0200000000001000, data := 7, done := done,
                loc := if acc then some (.mem (homeKey 1 0x1000)) else none }] }

/-- The first 64 KiB of home 0x01 are mapped to themselves for partition 0, in a window of its own. -/
def mapped : State := { ready with units := [(0, { tlb := [⟨0, 0, 0x10000, 0, false⟩] })], pwins := [(pwinNo 1 0 0, 0x100000000)] }

def with1 (a : Access) (h : Hold) : State := mapped.modCore fun x => { x with accs := [a], hold := h }

theorem witness_BankAtomicsPerform :
    let a := pend (.atomic 0x03 true 4 0) true false
    let s := with1 a .none
    (s.slot 0 0).accs[0]? = some a ∧ mayPerform (s.slot 0 0).accs 0 0 = true ∧ s.isPoisoned (homeKey 1 0x1000) a.size = false ∧
      s.Safe := ⟨by decide, by decide, by decide, by unfold State.Safe; decide⟩

def asks : State := with1 (pend .store false false) .reply
def barred : State := { asks with pwins := [] }

theorem witness_RepliesAcceptOrRefuse :
    (asks.slot 0 (asks.run 0)).hold = .reply ∧ (asks.slot 0 (asks.run 0)).accs.getLast? = some (pend .store false false) ∧
    spaceOf 0x0200000000001000 = .shared 1 0x1000 ∧
    (∃ l u, asks.homeAccept 0 (asks.run 0) 0 0x0200000000001000 4 = (.ok l, u) ∧
      !(asks.readsPoison .store 4 { lane := 0, va := 0x0200000000001000, data := 7, loc := some l })) ∧
    ∃ f u, barred.homeAccept 0 (barred.run 0) 0 0x0200000000001000 4 = (.fault f, u) :=
  ⟨by decide, by decide, by decide, ok_of (by decide), fault_of (by decide)⟩

theorem witness_AccessesArePerformed :
    (let a := pend .store true false
     let s := with1 a .none
     (s.slot 0 (s.run 0)).accs[0]? = some a ∧ mayPerform (s.slot 0 (s.run 0)).accs 0 0 = true ∧ s.Safe) ∧
    (let a := pend (.load true 4) true false
     let s := with1 a .none
     (s.slot 0 (s.run 0)).accs[0]? = some a ∧ mayPerform (s.slot 0 (s.run 0)).accs 0 0 = true) ∧
    (let a := pend (.load true 4) true true
     (∃ l, a.elems = [l] ∧ l.done = true ∧ l.poisoned = false ∧ isPeerLoc l.loc = false) ∧
       ((with1 a .none).slot 0 0).stopsForGood = false) :=
  ⟨⟨by decide, by decide, by unfold State.Safe; decide⟩, ⟨by decide, by decide⟩, ⟨_, rfl, by decide⟩, by decide⟩

/-- The store of a signal to the window of cell 9 of tile 0, which partition 0 owns. -/
def windowed (op : AccOp) (sub : W64) : State :=
  celled.modCore fun x => { x with hold := .reply, accs := [⟨5, op, 8, .plain, [{ lane := 0, va := cellAddr 0 9 + sub, data := 3 }],
    false, false, [], 0, 0⟩] }

theorem witness_CellWindowsAreRegisters :
    (let s := windowed .store 8
     spaceOf (cellAddr 0 9 + 8) = .cell 0 9 8 ∧ (s.cell 0 9).ownedBy (s.slot 0 (s.run 0)).part = true ∧
       (∃ y, (s.cell 0 9).sig 3 = .ok y) ∧ ∃ f, (s.cell 0 9).sig 30 = .error f) ∧
    (let s := windowed (.load false 4) 0
     spaceOf (cellAddr 0 9) = .cell 0 9 0 ∧ (∀ w ∈ (s.tile 0).waiters, w.cell ≠ 9)) ∧
    ((windowed .store 8).cell 0 8).ownedBy 0 = false :=
  ⟨⟨by decide, by decide, ⟨_, rfl⟩, _, rfl⟩, ⟨by decide, by decide⟩, by decide⟩

/-! Cells. -/

/-- Cells 9 (a counter), 10 (flags), 11 (a barrier of three) of tile 0 belong to partition 0; cell 12 to no one. -/
def cells3 : State := (celled.putCell 0 10 { v := true, part := 0, mode := 1, ceil := 7, count := 2 }).putCell 0 11
  { v := true, part := 0, mode := 2, ceil := 3, a := 3, count := 1 }

theorem witness_OwnCellsAnswer :
    ((cells3.cell 0 9).ownedBy cells3.core.part = true ∧ (cells3.cell 0 9).mode = 0 ∧ (cells3.cell 0 9).ceil.toNat = 8 ∧
      (cells3.cell 0 10).mode = 1 ∧ (cells3.cell 0 11).mode = 2 ∧ (cells3.cell 0 12).ownedBy cells3.core.part = false) ∧
    ((1 : Nat) + 7 ≤ 8 ∧ (8 : Nat) < 1 + 8 ∧ ((5 : W32) &&& ~~~7) = 0 ∧ ((8 : W32) &&& ~~~7) ≠ 0 ∧ (1 : Nat) + 1 < 3 ∧ (1 : Nat) + 2 = 3) ∧
    (cells3.tile 0).waiters = [] ∧ (cells3.cell 0 9).test .ge 1 = true ∧ (cells3.cell 0 9).test .ge 2 = false ∧
    (releases .rel = true → cells3.releaseWaits 0 (cells3.run 0) (some (0, 9)) = false) ∧
    ∀ i ∈ ([.sig .rel (.own 9) 7, .sig .plain (.own 9) 8, .arrive .plain (.own 11), .cset .plain (.own 10) 8, .ccfg 1 (.own 9),
      .cclr (.own 9), .crd .acq 4 (.own 9), .wait .ge .acq 4 0 (.own 9) 1, .wait .ge .plain 4 1 (.own 9) 2, .take .plain 4 0 (.own 9) 2,
      .trytake .plain 4 (.own 11) 1] : List Instr), Issues i cells3 :=
  ⟨by decide, by decide, by decide, by decide, by decide, fun _ => by decide, issues_of (by decide)⟩

theorem witness_RemoteCellsAreAsked :
    (let s := withS [(3, cellAddr 5 9)] ready
     spaceOf (s.core.getS 3) = .cell 5 9 0 ∧ s.releaseWaits s.cur (s.run s.cur) (some (5, 9)) = false ∧
       ∀ i ∈ ([.sig .rel (.remote 3) 7, .arrive .plain (.remote 3), .cset .plain (.remote 3) 8, .ccfg 1 (.remote 3), .cclr (.remote 3),
         .crd .acq 4 (.remote 3), .wait .ge .acq 4 0 (.remote 3) 1, .take .plain 4 2 (.remote 3) 2,
         .trytake .plain 4 (.remote 3) 1] : List Instr), Issues i s) ∧
    (let s := withS [(3, cellAddr 5 9 + 8)] ready
     ∃ u n sub, spaceOf (s.core.getS 3) = .cell u n sub ∧ sub ≠ 0) ∧ spaceOf 0x0A00000000000000 = .reserved :=
  ⟨⟨by decide, by decide, issues_of (by decide)⟩, ⟨5, 9, 8, by decide, by decide⟩, by decide⟩

/-- A remote operation of tile 0 on a cell of tile 5. -/
def remote (op : CellOp) (st : RemoteSt) : Remote :=
  { id := 3, tile := 0, slot := 0, part := 0, target := 5, cell := 9, op := op, once := false, st := st, cancel := false }

def asking (op : CellOp) (st : RemoteSt) : State :=
  { (ready.putCell 5 9 { v := true, part := 0, ceil := 8, count := 1 }) with remotes := [remote op st] }

theorem witness_CellEventsHappen :
    (∀ op ∈ ([.sig 7, .cclr, .crd, .wait .ge 2] : List CellOp), (asking op .sent).remotes[0]? = some (remote op .sent) ∧
      (remote op .sent).peer = none ∧ (remote op .sent).st = .sent ∧ ((asking op .sent).cell 5 9).ownedBy 0 = true) ∧
    ((ready.cell 5 9).ownedBy 0 = false) ∧ (∃ y, ((asking (.sig 7) .sent).cell 5 9).change (.sig 7) = .ok y) ∧
    (∃ f, ((asking (.sig 8) .sent).cell 5 9).change (.sig 8) = .error f) ∧
    (let s := (asking .crd (.replied none 1 0)).modCore fun x => { x with hold := .remote 3 4 none }
     (s.slot 0 0).hold = .remote 3 4 none ∧ (s.slot 0 0).st = .busy ∧ (remote .crd (.replied none 1 0)).origin = none) ∧
    (let s := (celled.modTile 0 fun x => { x with waiters := [⟨.core 0, 9, .take 1, 0, false⟩] }).modCore fun x => { x with hold := .wait 4 (some 0) }
     (s.tile 0).waiters = [⟨.core (s.run 0), 9, .take 1, 0, false⟩] ∧ (s.tile 0).idle = false ∧ (s.slot 0 (s.run 0)).st = .busy ∧
       (s.slot 0 (s.run 0)).hold = .wait 4 (some 0) ∧ ∃ y, (s.cell 0 9).meet (.take 1) = some y) :=
  ⟨by decide, by decide, ⟨_, rfl⟩, ⟨_, rfl⟩, by decide, by decide, by decide, by decide, by decide, _, rfl⟩

/-! Tasks and dispatch. -/

def spawning : State := withS [(3, 0x0200000000001000)] mapped

theorem witness_TaskInstructions :
    (offBits (two.core.getS 2 + 0) % 64 ≠ 0 ∧ ∀ i ∈ ([.spawn 4 2 0, .spawnb 4 2 0, .park 4 2 0] : List Instr), Issues i two) ∧
    (offBits (spawning.core.getS 3 + 0) % 64 = 0 ∧ (∀ c ∈ spawning.core.accs, c.pending = false) ∧
      (∃ v u, spawning.readNow spawning.core.header 0 0 spawning.core.part 0x0200000000001000 64 = (.ok v, u) ∧ v == 0) ∧
      (∃ k u, spawning.continuationKey 0 0 spawning.core.part 0x0200000000001000 = (.ok k, u) ∧ k == homeKey 1 0x1000) ∧
      (∃ k, spawning.core.task = some k) ∧
      ∀ i ∈ ([.spawn 4 3 0, .spawnb 4 3 0, .park 4 3 0, .taskDone 3, .yield, .widf 4 0] : List Instr), Issues i spawning) :=
  ⟨⟨by decide, issues_of (by decide)⟩, by decide, by decide, ok_of (by decide), ok_of (by decide), ⟨_, rfl⟩,
   issues_of (by decide)⟩

/-- A record of level 0 for the code at the start of home 0x01, under the header at 0x2000 there. -/
def goodRec : W512 := withCrc ((0x0200000000002000 <<< 384) ||| (1 <<< 480) ||| (0x0200000000000000 : W512))
def staleRec : W512 := goodRec ^^^ (1 <<< 448)
/-- A header of one WID field of 64 bits and ceiling 4, with its check value. -/
def goodHdr : W512 :=
  let h : W512 := 64 ||| (1 <<< 48) ||| (32 <<< 64) ||| (0x10000 <<< 128) ||| (10000 <<< 192) ||| (4 <<< 224) ||| (7 <<< 228) ||| (1 <<< 448)
  put512 h 480 32 (crc32c ((recBytes h).take 60)).toNat

/-- Levels of 256 records, and contexts for all of them. -/
def levelled (s : State) : State :=
  (List.range 8).foldl (fun s l => s.putReg (.lqsize 0 0 (BitVec.ofNat 3 l)) 8) (s.putReg (.cxcount 0 0) 4096)
def enabled (s : State) : State := s.modPart 0 fun x => { x with en := true }

theorem witness_records : recordFault goodRec = none ∧ recordFault staleRec = some .hwCrc ∧ headerFault goodHdr 0 = none ∧
    recLevel goodRec = 0 ∧ (levelled ready).full 0 0 0 = false ∧ ready.full 0 0 0 = true := by decide

def joined (j : Nat) (h : Hold) : State :=
  (mapped.writeMem (homeKey 1 0x1000) 64 (put512 goodRec 224 32 j).toNat).modCore fun x => { x with hold := h }

theorem witness_TasksRetire :
    ((joined 0 (.done 0 0 false)).slot 0 0).drained = true ∧ offBits 0x0200000000001000 % 64 = 0 ∧
    (∃ k u, (joined 2 (.done 3 0x0200000000001000 false)).continuationKey 0 0 0 0x0200000000001000 = (.ok k, u) ∧
      k == homeKey 1 0x1000) ∧
    (∀ j ∈ [0, 1, 2], (joined j .none).readMem (homeKey 1 0x1000 + 28) 4 = j ∧ (joined j .none).isPoisoned (homeKey 1 0x1000) 64 = false) ∧
    (let r := (joined 2 .none).recordAt (homeKey 1 0x1000)
     recJoin r ≠ 0 ∧ recCrc (joinZero r) = recordCrc (joinZero r) ∧ recordFault (joinZero r) = none) ∧
    recJoin ((joined 0 .none).recordAt (homeKey 1 0x1000)) = 0 ∧
    (ready.part 0).en = false ∧ ((enabled (joined 2 .none)).part 0).en = true :=
  ⟨by decide, by decide, ok_of (by decide), by decide, by decide, by decide, by decide, by decide⟩

/-- Partition 0 is enabled and its levels have room; what arrives, and what is in the submission ring. -/
def open0 : State := levelled (enabled ready)
def arrival (via : Via) (r : W512) : Arrival := ⟨via, 0, 0, r, 0⟩

theorem witness_WorkIsAdmitted :
    (∀ via ∈ ([.spawn 0 0 4, .head 0, .tail, .peer] : List Via),
      let s : State := { open0 with arrivals := [arrival via goodRec] }
      nextArrival 0 s.arrivals = some 0 ∧ s.arrivals[0]? = some (arrival via goodRec) ∧ (s.part 0).en = true ∧
        ({ s with arrivals := s.arrivals.eraseIdx 0 } : State).full 0 0 0 = false) ∧
    (ready.part 0).en = false ∧ (enabled ready).full 0 0 0 = true ∧
    (let s := (open0.putReg (.sqsize 0 0 0) 8).modRing 0 0 0 fun x => { x with sqHead := 3, sqTail := 5 }
     let back := fun (i : Nat) => (i + 2 ^ 20 - (s.ring 0 0 0).sqHead) % s.sqLen 0 0 0
     back 4 < back (s.ring 0 0 0).sqTail ∧ back (s.ring 0 0 0).sqTail ≤ back 9 ∧ back (s.ring 0 0 0).sqTail ≠ 0 ∧ (s.part 0).en = true ∧
       s.full 0 0 0 = false ∧
       (s.modRing 0 0 0 fun x => { x with sqHead := (x.sqHead + 1) % 2 ^ 20 }).isPoisoned (homeKey 1 (64 * 3)) 64 = false ∧
       recordFault (s.recordAt (homeKey 1 (64 * 3))) = some .hwCrc ∧
       recordFault ((s.writeMem (homeKey 1 (64 * 3)) 64 goodRec.toNat).recordAt (homeKey 1 (64 * 3))) = none) ∧
    (let s := open0.modRing 0 0 0 fun x => { x with held := [arrival .peer goodRec] }
     (s.ring 0 0 0).held = [arrival .peer goodRec] ∧ s.full 0 0 0 = false) := by decide

/-- Tile 0 idle for partition 0, a good record at the head of level 0 and its header in home 0x01. -/
def fresh0 : State :=
  ((({ mapped with tiles := [] } : State).modTile 0 fun x => { x with idle := false, tslot := { x.tslot with va := true } }).writeMem
    (homeKey 1 0x2000) 64 goodHdr.toNat).modRing 0 0 0 fun x => { x with recs := [⟨goodRec, 0, none⟩] }

theorem witness_DispatchStartsTasks :
    (∃ h u, fresh0.readyAt 0 0 0 goodRec = (.load h, u)) ∧ (enabled fresh0).nextDispatch 0 = some (0, 0) ∧
    (fresh0.ring 0 0 0).recs = [⟨goodRec, 0, none⟩] ∧ recCount goodRec ≤ 0 + 1 := by
  refine ⟨?_, by decide, by decide, by decide⟩
  have h : (match (fresh0.readyAt 0 0 0 goodRec).1 with | .load _ => true | _ => false) = true := by decide
  revert h
  rcases fresh0.readyAt 0 0 0 goodRec with ⟨_ | _ | _ | _, u⟩ <;> simp

/-! Control registers, system instructions, translations. -/

def shaped : State := ready.modCore fun x => x.setT 3 ⟨true, .i8, 4, 8, [], [], 0⟩

theorem witness_ControlRegisters : (shaped.core.getT 3).conf = true ∧ (shaped.core.getT 4).conf = false ∧
    ∀ i ∈ ([.crr 4 .cyc, .crr 4 .budg, .crr 4 .lc, .crr 4 .rb, .crr 4 .mstat, .crr 4 (.finfo 3), .crr 4 .tstat, .crr 4 (.linklat 47),
      .crr 4 (.tcfg 3), .crr 4 (.tcfg 4), .crw .lc 2, .crw .rb 2, .crw .mstat 2, .crw .cyc 2, .crw (.tcfg 3) 2] : List Instr),
      Issues i shaped := ⟨by decide, by decide, issues_of (by decide)⟩

def frec (ctx : Ctx) : FRec := ⟨{ name := .progBounds }, 0, 0, 0, true, false, 0, 0, ctx⟩
def recorded (ctx : Ctx) (popped : Bool) : State :=
  withS [(2, 0x1000)] (ready.modPart 0 fun x => { x with fq := [⟨0x1000, frec ctx, popped, false⟩] })
def other (x : Slot) (s : State) : State := s.modSlot 0 1 fun _ => x
def saved0 : Saved := ⟨0x80, 0, 0, 0, {}, [], [], false, false⟩

theorem witness_SystemInstructions :
    (∀ b ∈ ready.core.accs, ∀ e ∈ b.elems, (!e.done && inScope ready.cur .sys e.va) = false) ∧
    (∃ b ∈ crowded.core.accs, ∃ e ∈ b.elems, (!e.done && inScope crowded.cur .sys e.va) = true) ∧
    (recorded .none true).answerable 0 0x1000 = some ⟨0x1000, frec .none, true, false⟩ ∧ (recorded .none false).answerable 0 0x1000 = none ∧
    ((ready.part 0).fq.all FEntry.popped = true ∧ ((recorded .none false).part 0).fq = [] ++ ⟨0x1000, frec .none, false, false⟩ :: []) ∧
    (let s := other { st := .faulted } (recorded (.slot 0 1) true)
     s.answerable 0 0x1000 = some ⟨0x1000, frec (.slot 0 1), true, false⟩ ∧ (s.slot 0 1).st = .faulted ∧
       ¬((0 : Nat) = s.cur ∧ ((1 : Nat) = 0 ↔ s.run s.cur = 0))) ∧
    (let s : State := { recorded (.saved 0x80) true with saved := [saved0] }
     s.answerable 0 0x1000 = some ⟨0x1000, frec (.saved 0x80), true, false⟩ ∧
       s.saved.find? (fun k => k.addr == 0x80 && k.part == 0 && k.die == 0) = some saved0) ∧
    ∀ i ∈ ([.nop, .fence .tile, .fence .sys, .phase, .qwait true false, .qwait false false, .brk 7, .fqpop 4, .fresume 2, .fabort 2,
      .frestart 2] : List Instr), Issues i (recorded .none true) :=
  ⟨by decide, ⟨_, .head _, _, .head _, by decide⟩, by decide, by decide, by decide, by decide, by decide, issues_of (by decide)⟩

/-- The first 2 MiB of home 0x01 are mapped by a walk to a page in partition 0's window; s2 and s3 hold a range in it. -/
def lockable : State :=
  let s : State := { withS [(2, 0x0200000000000000), (3, 0x10000)] ready with pwins := [(pwinNo 1 0 0, 0x2000000020)] }
  ((((s.putReg (.ptroot 0 0) 0x1001).writeMem (homeKey 1 0x1000) 8 0x2001).writeMem (homeKey 1 0x2000) 8 0x3001).writeMem
    (homeKey 1 0x3000) 8 0x4001).writeMem (homeKey 1 0x4000) 8 0x200002
def pages : List Walk := lockable.pagesOf 1 0 0x10000 3 0

theorem witness_TranslationsLock :
    2 ^ 57 < offBits (0x01FFFFFFFFFFFFFF : W64) + 2 ∧ lockable.lockAt 0 0x0200000000000000 0x10000 = .here 1 0 ∧
    pages = [.page 0 0x200000 0x200000] ∧ pages.all (lockable.pageOwned 1 0 0 0x10000) = true ∧ pages.contains .poison = false ∧
    (lockedEntries 0 pages).length = pages.length ∧ lockable.locks.any (fun r => r.touches 1 0 0 0x10000) = false ∧
    (⟨1, 0, 0, 1⟩ : LockRange).touches 1 0 0 0x10000 = true ∧ (ready.pagesOf 1 0 0x10000 3 0).any (fun w => w != .miss false) = false ∧
    ∀ i ∈ ([.tlock 4 2 3, .tunlock 2 3, .tlock 4 2 5] : List Instr), Issues i lockable :=
  ⟨by decide, rfl, by decide, by decide, by decide, by decide, by decide, by decide, by decide, issues_of (by decide)⟩

/-! Contexts. -/

def snap0 : Snapshot := ⟨[], [], 1, none, 0, 0, [], 0, []⟩
def phased (n : Nat) : State := ready.modCore fun x => { x with phase := some (0, snap0), canc := n }

theorem witness_TakingAFault : ready.core.st = .busy ∧ (phased 2).core.st = .busy ∧ (phased 2).core.phase.isSome = true ∧
    (phased 2).core.canc < 3 ∧ 3 ≤ (phased 3).core.canc ∧ ready.core.phase = none := by decide

def stopped (w : Stop) : State := ready.modCore fun x => { x with st := .stopping w }
def stop0 : FaultInfo := { name := .progBounds }

theorem witness_ContextsStop :
    (let s := ready.modCore fun x => { x with budg := 0 }
     (s.tile 0).idle = false ∧ (s.slot 0 (s.run 0)).task.isSome = true ∧ (s.slot 0 (s.run 0)).st = .busy ∧ (s.slot 0 (s.run 0)).budg = 0) ∧
    (let s := ((ready.modCore fun x => { x with ran := 9 }).putReg (.tslice 0) 5).modTile 0 fun x =>
      { x with tslot := ⟨0, true, 0, true⟩, b := x.a }
     (s.reg (.tslice 0)).toNat % 2 ^ 32 ≠ 0 ∧ (s.reg (.tslice 0)).toNat % 2 ^ 32 ≤ (s.slot 0 (s.run 0)).ran ∧
       ∀ k < 2, s.eligible 0 k = true ∧ (s.slot 0 k).task.isSome = true) ∧
    ((1 : W64).getLsbD 0 = !false ∧ (1 : W64).getLsbD 1 = false ∧ (2 : W64).getLsbD 0 = !true ∧ (2 : W64).getLsbD 1 = true) ∧
    (let s := (ready.modCore fun x => { x with st := .faulted, waited := 9 }).putReg (.fhold 0) 9
     (s.slot 0 0).st = .faulted ∧ (s.reg (.fhold 0)).toNat % 2 ^ 32 ≠ 0 ∧ (s.reg (.fhold 0)).toNat % 2 ^ 32 ≤ (s.slot 0 0).waited) ∧
    ∀ w ∈ ([.fault stop0, .preempt, .budget, .yield, .clear, .switch] : List Stop), ((stopped w).slot 0 0).st = .stopping w ∧
      ((stopped w).slot 0 0).accs = [] ∧ ((stopped w).slot 0 0).cq.all (fun q => !q.started) = true ∧
      ((stopped w).slot 0 0).hold = .none := by decide

theorem witness_ContextsAreSavedAndRestored :
    (let s := { levelled (ready.modCore fun x => { x with st := .saving .preempt }) with devstat := 6 }
     (s.slot 0 0).st = .saving .preempt ∧ (s.slot 0 0).writeOut = false ∧ s.serves (.dispatcher 0) = true ∧
       s.freeEntryAddr (dieOf 0) (s.slot 0 0).part = some 0) ∧
    (let s := levelled (ready.modCore fun x => { x with st := .faulted, moveDue := true })
     (s.slot 0 0).st = .faulted ∧ ((s.slot 0 0).moveDue || (s.slot 0 0).pendPreempt) = true ∧
       s.full (dieOf 0) (s.slot 0 0).part (s.slot 0 0).taskLevel = false ∧ s.freeEntryAddr (dieOf 0) (s.slot 0 0).part = some 0) ∧
    ((ready.modCore fun x => { x with source := some 0x80 }).slot 0 0).source = some 0x80 ∧ (ready.slot 0 0).source = none ∧
    Memory.wf ready.mem = true := by decide

/-- A record with RESUME that names the saved context at 0, at the head of level 0, under a memory. -/
def resumable (m : List Host.Cell) (l : List Saved) : State :=
  { (enabled fresh0).modRing 0 0 0 fun x => { x with recs := [⟨resumeRecord goodRec true false 0, 0, none⟩] } with mem := m, saved := l }
def savedAt0 : Saved :=
  { addr := 0, part := 0, die := 0, level := 0, slot := { task := some ⟨0, 0, 0, goodHdr, goodRec, 7⟩ }, cells := [], bytes := [],
    moved := false, used := false }

theorem witness_ContextsAreRestored : ∀ l, (∀ m, (resumable m l).nextDispatch 0 = some (0, 0) ∧
      ((resumable m l).ring 0 0 0).recs = ⟨resumeRecord goodRec true false 0, 0, none⟩ :: []) ∧
    recordFault (resumeRecord goodRec true false 0) = none ∧ recResume (resumeRecord goodRec true false 0) = true ∧
    recArg0 (resumeRecord goodRec true false 0) = savedAt0.addr ∧
    ([savedAt0].find? fun k => k.addr == 0 && k.die == 0 && k.part == 0 && !k.used) = some savedAt0 ∧
    (([] : List Saved).find? fun k => k.addr == 0 && k.die == 0 && k.part == 0 && !k.used) = none ∧
    headerFault savedAt0.slot.header 0 = none := by
  intro l
  exact ⟨fun m => ⟨rfl, rfl⟩, by decide, by decide, by decide, by decide, by decide, by decide⟩

/-- Both outcomes of the check of an image's header, under some memory. -/
theorem witness_ImageChecks (l : List Saved) : (∃ m, (resumable m l).imageGood 0 = true) ∧ (∃ m, (resumable m l).imageGood 0 = false) := by
  have h := fun v => State.imageGood_writeMem (resumable [] l) (by decide : Memory.wf [] = true) 0 v
  generalize crc32c ((resumable [] l).readBytes (entryKey 0) 0xFFC) = c at h
  have := c.isLt
  refine ⟨⟨_, (h c.toNat).trans ?_⟩, ⟨_, (h (c.toNat + 1)).trans ?_⟩⟩
  · simp only [beq_iff_eq]; omega
  · simp only [beq_eq_false_iff_ne]; omega

theorem witness_PhasesCommitOrCancel :
    (let s := ready.modCore fun x => { x with hold := .phase }
     (s.slot 0 (s.run 0)).st = .busy ∧ (s.slot 0 (s.run 0)).phaseDone = true ∧ (s.slot 0 (s.run 0)).hold = .phase) ∧
    (let s := (phased 0).modCore fun x => { x with hold := .done 3 0 false }
     (s.slot 0 (s.run 0)).phaseDone = true ∧ (s.slot 0 (s.run 0)).phase.isSome = true) ∧
    (let s := ready.modCore fun x => { x with hold := .qwait true false }
     (s.slot 0 (s.run 0)).hold = .qwait true false ∧ (s.slot 0 (s.run 0)).mq = []) ∧
    (let s := (phased 1).modCore fun x => { x with st := .stopping (.cancel stop0) }
     (s.slot 0 0).st = .stopping (.cancel stop0) ∧ (s.slot 0 0).phase = some (0, snap0) ∧ (s.slot 0 0).accs = [] ∧ (s.slot 0 0).hold = .none ∧
       (s.slot 0 0).pendPreempt = false ∧ (s.slot 0 0).mq.all (fun q => q.phased) = true ∧ (s.slot 0 0).cq = []) := by decide

theorem witness_SlotsSwitchAndStallsEnd :
    (let s := ready.modTile 0 fun x => { x with idle := true }
     (s.tile 0).idle = true ∧ s.eligible 0 (s.run 0) = true) ∧
    (let s := ready.modTile 0 fun x => { x with idle := true, tslot := ⟨0, false, 0, true⟩ }
     s.eligible 0 (s.run 0) = false ∧ s.eligible 0 (1 - s.run 0) = true) ∧
    (let s := ready.modTile 0 fun x => { x with tslot := ⟨0, false, 0, false⟩ }
     (s.tile 0).idle = false ∧ (∀ w ∈ ([.preempt, .switch] : List Stop), (s.slot 0 0).st ≠ .stopping w) ∧ s.eligible 0 0 = false ∧ s.eligible 0 1 = false) ∧
    (let s := other { st := .busy, task := some ⟨0, 0, 0, 0, 0, 0⟩ } (ready.modTile 0 fun x =>
      { x with tslot := ⟨0, true, 0, true⟩, a := {} })
     s.eligible 0 0 = true ∧ (s.slot 0 0).st = .free ∧ (s.slot 0 0).task = none ∧ s.slotHasRecord 0 0 = false ∧ s.eligible 0 1 = true ∧
       (s.slot 0 1).task.isSome = true) ∧
    (let e : Elem := { lane := 0, va := 0x2000000000000000 }
     let s := (ready.modCore fun x => { x with hold := .reply, stall := 8, accs := [⟨0, .store, 8, .plain, [e], false, false, [], 0, 0⟩] }).putReg (.drstall 0) 7
     (s.reg (.drstall 0)).toNat % 2 ^ 32 ≠ 0 ∧ (s.reg (.drstall 0)).toNat % 2 ^ 32 < (s.slot 0 0).stall ∧ (s.slot 0 0).hold = .reply ∧
       [e].find? (fun e => !e.done) = some e ∧ homeBits e.va = 0x10 ∧
       (s.link (linkOf (offBits e.va))).st ≠ 0 ∧ 0x40 ≤ homeBits (0x8000000000000000 : W64)) := by decide

theorem witness_FaultRecordsAreWritten :
    (let s := { (ready.modPart 0 fun x => { x with recs := [frec .none] }) with devstat := 6 }
     (s.part 0).recs = frec .none :: [] ∧ (s.part 0).fqStuck = false ∧ s.serves (.dispatcher 0) = true ∧ (s.part 0).fq.length < s.fqLen 0) ∧
    (let s := (recorded .none false).putReg (.fqsize 0) 0
     s.fqLen 0 ≤ (s.part 0).fq.length) := by decide

/-! Handles, vectors, selection. -/

theorem witness_RegistersAndFieldsArePut : 252 + 4 ≤ 256 ∧ 0 + 256 ≤ 256 ∧ (63 : SReg) ≠ 0 ∧ (7 : QReg) ≠ 0 ∧ (1 : KReg) ≠ 0 ∧
    (62 : SReg) ≠ 63 := by decide

theorem witness_HandleForms :
    (5 : BitVec 3).toNat < 6 ∧ (12 : BitVec 4).toNat < 13 ∧
    (1 ≤ (4096 : W64).toNat ∧ (4096 : W64).toNat ≤ 4096) ∧ (0 : W64).toNat = 0 ∧ 4096 < (4097 : W64).toNat ∧
    (-524288 ≤ (-524288 : W64).toInt ∧ (524287 : W64).toInt ≤ 524287) ∧ (-524289 : W64).toInt < -524288 ∧ 524287 < (524288 : W64).toInt ∧
    hValid 0 4096 = true ∧ hValid 0x3FFFFF 2 = false ∧ (∀ c ∈ ready.core.mq, (3 : TReg) ∉ (named c.instr).t) ∧
    (let s := ready.modCore fun x => { x with mq := [{ instr := .tld 3 1 bare, words := [], addr := 0, num := 0 }] }
     ∃ c ∈ s.core.mq, (3 : TReg) ∈ (named c.instr).t) ∧
    ∀ i ∈ ([.hmov 1 2, .hclr 1, .hsetb 1 2 3, .hsetd 1 2 3 5, .hsets 1 2 3 5, .hadv 1 2 3 5, .hget 4 2 12, .hget 4 2 0, .hchk 2 3,
      .tcfg 3 .i8 4 8] : List Instr), Issues i ready :=
  ⟨by decide, by decide, by decide, by decide, by decide, by decide, by decide, by decide, by decide, by decide, by decide,
   ⟨_, .head _, by decide⟩, issues_of (by decide)⟩

theorem witness_VectorLanes : ∀ i ∈ ([.vadd .f32 .rz 1 2 3 4, .vsub .i32 .rne 1 2 3 4, .vmul .f32 .rup 1 2 3 4, .vfma .rne 1 2 3 4 5,
    .vfms .rne 1 2 3 4 5, .vfnma .rne 1 2 3 4 5, .vmin .f32 1 2 3 4, .vmax .i32 1 2 3 4, .vabs .f32 1 2 3, .vneg .i32 1 2 3,
    .vadds 1 2 3 4, .vsubs 1 2 3 4, .vclamp .f32 1 2 3 4 5, .vscale .rne 1 2 3 4, .vrint .rz 1 2 3, .vand 1 2 3 4, .vor 1 2 3 4,
    .vxor 1 2 3 4, .vandn 1 2 3 4, .vshl 1 2 3 4, .vshr 1 2 3 4, .vsar 1 2 3 4, .vpopc 1 2 3, .vcvt .f4 .f32 .rns 1 2 3,
    .vmovi .i32 1 (-1) 2, .vbcs .f32 1 2 3, .vexp2 1 2 3, .vlog2 1 2 3, .vrcp 1 2 3, .vrsq 1 2 3, .vsqrt 1 2 3, .vtanh 1 2 3,
    .vsinpi 1 2 3, .vcospi 1 2 3, .vhash 1 2 3 4] : List Instr), Issues i ready := issues_of (by decide)

theorem witness_MasksAndComparisons : ∀ i ∈ ([.vcmpeq .i32 1 2 3 4, .vcmpne .f32 1 2 3 4, .vcmplt .i32 1 2 3 4, .vcmple .f32 0 2 3 4,
    .kand 1 2 3, .kor 1 2 3, .kxor 1 2 3, .knot 1 2, .kpopc 4 2, .kfirst 4 2] : List Instr), Issues i ready := issues_of (by decide)

theorem witness_VectorMoves : ∀ i ∈ ([.vsel .f32 1 2 3 4, .vmov 1 2, .vext 4 2 1023, .vins 1 2 0, .vrotr 1 2 63, .vbcr 1 2 63,
    .vpermr 1 2 3, .vrotc 1 2 15, .vbcc 1 2 15, .vredr .f32 .max 1 2, .vredc .i32 .add 1 2] : List Instr), Issues i ready :=
  issues_of (by decide)

/-- Metadata of four bits in every group. -/
def metaFull : State := withV [(3, List.replicate 128 0x0F)] ready

theorem metaFull_full :
    ((List.range 128).all fun g => ((List.range 8).filter fun i => (((metaFull.core.getV (2 + 1)).get g).getLsbD i)).length == 4) = true := by
  decide

theorem metaFull_can : canAll [.vargmaxr .f32 4 2 1, .vargmaxc .i32 4 2 1, .vargminr .f32 4 2 1, .vargminc .f32 4 2 1,
    .vtopk .f32 4 2 3 1 64, .vtopkm .f32 4 2 6 1, .vbucket 4 2 16 1, .vprune48 .i8 4 2, .vpart 4 5 6 1, .vspread48 .i8 4 2,
    .vcompress 4 2 5 1, .vexpand 4 2 5 1] metaFull = true := by decide

theorem witness_SelectionForms_full :
    ∀ g < 128, ((List.range 8).filter fun i => (((metaFull.core.getV (2 + 1)).get g).getLsbD i)).length = 4 :=
  fun g hg => beq_iff_eq.1 (List.all_eq_true.1 metaFull_full g (List.mem_range.2 hg))

theorem witness_SelectionForms_short : ((List.range 8).filter fun i => (((ready.core.getV (2 + 1)).get 0).getLsbD i)).length ≠ 4 := by
  decide

theorem witness_SelectionForms : ∀ i ∈ ([.vargmaxr .f32 4 2 1, .vargmaxc .i32 4 2 1, .vargminr .f32 4 2 1, .vargminc .f32 4 2 1,
    .vtopk .f32 4 2 3 1 64, .vtopkm .f32 4 2 6 1, .vbucket 4 2 16 1, .vprune48 .i8 4 2, .vpart 4 5 6 1, .vspread48 .i8 4 2,
    .vcompress 4 2 5 1, .vexpand 4 2 5 1] : List Instr), Issues i metaFull := issues_of metaFull_can

/-- A handle of 2 × 2 elements of two bytes at 0x1000 of the own half, one at home 0x01, one out of its home, one askew. -/
def hBox : W256 := BitVec.ofNat 256 (0x1000 + 1 * 2 ^ 64 + 1 * 2 ^ 76 + 2 * 2 ^ 136 + 8 * 2 ^ 156)
def boxed : State := ready.modCore fun x =>
  (((x.setH 1 hBox).setH 2 (hBox ||| (0x0200000000000000 : W256))).setH 3 (hBox ||| (0x3FFFFC : W256))).setH 4 (hBox ||| (1 : W256))

theorem witness_VectorLoads :
    homeBits (hBase (boxed.core.getH 1)) = 0 ∧ boxed.core.accessRoom = true ∧ hValid (boxed.core.getH 1) 2 = true ∧
    hAligned (boxed.core.getH 1) 2 = true ∧
    (∀ r < 2, ∀ c < 2, boxed.tileCheck boxed.core.header boxed.core.part (hAddrAt (boxed.core.getH 1) [c, r]) 2 false false = none ∧
      boxed.isPoisoned (halfKey 0 0 + offBits (hAddrAt (boxed.core.getH 1) [c, r])) 2 = false) ∧
    ∀ i ∈ ([.vld .bf16 4 1, .vldr .f16 4 1 15] : List Instr), Issues i boxed :=
  ⟨by decide, by decide, by decide, by decide, by decide, issues_of (by decide)⟩

def weighted : State := (withS [(2, 0x04000000)] ready).modRegion 1 fun g => { g with st := .opened, v := true, part := 0 }

theorem weights_read : ∃ v, weighted.weightRead 0 0x04000000 (1024 * Ty.bits .i8 / 8) = .ok v := by
  have h : (match weighted.weightRead 0 0x04000000 (1024 * Ty.bits .i8 / 8) with | .ok _ => true | _ => false) = true := by decide
  revert h
  cases weighted.weightRead 0 0x04000000 (1024 * Ty.bits .i8 / 8) <;> simp

theorem witness_VectorStoresAndWeights :
    hValid (boxed.core.getH 3) 2 = false ∧ (hValid (boxed.core.getH 4) 2 = true ∧ hAligned (boxed.core.getH 4) 2 = false) ∧
    (hValid (boxed.core.getH 2) 2 = true ∧ hAligned (boxed.core.getH 2) 2 = true ∧ homeBits (hBase (boxed.core.getH 2)) ≠ 0) ∧
    boxed.Safe ∧ ((windowElems .bf16 hBox none).all fun e => boxed.tileCheck boxed.core.header 0 e.va 2 true false == none) = true ∧
    ((windowElems .bf16 (boxed.core.getH 2) (some 3)).all fun e => boxed.tileCheck boxed.core.header 0 e.va 2 true false == none) = true ∧
    (∀ i ∈ ([.vst .bf16 .rz 1 4, .vstr .f16 .rne 1 4 15, .vld .bf16 4 2, .vst .bf16 .rz 2 4, .vld .f16 4 3, .vst .f16 .rne 4 4,
      .wld .i8 4 2] : List Instr), Issues i boxed) ∧
    (weightAddr (weighted.core.getS 2) weighted.cur = true ∧ (weighted.core.getS 2).toNat % 2 ^ 26 % (1024 * Ty.bits .i8 / 8) = 0 ∧
       ∃ v, weighted.weightRead 0 0x04000000 (1024 * Ty.bits .i8 / 8) = .ok v) ∧
    weightAddr 0x100000000 0 = false ∧ (weightAddr 0x20 0 = true ∧ 0x20 % 2 ^ 26 % (1024 * Ty.bits .i8 / 8) ≠ 0) :=
  ⟨by decide, by decide, by decide, by unfold State.Safe; decide, by decide, by decide, issues_of (by decide),
   ⟨by decide, by decide, weights_read⟩, by decide, by decide⟩

/-! Engines. -/

def tile8 (ty : Ty) (rows cols : Nat) : TileReg := ⟨true, ty, rows, cols, [], [], 0⟩
/-- t2 is 4 × 16 INT8, t4 is 8 × 16, t6 is 8 × 8 packed with metadata in t7, t8 holds indices; s2 is a W-address, s3 a parameter. -/
def tiled : State := withS [(3, 0x40)] (boxed.modCore fun x => (((((x.setT 2 (tile8 .i8 4 16)).setT 4 (tile8 .i8 8 16)).setT 6
  (tile8 .i8 8 8)).setT 7 (tile8 .ui8 8 2)).setT 8 (tile8 .i32 1 16)))
def filled (m : Bool) : State := tiled.modCore fun x =>
  x.putQueue m (List.replicate 16 { instr := .mnop bare, words := [], addr := 0, num := 0 })

theorem witness_CommandsAreQueued :
    ((tiled.core.getT 2).conf = true ∧ (tiled.core.getT 1).conf = false) ∧
    ((tiled.core.getT 2).ty = .i8 ∧ (tiled.core.getT 4).ty = .i8 ∧ (tiled.core.getT 4).cols = (tiled.core.getT 2).cols ∧
      (tiled.core.getT 4).rows ≤ 128 ∧ tagAfter 0 tiled.core.mq (tiled.core.getA 0).tag = .clear) ∧
    ((tiled.core.getT 6).cols = 4 * (((tiled.core.getT 2).cols + 7) / 8) ∧ (tiled.core.getT (6 + 1)).ty = .ui8 ∧
      (tiled.core.getT (6 + 1)).rows = 8 ∧ (tiled.core.getT (6 + 1)).cols = ((tiled.core.getT 2).cols + 7) / 8) ∧
    ((tiled.core.getT 8).ty = .i32 ∧ (tiled.core.getT 8).rows = 1 ∧ (tiled.core.getT 8).cols ≤ 128) ∧
    (hCount (tiled.core.getH 1) = hCount (tiled.core.getH 2) ∧ hCount (tiled.core.getH 1) = 4) ∧
    (let secret := hPut 0 64 12 3
     let big := hPut 0 64 12 51
     (5 : W64).toNat < 2 ^ 38 ∧ (5 : W64).toNat % 2 ^ 19 < 64 ∧ hCount secret ≤ 65536 ∧ hCount big = hCount secret + 48) ∧
    (filled true).core.mq.length = 16 ∧ tiled.core.mq.length < 16 ∧ (filled false).core.cq.length = 16 ∧
    (∀ i ∈ ([.tld 2 1 bare, .tldw 2 2 bare, .tst 2 1 bare, .mma 0 2 4 .i8 .i8 .i32 false bare, .mmaw 0 2 1 .i8 .i8 .i32 false bare,
      .mmasp 0 2 6 .i8 .i8 .i32 false bare, .mmaspw 0 2 6 .i8 .i8 .i32 true bare, .mtrans 0 2 .i8 .i32 false bare,
      .mperm 0 2 8 .i8 .i32 false bare, .mrsum 0 2 .i8 .i32 false bare, .mzero 0 bare, .mdrain 0 .i8 .rne (.tile 2) bare,
      .mdrain 0 .i32 .rne (.handle 1) bare, .mnop bare, .copy 1 2 5 false bare, .gath 1 2 5 false bare, .scat 1 2 5 false bare,
      .fill .w 1 5 false bare, .reda .iadd 1 2 false bare, .putc 1 2 5 bare, .rrot 1 2 5 bare, .copySeal 1 2 5 bare,
      .copyOpen 1 2 5 bare, .cnop ⟨some (1, 1), some (2, 1), true⟩] : List Instr), Issues i tiled) ∧
    ∀ i ∈ ([.mnop bare, .cnop bare, .tld 2 1 bare] : List Instr), Issues i (filled true) :=
  ⟨by decide, by decide, by decide, by decide, by decide, by decide, by decide, by decide, by decide, issues_of (by decide),
   issues_of (by decide)⟩

def cmd (i : Instr) (started : Bool) : Cmd := { instr := i, words := [], addr := 0, num := 3, started := started, wtaken := true }
def running (m : Bool) (i : Instr) (started : Bool) : State := tiled.modCore fun x => x.putQueue m [cmd i started]

theorem witness_MatrixCommandsRun :
    (let s := running true (.mnop bare) false
     (s.tile 0).idle = false ∧ (s.slot 0 (s.run 0)).st = .busy ∧ (s.slot 0 (s.run 0)).task.isSome = true ∧
       (s.slot 0 (s.run 0)).mq = [cmd (.mnop bare) false] ∧ startBad 0 (s.slot 0 (s.run 0)) (cmd (.mnop bare) false) = none) ∧
    (∃ f, startBad 0 (ready.slot 0 0) { cmd (.tldw 2 2 bare) false with param := 1 } = some f) ∧
    (∀ i ∈ ([.mzero 1 bare, .tst 2 1 bare, .mdrain 0 .i32 .rne (.handle 1) bare] : List Instr),
      ((running true i true).slot 0 0).mq = [cmd i true]) ∧
    ((tiled.modCore fun x => x.setA 0 { chk := false }).core.getA 0).chk = false ∧
    (∀ ix ∈ tilePlaces .i8 2 2 hBox, tiled.isPoisoned (halfKey 0 0 + offOf hBox ix) (tileBytes .i8) = false) :=
  ⟨by decide, ⟨_, rfl⟩, by decide, by decide, by decide⟩

theorem witness_IntegerProducts :
    let i := Instr.mma 0 2 4 .i8 .i8 .i32 false bare
    let s := running true i true
    (s.tile 0).idle = false ∧ (s.slot 0 (s.run 0)).st = .busy ∧ (s.slot 0 (s.run 0)).task.isSome = true ∧
      (s.slot 0 (s.run 0)).mq = [cmd i true] ∧ (cmd i true).fpend = none ∧ (cmd i true).count = 0 ∧ (s.core.getT 2).ty = .i8 ∧
      (s.core.getT 4).ty = .i8 ∧ (s.core.getT 2).cols = (s.core.getT 4).cols ∧ 0 < (s.core.getT 2).cols ∧ (s.core.getT 2).cols ≤ 512 ∧
      (s.core.getT 2).rows ≤ 128 ∧ (s.core.getT 4).rows ≤ 128 := by decide

theorem witness_CopyCommandsRun :
    (let i := Instr.copy 1 2 5 false bare
     let c : Cmd := { cmd i false with hd := hBox, ha := hPut hBox 0 64 0x3FFFFC, param := 1 }
     let s := tiled.modCore fun x => x.putQueue false [c]
     (s.tile 0).idle = false ∧ (s.slot 0 (s.run 0)).cq = [c] ∧ c.fpend = none ∧ lockstep i = false ∧
       (s.slot 0 (s.run 0)).copyReady = some c ∧ (s.copyBad s.core.header c).isSome = true) ∧
    (let c : Cmd := { cmd (.copy 1 2 5 false bare) true with hd := hBox, ha := hBox, param := 1 }
     c.count < c.total ∧ c.param.getLsbD 3 = false ∧ { c with count := 4 }.total ≤ { c with count := 4 }.count) ∧
    (∃ v u, tiled.readNow tiled.core.header 0 0 0 (hAddr hBox 0) 2 = (.ok v, u) ∧ v == 0) ∧
    (∃ f u, tiled.readNow tiled.core.header 0 0 0 0x0200000000001000 2 = (.fault f, u)) ∧
    (let s : State := { tiled with devstat := 6, keys := [(5, { kind := 2, part := 0 })] }
     s.serves .security = true ∧ (s.keySlot 5).streamOf 0 = true ∧ (s.keySlot 5).ctrs ≠ BitVec.allOnes 64 ∧ (s.keySlot 6).streamOf 0 = false) ∧
    ready.participants 0 0 0 = [0] ∧ ready.readyLockstep 0 0 = none ∧
    (let s := tiled.modCore fun x => x.putQueue false [cmd (.rrot 1 2 5 bare) false]
     s.participants 0 0 0 = [0] ∧ (s.readyLockstep 0 0).isSome = true) ∧
    (openCode {} 0 1 [] = some 3 ∧
     openCode { kind := 2, part := 0 } 0 1 (List.replicate 16 0 ++ [1] ++ List.replicate 32 0) = none) :=
  ⟨by decide, by decide, ok_of (by decide), fault_of (by decide), by decide, by decide, by decide, by decide, by decide⟩

/-! The Sward unit and the weight engines. -/

theorem witness_OffersAreMade :
    (∀ o ∈ ready.swOpsOf ready.cur (ready.run ready.cur), o.writesV = []) ∧
    (cells3.cell cells3.cur 9).ownedBy cells3.core.part = true ∧ (cells3.cell cells3.cur 12).ownedBy cells3.core.part = false ∧
    (wAddrBad 0x80000000 = true ∧ wAddrBad 0x04000000 = false ∧ wAddrBad 0xC000000000 = true ∧ (0x04001000 : W64).toNat % 2 ^ 26 ≠ 0 ∧
      (0x04000000 : W64).toNat % 2 ^ 26 = 0) ∧
    (∀ i ∈ ([.swopen 1 2 bare, .swapp 1 2 3 15 bare, .swqry 1 2 bare, .swpop 3 1 4 bare, .swevt 1 2 bare, .swsave 1 2 bare,
      .swload 1 2 bare, .swclose 1 bare, .wprog 1 2 bare, .wprogs 1 2 3 bare, .wfree 1 bare, .wmeas 2 1 bare, .wscrub 1 bare,
      .wchk 2 1 bare, .wstat 4 1, .swqry 1 2 ⟨some (9, 1), none, false⟩, .wfree 1 ⟨some (12, 1), none, false⟩] : List Instr),
      Issues i cells3) := ⟨by decide, by decide, by decide, by decide, issues_of (by decide)⟩

def offer (i : Instr) (x y : W64) : Offer := { instr := i, num := 3, x := x, y := y, words := [], addr := 0, wid := 0, header := 0 }
def ctx5 : SwCtx := ⟨0, 64, 0, 2, [7, 3], 0, false⟩
def offering (i : Instr) (x y : W64) : State :=
  (ready.modDie 0 fun d => { d with sw := [(5, ctx5)] }).modCore fun z => { z with hold := .offer (offer i x y) }
def swop (i : Instr) (x y : W64) : SwOp := { id := 4, tile := 0, slot := 0, task := 0, part := 0, offer := offer i x y }
def swState (i : Instr) (x y : W64) : State := ready.modDie 0 fun d => { d with sw := [(5, ctx5)], swOps := [swop i x y] }

theorem witness_SwardCommandsRun :
    (∀ p ∈ ([(.swopen 1 2 bare, 5, 64), (.swqry 1 2 bare, 5, 0x404), (.swapp 1 2 3 0 bare, 5, 1), (.swclose 1 bare, 5, 0)] :
      List (Instr × W64 × W64)),
      let s := offering p.1 p.2.1 p.2.2
      let turn := fun (i : Nat) => 0 * 48 + ((s.die 0).swLast + 1 + i) % 48
      turn 0 = 0 ∧ s.offerOf (turn 0) = some (offer p.1 p.2.1 p.2.2) ∧ isSward p.1 = true ∧
        s.swardBad 0 (s.slot 0 (s.run 0)) (offer p.1 p.2.1 p.2.2) = none ∧ (s.slot 0 (s.run 0)).task.isSome = true) ∧
    (let s := offering (.swopen 1 2 bare) 5 0
     s.swardBad 0 (s.slot 0 (s.run 0)) (offer (.swopen 1 2 bare) 5 0) = some .progSwarg) ∧
    (ready.reserve 0 0 1 = none) ∧
    (∀ p ∈ ([(.swevt 1 2 bare, 5, 1), (.swqry 1 2 bare, 5, 0x404), (.swapp 1 2 3 0 bare, 5, 1), (.swclose 1 bare, 5, 0)] :
      List (Instr × W64 × W64)),
      let s := swState p.1 p.2.1 p.2.2
      (s.die 0).swOps[0]? = some (swop p.1 p.2.1 p.2.2) ∧ (swop p.1 p.2.1 p.2.2).fpend = none ∧ (swop p.1 p.2.1 p.2.2).sigdue = false ∧
        (s.die 0).ctx 5 = some ctx5) := by decide

/-- The l tokens that end at place p are those that end the window. -/
def occurs (w : List (BitVec 24)) (l p : Nat) : Bool :=
  decide (l ≤ p + 1) && decide (p + 1 < w.length) && (List.range l).all fun i => w[p - i]? == w[w.length - 1 - i]?

/-- In the window 7, 3, 9, 7, 3 the last two tokens occur before, ending at place 1, and no three do; in 1, 2 none does. -/
theorem witness_QueriesFindTheLongestMatch :
    let w : List (BitVec 24) := [7, 3, 9, 7, 3]
    w.length < 2 ^ 22 ∧ 2 ≤ min 8 64 ∧ occurs w 2 1 = true ∧ ((List.range 5).all fun q => decide (q ≤ 1) || !occurs w 2 q) = true ∧
    ((List.range 6).all fun m => decide (m ≤ 2) || (List.range 5).all fun q => !occurs w m q) = true ∧
    ((List.range 3).all fun l => l == 0 || (List.range 2).all fun p => !occurs [1, 2] l p) = true := by decide

def wcmd (i : Instr) (st : Bool) : WCmd := { id := 4, tile := 0, slot := 0, task := 0, part := 0, offer := offer i 0x04000000 0, started := st }
def wstate (i : Instr) (st : Bool) (g : RegSt) : State :=
  (({ ready with devstat := 6 } : State).modDie 0 fun d => { d with wq := [wcmd i st] }).modRegion 1 fun r => { r with st := g, v := true }

theorem witness_WeightCommandsRun :
    (let s : State := { offering (.wfree 1 bare) 0x04000000 0 with devstat := 6, regions := [(1, { v := true })] }
     let o := offer (.wfree 1 bare) 0x04000000 0
     let turn := fun (i : Nat) => 0 * 48 + ((s.die 0).wLast + 1 + i) % 48
     s.serves (.programming 0) = true ∧ 4 ≤ s.devstat.toNat ∧ (s.die 0).wq.length < 64 ∧ turn 0 = 0 ∧ s.offerOf (turn 0) = some o ∧
       isWeightCommand o.instr = true ∧ s.weightBad 0 0 o = none ∧ ({ s with regions := [] } : State).weightBad 0 0 o = some .isoWindow) ∧
    (∀ i ∈ ([.wprog 1 2 bare, .wprogs 1 2 3 bare, .wfree 1 bare, .wmeas 2 1 bare, .wchk 2 1 bare, .wscrub 1 bare] : List Instr),
      ∀ g ∈ ([.free, .programming, .opened, .locked] : List RegSt),
      let s := wstate i false g
      (s.die 0).wq = [wcmd i false] ∧ s.releasedFor 0 0 3 = true ∧ (s.region (wcmd i false).region).st = g) ∧
    (let s := wstate (.wfree 1 bare) true .free
     s.serves (.programming 0) = true ∧ (s.die 0).wq = [wcmd (.wfree 1 bare) true]) ∧
    (let s := { ready with devstat := 6 }.modRegion 1 fun r => { r with st := .opened }
     (∀ c ∈ (s.die 0).wq, c.started = false) ∧ (s.region (0 * 32 + (1 : BitVec 5).toNat)).st = .opened) := by decide

/-! Links and the drawer. -/

def linked (f : Link → Link) : State := ({ ready with devstat := 6 } : State).modLink 0 f
def req (w : Bool) (sent : Option Nat) : LinkReq := ⟨0, 0, 0, 5, 0, [⟨0, 0, 0, 8, 7⟩], w, false, sent⟩

theorem witness_LinksCarryRequests :
    ((1 : W64).getLsbD 0 = true ∧ (linked id).serves (linkFw 0) = true ∧ validTable ((linked id).shadow 0) = true ∧
      validTable [(3, 1)] = false) ∧
    (let x := (linked fun y => { y with pending := some [(1, 0x4000)], slot := 512 }).link 0
     x.slot % 512 = 0 ∧ x.pending = some [(1, 0x4000)] ∧ x.st ≠ 0) ∧
    (let x := (linked fun y => { y with active := [(1, 0x4000), (2, 0x8000)], slot := 513, st := 0, queue := [req true none] }).link 0
     x.slot % 512 ≠ 0 ∧ x.st = 0 ∧ x.replay = false ∧ swKind (tget 0 x.active (x.slot % 512)) = 1 ∧ swOwner (tget 0 x.active (x.slot % 512)) = 0 ∧
       swKind (tget 0 x.active 2) = 2 ∧ x.queue = [req true none]) ∧
    (let x := (linked fun y => { y with st := 0, queue := [req false (some 3)] }).link 0
     x.st = 0 ∧ x.queue = [req false (some 3)] ∧ (ready.part 0).prot = false ∧ (req false (some 3)).items ≠ []) ∧
    (((linked id).link 0).st = 3 ∧ 128 ≤ (128 : BitVec 10).toNat ∧ ((linked fun y => { y with st := 1 }).link 0).st = 1 ∧
      ((linked fun y => { y with st := 2 }).link 0).st = 2) ∧
    (let a : Access := ⟨5, .store, 8, .plain, [{ lane := 0, va := 0x2000000000000000, data := 7 }], true, true, [], 0, 0⟩
     let s := (linked fun y => { y with st := 1, queue := [req true none] }).modCore fun z => { z with hold := .reply, accs := [a] }
     (s.slot 0 0).hold = .reply ∧ (s.slot 0 0).accs = [] ++ [a] ∧ a.num = (req true none).acc) := by decide

theorem witness_DrawerAccessesBecomeRequests :
    let e : Elem := { lane := 0, va := 0x2000000000000000, data := 7 }
    let a : Access := ⟨5, .store, 8, .plain, [e], false, false, [], 0, 0⟩
    let s : State := { ready.modCore fun z => { z with hold := .reply, accs := [a] } with
      units := [(16, { tlb := [⟨0, 0, 0x10000, 0, false⟩] })], pwins := [(pwinNo 0x10 0 0, 0x100000000)] }
    (s.slot 0 (s.run 0)).hold = .reply ∧ (s.slot 0 (s.run 0)).accs = [] ++ [a] ∧ homeBits e.va = 0x10 ∧ (s.part 0).keysDue = false ∧
    (s.link (linkOf (offBits e.va))).st ≠ 2 ∧ ((s.modLink 0 fun l => { l with st := 2 }).link (linkOf (offBits e.va))).st = 2 ∧
    (match (s.acceptElems 0 (s.run 0) 0 8 [e]).1 with | .ok l => l.length == 1 | _ => false) = true ∧
    (match (s.acceptElems 0 (s.run 0) 0 8 [e, { e with va := 0x2000000000020000 }]) with
      | (.fault f, pre, _, _) => f == .xlatMiss && pre.length == 1 | _ => false) = true := by decide

/-! The host, peers, partitions. -/

def served : State := { enabled mapped with devstat := 6, peerMap := [⟨0, 0, 0x10000, 0x0200000000000000, 0⟩] }
def preq (dest : BitVec 6) (op : PeerOp) : PeerReq := ⟨3, 0, dest, 0, 0, 0x1000, op⟩

theorem witness_OutsideRequestsAreServed :
    ((served.part 0).en = true ∧ 5 ≤ served.devstat.toNat ∧ (ready.part 0).en = false) ∧
    (offBits (barAddr 0x1004) % 8 ≠ 0 ∧ offBits (barAddr 0x1000) % 8 = 0 ∧ spaceOf (barAddr 0x1000) = .shared 1 0x1000) ∧
    (∃ v u, served.readNow 0 0 0 0 (barAddr 0x1000) 8 = (.ok v, u) ∧ v == 0) ∧
    (∃ f u, served.readNow 0 0 0 0 (barAddr 0x40001000) 8 = (.fault f, u)) ∧
    (∃ v u, served.writeNow 0 0 0 0 (barAddr 0x1000) 8 7 false = (.ok v, u) ∧ true) ∧
    ((preq 0 (.load 8)).dest = (served.reg .pkgid).extractLsb' 0 6 ∧ (preq 1 (.load 8)).dest ≠ (served.reg .pkgid).extractLsb' 0 6) ∧
    served.peerEntry 0 0x1000 = some ⟨0, 0, 0x10000, 0x0200000000000000, 0⟩ ∧ served.peerEntry 0 0x20000 = none ∧
    peerHome (0x0200000000000000 + BitVec.ofNat 64 (0x1000 - 0)) = true ∧
    (∃ v u, served.readNow 0 0 0 0 0x0200000000001000 8 = (.ok v, u) ∧ v == 0) ∧
    (served.portFor 1 0 = none ∧ (served.putReg (.vroute 1) 4).portFor 1 0 = some 2) ∧
    (let s : State := { ready with ports := [(2, { keyed := true, replays := 14 }), (3, { keyed := true, replays := 15 })] }
     (tget ({} : Port) s.ports 2).down = false ∧ (tget ({} : Port) s.ports 2).keyed = true ∧ (tget ({} : Port) s.ports 2).replays < 15 ∧
       15 ≤ (tget ({} : Port) s.ports 3).replays) :=
  ⟨by decide, by decide, ok_of (by decide), fault_of (by decide), ok_of (by decide), by decide, by decide, by decide, by decide,
   ok_of (by decide), by decide, by decide⟩

theorem witness_PartitionsAreConfigured :
    ((ready.part 0).tdisp = .unlocked ∧ ((ready.modPart 0 fun x => { x with tdisp := .run }).part 0).tdisp = .run) ∧
    ((enabled ready).part 0).en = true ∧ (ready.part 0).en = false ∧
    (let s := { ready with devstat := 6 }.modPart 0 fun x => { x with keysDue := true }
     (s.part 0).keysDue = true ∧ s.serves .security = true) ∧
    (let s := State.reset.modPart 3 fun x => { x with clrBusy := true }
     (s.part 3).clrBusy = true ∧ ∀ u ∈ s.knownTiles, s.holder u 0 ≠ some 3 ∧ s.holder u 1 ≠ some 3) ∧
    (∃ u ∈ ready.knownTiles, ready.holder u 0 = some 0 ∨ ready.holder u 1 = some 0) ∧
    (let s := enabled State.reset
     let v : W64 := 0x10
     v.extractLsb' 5 4 = (s.tile 0).tslot.pb ∧ v.getLsbD 9 = (s.tile 0).tslot.vb ∧ (s.slot 0 0).task = none ∧ (s.slot 0 0).writeOut = false ∧
       (s.part (v.extractLsb' 0 4)).en = true ∧ ((s.tile 0).tslot.pa, (s.tile 0).tslot.va) ≠ (v.extractLsb' 0 4, v.getLsbD 4)) ∧
    (let s := ready.modCore fun x => { x with st := .clearing }
     (s.slot 0 0).st = .clearing) ∧
    ((celled.tile 0).waiters = [] ∧ (celled.cell 0 9).v = true ∧ (celled.cell 0 8).v = false) ∧
    (1 ≠ lmsRegion ∧ ¬((ready.region 1).v = (0x10 : W64).getLsbD 4 ∧ (ready.region 1).part = (0x10 : W64).extractLsb' 0 4) ∧
      (ready.region 1).st ≠ .programming ∧ ∀ c ∈ (ready.die (dieOf 0)).wq, c.region ≠ 1) :=
  ⟨by decide, by decide, by decide, by decide, by decide, ⟨0, by decide, by decide⟩, by decide, by decide, by decide, by decide⟩

theorem witness_WindowsAndInvalidations :
    ((ready.part 0).tdisp ≠ .configLocked ∧ (ready.part 0).tdisp ≠ .run) ∧
    (let m : W64 := 0x10000007FF &&& 0x1FFFFFFF1FFFFFFF
     winSize m ≠ 0 ∧ 0x8000000 < winBase m + winSize m) ∧
    (let m : W64 := 0x1000007FF &&& 0x1FFFFFFF1FFFFFFF
     winSize m ≠ 0 ∧ winBase m + winSize m = 0x8000000) ∧
    (winSize (mapped.pwin 1 0 0) ≠ 0 ∧ winBase (0x100000000 : W64) < winBase (mapped.pwin 1 0 0) + winSize (mapped.pwin 1 0 0)) ∧
    (4 : BitVec 3).toNat ≤ 4 ∧
    (let s := ready.modUnit (drainUnit 0) fun x => { x with drain := some 7 }
     (s.unit (drainUnit 0)).drain = some 7 ∧ s.accessesBefore (unitHome 0) 7 = false) ∧
    (let s := (with1 (pend .store true false) .none).modUnit (drainUnit 0) fun x => { x with drain := some 7 }
     (s.unit (drainUnit 0)).drain = some 7 ∧ s.accessesBefore (unitHome 0) 7 = true) := by decide

theorem witness_RegistersAreWritten :
    (swPool < (0x7FFFFF : W64).toNat % 2 ^ 23 ∧ (4 : W64).toNat % 2 ^ 23 ≤ swPool) ∧
    (open0.lqocc 0 0 0 = 0 ∧ (open0.ring 0 0 0).sqHead = (open0.ring 0 0 0).sqTail) ∧
    (fresh0.lqocc 0 0 0 ≠ 0) ∧ (8 ≤ (8 : W64).toNat % 32 ∧ (20 : W64).toNat % 32 ≤ 20 ∧ (7 : W64).toNat % 32 < 8 ∧ 20 < (21 : W64).toNat % 32) ∧
    (4 ≤ (4 : W64).toNat % 16 ∧ (12 : W64).toNat % 16 ≤ 12) ∧ ((enabled ready).part 0).en = true ∧ (ready.part 0).rtBusy = false ∧
    (let s := ready.modPart 0 fun x => { x with rtBusy := true }
     (s.part 0).rtBusy = true ∧ (match s.install 0 with | .ok _ => false | .error _ => true) = true ∧
       (match s.install 3 with | .ok es => es.isEmpty | .error _ => false) = true) ∧
    ((recorded .none false).part 0).fq = [] ++ ⟨0x1000, frec .none, false, false⟩ :: [] ∧
    ((recorded .none true).answer 0 (0x1000 &&& ~~~127) .resume).isSome = true ∧ (ready.answer 0 (0x1000 &&& ~~~127) .abort) = none := by
  decide

/-! The security core, firmware, power; groups and steps. -/

theorem witness_KeysAndMeasurements :
    (let s : State := { enabled ready with devstat := 6, sessions := [(1, {})] }
     s.serves .security = true ∧ s.session 1 = some {} ∧ s.session 2 = none ∧ (s.keySlot 63).kind = 0 ∧ (s.part 0).en = true ∧
       (1 : W32) ≠ 2 ∧ (s.measurements 255).isSome = true ∧ s.measurements 0 = none) ∧
    (let s : State := { ({ (enabled ready) with devstat := 6, sessions := [(1, { measured := true })] } : State).modPart 0 fun x =>
       { x with prot := true } with regions := [(1, { st := .locked, sealed := true, v := true, digest := some 9, model := 5 })] }
     wAddrBad ((0x04000000 : BitVec 40).setWidth 64) = false ∧ regionNo 0x04000000 = 1 ∧ (s.region 1).st = .locked ∧ 1 ≠ lmsRegion ∧
       (s.region 1).v = true ∧ (s.region 1).part = 0 ∧ (s.part 0).en = true ∧ (s.part 0).prot = true ∧ (s.region 1).model = 5 ∧
       (s.region 1).digest = some 9 ∧ (s.region 1).differs = false) ∧
    ((ready.putReg (.vroute 1) 4).reg (.vroute 1)).getLsbD 2 = true := by decide

def fwState (c : Controller) (x : FwSt) : State := { ({ ready with devstat := 6 } : State) with fw := [(c, { st := x })] }

theorem witness_FirmwareAndPower :
    (∀ x ∈ ([.idle, .verified, .rejected, .handover, .serving, .healthy, .reverted] : List FwSt),
      ((fwState .management x).firmware .management).st = x) ∧
    ((fwState .management .idle).serves .security = true ∧ (128 : Byte).toNat ≤ 128 ∧
      ((fwState .management .idle).antiRollback (kindOf .management)).toNat ≤ 128) ∧
    (∃ x ∈ (fwState .security .handover).fw, x.1 ≠ .management ∧ (x.2.st = .handover ∨ x.2.st = .serving ∨ x.2.st = .healthy)) ∧
    ({ ready with powered := false } : State).powered = false ∧
    ((({ ready with devstat := 3 } : State).modRegion 1 fun g => { g with st := .opened }).regions =
      [(1, { ({ ready with devstat := 3 } : State).region 1 with st := .opened })]) ∧
    (ready.reg (.pwrshare 0)).toNat < 0x10000 ∧ 105 ≤ (105 : Byte).toNat ∧ (ready.die 0).govGap.toNat < 48 ∧
    (fwState .security .idle).serves .management = true ∧
    ((fwState .security .handover).firmware .security).st = .handover :=
  ⟨by decide, by decide, ⟨_, .head _, by decide⟩, by decide, by decide, by decide, by decide, by decide, by decide, by decide⟩

theorem witness_GroupsTrapAtIssue :
    (∀ i ∈ ([.illegalWord .illegal, .illegalWord .breach] : List Instr), Issues i ready) ∧
    (let s := ready.modCore fun x => { x with hold := .phase }
     s.canIssue = false) ∧
    (let s := ready.modCore fun x => { x with due := [(.s 2, 5)] }
     s.canIssue = true ∧ (s.interlocked s.cur (s.run s.cur) (named (.add 4 2 3)) || s.core.early s.issueCyc (.add 4 2 3)) = true) ∧
    (let s := ready.modCore fun x => { x with task := some ⟨0, 0, 0, 1, 0, 0⟩ }
     s.canIssue = true ∧ s.interlocked s.cur (s.run s.cur) (named (.add 4 2 3)) = false ∧ s.core.early s.issueCyc (.add 4 2 3) = false ∧
       s.core.loop = none ∧ withinLimits s.core.header (named (.add 4 2 3)) = false) :=
  ⟨issues_of (by decide), by decide, by decide, by decide⟩

theorem witness_DecodeEncode : (Instr.acas .d .ar true 60 63 0x3FFFFFFFFFFFFFFF).wf = true ∧ (7 : BitVec 4) ≠ 8 ∧ (15 : BitVec 4) ≠ 8 ∧
    (encodeWord 15 (.acas .d .ar true 60 63 0x3FFFFFFFFFFFFFFF)).isSome = true ∧ (encodeWord 7 (.tcfg 15 .i4 128 512)).isSome = true ∧
    (Instr.tcfg 15 .i4 128 512).wf = true := by decide

/-- The words at pc: one that decodes, one under a guard that is not met, a defective one, and a place outside every home. -/
def placed (w : Nat) : State := ready.withFetchWord 64 w

theorem witness_StepRunsDecodedInstruction :
    (ready.agenda = [.core 0] ∧ ready.powered = true ∧ ready.canIssue = true) ∧
    (ready.modCore fun x => { x with hold := .phase }).canIssue = false ∧
    (∀ w ∈ [0x12000C0000000007, 0x12010C0000000007, 0],
      (match ((placed w).fetchWords 0 0 0 4).1 with | .ok ws => ws == [BitVec.ofNat 64 w] | _ => false) = true) ∧
    ((decodeGroup [0x12000C0000000007]).toOption = some ⟨0, .li 3 7, [0x12000C0000000007]⟩ ∧ ready.core.guardMet 0 = true) ∧
    ((decodeGroup [0x12010C0000000007]).toOption = some ⟨1, .li 3 7, [0x12010C0000000007]⟩ ∧ ready.core.guardMet 1 = false) ∧
    (decodeGroup [0]).toOption = none ∧
    (let s := ready.modCore fun x => { x with pc := 0x0A00000000000000 }
     (match (s.fetchWords 0 0 s.core.pc 4).1 with | .fault _ => true | _ => false) = true) ∧
    (ready.core.loop = none ∧ homeBits ready.core.pc = 0 ∧ ready.tileCheck ready.core.header 0 ready.core.pc 8 false false = none ∧
      ready.isPoisoned (halfKey 0 0 + 0) 8 = false ∧ isPfx 0x12000C0000000007 = false ∧ decodeWord 0x12000C0000000007 = some (.li 3 7)) := by
  decide

theorem witness_StepKeepsMemoryForm : (placed 0x12000C0000000007).Safe ∧
    (match step (placed 0x12000C0000000007) with | .next _ => true | _ => false) = true :=
  ⟨by unfold State.Safe; decide, by decide⟩
end Sys2Proof.Tests
end

section
/-! SUPPORT. Every event keeps the canonical form of the memory (R6, R230; notes/assumptions/3): one lemma an event, by the
branches of its definition. A branch answers the state itself or one that differs outside the memory (`exact hs`), or ends in an
operation of which Laws/Safe.lean says what it does to memory. -/

namespace Sys2Proof.Machine

/-! ### Answers that keep the form -/

/-- The state that an outcome answers, if it answers one, is safe. -/
def AnswersSafe : Host.Outcome State Fault Refusal → Prop
  | .next t => t.Safe
  | _ => True

/-- The state beside a value, where the operation that gives both leaves the memory. -/
theorem State.Safe.of_pair {α : Type} {s u : State} {p : α × State} {a : α} (hs : s.Safe) (h : p = (a, u))
    (hm : p.2.mem = s.mem) : u.Safe := by
  subst h
  exact hs.of_mem hm

/-- The state beside a value, where the operation that gives both keeps the form. -/
theorem State.Safe.of_snd {α : Type} {u : State} {p : α × State} {a : α} (hp : p.2.Safe) (h : p = (a, u)) : u.Safe := by
  subst h
  exact hp

theorem State.Safe.of_acceptElems {s u : State} {t b n : Nat} {p : PartNo} {es pre : List Elem} {g : Got (List Elem)} {e : Elem}
    (hs : s.Safe) (h : s.acceptElems t b p n es = (g, pre, e, u)) : u.Safe :=
  hs.of_mem (by rw [← State.acceptElems_mem s t b p n es, h])

/-! ### Cells and what a core waits for (R88–R95, R353) -/

theorem execCellWaiterSatisfied_safe {t : Nat} {c : CellNo} {s : State} (hs : s.Safe) :
    AnswersSafe (execCellWaiterSatisfied t c s) := hs.of_mem (State.settleIf_mem ..)

theorem execWaitLimitExpiry_safe {t : Nat} {s : State} (hs : s.Safe) : AnswersSafe (execWaitLimitExpiry t s) := by
  fun_cases execWaitLimitExpiry t s <;> exact hs

theorem execRemoteCellRequest_safe {i : Nat} {s : State} (hs : s.Safe) : AnswersSafe (execRemoteCellRequest i s) := by
  fun_cases execRemoteCellRequest i s
  · exact hs.of_mem (resolveRemote_mem ..)
  · exact hs

theorem execRemoteCellReply_safe {i : Nat} {s : State} (hs : s.Safe) : AnswersSafe (execRemoteCellReply i s) := by
  fun_cases execRemoteCellReply i s <;> exact hs

theorem execCellWindowAccess_safe {t : Nat} {s : State} (hs : s.Safe) : AnswersSafe (execCellWindowAccess t s) := by
  fun_cases execCellWindowAccess t s
  any_goals exact hs
  exact hs.of_mem (State.settleIf_mem ..)

/-! ### The engines of a tile (R190, R192, R273–R275) -/

theorem execMatrixCommandStart_safe {t : Nat} {s : State} (hs : s.Safe) : AnswersSafe (execMatrixCommandStart t s) := by
  fun_cases execMatrixCommandStart t s
  any_goals exact hs
  exact hs.of_mem (State.arm_mem ..)

theorem execMatrixCommandComplete_safe {t : Nat} {s : State} (hs : s.Safe) : AnswersSafe (execMatrixCommandComplete t s) := by
  fun_cases execMatrixCommandComplete t s
  any_goals exact hs
  · exact hs.of_mem (State.finishCmd_mem ..)
  · exact State.performMatrix_safe _ _ _ _ hs

theorem execCopyOpenCounterStep_safe {t : Nat} {s : State} (hs : s.Safe) : AnswersSafe (execCopyOpenCounterStep t s) := by
  fun_cases execCopyOpenCounterStep t s <;> exact hs

theorem execCopySealCounterStep_safe {t : Nat} {s : State} (hs : s.Safe) : AnswersSafe (execCopySealCounterStep t s) := by
  fun_cases execCopySealCounterStep t s <;> exact hs

theorem execCopyCommandStart_safe {t i n : Nat} {ext : List W64} {s : State} (hs : s.Safe) :
    AnswersSafe (execCopyCommandStart t i n ext s) := by
  unfold execCopyCommandStart
  extract_lets b
  split
  · exact hs
  split
  · exact hs
  next c _ =>
  extract_lets u
  have hu : u.Safe := by
    unfold u
    split
    · exact hs
    split
    · split
      · exact hs.of_mem (State.startCopy_mem ..)
      · exact hs
    · exact hs
  split
  · exact hu
  split
  · exact hu
  split
  · split
    · exact hu
    · exact hu.of_mem (State.readBuffer_mem ..)
  · exact State.present_safe _ _ _ _ _ hu

theorem execLockstepRendezvous_safe {die cluster : Nat} {s : State} (hs : s.Safe) :
    AnswersSafe (execLockstepRendezvous die cluster s) := by
  fun_cases execLockstepRendezvous die cluster s
  · exact hs
  next h =>
    refine (hs.of_pair h (State.newNum_mem s)).of_mem (mem_foldl (fun u t => ?_) _ _)
    split
    · exact State.startCopy_mem ..
    · rfl

theorem execCopyCommandComplete_safe {t : Nat} {s : State} (hs : s.Safe) : AnswersSafe (execCopyCommandComplete t s) := by
  fun_cases execCopyCommandComplete t s
  any_goals exact hs
  · exact hs.of_mem (State.finishCmd_mem ..)
  · exact State.endOpen_safe _ _ _ _ _ hs
  · exact State.endSeal_safe _ _ _ _ _ _ hs
  · exact hs.of_mem (State.endRrot_mem ..)
  · exact hs.of_mem (State.endPutc_mem ..)
  · exact hs.of_mem (State.finishCmd_mem ..)

/-! ### Accesses at their homes (R259–R265) -/

theorem execAccessReply_safe {t : Nat} {r : Option FaultName} {s : State} (hs : s.Safe) : AnswersSafe (execAccessReply t r s) := by
  fun_cases execAccessReply t r s
  any_goals exact hs
  · exact acceptLast_safe _ _ _ _ hs
  next ha _ _ hp => exact ((State.performElems_safe _ _ _ _ (hs.of_acceptElems ha)).of_snd hp).of_mem rfl
  next ha => exact State.refuseAccess_safe _ _ _ _ _ _ _ (hs.of_acceptElems ha)
  next ha => exact hs.of_acceptElems ha
  · exact acceptLast_safe _ _ _ _ hs
  · exact acceptLast_safe _ _ _ _ hs

theorem execSharedMemoryAccess_safe {t i n : Nat} {s : State} (hs : s.Safe) : AnswersSafe (execSharedMemoryAccess t i n s) := by
  fun_cases execSharedMemoryAccess t i n s
  any_goals exact hs
  exact State.performAt_safe _ _ _ _ _ hs

theorem execBankAtomic_safe {t i : Nat} {s : State} (hs : s.Safe) : AnswersSafe (execBankAtomic t i s) := by
  fun_cases execBankAtomic t i s
  any_goals exact hs
  exact State.performAt_safe _ _ _ _ _ hs

theorem execLoadDataReturn_safe {t i : Nat} {ext : List W64} {s : State} (hs : s.Safe) :
    AnswersSafe (execLoadDataReturn t i ext s) := by
  fun_cases execLoadDataReturn t i ext s
  any_goals exact hs
  next h => exact (hs.of_pair h (State.peerElems_mem ..)).of_mem rfl

/-! ### Records, dispatch, the end of a task (R65–R75, R97–R104, R298) -/

theorem execParkRegister_safe {t : Nat} {s : State} (hs : s.Safe) : AnswersSafe (execParkRegister t s) := by
  fun_cases execParkRegister t s
  any_goals exact hs
  next h => exact (hs.of_pair h (State.continuationKey_mem ..)).of_mem rfl
  next h => exact hs.of_pair h (State.continuationKey_mem ..)
  next h _ => exact (hs.of_pair h (State.continuationKey_mem ..)).of_mem rfl
  next h _ => exact State.park_safe _ _ _ _ _ _ (hs.of_pair h (State.continuationKey_mem ..))

theorem execDoneRetire_safe {t : Nat} {s : State} (hs : s.Safe) : AnswersSafe (execDoneRetire t s) := by
  fun_cases execDoneRetire t s
  any_goals exact hs
  next h => exact (hs.of_pair h (State.continuationKey_mem ..)).of_mem rfl
  next h => exact hs.of_pair h (State.continuationKey_mem ..)
  next h _ => exact (hs.of_pair h (State.continuationKey_mem ..)).of_mem rfl
  next h _ =>
    exact (State.decrementJoin_safe _ _ _ _ _ (hs.of_pair h (State.continuationKey_mem ..))).of_mem (State.retire_mem ..)

theorem execRecordAdmission_safe {die : Nat} {s : State} (hs : s.Safe) : AnswersSafe (execRecordAdmission die s) := by
  fun_cases execRecordAdmission die s
  any_goals exact hs
  exact hs.of_mem (State.admitRecord_mem ..)

theorem execSqtailWrite_safe {p : PartNo} {die : Nat} {l : BitVec 3} {v : W64} {s : State} (hs : s.Safe) :
    AnswersSafe (execSqtailWrite p die l v s) := by
  fun_cases execSqtailWrite p die l v s
  · exact hs.of_mem (lqBit_mem ..)
  · exact hs

theorem execSubmissionAdmission_safe {p : PartNo} {die : Nat} {l : BitVec 3} {s : State} (hs : s.Safe) :
    AnswersSafe (execSubmissionAdmission p die l s) := by
  fun_cases execSubmissionAdmission p die l s
  · exact hs
  · exact hs.of_mem (State.quarantine_mem ..)
  · exact hs.of_mem (State.quarantine_mem ..)
  · exact hs.of_mem (State.quarantine_mem ..)
  · exact hs.of_mem (State.enqueue_mem ..)

theorem execHeldContinuationAdmission_safe {p : PartNo} {die : Nat} {l : BitVec 3} {s : State} (hs : s.Safe) :
    AnswersSafe (execHeldContinuationAdmission p die l s) := by
  fun_cases execHeldContinuationAdmission p die l s
  any_goals exact hs
  exact hs.of_mem (State.landed_mem ..)

theorem execDispatch_safe {die : Nat} {s : State} (hs : s.Safe) : AnswersSafe (execDispatch die s) := by
  fun_cases execDispatch die s
  any_goals exact hs
  next h => exact hs.of_pair h (State.readyAt_mem ..)
  next h => exact (hs.of_pair h (State.readyAt_mem ..)).of_mem (State.quarantine_mem ..)
  next hr _ _ _ _ _ hn =>
    have hu := (hs.of_pair hr (State.readyAt_mem ..)).of_pair hn (State.newNum_mem _)
    exact hu.of_mem ((State.modSlot_mem ..).trans (State.popInstance_mem ..))
  next hr _ _ _ =>
    exact State.restore_safe _ _ _ _ _ ((hs.of_pair hr (State.readyAt_mem ..)).of_mem (State.popInstance_mem ..))

/-! ### The Sward units (R202–R219) -/

theorem execSwardAccept_safe {die : Nat} {s : State} (hs : s.Safe) : AnswersSafe (execSwardAccept die s) := by
  fun_cases execSwardAccept die s
  any_goals exact hs
  next h _ _ => exact ((hs.of_mem (State.modDie_mem ..)).of_pair h (State.newNum_mem _)).of_mem (State.acceptOp_mem ..)

theorem execSwardPerform_safe {die i : Nat} {s : State} (hs : s.Safe) : AnswersSafe (execSwardPerform die i s) := by
  fun_cases execSwardPerform die i s
  any_goals exact hs
  · split
    · exact hs
    · exact hs.of_mem (State.dropOp_mem ..)
  · exact hs.of_mem (State.raiseOp_mem ..)
  · exact hs.of_mem (State.finishOp_mem ..)
  · exact State.performOp_safe _ _ _ hs

/-! ### The life of a slot and its context (R74, R302, R351–R366) -/

theorem execPhaseCommit_safe {t : Nat} {s : State} (hs : s.Safe) : AnswersSafe (execPhaseCommit t s) := by
  fun_cases execPhaseCommit t s
  any_goals exact hs
  all_goals exact hs.of_mem (State.arm_mem ..)

theorem execQwaitComplete_safe {t : Nat} {s : State} (hs : s.Safe) : AnswersSafe (execQwaitComplete t s) := by
  fun_cases execQwaitComplete t s <;> exact hs

theorem execBudgetExpiry_safe {t : Nat} {s : State} (hs : s.Safe) : AnswersSafe (execBudgetExpiry t s) := by
  fun_cases execBudgetExpiry t s <;> exact hs

theorem execSliceExpiry_safe {t : Nat} {s : State} (hs : s.Safe) : AnswersSafe (execSliceExpiry t s) := by
  fun_cases execSliceExpiry t s <;> exact hs

theorem execPreqWrite_safe {t : Nat} {v : W64} {s : State} (hs : s.Safe) : AnswersSafe (execPreqWrite t v s) := by
  have preempt_if {u : State} (hu : u.Safe) (b : Nat) (c : Bool) : (if c then u.preempt t b else u).Safe := by
    split
    · exact hu.of_mem (State.preempt_mem ..)
    · exact hu
  exact preempt_if (preempt_if hs 0 _) 1 _

theorem execContextStopEnd_safe {t : Nat} {b : Bool} {s : State} (hs : s.Safe) : AnswersSafe (execContextStopEnd t b s) := by
  fun_cases execContextStopEnd t b s
  any_goals exact hs
  · exact hs.of_mem (State.cancelWait_mem ..)
  · have hd := State.drainContext_safe s t (if b then 1 else 0) hs
    split
    · exact hd.of_mem (State.afterStop_mem ..)
    · exact hd
  · exact State.drainContext_safe _ _ _ hs

theorem execPhaseCancellation_safe {t : Nat} {b : Bool} {s : State} (hs : s.Safe) : AnswersSafe (execPhaseCancellation t b s) := by
  fun_cases execPhaseCancellation t b s
  any_goals exact hs
  · exact hs.of_mem (State.cancelWait_mem ..)
  · exact (State.drainContext_safe _ _ _ hs).of_mem (State.cancelPhase_mem ..)

theorem execContextSaveComplete_safe {t : Nat} {b : Bool} {s : State} (hs : s.Safe) :
    AnswersSafe (execContextSaveComplete t b s) := by
  fun_cases execContextSaveComplete t b s
  any_goals exact hs
  next saved noted =>
    have hu : saved.Safe := State.saveTo_safe _ _ _ _ _ hs
    clear_value saved
    have hn : noted.Safe := hu
    split
    · exact hn.of_mem (State.switchTo_mem ..)
    · exact hn

theorem execFholdExpiry_safe {t : Nat} {b : Bool} {s : State} (hs : s.Safe) : AnswersSafe (execFholdExpiry t b s) := by
  fun_cases execFholdExpiry t b s <;> exact hs

theorem execContextMoveOut_safe {t : Nat} {b : Bool} {s : State} (hs : s.Safe) : AnswersSafe (execContextMoveOut t b s) := by
  fun_cases execContextMoveOut t b s
  · exact hs
  · exact hs
  · exact (State.saveTo_safe _ _ _ _ _ hs).of_mem (State.renameContext_mem ..)

theorem execContextRestoreComplete_safe {t : Nat} {b : Bool} {s : State} (hs : s.Safe) :
    AnswersSafe (execContextRestoreComplete t b s) := by
  fun_cases execContextRestoreComplete t b s
  · exact hs.of_mem ((State.modSlot_mem ..).trans (State.dropSaved_mem ..))
  · exact hs

theorem execShadowWriteOutComplete_safe {t : Nat} {b : Bool} {s : State} (hs : s.Safe) :
    AnswersSafe (execShadowWriteOutComplete t b s) := hs

theorem execSlotSwitch_safe {t : Nat} {s : State} (hs : s.Safe) : AnswersSafe (execSlotSwitch t s) := by
  fun_cases execSlotSwitch t s
  any_goals exact hs
  · exact hs.of_mem (State.switchTo_mem ..)
  · exact hs.of_mem (State.switchTo_mem ..)
  · exact hs.of_mem (State.yieldTile_mem ..)
  · exact hs.of_mem (State.switchTo_mem ..)

theorem execFaultRecordWrite_safe {p : PartNo} {s : State} (hs : s.Safe) : AnswersSafe (execFaultRecordWrite p s) := by
  have hw (va : W64) (n : Nat) := State.writeNow_safe s 0 0 0 p va 128 n true hs
  fun_cases execFaultRecordWrite p s
  any_goals exact hs
  next h _ => exact ((hw _ _).of_snd h).of_mem rfl
  next h => exact ((hw _ _).of_snd h).of_mem (State.orReg_mem ..)
  next h => exact (hw _ _).of_snd h

end Sys2Proof.Machine
end

section
/-! SUPPORT. The events of the programming engines, of system software, of the controllers, the host, the peers and the links keep
the canonical form of the memory (R6, R230; notes/assumptions/3). -/

namespace Sys2Proof.Machine

/-! ### The programming engines (R313–R328) -/

theorem execWeightCommandAccept_safe {die : Nat} {s : State} (hs : s.Safe) : AnswersSafe (execWeightCommandAccept die s) := by
  fun_cases execWeightCommandAccept die s
  any_goals exact hs
  next h _ _ => exact ((hs.of_mem (State.modDie_mem ..)).of_pair h (State.newNum_mem _)).of_mem rfl

theorem execWeightCommandStart_safe {die : Nat} {s : State} (hs : s.Safe) : AnswersSafe (execWeightCommandStart die s) := by
  fun_cases execWeightCommandStart die s
  any_goals exact hs
  · exact hs.of_mem (State.endWeight_mem ..)
  · exact State.startSealed_safe _ _ _ hs
  · exact hs.of_mem (State.endWeight_mem ..)
  · exact hs.of_mem (State.endWeight_mem ..)

theorem execWeightCommandComplete_safe {die : Nat} {lines : List (Nat × Nat × Nat)} {s : State} (hs : s.Safe) :
    AnswersSafe (execWeightCommandComplete die lines s) := by
  fun_cases execWeightCommandComplete die lines s
  · exact hs
  · exact hs
  · exact State.endProgram_safe _ _ _ _ hs
  · exact State.endSealed_safe _ _ _ _ hs
  next h => exact ((State.zeroLines_safe _ _ _ hs).of_snd h).of_mem (State.endWeight_mem ..)
  · exact State.endMeasure_safe _ _ _ _ _ hs
  · exact State.endMeasure_safe _ _ _ _ _ hs
  · exact hs.of_mem (State.endScrub_mem ..)
  · exact hs

theorem execScrubLine_safe {t : Nat} {region : BitVec 5} {line : BitVec 14} {errs bad : Nat} {s : State} (hs : s.Safe) :
    AnswersSafe (execScrubLine t region line errs bad s) := by
  fun_cases execScrubLine t region line errs bad s
  any_goals exact hs
  exact hs.of_mem (State.scrub_mem ..)

/-! ### Registers and tables of system software (R299–R312, R354, R392) -/

theorem execPcfgWrite_safe {p : PartNo} {v : W64} {s : State} (hs : s.Safe) : AnswersSafe (execPcfgWrite p v s) := by
  fun_cases execPcfgWrite p v s
  any_goals exact hs
  exact hs.of_mem (State.startClearing_mem ..)

theorem execDrawerKeysPlaced_safe {p : PartNo} {s : State} (hs : s.Safe) : AnswersSafe (execDrawerKeysPlaced p s) := by
  fun_cases execDrawerKeysPlaced p s <;> exact hs

theorem execTdispError_safe {p : PartNo} {s : State} (hs : s.Safe) : AnswersSafe (execTdispError p s) := by
  fun_cases execTdispError p s
  split
  · exact hs.of_mem (State.startClearing_mem ..)
  · exact hs

theorem execTdispInterfaceRequest_safe {p : PartNo} {dst : Tdisp} {s : State} (hs : s.Safe) :
    AnswersSafe (execTdispInterfaceRequest p dst s) := by
  fun_cases execTdispInterfaceRequest p dst s <;> exact hs

theorem execPartitionClearDone_safe {p : PartNo} {s : State} (hs : s.Safe) : AnswersSafe (execPartitionClearDone p s) := by
  fun_cases execPartitionClearDone p s
  · exact hs.of_mem (State.clearPartition_mem ..)
  · exact hs

theorem execTslotWrite_safe {t : Nat} {v : W64} {s : State} (hs : s.Safe) : AnswersSafe (execTslotWrite t v s) :=
  hs.of_mem ((State.assignSlot_mem ..).trans (State.assignSlot_mem ..))

theorem execSlotClearDone_safe {t : Nat} {b : Bool} {s : State} (hs : s.Safe) : AnswersSafe (execSlotClearDone t b s) := by
  fun_cases execSlotClearDone t b s
  · exact hs
  next idle clear fresh =>
    have hi : idle.Safe := hs.of_mem (State.dropWaiters_mem ..)
    have hf : fresh.Safe := Memory.wf_memClear hi _ _
    split
    · exact hf.of_mem (State.modTile_mem ..)
    · exact hf

theorem execCownWrite_safe {t : Nat} {c : CellNo} {v : W64} {s : State} (hs : s.Safe) : AnswersSafe (execCownWrite t c v s) := by
  have hc : (s.settleIf t (· == c.toNat)).Safe := hs.of_mem (State.settleIf_mem ..)
  fun_cases execCownWrite t c v s
  · exact hc
  · exact hc.of_mem ((mem_foldl (fun _ _ => State.evict_mem ..) _ _).trans (State.putCell_mem ..))

theorem execCcfgwWrite_safe {t : Nat} {c : CellNo} {v : W64} {s : State} (hs : s.Safe) : AnswersSafe (execCcfgwWrite t c v s) := by
  fun_cases execCcfgwWrite t c v s <;> exact hs

theorem execPwinWrite_safe {home : BitVec 7} {p : PartNo} {w : BitVec 4} {v : W64} {s : State} (hs : s.Safe) :
    AnswersSafe (execPwinWrite home p w v s) := by
  fun_cases execPwinWrite home p w v s
  · exact hs
  · exact hs.of_mem (State.orReg_mem ..)
  · split
    · exact hs
    · exact hs.of_mem ((State.retryRecords_mem ..).trans (State.startDrain_mem ..))

theorem execTinvPage_safe {unit : BitVec 3} {p : PartNo} {off : BitVec 41} {s : State} (hs : s.Safe) :
    AnswersSafe (execTinvPage unit p off s) := by
  fun_cases execTinvPage unit p off s
  · exact hs
  · exact hs.of_mem (State.dropEntries_mem ..)

theorem execTinvAll_safe {unit : BitVec 3} {p : PartNo} {s : State} (hs : s.Safe) : AnswersSafe (execTinvAll unit p s) := by
  fun_cases execTinvAll unit p s
  · exact hs
  · exact hs.of_mem (State.dropEntries_mem ..)

theorem execInvalidationDrainEnd_safe {unit : BitVec 3} {s : State} (hs : s.Safe) : AnswersSafe (execInvalidationDrainEnd unit s) := by
  fun_cases execInvalidationDrainEnd unit s <;> exact hs

theorem execWownWrite_safe {t : Nat} {r : BitVec 5} {v : W64} {s : State} (hs : s.Safe) : AnswersSafe (execWownWrite t r v s) := by
  fun_cases execWownWrite t r v s <;> exact hs

theorem execRtcmd_safe {p : PartNo} {v : W64} {s : State} (hs : s.Safe) : AnswersSafe (execRtcmd p v s) := by
  fun_cases execRtcmd p v s
  · exact hs.of_mem (State.orReg_mem ..)
  · exact hs

theorem execRegionTableInstallDone_safe {p : PartNo} {s : State} (hs : s.Safe) : AnswersSafe (execRegionTableInstallDone p s) := by
  fun_cases execRegionTableInstallDone p s <;> exact hs

theorem execFqhpop_safe {p : PartNo} {v : W64} {s : State} (hs : s.Safe) : AnswersSafe (execFqhpop p v s) := by
  fun_cases execFqhpop p v s
  · exact hs
  next h => exact (hs.of_pair h (State.popFault_mem ..)).of_mem rfl

theorem execFqansResume_safe {p : PartNo} {v : W64} {s : State} (hs : s.Safe) : AnswersSafe (execFqansResume p v s) :=
  hs.of_mem (State.hostAnswer_mem ..)
theorem execFqansAbort_safe {p : PartNo} {v : W64} {s : State} (hs : s.Safe) : AnswersSafe (execFqansAbort p v s) :=
  hs.of_mem (State.hostAnswer_mem ..)
theorem execFqansRestart_safe {p : PartNo} {v : W64} {s : State} (hs : s.Safe) : AnswersSafe (execFqansRestart p v s) :=
  hs.of_mem (State.hostAnswer_mem ..)

theorem execConfigRegisterWrite_safe {r : CfgReg} {v : W64} {s : State} (hs : s.Safe) : AnswersSafe (execConfigRegisterWrite r v s) :=
  hs.of_mem (State.writeReg_mem ..)

/-! ### The security core and the controllers' firmware (R329–R339, R374–R376, R393) -/

theorem execKerase_safe {v : W64} {s : State} (hs : s.Safe) : AnswersSafe (execKerase v s) := by
  fun_cases execKerase v s
  · exact hs.of_mem (State.putKey_mem ..)
  · exact hs.of_mem (State.holdRequest_mem ..)

theorem execKeyLoad_safe {session slot : Nat} {kind : BitVec 2} {p : PartNo} {key : W256} {o q : W32} {s : State} (hs : s.Safe) :
    AnswersSafe (execKeyLoad session slot kind p key o q s) := by
  fun_cases execKeyLoad session slot kind p key o q s
  · exact hs.of_mem (State.holdRequest_mem ..)
  · exact hs
  · exact hs.of_mem (State.putKey_mem ..)

theorem execKeyErase_safe {session slot : Nat} {s : State} (hs : s.Safe) : AnswersSafe (execKeyErase session slot s) := by
  fun_cases execKeyErase session slot s
  · exact hs.of_mem (State.holdRequest_mem ..)
  · exact hs.of_mem (State.putKey_mem ..)
  · exact hs

theorem execUnsealModel_safe {session : Nat} {w : BitVec 40} {p : PartNo} {model : W256} {d : BitVec 384} {s : State} (hs : s.Safe) :
    AnswersSafe (execUnsealModel session w p model d s) := by
  fun_cases execUnsealModel session w p model d s
  · exact hs.of_mem (State.holdRequest_mem ..)
  · exact hs.of_mem (State.setRegSt_mem ..)
  · exact hs

theorem execGetMeasurements_safe {session : Nat} {i : Byte} {s : State} (hs : s.Safe) : AnswersSafe (execGetMeasurements session i s) := by
  fun_cases execGetMeasurements session i s
  next h _ => exact (hs.of_pair h (State.sign_mem _)).of_mem rfl
  · exact hs.of_mem (State.holdRequest_mem ..)
  · exact hs

theorem execGetManifest_safe {session : Nat} {s : State} (hs : s.Safe) : AnswersSafe (execGetManifest session s) := by
  fun_cases execGetManifest session s
  · exact hs.of_mem (State.holdRequest_mem ..)
  · exact hs.of_mem (State.respond_mem ..)
  · exact hs

theorem execSpdmKeyExchange_safe {session : Nat} {peer : Option (BitVec 6)} {e : Bool} {s : State} (hs : s.Safe) :
    AnswersSafe (execSpdmKeyExchange session peer e s) := by
  fun_cases execSpdmKeyExchange session peer e s
  · exact hs.of_mem (State.holdRequest_mem ..)
  · split
    · exact hs.of_mem (State.keyPorts_mem ..)
    · exact hs
  · exact hs

theorem execFwVerify_safe {c : Controller} {version : Byte} {signed : Bool} {s : State} (hs : s.Safe) :
    AnswersSafe (execFwVerify c version signed s) := by
  fun_cases execFwVerify c version signed s
  · exact hs
  · exact hs.of_mem (State.holdRequest_mem ..)
  · exact hs.of_mem (State.putFw_mem ..)

theorem execFwHandover_safe {c : Controller} {s : State} (hs : s.Safe) : AnswersSafe (execFwHandover c s) := by
  fun_cases execFwHandover c s <;> exact hs
theorem execFwServiceSignal_safe {c : Controller} {s : State} (hs : s.Safe) : AnswersSafe (execFwServiceSignal c s) := by
  fun_cases execFwServiceSignal c s <;> exact hs
theorem execFwServiceTimeout_safe {c : Controller} {s : State} (hs : s.Safe) : AnswersSafe (execFwServiceTimeout c s) := by
  fun_cases execFwServiceTimeout c s <;> exact hs
theorem execFwHealthSignal_safe {c : Controller} {s : State} (hs : s.Safe) : AnswersSafe (execFwHealthSignal c s) := by
  fun_cases execFwHealthSignal c s <;> exact hs
theorem execFwHealthTimeout_safe {c : Controller} {s : State} (hs : s.Safe) : AnswersSafe (execFwHealthTimeout c s) := by
  fun_cases execFwHealthTimeout c s <;> exact hs
theorem execFwCommit_safe {c : Controller} {s : State} (hs : s.Safe) : AnswersSafe (execFwCommit c s) := by
  fun_cases execFwCommit c s <;> exact hs
theorem execFwAbandon_safe {c : Controller} {s : State} (hs : s.Safe) : AnswersSafe (execFwAbandon c s) := by
  fun_cases execFwAbandon c s <;> exact hs

/-! ### The host and the peers (R235, R385–R389) -/

theorem execHostPostedWrite_safe {p : PartNo} {off : W32} {size : Nat} {data : W64} {s : State} (hs : s.Safe) :
    AnswersSafe (execHostPostedWrite p off size data s) := by
  have hw (n : Nat) := State.writeNow_safe s 0 0 0 p (barAddr off) size n false hs
  fun_cases execHostPostedWrite p off size data s
  · exact hs
  · exact hs.of_mem (State.hostError_mem ..)
  next h => exact (hw _).of_snd h
  next h => exact ((hw _).of_snd h).of_mem (State.hostError_mem ..)
  next h => exact (hw _).of_snd h

theorem execHostRead_safe {p : PartNo} {off : W32} {size : Nat} {s : State} (hs : s.Safe) : AnswersSafe (execHostRead p off size s) := by
  fun_cases execHostRead p off size s
  · exact hs
  · exact hs.of_mem ((State.modPart_mem ..).trans (State.hostError_mem ..))
  next h => exact (hs.of_pair h (State.readNow_mem ..)).of_mem rfl
  next h => exact (hs.of_pair h (State.readNow_mem ..)).of_mem ((State.modPart_mem ..).trans (State.hostError_mem ..))
  next h => exact hs.of_pair h (State.readNow_mem ..)

theorem execPeerRequest_safe {r : PeerReq} {s : State} (hs : s.Safe) : AnswersSafe (execPeerRequest r s) := by
  fun_cases execPeerRequest r s
  any_goals exact hs
  exact State.servePeer_safe _ _ hs

theorem execVonyxFlitReceive_safe {port : Nat} {good : Bool} {s : State} (hs : s.Safe) : AnswersSafe (execVonyxFlitReceive port good s) := by
  fun_cases execVonyxFlitReceive port good s
  any_goals exact hs
  exact hs.of_mem (State.dropPort_mem ..)

/-! ### The drawer's links (R105–R118, R340–R349) -/

theorem execSwcmt_safe {l : Nat} {v : W64} {s : State} (hs : s.Safe) : AnswersSafe (execSwcmt l v s) := by
  fun_cases execSwcmt l v s
  · exact hs
  · exact hs.of_mem (State.holdRequest_mem ..)
  · exact hs.of_mem (State.orReg_mem ..)
  · exact hs.of_mem (State.orReg_mem ..)

theorem execFrameBoundary_safe {l : Nat} {s : State} (hs : s.Safe) : AnswersSafe (execFrameBoundary l s) := by
  fun_cases execFrameBoundary l s
  · exact hs.of_mem (State.boundary_mem ..)
  · exact hs

theorem execDrawerRequest_safe {t i : Nat} {s : State} (hs : s.Safe) : AnswersSafe (execDrawerRequest t i s) := by
  unfold execDrawerRequest
  extract_lets b x
  split
  · extract_lets drawer
    split
    · exact hs
    rename_i refuse unlessDown _
    have refuse_safe (f : FaultName) (before : List Elem) (e : Elem) {u : State} (hu : u.Safe) : AnswersSafe (refuse f before e u) := by
      unfold refuse
      split
      · exact State.storePrefix_safe _ _ _ _ hu
      · exact hu
    have unlessDown_safe (es : List Elem) {u : State} {r : Host.Outcome State Fault Refusal} (hu : u.Safe) (hr : AnswersSafe r) :
        AnswersSafe (unlessDown es u r) := by
      unfold unlessDown
      split
      · exact refuse_safe _ _ _ hu
      · exact hr
    split
    next h => exact hs.of_acceptElems h
    next h =>
      have hu := hs.of_acceptElems h
      exact unlessDown_safe _ hu (refuse_safe _ _ _ hu)
    next h =>
      have hu := hs.of_acceptElems h
      exact unlessDown_safe _ hu (hu.of_mem (mem_foldl (fun _ _ => State.modLink_mem ..) _ _))
  · exact hs

theorem execOutboundSlot_safe {l : Nat} {s : State} (hs : s.Safe) : AnswersSafe (execOutboundSlot l s) := by
  have hb : (if (s.link l).slot % 512 = 0 then s.boundary l else s).Safe := by
    split
    · exact hs.of_mem (State.boundary_mem ..)
    · exact hs
  exact hb

theorem execInboundFrame_safe {l : Nat} {intact tagOk : Bool} {s : State} (hs : s.Safe) :
    AnswersSafe (execInboundFrame l intact tagOk s) := by
  fun_cases execInboundFrame l intact tagOk s
  any_goals exact hs
  exact safe_foldl (fun _ _ h => State.resolveReq_safe _ _ _ _ h) _ hs

theorem execLinkLossOfLock_safe {l : Nat} {s : State} (hs : s.Safe) : AnswersSafe (execLinkLossOfLock l s) := by
  fun_cases execLinkLossOfLock l s <;> exact hs
theorem execLinkRelock_safe {l : Nat} {delta : BitVec 10} {s : State} (hs : s.Safe) : AnswersSafe (execLinkRelock l delta s) := by
  fun_cases execLinkRelock l delta s <;> exact hs
theorem execLinkBroughtBackToUp_safe {l : Nat} {delta : BitVec 10} {s : State} (hs : s.Safe) :
    AnswersSafe (execLinkBroughtBackToUp l delta s) := by
  fun_cases execLinkBroughtBackToUp l delta s <;> exact hs

theorem execLinkDownDeclare_safe {l : Nat} {s : State} (hs : s.Safe) : AnswersSafe (execLinkDownDeclare l s) := by
  fun_cases execLinkDownDeclare l s
  · exact hs
  · exact hs.of_mem (mem_foldl (fun _ _ => State.modSlot_mem ..) _ _)

theorem execLinkStallTimeout_safe {t : Nat} {s : State} (hs : s.Safe) : AnswersSafe (execLinkStallTimeout t s) := by
  fun_cases execLinkStallTimeout t s <;> exact hs

/-! ### Power and temperature (R395–R398) -/

theorem execPowerLoss_safe {s : State} (hs : s.Safe) : AnswersSafe (execPowerLoss s) := by
  fun_cases execPowerLoss s
  · exact State.powerDown_safe _ hs
  · exact hs
theorem execThermalShutdown_safe {s : State} (hs : s.Safe) : AnswersSafe (execThermalShutdown s) := by
  fun_cases execThermalShutdown s
  · exact State.powerDown_safe _ hs
  · exact hs
theorem execPowerGood_safe {s : State} (hs : s.Safe) : AnswersSafe (execPowerGood s) := by
  fun_cases execPowerGood s <;> exact hs

theorem execStartupStepComplete_safe {s : State} (hs : s.Safe) : AnswersSafe (execStartupStepComplete s) := by
  fun_cases execStartupStepComplete s
  any_goals exact hs
  next u h =>
    have hu : u.Safe := hs.of_mem (State.startupWork_mem s h)
    exact hu

theorem execGovernorWindow_safe {die : BitVec 2} {power : Nat} {temp : Byte} {s : State} (hs : s.Safe) :
    AnswersSafe (execGovernorWindow die power temp s) :=
  hs.of_mem (State.freeWord_mem s)

theorem execCoolantFlowLow_safe {s : State} (hs : s.Safe) : AnswersSafe (execCoolantFlowLow s) := by
  fun_cases execCoolantFlowLow s
  · exact hs.of_mem (mem_foldl (fun _ _ => State.putReg_mem ..) _ _)
  · exact hs

end Sys2Proof.Machine
end

section
/-! SUPPORT. Every instruction of a core keeps the canonical form of the memory: what it does at issue, and its meaning, which is one
of the shared operations of Laws/Safe.lean or has a lemma of its own here (R42, R66; notes/assumptions/3). -/

namespace Sys2Proof.Machine

/-- A group that issues keeps the form where its meaning does. -/
theorem issuePre_safe {i : Instr} {s : State} {pre : Slot → Option FaultName} {k : State → Res} (hs : s.Safe) (hk : (k s).Safe) :
    AnswersSafe (issuePre i s pre k) := by
  fun_cases issuePre i s pre k
  · exact hs
  · exact hs.of_mem (State.tick_mem ..)
  · exact conclude_safe hs trivial
  · exact settle_safe hs hk i
  · exact conclude_safe hs trivial

theorem issue_safe {i : Instr} {s : State} {k : State → Res} (hs : s.Safe) (hk : (k s).Safe) : AnswersSafe (issue i s k) :=
  issuePre_safe hs hk

/-- A check that traps before a meaning. -/
theorem Res.Safe.unless {c : Prop} [Decidable c] {n : FaultName} {a d : W64} {r : Res} (hr : r.Safe) :
    (if c then .trap n a d else r).Safe := by
  split
  · trivial
  · exact hr

/-! ### Meanings of their own -/

theorem execIllegalWord_safe {why : Defect} {s : State} (hs : s.Safe) : AnswersSafe (execIllegalWord why s) :=
  issue_safe hs trivial
theorem execNop_safe {s : State} (hs : s.Safe) : AnswersSafe (execNop s) := issue_safe hs hs
theorem execCrr_safe {sd : SReg} {cr : CtlReg} {s : State} (hs : s.Safe) : AnswersSafe (execCrr sd cr s) := issue_safe hs hs
theorem execTaskDone_safe {sa : SReg} {s : State} (hs : s.Safe) : AnswersSafe (execTaskDone sa s) := issue_safe hs hs
theorem execYield_safe {s : State} (hs : s.Safe) : AnswersSafe (execYield s) := issue_safe hs hs
theorem execPhase_safe {s : State} (hs : s.Safe) : AnswersSafe (execPhase s) := issue_safe hs hs
theorem execBrk_safe {code : BitVec 24} {s : State} (hs : s.Safe) : AnswersSafe (execBrk code s) := issue_safe hs hs

theorem execJmp_safe {off : W32} {s : State} (hs : s.Safe) : AnswersSafe (execJmp off s) :=
  issue_safe hs (takeBranch_safe _ _ hs)

theorem execCall_safe {off : W32} {s : State} (hs : s.Safe) : AnswersSafe (execCall off s) :=
  issuePre_safe hs (pushCall_safe _ _ hs)

theorem execSt_safe {z : Size} {o : Ord} {sd base : SReg} {disp : W64} {s : State} (hs : s.Safe) :
    AnswersSafe (execSt z o sd base disp s) := by
  refine issue_safe hs ?_
  exact scalarAccess_safe _ _ _ _ _ _ _ hs
theorem execCcfg_safe {sa : SReg} {c : CellRef} {s : State} (hs : s.Safe) : AnswersSafe (execCcfg sa c s) := by
  refine issue_safe hs ?_
  exact changeCell_safe _ _ _ _ hs
theorem execHld_safe {hd : HReg} {sa : SReg} {disp : W64} {s : State} (hs : s.Safe) : AnswersSafe (execHld hd sa disp s) := by
  refine issue_safe hs ?_
  exact handleAccess_safe _ _ _ _ hs
theorem execHst_safe {ha : HReg} {sa : SReg} {disp : W64} {s : State} (hs : s.Safe) : AnswersSafe (execHst ha sa disp s) := by
  refine issue_safe hs ?_
  exact handleAccess_safe _ _ _ _ hs
theorem execVld_safe {ty : Ty} {vd : VReg} {h : HReg} {s : State} (hs : s.Safe) : AnswersSafe (execVld ty vd h s) := by
  refine issue_safe hs ?_
  exact vectorAccess_safe _ _ _ _ _ hs
theorem execVldr_safe {ty : Ty} {vd : VReg} {h : HReg} {row : BitVec 4} {s : State} (hs : s.Safe) :
    AnswersSafe (execVldr ty vd h row s) := by
  refine issue_safe hs ?_
  exact vectorAccess_safe _ _ _ _ _ hs
theorem execVst_safe {ty : Ty} {r : Rnd} {h : HReg} {va : VReg} {s : State} (hs : s.Safe) : AnswersSafe (execVst ty r h va s) := by
  refine issue_safe hs ?_
  exact vectorAccess_safe _ _ _ _ _ hs
theorem execVstr_safe {ty : Ty} {r : Rnd} {h : HReg} {va : VReg} {row : BitVec 4} {s : State} (hs : s.Safe) :
    AnswersSafe (execVstr ty r h va row s) := by
  refine issue_safe hs ?_
  exact vectorAccess_safe _ _ _ _ _ hs

theorem execJmpr_safe {sa : SReg} {s : State} (hs : s.Safe) : AnswersSafe (execJmpr sa s) :=
  issue_safe hs (takeBranch_safe _ _ hs).unless

theorem execCallr_safe {sa : SReg} {s : State} (hs : s.Safe) : AnswersSafe (execCallr sa s) :=
  issuePre_safe hs (pushCall_safe _ _ hs).unless

theorem execRet_safe {s : State} (hs : s.Safe) : AnswersSafe (execRet s) := by
  refine issuePre_safe hs ?_
  extract_lets x
  split
  · exact Res.Safe.unless hs
  · rename_i sp k t _ _
    clear_value sp k t
    exact .unless (.unless (.unless (.unless hs)))

theorem execHchk_safe {ha : HReg} {sa : SReg} {s : State} (hs : s.Safe) : AnswersSafe (execHchk ha sa s) := by
  refine issue_safe hs ?_
  dsimp only
  split
  · exact hs
  · trivial

theorem execTcfg_safe {t : TReg} {ty : Ty} {rows cols : BitVec 10} {s : State} (hs : s.Safe) : AnswersSafe (execTcfg t ty rows cols s) :=
  issue_safe hs (.unless hs)

theorem execVspread48_safe {ty : Ty} {vd va : VReg} {s : State} (hs : s.Safe) : AnswersSafe (execVspread48 ty vd va s) := by
  refine issue_safe hs ?_
  dsimp only
  split
  · trivial
  · exact hs

theorem execWld_safe {ty : Ty} {vd : VReg} {sa : SReg} {s : State} (hs : s.Safe) : AnswersSafe (execWld ty vd sa s) := by
  refine issue_safe hs (.unless (.unless ?_))
  split
  · exact hs
  · trivial
  · exact hs

theorem execWstat_safe {sd sa : SReg} {s : State} (hs : s.Safe) : AnswersSafe (execWstat sd sa s) :=
  issue_safe hs (.unless (.unless hs))

theorem execSwpop_safe {v : VReg} {sx : SReg} {row : BitVec 4} {e : Eng} {s : State} (hs : s.Safe) :
    AnswersSafe (execSwpop v sx row e s) := by
  refine issue_safe hs ?_
  split
  · exact hs
  · exact offerCommand_safe _ _ _ hs

theorem execFence_safe {sc : Scope} {s : State} (hs : s.Safe) : AnswersSafe (execFence sc s) := by
  refine issue_safe hs ?_
  split <;> exact hs

theorem execTlock_safe {sd sa sl : SReg} {s : State} (hs : s.Safe) : AnswersSafe (execTlock sd sa sl s) := by
  refine issue_safe hs ?_
  dsimp only
  split
  · trivial
  · exact hs.of_mem (State.peerWord_mem s)
  · exact .unless (.unless (hs.of_mem (State.lockRange_mem ..)))

theorem execTunlock_safe {sa sl : SReg} {s : State} (hs : s.Safe) : AnswersSafe (execTunlock sa sl s) := by
  refine issue_safe hs ?_
  dsimp only
  split
  · trivial
  · exact hs
  · exact Res.Safe.unless (hs.of_mem (State.unlockRange_mem ..))

theorem execFqpop_safe {sd : SReg} {s : State} (hs : s.Safe) : AnswersSafe (execFqpop sd s) := by
  have hp : (s.popFault s.core.part).2.Safe := hs.of_mem (State.popFault_mem ..)
  refine issue_safe hs ?_
  exact hp.of_mem (State.modCore_mem ..)

theorem execQwait_safe {m c : Bool} {s : State} (hs : s.Safe) : AnswersSafe (execQwait m c s) :=
  issue_safe hs (.unless hs)

/-! ### Every instruction and event -/

/-- What any instruction or event answers is safe. -/
theorem exec_safe (i : Instr) {s : State} (hs : s.Safe) : AnswersSafe (exec i s) := by
  cases i with
  | add | sub | mul | mulh | div | divu | rem | remu | and | or | xor | shl | shr | sar | min | max | minu | maxu | slt
  | sltu => exact issue_safe hs (alu3_safe _ _ _ _ _ _ hs)
  | clz | popc | addi | muli | andi | ori | xori | shli | shri | sari | slti | sltiu | bfx | mka =>
    exact issue_safe hs (alu2_safe _ _ _ _ hs)
  | hmov | hsetb | hget | hclr | widf | crw | qset | li | bfi | vpart | vcompress | vexpand | vsel | vext | vins
  | vpermr | kand | kor | kxor | knot | kpopc | kfirst => exact issue_safe hs (onCore_safe _ _ hs)
  | br | bqT | bqF => exact issue_safe hs (branchIf_safe _ _ s hs)
  | loop | loopP | loopi => exact issuePre_safe hs (beginLoop_safe _ _ _ _ hs)
  | ld | lds => exact issue_safe hs (loadFrom_safe _ _ _ _ _ _ _ hs)
  | aadd | aand | aor | axor | amin | amax | aminu | amaxu | afadd | afmin | afmax | aswp | acas =>
    exact issue_safe hs (atomicAt_safe _ _ _ _ _ _ _ _ hs)
  | wait | take => exact issue_safe hs (waitCell_safe _ _ _ _ _ _ hs)
  | trytake => exact issue_safe hs (tryTakeCell_safe _ _ _ _ hs)
  | crd => exact issue_safe hs (readCell_safe _ _ _ hs)
  | sig | arrive | cset | cclr => exact issue_safe hs (changeCell_safe _ _ _ _ hs)
  | spawn | spawnb => exact issue_safe hs (spawnRecord_safe _ _ _ _ _ hs)
  | park => exact issue_safe hs (parkRecord_safe _ _ _ _ hs)
  | hsetd | hsets | hadv => exact issue_safe hs (handleSet_safe _ _ _ _ _ hs)
  | vabs | vneg | vrint | vpopc | vcvt | vexp2 | vlog2 | vrcp | vrsq | vsqrt | vtanh | vsinpi | vcospi =>
    exact issue_safe hs (vec1_safe _ _ _ _ _ hs)
  | vadd | vsub | vmul | vmin | vmax | vadds | vsubs | vscale | vand | vor | vxor | vandn | vshl | vshr | vsar =>
    exact issue_safe hs (vec2_safe _ _ _ _ _ _ hs)
  | vfma | vfms | vfnma | vclamp => exact issue_safe hs (vec3_safe _ _ _ _ _ _ _ hs)
  | vmovi | vbcs | vhash => exact issue_safe hs (lanesUnder_safe _ _ _ _ hs)
  | vcmpeq | vcmpne | vcmplt | vcmple => exact issue_safe hs (compareLanes_safe _ _ _ _ _ _ hs)
  | vargmaxr | vargmaxc | vargminr | vargminc | vtopk | vtopkm | vbucket | vprune48 =>
    exact issue_safe hs (pairOf_safe _ _ _ hs)
  | vmov | vrotr | vbcr | vredr | vrotc | vbcc | vredc => exact issue_safe hs (whole_safe _ _ _ _ hs)
  | tld | tldw | tst | mma | mmaw | mmasp | mmaspw | mtrans | mperm | mrsum | mzero | mdrain | mnop =>
    exact issue_safe hs (pushMatrix_safe _ _ _ _ hs)
  | copy | gath | scat | fill | reda | putc | rrot | copySeal | copyOpen | cnop =>
    exact issue_safe hs (pushCopy_safe _ _ _ _ _ hs)
  | swopen | swapp | swqry | swevt | swsave | swload | swclose | wprog | wprogs | wfree | wmeas | wscrub | wchk =>
    exact issue_safe hs (offerCommand_safe _ _ _ hs)
  | fresume | fabort | frestart => exact issue_safe hs (answerRecord_safe _ _ _ hs)
  | st => exact execSt_safe hs
  | ccfg => exact execCcfg_safe hs
  | hld => exact execHld_safe hs
  | hst => exact execHst_safe hs
  | vld => exact execVld_safe hs
  | vldr => exact execVldr_safe hs
  | vst => exact execVst_safe hs
  | vstr => exact execVstr_safe hs
  | illegalWord => exact execIllegalWord_safe hs
  | nop => exact execNop_safe hs
  | crr => exact execCrr_safe hs
  | taskDone => exact execTaskDone_safe hs
  | yield => exact execYield_safe hs
  | phase => exact execPhase_safe hs
  | brk => exact execBrk_safe hs
  | jmp => exact execJmp_safe hs
  | call => exact execCall_safe hs
  | jmpr => exact execJmpr_safe hs
  | callr => exact execCallr_safe hs
  | ret => exact execRet_safe hs
  | hchk => exact execHchk_safe hs
  | tcfg => exact execTcfg_safe hs
  | vspread48 => exact execVspread48_safe hs
  | wld => exact execWld_safe hs
  | wstat => exact execWstat_safe hs
  | swpop => exact execSwpop_safe hs
  | fence => exact execFence_safe hs
  | tlock => exact execTlock_safe hs
  | tunlock => exact execTunlock_safe hs
  | fqpop => exact execFqpop_safe hs
  | qwait => exact execQwait_safe hs
  | cellWaiterSatisfied => exact execCellWaiterSatisfied_safe hs
  | waitLimitExpiry => exact execWaitLimitExpiry_safe hs
  | remoteCellRequest => exact execRemoteCellRequest_safe hs
  | remoteCellReply => exact execRemoteCellReply_safe hs
  | cellWindowAccess => exact execCellWindowAccess_safe hs
  | matrixCommandStart => exact execMatrixCommandStart_safe hs
  | matrixCommandComplete => exact execMatrixCommandComplete_safe hs
  | copyOpenCounterStep => exact execCopyOpenCounterStep_safe hs
  | copySealCounterStep => exact execCopySealCounterStep_safe hs
  | copyCommandStart => exact execCopyCommandStart_safe hs
  | lockstepRendezvous => exact execLockstepRendezvous_safe hs
  | copyCommandComplete => exact execCopyCommandComplete_safe hs
  | parkRegister => exact execParkRegister_safe hs
  | doneRetire => exact execDoneRetire_safe hs
  | recordAdmission => exact execRecordAdmission_safe hs
  | sqtailWrite => exact execSqtailWrite_safe hs
  | submissionAdmission => exact execSubmissionAdmission_safe hs
  | heldContinuationAdmission => exact execHeldContinuationAdmission_safe hs
  | dispatch => exact execDispatch_safe hs
  | swardAccept => exact execSwardAccept_safe hs
  | swardPerform => exact execSwardPerform_safe hs
  | accessReply => exact execAccessReply_safe hs
  | sharedMemoryAccess => exact execSharedMemoryAccess_safe hs
  | bankAtomic => exact execBankAtomic_safe hs
  | loadDataReturn => exact execLoadDataReturn_safe hs
  | phaseCommit => exact execPhaseCommit_safe hs
  | qwaitComplete => exact execQwaitComplete_safe hs
  | budgetExpiry => exact execBudgetExpiry_safe hs
  | sliceExpiry => exact execSliceExpiry_safe hs
  | preqWrite => exact execPreqWrite_safe hs
  | contextStopEnd => exact execContextStopEnd_safe hs
  | phaseCancellation => exact execPhaseCancellation_safe hs
  | contextSaveComplete => exact execContextSaveComplete_safe hs
  | fholdExpiry => exact execFholdExpiry_safe hs
  | contextMoveOut => exact execContextMoveOut_safe hs
  | contextRestoreComplete => exact execContextRestoreComplete_safe hs
  | shadowWriteOutComplete => exact execShadowWriteOutComplete_safe hs
  | slotSwitch => exact execSlotSwitch_safe hs
  | faultRecordWrite => exact execFaultRecordWrite_safe hs
  | weightCommandAccept => exact execWeightCommandAccept_safe hs
  | weightCommandStart => exact execWeightCommandStart_safe hs
  | weightCommandComplete die lines => exact execWeightCommandComplete_safe (die := die) (lines := lines) hs
  | scrubLine => exact execScrubLine_safe hs
  | pcfgWrite => exact execPcfgWrite_safe hs
  | drawerKeysPlaced => exact execDrawerKeysPlaced_safe hs
  | tdispError => exact execTdispError_safe hs
  | tdispInterfaceRequest => exact execTdispInterfaceRequest_safe hs
  | partitionClearDone => exact execPartitionClearDone_safe hs
  | tslotWrite => exact execTslotWrite_safe hs
  | slotClearDone => exact execSlotClearDone_safe hs
  | cownWrite => exact execCownWrite_safe hs
  | ccfgwWrite => exact execCcfgwWrite_safe hs
  | pwinWrite => exact execPwinWrite_safe hs
  | tinvPage => exact execTinvPage_safe hs
  | tinvAll => exact execTinvAll_safe hs
  | invalidationDrainEnd => exact execInvalidationDrainEnd_safe hs
  | wownWrite => exact execWownWrite_safe hs
  | rtcmd => exact execRtcmd_safe hs
  | regionTableInstallDone => exact execRegionTableInstallDone_safe hs
  | fqhpop => exact execFqhpop_safe hs
  | fqansResume => exact execFqansResume_safe hs
  | fqansAbort => exact execFqansAbort_safe hs
  | fqansRestart => exact execFqansRestart_safe hs
  | configRegisterWrite => exact execConfigRegisterWrite_safe hs
  | kerase => exact execKerase_safe hs
  | keyLoad => exact execKeyLoad_safe hs
  | keyErase => exact execKeyErase_safe hs
  | unsealModel => exact execUnsealModel_safe hs
  | getMeasurements => exact execGetMeasurements_safe hs
  | getManifest => exact execGetManifest_safe hs
  | spdmKeyExchange => exact execSpdmKeyExchange_safe hs
  | fwVerify => exact execFwVerify_safe hs
  | fwHandover => exact execFwHandover_safe hs
  | fwServiceSignal => exact execFwServiceSignal_safe hs
  | fwServiceTimeout => exact execFwServiceTimeout_safe hs
  | fwHealthSignal => exact execFwHealthSignal_safe hs
  | fwHealthTimeout => exact execFwHealthTimeout_safe hs
  | fwCommit => exact execFwCommit_safe hs
  | fwAbandon => exact execFwAbandon_safe hs
  | hostPostedWrite => exact execHostPostedWrite_safe hs
  | hostRead => exact execHostRead_safe hs
  | peerRequest => exact execPeerRequest_safe hs
  | vonyxFlitReceive => exact execVonyxFlitReceive_safe hs
  | swcmt => exact execSwcmt_safe hs
  | frameBoundary => exact execFrameBoundary_safe hs
  | drawerRequest => exact execDrawerRequest_safe hs
  | outboundSlot => exact execOutboundSlot_safe hs
  | inboundFrame => exact execInboundFrame_safe hs
  | linkLossOfLock => exact execLinkLossOfLock_safe hs
  | linkRelock => exact execLinkRelock_safe hs
  | linkBroughtBackToUp => exact execLinkBroughtBackToUp_safe hs
  | linkDownDeclare => exact execLinkDownDeclare_safe hs
  | linkStallTimeout => exact execLinkStallTimeout_safe hs
  | powerLoss => exact execPowerLoss_safe hs
  | thermalShutdown => exact execThermalShutdown_safe hs
  | powerGood => exact execPowerGood_safe hs
  | startupStepComplete => exact execStartupStepComplete_safe hs
  | governorWindow => exact execGovernorWindow_safe hs
  | coolantFlowLow => exact execCoolantFlowLow_safe hs
end Sys2Proof.Machine
end

section
/-! SUPPORT. Every move of the machine keeps the canonical form of the memory: those of the agenda, and those that the machine finds
by itself (notes/assumptions/4, notes/assumptions/8). -/

namespace Sys2Proof.Machine

/-! ### Lists of events -/

/-- Each event of the list keeps the form in every state. -/
def ActsSafe (l : List Act) : Prop := ∀ a ∈ l, ∀ s : State, s.Safe → AnswersSafe (a s)

theorem ActsSafe.nil : ActsSafe [] := fun _ h => nomatch h

theorem ActsSafe.cons {a : Act} {l : List Act} (ha : ∀ s : State, s.Safe → AnswersSafe (a s)) (hl : ActsSafe l) :
    ActsSafe (a :: l) := List.forall_mem_cons.mpr ⟨ha, hl⟩

theorem ActsSafe.one {a : Act} (ha : ∀ s : State, s.Safe → AnswersSafe (a s)) : ActsSafe [a] := .cons ha .nil

theorem ActsSafe.append {l m : List Act} (hl : ActsSafe l) (hm : ActsSafe m) : ActsSafe (l ++ m) :=
  List.forall_mem_append.mpr ⟨hl, hm⟩

theorem ActsSafe.flatMap {α : Type} {l : List α} {f : α → List Act} (h : ∀ x, ActsSafe (f x)) : ActsSafe (l.flatMap f) := by
  intro a ha
  obtain ⟨x, -, ha⟩ := List.mem_flatMap.mp ha
  exact h x a ha

theorem ActsSafe.map {α : Type} {l : List α} {f : α → Act} (h : ∀ x s, State.Safe s → AnswersSafe (f x s)) : ActsSafe (l.map f) := by
  intro a ha
  obtain ⟨x, -, rfl⟩ := List.mem_map.mp ha
  exact h x

theorem ActsSafe.ite {c : Prop} [Decidable c] {l m : List Act} (hl : ActsSafe l) (hm : ActsSafe m) :
    ActsSafe (if c then l else m) := by
  split
  · exact hl
  · exact hm

/-! ### Events that something waits for -/

theorem Slot.accessActs_safe (x : Slot) (t : Nat) : ActsSafe (x.accessActs t) := by
  refine .flatMap fun i => .append (.append ?_ ?_) ?_
  · exact .cons (fun _ => execAccessReply_safe) <| .cons (fun _ => execCellWindowAccess_safe) <|
      .cons (fun _ => execDrawerRequest_safe) <| .one fun _ => execBankAtomic_safe
  · exact .map fun _ _ => execSharedMemoryAccess_safe
  · exact .one fun _ => execLoadDataReturn_safe

theorem Slot.holdActs_safe (x : Slot) (t : Nat) : ActsSafe (x.holdActs t) := by
  unfold Slot.holdActs
  cases x.hold with
  | wait | remote => exact .one fun _ => execWaitLimitExpiry_safe
  | park => exact .cons (fun _ => execPhaseCommit_safe) <| .one fun _ => execParkRegister_safe
  | done => exact .cons (fun _ => execPhaseCommit_safe) <| .one fun _ => execDoneRetire_safe
  | qwait => exact .one fun _ => execQwaitComplete_safe
  | phase => exact .one fun _ => execPhaseCommit_safe
  | none | reply | perf | offerWait | offer | spawn => exact .nil

theorem Slot.engineActs_safe (x : Slot) (t : Nat) : ActsSafe (x.engineActs t) := by
  refine .append (.ite .nil ?_) (.ite .nil (.append (.append ?_ ?_) ?_))
  · exact .cons (fun _ => execMatrixCommandComplete_safe) <| .one fun _ => execMatrixCommandStart_safe
  · exact .cons (fun _ => execCopyCommandComplete_safe) <| .cons (fun _ => execCopyOpenCounterStep_safe) <|
      .one fun _ => execCopySealCounterStep_safe
  · exact .map fun _ _ => execCopyCommandStart_safe
  · exact .one fun _ => execLockstepRendezvous_safe

theorem Slot.lifeActs_safe (x : Slot) (t : Nat) (b : Bool) : ActsSafe (x.lifeActs t b) := by
  refine .append (.append ?_ ?_) ?_
  · exact .ite (.one fun _ => execContextRestoreComplete_safe) .nil
  · exact .ite (.one fun _ => execShadowWriteOutComplete_safe) .nil
  split
  · exact .cons (fun _ => execPhaseCancellation_safe) <| .one fun _ => execContextStopEnd_safe
  · exact .one fun _ => execContextSaveComplete_safe
  · exact .cons (fun _ => execFholdExpiry_safe) <| .one fun _ => execContextMoveOut_safe
  · exact .one fun _ => execSlotClearDone_safe
  · exact .nil

theorem State.tileActs_safe (s : State) (t : Nat) : ActsSafe (s.tileActs t) := by
  refine .append (.append (.append (.append (.append (.append (.append ?_ ?_) ?_) ?_) ?_) ?_) ?_) ?_
  · exact Slot.lifeActs_safe _ _ _
  · exact Slot.lifeActs_safe _ _ _
  · exact .one fun _ => execSlotSwitch_safe
  · exact Slot.accessActs_safe _ _
  · exact Slot.holdActs_safe _ _
  · exact Slot.engineActs_safe _ _
  · exact .ite (.cons (fun _ => execBudgetExpiry_safe) <| .cons (fun _ => execSliceExpiry_safe) <|
      .one fun _ => execLinkStallTimeout_safe) .nil
  · exact .map fun _ _ => execCellWaiterSatisfied_safe

theorem State.dieActs_safe (s : State) (d : Nat) : ActsSafe (s.dieActs d) := by
  refine .append (.append (.append (.append (.append ?_ ?_) ?_) ?_) ?_) ?_
  · exact .ite .nil <| .one fun _ => execRecordAdmission_safe
  · exact .flatMap fun _ => .cons (fun _ => execHeldContinuationAdmission_safe) <| .one fun _ => execSubmissionAdmission_safe
  · exact .ite .nil <| .one fun _ => execDispatch_safe
  · exact .cons (fun _ => execSwardAccept_safe) <| .one fun _ => execWeightCommandAccept_safe
  · exact .map fun _ _ => execSwardPerform_safe
  · exact .ite .nil <| .cons (fun _ => execWeightCommandComplete_safe) <| .one fun _ => execWeightCommandStart_safe

theorem State.partActs_safe (s : State) (p : PartNo) : ActsSafe (s.partActs p) := by
  refine .append (.append (.append ?_ ?_) ?_) ?_
  · exact .ite .nil <| .one fun _ => execFaultRecordWrite_safe
  · exact .ite (.one fun _ => execPartitionClearDone_safe) .nil
  · exact .ite (.one fun _ => execDrawerKeysPlaced_safe) .nil
  · exact .ite (.one fun _ => execRegionTableInstallDone_safe) .nil

theorem State.linkActs_safe (s : State) : ActsSafe s.linkActs :=
  .flatMap fun _ => .ite (.one fun _ => execInboundFrame_safe) .nil

/-- Every event that the machine tries by itself keeps the form. -/
theorem State.pending_safe (s : State) : ActsSafe s.pending := by
  refine .append (.append (.append (.append (.append ?_ ?_) ?_) ?_) ?_) ?_
  · exact .flatMap fun _ => .cons (fun _ => execRemoteCellReply_safe) <| .one fun _ => execRemoteCellRequest_safe
  · exact .flatMap fun _ => s.tileActs_safe _
  · exact .flatMap s.dieActs_safe
  · exact .flatMap fun _ => s.partActs_safe _
  · exact s.linkActs_safe
  · exact .flatMap fun _ => .ite (.one fun _ => execInvalidationDrainEnd_safe) .nil

/-! ### Moves -/

theorem serveRequest_safe (r : Request) {s : State} (hs : s.Safe) : AnswersSafe (serveRequest r s) := by
  cases r with
  | kerase => exact execKerase_safe hs
  | keyLoad => exact execKeyLoad_safe hs
  | keyErase => exact execKeyErase_safe hs
  | unsealModel => exact execUnsealModel_safe hs
  | getMeasurements => exact execGetMeasurements_safe hs
  | getManifest => exact execGetManifest_safe hs
  | spdmKeyExchange => exact execSpdmKeyExchange_safe hs
  | fwVerify => exact execFwVerify_safe hs
  | pwrshareWrite => exact execConfigRegisterWrite_safe hs
  | swcmt => exact execSwcmt_safe hs

/-- The state in which a core executes its next group, or goes on without, is safe. -/
def NextUp.Safe : NextUp → Prop
  | .run _ u => u.Safe
  | .idle u => u.Safe

theorem State.Safe.of_fetchWords {s u : State} {t b n : Nat} {va at_ : W64} {g : Got (List W64)} (hs : s.Safe)
    (h : s.fetchWords t b va n = (g, u, at_)) : u.Safe :=
  hs.of_mem (by rw [← State.fetchWords_mem s t b va n, h])

theorem nextGroup_safe (t : Nat) {s : State} (hs : s.Safe) : (nextGroup t s).Safe := by
  have hc : ({ s with cur := t } : State).Safe := hs
  fun_cases nextGroup t s
  · exact hc.of_mem (State.tick_mem ..)
  next h => exact (hc.of_fetchWords h).of_mem (State.tick_mem ..)
  next h => exact (hc.of_fetchWords h).of_mem ((State.tick_mem ..).trans (State.modCore_mem ..))
  next h _ _ _ => exact (hc.of_fetchWords h).of_mem (State.modCore_mem ..)
  next h _ _ _ _ => exact (hc.of_fetchWords h).of_mem (State.modCore_mem ..)
  next h _ _ _ _ =>
    exact (hc.of_fetchWords h).of_mem ((State.tick_mem ..).trans ((State.modCore_mem ..).trans (State.modCore_mem ..)))

theorem coreMove_safe (t : Nat) {s : State} (hs : s.Safe) : AnswersSafe (coreMove t s) := by
  have hg := nextGroup_safe t hs
  unfold coreMove
  split
  next h =>
    rw [h] at hg
    exact exec_safe _ hg
  next h =>
    rw [h] at hg
    exact hg

theorem ownMove_safe {s : State} (hs : s.Safe) : AnswersSafe (ownMove s) := by
  fun_cases ownMove s
  next h => exact s.pending_safe _ (List.mem_of_find?_eq_some h) s hs
  · exact coreMove_safe _ hs
  · exact execStartupStepComplete_safe hs
  · exact execOutboundSlot_safe hs
  · exact hs.of_mem (State.tick_mem ..)

theorem runMove_safe (m : Move) {s : State} (hs : s.Safe) : AnswersSafe (runMove m s) := by
  fun_cases runMove m s
  · exact coreMove_safe _ hs
  · exact exec_safe _ hs
  · exact hs
  · exact serveRequest_safe _ hs
  · exact hs.of_mem (State.tick_mem ..)
  · exact State.outside_safe _ _ hs

/-- A step answers a safe state or none. -/
theorem step_safe {s : State} (hs : s.Safe) : AnswersSafe (step s) := by
  fun_cases step s
  · exact runMove_safe _ hs
  · trivial
  · exact ownMove_safe hs
  · trivial

/-- Settles O60: by the kinds of moves, and for a move that executes an instruction or event by the shared operations that it calls. -/
theorem stepKeepsMemoryForm : Obligations.StepKeepsMemoryForm := by
  intro s t hs h
  have hstep := step_safe hs
  rwa [h] at hstep

end Sys2Proof.Machine
end

section
/-! SUPPORT. The registers that system software and the host write, region tables, and the host end of the fault queue (R8, R67, R354,
R392); and what reset leaves (R23). -/

namespace Sys2Proof.Machine

/-! ### After reset -/

/-- Both slots of every tile are empty. -/
theorem State.slot_reset (t b : Nat) : State.reset.slot t b = {} := by
  show ({} : Tile).slot b = {}
  unfold Tile.slot
  split <;> rfl

/-- Settles O59: every table of the state after reset is empty, so each entry has the value that its definition gives. -/
theorem resetState : Obligations.ResetState := by
  refine ⟨rfl, rfl, rfl, fun _ => rfl, fun t b => ?_, fun t c => ⟨rfl, rfl, rfl, rfl⟩, fun t => ⟨rfl, rfl, rfl⟩,
    fun p => ⟨rfl, rfl, rfl, rfl⟩, fun d p l => ⟨rfl, rfl, rfl⟩, fun l => ⟨rfl, rfl, rfl⟩, fun k => rfl⟩
  intro x
  have hx : x = {} := State.slot_reset t b
  clear_value x
  subst hx
  have scalars (r : SReg) : ({} : Slot).getS r = 0 := by simp [Slot.getS]
  have preds (r : QReg) : ({} : Slot).getQ r = (r == 0) := by revert r; decide
  have masks (r : KReg) : ({} : Slot).getK r = if r = 0 then BitVec.allOnes 1024 else 0 := rfl
  exact ⟨scalars, fun _ => rfl, preds, masks, fun _ _ => rfl, fun _ => rfl, fun _ => rfl, rfl, rfl, rfl, rfl, rfl, rfl, rfl, rfl,
    rfl, rfl, rfl⟩

/-! ### Partitions and registers -/

/-- Two changes of a partition are one. -/
theorem State.modPart_modPart (s : State) (p : PartNo) (f g : Part → Part) :
    (s.modPart p f).modPart p g = s.modPart p fun x => g (f x) := by
  simp only [State.modPart, State.part, tget_tput_same, tput_tput]

/-- A field of the low bits. -/
theorem toNat_and_ones (v : W64) {n : Nat} (hn : n ≤ 64) : (v &&& ones n).toNat = v.toNat % 2 ^ n := by
  have hlt : 2 ^ n - 1 < 2 ^ 64 := by
    have := Nat.pow_le_pow_right (n := 2) (by decide) hn
    have := Nat.two_pow_pos n
    omega
  rw [BitVec.toNat_and, ones, BitVec.toNat_ofNat, Nat.mod_eq_of_lt hlt, Nat.and_two_pow_sub_one_eq_mod]

/-! ### Ring registers (R67) -/

theorem State.levelBusy_iff (s : State) (d : Nat) (p : PartNo) (l : Nat) :
    s.levelBusy d p l = true ↔ s.lqocc d p l ≠ 0 ∨ (s.ring d p l).sqHead ≠ (s.ring d p l).sqTail := by
  simp [State.levelBusy]

theorem ringSizeOk_iff (v : W64) : ringSizeOk v = true ↔ 8 ≤ v.toNat % 32 ∧ v.toNat % 32 ≤ 20 := by
  simp [ringSizeOk]

theorem State.ringWrite_of_busy {s : State} {d : BitVec 2} {p : PartNo} {l : BitVec 3} (h : s.levelBusy d.toNat p l.toNat = true)
    (r : CfgReg) (v : W64) : s.ringWrite d p l r v = s := if_pos h

theorem State.ringWrite_of_idle {s : State} {d : BitVec 2} {p : PartNo} {l : BitVec 3} (h : ¬ s.levelBusy d.toNat p l.toNat = true)
    (r : CfgReg) (v : W64) : s.ringWrite d p l r v = s.putReg r v := if_neg h

/-- A write of a size that no ring has changes nothing. -/
theorem State.writeReg_lqsize_of_bad {s : State} {v : W64} (h : ¬ ringSizeOk v = true) (d : BitVec 2) (p : PartNo) (l : BitVec 3) :
    s.writeReg (.lqsize d p l) v = s := if_neg h
theorem State.writeReg_sqsize_of_bad {s : State} {v : W64} (h : ¬ ringSizeOk v = true) (d : BitVec 2) (p : PartNo) (l : BitVec 3) :
    s.writeReg (.sqsize d p l) v = s := if_neg h

theorem State.writeReg_lqsize_of_ok {s : State} {v : W64} (h : ringSizeOk v = true) (d : BitVec 2) (p : PartNo) (l : BitVec 3) :
    s.writeReg (.lqsize d p l) v = s.ringWrite d p l (.lqsize d p l) (v &&& 31) := if_pos h
theorem State.writeReg_sqsize_of_ok {s : State} {v : W64} (h : ringSizeOk v = true) (d : BitVec 2) (p : PartNo) (l : BitVec 3) :
    s.writeReg (.sqsize d p l) v = s.ringWrite d p l (.sqsize d p l) (v &&& 31) := if_pos h

/-- A busy level keeps its four registers. -/
theorem State.writeReg_ring_of_busy {s : State} {d : BitVec 2} {p : PartNo} {l : BitVec 3} (h : s.levelBusy d.toNat p l.toNat = true)
    (v : W64) : s.writeReg (.lqbase d p l) v = s ∧ s.writeReg (.sqbase d p l) v = s ∧ s.writeReg (.lqsize d p l) v = s ∧
      s.writeReg (.sqsize d p l) v = s := by
  refine ⟨State.ringWrite_of_busy h _ _, State.ringWrite_of_busy h _ _, ?_, ?_⟩
  · by_cases hv : ringSizeOk v = true
    · rw [State.writeReg_lqsize_of_ok hv, State.ringWrite_of_busy h]
    · exact State.writeReg_lqsize_of_bad hv d p l
  · by_cases hv : ringSizeOk v = true
    · rw [State.writeReg_sqsize_of_ok hv, State.ringWrite_of_busy h]
    · exact State.writeReg_sqsize_of_bad hv d p l

/-- The share of a partition in the pool of a Sward unit, by what is written (R204). -/
theorem State.writeReg_swshare (s : State) (d : BitVec 2) (p : PartNo) (v : W64) : s.writeReg (.swshare d p) v =
    s.putReg (.swshare d p) (if swPool < v.toNat % 2 ^ 23 then BitVec.ofNat 64 swPool else v &&& ones 23) := by
  rw [← toNat_and_ones v (by decide : 23 ≤ 64)]
  rfl

/-! ### Region tables (R392) -/

@[simp] theorem State.part_putReg (s : State) (p : PartNo) (r : CfgReg) (v : W64) : (s.putReg r v).part p = s.part p := rfl

/-- A table that passes every check is installed whole. -/
theorem execRegionTableInstallDone_of_ok {s : State} {p : PartNo} {es : List RegionEntry} (hb : (s.part p).rtBusy = true)
    (h : s.install p = .ok es) : execRegionTableInstallDone p s =
      .next (((s.modPart p fun x => { x with regions := es }).modPart p fun x => { x with rtBusy := false }).putReg (.rtstat p)
        (s.reg (.rtstat p) &&& 3 ||| 1)) := by
  simp only [execRegionTableInstallDone, hb, h, Bool.not_true, Bool.false_eq_true, if_false]

/-- A table that fails a check leaves the one in force. -/
theorem execRegionTableInstallDone_of_error {s : State} {p : PartNo} {c i : Nat} (hb : (s.part p).rtBusy = true)
    (h : s.install p = .error (c, i)) : execRegionTableInstallDone p s =
      .next ((s.modPart p fun x => { x with rtBusy := false }).putReg (.rtstat p)
        (s.reg (.rtstat p) &&& (3 : W64) ||| (2 ||| (BitVec.ofNat 64 c <<< 8) ||| (BitVec.ofNat 64 i <<< 32)))) := by
  simp only [execRegionTableInstallDone, hb, h, Bool.not_true, Bool.false_eq_true, if_false]

/-! ### The fault queue of the host (R354) -/

theorem popEntry_of_all_popped {l : List FEntry} (h : l.all FEntry.popped = true) : popEntry l = (none, l) := by
  induction l with
  | nil => rfl
  | cons e r ih =>
    obtain ⟨he, hr⟩ := Bool.and_eq_true_iff.mp (List.all_cons ▸ h)
    simp only [popEntry, he, ih hr, if_true]

/-- The first entry that is not popped is. -/
theorem popEntry_append {a r : List FEntry} {e : FEntry} (ha : a.all FEntry.popped = true) (he : e.popped = false) :
    popEntry (a ++ e :: r) = (some e.addr, a ++ { e with popped := true } :: r) := by
  induction a with
  | nil => simp [popEntry, he]
  | cons x a ih =>
    obtain ⟨hx, ha⟩ := Bool.and_eq_true_iff.mp (List.all_cons ▸ ha)
    simp only [List.cons_append, popEntry, hx, ih ha, if_true]

theorem execFqhpop_of_all_popped {s : State} {p : PartNo} {v : W64} (hv : v.getLsbD 0 = true)
    (h : (s.part p).fq.all FEntry.popped = true) :
    execFqhpop p v s = .next (s.modPart p fun x => { x with fqHres := BitVec.allOnes 64 }) := by
  simp only [execFqhpop, hv, State.popFault, popEntry_of_all_popped h, Bool.not_true, Bool.false_eq_true, if_false]

theorem execFqhpop_of_unpopped {s : State} {p : PartNo} {v : W64} {a r : List FEntry} {e : FEntry} (hv : v.getLsbD 0 = true)
    (h : (s.part p).fq = a ++ e :: r) (ha : a.all FEntry.popped = true) (he : e.popped = false) : execFqhpop p v s =
      .next (s.modPart p fun x => { x with fq := a ++ { e with popped := true } :: r, fqHres := e.addr }) := by
  simp only [execFqhpop, hv, State.popFault, h, popEntry_append ha he, Bool.not_true, Bool.false_eq_true, if_false,
    State.modPart_modPart]

/-- An answer of the host: what the named record's answer leaves, or QERR where it names none. -/
theorem State.hostAnswer_of_some {s u : State} {p : PartNo} {v : W64} {a : Answer} (h : s.answer p (v &&& ~~~127) a = some u) :
    s.hostAnswer p v a = u := by
  simp only [State.hostAnswer, h]
theorem State.hostAnswer_of_none {s : State} {p : PartNo} {v : W64} {a : Answer} (h : s.answer p (v &&& ~~~127) a = none) :
    s.hostAnswer p v a = s.putReg (.fqstat p) (s.reg (.fqstat p) ||| 1) := by
  simp only [State.hostAnswer, h]
  rfl

/-- Settles O52: by the rule of each register, the checks of a table's install, and the fault queue's first entry that is not popped. -/
theorem registersAreWritten : Obligations.RegistersAreWritten := by
  intro p t l d n v s writes keeps low clears busy answers
  have hbusy : busy ↔ s.levelBusy d.toNat p n.toNat = true := (s.levelBusy_iff _ _ _).symm
  refine ⟨rfl, rfl, rfl, rfl, rfl, rfl, rfl, rfl, fun h => ?_, fun h => ?_, rfl, rfl, rfl, rfl, fun h => ?_, fun h => ?_, fun h => ?_,
    fun h => ?_, fun h => ?_, fun hv hb => ?_, fun hb => ⟨fun es h => ?_, fun c i h => ?_⟩, fun hv => ?_, fun hv h => ?_,
    fun a e r hv hq ha he => ?_, ?_, ?_, ?_⟩
  · exact congrArg Host.Outcome.next ((s.writeReg_swshare d p v).trans (by rw [if_pos h]))
  · exact congrArg Host.Outcome.next ((s.writeReg_swshare d p v).trans (by rw [if_neg (by omega)]; rfl))
  · obtain ⟨h1, h2, h3, h4⟩ := State.writeReg_ring_of_busy (hbusy.mp h) v
    exact ⟨congrArg _ h1, congrArg _ h2, congrArg _ h3, congrArg _ h4⟩
  · have hi := mt hbusy.mpr h
    refine ⟨congrArg _ (State.ringWrite_of_idle hi _ _), congrArg _ (State.ringWrite_of_idle hi _ _), fun hv => ?_⟩
    have hv := (ringSizeOk_iff v).mpr hv
    exact ⟨congrArg _ ((State.writeReg_lqsize_of_ok hv d p n).trans (State.ringWrite_of_idle hi _ _)),
      congrArg _ ((State.writeReg_sqsize_of_ok hv d p n).trans (State.ringWrite_of_idle hi _ _))⟩
  · have hv : ¬ ringSizeOk v = true := fun hv => by have := (ringSizeOk_iff v).mp hv; omega
    exact ⟨congrArg _ (State.writeReg_lqsize_of_bad hv d p n), congrArg _ (State.writeReg_sqsize_of_bad hv d p n)⟩
  · exact congrArg Host.Outcome.next (if_pos h)
  · exact congrArg Host.Outcome.next (if_pos (by rw [h]; rfl))
  · show execRtcmd p v s = _
    simp only [execRtcmd, hv, hb, Bool.not_false, Bool.and_self, if_true]
    rfl
  · exact ⟨_, execRegionTableInstallDone_of_ok hb h, by simp, by simp⟩
  · exact ⟨_, execRegionTableInstallDone_of_error hb h, by simp, by simp⟩
  · exact if_pos (by rw [hv]; rfl)
  · exact execFqhpop_of_all_popped hv h
  · exact execFqhpop_of_unpopped hv hq ha he
  all_goals exact ⟨fun u h => congrArg _ (State.hostAnswer_of_some h), fun h => congrArg _ (State.hostAnswer_of_none h)⟩

end Sys2Proof.Machine
end

section
/-! SUPPORT. The fields of a handle, and the registers that are fixed (R23, R143, R146). -/

namespace Sys2Proof.Machine

/-- A bit of a handle after a field is put: the value's own bit inside the field, what it was outside. -/
theorem hPut_getLsbD (h : W256) {lo n : Nat} (v : Nat) (hn : lo + n ≤ 256) (i : Nat) :
    (hPut h lo n v).getLsbD i = if lo ≤ i ∧ i < lo + n then v.testBit (i - lo) else h.getLsbD i := by
  simp only [hPut, BitVec.getLsbD_or, BitVec.getLsbD_and, BitVec.getLsbD_not, BitVec.getLsbD_shiftLeft, BitVec.getLsbD_ofNat,
    Nat.testBit_two_pow_sub_one, Nat.testBit_mod_two_pow]
  by_cases h256 : i < 256
  · by_cases hlo : i < lo
    · rw [if_neg (by omega)]
      simp only [h256, BitVec.getLsbD_eq_getElem, decide_true, hlo, Bool.not_true, Bool.and_false, Bool.false_and, Bool.not_false,
        Bool.and_self, Bool.and_true, Bool.or_false]
    · by_cases hin : i - lo < n
      · rw [if_pos (by omega)]
        simp only [h256, decide_true, hlo, decide_false, Bool.not_false, Bool.and_self, show i - lo < 256 by omega, hin, Bool.not_true,
          Bool.and_false, Bool.true_and, Bool.false_or]
      · rw [if_neg (by omega)]
        simp only [h256, BitVec.getLsbD_eq_getElem, decide_true, hlo, decide_false, Bool.not_false, Bool.and_self, hin, Bool.and_false,
          Bool.and_true, Bool.false_and, Bool.or_false]
  · rw [if_neg (by omega), BitVec.getLsbD_of_ge h i (by omega)]
    simp only [h256, decide_false, Bool.false_and, Bool.not_false, Bool.and_true, Bool.and_self, Bool.or_self]

theorem hPut_getLsbD_outside (h : W256) {lo n : Nat} (v : Nat) (hn : lo + n ≤ 256) {i : Nat} (hi : i < lo ∨ lo + n ≤ i) :
    (hPut h lo n v).getLsbD i = h.getLsbD i := by
  rw [hPut_getLsbD h v hn, if_neg (by omega)]

theorem hPut_extractLsb' (h : W256) {lo n : Nat} (v : Nat) (hn : lo + n ≤ 256) :
    (hPut h lo n v).extractLsb' lo n = BitVec.ofNat n v := by
  apply BitVec.eq_of_getLsbD_eq
  intro i hi
  rw [BitVec.getLsbD_extractLsb', hPut_getLsbD h v hn, if_pos (by omega), BitVec.getLsbD_ofNat, Nat.add_sub_cancel_left]

/-- Settles O31: the bits of a field that is put, and the reading of each register file after a write. -/
theorem registersAndFieldsArePut : Obligations.RegistersAndFieldsArePut := by
  refine ⟨fun h lo n v hn => ⟨hPut_extractLsb' h v hn, fun i hi => hPut_getLsbD_outside h v hn hi⟩,
    fun x v b m r q k => ⟨rfl, rfl, rfl, rfl, rfl, rfl, fun h => ?_, fun h => ?_, fun h => ?_, fun r' h => ?_, fun q' h => ?_,
      fun k' h => ?_⟩⟩
  · rw [Slot.getS_setS, if_pos ⟨rfl, h⟩]
  · rw [Slot.getQ_setQ, if_pos ⟨rfl, h⟩]
  · rw [Slot.getK_setK, if_pos ⟨rfl, h⟩]
  · rw [Slot.getS_setS, if_neg fun e => h e.1]
  · rw [Slot.getQ_setQ, if_neg fun e => h e.1]
  · rw [Slot.getK_setK, if_neg fun e => h e.1]

end Sys2Proof.Machine
end

section
/-! SUPPORT. The frame in which a core's instruction issues: what it does where the core or the word is held, and where the instruction
goes beyond the limits of its task (R16, R66, R135, R150). -/

namespace Sys2Proof.Machine

/-- The answer is that of a group that issues; a check of the instruction's own before the limits passes outside captured bodies (R86). -/
def Framed (i : Instr) (s : State) (r : Host.Outcome State Fault Refusal) : Prop :=
  ∃ pre k, r = issuePre i s pre k ∧ (s.core.loop = none → pre s.core = none)

theorem framed_issuePre_noLoop {i : Instr} {s : State} {k : State → Res} : Framed i s (issuePre i s noLoop k) :=
  ⟨noLoop, k, rfl, fun h => by simp only [noLoop, h, Option.isSome_none, Bool.false_eq_true, if_false]⟩

theorem framed_issue {i : Instr} {s : State} {k : State → Res} : Framed i s (issue i s k) :=
  ⟨_, k, rfl, fun _ => rfl⟩

theorem framed_of_eq {i : Instr} {s : State} {k : State → Res} (r : Host.Outcome State Fault Refusal) (h : r = issue i s k) :
    Framed i s r := h ▸ framed_issue

theorem framed_of_eq_noLoop {i : Instr} {s : State} {k : State → Res} (r : Host.Outcome State Fault Refusal)
    (h : r = issuePre i s noLoop k) : Framed i s r := h ▸ framed_issuePre_noLoop

/-- Whatever a word encodes, and a defective group, issues in the frame; an event does not. -/
theorem exec_framed {i : Instr} (hi : isEvent i = false) (s : State) : Framed i s (exec i s) := by
  cases i with
  | illegalWord => exact framed_of_eq (execIllegalWord ..) rfl
  | jmp => exact framed_of_eq (execJmp ..) rfl
  | jmpr => exact framed_of_eq (execJmpr ..) rfl
  | taskDone => exact framed_of_eq (execTaskDone ..) rfl
  | yield => exact framed_of_eq (execYield ..) rfl
  | st => exact framed_of_eq (execSt ..) rfl
  | ccfg => exact framed_of_eq (execCcfg ..) rfl
  | hld => exact framed_of_eq (execHld ..) rfl
  | hst => exact framed_of_eq (execHst ..) rfl
  | hchk => exact framed_of_eq (execHchk ..) rfl
  | tcfg => exact framed_of_eq (execTcfg ..) rfl
  | vld => exact framed_of_eq (execVld ..) rfl
  | vldr => exact framed_of_eq (execVldr ..) rfl
  | vst => exact framed_of_eq (execVst ..) rfl
  | vstr => exact framed_of_eq (execVstr ..) rfl
  | vspread48 => exact framed_of_eq (execVspread48 ..) rfl
  | swpop => exact framed_of_eq (execSwpop ..) rfl
  | wld => exact framed_of_eq (execWld ..) rfl
  | wstat => exact framed_of_eq (execWstat ..) rfl
  | nop => exact framed_of_eq (execNop ..) rfl
  | crr => exact framed_of_eq (execCrr ..) rfl
  | fence => exact framed_of_eq (execFence ..) rfl
  | tlock => exact framed_of_eq (execTlock ..) rfl
  | tunlock => exact framed_of_eq (execTunlock ..) rfl
  | phase => exact framed_of_eq (execPhase ..) rfl
  | fqpop => exact framed_of_eq (execFqpop ..) rfl
  | qwait => exact framed_of_eq (execQwait ..) rfl
  | brk => exact framed_of_eq (execBrk ..) rfl
  | call => exact framed_of_eq_noLoop (execCall ..) rfl
  | callr => exact framed_of_eq_noLoop (execCallr ..) rfl
  | ret => exact framed_of_eq_noLoop (execRet ..) rfl
  | loop | loopP | loopi => exact framed_issuePre_noLoop
  | cellWaiterSatisfied | waitLimitExpiry | remoteCellRequest | remoteCellReply | parkRegister | doneRetire | matrixCommandStart
  | matrixCommandComplete | copyCommandStart | lockstepRendezvous | copyCommandComplete | copyOpenCounterStep | copySealCounterStep
  | swardAccept | swardPerform | weightCommandAccept | weightCommandStart | weightCommandComplete | scrubLine | phaseCommit
  | qwaitComplete | accessReply | loadDataReturn | sharedMemoryAccess | cellWindowAccess | bankAtomic | recordAdmission | sqtailWrite
  | submissionAdmission | heldContinuationAdmission | dispatch | contextRestoreComplete | budgetExpiry | slotSwitch | sliceExpiry
  | contextStopEnd | faultRecordWrite | contextSaveComplete | fholdExpiry | contextMoveOut | preqWrite | phaseCancellation
  | shadowWriteOutComplete | outboundSlot | inboundFrame | drawerRequest | frameBoundary | swcmt | linkLossOfLock | linkRelock
  | linkDownDeclare | linkStallTimeout | linkBroughtBackToUp | hostPostedWrite | hostRead | peerRequest | vonyxFlitReceive | pcfgWrite
  | partitionClearDone | drawerKeysPlaced | tdispError | tslotWrite | slotClearDone | cownWrite | ccfgwWrite | pwinWrite | tinvPage
  | tinvAll | invalidationDrainEnd | wownWrite | kerase | keyLoad | keyErase | unsealModel | getMeasurements | getManifest | rtcmd
  | regionTableInstallDone | fqhpop | fqansResume | fqansAbort | fqansRestart | fwVerify | fwHandover | fwCommit | fwAbandon
  | fwServiceSignal | fwServiceTimeout | fwHealthSignal | fwHealthTimeout | powerGood | startupStepComplete | governorWindow
  | thermalShutdown | coolantFlowLow | configRegisterWrite | powerLoss | tdispInterfaceRequest | spdmKeyExchange =>
    exact Bool.noConfusion hi
  | _ => exact framed_issue

theorem Framed.of_cannot {i : Instr} {s : State} {r : Host.Outcome State Fault Refusal} (h : Framed i s r)
    (hc : s.canIssue = false) : r = .next s := by
  obtain ⟨pre, k, rfl, -⟩ := h
  simp only [issuePre, hc, Bool.not_false, if_true]

theorem Framed.of_held {i : Instr} {s : State} {r : Host.Outcome State Fault Refusal} (h : Framed i s r) (hc : s.canIssue = true)
    (hw : s.interlocked s.cur (s.run s.cur) (named i) = true ∨ s.core.early s.issueCyc i = true) : r = .next (s.tick s.cur 1) := by
  obtain ⟨pre, k, rfl, -⟩ := h
  have hw : (s.interlocked s.cur (s.run s.cur) (named i) || s.core.early s.issueCyc i) = true := Bool.or_eq_true_iff.mpr hw
  simp only [issuePre, hc, hw, Bool.not_true, Bool.false_eq_true, if_false, if_true]

theorem conclude_trap (s : State) (f : FaultName) (a d : W64) : Passed (s.trap f a d) (conclude s (.trap f a d)) s.words :=
  State.tick_passed (s.trap f a d) (by simp only [State.trap, State.core_modCore, Slot.trap_hold]; rfl) _

theorem Framed.of_beyond {i : Instr} {s : State} {r : Host.Outcome State Fault Refusal} (h : Framed i s r) (hc : s.canIssue = true)
    (hf : s.interlocked s.cur (s.run s.cur) (named i) = false) (hd : s.core.early s.issueCyc i = false) (hl : s.core.loop = none)
    (hw : withinLimits s.core.header (named i) = false) : r = .next (conclude s (.trap .progResource 0 0)) := by
  obtain ⟨pre, k, rfl, hp⟩ := h
  simp only [issuePre, hc, hf, hd, hp hl, hw, Bool.not_true, Bool.or_self, Bool.false_eq_true, if_false]

/-- Settles O55: defective words by their meaning, and the rest by the frame in which every instruction issues. -/
theorem groupsTrapAtIssue : Obligations.GroupsTrapAtIssue := by
  intro i s hi
  have hframe := exec_framed hi s
  refine ⟨fun he h => ?_, fun he h => ?_, hframe.of_cannot, hframe.of_held,
    fun hc hf hd hl hw => ⟨_, hframe.of_beyond hc hf hd hl hw, conclude_trap ..⟩⟩
  · subst he
    exact traps_issue (k := fun _ => .trap .progIllegal 0 0) rfl h rfl
  · subst he
    exact traps_issue (k := fun _ => .trap .progPfx 0 0) rfl h rfl

end Sys2Proof.Machine
end

section
/-! SUPPORT. The queueing of matrix and copy commands: what a command's rule asks of registers and parameters at issue, and what its
entry into the queue leaves (R16, R95, R192, R272). -/

namespace Sys2Proof.Machine

/-! ### The shapes and tags of matrix commands (R187, R192–R202) -/

/-- The register is configured with the type. -/
def TileReg.HasType (r : TileReg) (ty : Ty) : Prop := r.conf = true ∧ r.ty = ty

/-- The register holds the metadata of n rows whose dense form has k columns (R199). -/
def TileReg.HasMeta (r : TileReg) (n k : Nat) : Prop := r.HasType .ui8 ∧ r.rows = n ∧ r.cols = (k + 7) / 8

/-- The command overwrites its accumulator, or the tag that the queue leaves there is clear or that of its type. -/
def Slot.Tagged (x : Slot) (a : AReg) (ty : Ty) (z : Bool) : Prop :=
  z = true ∨ tagAfter a x.mq (x.getA a).tag = .clear ∨ tagAfter a x.mq (x.getA a).tag = if ty = .f32 then .f32 else .i32

/-- What a matrix command's rule asks at issue. -/
def Slot.MatrixOk (x : Slot) (i : Instr) : Prop := shapeOk x i = true ∧ tagOk x i = true

theorem typed_iff (r : TileReg) (ty : Ty) : typed r ty = true ↔ r.HasType ty := by
  simp only [typed, Bool.and_eq_true, beq_iff_eq, TileReg.HasType]

theorem metaOk_iff (r : TileReg) (n k : Nat) : metaOk r n k = true ↔ r.HasMeta n k := by
  simp only [metaOk, Bool.and_eq_true, typed_iff, beq_iff_eq, and_assoc, TileReg.HasMeta]

theorem matrixOk_of_write {x : Slot} {i : Instr} {a : AReg} {ty : Ty} {z : Bool}
    (h : accWrite i = some (a, if ty = .f32 then .f32 else .i32, z)) : x.MatrixOk i ↔ shapeOk x i = true ∧ x.Tagged a ty z := by
  simp only [Slot.MatrixOk, tagOk, h, Bool.or_eq_true, beq_iff_eq, or_assoc, Slot.Tagged]

/-- A command that writes no accumulator has no tag to agree with. -/
theorem matrixOk_of_no_write {x : Slot} {i : Instr} (h : accWrite i = none) : x.MatrixOk i ↔ shapeOk x i = true := by
  simp only [Slot.MatrixOk, tagOk, h, and_true]

/-- A command that asks nothing of any register. -/
theorem matrixOk_of_always {x : Slot} {i : Instr} (hs : shapeOk x i = true) (ht : tagOk x i = true) : x.MatrixOk i ↔ True :=
  iff_true_intro ⟨hs, ht⟩

section
variable (x : Slot) (acc : AReg) (ta tb : TReg) (tya tyb ty : Ty) (z : Bool) (rnd : Rnd) (e : Eng)

theorem matrixOk_mma : x.MatrixOk (.mma acc ta tb tya tyb ty z e) ↔
    (x.getT ta).HasType tya ∧ (x.getT tb).HasType tyb ∧ (x.getT tb).cols = (x.getT ta).cols ∧ (x.getT tb).rows ≤ 128 ∧
      x.Tagged acc ty z :=
  (matrixOk_of_write rfl).trans (by simp only [shapeOk, Bool.and_eq_true, typed_iff, beq_iff_eq, decide_eq_true_eq, and_assoc])

theorem matrixOk_mmaw : x.MatrixOk (.mmaw acc ta tb tya tyb ty z e) ↔
    (x.getT ta).HasType tya ∧ hExt (x.getH (tb.setWidth 5)) 0 + 1 = (x.getT ta).cols ∧ hExt (x.getH (tb.setWidth 5)) 1 + 1 ≤ 128 ∧
      x.Tagged acc ty z :=
  (matrixOk_of_write rfl).trans (by
    simp only [shapeOk, Bool.and_eq_true, typed_iff, beq_iff_eq, decide_eq_true_eq, Nat.lt_iff_add_one_le, and_assoc])

theorem matrixOk_mmasp : x.MatrixOk (.mmasp acc ta tb tya tyb ty z e) ↔
    (x.getT ta).HasType tya ∧ (x.getT tb).HasType tyb ∧ (x.getT tb).cols = sparseCols (x.getT ta).cols ∧ (x.getT tb).rows ≤ 128 ∧
      (x.getT (tb + 1)).HasMeta (x.getT tb).rows (x.getT ta).cols ∧ x.Tagged acc ty z :=
  (matrixOk_of_write rfl).trans (by simp only [shapeOk, Bool.and_eq_true, typed_iff, metaOk_iff, beq_iff_eq, decide_eq_true_eq, and_assoc])

theorem matrixOk_mmaspw : x.MatrixOk (.mmaspw acc ta tb tya tyb ty z e) ↔
    (x.getT ta).HasType tya ∧ hExt (x.getH (tb.setWidth 5)) 0 + 1 = sparseCols (x.getT ta).cols ∧
      hExt (x.getH (tb.setWidth 5)) 1 + 1 ≤ 128 ∧
      (x.getT (tb + 1)).HasMeta (hExt (x.getH (tb.setWidth 5)) 1 + 1) (x.getT ta).cols ∧ x.Tagged acc ty z :=
  (matrixOk_of_write rfl).trans (by
    simp only [shapeOk, Bool.and_eq_true, typed_iff, metaOk_iff, beq_iff_eq, decide_eq_true_eq, Nat.lt_iff_add_one_le, and_assoc])

theorem matrixOk_mtrans : x.MatrixOk (.mtrans acc ta tya ty z e) ↔
    (x.getT ta).HasType tya ∧ (x.getT ta).rows ≤ 128 ∧ (x.getT ta).cols ≤ 128 ∧ x.Tagged acc ty z :=
  (matrixOk_of_write rfl).trans (by simp only [shapeOk, Bool.and_eq_true, typed_iff, decide_eq_true_eq, and_assoc])

theorem matrixOk_mperm : x.MatrixOk (.mperm acc ta tb tya ty z e) ↔
    (x.getT ta).HasType tya ∧ (x.getT tb).HasType .i32 ∧ (x.getT tb).rows = 1 ∧ (x.getT tb).cols ≤ 128 ∧ (x.getT ta).cols ≤ 128 ∧
      x.Tagged acc ty z :=
  (matrixOk_of_write rfl).trans (by simp only [shapeOk, Bool.and_eq_true, typed_iff, beq_iff_eq, decide_eq_true_eq, and_assoc])

theorem matrixOk_mrsum : x.MatrixOk (.mrsum acc ta tya ty z e) ↔
    (x.getT ta).HasType tya ∧ (x.getT ta).rows ≤ 128 ∧ x.Tagged acc ty z :=
  (matrixOk_of_write rfl).trans (by simp only [shapeOk, Bool.and_eq_true, typed_iff, decide_eq_true_eq, and_assoc])

theorem matrixOk_mdrain_tile : x.MatrixOk (.mdrain acc tya rnd (.tile ta) e) ↔
    (x.getT ta).HasType tya ∧ (x.getT ta).rows ≤ 128 ∧ (x.getT ta).cols ≤ 128 :=
  (matrixOk_of_no_write rfl).trans (by simp only [shapeOk, Bool.and_eq_true, typed_iff, decide_eq_true_eq, and_assoc])
end

/-! ### The parameters of copy commands (R272, R340) -/

theorem field_eq_zero_iff (p : W64) (lo n : Nat) : p.extractLsb' lo n = 0 ↔ p.toNat / 2 ^ lo % 2 ^ n = 0 := by
  rw [← BitVec.toNat_inj, BitVec.extractLsb'_toNat, Nat.shiftRight_eq_div_pow]
  rfl

theorem sizeOk_iff (p : W64) : sizeOk p = true ↔ p.toNat / 4 % 2 = 0 := by
  simp only [sizeOk, BitVec.getLsbD, Nat.testBit_eq_decide_div_mod_eq, Nat.reducePow, Bool.not_eq_eq_eq_not, Bool.not_true,
    decide_eq_false_iff_not, Nat.mod_two_not_eq_one]

theorem flat_iff (h : W256) : flat h = true ↔ hExt h 2 = 0 ∧ hExt h 3 = 0 ∧ hExt h 4 = 0 ∧ hExt h 5 = 0 := by
  simp only [flat, Bool.and_eq_true, beq_iff_eq, and_assoc]

theorem indexParamOk_iff (p : W64) (hd ha : W256) : indexParamOk p hd ha = true ↔
    p.toNat < 2 ^ 38 ∧ p.toNat % 2 ^ 18 < 4 ∧ (hExt hd 2 = 0 ∧ hExt hd 3 = 0 ∧ hExt hd 4 = 0 ∧ hExt hd 5 = 0) ∧
      (hExt ha 2 = 0 ∧ hExt ha 3 = 0 ∧ hExt ha 4 = 0 ∧ hExt ha 5 = 0) ∧ hExt hd 0 = hExt ha 0 := by
  have hbits : (((p.toNat / 4 % 2 = 0 ∧ p.toNat / 2 ^ 38 % 2 ^ 26 = 0) ∧ p.toNat / 2 ^ 3 % 2 ^ 13 = 0) ∧
      p.toNat / 2 ^ 16 % 2 ^ 2 = 0) ↔ p.toNat < 2 ^ 38 ∧ p.toNat % 2 ^ 18 < 4 := by
    have := p.isLt
    omega
  simp only [indexParamOk, Bool.and_eq_true, beq_iff_eq, sizeOk_iff, field_eq_zero_iff, hbits, flat_iff]
  simp only [and_assoc]

theorem cryptParamOk_iff (p : W64) (small big : W256) : cryptParamOk p small big = true ↔
    p.toNat < 2 ^ 38 ∧ p.toNat % 2 ^ 19 < 64 ∧ hCount small ≤ 65536 ∧ hCount big = hCount small + 48 := by
  have hbits : ((p.toNat / 2 ^ 38 % 2 ^ 26 = 0 ∧ p.toNat / 2 ^ 6 % 2 ^ 10 = 0) ∧ p.toNat / 2 ^ 16 % 2 ^ 3 = 0) ↔
      p.toNat < 2 ^ 38 ∧ p.toNat % 2 ^ 19 < 64 := by
    have := p.isLt
    omega
  simp only [cryptParamOk, Bool.and_eq_true, beq_iff_eq, decide_eq_true_eq, field_eq_zero_iff, hbits]
  simp only [and_assoc]

section
variable (p : W64) (hd ha : W256) (rd ra : HReg) (sa : SReg) (lock : Bool) (e : Eng)

theorem paramOk_copy : paramOk (.copy rd ra sa lock e) p hd ha = true ↔ p.toNat < 16 ∧ p.toNat % 8 < 4 ∧ hCount hd = hCount ha := by
  have hbits : (p.toNat / 4 % 2 = 0 ∧ p.toNat / 2 ^ 4 % 2 ^ 60 = 0) ↔ p.toNat < 16 ∧ p.toNat % 8 < 4 := by
    have := p.isLt
    omega
  simp only [paramOk, Bool.and_eq_true, beq_iff_eq, sizeOk_iff, field_eq_zero_iff, hbits]
  simp only [and_assoc]

theorem paramOk_rrot : paramOk (.rrot rd ra sa e) p hd ha = true ↔ p.toNat < 4 ∧ hCount hd = hCount ha := by
  have hbits : (p.toNat / 4 % 2 = 0 ∧ p.toNat / 2 ^ 3 % 2 ^ 61 = 0) ↔ p.toNat < 4 := by
    have := p.isLt
    omega
  simp only [paramOk, Bool.and_eq_true, beq_iff_eq, sizeOk_iff, field_eq_zero_iff, hbits]

theorem paramOk_putc : paramOk (.putc rd ra sa e) p hd ha = true ↔ p.toNat % 64 < 4 ∧ hCount hd = hCount ha := by
  have hbits : (p.toNat / 4 % 2 = 0 ∧ p.toNat / 2 ^ 3 % 2 ^ 3 = 0) ↔ p.toNat % 64 < 4 := by omega
  simp only [paramOk, Bool.and_eq_true, beq_iff_eq, sizeOk_iff, field_eq_zero_iff, hbits]
end

/-! ### Entering a queue (R16, R95) -/

theorem Slot.putQueue_hold (x : Slot) (m : Bool) (q : List Cmd) : (x.putQueue m q).hold = x.hold := by
  unfold Slot.putQueue
  split <;> rfl

/-- The state after a command took the last place of its queue, and the wait of the queue's first command was examined. -/
def State.queued (s : State) (m : Bool) (c : Cmd) : State :=
  (s.newNum.2.modCore fun x => x.putQueue m (x.queue m ++ [c])).arm s.cur (s.run s.cur) m

/-- The command that an instruction queues, with its engine fields and its operands at issue. -/
def State.command (s : State) (i : Instr) (e : Eng) (d a : W256) (v : W64) : Cmd :=
  { instr := i, hd := d, ha := a, param := v, words := s.core.gwords, addr := s.core.ipc, num := s.nextNum,
    wtaken := e.wait.isNone, phased := s.core.phase.isSome, held := e.hold && s.core.phase.isSome }

/-- The instruction queues its command under its condition, waits while the queue is full, and traps where the condition fails. -/
def Queues (s : State) (m : Bool) (i : Instr) (e : Eng) (d a : W256) (v : W64) (ok : Prop) (f : FaultName) : Prop :=
  (¬ ok → Issues i s → Traps i s f 0 0) ∧ (ok → 16 ≤ (s.core.queue m).length → Issues i s → Waits i s s) ∧
  (ok → (s.core.queue m).length < 16 → Issues i s → Completes i s (s.queued m (s.command i e d a v)) 0)

theorem Same.newNum (s : State) : Same s s.newNum.2 := ⟨rfl, rfl⟩

theorem Same.queued (s : State) (m : Bool) (c : Cmd) : Same s (s.queued m c) := by
  have hpush := (Same.newNum s).modCore fun x => x.putQueue m (x.queue m ++ [c])
  have harm : Aside s.cur (s.run s.cur) _ (s.queued m c) := Aside.arm m
  exact ⟨harm.cur.trans hpush.cur, (harm.run _).trans hpush.run⟩

theorem State.queued_hold (s : State) (m : Bool) (c : Cmd) :
    ((s.queued m c).slot s.cur (s.run s.cur)).hold = s.core.hold := by
  rw [State.queued, State.arm_hold, (Same.newNum s).slot_modCore, Slot.putQueue_hold]
  rfl

theorem enqueue_of_full {m : Bool} {mk : Cmd → Cmd} {i : Instr} {s : State} (h : 16 ≤ (s.core.queue m).length) :
    enqueue m mk i s = .hold s := if_pos h

theorem enqueue_of_room {i : Instr} {e : Eng} (he : i.eng? = some e) {m : Bool} {d a : W256} {v : W64} {s : State}
    (h : (s.core.queue m).length < 16) :
    enqueue m (fun c => { c with hd := d, ha := a, param := v }) i s = .done (s.queued m (s.command i e d a v)) 0 := by
  have hrun (u : State) (f : Slot → Slot) : (u.modCore f).run u.cur = u.run u.cur := State.run_modCore ..
  refine (if_neg (Nat.not_le.mpr h)).trans ?_
  simp only [he, Option.getD_some, State.modCore_cur, hrun]
  rfl

/-- A meaning that traps or enters a queue. -/
theorem queues_of_enqueue {s : State} {m : Bool} {i : Instr} {e : Eng} {d a : W256} {v : W64} {ok : Prop} {f : FaultName}
    {k : State → Res} (hx : exec i s = issue i s k) (he : i.eng? = some e) (hbad : ¬ ok → k s = .trap f 0 0)
    (hgood : ok → k s = enqueue m (fun c => { c with hd := d, ha := a, param := v }) i s) : Queues s m i e d a v ok f := by
  refine ⟨fun ho h => traps_issue hx h (hbad ho), fun ho hq h => ?_, fun ho hq h => ?_⟩
  · exact waits_of hx h rfl ((hgood ho).trans (enqueue_of_full hq)) .refl (by rw [State.canIssue_hold h.can]; rfl)
  · exact completes_of hx h ((hgood ho).trans (enqueue_of_room he hq)) (.queued ..) ((Same.queued ..).inert h (s.queued_hold ..))

theorem pushMatrix_queues {s : State} {i : Instr} {e : Eng} {ok : Prop} (ha : Slot → W256) (v : Slot → W64)
    (hx : exec i s = issue i s (pushMatrix i ha v)) (he : i.eng? = some e) (hok : s.core.MatrixOk i ↔ ok) :
    Queues s true i e 0 (ha s.core) (v s.core) ok .progTshape := by
  have hand : (shapeOk s.core i && tagOk s.core i) = true ↔ ok := Bool.and_eq_true_iff.trans hok
  refine queues_of_enqueue hx he (fun ho => if_pos ?_) fun ho => (if_neg ?_).trans rfl
  · rw [← Bool.not_and, Bool.eq_false_iff.mpr (mt hand.mp ho)]
    rfl
  · rw [← Bool.not_and, hand.mpr ho]
    decide

theorem pushCopy_queues {s : State} {i : Instr} {e : Eng} {ok : Prop} (hd ha : Slot → W256) (v : Slot → W64)
    (hx : exec i s = issue i s (pushCopy i hd ha v)) (he : i.eng? = some e)
    (hok : paramOk i (v s.core) (hd s.core) (ha s.core) = true ↔ ok) :
    Queues s false i e (hd s.core) (ha s.core) (v s.core) ok .progCarg := by
  refine queues_of_enqueue hx he (fun ho => if_pos ?_) fun ho => if_neg ?_
  · rw [Bool.eq_false_iff.mpr (mt hok.mp ho)]
    rfl
  · rw [hok.mpr ho]
    decide

/-- Settles O39: each command is checked as its rule asks and then enters its queue. -/
theorem commandsAreQueued : Obligations.CommandsAreQueued := by
  intro acc ta tb tya tyb ty z lock rnd op size hd ha sa e s
  exact ⟨pushMatrix_queues (·.getH ha) noScalar rfl rfl (matrixOk_of_no_write rfl),
    pushMatrix_queues noHandle (·.getS sa) rfl rfl (matrixOk_of_no_write rfl),
    pushMatrix_queues (·.getH ha) noScalar rfl rfl (matrixOk_of_no_write rfl),
    pushMatrix_queues noHandle noScalar rfl rfl (matrixOk_mma ..),
    pushMatrix_queues (·.getH (tb.setWidth 5)) noScalar rfl rfl (matrixOk_mmaw ..),
    pushMatrix_queues noHandle noScalar rfl rfl (matrixOk_mmasp ..),
    pushMatrix_queues (·.getH (tb.setWidth 5)) noScalar rfl rfl (matrixOk_mmaspw ..),
    pushMatrix_queues noHandle noScalar rfl rfl (matrixOk_mtrans ..),
    pushMatrix_queues noHandle noScalar rfl rfl (matrixOk_mperm ..),
    pushMatrix_queues noHandle noScalar rfl rfl (matrixOk_mrsum ..),
    pushMatrix_queues noHandle noScalar rfl rfl (matrixOk_of_always rfl rfl),
    pushMatrix_queues noHandle noScalar rfl rfl (matrixOk_mdrain_tile ..),
    pushMatrix_queues (·.getH ha) noScalar rfl rfl (matrixOk_of_always rfl rfl),
    pushMatrix_queues noHandle noScalar rfl rfl (matrixOk_of_always rfl rfl),
    pushCopy_queues (·.getH hd) (·.getH ha) (·.getS sa) rfl rfl (paramOk_copy ..),
    pushCopy_queues (·.getH hd) (·.getH ha) (·.getS sa) rfl rfl (indexParamOk_iff ..),
    pushCopy_queues (·.getH hd) (·.getH ha) (·.getS sa) rfl rfl (indexParamOk_iff ..),
    pushCopy_queues (·.getH hd) noHandle (·.getS sa) rfl rfl (iff_true_intro rfl),
    pushCopy_queues (·.getH hd) (·.getH ha) noScalar rfl rfl beq_iff_eq,
    pushCopy_queues (·.getH hd) (·.getH ha) (·.getS sa) rfl rfl (paramOk_putc ..),
    pushCopy_queues (·.getH hd) (·.getH ha) (·.getS sa) rfl rfl (paramOk_rrot ..),
    pushCopy_queues (·.getH hd) (·.getH ha) (·.getS sa) rfl rfl (cryptParamOk_iff ..),
    pushCopy_queues (·.getH hd) (·.getH ha) (·.getS sa) rfl rfl (cryptParamOk_iff ..),
    pushCopy_queues noHandle noHandle noScalar rfl rfl (iff_true_intro rfl)⟩

end Sys2Proof.Machine
end

section
/-! SUPPORT. Every instruction's round trip through the encoder and the decoder, from the lemmas per instruction (R24–R45). -/

namespace Sys2Proof.Laws.RoundTrip

/-- What the encoder gives a well-formed instruction decodes to it: an encoded instruction by its own lemma, in the order of the units;
what is left has no encoding. -/
theorem statement_of_instr (i : Instr) : Statement i := by
  cases i with
  | add => apply add | sub => apply sub | mul => apply mul | mulh => apply mulh | div => apply div | divu => apply divu
  | rem => apply rem | remu => apply remu | and => apply and | or => apply or | xor => apply xor | shl => apply shl
  | shr => apply shr | sar => apply sar | min => apply min | max => apply max | minu => apply minu | maxu => apply maxu
  | slt => apply slt | sltu => apply sltu | clz => apply clz | popc => apply popc
  | addi => apply addi | muli => apply muli | andi => apply andi | ori => apply ori | xori => apply xori
  | slti => apply slti | sltiu => apply sltiu | li => apply li | shli => apply shli | shri => apply shri
  | sari => apply sari | bfx => apply bfx | bfi => apply bfi | mka => apply mka
  | br => apply br | bqT => apply bqT | bqF => apply bqF | jmp => apply jmp | jmpr => apply jmpr | call => apply call
  | callr => apply callr | ret => apply ret | loop => apply loop | loopP => apply loopP | loopi => apply loopi
  | qset => apply qset
  | ld => apply ld | lds => apply lds | st => apply st | aadd => apply aadd | aand => apply aand | aor => apply aor
  | axor => apply axor | amin => apply amin | amax => apply amax | aminu => apply aminu | amaxu => apply amaxu
  | afadd => apply afadd | afmin => apply afmin | afmax => apply afmax | aswp => apply aswp | acas => apply acas
  | wait => apply wait | take => apply take | trytake => apply trytake | sig => apply sig | arrive => apply arrive
  | cset => apply cset | crd => apply crd | ccfg => apply ccfg | cclr => apply cclr | spawn => apply spawn
  | spawnb => apply spawnb | park => apply park | taskDone => apply taskDone | yield => apply yield | widf => apply widf
  | hld => apply hld | hst => apply hst | hmov => apply hmov | hsetb => apply hsetb | hsetd => apply hsetd
  | hsets => apply hsets | hadv => apply hadv | hget => apply hget | hchk => apply hchk | hclr => apply hclr
  | tcfg => apply tcfg
  | vadd => apply vadd | vsub => apply vsub | vmul => apply vmul | vfma => apply vfma | vfms => apply vfms
  | vfnma => apply vfnma | vmin => apply vmin | vmax => apply vmax | vsel => apply vsel | vabs => apply vabs
  | vneg => apply vneg | vadds => apply vadds | vsubs => apply vsubs | vand => apply vand | vor => apply vor
  | vxor => apply vxor | vandn => apply vandn | vshl => apply vshl | vshr => apply vshr | vsar => apply vsar
  | vclamp => apply vclamp | vscale => apply vscale | vrint => apply vrint | vpopc => apply vpopc | vcmpeq => apply vcmpeq
  | vcmpne => apply vcmpne | vcmplt => apply vcmplt | vcmple => apply vcmple | vcvt => apply vcvt | vmovi => apply vmovi
  | vbcs => apply vbcs | vexp2 => apply vexp2 | vlog2 => apply vlog2 | vrcp => apply vrcp | vrsq => apply vrsq
  | vsqrt => apply vsqrt | vtanh => apply vtanh | vsinpi => apply vsinpi | vcospi => apply vcospi | vhash => apply vhash
  | vld => apply vld | vst => apply vst | vldr => apply vldr | vstr => apply vstr | vmov => apply vmov
  | vext => apply vext | vins => apply vins | vrotr => apply vrotr | vbcr => apply vbcr | vrotc => apply vrotc
  | vbcc => apply vbcc | vredr => apply vredr | vredc => apply vredc | vpermr => apply vpermr | kand => apply kand
  | kor => apply kor | kxor => apply kxor | knot => apply knot | kpopc => apply kpopc | kfirst => apply kfirst
  | vargmaxr => apply vargmaxr | vargmaxc => apply vargmaxc | vargminr => apply vargminr | vargminc => apply vargminc
  | vtopk => apply vtopk | vtopkm => apply vtopkm | vpart => apply vpart | vbucket => apply vbucket
  | vprune48 => apply vprune48 | vspread48 => apply vspread48 | vcompress => apply vcompress | vexpand => apply vexpand
  | tld => apply tld | tldw => apply tldw | tst => apply tst | mma => apply mma | mmaw => apply mmaw
  | mmasp => apply mmasp | mmaspw => apply mmaspw | mtrans => apply mtrans | mperm => apply mperm | mrsum => apply mrsum
  | mzero => apply mzero | mdrain => apply mdrain | mnop => apply mnop
  | copy => apply copy | gath => apply gath | scat => apply scat | fill => apply fill | reda => apply reda
  | putc => apply putc | rrot => apply rrot | copySeal => apply copySeal | copyOpen => apply copyOpen | cnop => apply cnop
  | swopen => apply swopen | swapp => apply swapp | swqry => apply swqry | swpop => apply swpop | swevt => apply swevt
  | swsave => apply swsave | swload => apply swload | swclose => apply swclose
  | wld => apply wld | wprog => apply wprog | wprogs => apply wprogs | wfree => apply wfree | wmeas => apply wmeas
  | wscrub => apply wscrub | wchk => apply wchk | wstat => apply wstat
  | nop => apply nop | crr => apply crr | crw => apply crw | fence => apply fence | tlock => apply tlock
  | tunlock => apply tunlock | phase => apply phase | fqpop => apply fqpop | fresume => apply fresume
  | fabort => apply fabort | frestart => apply frestart | qwait => apply qwait | brk => apply brk
  | _ => exact Sys2Proof.RoundTrip.event fun _ => rfl

/-- Settles O56: each instruction's round trip. -/
theorem decodeEncode : Obligations.DecodeEncode :=
  fun i g w hw hg he => statement_of_instr i hw g w hg he

end Sys2Proof.Laws.RoundTrip
end

section
/-! SUPPORT. What a core's move does, by what its fetch and decoding give (R25, R42), and the fetch of a word of the core's own half
(R47, R84). -/

namespace Sys2Proof.Machine

/-! ### Words of the core's own half -/

/-- An access of home 0x00 that passes the checks at its tile lies in the half. -/
theorem spaceOf_own_of_tileCheck {s : State} {h : W512} {p : PartNo} {va : W64} {n : Nat} {wr atomic : Bool} (hv : homeBits va = 0)
    (hc : s.tileCheck h p va n wr atomic = none) : spaceOf va = .own (offBits va) := by
  have hs := spaceOf_zero hv
  split at hs
  · exact hs
  · rw [tileCheck_reserved hs] at hc
    cases hc

/-- A read of the own half that passes its check and meets no poison gives the bytes there, and changes nothing. -/
theorem readNow_own {s : State} {h : W512} {t b n : Nat} {p : PartNo} {va : W64} (hv : homeBits va = 0)
    (hc : s.tileCheck h p va n false false = none) (hp : s.isPoisoned (halfKey t b + offBits va) n = false) :
    s.readNow h t b p va n = (.ok (s.readMem (halfKey t b + offBits va) n), s) := by
  have hs := spaceOf_own_of_tileCheck hv hc
  have ha : s.homeAccept t b p va n = (.ok (.mem (halfKey t b + offBits va)), s) := by rw [State.homeAccept, hs]
  simp only [State.readNow, hc, ha, hs, hp]
  rfl

/-- Outside a captured body, a word of the own half is fetched by a plain load. -/
theorem fetchWord_own {s : State} {t b : Nat} {va : W64} (hl : (s.slot t b).loop = none) (hv : homeBits va = 0)
    (hc : s.tileCheck (s.slot t b).header (s.slot t b).part va 8 false false = none)
    (hp : s.isPoisoned (halfKey t b + offBits va) 8 = false) :
    s.fetchWord t b va = (.ok (BitVec.ofNat 64 (s.readMem (halfKey t b + offBits va) 8)), s) := by
  simp only [State.fetchWord, hl, readNow_own hv hc hp]

/-! ### A group without prefixes -/

theorem fetchWords_of_fetchWord {s u : State} {t b n : Nat} {va w : W64} (hf : s.fetchWord t b va = (.ok w, u))
    (hw : isPfx w = false) : s.fetchWords t b va (n + 1) = (.ok [w], u, va) := by
  simp only [State.fetchWords, hf, hw]
  rfl

theorem decodeGroup_of_decodeWord {w : W64} {i : Instr} (hw : isPfx w = false) (hd : decodeWord w = some i) :
    decodeGroup [w] = .ok ⟨wGuard w, i, [w]⟩ := by
  have hgroup : groupWords 3 [w] = [w] := by simp only [groupWords, hw]; rfl
  rw [← hgroup]
  exact (decode_one hw hd).trans (by rw [hgroup])

/-! ### A core's move -/

section
variable {t : Nat} {s u w : State} {ws : List W64} {va : W64}

theorem step_of_core {rest : List Move} (ha : s.agenda = .core t :: rest) (hp : s.powered = true) :
    step s = coreMove t { s with agenda := rest } := by
  simp only [step, ha, hp]
  rfl

theorem coreMove_of_not_canIssue (hu : { s with cur := t } = u) (hc : u.canIssue = false) : coreMove t s = .next (u.tick t 1) := by
  simp only [coreMove, nextGroup, hu, hc]
  rfl

variable (hu : { s with cur := t } = u) (hc : u.canIssue = true)
include hu hc

theorem coreMove_of_fault {f : FaultName} (hf : u.fetchWords t (u.run t) u.core.pc 4 = (.fault f, w, va)) :
    coreMove t s = .next ((w.modCore fun z => { z with ipc := z.pc, gwords := [] }.trap f va 0).tick t 1) := by
  simp only [coreMove, nextGroup, hu, hc, hf]
  rfl

variable (hf : u.fetchWords t (u.run t) u.core.pc 4 = (.ok ws, w, va))
include hf

theorem coreMove_of_defect {d : Defect} (hd : decodeGroup ws = .error d) :
    coreMove t s = exec (.illegalWord d) (w.modCore fun z => z.issuing ws) := by
  simp only [coreMove, nextGroup, hu, hc, hf, hd]
  rfl

variable {g : Group} (hd : decodeGroup ws = .ok g)
include hd

theorem coreMove_of_guardMet (hg : (w.modCore fun z => z.issuing ws).core.guardMet g.guard = true) :
    coreMove t s = exec g.instr (w.modCore fun z => z.issuing ws) := by
  simp only [coreMove, nextGroup, hu, hc, hf, hd, hg]
  rfl

theorem coreMove_of_not_guardMet (hg : (w.modCore fun z => z.issuing ws).core.guardMet g.guard = false) :
    coreMove t s = .next (((w.modCore fun z => z.issuing ws).modCore Slot.advance).tick t ws.length) := by
  simp only [coreMove, nextGroup, hu, hc, hf, hd, hg]
  rfl
end

/-- Settles O58: by what the fetch of the core's next group gives, and how the group decodes. -/
theorem stepRunsDecodedInstruction : Obligations.StepRunsDecodedInstruction := by
  intro t rest s ha hp u b x
  have hu : { { s with agenda := rest } with cur := t } = u := rfl
  rw [step_of_core ha hp]
  refine ⟨coreMove_of_not_canIssue hu, fun hc => ⟨fun ws w va hf => ⟨fun g => coreMove_of_guardMet hu hc hf,
    fun g => coreMove_of_not_guardMet hu hc hf, fun d => coreMove_of_defect hu hc hf⟩, fun f w va => coreMove_of_fault hu hc, ?_⟩⟩
  intro hl hv ht hn w hw i hd hg
  have hf : u.fetchWords t b x.pc 4 = (.ok [w], u, x.pc) := fetchWords_of_fetchWord (fetchWord_own hl hv ht hn) hw
  exact coreMove_of_guardMet hu hc hf (decodeGroup_of_decodeWord hw hd) (by rwa [State.core_modCore])

end Sys2Proof.Machine
end

section
/-! SUPPORT. How records enter the level rings: what the admission of an arrival, of a submission and of a held continuation comes to,
check by check (R61, R68, R69, R97, R300). -/

namespace Sys2Proof.Machine

/-! ### Taking a place in a ring (R68) -/

theorem State.enqueue_tail (s : State) (d : Nat) (p : PartNo) (r : W512) :
    s.enqueue d p r false = s.modRing d p (recLevel r) fun x => { x with recs := (s.ring d p (recLevel r)).recs ++ [⟨r, 0, none⟩] } :=
  rfl

theorem State.enqueue_head (s : State) (d : Nat) (p : PartNo) (r : W512) :
    s.enqueue d p r true = s.modRing d p (recLevel r) fun x => { x with recs := ⟨r, 0, none⟩ :: (s.ring d p (recLevel r)).recs } :=
  rfl

/-! ### New work (R68, R97, R300) -/

section
variable {s : State} {d : Nat} {p : PartNo} {r : W512}

theorem State.admitNew_of_disabled (he : (s.part p).en = false) : s.admitNew d p r = (1, s) := by
  simp only [State.admitNew, he, Bool.not_false, if_true]

variable (he : (s.part p).en = true)
include he

theorem State.admitNew_of_fault {f : FaultName} (hf : recordFault r = some f) :
    s.admitNew d p r = (2, s.quarantine d p (recLevel r) r 0 f) := by
  simp only [State.admitNew, he, hf, Bool.not_true, Bool.false_eq_true, if_false]

variable (hf : recordFault r = none)
include hf

theorem State.admitNew_of_full (hl : s.full d p (recLevel r) = true) : s.admitNew d p r = (1, s) := by
  simp only [State.admitNew, he, hf, hl, Bool.not_true, Bool.false_eq_true, if_false, if_true]

theorem State.admitNew_of_room (hl : s.full d p (recLevel r) = false) : s.admitNew d p r = (0, s.enqueue d p r false) := by
  simp only [State.admitNew, he, hf, hl, Bool.not_true, Bool.false_eq_true, if_false]
end

/-! ### A continuation from a peer (R68, R300) -/

section
variable {s : State} {a : Arrival} (hv : a.via = .peer)
include hv

theorem State.land_of_disabled (he : (s.part a.part).en = false) : s.land a = s := by
  simp only [State.land, State.landed, hv, he, Bool.not_false, if_true]

variable (he : (s.part a.part).en = true)
include he

theorem State.land_of_fault {f : FaultName} (hf : recordFault a.crec = some f) :
    s.land a = s.quarantine a.die a.part (recLevel a.crec) a.crec 0 f := by
  simp only [State.land, State.landed, hv, he, hf, Bool.not_true, Bool.false_eq_true, if_false]

variable (hf : recordFault a.crec = none)
include hf

theorem State.land_of_room (hl : s.full a.die a.part (recLevel a.crec) = false) (hh : (s.ring a.die a.part (recLevel a.crec)).held = []) :
    s.land a = s.enqueue a.die a.part a.crec false := by
  simp only [State.land, State.landed, hv, he, hf, hl, hh, Bool.not_true, List.isEmpty_nil, Bool.or_false, Bool.false_eq_true, if_false]

omit hv in
theorem State.land_of_full (hl : s.full a.die a.part (recLevel a.crec) = true) :
    s.land a = (lqBit s a.die a.part (recLevel a.crec) 2).modRing a.die a.part (recLevel a.crec) fun x => { x with held := x.held ++ [a] } := by
  simp only [State.land, he, hf, hl, Bool.not_true, Bool.true_or, Bool.false_eq_true, if_false, if_true]
end

/-! ### The next arrival of a die (R69) -/

theorem exec_recordAdmission {d i : Nat} {a : Arrival} {s : State} (hn : nextArrival d s.arrivals = some i) (ha : s.arrivals[i]? = some a) :
    exec (.recordAdmission d) s = .next ({ s with arrivals := s.arrivals.eraseIdx i }.admitRecord a) := by
  show execRecordAdmission d s = _
  simp only [execRecordAdmission, hn, ha]

theorem State.admitRecord_spawn {s u : State} {a : Arrival} {t b n : Nat} {sd : SReg} (hv : a.via = .spawn t b sd)
    (h : s.admitNew a.die a.part a.crec = (n, u)) : s.admitRecord a = u.status t b sd n := by
  simp only [State.admitRecord, hv, h]

theorem State.admitRecord_head {s : State} {a : Arrival} {t : Nat} (hv : a.via = .head t) : s.admitRecord a = s.admitContext a true := by
  simp only [State.admitRecord, hv]

theorem State.admitRecord_tail {s : State} {a : Arrival} (hv : a.via = .tail) : s.admitRecord a = s.admitContext a false := by
  simp only [State.admitRecord, hv]

theorem State.admitRecord_peer {s : State} {a : Arrival} (hv : a.via = .peer) : s.admitRecord a = s.land a := by
  simp only [State.admitRecord, hv]

/-! ### Submission rings and held continuations (R61, R68) -/

/-- The place of an index of a submission ring behind the head in force. -/
def State.sqBack (s : State) (d : Nat) (p : PartNo) (l : BitVec 3) (i : Nat) : Nat :=
  (i + 2 ^ 20 - (s.ring d p l.toNat).sqHead) % s.sqLen d p l.toNat

/-- The physical key of the record at the head of a submission ring. -/
def State.sqKey (s : State) (d : Nat) (p : PartNo) (l : BitVec 3) : Nat :=
  homeKey (1 + d) ((s.reg (.sqbase (BitVec.ofNat 2 d) p l)).toNat % 2 ^ 26 / 64 * 64 +
    64 * ((s.ring d p l.toNat).sqHead % s.sqLen d p l.toNat))

/-- The record at the head is taken. -/
def State.sqTaken (s : State) (d : Nat) (p : PartNo) (l : BitVec 3) : State :=
  s.modRing d p l.toNat fun x => { x with sqHead := (x.sqHead + 1) % 2 ^ 20 }

section
variable {s : State} {d : Nat} {p : PartNo} {l : BitVec 3} (hd : d < 4)
include hd

theorem exec_sqtailWrite_of_behind {v : W64} (h : s.sqBack d p l (v.toNat % 2 ^ 20) < s.sqBack d p l (s.ring d p l.toNat).sqTail) :
    exec (.sqtailWrite p d l v) s = .next (lqBit s d p l.toNat 1) := by
  show execSqtailWrite p d l v s = _
  simp only [execSqtailWrite, Config.dies, Nat.mod_eq_of_lt hd]
  exact if_pos h

theorem exec_sqtailWrite_of_ahead {v : W64} (h : s.sqBack d p l (s.ring d p l.toNat).sqTail ≤ s.sqBack d p l (v.toNat % 2 ^ 20)) :
    exec (.sqtailWrite p d l v) s = .next (s.modRing d p l.toNat fun x => { x with sqTail := v.toNat % 2 ^ 20 }) := by
  show execSqtailWrite p d l v s = _
  simp only [execSqtailWrite, Config.dies, Nat.mod_eq_of_lt hd]
  exact if_neg (Nat.not_lt.mpr h)

/-- An enabled partition with room at the level takes the record at the head of a submission ring that holds one. -/
theorem exec_submissionAdmission (hn : s.sqBack d p l (s.ring d p l.toNat).sqTail ≠ 0) (he : (s.part p).en = true)
    (hl : s.full d p l.toNat = false) : exec (.submissionAdmission p d l) s =
      if (s.sqTaken d p l).isPoisoned (s.sqKey d p l) 64 then
        .next ((s.sqTaken d p l).quarantine d p l.toNat (s.recordAt (s.sqKey d p l)) 0 .hwPoison)
      else match recordFault (s.recordAt (s.sqKey d p l)) with
        | some f => .next ((s.sqTaken d p l).quarantine d p l.toNat (s.recordAt (s.sqKey d p l)) 0 f)
        | none =>
          if recLevel (s.recordAt (s.sqKey d p l)) ≠ l.toNat then
            .next ((s.sqTaken d p l).quarantine d p l.toNat (s.recordAt (s.sqKey d p l)) 0 .progRecord)
          else .next ((s.sqTaken d p l).enqueue d p (s.recordAt (s.sqKey d p l)) false) := by
  have hn' : ¬ (decide (s.sqBack d p l (s.ring d p l.toNat).sqTail = 0) || !(s.part p).en || s.full d p l.toNat) = true := by
    simp [hn, he, hl]
  show execSubmissionAdmission p d l s = _
  simp only [execSubmissionAdmission, Config.dies, Nat.mod_eq_of_lt hd]
  exact if_neg hn'

theorem exec_heldContinuationAdmission {a : Arrival} {rest : List Arrival} (hh : (s.ring d p l.toNat).held = a :: rest)
    (hl : s.full d p l.toNat = false) (hv : a.via = .peer) : exec (.heldContinuationAdmission p d l) s =
      .next ((s.modRing d p l.toNat fun x => { x with held := rest }).enqueue d p a.crec false) := by
  show execHeldContinuationAdmission p d l s = _
  simp only [execHeldContinuationAdmission, Config.dies, Nat.mod_eq_of_lt hd, hh, hl, hv, State.landed, Bool.false_eq_true, if_false]
end

/-- Settles O20: an arrival by the way it comes, then a submission and a held continuation, each by its checks in their order. -/
theorem workIsAdmitted : Obligations.WorkIsAdmitted := by
  refine ⟨fun d i a s hn ha => ?_, fun p d l v s hd => ?_⟩
  · intro u p l r adm status enters one
    have hadm : adm = .next (u.admitRecord a) := exec_recordAdmission hn ha
    refine ⟨fun t b sd hv => ?_, fun t hv => ?_, fun hv => ?_, fun hv => ?_⟩
    · have spawned {n : Nat} {w : State} (h : u.admitNew a.die p a.crec = (n, w)) : adm = .next (w.status t b sd n) :=
        hadm.trans (congrArg _ (State.admitRecord_spawn hv h))
      refine ⟨fun he => spawned (State.admitNew_of_disabled he), fun he => ⟨fun f hf => spawned (State.admitNew_of_fault he hf),
        fun hf => ⟨fun hl => spawned (State.admitNew_of_full he hf hl), fun hl => ?_⟩⟩⟩
      exact (spawned (State.admitNew_of_room he hf hl)).trans (by rw [State.enqueue_tail]; rfl)
    · rw [hadm, State.admitRecord_head hv, State.admitContext, State.enqueue_head]; rfl
    · rw [hadm, State.admitRecord_tail hv, State.admitContext, State.enqueue_tail]; rfl
    · rw [hadm, State.admitRecord_peer hv]
      refine ⟨fun he => congrArg _ (State.land_of_disabled hv he), fun he => ⟨fun f hf => congrArg _ (State.land_of_fault hv he hf),
        fun hf => ⟨fun hl hh => ?_, fun hl => congrArg _ (State.land_of_full he hf hl)⟩⟩⟩
      rw [State.land_of_room hv he hf hl hh, State.enqueue_tail]
  · intro n r back tail k w u sub
    refine ⟨exec_sqtailWrite_of_behind hd, exec_sqtailWrite_of_ahead hd, fun hn he hl => ?_, fun a rest => exec_heldContinuationAdmission hd⟩
    have hsub : sub = _ := exec_submissionAdmission hd hn he hl
    refine ⟨fun hp => hsub.trans (if_pos hp), fun hp => ?_⟩
    have hsub := hsub.trans (if_neg (Bool.not_eq_true _ ▸ hp))
    refine ⟨fun f hf => ?_, fun hf hw => ?_, fun hf hw => ?_⟩
    · exact hsub.trans (by rw [show recordFault (s.recordAt (s.sqKey d p l)) = some f from hf]; rfl)
    · exact hsub.trans (by rw [show recordFault (s.recordAt (s.sqKey d p l)) = none from hf]; exact if_pos hw)
    · exact hsub.trans (by rw [show recordFault (s.recordAt (s.sqKey d p l)) = none from hf]; exact if_neg fun h => h hw)

end Sys2Proof.Machine
end

section
/-! SUPPORT. What begins and what ends the stop of a context (R75, R302, R351–R359). -/

namespace Sys2Proof.Machine

/-! ### Changes of a slot -/

/-- Two changes of a slot are one. -/
theorem State.modSlot_modSlot (s : State) (t b : Nat) (f g : Slot → Slot) :
    (s.modSlot t b f).modSlot t b g = s.modSlot t b fun x => g (f x) := by
  simp only [State.modSlot, State.modTile, State.tile_putTile_same, Tile.slot_putSlot_same, Tile.putSlot_putSlot]
  simp only [State.putTile, tput_tput]

@[simp] theorem State.slot_dropWaiter (s : State) (t : Nat) (w : Who) (u c : Nat) : (s.dropWaiter t w).slot u c = s.slot u c := by
  simp only [State.dropWaiter, State.slot, State.tile_modTile]
  split
  · next h => subst h; rfl
  · rfl

@[simp] theorem State.slot_pushRecord (s : State) (f : FRec) (u c : Nat) : (s.pushRecord f).slot u c = s.slot u c := rfl

/-! ### What stops a running context (R75, R302, R357) -/

theorem Slot.beginStop_busy {x : Slot} (h : x.st = .busy) (w : Stop) : x.beginStop w = { x with st := .stopping w } := by
  simp only [Slot.beginStop, h]

/-- A context that runs begins to stop. -/
theorem State.modSlot_beginStop {s : State} {t b : Nat} (h : (s.slot t b).st = .busy) (w : Stop) :
    s.modSlot t b (fun x => x.beginStop w) = s.modSlot t b fun x => { x with st := .stopping w } :=
  s.modSlot_congr t b (Slot.beginStop_busy h w)

theorem exec_budgetExpiry {s : State} {t : Nat} (hi : (s.tile t).idle = false) (ht : (s.slot t (s.run t)).task.isSome = true)
    (hb : (s.slot t (s.run t)).budg = 0) :
    exec (.budgetExpiry t) s = .next (s.modSlot t (s.run t) fun x => x.beginStop .budget) := by
  show execBudgetExpiry t s = _
  simp only [execBudgetExpiry, hi, ht, hb, Bool.not_false, Bool.and_self, beq_self_eq_true, if_true]

theorem exec_sliceExpiry {s : State} {t : Nat} (hi : (s.tile t).idle = false) (hn : (s.reg (.tslice t)).toNat % 2 ^ 32 ≠ 0)
    (hr : (s.reg (.tslice t)).toNat % 2 ^ 32 ≤ (s.slot t (s.run t)).ran)
    (hw : ∀ k < 2, s.eligible t k = true ∧ (s.slot t k).task.isSome = true) :
    exec (.sliceExpiry t) s = .next (s.modSlot t (s.run t) fun x => x.beginStop .switch) := by
  have works {k : Nat} (hk : k < 2) : (s.eligible t k && (s.slot t k).task.isSome) = true := Bool.and_eq_true_iff.mpr (hw k hk)
  exact if_pos ⟨hn, by rw [hi]; rfl, works (by decide), works (by decide), hr⟩

theorem exec_fholdExpiry {s : State} {t : Nat} {b : Bool} (hf : (s.slot t (if b then 1 else 0)).st = .faulted)
    (hn : (s.reg (.fhold t)).toNat % 2 ^ 32 ≠ 0) (hw : (s.reg (.fhold t)).toNat % 2 ^ 32 ≤ (s.slot t (if b then 1 else 0)).waited) :
    exec (.fholdExpiry t b) s = .next (s.modSlot t (if b then 1 else 0) fun x => { x with moveDue := true }) :=
  if_pos ⟨hf, hn, hw⟩

/-! ### PREQ (R357) -/

/-- A PREQ that names one slot. -/
theorem exec_preqWrite {s : State} {t : Nat} {b : Bool} {v : W64} (h0 : v.getLsbD 0 = !b) (h1 : v.getLsbD 1 = b) :
    exec (.preqWrite t v) s = .next (s.preempt t (if b then 1 else 0)) := by
  show execPreqWrite t v s = _
  cases b <;> simp only [execPreqWrite, h0, h1, Bool.not_false, Bool.not_true, Bool.false_eq_true, if_true, if_false]

section
variable {s : State} {t b : Nat} (ht : (s.slot t b).task.isSome = true)
include ht

theorem State.preempt_of_faulted (hf : (s.slot t b).st = .faulted) :
    s.preempt t b = s.modSlot t b fun x => { x with moveDue := true } := by
  simp only [State.preempt, Option.isNone_eq_false_iff.mpr ht, hf, Bool.false_eq_true, if_false]

theorem State.preempt_of_running (hb : (s.slot t b).st = .busy) (hi : (s.tile t).idle = false) (hr : s.run t = b) :
    s.preempt t b = s.modSlot t (s.run t) fun x => { x with st := .stopping .preempt } := by
  subst hr
  rw [← State.modSlot_beginStop hb]
  simp only [State.preempt, Option.isNone_eq_false_iff.mpr ht, hb, hi, Bool.not_false, beq_self_eq_true, Bool.and_self,
    Bool.false_eq_true, if_false, if_true]

theorem State.preempt_of_waiting (hb : (s.slot t b).st = .busy) (hr : (s.tile t).idle = true ∨ s.run t ≠ b) :
    s.preempt t b = s.modSlot t b fun x => { x with st := .saving .preempt } := by
  have hn : (!(s.tile t).idle && s.run t == b) = false := by
    rcases hr with hi | hr
    · rw [hi]; rfl
    · rw [beq_eq_false_iff_ne.mpr hr, Bool.and_false]
  simp only [State.preempt, Option.isNone_eq_false_iff.mpr ht, hb, hn, Bool.false_eq_true, if_false]
end

/-! ### The end of a stop (R351, R352) -/

/-- No access is in flight, and no copy command has started. -/
def Slot.quiet (x : Slot) : Prop := x.accs = [] ∧ x.cq.all (fun q => !q.started) = true

/-- There is nothing to drain. -/
theorem State.drainContext_of_quiet {s : State} {t b : Nat} (h : (s.slot t b).quiet) : s.drainContext t b = s := by
  obtain ⟨ha, hq⟩ := h
  have hs : (s.slot t b).cq.filter (fun c => c.started) = [] :=
    List.filter_eq_nil_iff.mpr fun c hc => by simpa using List.all_eq_true.mp hq c hc
  simp only [State.drainContext, ha, List.length_nil, State.finishAccesses, State.finishChunks, hs, List.foldl_nil]

/-- A context that is held on nothing ends its stop once there is nothing to drain. -/
theorem exec_contextStopEnd {s : State} {t : Nat} {b : Bool} {w : Stop} (hq : (s.slot t (if b then 1 else 0)).quiet)
    (hh : (s.slot t (if b then 1 else 0)).hold = .none) (hs : (s.slot t (if b then 1 else 0)).st = .stopping w) :
    exec (.contextStopEnd t b) s = .next (s.afterStop t (if b then 1 else 0) w) := by
  show execContextStopEnd t b s = _
  simp only [execContextStopEnd, hs, Slot.mayStop, hh, State.drainContext_of_quiet hq, Bool.not_true, Bool.false_eq_true, if_false,
    if_true]

/-- What a fault's stop makes of the slot (R351, R352). -/
def Slot.heldOn (x : Slot) (f : FaultInfo) : Slot := { x with hold := .none, st := .faulted, waited := 0 }.clearPending f

theorem Slot.heldOn_st (x : Slot) (f : FaultInfo) : (x.heldOn f).st = .faulted := rfl
theorem Slot.heldOn_pc (x : Slot) (f : FaultInfo) : (x.heldOn f).pc = x.pc := rfl
theorem Slot.heldOn_getS (x : Slot) (f : FaultInfo) (r : SReg) : (x.heldOn f).getS r = x.getS r := rfl

/-- The record of a held context names its task, its place and where it goes on (R355, R359). -/
theorem heldRecord_heldOn (t : Nat) (b : Bool) (x : Slot) (f : FaultInfo) : heldRecord t (if b then 1 else 0) (x.heldOn f) f =
    ⟨{ f with resume := x.pc }, x.part, dieOf t, t, b, false, x.wid, 0, .slot t (if b then 1 else 0)⟩ := by
  cases b <;> rfl

/-- A fault's stop leaves the context held, and its record due. -/
theorem State.afterStop_fault (s : State) (t b : Nat) (f : FaultInfo) : s.afterStop t b (.fault f) =
    ((s.dropWaiter t (.core b)).modSlot t b fun x => x.heldOn f).pushRecord (heldRecord t b ((s.slot t b).heldOn f) f) := by
  have hm : ((s.abandonHold t b).modSlot t b fun x => { x with st := .faulted, waited := 0 }.clearPending f) =
      (s.dropWaiter t (.core b)).modSlot t b fun x => x.heldOn f := State.modSlot_modSlot ..
  show State.pushRecord _ (heldRecord t b (State.slot _ t b) f) = _
  rw [hm, State.slot_modSlot_same, State.slot_dropWaiter]

/-- Settles O26: what stops a context by the checks of each event, and the end of a stop by its reason. -/
theorem contextsStop : Obligations.ContextsStop := by
  refine ⟨fun t b v s => ?_, fun t b s => ?_⟩
  · intro r x c y stops n h running
    refine ⟨fun ⟨hi, ht, hb⟩ h0 => ?_, fun ⟨hi, ht, hb⟩ hn hr hw => ?_, fun h0 h1 ht => ?_, exec_fholdExpiry, rfl⟩
    · exact (exec_budgetExpiry hi ht h0).trans (congrArg _ (State.modSlot_beginStop hb _))
    · exact (exec_sliceExpiry hi hn hr hw).trans (congrArg _ (State.modSlot_beginStop hb _))
    · have preq {u : State} (h : s.preempt t c = u) : exec (.preqWrite t v) s = .next u :=
        (exec_preqWrite h0 h1).trans (congrArg _ h)
      exact ⟨fun hb hi hr => preq (State.preempt_of_running ht hb hi hr), fun hb hr => preq (State.preempt_of_waiting ht hb hr),
        fun hf => preq (State.preempt_of_faulted ht hf)⟩
  · intro c x ends dst ha hq hh
    have stopped {w : Stop} (hs : x.st = .stopping w) : ends = .next (s.afterStop t c w) := exec_contextStopEnd ⟨ha, hq⟩ hh hs
    refine ⟨fun f hs => ⟨_, (stopped hs).trans (congrArg _ (State.afterStop_fault ..)), ?_⟩, fun hs => stopped hs, fun hs => stopped hs,
      fun hs => ?_, fun hs => stopped hs, fun hs => stopped hs⟩
    · rw [State.slot_pushRecord, State.slot_modSlot_same, State.slot_dropWaiter]
      refine ⟨Slot.heldOn_st .., Slot.heldOn_pc .., Slot.heldOn_getS _ _, rfl, ?_⟩
      rw [heldRecord_heldOn, State.pushRecord, State.part_modPart_same]
      rfl
    · rw [stopped hs]
      simp only [State.afterStop, State.abandonHold, dst, State.modSlot_modSlot]

end Sys2Proof.Machine
end

section
/-! SUPPORT. What the image of a saved context reads as: the fields of its header, and the header's CRC (R364, R365). -/

namespace Sys2Proof.Machine

/-! ### Bytes of a header -/

theorem bytesOf_lt {k n y : Nat} (h : y ∈ bytesOf k n) : y < 256 := by
  obtain ⟨i, hi, rfl⟩ := List.getElem_of_mem h
  rw [bytesOf_get]
  exact Nat.mod_lt _ (by decide)

theorem unlaidBytes_lt {xs : List Nat} {n y : Nat} (h : y ∈ unlaidBytes xs n) : y < 256 := by
  obtain ⟨i, -, rfl⟩ := List.mem_map.mp h
  exact BitVec.isLt _

theorem flatMap_lt {α : Type} {l : List α} {f : α → Bytes} (hf : ∀ x ∈ l, ∀ y ∈ f x, y < 256) : ∀ y ∈ l.flatMap f, y < 256 := by
  intro y hy
  obtain ⟨x, hx, hy⟩ := List.mem_flatMap.mp hy
  exact hf x hx y hy

theorem append_lt {a b : Bytes} (ha : ∀ y ∈ a, y < 256) (hb : ∀ y ∈ b, y < 256) : ∀ y ∈ a ++ b, y < 256 :=
  List.forall_mem_append.mpr ⟨ha, hb⟩

theorem wordBytes_lt (w : W64) : ∀ y ∈ wordBytes w, y < 256 := fun _ => bytesOf_lt

theorem Slot.controlBytes_lt (x : Slot) : ∀ y ∈ x.controlBytes, y < 256 := by
  have hret : ∀ y ∈ stackBytes x.ret x.rss, y < 256 := append_lt (wordBytes_lt _) fun _ => unlaidBytes_lt
  have hml : ∀ y ∈ (List.range 4).flatMap (fun i => bytesOf 4 (x.getMl i).toNat), y < 256 := flatMap_lt fun _ _ _ => bytesOf_lt
  exact append_lt (append_lt (append_lt (append_lt (append_lt (append_lt (wordBytes_lt _) (wordBytes_lt _)) (wordBytes_lt _))
    (wordBytes_lt _)) hret) hml) (wordBytes_lt _)

/-- The header from the phase word to the tile registers. -/
def Slot.stateBytes (x : Slot) : Bytes :=
  wordBytes x.phaseWord ++ wordBytes x.phaseAddr ++ wordBytes (occupancy x.mq) ++ wordBytes (occupancy x.cq) ++
    (List.range 4).flatMap (fun i => (x.getA (BitVec.ofNat 2 i)).stateBytes) ++
    (List.range 16).flatMap (fun i => wordBytes (x.getT (BitVec.ofNat 4 i)).image)

theorem Slot.stateBytes_length (x : Slot) : x.stateBytes.length = 192 := by
  have ha := length_flatMap_const (List.range 4) (fun i => (x.getA (BitVec.ofNat 2 i)).stateBytes) 8 fun _ _ => unlaidBytes_length ..
  have ht := length_flatMap_const (List.range 16) (fun i => wordBytes (x.getT (BitVec.ofNat 4 i)).image) 8 fun _ _ => wordBytes_length _
  simp only [Slot.stateBytes, List.length_append, wordBytes_length, ha, ht, List.length_range]

theorem Slot.stateBytes_lt (x : Slot) : ∀ y ∈ x.stateBytes, y < 256 := by
  have ha : ∀ y ∈ (List.range 4).flatMap (fun i => (x.getA (BitVec.ofNat 2 i)).stateBytes), y < 256 :=
    flatMap_lt fun _ _ _ => unlaidBytes_lt
  have ht : ∀ y ∈ (List.range 16).flatMap (fun i => wordBytes (x.getT (BitVec.ofNat 4 i)).image), y < 256 :=
    flatMap_lt fun _ _ => wordBytes_lt _
  exact append_lt (append_lt (append_lt (append_lt (append_lt (wordBytes_lt _) (wordBytes_lt _)) (wordBytes_lt _)) (wordBytes_lt _))
    ha) ht

theorem Slot.headerBytes_eq (x : Slot) : x.headerBytes = padTo 0xFFC (wordBytes 0x15854434B ++ (wordBytes x.pc ++ (x.controlBytes ++
    (x.stateBytes ++ (bytesOf 64 x.taskRecord.toNat ++ bytesOf 64 x.header.toNat))))) := by
  simp only [Slot.headerBytes, Slot.stateBytes, List.append_assoc]

theorem Slot.headerBytes_lt (x : Slot) : ∀ y ∈ x.headerBytes, y < 256 := by
  have hz (n : Nat) : ∀ y ∈ List.replicate n 0, y < 256 := fun y hy => List.eq_of_mem_replicate hy ▸ (by decide : 0 < 256)
  rw [Slot.headerBytes_eq]
  exact append_lt (append_lt (wordBytes_lt _) (append_lt (wordBytes_lt _) (append_lt x.controlBytes_lt (append_lt x.stateBytes_lt
    (append_lt (fun _ => bytesOf_lt) fun _ => bytesOf_lt))))) (hz _)

/-! ### Fields of a header (R365) -/

/-- Some bytes stand at an offset of the header. -/
def Slot.HeaderHas (x : Slot) (off : Nat) (p : Bytes) : Prop := ∃ pre post, x.headerBytes = pre ++ (p ++ post) ∧ pre.length = off

section
variable {x : Slot} {off n : Nat} {p q : Bytes} (h : x.HeaderHas off (p ++ q))
include h

theorem Slot.HeaderHas.left : x.HeaderHas off p := by
  obtain ⟨pre, post, he, hl⟩ := h
  exact ⟨pre, q ++ post, by rw [he, List.append_assoc], hl⟩

theorem Slot.HeaderHas.right (hp : p.length = n) : x.HeaderHas (off + n) q := by
  obtain ⟨pre, post, he, hl⟩ := h
  exact ⟨pre ++ p, post, by rw [he, List.append_assoc, List.append_assoc], by rw [List.length_append, hl, hp]⟩
end

section
variable (x : Slot)

theorem Slot.headerHas_identifier : x.HeaderHas 0 (wordBytes 0x15854434B ++ (wordBytes x.pc ++ (x.controlBytes ++
    (x.stateBytes ++ (bytesOf 64 x.taskRecord.toNat ++ bytesOf 64 x.header.toNat))))) :=
  ⟨[], _, x.headerBytes_eq, rfl⟩

theorem Slot.headerHas_pc : x.HeaderHas 8 (wordBytes x.pc ++ (x.controlBytes ++
    (x.stateBytes ++ (bytesOf 64 x.taskRecord.toNat ++ bytesOf 64 x.header.toNat)))) :=
  x.headerHas_identifier.right (wordBytes_length _)

theorem Slot.headerHas_control : x.HeaderHas 0x10 (x.controlBytes ++ (x.stateBytes ++ (bytesOf 64 x.taskRecord.toNat ++
    bytesOf 64 x.header.toNat))) :=
  x.headerHas_pc.right (wordBytes_length _)

theorem Slot.headerHas_record : x.HeaderHas 0x190 (bytesOf 64 x.taskRecord.toNat ++ bytesOf 64 x.header.toNat) :=
  (x.headerHas_control.right x.controlBytes_length).right x.stateBytes_length

theorem Slot.headerHas_header : x.HeaderHas 0x1D0 (bytesOf 64 x.header.toNat) :=
  x.headerHas_record.right (bytesOf_length ..)

/-- BUDG and LC stand at the start of the control registers. -/
theorem Slot.headerHas_budg_lc : x.HeaderHas 0x10 (wordBytes (x.budg.setWidth 64) ++ wordBytes x.lc) := by
  have h := x.headerHas_control.left
  simp only [Slot.controlBytes, List.append_assoc] at h
  rw [← List.append_assoc (wordBytes (x.budg.setWidth 64))] at h
  exact h.left
end

/-! ### Reading the header of an image that has been written (R365) -/

/-- A word of 8 n bits is below 256 to the n. -/
theorem toNat_lt_bytes {n : Nat} (w : BitVec (8 * n)) : w.toNat < 256 ^ n := by
  have := w.isLt
  rwa [Nat.pow_mul] at this

section
variable {s : State} (hs : s.Safe) (addr : W64) (x : Slot) (cs : List Cell) (bs : List Host.Cell)
include hs

/-- A number whose bytes stand in the header reads back. -/
theorem State.readMem_header {off n v : Nat} (h : x.HeaderHas off (bytesOf n v)) (hv : v < 256 ^ n) :
    (s.writeImage addr (x.image cs bs)).readMem (entryKey addr + off) n = v := by
  obtain ⟨pre, post, he, hp⟩ := h
  have hl := x.headerBytes_length
  rw [he, List.length_append, List.length_append, bytesOf_length, hp] at hl
  rw [State.readMem_writeImage s hs addr x cs bs off n v (by omega), Nat.mod_eq_of_lt hv]
  intro i hi
  have hi' : i < (bytesOf n v).length := by rwa [bytesOf_length]
  rw [he, List.append_assoc, List.append_assoc, ← hp, List.getElem?_append_right (by omega), Nat.add_sub_cancel_left,
    List.getElem?_append_left hi', List.getElem?_eq_getElem hi', bytesOf_get]

theorem State.readMem_headerWord {off : Nat} {w : W64} (h : x.HeaderHas off (wordBytes w)) :
    (s.writeImage addr (x.image cs bs)).readMem (entryKey addr + off) 8 = w.toNat :=
  State.readMem_header hs addr x cs bs h (toNat_lt_bytes (n := 8) w)

/-- The identifier, the pc, BUDG and LC, the task's record and its launch header lie at their offsets. -/
theorem State.readMem_headerFields :
    let u := s.writeImage addr (x.image cs bs)
    let k := entryKey addr
    u.readMem k 8 = 0x15854434B ∧ u.readMem (k + 8) 8 = x.pc.toNat ∧ u.readMem (k + 0x10) 8 = x.budg.toNat ∧
      u.readMem (k + 0x18) 8 = x.lc.toNat ∧ u.readMem (k + 0x190) 64 = x.taskRecord.toNat ∧
      u.readMem (k + 0x1D0) 64 = x.header.toNat := by
  have word {off : Nat} {w : W64} (h : x.HeaderHas off (wordBytes w)) := State.readMem_headerWord hs addr x cs bs h
  have record {off : Nat} {w : W512} (h : x.HeaderHas off (bytesOf 64 w.toNat)) :=
    State.readMem_header hs addr x cs bs h (toNat_lt_bytes (n := 64) w)
  have hb : (x.budg.setWidth 64).toNat = x.budg.toNat := BitVec.toNat_setWidth_of_le (by decide)
  have hi := word x.headerHas_identifier.left
  rw [Nat.add_zero] at hi
  exact ⟨hi.trans (by decide), word x.headerHas_pc.left, (word x.headerHas_budg_lc.left).trans hb,
    word (x.headerHas_budg_lc.right (wordBytes_length _)), record x.headerHas_record.left, record x.headerHas_header⟩

/-- The header's bytes read back. -/
theorem State.readBytes_header : (s.writeImage addr (x.image cs bs)).readBytes (entryKey addr) 0xFFC = x.headerBytes := by
  have hl := x.headerBytes_length
  refine List.ext_getElem (by simp [State.readBytes, memBytes, hl]) fun i h1 h2 => ?_
  have hc : x.headerBytes.length ≤ (x.headerBytes ++ bytesOf 4 (crc32c x.headerBytes).toNat).length := by simp
  have hi := State.writeImage_last s hs addr (x.zones cs bs) 0 (x.headerBytes ++ bytesOf 4 (crc32c x.headerBytes).toNat)
    (by rw [List.length_append, hl, bytesOf_length]; decide) i (by omega)
  simp only [State.readBytes, memBytes, List.getElem_map, List.getElem_range]
  rw [List.getElem_append_left h2, Nat.add_zero] at hi
  refine (congrArg BitVec.toNat hi).trans ?_
  rw [BitVec.toNat_ofNat, Nat.mod_eq_of_lt (x.headerBytes_lt _ (List.getElem_mem h2))]

/-- An image that has been written passes the check of its header (R364). -/
theorem State.imageGood_writeImage : (s.writeImage addr (x.image cs bs)).imageGood addr = true := by
  have hl := x.headerBytes_length
  have hcrc : (s.writeImage addr (x.image cs bs)).readMem (entryKey addr + 0xFFC) 4 = (crc32c x.headerBytes).toNat := by
    rw [State.readMem_writeImage s hs addr x cs bs 0xFFC 4 (crc32c x.headerBytes).toNat (by decide),
      Nat.mod_eq_of_lt (toNat_lt_bytes (n := 4) _)]
    intro i hi
    have hi' : i < (bytesOf 4 (crc32c x.headerBytes).toNat).length := by rwa [bytesOf_length]
    rw [← hl, List.getElem?_append_right (by omega), Nat.add_sub_cancel_left, List.getElem?_eq_getElem hi', bytesOf_get]
  rw [State.imageGood, hcrc, State.readBytes_header hs]
  exact beq_self_eq_true _
end

end Sys2Proof.Machine
end

section
/-! SUPPORT. What saving and restoring a context change, and what they keep (R75, R302, R357, R363–R365). -/

namespace Sys2Proof.Machine

/-! ### Updates that change the tiles alone -/

/-- Two states differ in their tiles alone. -/
structure State.TilesOnly (s u : State) : Prop where
  eq : u = { s with tiles := u.tiles }

section
variable {s u v : State}

theorem State.TilesOnly.refl : s.TilesOnly s := ⟨rfl⟩
theorem State.TilesOnly.trans (h : s.TilesOnly u) (k : u.TilesOnly v) : s.TilesOnly v :=
  ⟨k.eq.trans (congrArg (fun w : State => { w with tiles := v.tiles }) h.eq)⟩
theorem State.TilesOnly.modTile (t : Nat) (f : Tile → Tile) : s.TilesOnly (s.modTile t f) := ⟨rfl⟩
theorem State.TilesOnly.modSlot (t b : Nat) (f : Slot → Slot) : s.TilesOnly (s.modSlot t b f) := ⟨rfl⟩
theorem State.TilesOnly.saved (h : s.TilesOnly u) : u.saved = s.saved := (congrArg State.saved h.eq :)
theorem State.TilesOnly.arrivals (h : s.TilesOnly u) : u.arrivals = s.arrivals := (congrArg State.arrivals h.eq :)
theorem State.TilesOnly.mem (h : s.TilesOnly u) : u.mem = s.mem := (congrArg State.mem h.eq :)
end

theorem State.arm_tilesOnly (s : State) (t b : Nat) (m : Bool) : s.TilesOnly (s.arm t b m) := by
  unfold State.arm
  split
  · exact .refl
  · split
    · exact .refl
    · split
      · exact .modSlot ..
      · split
        · exact ⟨rfl⟩
        · exact .modTile ..

theorem State.resumeEngines_tilesOnly (s : State) (t b : Nat) : s.TilesOnly (s.resumeEngines t b) := by
  unfold State.resumeEngines
  dsimp only
  split
  · exact .modSlot ..
  · exact (State.arm_tilesOnly ..).trans (State.arm_tilesOnly ..)

theorem State.switchTo_tilesOnly (s : State) (t b : Nat) : s.TilesOnly (s.switchTo t b) :=
  ((State.TilesOnly.modTile ..).trans (.modSlot ..)).trans (State.resumeEngines_tilesOnly ..)

/-! ### Updates of many steps -/

/-- What each step of a fold keeps, the fold keeps. -/
theorem State.foldl_keeps {α β : Type} (g : State → β) {f : State → α → State} (hf : ∀ s x, g (f s x) = g s) (l : List α) (s : State) :
    g (l.foldl f s) = g s := by
  induction l generalizing s with
  | nil => rfl
  | cons x l ih => rw [List.foldl_cons, ih, hf]

@[simp] theorem State.writeImage_saved (s : State) (addr : W64) (l : List Piece) : (s.writeImage addr l).saved = s.saved := by
  unfold State.writeImage
  refine State.foldl_keeps State.saved ?_ _ _
  intros; rfl
@[simp] theorem State.writeImage_arrivals (s : State) (addr : W64) (l : List Piece) : (s.writeImage addr l).arrivals = s.arrivals := by
  unfold State.writeImage
  refine State.foldl_keeps State.arrivals ?_ _ _
  intros; rfl
@[simp] theorem State.writeImage_tiles (s : State) (addr : W64) (l : List Piece) : (s.writeImage addr l).tiles = s.tiles := by
  unfold State.writeImage
  refine State.foldl_keeps State.tiles ?_ _ _
  intros; rfl

/-! ### Saving (R363, R365) -/

theorem State.vacate_arrivals (s : State) (t b : Nat) : (s.vacate t b).arrivals = s.arrivals := by
  unfold State.vacate
  split <;> rfl

theorem State.vacate_task (s : State) (t b : Nat) : ((s.vacate t b).slot t b).task = none := by
  simp only [State.vacate, State.retire, State.slot_modSlot_same, Slot.noTask]

/-- What is kept of a slot's context in an entry. -/
def State.contextAt (s : State) (t b : Nat) (addr : W64) (moved : Bool) : Saved :=
  { addr := addr, part := (s.slot t b).part, die := dieOf t, level := (s.slot t b).taskLevel, slot := { s.slot t b with hold := .none },
    cells := s.cellsBelow t (s.slot t b).header, bytes := s.halfBytes t b (s.slot t b).header, moved := moved, used := false }

section
variable (s : State) (t b : Nat) (addr : W64) (moved : Bool)

/-- The memory with the image of a slot's context at an entry, the slot free. -/
def State.withImage (s : State) (t b : Nat) (addr : W64) : State :=
  (s.vacate t b).writeImage addr ((s.slot t b).image (s.cellsBelow t (s.slot t b).header) (s.halfBytes t b (s.slot t b).header))

theorem State.saveTo_eq : ∃ u, u = s.withImage t b addr ∧
    s.saveTo t b addr moved = { u with saved := u.saved ++ [s.contextAt t b addr moved] } := by
  unfold State.saveTo
  extract_lets x k u
  refine ⟨u, rfl, ?_⟩
  clear_value u
  rfl

theorem State.saveTo_saved : (s.saveTo t b addr moved).saved = (s.vacate t b).saved ++ [s.contextAt t b addr moved] := by
  obtain ⟨u, hu, he⟩ := s.saveTo_eq t b addr moved
  have hs : u.saved = (s.vacate t b).saved := by rw [hu, State.withImage, State.writeImage_saved]
  rw [he, hs]

theorem State.saveTo_arrivals : (s.saveTo t b addr moved).arrivals = s.arrivals := by
  obtain ⟨u, hu, he⟩ := s.saveTo_eq t b addr moved
  have ha : u.arrivals = s.arrivals := by rw [hu, State.withImage, State.writeImage_arrivals, State.vacate_arrivals]
  rw [he, ha]

theorem State.saveTo_task : ((s.saveTo t b addr moved).slot t b).task = none := by
  obtain ⟨u, hu, he⟩ := s.saveTo_eq t b addr moved
  have ht : u.tiles = (s.vacate t b).tiles := by rw [hu, State.withImage, State.writeImage_tiles]
  have ht : (s.saveTo t b addr moved).tiles = (s.vacate t b).tiles := by rw [he, ht]
  rw [slot_of_tiles ht, State.vacate_task]

theorem State.saveTo_mem : (s.saveTo t b addr moved).mem = (s.withImage t b addr).mem := by
  obtain ⟨u, hu, he⟩ := s.saveTo_eq t b addr moved
  rw [he, ← hu]

/-- The image of a slot's context stands in the memory of `u` at an entry, and every byte outside the entry is as in `s` (R365). -/
structure State.Imaged (s : State) (x : Slot) (addr : W64) (u : State) : Prop where
  frame  : ∀ k, k < entryKey addr ∨ entryKey addr + entrySize ≤ k → memGet u.mem k = memGet s.mem k
  fields : u.readMem (entryKey addr) 8 = 0x15854434B ∧ u.readMem (entryKey addr + 8) 8 = x.pc.toNat ∧
    u.readMem (entryKey addr + 0x10) 8 = x.budg.toNat ∧ u.readMem (entryKey addr + 0x18) 8 = x.lc.toNat ∧
    u.readMem (entryKey addr + 0x190) 64 = x.taskRecord.toNat ∧ u.readMem (entryKey addr + 0x1D0) 64 = x.header.toNat
  good   : u.imageGood addr = true

theorem State.Imaged.of_mem {s u v : State} {x : Slot} {addr : W64} (h : s.Imaged x addr u) (hm : v.mem = u.mem) : s.Imaged x addr v := by
  obtain ⟨h1, h2, h3⟩ := h
  have hr : v.readMem = u.readMem := by funext k n; simp only [State.readMem, hm]
  have hb : v.readBytes = u.readBytes := by funext k n; simp only [State.readBytes, hm]
  exact ⟨fun k hk => by rw [hm]; exact h1 k hk, by rw [hr]; exact h2, by rw [State.imageGood, hr, hb]; exact h3⟩

theorem State.saveTo_imaged (hs : s.Safe) : s.Imaged (s.slot t b) addr (s.saveTo t b addr moved) := by
  have hv : (s.vacate t b).Safe := hs.of_mem (State.vacate_mem ..)
  have h : s.Imaged (s.slot t b) addr (s.withImage t b addr) := by
    refine ⟨fun k hk => ?_, State.readMem_headerFields hv .., State.imageGood_writeImage hv ..⟩
    rw [State.withImage, State.writeImage_frame _ hv _ _ _ hk, State.vacate_mem]
  exact h.of_mem (s.saveTo_mem t b addr moved)
end

/-! ### The events of a save and of a move out (R75, R302, R357) -/

/-- The arrival of a saved context's record, at the head of its level or the tail. -/
def Slot.returns (x : Slot) (t : Nat) (pre : Bool) (addr : W64) : Arrival :=
  ⟨if pre then .head t else .tail, x.part, dieOf t, resumeRecord x.taskRecord pre (!pre) addr, 0⟩

/-- A record is on its way. -/
def State.sends (s : State) (a : Arrival) : State := { s with arrivals := s.arrivals ++ [a] }

theorem State.sends_saved (s : State) (a : Arrival) : (s.sends a).saved = s.saved := rfl
theorem State.sends_arrivals (s : State) (a : Arrival) : (s.sends a).arrivals = s.arrivals ++ [a] := rfl
theorem State.sends_mem (s : State) (a : Arrival) : (s.sends a).mem = s.mem := rfl

theorem State.renameContext_saved (s : State) (p : PartNo) (t b : Nat) (addr : W64) : (s.renameContext p t b addr).saved = s.saved := rfl
theorem State.renameContext_arrivals (s : State) (p : PartNo) (t b : Nat) (addr : W64) :
    (s.renameContext p t b addr).arrivals = s.arrivals := rfl
theorem State.renameContext_slot (s : State) (p : PartNo) (t b : Nat) (addr : W64) (u c : Nat) :
    (s.renameContext p t b addr).slot u c = s.slot u c := rfl

section
variable {s : State} {t c : Nat} {b : Bool} (hc : (if b then 1 else 0) = c) {addr : W64} (ho : (s.slot t c).writeOut = false)
  (ha : s.freeEntryAddr (dieOf t) (s.slot t c).part = some addr)
include hc ho ha

/-- A save; beyond it, a switch of slots changes the tiles alone. -/
theorem exec_contextSaveComplete {w : SaveWhy} (hx : (s.slot t c).st = .saving w)
    (hd : s.serves (.dispatcher (BitVec.ofNat 2 (dieOf t))) = true) :
    ∃ u, exec (.contextSaveComplete t b) s = .next u ∧
      ((s.saveTo t c addr false).sends ((s.slot t c).returns t (w == .preempt) addr)).TilesOnly u := by
  generalize hv : (s.saveTo t c addr false).sends ((s.slot t c).returns t (w == .preempt) addr) = v
  have he : exec (.contextSaveComplete t b) s =
      .next (if !(s.tile t).idle && s.run t == c && v.eligible t (1 - c) then v.switchTo t (1 - c) else v) := by
    show execContextSaveComplete t b s = _
    simp only [execContextSaveComplete, hc, hx, ho, hd, ha, Bool.not_true, Bool.or_self, Bool.false_eq_true, if_false]
    rw [← hv]
    rfl
  refine ⟨_, he, ?_⟩
  split
  · exact State.switchTo_tilesOnly ..
  · exact .refl

theorem exec_contextMoveOut (hx : (s.slot t c).st = .faulted) (hm : ((s.slot t c).moveDue || (s.slot t c).pendPreempt) = true)
    (hl : s.full (dieOf t) (s.slot t c).part (s.slot t c).taskLevel = false) :
    exec (.contextMoveOut t b) s = .next ((s.saveTo t c addr true).renameContext (s.slot t c).part t c addr) := by
  show execContextMoveOut t b s = _
  simp only [execContextMoveOut, hc, hx, hm, ho, hl, ha, Bool.not_true, Bool.false_eq_true, ne_eq, not_true_eq_false, or_self, if_false]
end

theorem exec_contextRestoreComplete_of_source {s : State} {t : Nat} {b : Bool} {a : W64}
    (h : (s.slot t (if b then 1 else 0)).source = some a) : exec (.contextRestoreComplete t b) s =
      .next ((s.dropSaved a).modSlot t (if b then 1 else 0) fun x => { x with restoring := false, source := none }) := by
  show execContextRestoreComplete t b s = _
  simp only [execContextRestoreComplete, h]

theorem exec_contextRestoreComplete_of_none {s : State} {t : Nat} {b : Bool} (h : (s.slot t (if b then 1 else 0)).source = none) :
    exec (.contextRestoreComplete t b) s = .next s := by
  show execContextRestoreComplete t b s = _
  simp only [execContextRestoreComplete, h]

/-! ### Dispatch of a record with RESUME (R61, R64, R364) -/

section
variable {s : State} {d : Nat} {p : PartNo} {l : Nat} {r : W512} (hf : recordFault r = none) (hr : recResume r = true)
include hf hr

/-- The entry that a record with RESUME names. -/
def State.namedEntry (s : State) (d : Nat) (p : PartNo) (r : W512) : Option Saved :=
  s.saved.find? fun k => k.addr == recArg0 r && k.die == d && k.part == p && !k.used

theorem State.readyAt_of_unnamed (hn : s.namedEntry d p r = none) : s.readyAt d p l r = (.bad .progRecord, s) := by
  rw [State.namedEntry] at hn
  simp only [State.readyAt, hf, hr, hn, if_true]

variable {k : Saved} (hn : s.namedEntry d p r = some k)
include hn

theorem State.readyAt_of_bad_image (hi : s.imageGood k.addr = false) : s.readyAt d p l r = (.bad .hwCrc, s) := by
  rw [State.namedEntry] at hn
  simp only [State.readyAt, hf, hr, hn, hi, Bool.not_false, if_true]

theorem State.readyAt_of_good_image (hi : s.imageGood k.addr = true) (hh : headerFault k.slot.header l = none) :
    s.readyAt d p l r = (.restore k, s) := by
  rw [State.namedEntry] at hn
  simp only [State.readyAt, hf, hr, hn, hi, hh, Bool.not_true, Bool.false_eq_true, if_true, if_false]
end

section
variable {s u : State} {d : Nat} {p : PartNo} {l : Nat} {e : RingRec} {rest : List RingRec} (hd : s.nextDispatch d = some (p, l))
  (he : (s.ring d p l).recs = e :: rest)
include hd he

theorem exec_dispatch_of_bad {f : FaultName} (h : s.readyAt d p l e.crec = (.bad f, u)) : exec (.dispatch d) s =
    .next ((u.modRing d p l fun x => { x with recs := rest }).quarantine d p l e.crec (BitVec.ofNat 64 e.next) f) := by
  show execDispatch d s = _
  simp only [execDispatch, hd, he, h]

theorem exec_dispatch_of_restore {k : Saved} (h : s.readyAt d p l e.crec = (.restore k, u)) : exec (.dispatch d) s =
    let goal := place k.slot.header (recWid e.crec + BitVec.ofNat 64 e.next) e.bind (s.idleTiles d p)
    .next ((u.popInstance d p l goal.1).restore goal.2 (u.run goal.2) k (recOverrun e.crec)) := by
  show execDispatch d s = _
  simp only [execDispatch, hd, he, h]
end

/-! ### Restoring (R65, R363) -/

/-- A slot without what its engines' resumption changes: their queues, its standing, and the details of a fault (R352). -/
def Slot.lasting (x : Slot) : Slot := { x with mq := [], cq := [], finfo := [], st := .free, pendPreempt := false }

theorem Slot.beginStop_lasting (x : Slot) (w : Stop) : (x.beginStop w).lasting = x.lasting := by
  unfold Slot.beginStop
  split <;> rfl

theorem Slot.faults_lasting (x : Slot) (f : FaultInfo) : (x.faults f).lasting = x.lasting := by
  unfold Slot.faults
  split
  · rfl
  · exact Slot.beginStop_lasting _ _

theorem Slot.modCmd_lasting (x : Slot) (m : Bool) (n : Nat) (f : Cmd → Cmd) : (x.modCmd m n f).lasting = x.lasting := by
  unfold Slot.modCmd Slot.putQueue
  split <;> rfl

theorem State.arm_lasting (s : State) (t b : Nat) (m : Bool) : ((s.arm t b m).slot t b).lasting = (s.slot t b).lasting := by
  unfold State.arm
  split
  · rfl
  · split
    · rfl
    · split
      · rw [State.modCmd, State.slot_modSlot_same, Slot.modCmd_lasting]
      · split
        · rw [State.engineFault, State.slot_modSlot_same, Slot.faults_lasting, Slot.modCmd_lasting]
        · rw [State.addWaiter, State.slot, State.tile_modTile_same]
          rfl

theorem State.resumeEngines_lasting (s : State) (t b : Nat) : ((s.resumeEngines t b).slot t b).lasting = (s.slot t b).lasting := by
  unfold State.resumeEngines
  dsimp only
  split
  · rw [State.slot_modSlot_same, Slot.faults_lasting]
  · rw [State.arm_lasting, State.arm_lasting]

theorem State.slot_putCell (s : State) (t n : Nat) (y : Cell) (u b : Nat) : (s.putCell t n y).slot u b = s.slot u b := by
  simp only [State.putCell, State.slot, State.tile_modTile]
  split
  · next h => subst h; rfl
  · rfl

theorem State.slot_putCells (s : State) (t : Nat) (p : PartNo) (cs : List Cell) (u b : Nat) :
    (s.putCells t p cs).slot u b = s.slot u b := by
  refine State.foldl_keeps (fun s => s.slot u b) (fun s i => ?_) _ _
  dsimp only
  split
  · exact State.slot_putCell ..
  · rfl

theorem State.slot_putHalf (s : State) (t c : Nat) (bs : List Host.Cell) (u b : Nat) : (s.putHalf t c bs).slot u b = s.slot u b := by
  refine State.foldl_keeps (fun s => s.slot u b) ?_ _ _
  intros; rfl

theorem State.slot_clearHalf (s : State) (t c : Nat) (h : W512) (u b : Nat) : (s.clearHalf t c h).slot u b = s.slot u b := rfl

/-- What a slot holds of a saved context that enters it, before its engines go on. -/
def Saved.entering (k : Saved) (x : Slot) (overrun : Bool) : Slot :=
  { k.slot with
    st := .busy, hold := .none, restoring := true, source := some k.addr, finfo := x.finfo, writeOut := x.writeOut
    pendPreempt := false, moveDue := false, ran := 0, waited := 0, stall := 0, due := [], vfree := 0
    budg := if overrun then hdrBudget k.slot.header else k.slot.budg }

theorem State.restore_lasting (s : State) (t b : Nat) (k : Saved) (overrun : Bool) :
    ((s.restore t b k overrun).slot t b).lasting = (k.entering (s.slot t b) overrun).lasting := by
  unfold State.restore
  dsimp only
  rw [State.resumeEngines_lasting]
  refine congrArg Slot.lasting ?_
  refine (State.slot_putCells ..).trans ((State.slot_putHalf ..).trans ((State.slot_clearHalf ..).trans ?_))
  exact State.slot_modSlot_same ..

/-- Settles O27: the save and the move out by the writing of the image, the restore by the slot that the context enters. -/
theorem contextsAreSavedAndRestored : Obligations.ContextsAreSavedAndRestored := by
  refine ⟨fun t b addr s => ?_, fun d p l e rest s hd he hf hr => ?_⟩
  · intro c x lo imaged free kept
    have image {u : State} {moved : Bool} (hu : u.mem = (s.saveTo t c addr moved).mem) : imaged u := by
      intro hs
      obtain ⟨hframe, ⟨h0, h1, h2, h3, h4, h5⟩, hgood⟩ := (s.saveTo_imaged t c addr moved hs).of_mem hu
      exact ⟨hframe, h0, h1, h2, h3, h4, h5, hgood⟩
    have entry {u : State} {moved : Bool} (h : u.saved = (s.vacate t c).saved ++ [s.contextAt t c addr moved]) : kept u moved :=
      ⟨_, h, rfl, rfl, rfl, rfl, rfl, rfl, rfl⟩
    refine ⟨fun w hx ho hs ha => ?_, fun hx hm ho hl ha => ?_, fun a => exec_contextRestoreComplete_of_source,
      exec_contextRestoreComplete_of_none⟩
    · obtain ⟨u, hu, ht⟩ := exec_contextSaveComplete rfl ho ha hx hs
      refine ⟨u, hu, entry ?_, ?_, image (ht.mem.trans (State.sends_mem ..))⟩
      · rw [ht.saved, State.sends_saved, State.saveTo_saved]
      · rw [ht.arrivals, State.sends_arrivals, State.saveTo_arrivals]
        rfl
    · refine ⟨_, exec_contextMoveOut rfl ho ha hx hm hl, entry ?_, ?_, image (State.renameContext_mem ..), ?_⟩
      · rw [State.renameContext_saved, State.saveTo_saved]
      · rw [State.renameContext_arrivals, State.saveTo_arrivals]
      · rw [State.renameContext_slot, State.saveTo_task]
  · intro named refused
    refine ⟨fun hn => exec_dispatch_of_bad hd he (State.readyAt_of_unnamed hf hr hn), fun k hn =>
      ⟨fun hi => exec_dispatch_of_bad hd he (State.readyAt_of_bad_image hf hr hn hi), fun hi hh => ?_⟩⟩
    intro t
    refine ⟨_, exec_dispatch_of_restore hd he (State.readyAt_of_good_image hf hr hn hi hh), ?_⟩
    intro y
    have field {α : Type} (g : Slot → α) : g y.lasting = g (k.entering _ (recOverrun e.crec)).lasting :=
      congrArg g (State.restore_lasting ..)
    exact ⟨field Slot.s, field Slot.h, field Slot.q, field Slot.v, field Slot.k, field Slot.t, field Slot.a, field Slot.ml,
      field Slot.lc, field Slot.rb, field Slot.ret, field Slot.rss, field Slot.loop, field Slot.pc, field Slot.phase, field Slot.task,
      field Slot.restoring, field Slot.source, field Slot.budg⟩

end Sys2Proof.Machine
end

section
/-! SUPPORT. How control moves: conditions and branches, the return stack with its spill
and refill (R32, R80–R83). -/

namespace Sys2Proof.Machine

/-! ### Conditions and targets (R32, R38) -/

theorem and_eq_zero_iff_bits (a b : W64) : a &&& b = 0 ↔ ∀ j, j < 64 → a.getLsbD j = true → b.getLsbD j = false := by
  refine ⟨fun h j hj ha => ?_, fun h => BitVec.eq_of_getLsbD_eq fun j hj => ?_⟩
  · have hbit : (a &&& b).getLsbD j = false := by rw [h]; exact BitVec.getLsbD_zero
    rwa [BitVec.getLsbD_and, ha, Bool.true_and] at hbit
  · have hor : a.getLsbD j = false ∨ b.getLsbD j = false := by
      cases ha : a.getLsbD j
      · exact .inl rfl
      · exact .inr (h j hj ha)
    rw [BitVec.getLsbD_and]
    exact (Bool.and_eq_false_iff.mpr hor).trans BitVec.getLsbD_zero.symm

theorem misaligned_iff (a : W64) : misaligned a = true ↔ a.toNat % 8 ≠ 0 := by
  rw [misaligned, bne_iff_ne, ne_eq, ← BitVec.toNat_inj, BitVec.extractLsb'_toNat]
  rfl

theorem not_misaligned_iff (a : W64) : misaligned a = false ↔ a.toNat % 8 = 0 := by
  rw [← Bool.not_eq_true, misaligned_iff, ne_eq, Decidable.not_not]

/-! ### Branches (R80, R83, R86) -/

theorem branchIf_of_true {b : Bool} (h : b = true) (pc : W64) (s : State) : branchIf b pc s = takeBranch s pc := if_pos h
theorem branchIf_of_false {b : Bool} (h : b = false) (pc : W64) (s : State) : branchIf b pc s = .done s 0 := by rw [h]; rfl

section
variable {i : Instr} {s : State} {k : State → Res} {pc : W64} (he : exec i s = issue i s k)
include he

/-- A taken branch that leaves a captured body, or meets none. -/
theorem branches_of_taken (hk : k s = takeBranch s pc) (h : Issues i s) (ho : ∀ l, s.core.loop = some l → l.inside pc = false) :
    Branches i s s pc 2 := by
  have hjump : takeBranch s pc = .jump s pc 2 := by
    unfold takeBranch
    split
    · next l hl => rw [ho l hl]; rfl
    · rfl
  exact branches_of he h rfl (hk.trans hjump) .refl rfl

theorem traps_of_taken_inside {l : LoopSt} (hl : s.core.loop = some l) (hi : l.inside pc = true) (hk : k s = takeBranch s pc)
    (h : Issues i s) : Traps i s .progLoop 0 0 :=
  traps_issue he h (hk.trans (by simp only [takeBranch, hl, hi, if_true]))

/-- An instruction that has no effect but its end. -/
theorem completes_of_done (hk : k s = .done s 0) (h : Issues i s) : Completes i s s 0 :=
  completes_of he h hk .refl (by rw [State.canIssue_hold h.can]; rfl)
end

theorem execJmpr_eq (sa : SReg) (s : State) : exec (.jmpr sa) s = issue (.jmpr sa) s fun s =>
    if misaligned (s.core.getS sa) then .trap .progAlign (s.core.getS sa) 0 else takeBranch s (s.core.getS sa) := rfl

/-- Settles O4: a condition that holds takes the branch and any other ends the group; the conditions by what they compare. -/
theorem branchesTakenAndNot : Obligations.BranchesTakenAndNot := by
  refine ⟨fun c q sa sb off s => ?_, fun a b => ?_⟩
  · intro dst goes stays
    refine ⟨fun hc => branches_of_taken rfl (branchIf_of_true hc _ _), fun hc => completes_of_done rfl (branchIf_of_false hc _ _),
      fun hq => ⟨branches_of_taken rfl (branchIf_of_true hq _ _), completes_of_done rfl (branchIf_of_false (congrArg _ hq) _ _)⟩,
      fun hq => ⟨branches_of_taken rfl (branchIf_of_true (congrArg _ hq) _ _), completes_of_done rfl (branchIf_of_false hq _ _)⟩,
      branches_of_taken (k := fun s => takeBranch s (target s.core off)) rfl rfl, fun ha => ?_, fun ha h => ?_⟩
    · exact branches_of_taken (execJmpr_eq sa s) (if_neg (by rw [(not_misaligned_iff _).mpr ha]; decide))
    · exact traps_issue (execJmpr_eq sa s) h (if_pos ((misaligned_iff _).mpr ha))
  · refine ⟨beq_iff_eq, bne_iff_ne, decide_eq_true_iff, ?_, decide_eq_true_iff, ?_, ?_, decide_eq_true_iff, ?_, decide_eq_true_iff,
      ?_, beq_iff_eq.trans (and_eq_zero_iff_bits a b)⟩
    · simp [condHolds, slt_iff]
    · simp [condHolds, ult_iff]
    · simp [condHolds, slt_iff]
    · simp [condHolds, ult_iff]
    · have hany : condHolds .any a b = true ↔ ¬ a &&& b = 0 := bne_iff_ne
      rw [hany, and_eq_zero_iff_bits]
      simp

/-- Settles O5: QSET changes one predicate of its core's slot. -/
theorem qsetWritesPredicate : Obligations.QsetWritesPredicate := by
  intro c q sa sb s h
  refine ⟨s.core.setQ q (condHolds c (s.core.getS sa) (s.core.getS sb)), ?_, fun r => ?_, ?_⟩
  · unfold Slot.setQ
    split <;> rfl
  · rw [Slot.getQ_setQ]
    exact ite_congr (propext (and_congr_right fun e => by rw [e])) (fun _ => rfl) (fun _ => rfl)
  · exact completes_core (f := fun x => x.setQ q (condHolds c (x.getS sa) (x.getS sb))) rfl rfl (Slot.setQ_hold ..) rfl h

/-! ### The return stack (R82) -/

/-- The address lies in the stack area of the header in force. -/
def Slot.InStack (x : Slot) (a : W64) : Prop := 0x400000 - hdrStack x.header ≤ a.toNat ∧ a.toNat < 0x400000

theorem stackOk_iff (x : Slot) (sp a : W64) : stackOk x sp a = true ↔ sp.toNat % 8 = 0 ∧ x.InStack a := by
  have hlow : 0x400000 ≤ a.toNat + hdrStack x.header ↔ 0x400000 - hdrStack x.header ≤ a.toNat := by omega
  simp only [stackOk, Slot.InStack, Bool.and_eq_true, Bool.not_eq_true', not_misaligned_iff, decide_eq_true_eq, hlow, and_assoc]

theorem noLoop_of_none {x : Slot} (h : x.loop = none) : noLoop x = none := by simp only [noLoop, h]; rfl
theorem noLoop_of_some {x : Slot} {l : LoopSt} (h : x.loop = some l) : noLoop x = some .progLoop := by simp only [noLoop, h]; rfl

/-- With all 16 entries in use, a call spills the oldest one where the stack pointer lets it. -/
def Slot.Spills (x : Slot) : Prop := (x.getS spReg).toNat % 8 = 0 ∧ x.InStack (x.getS spReg - 8) ∧ x.rss ≠ 0xFFFFFFFF

theorem Slot.not_spills_iff (x : Slot) :
    (!stackOk x (x.getS spReg) (x.getS spReg - 8) || x.rss == 0xFFFFFFFF) = true ↔ ¬ x.Spills := by
  rw [Bool.or_eq_true, Bool.not_eq_true', ← Bool.not_eq_true, stackOk_iff, beq_iff_eq, Slot.Spills, ← and_assoc,
    Classical.not_and_iff_not_or_not (b := x.rss ≠ 0xFFFFFFFF), ne_eq, Classical.not_not]

section
variable {i : Instr} {s : State} {k : State → Res} {tgt : W64} (he : exec i s = issuePre i s noLoop k) (hl : s.core.loop = none)
  (hk : k s = pushCall s tgt) (h : Issues i s)
include he hl hk h

theorem branches_of_call (hr : s.core.ret.length < 16) :
    Branches i s (s.modCore fun x => { x with ret := x.npc :: x.ret }) tgt 2 :=
  branches_core (e := s) he h (noLoop_of_none hl) (hk.trans (if_pos hr)) .refl rfl rfl

theorem branches_of_spill (hr : 16 ≤ s.core.ret.length) (hs : s.core.Spills) :
    Branches i s ((s.writeMem (halfKey s.cur (s.run s.cur) + (s.core.getS spReg - 8).toNat) 8 (s.core.ret.getLastD 0).toNat).modCore
      fun x => { x.setS spReg (s.core.getS spReg - 8) with rss := x.rss + 1, ret := x.npc :: x.ret.take 15 }) tgt 3 := by
  refine branches_core he h (noLoop_of_none hl) (hk.trans ?_) ⟨rfl, rfl⟩ rfl (Slot.setS_hold ..)
  exact (if_neg (Nat.not_lt.mpr hr)).trans (if_neg fun hn => (Slot.not_spills_iff _).mp hn hs)

theorem traps_of_call (hr : 16 ≤ s.core.ret.length) (hs : ¬ s.core.Spills) : Traps i s .progStack (s.core.getS spReg - 8) 0 :=
  traps_of he h (noLoop_of_none hl) (hk.trans ((if_neg (Nat.not_lt.mpr hr)).trans (if_pos ((Slot.not_spills_iff _).mpr hs))))
end

section
variable {s : State} (h : Issues .ret s) (hl : s.core.loop = none)
include h hl

theorem branches_of_return {t : W64} {r : List W64} (hr : s.core.ret = t :: r) (ht : t.toNat % 8 = 0) :
    Branches .ret s (s.modCore fun x => { x with ret := r }) t 2 := by
  refine branches_core (e := s) (show execRet s = _ from rfl) h (noLoop_of_none hl) ?_ .refl rfl rfl
  simp only [hr, (not_misaligned_iff t).mpr ht, Bool.false_eq_true, if_false]

theorem traps_of_return {t : W64} {r : List W64} (hr : s.core.ret = t :: r) (ht : t.toNat % 8 ≠ 0) :
    Traps .ret s .progAlign t 0 := by
  refine traps_of (show execRet s = _ from rfl) h (noLoop_of_none hl) ?_
  simp only [hr, (misaligned_iff t).mpr ht, if_true]

/-! With no entry left, a return takes the one at the stack pointer. -/

variable (hr : s.core.ret = [])
include hr

theorem traps_of_return_empty (hz : s.core.rss = 0) : Traps .ret s .progStack 0 0 := by
  refine traps_of (show execRet s = _ from rfl) h (noLoop_of_none hl) ?_
  simp only [hr, hz, if_true]

variable (hz : s.core.rss ≠ 0)
include hz

theorem traps_of_return_outside (hs : ¬ ((s.core.getS spReg).toNat % 8 = 0 ∧ s.core.InStack (s.core.getS spReg))) :
    Traps .ret s .progStack (s.core.getS spReg) 0 := by
  have hbad : stackOk s.core (s.core.getS spReg) (s.core.getS spReg) = false := by rwa [← Bool.not_eq_true, stackOk_iff]
  refine traps_of (show execRet s = _ from rfl) h (noLoop_of_none hl) ?_
  simp only [hr, hz, hbad, Bool.not_false, if_true, if_false]

theorem branches_of_refill (hs : (s.core.getS spReg).toNat % 8 = 0 ∧ s.core.InStack (s.core.getS spReg))
    (hp : s.isPoisoned (halfKey s.cur (s.run s.cur) + (s.core.getS spReg).toNat) 8 = false)
    (ht : s.readMem (halfKey s.cur (s.run s.cur) + (s.core.getS spReg).toNat) 8 % 8 = 0) :
    Branches .ret s (s.modCore fun x => { x.setS spReg (s.core.getS spReg + 8) with rss := x.rss - 1 })
      (BitVec.ofNat 64 (s.readMem (halfKey s.cur (s.run s.cur) + (s.core.getS spReg).toNat) 8)) 6 := by
  have hword : misaligned (BitVec.ofNat 64 (s.readMem (halfKey s.cur (s.run s.cur) + (s.core.getS spReg).toNat) 8)) = false := by
    rw [not_misaligned_iff, BitVec.toNat_ofNat]
    omega
  refine branches_core (e := s) (show execRet s = _ from rfl) h (noLoop_of_none hl) ?_ .refl rfl (Slot.setS_hold ..)
  simp only [hr, hz, (stackOk_iff ..).mpr hs, hp, hword, Bool.not_true, Bool.false_eq_true, if_false]
end

theorem execCallr_eq (sa : SReg) (s : State) : exec (.callr sa) s = issuePre (.callr sa) s noLoop fun s =>
    if misaligned (s.core.getS sa) then .trap .progAlign (s.core.getS sa) 0 else pushCall s (s.core.getS sa) := rfl

/-- Settles O6: a call by the room that the return stack has, a return by what it holds. -/
theorem callsAndReturns : Obligations.CallsAndReturns := by
  intro sa off s hl x half sp inStack calls
  have called {i : Instr} {tgt : W64} {k : State → Res} (he : exec i s = issuePre i s noLoop k) (hk : k s = pushCall s tgt) :
      calls i tgt := fun h =>
    ⟨branches_of_call he hl hk h, fun hr hm hi hz => branches_of_spill he hl hk h hr ⟨hm, hi, hz⟩, traps_of_call he hl hk h⟩
  refine ⟨called (k := fun s => pushCall s (target s.core off)) rfl rfl, fun ha => called (execCallr_eq sa s) (if_neg ?_), fun ha h => ?_,
    fun h => ⟨fun t r => branches_of_return h hl, fun t r => traps_of_return h hl, traps_of_return_empty h hl,
      traps_of_return_outside h hl, fun hr hz hm hi => branches_of_refill h hl hr hz ⟨hm, hi⟩⟩⟩
  · rw [(not_misaligned_iff _).mpr ha]
    decide
  · exact traps_of (execCallr_eq sa s) h (noLoop_of_none hl) (if_pos ((misaligned_iff _).mpr ha))

end Sys2Proof.Machine
end

section
/-! SUPPORT. Captured loop bodies: how a loop begins, how an iteration ends, and what a body refuses (R84–R86). -/

namespace Sys2Proof.Machine

/-! ### The beginning of a loop (R84) -/

/-- The words of a body that the core fetches one after the other are those captured. -/
theorem State.captureWords_of_fetchWord {s : State} {ws : List W64} {va : W64}
    (h : ∀ j, j < ws.length → s.fetchWord s.cur (s.run s.cur) (va + BitVec.ofNat 64 (8 * j)) = (.ok (ws.getD j 0), s)) :
    ∃ last, s.captureWords va ws.length = (.ok ws, s, last) := by
  induction ws generalizing va with
  | nil => exact ⟨va, rfl⟩
  | cons w ws ih =>
    have hfirst : s.fetchWord s.cur (s.run s.cur) va = (.ok w, s) := by simpa using h 0 (Nat.succ_pos _)
    obtain ⟨last, hrest⟩ := ih (va := va + 8) fun j hj => by
      have hnext : va + 8 + BitVec.ofNat 64 (8 * j) = va + BitVec.ofNat 64 (8 * (j + 1)) := by
        rw [Nat.mul_succ, Nat.add_comm, BitVec.ofNat_add, BitVec.add_assoc]
        rfl
      rw [hnext]
      exact h (j + 1) (Nat.succ_lt_succ hj)
    exact ⟨last, by simp only [List.length_cons, State.captureWords, hfirst, hrest]⟩

section
variable {i : Instr} {s : State} {k : State → Res} {n : W64} {len : Nat} {epi : Option Nat}
  (he : exec i s = issuePre i s noLoop k) (hl : s.core.loop = none) (hk : k s = beginLoop n len epi s) (h : Issues i s)
include he hl hk h

theorem branches_of_loop_zero (hn : n = 0) :
    Branches i s (s.modCore fun x => { x with lc := 0 }) (s.core.npc + BitVec.ofNat 64 (8 * len)) 0 :=
  branches_core (e := s) he h (noLoop_of_none hl) (hk.trans (if_pos hn)) .refl rfl rfl

variable (hn : n ≠ 0)
include hn

theorem traps_of_loop_count (hc : 2 ^ 64 ≤ n.toNat + epi.getD 0) : Traps i s .progLoop 0 0 :=
  traps_of he h (noLoop_of_none hl) (hk.trans ((if_neg hn).trans (if_pos hc)))

theorem completes_of_loop (hc : n.toNat + epi.getD 0 < 2 ^ 64) {ws : List W64} (hlen : ws.length = len)
    (hw : ∀ j, j < ws.length → s.fetchWord s.cur (s.run s.cur) (s.core.npc + BitVec.ofNat 64 (8 * j)) = (.ok (ws.getD j 0), s))
    (hp : ws.getLast?.any isPfx = false) :
    Completes i s (s.modCore fun x => { x with
      loop := some ⟨ws, s.core.npc + BitVec.ofNat 64 (8 * len), epi.getD 0, epi.isSome⟩
      lc := n + BitVec.ofNat 64 (epi.getD 0)
      q := if epi.isSome then 3 else x.q }) 0 := by
  obtain ⟨last, hcap⟩ := State.captureWords_of_fetchWord hw
  unfold Completes
  rw [he]
  refine issuePre_done h (noLoop_of_none hl) (hk.trans ((if_neg hn).trans ((if_neg (Nat.not_le.mpr hc)).trans ?_)))
    (Same.refl.modCore _) (by rw [State.core_modCore]; exact congrArg Hold.inert (State.canIssue_hold h.can))
  rw [← hlen, hcap]
  simp only [hp, Bool.false_eq_true, if_false]
end

/-! ### The end of an iteration (R84, R85) -/

theorem getLsbD_shiftQ (q : BitVec 8) (b : Bool) {j : Nat} (hj : j < 8) :
    (shiftQ q b).getLsbD j = if j = 0 then true else if j = 1 then b else q.getLsbD (j - 1) := by
  have hmask : ∀ i < 7, (0x7E : BitVec 8).getLsbD i = decide (i ≠ 0) := by decide
  have hlow : ∀ i < 8, (if b then 3 else 1 : BitVec 8).getLsbD i = (decide (i = 0) || (decide (i = 1) && b)) := by
    cases b <;> decide
  rw [shiftQ, BitVec.getLsbD_or, BitVec.getLsbD_shiftLeft, BitVec.getLsbD_and, hmask (j - 1) (by omega), hlow j hj]
  match j with
  | 0 => simp
  | 1 => simp
  | n + 2 => simp [hj]

/-- The iterations that remain after one more. -/
def Slot.remaining (x : Slot) : W64 := if x.lc = 0 then 0 else x.lc - 1

/-- LC counts down, and LOOP.P turns RB back and shifts the predicates. -/
def Slot.counted (x : Slot) (l : LoopSt) : Slot :=
  { x with
    lc := x.remaining
    rb := if l.piped then x.rb - 1 else x.rb
    q := if l.piped then shiftQ x.q (decide (l.epi < x.remaining.toNat)) else x.q }

theorem Slot.getQ_counted (x : Slot) (l : LoopSt) (r : QReg) : (x.counted l).getQ r =
    if l.piped = false then x.getQ r
    else if r = 0 then true else if r = 1 then decide (l.epi < x.remaining.toNat) else x.getQ (r - 1) := by
  cases hp : l.piped
  · simp only [Slot.getQ, Slot.counted, hp, Bool.false_eq_true, if_false, if_true]
  · have hq : (x.counted l).q = shiftQ x.q (decide (l.epi < x.remaining.toNat)) := by simp only [Slot.counted, hp, if_true]
    have hzero : r = 0 ↔ r.toNat = 0 := by rw [← BitVec.toNat_inj]; rfl
    have hone : r = 1 ↔ r.toNat = 1 := by rw [← BitVec.toNat_inj]; rfl
    rw [Slot.getQ, hq, getLsbD_shiftQ _ _ r.isLt]
    by_cases h0 : r = 0
    · simp [h0]
    · by_cases h1 : r = 1
      · simp [h1]
      · have hsub : (r - 1).toNat = r.toNat - 1 := by bv_omega
        have hne : ¬ r - 1 = 0 := by bv_omega
        simp only [Slot.getQ, h0, h1, hne, mt hzero.mpr h0, mt hone.mpr h1, hsub, if_false, Bool.true_eq_false]

/-- What the end of the last iteration leaves, and the end of any other. -/
theorem Slot.advance_of_end {x : Slot} {l : LoopSt} (hl : x.loop = some l) (hn : x.npc = l.after) :
    ∃ loop pc, x.advance = { x.counted l with loop := loop, pc := pc } ∧ (x.remaining = 0 → loop = none ∧ pc = l.after) ∧
      (x.remaining ≠ 0 → loop = some l ∧ pc = l.start) := by
  have hend : x.advance = if x.remaining = 0 then { x.counted l with loop := none, pc := l.after }
      else { x.counted l with loop := x.loop, pc := l.start } := by
    have hadv : x.advance = x.endIteration l := by simp only [Slot.advance, hl, hn, if_true]
    exact hadv.trans rfl
  by_cases hz : x.remaining = 0
  · exact ⟨none, l.after, hend.trans (if_pos hz), fun _ => ⟨rfl, rfl⟩, fun h => absurd hz h⟩
  · exact ⟨x.loop, l.start, hend.trans (if_neg hz), fun h => absurd h hz, fun _ => ⟨hl, rfl⟩⟩

/-! ### What a captured body refuses (R86) -/

/-- An instruction that a body refuses traps before its registers are looked at. -/
theorem traps_of_noLoop {i : Instr} {s : State} {k : State → Res} {l : LoopSt} (he : exec i s = issuePre i s noLoop k)
    (hl : s.core.loop = some l) (hc : s.canIssue = true) (hf : s.interlocked s.cur (s.run s.cur) (named i) = false)
    (hd : s.core.early s.issueCyc i = false) : Traps i s .progLoop 0 0 := by
  refine ⟨_, he.trans ?_, conclude_trap ..⟩
  simp only [issuePre, hc, hf, hd, noLoop_of_some hl, Bool.not_true, Bool.or_self, Bool.false_eq_true, if_false]

/-- Settles O7: a loop by its count and the fetch of its body; an iteration's end by the slot alone; a body's refusals by the check
before all others and by the check of a taken branch. -/
theorem loopsRepeatTheirBodies : Obligations.LoopsRepeatTheirBodies := by
  refine ⟨fun sa len count epi s hl => ?_, fun x l hl hn => ?_, fun i sa sb c q off len epi count l s hl => ?_⟩
  · intro x after begins
    have begun {i : Instr} {k : State → Res} {n : W64} (e : Option Nat) (he : exec i s = issuePre i s noLoop k)
        (hk : k s = beginLoop n len.toNat e s) : begins i n (e.getD 0) e.isSome := fun h =>
      ⟨branches_of_loop_zero he hl hk h, traps_of_loop_count he hl hk h, fun hn hc ws => completes_of_loop he hl hk h hn hc⟩
    exact ⟨begun none (show execLoop .. = _ from rfl) rfl, begun none (show execLoopi .. = _ from rfl) rfl,
      begun (some epi.toNat) (show execLoopP .. = _ from rfl) rfl⟩
  · obtain ⟨loop, pc, hend, hlast, hagain⟩ := Slot.advance_of_end hl hn
    rw [hend]
    exact ⟨rfl, rfl, Slot.getQ_counted x l, hlast, hagain, rfl⟩
  · refine ⟨fun hi hc hf hd => ?_, fun hin => ⟨?_, ?_, ?_, ?_⟩, fun hin ha => ?_⟩
    · have refused {k : State → Res} (he : exec i s = issuePre i s noLoop k) : Traps i s .progLoop 0 0 := traps_of_noLoop he hl hc hf hd
      simp only [List.mem_cons, List.not_mem_nil, or_false] at hi
      rcases hi with rfl | rfl | rfl | rfl | rfl | rfl
      · exact refused (show execCall .. = _ from rfl)
      · exact refused (show execCallr .. = _ from rfl)
      · exact refused (show execRet .. = _ from rfl)
      · exact refused (show execLoop .. = _ from rfl)
      · exact refused (show execLoopP .. = _ from rfl)
      · exact refused (show execLoopi .. = _ from rfl)
    · exact traps_of_taken_inside (k := fun s => takeBranch s (target s.core off)) rfl hl hin rfl
    · exact fun hc => traps_of_taken_inside rfl hl hin (branchIf_of_true hc _ _)
    · exact fun hq => traps_of_taken_inside rfl hl hin (branchIf_of_true hq _ _)
    · exact fun hq => traps_of_taken_inside rfl hl hin (branchIf_of_true (congrArg _ hq) _ _)
    · exact traps_of_taken_inside (execJmpr_eq sa s) hl hin (if_neg (by rw [(not_misaligned_iff _).mpr ha]; decide))

end Sys2Proof.Machine
end

section
/-! SUPPORT. Waiting on a cell: what becomes of a tile's one waiter, and how WAIT, TAKE, TRYTAKE and CRD of an own cell end (R89–R94). -/

namespace Sys2Proof.Machine

/-! ### Changes of a tile and its slots -/

theorem State.putTile_modTile (s : State) (t : Nat) (x : Tile) (f : Tile → Tile) : (s.putTile t x).modTile t f = s.putTile t (f x) := by
  rw [State.modTile, State.tile_putTile_same]
  simp only [State.putTile, tput_tput]

theorem State.core_putTile (s : State) (x : Tile) : (s.putTile s.cur x).core = x.slot x.run := by
  show ((s.putTile s.cur x).tile s.cur).slot ((s.putTile s.cur x).tile s.cur).run = _
  rw [State.tile_putTile_same]

/-- A write of a slot and of the waiters takes the place of an earlier one. -/
theorem Tile.putSlot_over (x : Tile) (b : Nat) (y z : Slot) (cs : Tab Cell) (ws vs : List Waiter) :
    ({ ({ x with waiters := ws } : Tile).putSlot b y with cells := cs, waiters := vs } : Tile).putSlot b z =
      ({ x with cells := cs, waiters := vs } : Tile).putSlot b z := by
  unfold Tile.putSlot
  split <;> rfl

theorem State.putCell_modSlot (s : State) (t b n : Nat) (y : Cell) (f : Slot → Slot) : (s.putCell t n y).modSlot t b f =
    s.putTile t (({ s.tile t with cells := tput (s.tile t).cells n y } : Tile).putSlot b (f (s.slot t b))) := by
  rw [State.putCell, State.modTile, State.modSlot, State.putTile_modTile]
  rfl

theorem State.putTile_putCell_dropWaiter_modSlot (s : State) (t b n : Nat) (x : Tile) (y : Cell) (w : Who) (f : Slot → Slot) :
    (((s.putTile t x).putCell t n y).dropWaiter t w).modSlot t b f = s.putTile t
      (({ x with cells := tput x.cells n y, waiters := x.waiters.filter fun v => v.who != w } : Tile).putSlot b (f (x.slot b))) := by
  rw [State.putCell, State.putTile_modTile, State.dropWaiter, State.putTile_modTile, State.modSlot, State.putTile_modTile]
  rfl

theorem Same.modCore_eq {s e : State} (h : Same s e) (f : Slot → Slot) : e.modCore f = e.modSlot s.cur (s.run s.cur) f := by
  rw [State.modCore, h.cur, h.run]

theorem Slot.setS_setHold (x : Slot) (r : SReg) (v : W64) (h : Hold) :
    ({ x with hold := h } : Slot).setS r v = { x.setS r v with hold := h } := by
  unfold Slot.setS
  split <;> rfl

/-- A core that was held on nothing goes on as if it had never waited. -/
theorem Slot.release_setS_of_none {x : Slot} (hx : x.hold = .none) (r : SReg) (v : W64) (h : Hold) :
    (({ x with hold := h } : Slot).setS r v).release = (x.setS r v).advance := by
  have hnone : { x.setS r v with hold := .none } = x.setS r v := by rw [← hx, ← Slot.setS_hold x r v]
  rw [Slot.setS_setHold, Slot.release, ← hnone]

/-! ### The only waiter of a tile (R92) -/

theorem Tile.evaluates_core_iff (x : Tile) (b : Nat) :
    x.evaluates (.core b) = true ↔ x.idle = false ∧ x.run = b ∧ (x.slot b).st = .busy := by
  simp only [Tile.evaluates, Bool.and_eq_true, Bool.not_eq_true', beq_iff_eq, and_assoc]

/-- A core whose wait on a cell is met goes on, and its register reads 0. -/
theorem State.evalWaiter_core_met {s : State} {t b : Nat} {w : Waiter} {sd : SReg} {l : Option Nat} {y : Cell}
    (he : (s.tile t).evaluates (.core b) = true) (hw : w.who = .core b) (hh : (s.slot t b).hold = .wait sd l)
    (hy : (s.cell t w.cell).meet w.need = some y) :
    s.evalWaiter t w = ((s.putCell t w.cell y).dropWaiter t w.who).modSlot t b fun x => (x.setS sd 0).release := by
  have hslot : ((s.putCell t w.cell y).dropWaiter t w.who).slot t b = s.slot t b := by
    rw [State.slot_dropWaiter, State.slot_putCell]
  simp only [State.evalWaiter, hw, he, hy, State.satisfied, if_true]
  refine State.modSlot_congr _ _ _ ?_
  rw [← hw, hslot, hh]

theorem State.evalWaiter_core_unmet {s : State} {t b : Nat} {w : Waiter} (hw : w.who = .core b)
    (hy : (s.cell t w.cell).meet w.need = none) : s.evalWaiter t w = s := by
  simp only [State.evalWaiter, hy, State.unsatisfied, hw, ite_self]

theorem State.settleIf_single {s : State} {t : Nat} {w : Waiter} {p : Nat → Bool} (hw : (s.tile t).waiters = [w])
    (hp : p w.cell = true) : s.settleIf t p = s.evalWaiter t w := by
  cases ht : w.need.isTest <;> simp [State.settleIf, hw, hp, ht]

/-! ### A core begins to wait (R91) -/

/-- The waiter that the issuing core becomes. -/
def State.coreWaiter (s : State) (n : Nat) (need : Need) : Waiter := ⟨.core (s.run s.cur), n, need, (s.tile s.cur).cyc, false⟩

/-- The core waits on cell n. -/
def State.waiting (s : State) (n : Nat) (need : Need) (sd : SReg) (limit : Option Nat) : State :=
  (s.addWaiter s.cur (s.coreWaiter n need)).modSlot s.cur (s.run s.cur) fun x =>
    { x with hold := .wait sd (limit.map (· + s.words)) }

/-- A WAIT or TAKE of an own cell in which nothing forbids it. -/
theorem exec_of_waitCell {i : Instr} {s : State} {op : CellOp} {need : Need} {sd lim : SReg} {c : CellNo}
    (he : exec i s = issue i s (waitCell op need sd lim (.own c))) (h : Issues i s)
    (ho : (s.cell s.cur c.toNat).ownedBy s.core.part = true) (hm : need.isTest = true ∨ (s.cell s.cur c.toNat).mode ≠ 2) :
    exec i s = .next ((s.waiting c.toNat need sd (limitOf s.core lim)).tick s.cur s.words) := by
  have hsame : Same s (s.addWaiter s.cur ⟨.core (s.run s.cur), c.toNat, need, (s.tile s.cur).cyc, false⟩) :=
    (Aside.addWaiter (b := s.run s.cur) _).same
  have hallowed : (!need.isTest && decide ((s.cell s.cur c.toNat).mode = 2)) = false := by
    rcases hm with hm | hm
    · rw [hm]; rfl
    · rw [decide_eq_false hm, Bool.and_false]
  rw [he, issue_issues h]
  simp only [waitCell, State.cellAt, ho, hallowed, hsame.modCore_eq, settle, conclude]
  rfl

section
variable {s : State} {n : Nat} {need : Need} {sd : SReg} {limit : Option Nat} (hw : (s.tile s.cur).waiters = [])
include hw

/-- The tile of a core that is its only waiter. -/
theorem State.waiting_eq : s.waiting n need sd limit = s.putTile s.cur
    (({ s.tile s.cur with waiters := [s.coreWaiter n need] } : Tile).putSlot (s.run s.cur)
      { s.core with hold := .wait sd (limit.map (· + s.words)) }) := by
  have hadd : s.addWaiter s.cur (s.coreWaiter n need) = s.putTile s.cur { s.tile s.cur with waiters := [s.coreWaiter n need] } := by
    rw [State.addWaiter, State.modTile, hw]
    rfl
  rw [State.waiting, hadd, State.modSlot, State.putTile_modTile]
  rfl

theorem State.waiting_tile : (s.waiting n need sd limit).tile s.cur =
    ({ s.tile s.cur with waiters := [s.coreWaiter n need] } : Tile).putSlot (s.run s.cur)
      { s.core with hold := .wait sd (limit.map (· + s.words)) } := by
  rw [State.waiting_eq hw, State.tile_putTile_same]

theorem State.waiting_core : (s.waiting n need sd limit).core = { s.core with hold := .wait sd (limit.map (· + s.words)) } := by
  rw [State.waiting_eq hw, State.core_putTile, Tile.putSlot_run]
  exact Tile.slot_putSlot_same ..

theorem State.waiting_slot : (s.waiting n need sd limit).slot s.cur (s.run s.cur) =
    { s.core with hold := .wait sd (limit.map (· + s.words)) } := by
  rw [State.slot, State.waiting_tile hw, Tile.slot_putSlot_same]

theorem State.waiting_cell (c : Nat) : (s.waiting n need sd limit).cell s.cur c = s.cell s.cur c := by
  rw [State.cell, State.waiting_tile hw, Tile.putSlot_cells]
  rfl

theorem State.waiting_settle : (s.waiting n need sd limit).settle s.cur =
    (s.waiting n need sd limit).evalWaiter s.cur (s.coreWaiter n need) :=
  State.settleIf_single (by rw [State.waiting_tile hw, Tile.putSlot_waiters]) rfl

variable (hi : s.canIssue = true)
include hi

/-- The wait of a core whose need is met ends in the cycle in which it begins. -/
theorem State.waiting_settle_met {y : Cell} (hy : (s.cell s.cur n).meet need = some y) :
    (s.waiting n need sd limit).settle s.cur = ((s.putCell s.cur n y).modCore fun x => x.setS sd 0).modCore Slot.advance := by
  have heval : ((s.waiting n need sd limit).tile s.cur).evaluates (.core (s.run s.cur)) = true := by
    rw [Tile.evaluates_core_iff, State.waiting_tile hw, Tile.putSlot_idle, Tile.putSlot_run, Tile.slot_putSlot_same]
    exact ⟨State.canIssue_idle hi, rfl, State.canIssue_st hi⟩
  rw [State.waiting_settle hw, State.evalWaiter_core_met heval rfl (congrArg Slot.hold (State.waiting_slot hw))
    ((congrArg (Cell.meet · need) (State.waiting_cell hw n)).trans hy), State.modCore_modCore,
    (Same.refl.setCell n y).modCore_eq, State.putCell_modSlot, State.waiting_eq hw, State.putTile_putCell_dropWaiter_modSlot,
    Tile.slot_putSlot_same, Tile.putSlot_cells, Tile.putSlot_waiters, Tile.putSlot_over,
    Slot.release_setS_of_none (State.canIssue_hold hi)]
  have hnone : [s.coreWaiter n need].filter (fun v => v.who != (s.coreWaiter n need).who) = (s.tile s.cur).waiters := by
    rw [hw]
    simp
  rw [hnone]
  rfl

omit hi in
/-- The wait of a core whose need is not met goes on. -/
theorem State.waiting_settle_unmet (hy : (s.cell s.cur n).meet need = none) :
    (s.waiting n need sd limit).settle s.cur = s.waiting n need sd limit := by
  rw [State.waiting_settle hw]
  exact State.evalWaiter_core_unmet rfl ((congrArg (Cell.meet · need) (State.waiting_cell hw n)).trans hy)
end

/-! ### Cycles of a core that waits (R74, R91) -/

/-- Where the evaluation of waiters changes nothing, cycles pass, and no one but waiters changes besides. -/
theorem State.tick_of_settled {s : State} {t : Nat} (hs : s.settle t = s) (n : Nat) :
    ∃ ws, s.tick t n = s.putTile t { (s.tile t).pass (s.stalled t (s.run t)) n with waiters := ws } := by
  rw [State.tick, hs, State.endWaits]
  split
  · exact ⟨_, State.putTile_modTile ..⟩
  · exact ⟨_, rfl⟩

/-- A limit runs from the cycle of issue: the group's own cycles do not count (R91). -/
theorem Hold.pass_wait (n : Nat) (sd : SReg) (l : Option Nat) : (Hold.wait sd (l.map (· + n))).pass n = .wait sd l := by
  cases l with
  | none => rfl
  | some l => exact congrArg (fun k => Hold.wait sd (some k)) (Nat.add_sub_cancel ..)

section
variable {s : State} (hs : s.settle s.cur = s) (n : Nat)
include hs

theorem State.cell_tick_of_settled (c : Nat) : (s.tick s.cur n).cell s.cur c = s.cell s.cur c := by
  obtain ⟨ws, ht⟩ := State.tick_of_settled hs n
  rw [ht, State.cell, State.tile_putTile_same]
  rfl

/-- The core of a running slot counts the cycles. -/
theorem State.core_tick_of_settled (hi : (s.tile s.cur).idle = false) (hr : s.core.runs = true) :
    ∃ stalled, (s.tick s.cur n).core = s.core.runFor stalled n := by
  obtain ⟨ws, ht⟩ := State.tick_of_settled hs n
  refine ⟨s.stalled s.cur (s.run s.cur), ?_⟩
  rw [ht, State.core_putTile]
  refine (Tile.pass_slot _ _ _ _ (s.run_lt s.cur)).trans (if_pos ?_)
  simp only [hi, Bool.not_false, Bool.true_and, Bool.and_eq_true]
  exact ⟨beq_self_eq_true _, hr⟩
end

/-- A core that waits on an own cell whose need is not met is held; its registers and the cell stand. -/
theorem waiting_tick_unmet {s u : State} {n : Nat} {need : Need} {sd : SReg} {limit : Option Nat} (hw : (s.tile s.cur).waiters = [])
    (hi : s.canIssue = true) (hy : (s.cell s.cur n).meet need = none) (hu : (s.waiting n need sd limit).tick s.cur s.words = u) :
    u.core.hold = .wait sd limit ∧ u.core.pc = s.core.pc ∧ (∀ r, u.core.getS r = s.core.getS r) ∧
      u.cell s.cur n = s.cell s.cur n ∧ u.mem = s.mem := by
  have hsettled := State.waiting_settle_unmet (sd := sd) (limit := limit) hw hy
  have hidle : ((s.waiting n need sd limit).tile s.cur).idle = false := by
    rw [State.waiting_tile hw, Tile.putSlot_idle]
    exact State.canIssue_idle hi
  have hruns : (s.waiting n need sd limit).core.runs = true := by
    rw [State.waiting_core hw, Slot.runs, State.canIssue_task hi, State.canIssue_st hi]
    rfl
  obtain ⟨stalled, hcore⟩ := State.core_tick_of_settled hsettled s.words hidle hruns
  rw [State.waiting_core hw] at hcore
  have hcore := (congrArg State.core hu.symm).trans hcore
  rw [hcore]
  refine ⟨Hold.pass_wait .., rfl, fun _ => rfl, ?_, ?_⟩
  · rw [← hu, ← State.waiting_cell hw n]
    exact State.cell_tick_of_settled hsettled s.words n
  · rw [← hu, State.tick_mem]
    rfl

/-! ### The end of WAIT, TAKE, TRYTAKE and CRD of an own cell (R89, R91) -/

/-- Two tables of cells that read the same are alike to what follows. -/
theorem Passed.of_cells {s t : State} {x : Tile} {cs : Tab Cell} {n : Nat} (hcs : ∀ c, tget {} cs c = tget {} x.cells c)
    (h : Passed (s.putTile s.cur { x with cells := cs }) t n) : Passed (s.putTile s.cur x) t n := by
  have htile (y : Tile) : (s.putTile s.cur y).tile s.cur = y := State.tile_putTile_same ..
  obtain ⟨hcore, hother, hrun, hidle, htslot, hcyc, hcells, htiles, hrest⟩ := h
  simp only [State.putTile_cur, State.run, State.slot, State.cell, htile] at hother hrun hidle htslot hcyc hcells
  refine ⟨?_, ?_, ?_, ?_, ?_, ?_, fun c hc => ?_, fun u hu => ?_, hrest⟩
  · rw [State.core_putTile] at hcore ⊢
    exact hcore
  all_goals simp only [State.putTile_cur, State.run, State.slot, State.cell, htile] at *
  · exact hother
  · exact hrun
  · exact hidle
  · exact htslot
  · exact hcyc
  · exact (hcells c hc).trans (hcs c)
  · rw [htiles u hu, State.tile_putTile, State.tile_putTile, if_neg hu, if_neg hu]

/-- A cell written with what it holds is as it was. -/
theorem Completes.of_putCell_self {i : Instr} {s : State} {c n : Nat} {f : Slot → Slot}
    (h : Completes i s ((s.putCell s.cur c (s.cell s.cur c)).modCore f) n) : Completes i s (s.modCore f) n := by
  obtain ⟨t, hx, ht⟩ := h
  refine ⟨t, hx, ?_⟩
  have hcells (x : Tile) (b : Nat) (y : Slot) (cs : Tab Cell) :
      ({ x with cells := cs } : Tile).putSlot b y = { x.putSlot b y with cells := cs } := by
    unfold Tile.putSlot
    split <;> rfl
  rw [Ends, State.modCore_modCore, (Same.refl.setCell c _).modCore_eq, State.putCell_modSlot, hcells] at ht
  rw [Ends, State.modCore_modCore]
  refine Passed.of_cells (fun d => ?_) ht
  rw [Tile.putSlot_cells, tget_tput]
  split
  · next e => rw [e]; rfl
  · rfl

/-- A met wait of an own cell completes at once. -/
theorem completes_of_waiting {i : Instr} {s : State} {n : Nat} {need : Need} {sd : SReg} {limit : Option Nat} {y : Cell}
    (hx : exec i s = .next ((s.waiting n need sd limit).tick s.cur s.words)) (hw : (s.tile s.cur).waiters = [])
    (hi : s.canIssue = true) (hy : (s.cell s.cur n).meet need = some y) :
    Completes i s ((s.putCell s.cur n y).modCore fun x => x.setS sd 0) 0 := by
  have hsettle := State.waiting_settle_met (sd := sd) (limit := limit) hw hi hy
  generalize he : ((s.putCell s.cur n y).modCore fun x => x.setS sd 0).modCore Slot.advance = e at hsettle
  have hcur : e.cur = s.cur := by rw [← he]; rfl
  have hcore : e.core = (s.core.setS sd 0).advance := by rw [← he, State.core_modCore, State.core_modCore, State.core_putCell]
  have hwaiters : (e.tile s.cur).waiters = [] := by
    rw [← he, State.modCore_modCore, (Same.setCell Same.refl n y).modCore_eq, State.tile_modSlot_same, Tile.putSlot_waiters,
      State.putCell, State.tile_modTile_same]
    exact hw
  have hself : e.settle s.cur = e := settleIf_none (by rw [hwaiters]; exact fun _ h => nomatch h)
  have htick : (s.waiting n need sd limit).tick s.cur s.words = e.tick s.cur s.words := by
    simp only [State.tick, hsettle, hself]
  refine ⟨_, hx, ?_⟩
  rw [Ends, he, htick, ← hcur]
  exact State.tick_passed e (by rw [hcore, Slot.advance_hold, Slot.setS_hold, State.canIssue_hold hi]; rfl) _

section
variable {s : State} {c : CellNo} (hw : (s.tile s.cur).waiters = []) (ho : (s.cell s.cur c.toNat).ownedBy s.core.part = true)
include hw ho

theorem completes_crd {o : Ord} {sd : SReg} (h : Issues (.crd o sd (.own c)) s) :
    Completes (.crd o sd (.own c)) s (s.modCore fun z => z.setS sd (s.cell s.cur c.toNat).word) 0 := by
  have hself : s.settleIf s.cur (· == c.toNat) = s := settleIf_none (by rw [hw]; exact fun _ h => nomatch h)
  refine reg_result (v := fun _ => (s.cell s.cur c.toNat).word) rfl ?_ rfl h
  simp only [readCell, State.cellAt, ho, hself]
  rfl

/-- A WAIT or TAKE whose need the cell meets. -/
theorem completes_of_met {i : Instr} {op : CellOp} {need : Need} {sd lim : SReg} {y : Cell}
    (he : exec i s = issue i s (waitCell op need sd lim (.own c))) (hm : need.isTest = true ∨ (s.cell s.cur c.toNat).mode ≠ 2)
    (hy : (s.cell s.cur c.toNat).meet need = some y) (h : Issues i s) :
    Completes i s ((s.putCell s.cur c.toNat y).modCore fun x => x.setS sd 0) 0 :=
  completes_of_waiting (exec_of_waitCell he h ho hm) hw h.can hy

/-- One whose need it does not meet. -/
theorem held_of_unmet {i : Instr} {op : CellOp} {need : Need} {sd lim : SReg}
    (he : exec i s = issue i s (waitCell op need sd lim (.own c))) (hm : need.isTest = true ∨ (s.cell s.cur c.toNat).mode ≠ 2)
    (hy : (s.cell s.cur c.toNat).meet need = none) (h : Issues i s) :
    ∃ u, exec i s = .next u ∧ u.core.hold = .wait sd (limitOf s.core lim) ∧ u.core.pc = s.core.pc ∧
      (∀ r, u.core.getS r = s.core.getS r) ∧ u.cell s.cur c.toNat = s.cell s.cur c.toNat ∧ u.mem = s.mem :=
  ⟨_, exec_of_waitCell he h ho hm, waiting_tick_unmet hw h.can hy rfl⟩

/-- TRYTAKE where no older waiter waits. -/
theorem tryTakeCell_own (hm : (s.cell s.cur c.toNat).mode ≠ 2) (sd : SReg) (v : W32) : tryTakeCell sd (.own c) v s =
    match (s.cell s.cur c.toNat).take v with
    | some y => .done ((s.putCell s.cur c.toNat y).modCore fun x => x.setS sd 1) 0
    | none => .done (s.modCore fun x => x.setS sd 0) 0 := by
  have hself : s.settleIf s.cur (· == c.toNat) = s := settleIf_none (by rw [hw]; exact fun _ h => nomatch h)
  simp only [tryTakeCell, State.cellAt, ho, hm, hself]
  rfl

theorem completes_trytake_of_some {o : Ord} {sd : SReg} {v : W32} {y : Cell} (hm : (s.cell s.cur c.toNat).mode ≠ 2)
    (hy : (s.cell s.cur c.toNat).take v = some y) (h : Issues (.trytake o sd (.own c) v) s) :
    Completes (.trytake o sd (.own c) v) s ((s.putCell s.cur c.toNat y).modCore fun x => x.setS sd 1) 0 := by
  have hsame : Same s (s.putCell s.cur c.toNat y) := Same.refl.setCell ..
  refine completes_of rfl h ((tryTakeCell_own hw ho hm sd v).trans (by rw [hy])) (hsame.modCore _) ((hsame.modCore _).inert h ?_)
  rw [hsame.slot_modCore, Slot.setS_hold, State.core_putCell]

theorem completes_trytake_of_none {o : Ord} {sd : SReg} {v : W32} (hm : (s.cell s.cur c.toNat).mode ≠ 2)
    (hy : (s.cell s.cur c.toNat).take v = none) (h : Issues (.trytake o sd (.own c) v) s) :
    Completes (.trytake o sd (.own c) v) s (s.modCore fun x => x.setS sd 0) 0 :=
  completes_core rfl ((tryTakeCell_own hw ho hm sd v).trans (by rw [hy])) (Slot.setS_hold ..) rfl h

omit hw in
/-- Nothing is taken from a barrier. -/
theorem traps_of_barrier {o : Ord} {sd lim : SReg} {v : W32} (hm : (s.cell s.cur c.toNat).mode = 2) :
    ∀ i ∈ [Instr.take o sd lim (.own c) v, .trytake o sd (.own c) v], Issues i s →
      Traps i s .progCellmode (cellAddr s.cur c.toNat) (s.cell s.cur c.toNat).detail := by
  intro i hi h
  simp only [List.mem_cons, List.not_mem_nil, or_false] at hi
  rcases hi with rfl | rfl
  · exact traps_issue rfl h (by simp only [waitCell, State.cellAt, ho, hm]; rfl)
  · exact traps_issue rfl h (by simp only [tryTakeCell, State.cellAt, ho, hm]; rfl)
end

/-- Settles O15: each change of a cell by its mode, each wait and take by whether its need is met. -/
theorem ownCellsAnswer : Obligations.OwnCellsAnswer := by
  refine ⟨fun o c v sa s => ?_, fun t o sd lim c v s => ?_⟩
  · intro x w free becomes traps sig arrive cset ccfg mode a
    have hccfg : exec ccfg s = issue ccfg s (changeCell (.ccfg w) .plain (.own c)) := rfl
    refine ⟨fun ho => ?_, fun ho i hi h hf => ?_⟩
    · have changes {i : Instr} {op : CellOp} {y : Cell} (he : exec i s = issue i s (changeCell op o (.own c)))
          (hy : x.change op = .ok y) : becomes i y := fun h hf => ((changeCell_own he hf h).1 ho).1 y hy
      have refuses {i : Instr} {op : CellOp} {f : FaultName} (he : exec i s = issue i s (changeCell op o (.own c)))
          (hy : x.change op = .error f) : traps i f := fun h hf => ((changeCell_own he hf h).1 ho).2 f hy
      have plain {i : Instr} {op : CellOp} (he : exec i s = issue i s (changeCell op .plain (.own c))) (h : Issues i s) :=
        (changeCell_own he (fun hr => nomatch hr) h).1 ho
      refine ⟨fun hv => changes rfl (op := .sig v) (by rw [hv]; exact Cell.sig_zero x),
        fun hm => ⟨fun hc => changes (op := .sig v) rfl (Cell.sig_counter hm hc),
          fun hv hc => refuses (op := .sig v) rfl (Cell.sig_counter_ceil hm hv hc),
          fun hc => changes (op := .cset v) rfl (Cell.cset_counter hm hc),
          fun hc => refuses (op := .cset v) rfl (Cell.cset_counter_ceil hm hc)⟩,
        fun hm => ⟨fun hc => ⟨changes (op := .sig v) rfl (Cell.sig_flags hm hc), changes (op := .cset v) rfl (Cell.cset_flags hm hc)⟩,
          fun hc => ⟨refuses (op := .sig v) rfl (Cell.sig_flags_ceil hm hc),
            refuses (op := .cset v) rfl (Cell.cset_flags_ceil hm hc)⟩⟩,
        fun hm => ⟨fun hc => changes (op := .sig v) rfl (Cell.sig_barrier hm hc),
          fun hv hc => changes (op := .sig v) rfl (Cell.sig_barrier_full hm hv hc),
          fun hv hc => refuses (op := .sig v) rfl (Cell.sig_barrier_ceil hm hv hc),
          fun hc => changes (op := .arrive) rfl ((Cell.arrive_barrier hm).trans (Cell.sig_barrier hm hc)),
          fun hc => changes (op := .arrive) rfl ((Cell.arrive_barrier hm).trans (Cell.sig_barrier_full hm (by decide) hc)),
          fun hc => refuses (op := .arrive) rfl ((Cell.arrive_barrier hm).trans (Cell.sig_barrier_ceil hm (by decide) hc)),
          fun hc => changes (op := .cset v) rfl (Cell.cset_barrier hm hc),
          fun hc => refuses (op := .cset v) rfl (Cell.cset_barrier_ceil hm hc)⟩,
        fun hm => refuses (op := .arrive) rfl (Cell.arrive_other hm),
        fun hc h _ => (plain hccfg h).1 _ (Cell.ccfg_ok hc), fun hc h _ => (plain hccfg h).2 _ (Cell.ccfg_bad hc),
        fun h _ => (plain (op := .cclr) rfl h).1 _ rfl⟩
    · simp only [List.mem_cons, List.not_mem_nil, or_false] at hi
      rcases hi with rfl | rfl | rfl | rfl | rfl
      · exact (changeCell_own (op := .sig v) rfl hf h).2 ho
      · exact (changeCell_own (op := .arrive) rfl hf h).2 ho
      · exact (changeCell_own (op := .cset v) rfl hf h).2 ho
      · exact (changeCell_own (o := .plain) hccfg (fun hr => nomatch hr) h).2 ho
      · exact (changeCell_own (o := .plain) (op := .cclr) rfl (fun hr => nomatch hr) h).2 ho
  · intro x limit held gives answers takes fails hw ho
    have taken {y : Cell} (hm : x.mode ≠ 2) (hy : x.take v = some y) : takes y :=
      ⟨completes_of_met hw ho rfl (.inr hm) hy, completes_trytake_of_some hw ho hm hy⟩
    have failed (hm : x.mode ≠ 2) (hy : x.take v = none) : fails :=
      ⟨held_of_unmet hw ho rfl (.inr hm) hy, completes_trytake_of_none hw ho hm hy⟩
    refine ⟨completes_crd hw ho, fun ht h => ?_, fun ht => held_of_unmet hw ho rfl (.inl rfl) ?_,
      fun hm => ⟨fun hc => taken (by rw [hm]; decide) ?_, fun hc => failed (by rw [hm]; decide) ?_⟩,
      fun hm => ⟨fun hc => taken (by rw [hm]; decide) ?_, fun hc => failed (by rw [hm]; decide) ?_⟩, traps_of_barrier ho⟩
    · exact (completes_of_met (need := .test t v) hw ho rfl (.inl rfl) (if_pos ht) h).of_putCell_self
    · exact if_neg (Bool.eq_false_iff.mp ht)
    · exact (Cell.take_counter hm).trans (if_pos hc)
    · exact (Cell.take_counter hm).trans (if_neg (Nat.not_le.mpr hc))
    · exact (Cell.take_flags hm).trans (if_pos hc)
    · exact (Cell.take_flags hm).trans (if_neg hc)

end Sys2Proof.Machine
end

section
/-! SUPPORT. Requests to cells of other tiles: how they are resolved, what their reply does to the core that waits, and what ends a
wait (R91–R94). -/

namespace Sys2Proof.Machine

/-! ### A request at its cell's tile (R93, R94) -/

theorem exec_remoteCellRequest {s : State} {i : Nat} {m : Remote} (hi : s.remotes[i]? = some m) :
    exec (.remoteCellRequest i) s = .next (resolveRemote m s) := by
  show execRemoteCellRequest i s = _
  simp only [execRemoteCellRequest, hi]

section
variable {s : State} {m : Remote} (hp : m.peer = none) (hs : m.st = .sent)
include hp hs

theorem resolveRemote_of_foreign (ho : (s.cell m.target m.cell).ownedBy m.part = false) :
    resolveRemote m s = s.replyRemote m.id (.replied (some .isoWindow) 0 0) := by
  rw [resolveRemote, hp, hs]
  exact (if_neg (by decide)).trans (if_pos (by rw [ho]; rfl))

variable (ho : (s.cell m.target m.cell).ownedBy m.part = true)
include ho

/-- A request that only changes its cell is answered by what the change gives. -/
theorem resolveRemote_of_change (hr : m.op ≠ .crd) (hw : m.op.waits = false) : resolveRemote m s =
    match (s.cell m.target m.cell).change m.op with
    | .ok y => (s.putCell m.target m.cell y).replyRemote m.id (.replied none 0 0)
    | .error f => s.replyRemote m.id (.replied (some f) 0 (s.cell m.target m.cell).detail) := by
  rw [resolveRemote, hp, hs]
  refine (if_neg (by decide)).trans ((if_neg (by rw [ho]; decide)).trans ?_)
  cases hop : m.op with
  | crd => exact absurd hop hr
  | wait | take | tryTake => rw [hop] at hw; cases hw
  | sig | arrive | cset | ccfg | cclr => rfl

theorem resolveRemote_of_crd (hop : m.op = .crd) (hw : ∀ w ∈ (s.tile m.target).waiters, w.cell ≠ m.cell) :
    resolveRemote m s = s.replyRemote m.id (.replied none (s.cell m.target m.cell).word 0) := by
  have hself : s.settleIf m.target (· == m.cell) = s := settleIf_none fun w h => beq_eq_false_iff_ne.mpr (hw w h)
  rw [resolveRemote, hp, hs, hop]
  refine (if_neg (by decide)).trans ((if_neg (by rw [ho]; decide)).trans ?_)
  simp only [hself]

theorem resolveRemote_of_wait {t : Test} {v : W32} (hop : m.op = .wait t v) : resolveRemote m s =
    (s.addWaiter m.target ⟨.remote m.id, m.cell, .test t v, (s.tile m.target).cyc, m.once⟩).replyRemote m.id .pending := by
  rw [resolveRemote, hp, hs, hop]
  exact (if_neg (by decide)).trans (if_neg (by rw [ho]; decide))
end

/-! ### The reply (R93) -/

theorem exec_remoteCellReply {s : State} {i : Nat} {m : Remote} {f : Option FaultName} {v d : W64} (hi : s.remotes[i]? = some m)
    (ho : m.origin = none) (hs : m.st = .replied f v d) : exec (.remoteCellReply i) s =
      .next (({ s with remotes := s.remotes.eraseIdx i } : State).modSlot m.tile m.slot fun x => x.takeReply m f v d) := by
  show execRemoteCellReply i s = _
  simp only [execRemoteCellReply, hi, hs, ho]

section
variable {x : Slot} {m : Remote} {sd : SReg} {l : Option Nat} (hh : x.hold = .remote m.id sd l) (v d : W64)
include hh

theorem Slot.takeReply_of_value (hb : x.st = .busy) : x.takeReply m none v d = (x.setS sd v).release := by
  simp only [Slot.takeReply, hh, hb, ne_eq, not_true_eq_false, bne_self_eq_false, Bool.false_and, Bool.false_eq_true, if_false]

theorem Slot.takeReply_of_fault (hp : m.peer = none) (f : FaultName) :
    x.takeReply m (some f) v d = x.trap f (cellAddr m.target m.cell) d := by
  simp only [Slot.takeReply, hh, hp, ne_eq, not_true_eq_false, if_false, Option.getD_none]
end

/-! ### Limits (R91, R94) -/

section
variable {s : State} {t : Nat} {sd : SReg}

theorem exec_waitLimitExpiry_local (hh : (s.slot t (s.run t)).hold = .wait sd (some 0)) : exec (.waitLimitExpiry t) s =
    .next ((s.dropWaiter t (.core (s.run t))).modSlot t (s.run t) fun x => (x.setS sd 1).release) := by
  show execWaitLimitExpiry t s = _
  simp only [execWaitLimitExpiry, hh]

theorem exec_waitLimitExpiry_remote {id : Nat} (hh : (s.slot t (s.run t)).hold = .remote id sd (some 0)) :
    exec (.waitLimitExpiry t) s = .next { s with remotes := setCancel id s.remotes } := by
  show execWaitLimitExpiry t s = _
  simp only [execWaitLimitExpiry, hh]
end

/-- Settles O17: a request by its operation, a reply by what it carries, a local wait by the evaluation of the one waiter. -/
theorem cellEventsHappen : Obligations.CellEventsHappen := by
  refine fun s => ⟨fun i m hi hp hs => ?_, fun i m sd l v d hi ho hh hb => ?_, fun t c w sd l y hw hc hwho hidle hb hh hy => ?_,
    fun t sd id => ⟨exec_waitLimitExpiry_local, exec_waitLimitExpiry_remote⟩⟩
  · intro x req
    have resolved {u : State} (h : resolveRemote m s = u) : req = .next u := (exec_remoteCellRequest hi).trans (congrArg _ h)
    refine ⟨fun ho => resolved (resolveRemote_of_foreign hp hs ho), fun ho => ⟨fun hr hw => ?_,
      fun hop hw => resolved (resolveRemote_of_crd hp hs ho hop hw), fun t v hop => resolved (resolveRemote_of_wait hp hs ho hop)⟩⟩
    have hchange := resolveRemote_of_change hp hs ho hr hw
    exact ⟨fun y hy => resolved (hchange.trans (by rw [hy])), fun f hf => resolved (hchange.trans (by rw [hf]))⟩
  · intro rest
    refine ⟨fun hs => ?_, fun f hp hs => ?_⟩
    · exact (exec_remoteCellReply hi ho hs).trans (congrArg _ (rest.modSlot_congr _ _ (Slot.takeReply_of_value hh v d hb)))
    · exact (exec_remoteCellReply hi ho hs).trans (congrArg _ (rest.modSlot_congr _ _ (Slot.takeReply_of_fault hh v d hp f)))
  · have heval : (s.tile t).evaluates (.core (s.run t)) = true := (Tile.evaluates_core_iff ..).mpr ⟨hidle, rfl, hb⟩
    have hsettle : s.settleIf t (· == c.toNat) = s.evalWaiter t w := State.settleIf_single hw (beq_iff_eq.mpr hc)
    rw [← hc] at hy ⊢
    exact congrArg Host.Outcome.next (hsettle.trans (State.evalWaiter_core_met heval hwho hh hy))

end Sys2Proof.Machine
end

section
/-! SUPPORT. Task instructions at issue, and the retirement of a task by DONE and PARK (R97–R102). -/

namespace Sys2Proof.Machine

/-! ### Records in a die's shared memory (R97, R99) -/

theorem continuationKey_reads {s u : State} {t b : Nat} {p : PartNo} {a : W64} {r : Got Nat} (h : s.continuationKey t b p a = (r, u)) :
    Reads s u := by
  unfold State.continuationKey at h
  split at h
  · split at h <;> (next hh => cases h; exact homeAccept_reads hh)
  · cases h
    exact .refl _

/-- An effect that leaves the core held on no local cell. -/
theorem waits_core {i : Instr} {s u : State} {k : State → Res} {f : Slot → Slot} (he : exec i s = issue i s k) (h : Issues i s)
    (hk : k s = .hold (u.modCore f)) (hs : Same s u) (hi : (f u.core).hold.inert = true) : Waits i s (u.modCore f) :=
  waits_of he h rfl hk (hs.modCore f) (by rw [State.core_modCore]; exact hi)

/-! ### SPAWN, SPAWNB and PARK at issue (R97–R99) -/

section
variable {s u : State} {sa sd : SReg} {disp : BitVec 36}

theorem spawnRecord_misaligned (ha : offBits (recordAddr s.core sa disp) % 64 ≠ 0) (via : SReg → Via) :
    spawnRecord via sd sa disp s = .trap .progAlign (recordAddr s.core sa disp) 0 := if_pos ha

theorem parkRecord_misaligned (ha : offBits (recordAddr s.core sa disp) % 64 ≠ 0) :
    parkRecord sd sa disp s = .trap .progAlign (recordAddr s.core sa disp) 0 := if_pos ha

variable (ha : offBits (recordAddr s.core sa disp) % 64 = 0)
include ha

/-- A record that is read is handed to the die, and the core is held for the status. -/
theorem spawnRecord_of_read {v : Nat} (hp : ∀ c ∈ s.core.accs, c.pending = false)
    (hr : s.readNow s.core.header s.cur (s.run s.cur) s.core.part (recordAddr s.core sa disp) 64 = (.ok v, u)) (via : SReg → Via) :
    spawnRecord via sd sa disp s = .hold
      (({ u with arrivals := u.arrivals ++ [⟨via sd, s.core.part, dieOf s.cur, BitVec.ofNat 512 v, 0⟩] } : State).modCore fun x =>
        { x with hold := .spawn sd }) := by
  have hnone : s.core.accs.any Access.pending = false := List.any_eq_false.mpr fun c hc => Bool.eq_false_iff.mp (hp c hc)
  simp only [spawnRecord, ha, hnone, hr, (readNow_reads hr).same.cur]
  rfl

theorem parkRecord_of_key {k : Nat} (hk : s.continuationKey s.cur (s.run s.cur) s.core.part (recordAddr s.core sa disp) = (.ok k, u)) :
    parkRecord sd sa disp s = .hold (u.modCore fun x => { x with hold := .park sd (recordAddr s.core sa disp) false }) := by
  simp only [parkRecord, ha, hk]
  rfl
end

/-- Settles O18: each task instruction by the answer of its meaning. -/
theorem taskInstructions : Obligations.TaskInstructions := by
  intro sd sa disp f s x a b held
  refine ⟨fun ha i hi h => ?_, fun ha => ⟨fun v u hp hr => ?_, fun k u hk h => ?_⟩, fun h => ?_, fun h => ?_, fun k hk h => ?_⟩
  · simp only [List.mem_cons, List.not_mem_nil, or_false] at hi
    rcases hi with rfl | rfl | rfl
    · exact traps_issue rfl h (spawnRecord_misaligned ha _)
    · exact traps_issue rfl h (spawnRecord_misaligned ha _)
    · exact traps_issue rfl h (parkRecord_misaligned ha)
  · have hsame : Same s u := (readNow_reads hr).same
    intro leaves
    exact ⟨fun h => waits_core rfl h (spawnRecord_of_read ha hp hr _) ⟨hsame.cur, hsame.run⟩ rfl,
      fun h => waits_core rfl h (spawnRecord_of_read ha hp hr _) ⟨hsame.cur, hsame.run⟩ rfl⟩
  · exact waits_core rfl h (parkRecord_of_key ha hk) (continuationKey_reads hk).same rfl
  · refine waits_core (show execTaskDone sa s = _ from rfl) h ?_ .refl rfl
    exact congrArg Res.hold (s.modCore_congr rfl)
  · refine waits_core (show execYield s = _ from rfl) h ?_ .refl (congrArg Hold.inert (State.canIssue_hold h.can))
    exact congrArg Res.hold (s.modCore_congr (Slot.beginStop_busy (State.canIssue_st h.can) .yield))
  · exact reg_result rfl rfl (by rw [show s.core.task = some k from hk]) h

/-! ### Joins (R99, R100) -/

section
variable {s : State} {k : Nat} (p : PartNo) (wid addr : W64)

theorem State.decrementJoin_of_more (h : 2 ≤ s.readMem (k + 28) 4) :
    s.decrementJoin p wid k addr = s.writeMem (k + 28) 4 (s.readMem (k + 28) 4 - 1) := by
  have h0 : s.readMem (k + 28) 4 ≠ 0 := by omega
  have h1 : s.readMem (k + 28) 4 ≠ 1 := by omega
  simp only [State.decrementJoin, h0, h1, if_false]

theorem State.decrementJoin_of_one (h : s.readMem (k + 28) 4 = 1) :
    s.decrementJoin p wid k addr = (s.writeMem (k + 28) 4 0).joinZeroed p k := by
  simp only [State.decrementJoin, h, Nat.one_ne_zero, Nat.sub_self, if_true, if_false]

theorem State.decrementJoin_of_zero (h : s.readMem (k + 28) 4 = 0) : s.decrementJoin p wid k addr =
    s.infoRecord p (keyDie k) 0 false wid { name := .progJoin, src := 6, addr := addr, ip := addr } := by
  simp only [State.decrementJoin, h, if_true]
end

/-! ### DONE and PARK of a task whose work is done (R99, R100) -/

section
variable {s u : State} {t k : Nat} {addr : W64} {c : Bool} (hd : (s.slot t (s.run t)).drained = true)
include hd

theorem exec_doneRetire_of_none (hh : (s.slot t (s.run t)).hold = .done 0 addr c) :
    exec (.doneRetire t) s = .next (s.retire t (s.run t)) := by
  show execDoneRetire t s = _
  simp only [execDoneRetire, hh, hd]
  rfl

variable (hk : s.continuationKey t (s.run t) (s.slot t (s.run t)).part addr = (.ok k, u))
include hk

theorem exec_doneRetire_of_record {sa : SReg} (hh : (s.slot t (s.run t)).hold = .done sa addr c) (hsa : sa ≠ 0)
    (ha : offBits addr % 64 = 0) (hp : u.isPoisoned (k + 28) 4 = false) : exec (.doneRetire t) s =
      .next ((u.decrementJoin (s.slot t (s.run t)).part (s.slot t (s.run t)).wid k addr).retire t (s.run t)) := by
  show execDoneRetire t s = _
  simp only [execDoneRetire, hh, hd, hsa, ha, hk, hp]
  rfl

theorem exec_parkRegister_of_record {sd : SReg} (hh : (s.slot t (s.run t)).hold = .park sd addr c) (hp : u.isPoisoned k 64 = false) :
    exec (.parkRegister t) s = .next (u.park t (s.run t) sd addr k) := by
  show execParkRegister t s = _
  simp only [execParkRegister, hh, hd, hk, hp]
  rfl
end

section
variable {s : State} {t b k : Nat} {sd : SReg} {addr : W64} {x : Slot} (hx : s.slot t b = x)
include hx

theorem State.park_of_disabled (he : (s.part x.part).en = false) : s.park t b sd addr k = s.status t b sd 1 := by
  simp only [State.park, hx, he]
  rfl

variable {raw : W512} (hraw : s.recordAt k = raw) (he : (s.part x.part).en = true)
include hraw he

/-- A record that is no continuation, or whose CRC fails, is quarantined. -/
theorem State.park_of_bad {f : FaultName} (hf : (if recJoin raw = 0 then some .progRecord else recordFault (joinZero raw)) = some f) :
    s.park t b sd addr k = (s.quarantine (keyDie k) x.part (recLevel (joinZero raw)) raw 0
      (if recCrc (joinZero raw) ≠ recordCrc (joinZero raw) then .hwCrc else f)).status t b sd 2 := by
  simp only [State.park, hx, hraw, he, hf]
  rfl

variable (hj : recJoin raw ≠ 0) (hf : recordFault (joinZero raw) = none)
include hj hf

theorem State.park_of_full (hl : s.full (keyDie k) x.part (recLevel (joinZero raw)) = true) :
    s.park t b sd addr k = s.status t b sd 1 := by
  simp only [State.park, hx, hraw, he, hj, hf, hl]
  rfl

theorem State.park_of_room (hl : s.full (keyDie k) x.part (recLevel (joinZero raw)) = false) : s.park t b sd addr k =
    (({ s with parked := s.parked ++ [⟨k, addr, x.part, keyDie k, recLevel (joinZero raw)⟩] } : State).decrementJoin x.part x.wid k
      addr).retire t b := by
  simp only [State.park, hx, hraw, he, hj, hf, hl]
  rfl
end

/-- Settles O19: DONE by the join field of the record that it names, PARK by the checks of the record in their order. -/
theorem tasksRetire : Obligations.TasksRetire := by
  intro t sd sa addr c s b x fin reg hd
  refine ⟨exec_doneRetire_of_none hd, fun k u hk => ⟨fun hh hsa ha hp => ?_, fun hh hp => ?_⟩⟩
  · intro j
    have hfin : fin = _ := exec_doneRetire_of_record hd hk hh hsa ha hp
    exact ⟨fun hj => hfin.trans (by rw [State.decrementJoin_of_more _ _ _ hj]),
      fun hj => hfin.trans (by rw [State.decrementJoin_of_one _ _ _ hj]),
      fun hj => hfin.trans (by rw [State.decrementJoin_of_zero _ _ _ hj])⟩
  · intro raw l status
    have hx : u.slot t b = x := (continuationKey_reads hk).slot t b
    have parked {w : State} (h : u.park t b sd addr k = w) : reg = .next w :=
      (exec_parkRegister_of_record hd hk hh hp).trans (congrArg _ h)
    refine ⟨fun he => parked (State.park_of_disabled hx he), fun he =>
      ⟨fun hc => ⟨fun hj => ?_, fun hj hf => ⟨?_, ?_⟩⟩, fun hc => ?_⟩⟩
    · exact (parked (State.park_of_bad hx rfl he (if_pos hj))).trans (by rw [if_neg (Decidable.not_not.mpr hc)]; rfl)
    · exact fun hl => parked (State.park_of_full hx rfl he hj hf hl)
    · exact fun hl => parked (State.park_of_room hx rfl he hj hf hl)
    · have hbad : ∃ f, (if recJoin raw = 0 then some .progRecord else recordFault (joinZero raw)) = some f := by
        by_cases hj : recJoin raw = 0
        · exact ⟨_, if_pos hj⟩
        · exact ⟨_, (if_neg hj).trans (if_pos hc)⟩
      obtain ⟨f, hf⟩ := hbad
      exact (parked (State.park_of_bad hx rfl he hf)).trans (by rw [if_pos hc]; rfl)

end Sys2Proof.Machine
end

section
/-! SUPPORT. The drawer's links: swath tables and their commit, slots, frames, loss of lock, and DOWN (R105–R115). -/

namespace Sys2Proof.Machine

theorem State.modLink_congr (s : State) (l : Nat) {f g : Link → Link} (h : f (s.link l) = g (s.link l)) :
    s.modLink l f = s.modLink l g := by
  rw [State.modLink, h, ← State.modLink]

section
variable {s : State} {l : Nat}

/-! ### Swath tables (R106) -/

theorem exec_swcmt_of_unset {v : W64} (hv : v.getLsbD 0 = false) : exec (.swcmt l v) s = .next s :=
  if_pos (by rw [hv]; rfl)

theorem exec_swcmt_of_set {v : W64} (hv : v.getLsbD 0 = true) (hs : s.serves (linkFw l) = true) : exec (.swcmt l v) s =
    if validTable (s.shadow l) then
      .next ((s.modLink l fun y => { y with pending := some (s.shadow l) }).putReg (.swstat l) (s.reg (.swstat l) ||| 4))
    else .next (s.putReg (.swstat l) (s.reg (.swstat l) ||| 2)) :=
  (if_neg (by rw [hv]; decide)).trans (if_neg (by rw [hs]; decide))

theorem State.boundary_of_pending {tab : Tab (BitVec 16)} (hp : (s.link l).pending = some tab) (hst : (s.link l).st ≠ 0) :
    s.boundary l = (s.modLink l fun y => { y with active := tab, pending := none }).putReg (.swstat l)
      ((s.reg (.swstat l) &&& ~~~4) ||| 1) := by
  simp only [State.boundary, if_neg hst, hp]

/-! ### Outbound slots (R107, R110) -/

/-- The queue of a link once a slot inside a frame period has passed. -/
def Link.passSlot (y : Link) : List LinkReq :=
  let e := tget 0 y.active (y.slot % 512)
  if y.st == 0 && !y.replay && (swKind e == 1 || swKind e == 2) then
    sendFrom (swOwner e) (swKind e == 1) y.slot (if swKind e = 2 then swBundle e else 1) 0 [] y.queue
  else y.queue

theorem exec_outboundSlot (hb : (s.link l).slot % 512 ≠ 0) : exec (.outboundSlot l) s =
    .next (s.modLink l fun y => { y with slot := y.slot + 1, queue := (s.link l).passSlot }) := by
  show execOutboundSlot l s = _
  simp only [execOutboundSlot, if_neg hb]
  rfl

theorem LinkReq.reads_of_write {r : LinkReq} (hw : r.write = true) (hm : r.merge = false) : r.reads = false := by
  rw [LinkReq.reads, hw, hm]
  rfl

/-- A slot that has sent as much as it may leaves the rest of the queue. -/
theorem sendFrom_of_full {n k : Nat} (h : n ≤ k) (p : PartNo) (write : Bool) (slot : Nat) (earlier q : List LinkReq) :
    sendFrom p write slot n k earlier q = q := by
  induction q generalizing earlier with
  | nil => rfl
  | cons r rest ih => simp only [sendFrom, ih, h, decide_true, Bool.true_or, if_true, ite_self]

section
variable {y : Link} {e : BitVec 16} {r : LinkReq} {rest : List LinkReq}

theorem Link.passSlot_of_idle (h : y.st ≠ 0 ∨ y.replay = true ∨ swKind (tget 0 y.active (y.slot % 512)) = 0) :
    y.passSlot = y.queue := by
  refine if_neg fun hgo => ?_
  simp only [Bool.and_eq_true, Bool.or_eq_true, beq_iff_eq, Bool.not_eq_true'] at hgo
  obtain ⟨⟨hst, hr⟩, hk⟩ := hgo
  rcases h with h | h | h
  · exact h hst
  · rw [h] at hr
    cases hr
  · omega

variable (hp : r.part = swOwner e) (hs : r.sent = none) (hw : r.write = true) (hm : r.merge = false)
include hp hs hw hm

/-- A W slot takes the write at the head of its owner's queue, and no more. -/
theorem sendFrom_of_write (slot : Nat) :
    sendFrom (swOwner e) true slot 1 0 [] (r :: rest) = { r with sent := some slot } :: rest := by
  simp [sendFrom, hp, hs, hm, LinkReq.reads_of_write hw hm, conflicts, sendFrom_of_full (Nat.le_refl 1)]

/-- A Q slot stops at a write. -/
theorem sendFrom_of_write_in_read_slot (slot n : Nat) : sendFrom (swOwner e) false slot n 0 [] (r :: rest) = r :: rest := by
  simp [sendFrom, hp, hs, LinkReq.reads_of_write hw hm]

variable (he : tget 0 y.active (y.slot % 512) = e) (hst : y.st = 0) (hrep : y.replay = false) (hq : y.queue = r :: rest)
include he hst hrep hq

theorem Link.passSlot_of_write (hk : swKind e = 1) : y.passSlot = { r with sent := some y.slot } :: rest := by
  simp only [Link.passSlot, he, hst, hrep, hk, hq]
  exact sendFrom_of_write hp hs hw hm _

theorem Link.passSlot_of_read (hk : swKind e = 2) : y.passSlot = y.queue := by
  simp only [Link.passSlot, he, hst, hrep, hk, hq]
  exact sendFrom_of_write_in_read_slot hp hs hw hm _ _
end

/-! ### Inbound frames (R110, R113, R316) -/

theorem exec_inboundFrame_of_not_up (hst : (s.link l).st ≠ 0) (intact tagOk : Bool) :
    exec (.inboundFrame l intact tagOk) s = .next s := if_pos hst

variable (hst : (s.link l).st = 0) (tagOk : Bool)
include hst

theorem exec_inboundFrame_of_damaged : exec (.inboundFrame l false tagOk) s = .next (s.modLink l Link.unsend) :=
  (if_neg (fun h => h hst)).trans (if_pos rfl)

theorem exec_inboundFrame_of_none_due (hq : ∀ r ∈ (s.link l).queue, r.sent = none) :
    exec (.inboundFrame l true tagOk) s = .next s := by
  have hdue : (s.link l).queue.filterMap LinkReq.sent = [] := List.filterMap_eq_nil_iff.mpr hq
  refine (if_neg (fun h => h hst)).trans ((if_neg (by decide)).trans ?_)
  simp only [hdue]

theorem exec_inboundFrame_of_single {r : LinkReq} {n : Nat} (hq : (s.link l).queue = [r]) (hr : r.sent = some n) :
    exec (.inboundFrame l true tagOk) s = .next (s.resolveReq l r tagOk) := by
  refine (if_neg (fun h => h hst)).trans ((if_neg (by decide)).trans ?_)
  simp only [hq, List.filterMap_cons, hr, List.filterMap_nil, List.foldl_nil, List.filter_cons, beq_self_eq_true, if_true,
    List.filter_nil, List.foldl_cons]
end

section
variable {s : State} {r : LinkReq}

theorem State.blockData_of_unprotected (hp : (s.part r.part).prot = false) (hi : r.items ≠ []) (tagOk : Bool) :
    s.blockData r tagOk = (r.items.map fun i =>
      (i, if s.isPoisoned (homeKey 0x10 i.pa) i.n then none else some (s.readMem (homeKey 0x10 i.pa) i.n)), s) := by
  obtain ⟨i, is, his⟩ := List.exists_cons_of_ne_nil hi
  simp only [State.blockData, hp, his, Bool.false_and, Bool.false_eq_true, if_false]

theorem State.resolveReq_of_read (hm : r.merge = false) (hw : r.write = false) (hp : (s.part r.part).prot = false)
    (hi : r.items ≠ []) (l : Nat) (tagOk : Bool) : s.resolveReq l r tagOk = (s.dropReq l r).fillElems r (r.items.map fun i =>
      (i.elem, if s.isPoisoned (homeKey 0x10 i.pa) i.n then none else some (s.readMem (homeKey 0x10 i.pa) i.n))) := by
  simp only [State.resolveReq, hm, hw, State.blockData_of_unprotected hp hi, List.map_map, Bool.false_eq_true, if_false]
  rfl

theorem State.dropReq_of_single {l : Nat} (hq : (s.link l).queue = [r]) :
    s.dropReq l r = s.modLink l fun y => { y with queue := [] } :=
  s.modLink_congr l (by simp only [hq, List.filter_cons, bne_self_eq_false, Bool.false_eq_true, if_false, List.filter_nil])
end

/-! ### Loss of lock and DOWN (R113, R115) -/

section
variable {x : Slot} {num : Nat}

/-- A discarded request of another access leaves the slot as it is. -/
theorem Slot.linkDown_of_other (h : ∀ a, x.accs.getLast? = some a → a.num ≠ num) : x.linkDown num = x := by
  unfold Slot.linkDown
  split
  · next a _ ha => exact if_neg (h a ha)
  · rfl

theorem Slot.linkDown_of_waiting {as : List Access} {a : Access} {e : Elem} {es : List Elem} (hh : x.hold = .reply)
    (hx : x.accs = as ++ [a]) (hn : a.num = num) (he : a.elems = e :: es) (hd : e.done = false) :
    x.linkDown num = ({ x with accs := as } : Slot).trap .linkDown e.va (BitVec.ofNat 64 e.lane) := by
  simp only [Slot.linkDown, hh, hx, List.getLast?_concat, if_pos hn, he, List.find?_cons, hd, Bool.not_false, Option.getD_some,
    dropLastAccess, List.dropLast_concat]

end

/-- A request of a link that is DOWN is discarded: LINK.DOWN at the core that waits on it. -/
def State.discard (s : State) (r : LinkReq) : State := s.modSlot r.tile r.slot fun x => x.linkDown r.acc

section
variable {s : State} {r : LinkReq}

theorem State.discard_of_waiting {as : List Access} {a : Access} {e : Elem} {es : List Elem} (hh : (s.slot r.tile r.slot).hold = .reply)
    (hx : (s.slot r.tile r.slot).accs = as ++ [a]) (hn : a.num = r.acc) (he : a.elems = e :: es) (hd : e.done = false) :
    s.discard r = s.modSlot r.tile r.slot fun x =>
      ({ x with accs := as } : Slot).trap .linkDown e.va (BitVec.ofNat 64 e.lane) :=
  s.modSlot_congr _ _ (Slot.linkDown_of_waiting hh hx hn he hd)

theorem State.slot_discard_of_other (h : ∀ a, (s.slot r.tile r.slot).accs.getLast? = some a → a.num ≠ r.acc) (t b : Nat) :
    (s.discard r).slot t b = s.slot t b := by
  have hself := Slot.linkDown_of_other h
  rw [State.discard, State.slot_modSlot]
  split
  · next hsame =>
    obtain ⟨rfl, hb⟩ := hsame
    rw [hself]
    simp only [State.slot, Tile.slot, hb]
  · rfl

theorem State.slot_foldl_discard_of_others {q : List LinkReq} {s : State}
    (h : ∀ r ∈ q, ∀ a, (s.slot r.tile r.slot).accs.getLast? = some a → a.num ≠ r.acc) (t b : Nat) :
    (q.foldl State.discard s).slot t b = s.slot t b := by
  induction q generalizing s with
  | nil => rfl
  | cons r q ih =>
    have hstep := State.slot_discard_of_other (h r List.mem_cons_self)
    exact (ih fun r' hr' => (hstep r'.tile r'.slot).symm ▸ h r' (List.mem_cons_of_mem _ hr')).trans (hstep t b)

theorem State.link_foldl_discard (q : List LinkReq) (s : State) (l : Nat) : (q.foldl State.discard s).link l = s.link l :=
  State.foldl_keeps (fun s : State => s.link l) (f := State.discard) (fun _ _ => rfl) q s
end

theorem exec_linkDownDeclare {s : State} {l : Nat} (hst : (s.link l).st = 1) : exec (.linkDownDeclare l) s =
    .next ((s.link l).queue.foldl State.discard (s.modLink l fun y => { y with st := 2, queue := [] })) := if_neg fun h => h hst

/-- Settles O47: the table's check, the boundary, the slot's queue, the frame's case, and the state of the link. -/
theorem linksCarryRequests : Obligations.LinksCarryRequests := by
  intro l delta v s x dst up unsent
  have passes {q : List LinkReq} (hb : x.slot % 512 ≠ 0) (hq : x.passSlot = q) :
      dst (.outboundSlot l) fun y => { y with slot := y.slot + 1, queue := q } := by
    rw [← hq]
    exact exec_outboundSlot hb
  have passesIdle (hb : x.slot % 512 ≠ 0) (hq : x.passSlot = x.queue) : dst (.outboundSlot l) fun y => { y with slot := y.slot + 1 } :=
    (passes hb hq).trans (congrArg _ (s.modLink_congr l rfl))
  have hunsend : s.modLink l Link.unsend = s.modLink l fun y => { y with queue := unsent, replay := true } := s.modLink_congr l rfl
  refine ⟨exec_swcmt_of_unset, fun hv hs => ⟨fun ht => ?_, fun ht => ?_⟩, fun hb => if_neg hb, fun hb tab hp hst => ?_,
    fun hb => ⟨fun hidle => ?_, fun hst hrep hk r rest hq hp hs hw hm => ?_, fun hst hrep hk r rest hq hp hs hw hm => ?_⟩,
    fun intact tagOk hst => exec_inboundFrame_of_not_up hst intact tagOk, fun tagOk hst => ?_,
    fun tagOk hst hq => exec_inboundFrame_of_none_due hst tagOk hq, fun tagOk r n hst hq hr hm hw hp hi => ?_, fun hst => ?_,
    fun hst => if_neg hst, fun hst hd hs => if_pos ⟨hst, decide_eq_true hd, hs⟩, fun h1 h3 => if_neg fun h => h.1.elim h1 h3,
    fun hst hother => ?_, fun hst r a as e es hq hh hx hn he hd => ?_, fun hst => if_pos hst,
    fun hst hd => if_pos ⟨hst, decide_eq_true hd⟩⟩
  · exact (exec_swcmt_of_set hv hs).trans (if_pos ht)
  · exact (exec_swcmt_of_set hv hs).trans (if_neg (by rw [ht]; decide))
  · exact (if_pos hb).trans (congrArg _ (State.boundary_of_pending hp hst))
  · exact passesIdle hb (Link.passSlot_of_idle hidle)
  · exact passes hb (Link.passSlot_of_write hp hs hw hm rfl hst hrep hq hk)
  · exact passesIdle hb (Link.passSlot_of_read hp hs hw hm rfl hst hrep hq hk)
  · exact (exec_inboundFrame_of_damaged hst tagOk).trans (congrArg _ hunsend)
  · intro found
    rw [exec_inboundFrame_of_single hst tagOk hq hr, State.resolveReq_of_read hm hw hp hi, State.dropReq_of_single hq]
  · exact (if_pos hst).trans (congrArg _ (s.modLink_congr l rfl))
  · exact ⟨_, exec_linkDownDeclare hst, by rw [State.link_foldl_discard, State.link_modLink_same],
      by rw [State.link_foldl_discard, State.link_modLink_same], State.slot_foldl_discard_of_others hother⟩
  · have hdown : exec (.linkDownDeclare l) s = _ := exec_linkDownDeclare hst
    rw [hq] at hdown
    exact hdown.trans (congrArg _ (State.discard_of_waiting hh hx hn he hd))

end Sys2Proof.Machine
end

section
/-! SUPPORT. A drawer access at its link engines: the elements accepted, the one refused, the requests left (R109, R115, R259, R307). -/

namespace Sys2Proof.Machine

/-! ### What acceptance and performance leave -/

theorem acceptElems_reads {s u : State} {t b n : Nat} {p : PartNo} {es pre : List Elem} {g : Got (List Elem)} {bad : Elem}
    (h : s.acceptElems t b p n es = (g, pre, bad, u)) : Reads s u := by
  induction es generalizing s u g pre bad with
  | nil => cases h; exact .refl _
  | cons e r ih =>
    rw [State.acceptElems] at h
    split at h
    · next hh =>
      dsimp only at h
      split at h <;> (next hr => cases h; exact (homeAccept_reads hh).trans (ih hr))
    · next hh => cases h; exact homeAccept_reads hh
    · next hh => cases h; exact homeAccept_reads hh

theorem State.drawerWrite_slot (s : State) (p : PartNo) (off pa n v : Nat) (whole : Bool) (t b : Nat) :
    (s.drawerWrite p off pa n v whole).2.slot t b = s.slot t b := by
  refine slot_of_tiles ?_ t b
  unfold State.drawerWrite
  split
  · split <;> rfl
  · rfl

theorem State.storePrefix_slot (s : State) (p : PartNo) (n : Nat) (es : List Elem) (t b : Nat) :
    (s.storePrefix p n es).slot t b = s.slot t b :=
  State.foldl_keeps (fun s : State => s.slot t b) (fun _ _ => State.drawerWrite_slot ..) _ s

/-! ### A refused element (R164, R259) -/

/-- Element e of the access is refused with fault f: the elements before it of a vector store are performed, and the access is gone. -/
def State.refuseDrawer (s : State) (t b : Nat) (p : PartNo) (a : Access) (f : FaultName) (before : List Elem) (e : Elem) : State :=
  (if a.op = .vstore then s.storePrefix p a.size before else s).modSlot t b fun x =>
    (dropLastAccess x).trap f e.va (BitVec.ofNat 64 e.lane)

theorem State.refuseDrawer_eq {s : State} {t b : Nat} {as : List Access} {a : Access} (hx : (s.slot t b).accs = as ++ [a])
    (p : PartNo) (f : FaultName) (before : List Elem) (e : Elem) : s.refuseDrawer t b p a f before e =
      (if a.op = .vstore then s.storePrefix p a.size before else s).modSlot t b fun x =>
        ({ x with accs := as } : Slot).trap f e.va (BitVec.ofNat 64 e.lane) := by
  have hslot : (if a.op = .vstore then s.storePrefix p a.size before else s).slot t b = s.slot t b := by
    split
    · exact State.storePrefix_slot ..
    · rfl
  refine State.modSlot_congr _ _ _ ?_
  simp only [hslot, dropLastAccess, hx, List.dropLast_concat]

/-! ### Requests in the queues of their links (R109) -/

/-- The request enters the queue of its block's link. -/
def State.queueReq (s : State) (r : LinkReq) : State :=
  s.modLink (linkOf (r.block * 256)) fun y => { y with queue := y.queue ++ [r] }

theorem State.foldl_queueReq_mem (rs : List LinkReq) (s : State) : (rs.foldl State.queueReq s).mem = s.mem :=
  mem_foldl (fun _ _ => State.modLink_mem ..) rs s

theorem State.foldl_queueReq_slot (rs : List LinkReq) (s : State) (t b : Nat) : (rs.foldl State.queueReq s).slot t b = s.slot t b :=
  State.foldl_keeps (fun s : State => s.slot t b) (f := State.queueReq) (fun _ _ => rfl) rs s

theorem State.queueReq_link_queue (s : State) (r : LinkReq) (l : Nat) : ((s.queueReq r).link l).queue =
    (s.link l).queue ++ if linkOf (r.block * 256) == l then [r] else [] := by
  rw [State.queueReq, State.link_modLink]
  by_cases h : l = linkOf (r.block * 256)
  · simp [h]
  · simp [h, Ne.symm h]

/-- Each link's queue grows by the requests for its blocks, in their order. -/
theorem State.foldl_queueReq_link_queue (rs : List LinkReq) (s : State) (l : Nat) : ((rs.foldl State.queueReq s).link l).queue =
    (s.link l).queue ++ rs.filter fun r => linkOf (r.block * 256) == l := by
  induction rs generalizing s with
  | nil => exact (List.append_nil _).symm
  | cons r rs ih =>
    rw [List.foldl_cons, ih, State.queueReq_link_queue, List.append_assoc, List.filter_cons]
    split <;> rfl

/-! ### The event -/

/-- The link of the element's block is DOWN. -/
def State.onDownLink (s : State) (e : Elem) : Bool := (s.link (linkOf (offBits e.va))).st == 2

theorem State.find_onDownLink_of_none {s : State} {es : List Elem} (h : ∀ e ∈ es, s.onDownLink e = false) :
    es.find? s.onDownLink = none := by
  simpa using h

section
variable {s : State} {before after : List Elem} {e : Elem}
  (hup : ∀ e ∈ before, s.onDownLink e = false) (hdown : s.onDownLink e = true)
include hup hdown

theorem State.find_onDownLink_of_first : (before ++ e :: after).find? s.onDownLink = some e :=
  List.find?_eq_some_iff_append.mpr ⟨hdown, before, after, rfl, by simpa using hup⟩

theorem State.takeWhile_onDownLink_of_first : (before ++ e :: after).takeWhile (fun e => !s.onDownLink e) = before := by
  rw [List.takeWhile_append_of_pos (by simpa using hup), List.takeWhile_cons_of_neg (by simpa using hdown), List.append_nil]
end

/-- The running core's newest access is a drawer access that its link engines have not taken up. -/
structure State.DrawerDue (s : State) (t i : Nat) (a : Access) : Prop where
  hold : (s.slot t (s.run t)).hold = .reply
  newest : (s.slot t (s.run t)).accs[i]? = some a
  last : i + 1 = (s.slot t (s.run t)).accs.length
  unhanded : a.handed = false
  home : ∀ e ∈ a.elems, homeBits e.va = 0x10
  keyed : (s.part (s.slot t (s.run t)).part).keysDue = false

section
variable {s u : State} {t i : Nat} {a : Access} {pre es : List Elem} {bad : Elem} (hd : s.DrawerDue t i a)
include hd

/-- No check of the event itself holds such an access back. -/
theorem State.DrawerDue.unguarded : (a.handed || !(a.elems.all fun e => homeBits e.va == 0x10) ||
    i + 1 ≠ (s.slot t (s.run t)).accs.length || (s.part (s.slot t (s.run t)).part).keysDue) = false := by
  have hall : (a.elems.all fun e => homeBits e.va == 0x10) = true := by simpa using hd.home
  simp [hd.unhanded, hall, hd.last, hd.keyed]

theorem exec_drawerRequest_of_fault {f : FaultName}
    (ha : s.acceptElems t (s.run t) (s.slot t (s.run t)).part a.size a.elems = (.fault f, pre, bad, u))
    (hup : ∀ e ∈ pre, s.onDownLink e = false) : exec (.drawerRequest t i) s =
      .next (u.refuseDrawer t (s.run t) (s.slot t (s.run t)).part a f pre bad) := by
  have hfind := State.find_onDownLink_of_none hup
  unfold State.onDownLink at hfind
  show execDrawerRequest t i s = _
  simp only [execDrawerRequest, hd.hold, hd.newest, hd.unguarded, ha, hfind]
  cases hop : a.op <;> simp [State.refuseDrawer, hop]

theorem exec_drawerRequest_of_down {before after : List Elem} {e : Elem}
    (ha : s.acceptElems t (s.run t) (s.slot t (s.run t)).part a.size a.elems = (.ok (before ++ e :: after), pre, bad, u))
    (hup : ∀ e ∈ before, s.onDownLink e = false) (hdown : s.onDownLink e = true) : exec (.drawerRequest t i) s =
      .next (u.refuseDrawer t (s.run t) (s.slot t (s.run t)).part a .linkDown before e) := by
  have hfind := State.find_onDownLink_of_first (after := after) hup hdown
  have htake := State.takeWhile_onDownLink_of_first (after := after) hup hdown
  unfold State.onDownLink at hfind htake
  show execDrawerRequest t i s = _
  simp only [execDrawerRequest, hd.hold, hd.newest, hd.unguarded, ha, hfind, htake]
  cases hop : a.op <;> simp [State.refuseDrawer, hop]

theorem exec_drawerRequest_of_accepted
    (ha : s.acceptElems t (s.run t) (s.slot t (s.run t)).part a.size a.elems = (.ok es, pre, bad, u))
    (hup : ∀ e ∈ es, s.onDownLink e = false) : exec (.drawerRequest t i) s =
      .next ((requestsOf t (s.run t) (s.slot t (s.run t)).part a es).foldl State.queueReq (u.modSlot t (s.run t) fun x =>
        { x with accs := x.accs.set i { a with elems := es, accepted := true, handed := true } })) := by
  have hfind := State.find_onDownLink_of_none hup
  unfold State.onDownLink at hfind
  show execDrawerRequest t i s = _
  simp only [execDrawerRequest, hd.hold, hd.newest, hd.unguarded, ha, hfind]
  rfl
end

/-- Settles O48: acceptance leaves the slots, so that a refused access leaves the others, and the requests only enter queues. -/
theorem drawerAccessesBecomeRequests : Obligations.DrawerAccessesBecomeRequests := by
  intro t as a s b x act down refused hh hx hhand hhome hk
  have hdue : s.DrawerDue t as.length a := ⟨hh, by rw [hx, List.getElem?_concat_length], by rw [hx, List.length_append]; rfl, hhand,
    hhome, hk⟩
  have up {e : Elem} (h : ¬ down e) : s.onDownLink e = false := beq_eq_false_iff_ne.mpr h
  have refuses {u : State} {f : FaultName} {pre : List Elem} {bad : Elem} (hu : Reads s u)
      (h : act = .next (u.refuseDrawer t b x.part a f pre bad)) : refused u f pre bad :=
    h.trans (congrArg _ (State.refuseDrawer_eq ((congrArg Slot.accs (hu.slot t b)).trans hx) ..))
  refine ⟨fun f pre bad u ha hup => ?_, fun es pre bad u ha => ⟨fun p e r hes hup hdown => ?_, fun hup => ?_⟩⟩
  · exact refuses (acceptElems_reads ha) (exec_drawerRequest_of_fault hdue ha fun e he => up (hup e he))
  · subst hes
    exact refuses (acceptElems_reads ha) (exec_drawerRequest_of_down hdue ha (fun q hq => up (hup q hq)) (beq_iff_eq.mpr hdown))
  · refine ⟨_, exec_drawerRequest_of_accepted hdue ha fun e he => up (hup e he), ?_, ?_, fun l => ?_⟩
    · rw [State.foldl_queueReq_mem, State.modSlot_mem]
    · rw [State.foldl_queueReq_slot, State.slot_modSlot_same]
    · exact State.foldl_queueReq_link_queue ..

end Sys2Proof.Machine
end

section
/-! SUPPORT. An integer product in an accumulator: the entries of the tables that a work applies, the groups of a product as the
products along K, and the state that a completed command leaves (R132, R133, R187, R197). -/

namespace Sys2Proof.Machine

/-! ### Entries of a table -/

section
variable {α : Type} {d x : α} {m : Tab α} {k : Nat}

theorem tget_append (l : Tab α) : tget d (l ++ m) k = tget (tget d m k) l k := by
  induction l with
  | nil => rfl
  | cons e l ih => simp only [List.cons_append, tget, ih]

theorem tget_of_not_mem (h : ∀ y, (k, y) ∉ m) : tget d m k = d := by
  induction m with
  | nil => rfl
  | cons e m ih =>
    have hne : e.1 ≠ k := fun he => h e.2 (he ▸ List.mem_cons_self)
    rw [tget, if_neg hne, ih fun y hy => h y (List.mem_cons_of_mem e hy)]

theorem tget_of_mem (h : (k, x) ∈ m) (hu : ∀ y, (k, y) ∈ m → y = x) : tget d m k = x := by
  induction m with
  | nil => cases h
  | cons e m ih =>
    rw [tget]
    split
    · next he => exact hu e.2 (he ▸ List.mem_cons_self)
    · next he =>
      have htail : (k, x) ∈ m := (List.mem_cons.mp h).resolve_left fun hx => he (congrArg Prod.fst hx).symm
      exact ih htail fun y hy => hu y (List.mem_cons_of_mem e hy)

/-- A filter on the keys hides the entries that it drops and no others. -/
theorem tget_filter (p : Nat → Bool) : tget d (m.filter fun e => p e.1) k = if p k then tget d m k else d := by
  induction m with
  | nil => simp
  | cons e m ih =>
    by_cases hk : e.1 = k
    · subst hk
      by_cases hp : p e.1 = true <;> simp [tget, hp, ih]
    · by_cases hp : p e.1 = true <;> simp [tget, hp, hk, ih]
end

/-! ### A work applied to an accumulator (R187) -/

/-- The element at key k lies in the rows and columns of a work. -/
def Work.covers (w : Work) (k : Nat) : Bool := decide (k / 128 < w.m) && decide (k % 128 < w.n)

theorem Work.covers_iff {w : Work} {i j : Nat} (hj : j < 128) : w.covers (128 * i + j) = true ↔ i < w.m ∧ j < w.n := by
  have hdiv : (128 * i + j) / 128 = i := by omega
  have hmod : (128 * i + j) % 128 = j := by omega
  simp only [Work.covers, hdiv, hmod, Bool.and_eq_true, decide_eq_true_eq]

/-- A table by rows of 128 holds each of its entries, and no other. -/
theorem tget_grid {α : Type} (d : α) (f : Nat → Nat → α) {m n i j : Nat} (hn : n ≤ 128) (hj : j < 128) :
    tget d ((List.range m).flatMap fun r => (List.range n).map fun c => (128 * r + c, f r c)) (128 * i + j) =
      if i < m ∧ j < n then f i j else d := by
  have mem_iff (y : α) : (128 * i + j, y) ∈ ((List.range m).flatMap fun r => (List.range n).map fun c => (128 * r + c, f r c)) ↔
      (i < m ∧ j < n) ∧ f i j = y := by
    simp only [List.mem_flatMap, List.mem_map, List.mem_range, Prod.mk.injEq]
    constructor
    · rintro ⟨r, hr, c, hc, hkey, rfl⟩
      obtain rfl : r = i := by omega
      obtain rfl : c = j := by omega
      exact ⟨⟨hr, hc⟩, rfl⟩
    · rintro ⟨⟨hi, hj'⟩, rfl⟩
      exact ⟨i, hi, j, hj', rfl, rfl⟩
  split
  · next hin => exact tget_of_mem ((mem_iff _).mpr ⟨hin, rfl⟩) fun y hy => ((mem_iff y).mp hy).2.symm
  · next hout => exact tget_of_not_mem fun y hy => hout ((mem_iff y).mp hy).1

/-- The accumulator that the groups of a work are added to: under Z, with the covered elements overwritten. -/
def Work.base (w : Work) (z : Bool) (a : Acc) : Acc := if z then a.overwrite w.m w.n else a

theorem Work.tget_base (w : Work) (z : Bool) (a : Acc) (k : Nat) :
    tget 0 (w.base z a).elems k = if z ∧ w.covers k then 0 else tget 0 a.elems k := by
  cases z with
  | false => rfl
  | true =>
    have helems : (w.base true a).elems = a.elems.filter fun e => !w.covers e.1 := by
      show (a.overwrite w.m w.n).elems = _
      unfold Acc.overwrite
      dsimp only
      split <;> rfl
    rw [helems, tget_filter fun k => !w.covers k]
    cases w.covers k <;> rfl

section
variable {w : Work} {z : Bool} {hi : Nat} {a : Acc} (hpos : 0 < hi)
include hpos

theorem Work.apply_tag : (w.apply z 0 hi a).1.tag = tagOf w.lane := by
  rw [Work.apply, if_neg (Nat.not_le.mpr hpos)]

/-- The elements outside a work stay, and a table by rows of its own follows them. -/
theorem Work.apply_elems : (w.apply z 0 hi a).1.elems = (w.base z a).elems.filter (fun e => !w.covers e.1) ++
    (List.range w.m).flatMap fun r => (List.range w.n).map fun c => (128 * r + c,
      (addGroups w r c 0 hi (tget 0 ((w.base z a).elems.filter fun e => e.1 / 128 == r) (128 * r + c))).1) := by
  rw [Work.apply, if_neg (Nat.not_le.mpr hpos)]
  simp only [beq_self_eq_true, Bool.and_true, Nat.sub_zero, List.map_flatMap, List.map_map]
  rfl

/-- Every group of a work on an accumulator: each covered element takes its groups, from zero under Z. -/
theorem Work.tget_apply {i j : Nat} (hn : w.n ≤ 128) (hj : j < 128) :
    tget 0 (w.apply z 0 hi a).1.elems (128 * i + j) =
      if i < w.m ∧ j < w.n then (addGroups w i j 0 hi (if z then 0 else tget 0 a.elems (128 * i + j))).1
      else tget 0 a.elems (128 * i + j) := by
  have hrow (l : Tab W32) : tget 0 (l.filter fun e => e.1 / 128 == i) (128 * i + j) = tget 0 l (128 * i + j) := by
    rw [tget_filter fun k => k / 128 == i, if_pos (beq_iff_eq.mpr (by omega))]
  rw [Work.apply_elems hpos, tget_append, tget_filter fun k => !w.covers k, tget_grid (hn := hn) (hj := hj), hrow, w.tget_base]
  by_cases hin : i < w.m ∧ j < w.n
  · have hcov : w.covers (128 * i + j) = true := (w.covers_iff hj).mpr hin
    simp only [hcov, if_pos hin, Bool.not_true, Bool.false_eq_true, and_true, if_false]
  · have hcov : w.covers (128 * i + j) = false := Bool.eq_false_iff.mpr fun h => hin ((w.covers_iff hj).mp h)
    simp only [hcov, if_neg hin, w.tget_base, Bool.not_false, Bool.false_eq_true, and_false, if_true, if_false]
end

/-! ### Groups of integer products (R132, R133) -/

theorem intSum_append (l r : List Num) : intSum (l ++ r) = intSum l + intSum r := by
  induction l with
  | nil => exact (Int.zero_add _).symm
  | cons p l ih => cases p <;> simp only [List.cons_append, intSum, ih, Int.add_assoc]

theorem intSum_map_int {α : Type} (f : α → Int) (l : List α) : intSum (l.map fun x => .int (f x)) = (l.map f).sum := by
  induction l with
  | nil => rfl
  | cons x l ih => simp only [List.map_cons, intSum, ih, List.sum_cons]

/-- The groups of an element, one after another, add the sum of all their products modulo 2^32. -/
theorem addGroups_i32 {w : Work} (hw : w.lane = .i32) (i j lo n : Nat) (v : W32) :
    (addGroups w i j lo n v).1 = v + BitVec.ofInt 32 (intSum ((List.range' lo n).flatMap (w.prods i j))) := by
  induction n generalizing lo v with
  | zero => simp [addGroups, intSum]
  | succ n ih =>
    simp only [addGroups, hw, addGroup, ih, List.range'_succ, List.flatMap_cons, intSum_append, BitVec.ofInt_add,
      BitVec.ofInt_toInt, BitVec.add_assoc]

/-- Two lists cut alike give together, group by group, what they give at once. -/
theorem flatMap_zipWith_chunk {α β γ : Type} (f : α → β → γ) (g n : Nat) (a : List α) (b : List β) (ha : a.length ≤ g * n)
    (hab : a.length = b.length) :
    ((List.range n).flatMap fun q => List.zipWith f ((chunk g n a).getD q []) ((chunk g n b).getD q [])) = List.zipWith f a b := by
  induction n generalizing a b with
  | zero =>
    obtain rfl : a = [] := List.length_eq_zero_iff.mp (by omega)
    rfl
  | succ n ih =>
    have hrest := ih (a.drop g) (b.drop g) (by rw [List.length_drop, Nat.sub_le_iff_le_add]; exact ha)
      (by rw [List.length_drop, List.length_drop, hab])
    rw [List.range_succ_eq_map, List.flatMap_cons, List.flatMap_map]
    simp only [chunk, List.getD_cons_zero, List.getD_cons_succ, hrest]
    rw [← List.take_zipWith, ← List.drop_zipWith, List.take_append_drop]

theorem groupSize_pos (ty : Ty) : 0 < groupSize ty := by cases ty <;> decide

/-- The groups of a product reach to the end of K. -/
theorem le_groupSize_mul_groups (ty : Ty) (k : Nat) : k ≤ groupSize ty * ((k + groupSize ty - 1) / groupSize ty) := by
  have hpos := groupSize_pos ty
  have hdiv := Nat.div_add_mod (k + groupSize ty - 1) (groupSize ty)
  have hmod := Nat.mod_lt (k + groupSize ty - 1) hpos
  omega

theorem multiplyWork_groups_pos {k : Nat} (hk : 0 < k) (ty : Ty) (lane : LaneTy) (a b : List (List Term)) :
    0 < (multiplyWork ty lane k a b).groups :=
  Nat.div_pos (by omega) (groupSize_pos ty)

/-- The products of an element's groups are those of its row and column along K. -/
theorem multiplyWork_prods (ty : Ty) (lane : LaneTy) {k i j : Nat} {a b : List (List Term)} {ra rb : List Term}
    (ha : a[i]? = some ra) (hb : b[j]? = some rb) (hla : ra.length = k) (hlb : rb.length = k) :
    let w := multiplyWork ty lane k a b
    (List.range w.groups).flatMap (w.prods i j) = List.zipWith productOf ra rb := by
  have hlen : ra.length ≤ groupSize ty * ((k + groupSize ty - 1) / groupSize ty) := hla ▸ le_groupSize_mul_groups ty ra.length
  rw [← flatMap_zipWith_chunk productOf _ _ ra rb hlen (hla.trans hlb.symm)]
  simp only [multiplyWork, List.getD_eq_getElem?_getD, List.getElem?_map, ha, hb, Option.map_some, Option.getD_some]

/-! ### Integer tile registers (R122, R184) -/

/-- A tile register of an integer type that the matrix engine multiplies. -/
def TileReg.Whole (r : TileReg) : Prop := r.ty = .i8 ∨ r.ty = .ui8 ∨ r.ty = .i4

/-- The integer in row i and column k of a tile register. -/
def TileReg.value (r : TileReg) (i k : Nat) : Int :=
  match readTy r.ty (tget 0 r.data (512 * i + k)) with
  | .int n => n
  | .flt _ => 0

theorem TileReg.readTy_of_whole {r : TileReg} (h : r.Whole) (i k : Nat) :
    readTy r.ty (tget 0 r.data (512 * i + k)) = .int (r.value i k) := by
  rcases h with h | h | h <;> simp only [TileReg.value, h] <;> rfl

theorem TileReg.mx_of_whole {r : TileReg} (h : r.Whole) : r.ty.mx = false := by
  rcases h with h | h | h <;> rw [h] <;> rfl

theorem TileReg.getElem?_terms {r : TileReg} (h : r.Whole) (hc : r.cols ≤ 512) {i : Nat} (hi : i < r.rows) :
    r.terms[i]? = some ((List.range r.cols).map fun k => (.int (r.value i k), some 0)) := by
  have hrow {k : Nat} (hk : k < r.cols) :
      tget 0 (r.data.filter fun e => e.1 / 512 == i) (512 * i + k) = tget 0 r.data (512 * i + k) := by
    rw [tget_filter fun n => n / 512 == i, if_pos (beq_iff_eq.mpr (by omega))]
  rw [TileReg.terms, List.getElem?_map, List.getElem?_range hi, Option.map_some]
  refine congrArg some (List.map_congr_left fun k hk => ?_)
  rw [hrow (List.mem_range.mp hk), TileReg.readTy_of_whole h, TileReg.mx_of_whole h]
  rfl

section
variable {x y : TileReg}

/-- The work of a product of two integer tile registers. -/
def integerWork (x y : TileReg) : Work := multiplyWork x.ty .i32 x.cols x.terms y.terms

theorem integerWork_m : (integerWork x y).m = x.rows := by simp [integerWork, multiplyWork, TileReg.terms]
theorem integerWork_n : (integerWork x y).n = y.rows := by simp [integerWork, multiplyWork, TileReg.terms]
theorem integerWork_groups_pos (hpos : 0 < x.cols) : 0 < (integerWork x y).groups := multiplyWork_groups_pos hpos ..

variable (hx : x.Whole) (hy : y.Whole) (hcols : x.cols = y.cols) (hc : x.cols ≤ 512)
include hx hy hcols hc

/-- The products of an element's groups are the integer products along K. -/
theorem intSum_integerWork {i j : Nat} (hi : i < x.rows) (hj : j < y.rows) :
    intSum ((List.range (integerWork x y).groups).flatMap ((integerWork x y).prods i j)) =
      ((List.range x.cols).map fun k => x.value i k * y.value j k).sum := by
  have hrowx := TileReg.getElem?_terms hx hc hi
  have hrowy := TileReg.getElem?_terms hy (hcols ▸ hc) hj
  rw [integerWork, multiplyWork_prods _ _ hrowx hrowy (by simp) (by simp [hcols]), hcols, List.zipWith_map, List.zipWith_self]
  exact intSum_map_int (fun k => x.value i k * y.value j k) _

/-- The elements of an accumulator after a whole integer product. -/
theorem tget_apply_integerWork (hpos : 0 < x.cols) (hn : y.rows ≤ 128) (z : Bool) (a : Acc) {i j : Nat} (hj : j < 128) :
    tget 0 ((integerWork x y).apply z 0 (integerWork x y).groups a).1.elems (128 * i + j) =
      if i < x.rows ∧ j < y.rows then
        (if z then 0 else tget 0 a.elems (128 * i + j)) +
          BitVec.ofInt 32 (((List.range x.cols).map fun k => x.value i k * y.value j k).sum)
      else tget 0 a.elems (128 * i + j) := by
  rw [Work.tget_apply (integerWork_groups_pos hpos) (integerWork_n ▸ hn) hj, integerWork_m, integerWork_n]
  split
  · next hin => rw [addGroups_i32 rfl, ← List.range_eq_range', intSum_integerWork hx hy hcols hc hin.1 hin.2]
  · rfl
end

/-! ### The end of a command (R90, R95, R190) -/

theorem Slot.putQueue_lasting (x : Slot) (m : Bool) (q : List Cmd) : (x.putQueue m q).lasting = x.lasting := by
  unfold Slot.putQueue
  split <;> rfl

theorem State.engineFault_lasting (s : State) (t b : Nat) (m : Bool) (c : Cmd) (n : FaultName) (addr detail : W64) :
    ((s.engineFault t b m c n addr detail).slot t b).lasting = (s.slot t b).lasting := by
  rw [State.engineFault, State.slot_modSlot_same, Slot.faults_lasting, Slot.modCmd_lasting]

theorem State.popCmd_lasting (s : State) (t b : Nat) (m : Bool) (n : Nat) :
    ((s.popCmd t b m n).slot t b).lasting = (s.slot t b).lasting := by
  rw [State.popCmd, State.arm_lasting, State.slot_modSlot_same, Slot.putQueue_lasting]

theorem State.modCmd_lasting (s : State) (t b : Nat) (m : Bool) (n : Nat) (f : Cmd → Cmd) :
    ((s.modCmd t b m n f).slot t b).lasting = (s.slot t b).lasting := by
  rw [State.modCmd, State.slot_modSlot_same, Slot.modCmd_lasting]

/-- Whether it sends its signal, keeps it due or faults there, a command that ends leaves the registers of its slot. -/
theorem State.finishCmd_lasting (s : State) (t b : Nat) (m : Bool) (c : Cmd) :
    ((s.finishCmd t b m c).slot t b).lasting = (s.slot t b).lasting := by
  unfold State.finishCmd
  split
  · exact State.popCmd_lasting ..
  · dsimp only
    split
    · rw [State.engineFault_lasting, State.modCmd_lasting]
    · split
      · rw [State.popCmd_lasting, State.slot_putCell]
      · rw [State.engineFault_lasting, State.modCmd_lasting]

theorem Slot.getA_of_lasting {x y : Slot} (h : x.lasting = y.lasting) (r : AReg) : x.getA r = y.getA r := by
  show x.lasting.getA r = y.lasting.getA r
  rw [h]

/-! ### A product that completes (R187, R197) -/

theorem Acc.logged_elems (a : Acc) (e : LogEntry) : (a.logged e).elems = a.elems := by
  unfold Acc.logged
  split <;> rfl

theorem Acc.logged_tag (a : Acc) (e : LogEntry) : (a.logged e).tag = a.tag := by
  unfold Acc.logged
  split <;> rfl

/-- A command that reads no weights applies all the groups that its progress word leaves, and is logged. -/
theorem State.accumulate_getA {s : State} {t b : Nat} {c : Cmd} (hi : imageOf c.instr = none) (acc : AReg) (z : Bool) (w : Work) :
    let x := s.slot t b
    ((s.accumulate t b c acc z w).slot t b).getA acc =
      (w.apply z c.count w.groups (x.getA acc)).1.logged ⟨c.instr, c.ha, c.param, gensOf x c.instr⟩ := by
  have hbad : s.blockBad (s.slot t b).part c.instr c.ha w.size c.count = none := by simp only [State.blockBad, hi]
  have hset (x : Slot) (a : Acc) (o : Bool) : (if o then (x.setA acc a).setMstat mstatIovf else x.setA acc a).getA acc = a := by
    have hget : (x.setA acc a).getA acc = a := by rw [Slot.getA_setA, if_pos rfl]
    cases o <;> exact hget
  dsimp only [State.accumulate]
  rw [hbad]
  dsimp only
  rw [Slot.getA_of_lasting ((State.finishCmd_lasting ..).trans (State.modCmd_lasting ..)), State.slot_modSlot_same, hset]
  rfl

theorem exec_matrixCommandComplete_of_started {s : State} {t : Nat} {c : Cmd} {rest : List Cmd}
    (hq : (s.slot t (s.run t)).mq = c :: rest) (he : s.enginesRun t (s.run t) = true) (hs : c.started = true)
    (hf : c.fpend = none) (hd : c.sigdue = false) :
    exec (.matrixCommandComplete t) s = .next (s.performMatrix t (s.run t) c) := by
  show execMatrixCommandComplete t s = _
  simp only [execMatrixCommandComplete, hq, he, hs, hf, hd]
  rfl

theorem State.enginesRun_of_busy {s : State} {t : Nat} (hi : (s.tile t).idle = false) (hb : (s.slot t (s.run t)).st = .busy)
    (ht : (s.slot t (s.run t)).task.isSome = true) : s.enginesRun t (s.run t) = true := by
  simp [State.enginesRun, hi, hb, ht]

theorem State.performMatrix_mma {s : State} {t b : Nat} {c : Cmd} {acc : AReg} {ta tb : TReg} {tya tyb tyAcc : Ty} {z : Bool} {e : Eng}
    (hi : c.instr = .mma acc ta tb tya tyb tyAcc z e) :
    let x := s.slot t b
    s.performMatrix t b c = s.accumulate t b c acc z
      (multiplyWork tya (laneAcc tyAcc) (x.getT ta).cols (x.getT ta).terms (x.getT tb).terms) := by
  simp only [State.performMatrix, hi, accWrite, State.workOf]

/-- Settles O41: the groups of an element are its products along K, in order, and each is added modulo 2^32. -/
theorem integerProducts : Obligations.IntegerProducts := by
  intro t c rest acc ta tb tya tyb z e s b x A B whole value old hidle hbusy htask hq hf hs hd hcount hi hwa hwb hta htb hcols
    hpos hc _ hrb
  subst hta htb
  have hexec := exec_matrixCommandComplete_of_started hq (State.enginesRun_of_busy hidle hbusy htask) hs hf hd
  let w := integerWork A B
  obtain ⟨l, hacc⟩ : ∃ l, ((s.performMatrix t b c).slot t b).getA acc = (w.apply z 0 w.groups (x.getA acc)).1.logged l :=
    ⟨_, by rw [State.performMatrix_mma hi, State.accumulate_getA (by rw [hi]; rfl), hcount]; rfl⟩
  have helem {i j : Nat} (hj : j < 128) := tget_apply_integerWork hwa hwb hcols hc hpos hrb z (x.getA acc) (i := i) hj
  refine ⟨_, hexec, ?_⟩
  show Acc.tag (((s.performMatrix t b c).slot t b).getA acc) = _ ∧ _
  rw [hacc, Acc.logged_tag, Acc.logged_elems]
  refine ⟨Work.apply_tag (integerWork_groups_pos hpos), fun i hi j hj => ?_, fun i _ j hj hout => ?_⟩
  · exact (helem (Nat.lt_of_lt_of_le hj hrb)).trans (if_pos ⟨hi, hj⟩)
  · exact (helem hj).trans (if_neg (by omega))

end Sys2Proof.Machine
end

section
/-! SUPPORT. The scalar ALU: the functions of its operands as the tables of the rules give them, and how a scalar instruction ends
(R135–R141). -/

namespace Sys2Proof.Machine

/-! ### Functions of operands (R136, R137) -/

theorem mulHigh_eq (a b : W64) : mulHigh a b = BitVec.ofInt 64 (a.toInt * b.toInt / 2 ^ 64) := rfl

theorem minS_eq (a b : W64) : minS a b = if a.toInt ≤ b.toInt then a else b := by
  simp only [minS, slt_iff, decide_eq_true_eq, ← Int.not_le, ite_not]
theorem maxS_eq (a b : W64) : maxS a b = if b.toInt ≤ a.toInt then a else b := by
  simp only [maxS, slt_iff, decide_eq_true_eq, ← Int.not_le, ite_not]
theorem minU_eq (a b : W64) : minU a b = if a.toNat ≤ b.toNat then a else b := by
  simp only [minU, ult_iff, decide_eq_true_eq, ← Nat.not_le, ite_not]
theorem maxU_eq (a b : W64) : maxU a b = if b.toNat ≤ a.toNat then a else b := by
  simp only [maxU, ult_iff, decide_eq_true_eq, ← Nat.not_le, ite_not]

theorem bit_slt (a b : W64) : bit (a.slt b) = if a.toInt < b.toInt then 1 else 0 := by
  simp only [bit, slt_iff, decide_eq_true_eq]

theorem bit_ult (a b : W64) : bit (a.ult b) = if a.toNat < b.toNat then 1 else 0 := by
  simp only [bit, ult_iff, decide_eq_true_eq]

section
variable {a b : W64}

theorem divS_of_ne (hb : b ≠ 0) : divS a b = BitVec.ofInt 64 (a.toInt.tdiv b.toInt) := if_neg hb
theorem divU_of_ne (hb : b ≠ 0) : divU a b = BitVec.ofNat 64 (a.toNat / b.toNat) := if_neg hb
theorem remS_of_ne (hb : b ≠ 0) : remS a b = a - b * BitVec.ofInt 64 (a.toInt.tdiv b.toInt) := (if_neg hb).trans (tmod_eq a b)
theorem remU_of_ne (hb : b ≠ 0) : remU a b = a - b * BitVec.ofNat 64 (a.toNat / b.toNat) := (if_neg hb).trans (umod_eq a b)

theorem divS_zero (hb : b = 0) : divS a b = BitVec.allOnes 64 := if_pos hb
theorem divU_zero (hb : b = 0) : divU a b = BitVec.allOnes 64 := if_pos hb
theorem remS_zero (hb : b = 0) : remS a b = a := if_pos hb
theorem remU_zero (hb : b = 0) : remU a b = a := if_pos hb
end

/-! ### The end of a scalar instruction -/

/-- An instruction writes the value that its operands at issue give. -/
theorem completes_value {i : Instr} {s : State} {k : State → Res} {n : Nat} {sd : SReg} {v : Slot → W64} {w : W64}
    (he : exec i s = issue i s k) (hk : k s = .done (s.modCore fun x => x.setS sd (v x)) n) (hv : v s.core = w) (h : Issues i s) :
    Completes i s (s.modCore fun x => x.setS sd w) n :=
  reg_result (w := fun _ => w) he hk hv h

/-- Settles O1: each row of the table by the function of its two operands. -/
theorem scalarRegisterForms : Obligations.ScalarRegisterForms := by
  intro sd sa sb s gives
  refine ⟨reg_result rfl rfl rfl, reg_result rfl rfl rfl, reg_result rfl rfl rfl, reg_result rfl rfl (mulHigh_eq _ _),
    reg_result rfl rfl rfl, reg_result rfl rfl rfl, reg_result rfl rfl rfl, reg_result rfl rfl (congrArg _ (shamt_eq _)),
    reg_result rfl rfl (congrArg _ (shamt_eq _)), reg_result rfl rfl (congrArg _ (shamt_eq _)), reg_result rfl rfl (minS_eq _ _),
    reg_result rfl rfl (maxS_eq _ _), reg_result rfl rfl (minU_eq _ _), reg_result rfl rfl (maxU_eq _ _),
    reg_result rfl rfl (bit_slt _ _), reg_result rfl rfl (bit_ult _ _), fun hb => ⟨?_, ?_, ?_, ?_⟩⟩
  · exact reg_result rfl rfl (divS_of_ne hb)
  · exact reg_result rfl rfl (divU_of_ne hb)
  · exact reg_result rfl rfl (remS_of_ne hb)
  · exact reg_result rfl rfl (remU_of_ne hb)

/-- Settles O2: both corners by the value of each function there. -/
theorem divisionCorners : Obligations.DivisionCorners := by
  intro sd sa sb s gives
  refine ⟨fun hb => ⟨?_, ?_, ?_, ?_⟩, fun ha hb => ⟨?_, ?_, ?_, ?_⟩⟩
  · exact completes_value rfl rfl (divS_zero hb)
  · exact completes_value rfl rfl (divU_zero hb)
  · exact completes_value rfl rfl (remS_zero hb)
  · exact completes_value rfl rfl (remU_zero hb)
  · exact completes_value rfl rfl ((congr (congrArg divS ha) hb).trans (by decide))
  · exact completes_value rfl rfl ((congr (congrArg remS ha) hb).trans (by decide))
  · exact completes_value rfl rfl ((congr (congrArg divU ha) hb).trans (by decide))
  · exact completes_value rfl rfl ((congr (congrArg remU ha) hb).trans (by decide))

/-! ### Bit fields (R140) -/

theorem fieldMask_getLsbD (len j : Nat) : (fieldMask len).getLsbD j = (decide (j < 64) && decide (j < len)) := by
  rw [fieldMask, BitVec.getLsbD_ofNat, Nat.testBit_two_pow_sub_one]

theorem extractField_getLsbD (a : W64) (pos len : Nat) {j : Nat} (hj : j < 64) :
    (extractField a pos len).getLsbD j = (decide (j < len) && a.getLsbD (pos + j)) := by
  rw [extractField, BitVec.getLsbD_and, BitVec.getLsbD_ushiftRight, fieldMask_getLsbD, decide_eq_true hj, Bool.true_and, Bool.and_comm]

theorem insertField_getLsbD (old a : W64) (pos len : Nat) {j : Nat} (hj : j < 64) :
    (insertField old a pos len).getLsbD j = if pos ≤ j ∧ j < pos + len then a.getLsbD (j - pos) else old.getLsbD j := by
  simp only [insertField, BitVec.getLsbD_or, BitVec.getLsbD_and, BitVec.getLsbD_not, BitVec.getLsbD_shiftLeft, fieldMask_getLsbD, hj,
    decide_true, Bool.true_and, show j - pos < 64 by omega]
  by_cases hpos : j < pos
  · rw [if_neg (by omega)]; simp [hpos]
  · by_cases hlen : j - pos < len
    · rw [if_pos (by omega)]; simp [hpos, hlen]
    · rw [if_neg (by omega)]; simp [hlen]

/-! ### Counts (R136) -/

theorem clzGo_le (a : W64) (n : Nat) : clzGo a n ≤ n := by
  induction n with
  | zero => exact Nat.le_refl 0
  | succ n ih => unfold clzGo; split <;> omega

/-- The bits counted are zero. -/
theorem getLsbD_of_clzGo (a : W64) {n j : Nat} (hj : j < n) (h : n - clzGo a n ≤ j) : a.getLsbD j = false := by
  induction n with
  | zero => omega
  | succ n ih =>
    unfold clzGo at h
    split at h
    · omega
    · next hn =>
      by_cases hjn : j = n
      · rw [hjn]; exact Bool.eq_false_iff.mpr hn
      · exact ih (by omega) (by omega)

/-- The bit below those counted is one. -/
theorem getLsbD_below_clzGo (a : W64) {n : Nat} (h : clzGo a n < n) : a.getLsbD (n - 1 - clzGo a n) = true := by
  induction n with
  | zero => omega
  | succ n ih =>
    unfold clzGo at h ⊢
    split at h
    · next hn => rw [if_pos hn]; exact hn
    · next hn =>
      rw [if_neg hn, show n + 1 - 1 - (1 + clzGo a n) = n - 1 - clzGo a n by omega]
      exact ih (by omega)

theorem popcount_eq_countP (n k : Nat) : popcount n k = (List.range k).countP fun j => n.testBit j := by
  induction k with
  | zero => rfl
  | succ k ih =>
    rw [popcount, ih, List.range_succ, List.countP_append, List.countP_singleton, Nat.add_comm]

theorem popc64_eq (a : W64) : popc64 a = BitVec.ofNat 64 ((List.range 64).countP fun j => a.getLsbD j) :=
  congrArg (BitVec.ofNat 64) (popcount_eq_countP a.toNat 64)

/-! ### Home addresses (R141) -/

theorem withHome_eq (home : BitVec 7) (a : W64) : withHome home a = home ++ a.extractLsb' 0 57 := by
  apply BitVec.eq_of_getLsbD_eq
  intro j hj
  have hmask : (0x01FFFFFFFFFFFFFF : W64).getLsbD j = decide (j < 57) := by
    rw [show (0x01FFFFFFFFFFFFFF : W64) = fieldMask 57 by decide, fieldMask_getLsbD, decide_eq_true hj, Bool.true_and]
  simp only [withHome, BitVec.getLsbD_or, BitVec.getLsbD_and, BitVec.getLsbD_shiftLeft, BitVec.getLsbD_setWidth, hmask,
    BitVec.getLsbD_append, BitVec.getLsbD_extractLsb']
  by_cases h : j < 57
  · simp [h]
  · simp [h, hj, show j - 57 < 64 by omega]

/-- Settles O3: the immediate forms by their function of one operand, the fields and counts by their bits. -/
theorem scalarImmediatesAndBitFields : Obligations.ScalarImmediatesAndBitFields := by
  refine ⟨fun sd sa imm n home s => ?_, fun sd sa s => ?_⟩
  · intro gives
    exact ⟨reg_result rfl rfl rfl, reg_result rfl rfl rfl, reg_result rfl rfl rfl, reg_result rfl rfl rfl, reg_result rfl rfl rfl,
      reg_result rfl rfl (bit_slt _ _), reg_result rfl rfl (bit_ult _ _), completes_value rfl rfl rfl, reg_result rfl rfl rfl,
      reg_result rfl rfl rfl, reg_result rfl rfl rfl, reg_result rfl rfl (withHome_eq _ _)⟩
  · intro a gives
    refine ⟨fun pos lenM1 _ => ⟨⟨_, fun j hj => ?_, completes_value rfl rfl rfl⟩, ⟨_, fun j hj => ?_, completes_value rfl rfl rfl⟩⟩,
      ⟨clzGo a 64, clzGo_le a 64, fun j => getLsbD_of_clzGo a, getLsbD_below_clzGo a, completes_value rfl rfl rfl⟩,
      completes_value rfl rfl (popc64_eq a)⟩
    · simp only [extractField_getLsbD _ _ _ hj, Nat.lt_succ_iff]
      rfl
    · simp only [insertField_getLsbD _ _ _ _ hj, ← Nat.add_assoc, Nat.lt_succ_iff]
      rfl

end Sys2Proof.Machine
end

section
/-! SUPPORT. The control registers read and written (R142), and the handle instructions with the shaping of a tile register
(R143–R146, R185). -/

namespace Sys2Proof.Machine

/-! ### Control registers (R142) -/

theorem execCrr_eq (sd : SReg) (r : CtlReg) (s : State) : exec (.crr sd r) s =
    issue (.crr sd r) s fun s => .done (s.modCore fun x => x.setS sd (s.control r)) 0 := rfl

theorem completes_crr {s : State} {sd : SReg} {r : CtlReg} {v : W64} (hv : s.control r = v)
    (h : Issues (.crr sd r) s) : Completes (.crr sd r) s (s.modCore fun x => x.setS sd v) 0 :=
  completes_value (v := fun _ => s.control r) (execCrr_eq sd r s) rfl hv h

theorem TileReg.image_of_conf {y : TileReg} (h : y.conf = true) : y.image =
    ((1 <<< 32) ||| (BitVec.ofNat 64 (tyCode y.ty) <<< 28) ||| (BitVec.ofNat 64 y.rows <<< 16) ||| BitVec.ofNat 64 y.cols) := if_pos h
theorem TileReg.image_of_unconf {y : TileReg} (h : y.conf = false) : y.image = 0 := by
  rw [TileReg.image, h]; rfl

@[simp] theorem Slot.writeControl_hold (x : Slot) (r : CtlReg) (v : W64) : (x.writeControl r v).hold = x.hold := by
  cases r <;> rfl

/-- The registers that CRW does not write. -/
theorem Slot.writeControl_of_readOnly {r : CtlReg} (hlc : r ≠ .lc) (hrb : r ≠ .rb) (hms : r ≠ .mstat) (x : Slot) (v : W64) :
    x.writeControl r v = x := by
  cases r with
  | lc => exact absurd rfl hlc
  | rb => exact absurd rfl hrb
  | mstat => exact absurd rfl hms
  | cyc | budg | tstat | finfo | linklat | tcfg => rfl

theorem completes_crw {s : State} {sa : SReg} {r : CtlReg} {g : Slot → Slot}
    (hg : s.core.writeControl r (s.core.getS sa) = g s.core) (h : Issues (.crw r sa) s) :
    Completes (.crw r sa) s (s.modCore g) 0 :=
  completes_core (f := fun x => x.writeControl r (x.getS sa)) rfl rfl (Slot.writeControl_hold ..) hg h

/-- Settles O22: each register by what CRR returns of it and by what CRW leaves in it. -/
theorem controlRegisters : Obligations.ControlRegisters := by
  intro sd sa n l t s x v y reads writes
  refine ⟨completes_crr rfl, completes_crr rfl, completes_crr rfl, completes_crr rfl, completes_crr rfl, completes_crr rfl,
    completes_crr rfl, completes_crr rfl, fun hy => completes_crr (TileReg.image_of_conf hy),
    fun hy => completes_crr (TileReg.image_of_unconf hy), completes_crw rfl, completes_crw rfl, completes_crw rfl,
    fun r hlc hrb hms h => ?_⟩
  exact completes_id (completes_crw (g := fun x => x) (Slot.writeControl_of_readOnly hlc hrb hms _ _) h)

/-! ### Handles (R143–R146) -/

section
variable {i : Instr} {s : State} {hd ha : HReg} {sa : SReg} {f : W256 → W64 → Option W256}

/-- An instruction writes a handle that its operands at issue give. -/
theorem completes_handle {k : State → Res} {v : Slot → W256} {w : W256} (he : exec i s = issue i s k)
    (hk : k s = .done (s.modCore fun x => x.setH hd (v x)) 0) (hv : v s.core = w) (h : Issues i s) :
    Completes i s (s.modCore fun x => x.setH hd w) 0 :=
  completes_core (g := fun x => x.setH hd w) he hk (Slot.setH_hold ..) (congrArg _ hv) h

theorem completes_handleSet {w : W256} (he : exec i s = issue i s (handleSet f hd ha sa))
    (hf : f (s.core.getH ha) (s.core.getS sa) = some w) : Issues i s → Completes i s (s.modCore fun x => x.setH hd w) 0 :=
  completes_handle (v := fun _ => w) he (by simp only [handleSet, hf]) rfl

theorem traps_handleSet (he : exec i s = issue i s (handleSet f hd ha sa)) (hf : f (s.core.getH ha) (s.core.getS sa) = none)
    (h : Issues i s) : Traps i s .progBounds 0 0 :=
  traps_issue he h (by simp only [handleSet, hf])
end

/-! The values that a field cannot hold. -/

section
variable {d : Nat} {h : W256} {v : W64}

theorem setExtent_eq_none (hv : v.toNat = 0 ∨ 4096 < v.toNat) : setExtent d h v = none := if_neg (by omega)

theorem setStride_eq_none (hv : v.toInt < -524288 ∨ 524287 < v.toInt) : setStride d h v = none := if_neg (by omega)

theorem advanceBase_eq_none (ho : (offBits (hBase h) : Int) + v.toInt * hStride h d < 0 ∨
    2 ^ 57 ≤ (offBits (hBase h) : Int) + v.toInt * hStride h d) : advanceBase d h v = none := if_neg (by omega)
end

theorem handleField_extent (h : W256) {k : Nat} (hk : k < 6) : handleField h (k + 1) = BitVec.ofNat 64 (hExt h k + 1) := by
  rw [handleField, if_neg (Nat.succ_ne_zero k), if_pos (Nat.succ_le_of_lt hk), Nat.add_sub_cancel]

theorem handleField_stride (h : W256) (k : Nat) : handleField h (k + 7) = BitVec.ofInt 64 (hStride h k) := by
  rw [handleField, if_neg (by omega), if_neg (by omega), Nat.add_sub_cancel]

theorem execHchk_eq (ha : HReg) (sa : SReg) (s : State) : exec (.hchk ha sa) s = issue (.hchk ha sa) s fun s =>
    let n := (s.core.getS sa).toNat
    if 1 ≤ n ∧ n ≤ 4096 ∧ hValid (s.core.getH ha) n then .done s 0 else .trap .progBounds (hBase (s.core.getH ha)) 0 := rfl

/-- The access that HCHK checks has no size that an access may have, or a footprint that is not valid. -/
theorem hchk_fails {h : W256} {n : Nat} (hf : n = 0 ∨ 4096 < n ∨ hValid h n = false) : ¬ (1 ≤ n ∧ n ≤ 4096 ∧ hValid h n = true) := by
  rintro ⟨h1, h2, hvalid⟩
  rcases hf with h0 | hbig | hbad
  · omega
  · omega
  · exact Bool.eq_false_iff.mp hbad hvalid

/-! ### Tile registers (R185) -/

theorem tileBusy_iff (q : List Cmd) (t : TReg) : tileBusy q t = true ↔ ∃ c ∈ q, t ∈ (named c.instr).t := by
  simp only [tileBusy, tilesOf, List.any_eq_true, List.contains_iff_mem]

theorem execTcfg_eq (t : TReg) (ty : Ty) (rows cols : BitVec 10) (s : State) :
    exec (.tcfg t ty rows cols) s = issue (.tcfg t ty rows cols) s fun s =>
      if tileBusy s.core.mq t then .trap .progTbusy 0 0
      else .done (s.modCore fun x => x.setT t ((x.getT t).configure ty rows.toNat cols.toNat)) 0 := rfl

/-- Settles O32: the forms that set a field by whether it holds the value, HCHK by the footprint, TCFG by the queued commands. -/
theorem handleForms : Obligations.HandleForms := by
  intro hd ha sd sa d sel t ty rows cols s _ _ x h v base gives reads bounds o
  refine ⟨completes_handle rfl rfl rfl, completes_handle rfl rfl rfl, completes_handle rfl rfl rfl, fun h1 h2 => ?_, fun hv => ?_,
    fun h1 h2 => ?_, fun hv => ?_, fun h1 h2 => ?_, fun hv => ?_, fun hsel => ?_, fun k hk hsel => ?_, fun k hk hsel => ?_,
    fun h1 h2 hf hi => ?_, fun hf hi => ?_, fun hi => ⟨fun hq => ?_, fun hq => ?_⟩⟩
  · exact completes_handleSet rfl (if_pos ⟨h1, h2⟩)
  · exact traps_handleSet rfl (setExtent_eq_none hv)
  · exact completes_handleSet rfl (if_pos ⟨h1, h2⟩)
  · exact traps_handleSet rfl (setStride_eq_none hv)
  · exact completes_handleSet rfl (if_pos ⟨h1, h2⟩)
  · exact traps_handleSet rfl (advanceBase_eq_none hv)
  · exact completes_value rfl rfl (congrArg (fun n => handleField h n.toNat) hsel)
  · exact completes_value rfl rfl ((congrArg (handleField h) hsel).trans (handleField_extent h hk))
  · exact completes_value rfl rfl ((congrArg (handleField h) hsel).trans (handleField_stride h k))
  · exact completes_of_done (execHchk_eq ..) (if_pos ⟨h1, h2, hf⟩) hi
  · exact traps_issue (execHchk_eq ..) hi (if_neg (hchk_fails hf))
  · have hidle : ¬ tileBusy x.mq t = true := fun hb => by
      obtain ⟨c, hc, ht⟩ := (tileBusy_iff _ _).mp hb
      exact hq c hc ht
    exact completes_core (execTcfg_eq ..) (if_neg hidle) (Slot.setT_hold ..) rfl hi
  · exact traps_issue (execTcfg_eq ..) hi (if_pos ((tileBusy_iff _ _).mpr hq))

end Sys2Proof.Machine
end

section
/-! SUPPORT. Vector instructions lane by lane, and masks: the functions of one lane as the rules give them, and how an instruction
ends that writes lanes under a mask, or a mask (R148–R160, R170). -/

namespace Sys2Proof.Machine

/-! ### Functions of one lane (R152–R158) -/

theorem laneMin_i32 (a b : W32) : laneMin .i32 a b = if b.toInt < a.toInt then b else a := by
  simp only [laneMin, i32Min, BitVec.slt_iff_toInt_lt]

theorem laneMax_i32 (a b : W32) : laneMax .i32 a b = if a.toInt < b.toInt then b else a := by
  simp only [laneMax, i32Max, BitVec.slt_iff_toInt_lt]

theorem shamt_eq_mod (b : W32) : shamt b = b.toNat % 32 := by
  simp [shamt]

theorem laneLe_i32 (a b : W32) : laneLe .i32 a b = decide (a.toInt ≤ b.toInt) := by
  rw [Bool.eq_iff_iff]
  simp only [laneLe, laneLt, laneEq, Bool.or_eq_true, BitVec.slt_iff_toInt_lt, beq_iff_eq, decide_eq_true_eq, ← BitVec.toInt_inj]
  omega

/-- The number of bits set, as the rules write it. -/
theorem popcount_toNat {n : Nat} (v : BitVec n) (k : Nat) :
    popcount v.toNat k = ((List.range k).filter fun j => v.getLsbD j).length :=
  (popcount_eq_countP v.toNat k).trans List.countP_eq_length_filter

theorem lanePopc_eq (a : W32) : lanePopc a = BitVec.ofNat 32 (((List.range 32).filter fun j => a.getLsbD j).length) :=
  congrArg (BitVec.ofNat 32) (popcount_toNat a 32)

/-! ### Instructions that write lanes under a mask (R148, R149) -/

section
variable {i : Instr} {s : State} {vd va vb vc : VReg} {k : KReg} {g : Nat → W32}

theorem completes_lanes {f : Slot → Nat → W32} (he : exec i s = issue i s (lanesUnder k vd f)) (hf : ∀ e, f s.core e = g e)
    (h : Issues i s) : Completes i s (s.modCore fun x => x.setV vd
      (Lanes.ofFn fun e => if (x.getK k).getLsbD e then g e else (x.getV vd).get e)) 0 :=
  completes_core (g := fun x => x.setV vd (underMask (x.getK k) (x.getV vd) g)) he rfl (Slot.setV_hold ..)
    (by rw [← funext hf]) h

theorem completes_vec1 {f : W32 → W32} (he : exec i s = issue i s (vec1 f vd va k))
    (hf : ∀ e, f ((s.core.getV va).get e) = g e) (h : Issues i s) : Completes i s (s.modCore fun x => x.setV vd
      (Lanes.ofFn fun e => if (x.getK k).getLsbD e then g e else (x.getV vd).get e)) 0 :=
  completes_lanes (f := fun x e => f ((x.getV va).get e)) he hf h

theorem completes_vec2 {f : W32 → W32 → W32} (he : exec i s = issue i s (vec2 f vd va vb k))
    (hf : ∀ e, f ((s.core.getV va).get e) ((s.core.getV vb).get e) = g e) (h : Issues i s) : Completes i s (s.modCore fun x => x.setV vd
      (Lanes.ofFn fun e => if (x.getK k).getLsbD e then g e else (x.getV vd).get e)) 0 :=
  completes_lanes (f := fun x e => f ((x.getV va).get e) ((x.getV vb).get e)) he hf h

theorem completes_vec3 {f : W32 → W32 → W32 → W32} (he : exec i s = issue i s (vec3 f vd va vb vc k))
    (hf : ∀ e, f ((s.core.getV va).get e) ((s.core.getV vb).get e) ((s.core.getV vc).get e) = g e) (h : Issues i s) :
    Completes i s (s.modCore fun x => x.setV vd
      (Lanes.ofFn fun e => if (x.getK k).getLsbD e then g e else (x.getV vd).get e)) 0 :=
  completes_lanes (f := fun x e => f ((x.getV va).get e) ((x.getV vb).get e) ((x.getV vc).get e)) he hf h
end

/-- Settles O33: each row by how many sources it has and the function of one lane. -/
theorem vectorLanes : Obligations.VectorLanes := by
  intro r dty sty lt vd va vb vc k sa imm s x a b c lanes sat
  refine ⟨completes_vec2 rfl fun _ => rfl, completes_vec2 rfl fun _ => rfl, completes_vec2 rfl fun _ => rfl,
    completes_vec3 rfl fun _ => rfl, completes_vec3 rfl fun _ => rfl, completes_vec3 rfl fun _ => rfl,
    completes_vec2 rfl fun _ => rfl, completes_vec2 rfl fun _ => rfl, completes_vec2 rfl fun _ => rfl,
    completes_vec2 rfl fun _ => rfl, completes_vec2 rfl fun _ => rfl,
    completes_vec2 rfl fun _ => laneMin_i32 _ _, completes_vec2 rfl fun _ => laneMax_i32 _ _,
    completes_vec1 rfl fun _ => rfl, completes_vec1 rfl fun _ => rfl, completes_vec1 rfl fun _ => rfl, completes_vec1 rfl fun _ => rfl,
    completes_vec2 rfl fun _ => rfl, completes_vec2 rfl fun _ => rfl, completes_vec3 rfl fun _ => rfl,
    completes_vec2 rfl fun _ => rfl, completes_vec1 rfl fun _ => rfl,
    completes_vec2 rfl fun _ => rfl, completes_vec2 rfl fun _ => rfl, completes_vec2 rfl fun _ => rfl, completes_vec2 rfl fun _ => rfl,
    completes_vec2 rfl fun _ => congrArg _ (shamt_eq_mod _), completes_vec2 rfl fun _ => congrArg _ (shamt_eq_mod _),
    completes_vec2 rfl fun _ => congrArg _ (shamt_eq_mod _),
    completes_vec1 rfl fun _ => lanePopc_eq _,
    completes_vec1 rfl fun _ => rfl, completes_lanes rfl fun _ => rfl, completes_lanes rfl fun _ => rfl,
    completes_vec1 rfl fun _ => rfl, completes_vec1 rfl fun _ => rfl, completes_vec1 rfl fun _ => rfl, completes_vec1 rfl fun _ => rfl,
    completes_vec1 rfl fun _ => rfl, completes_vec1 rfl fun _ => rfl, completes_vec1 rfl fun _ => rfl, completes_vec1 rfl fun _ => rfl,
    completes_lanes rfl fun _ => rfl⟩

/-! ### Masks (R170) -/

theorem testBit_foldr (f : Nat → Bool) (l : List Nat) (j : Nat) :
    (l.foldr (fun e n => 2 * n + (if f e then 1 else 0)) 0).testBit j = (l[j]?.map f).getD false := by
  induction l generalizing j with
  | nil => simp
  | cons e l ih =>
    cases j with
    | zero => cases he : f e <;> simp [he]
    | succ j => rw [List.foldr_cons, Nat.testBit_succ, List.getElem?_cons_succ, ← ih]; congr 1; split <;> omega

theorem maskOf_getLsbD (f : Nat → Bool) {e : Nat} (he : e < 1024) : (maskOf f).getLsbD e = f e := by
  rw [maskOf, BitVec.getLsbD_ofNat, testBit_foldr, List.getElem?_range he, decide_eq_true he]
  rfl

/-- The search ends at the first bit set, or past the last one looked at. -/
theorem firstSet_spec (k : Mask) (n e : Nat) : firstSet k n e ≤ e + n ∧
    (firstSet k n e < e + n → k.getLsbD (firstSet k n e) = true) ∧ ∀ j, e ≤ j → j < firstSet k n e → k.getLsbD j = false := by
  induction n generalizing e with
  | zero => exact ⟨Nat.le_refl _, fun h => absurd h (Nat.lt_irrefl _), fun j h1 h2 => absurd h2 (Nat.not_lt.mpr h1)⟩
  | succ n ih =>
    unfold firstSet
    split
    · next hbit => exact ⟨by omega, fun _ => hbit, fun j h1 h2 => absurd h2 (Nat.not_lt.mpr h1)⟩
    · next hbit =>
      obtain ⟨hle, hset, hclear⟩ := ih (e + 1)
      refine ⟨by omega, fun h => hset (by omega), fun j h1 h2 => ?_⟩
      by_cases hj : j = e
      · rw [hj]; exact Bool.eq_false_iff.mpr hbit
      · exact hclear j (by omega) h2

section
variable {i : Instr} {s : State} {kd k : KReg} {va vb : VReg} {g : Nat → Bool}

theorem completes_mask {v : Slot → Mask} (he : exec i s = issue i s (onCore fun x => x.setK kd (v x)))
    (hv : ∀ e < 1024, (v s.core).getLsbD e = g e) (h : Issues i s) :
    ∃ m : Mask, Completes i s (s.modCore fun x => x.setK kd m) 0 ∧ ∀ e < 1024, m.getLsbD e = g e :=
  ⟨v s.core, completes_core (g := fun x => x.setK kd (v s.core)) he rfl (Slot.setK_hold ..) rfl h, hv⟩

theorem completes_compare {f : W32 → W32 → Bool} (he : exec i s = issue i s (compareLanes f kd va vb k))
    (hf : ∀ e, ((s.core.getK k).getLsbD e && f ((s.core.getV va).get e) ((s.core.getV vb).get e)) = g e) (h : Issues i s) :
    ∃ m : Mask, Completes i s (s.modCore fun x => x.setK kd m) 0 ∧ ∀ e < 1024, m.getLsbD e = g e :=
  completes_mask he (fun e he => (maskOf_getLsbD _ he).trans (hf e)) h
end

/-- Settles O34: the comparisons lane by lane, the mask instructions bit by bit. -/
theorem masksAndComparisons : Obligations.MasksAndComparisons := by
  intro kd ka kb k va vb sd s x a b sets under
  refine ⟨completes_compare rfl fun _ => rfl, completes_compare rfl fun _ => rfl, completes_compare rfl fun _ => rfl,
    completes_compare rfl fun _ => congrArg _ (laneLe_i32 _ _), completes_compare rfl fun _ => rfl, completes_compare rfl fun _ => rfl,
    completes_compare rfl fun _ => rfl, completes_compare rfl fun _ => rfl,
    completes_mask rfl fun _ _ => BitVec.getLsbD_and, completes_mask rfl fun _ _ => BitVec.getLsbD_or,
    completes_mask rfl fun _ _ => BitVec.getLsbD_xor, completes_mask rfl fun e he => ?_,
    completes_value rfl rfl (congrArg (BitVec.ofNat 64) (popcount_toNat _ 1024)), fun hi => ?_⟩
  · rw [BitVec.getLsbD_not, decide_eq_true he, Bool.true_and]
  · obtain ⟨hle, hset, hclear⟩ := firstSet_spec (x.getK ka) 1024 0
    rw [Nat.zero_add] at hle hset
    exact ⟨_, completes_value rfl rfl rfl hi, hle, hset, fun e => hclear e e.zero_le⟩

end Sys2Proof.Machine
end

section
/-! SUPPORT. Vector registers moved, rotated, broadcast, permuted and reduced: the tree of a reduction as the rules give it, and how an
instruction ends that writes a whole register (R134, R157, R166–R169). -/

namespace Sys2Proof.Machine

/-! ### Reductions (R134) -/

theorem pairUp_range (f : α → α → α) (l : Nat → α) (m : Nat) :
    pairUp f ((List.range (2 * m)).map l) = (List.range m).map fun i => f (l (2 * i)) (l (2 * i + 1)) := by
  induction m generalizing l with
  | zero => rfl
  | succ m ih =>
    rw [show 2 * (m + 1) = 2 * m + 1 + 1 from rfl, List.range_succ_eq_map, List.range_succ_eq_map, List.range_succ_eq_map]
    simp only [List.map_cons, List.map_map, pairUp]
    exact congrArg _ (ih fun i => l (i + 2))

theorem treeReduce_range (f : α → α → α) (n : Nat) (l : Nat → α) :
    treeReduce f n ((List.range (2 ^ n)).map l) = [pairwise f n l] := by
  induction n generalizing l with
  | zero => rfl
  | succ n ih => rw [treeReduce, Nat.pow_succ', pairUp_range, ih]; rfl

theorem reduce_range (ty : LaneTy) (op : RedOp) (n : Nat) (l : Nat → W32) :
    reduce ty op n ((List.range (2 ^ n)).map l) = pairwise (combine ty op) n l := by
  rw [reduce, treeReduce_range]; rfl

/-! ### Instructions that write a whole register -/

theorem Lanes.ofFn_congr {f g : Nat → W32} (h : ∀ e < 1024, f e = g e) : Lanes.ofFn f = Lanes.ofFn g :=
  List.map_congr_left fun e he => h e (List.mem_range.mp he)

theorem completes_register {i : Instr} {s : State} {k : State → Res} {vd : VReg} {f : Slot → Nat → W32} {g : Nat → W32}
    (he : exec i s = issue i s k) (hk : k s = .done (s.modCore fun x => x.setV vd (Lanes.ofFn (f x))) 0)
    (hf : ∀ e < 1024, f s.core e = g e) (h : Issues i s) : Completes i s (s.modCore fun x => x.setV vd (Lanes.ofFn g)) 0 :=
  completes_core (g := fun x => x.setV vd (Lanes.ofFn g)) he hk (Slot.setV_hold ..) (congrArg _ (Lanes.ofFn_congr hf)) h

theorem extract_low_toNat {w : Nat} (v : BitVec w) (n : Nat) : (v.extractLsb' 0 n).toNat = v.toNat % 2 ^ n := by
  rw [BitVec.extractLsb'_toNat, Nat.shiftRight_zero]

theorem reduceRows_eq (ty : LaneTy) (op : RedOp) (a : Lanes) :
    reduceRows ty op a = Lanes.ofFn fun e => pairwise (combine ty op) 6 fun c => a.get (64 * (e / 64) + c) := by
  refine Lanes.ofFn_congr fun e he => ?_
  rw [List.getD_eq_getElem?_getD, List.getElem?_map, List.getElem?_range (by omega), Nat.mul_comm 64]
  exact reduce_range ty op 6 _

theorem reduceCols_eq (ty : LaneTy) (op : RedOp) (a : Lanes) :
    reduceCols ty op a = Lanes.ofFn fun e => pairwise (combine ty op) 4 fun r => a.get (64 * r + e % 64) := by
  refine Lanes.ofFn_congr fun e _ => ?_
  rw [List.getD_eq_getElem?_getD, List.getElem?_map, List.getElem?_range (by omega)]
  simp only [Nat.mul_comm 64]
  exact reduce_range ty op 4 _

theorem completes_whole {i : Instr} {s : State} {vd va : VReg} {f : Lanes → Lanes} {g : Nat → W32}
    (he : exec i s = issue i s (whole f vd va)) (hf : f (s.core.getV va) = Lanes.ofFn g) (h : Issues i s) :
    Completes i s (s.modCore fun x => x.setV vd (Lanes.ofFn g)) 0 :=
  completes_core (g := fun x => x.setV vd (Lanes.ofFn g)) he rfl (Slot.setV_hold ..) (congrArg _ hf) h

/-- Settles O35: each form by the lane that it names, the reductions by the tree over their row or column. -/
theorem vectorMoves : Obligations.VectorMoves := by
  intro lt vd va vb sd sa idx n m k s x a writes at' f
  refine ⟨completes_register rfl rfl fun _ _ => rfl, completes_whole rfl rfl, completes_value rfl rfl rfl,
    completes_register rfl rfl fun _ _ => rfl, completes_whole rfl (Lanes.ofFn_congr fun e _ => congrArg a ?_),
    completes_whole rfl (Lanes.ofFn_congr fun e _ => congrArg a ?_),
    completes_register rfl rfl fun e _ => congrArg a ?_, completes_whole rfl (Lanes.ofFn_congr fun e _ => congrArg a ?_),
    completes_whole rfl (Lanes.ofFn_congr fun e _ => congrArg a ?_),
    fun op => completes_whole rfl (reduceRows_eq lt op _), fun op => completes_whole rfl (reduceCols_eq lt op _)⟩
  · have := n.isLt; omega
  · omega
  · exact congr (congrArg HAdd.hAdd (Nat.mul_comm _ _)) (extract_low_toNat _ 6)
  · have := m.isLt; omega
  · omega

end Sys2Proof.Machine
end

section
/-! SUPPORT. The window of a handle: which lane each of its elements fills, and what a vector access becomes by its checks, in the
core's own half and elsewhere (R161–R165, R259, R261). -/

namespace Sys2Proof.Machine

/-! ### Addresses of a handle's elements (R144, R230) -/

theorem homeBits_mkAddr {home : Nat} (hh : home < 128) (off : Nat) : homeBits (mkAddr home off) = home := by
  apply Nat.eq_of_testBit_eq
  intro j
  simp only [homeBits, mkAddr, BitVec.testBit_toNat, BitVec.getLsbD_extractLsb', BitVec.getLsbD_or, BitVec.getLsbD_shiftLeft,
    BitVec.getLsbD_ofNat, Nat.testBit_mod_two_pow]
  have hlow : ¬ 57 + j < 57 := Nat.not_lt.mpr (Nat.le_add_right 57 j)
  by_cases hj : j < 7
  · have hword : 57 + j < 64 := Nat.add_lt_add_left hj 57
    have hj64 : j < 64 := Nat.lt_trans hj (by decide)
    simp only [hj, hlow, hword, hj64, Nat.add_sub_cancel_left, decide_true, decide_false, Bool.not_false, Bool.true_and,
      Bool.false_and, Bool.or_false]
  · have hhigh : home.testBit j = false :=
      Nat.testBit_lt_two_pow (Nat.lt_of_lt_of_le hh (Nat.pow_le_pow_right (n := 2) (by decide) (Nat.not_lt.mp hj)))
    simp only [hj, hhigh, decide_false, Bool.false_and]

theorem homeBits_hAddrAt (h : W256) (ix : List Nat) : homeBits (hAddrAt h ix) = homeBits (hBase h) :=
  homeBits_mkAddr (BitVec.isLt _) _

/-! ### The elements of a window (R161) -/

/-- Lanes that an element of memory fills. -/
def laneStep (ty : Ty) : Nat := if nibbles ty then 2 else 1

theorem laneStep_cases (ty : Ty) : laneStep ty = 1 ∨ laneStep ty = 2 := by
  unfold laneStep; split
  · exact .inr rfl
  · exact .inl rfl

/-- The element of memory for the lanes from row r and column c × step on. -/
def elemAt (ty : Ty) (va : Nat → Nat → W64) (r c : Nat) : Elem := { lane := r * 64 + c * laneStep ty, va := va r c }

theorem windowCols_eq (ty : Ty) (h : W256) : windowCols ty h = min (64 / laneStep ty) (hExt h 0 + 1) := by
  unfold windowCols laneStep; split <;> rfl

theorem windowCols_pos (ty : Ty) (h : W256) : 0 < windowCols ty h := by
  unfold windowCols; split <;> omega

theorem windowCols_mul_le (ty : Ty) (h : W256) : windowCols ty h * laneStep ty ≤ 64 := by
  unfold windowCols laneStep; split <;> omega

/-- The window's elements: dimension 0 along the columns, dimension 1 along the rows. -/
theorem mem_windowElems {ty : Ty} {h : W256} {y : Elem} : y ∈ windowElems ty h none ↔
    ∃ r c, r < min 16 (hExt h 1 + 1) ∧ c < windowCols ty h ∧ y = elemAt ty (fun r c => hAddrAt h [c, r]) r c := by
  have hpos := windowCols_pos ty h
  show y ∈ (List.range (min 16 (hExt h 1 + 1) * windowCols ty h)).map (fun i =>
    elemAt ty (fun r c => hAddrAt h [c, r]) (i / windowCols ty h) (i % windowCols ty h)) ↔ _
  rw [List.mem_map]
  constructor
  · rintro ⟨i, hi, rfl⟩
    exact ⟨_, _, Nat.div_lt_of_lt_mul (by rw [Nat.mul_comm]; exact List.mem_range.mp hi), Nat.mod_lt _ hpos, rfl⟩
  · rintro ⟨r, c, hr, hc, rfl⟩
    refine ⟨r * windowCols ty h + c, List.mem_range.mpr ?_, ?_⟩
    · calc r * windowCols ty h + c < (r + 1) * windowCols ty h := by rw [Nat.succ_mul]; omega
        _ ≤ _ := Nat.mul_le_mul_right _ hr
    · rw [Nat.mul_comm, Nat.mul_add_div hpos, Nat.div_eq_of_lt hc, Nat.mul_add_mod, Nat.mod_eq_of_lt hc, Nat.add_zero]

/-- The elements of one row. -/
theorem mem_windowElems_row {ty : Ty} {h : W256} {row : Nat} {y : Elem} : y ∈ windowElems ty h (some row) ↔
    ∃ r c, r = row ∧ c < windowCols ty h ∧ y = elemAt ty (fun _ c => hAddrAt h [c, 0]) r c := by
  show y ∈ (List.range (windowCols ty h)).map (elemAt ty (fun _ c => hAddrAt h [c, 0]) row) ↔ _
  rw [List.mem_map]
  constructor
  · rintro ⟨c, hc, rfl⟩
    exact ⟨row, c, rfl, List.mem_range.mp hc, rfl⟩
  · rintro ⟨r, c, rfl, hc, rfl⟩
    exact ⟨c, List.mem_range.mpr hc, rfl⟩

theorem windowElems_ne_nil (ty : Ty) (h : W256) (row : Option Nat) : windowElems ty h row ≠ [] := by
  have hpos := windowCols_pos ty h
  cases row with
  | none => exact List.ne_nil_of_mem (mem_windowElems.mpr ⟨0, 0, by omega, hpos, rfl⟩)
  | some row => exact List.ne_nil_of_mem (mem_windowElems_row.mpr ⟨row, 0, rfl, hpos, rfl⟩)

theorem homeBits_windowElems {ty : Ty} {h : W256} {row : Option Nat} {e : Elem} (he : e ∈ windowElems ty h row) :
    homeBits e.va = homeBits (hBase h) := by
  cases row with
  | none => obtain ⟨r, c, -, -, rfl⟩ := mem_windowElems.mp he; exact homeBits_hAddrAt ..
  | some row => obtain ⟨r, c, -, -, rfl⟩ := mem_windowElems_row.mp he; exact homeBits_hAddrAt ..

/-- The element that fills lane e is found by its first lane. -/
theorem find_elemAt {ty : Ty} {h : W256} {es : List Elem} {P : Nat → Prop} [DecidablePred P] {va : Nat → Nat → W64}
    (hm : ∀ y, y ∈ es ↔ ∃ r c, P r ∧ c < windowCols ty h ∧ y = elemAt ty va r c) (e : Nat) :
    (es.find? fun x => x.lane == e / laneStep ty * laneStep ty) =
      if P (e / 64) ∧ e % 64 / laneStep ty < windowCols ty h then some (elemAt ty va (e / 64) (e % 64 / laneStep ty)) else none := by
  have hcols := windowCols_mul_le ty h
  have hlane : ∀ r c, c < windowCols ty h → (r * 64 + c * laneStep ty = e / laneStep ty * laneStep ty ↔
      r = e / 64 ∧ c = e % 64 / laneStep ty) := by
    intro r c hc
    rcases laneStep_cases ty with hs | hs <;> rw [hs] at hcols ⊢ <;> omega
  cases hf : es.find? fun x => x.lane == e / laneStep ty * laneStep ty with
  | none =>
    rw [if_neg]
    rintro ⟨hr, hc⟩
    exact List.find?_eq_none.mp hf _ ((hm _).mpr ⟨_, _, hr, hc, rfl⟩) (beq_iff_eq.mpr ((hlane _ _ hc).mpr ⟨rfl, rfl⟩))
  | some y =>
    obtain ⟨r, c, hr, hc, rfl⟩ := (hm y).mp (List.mem_of_find?_eq_some hf)
    have hl := List.find?_some hf
    obtain ⟨rfl, rfl⟩ := (hlane r c hc).mp (beq_iff_eq.mp hl)
    rw [if_pos ⟨hr, hc⟩]

/-! ### Elements performed in the core's own half (R261) -/

/-- The physical key of an element of the core's own half. -/
def State.ownKey (s : State) (va : W64) : Nat := halfKey s.cur (s.run s.cur) + offBits va

/-- An element with what it reads in the core's own half. -/
def State.loaded (s : State) (n : Nat) (e : Elem) : Elem := (s.ownElem n false e).1

/-- The elements of a list written one after the other. -/
def State.storeAll (s : State) (key : Elem → Nat) (n : Nat) (data : Elem → Nat) (l : List Elem) : State :=
  l.foldl (fun s' e => s'.writeMem (key e) n (data e)) s

theorem ownElems_load (s : State) (n : Nat) (es : List Elem) : s.ownElems n false es = (es.map (s.loaded n), s) := by
  induction es with
  | nil => rfl
  | cons e es ih => simp only [State.ownElems, ownElem_eq, Bool.false_eq_true, if_false, ih]; rfl

theorem ownElems_store (s : State) (n : Nat) (es : List Elem) : s.ownElems n true es =
    (es.map fun e => { e with done := true }, s.storeAll (fun e => s.ownKey e.va) n (fun e => e.data.toNat) es) := by
  induction es generalizing s with
  | nil => rfl
  | cons e es ih => simp only [State.ownElems, ownElem_eq, if_true, ih]; rfl

section
variable (s : State) (key : Elem → Nat) (n : Nat) (data : Elem → Nat) (l : List Elem)

theorem storeAll_tiles : (s.storeAll key n data l).tiles = s.tiles ∧ (s.storeAll key n data l).cur = s.cur := by
  induction l generalizing s with
  | nil => exact ⟨rfl, rfl⟩
  | cons e l ih => exact ih (s.writeMem (key e) n (data e))

/-- What lies outside every element stays as it was. -/
theorem memGet_storeAll_out {s : State} (hs : s.Safe) {a : Nat} (ha : ∀ e ∈ l, a < key e ∨ key e + n ≤ a) :
    memGet (s.storeAll key n data l).mem a = memGet s.mem a := by
  induction l generalizing s with
  | nil => rfl
  | cons e l ih =>
    obtain ⟨he, hl⟩ := List.forall_mem_cons.mp ha
    exact (ih (State.writeMem_safe s _ _ _ hs) hl).trans (memGet_memWrite_out hs _ _ _ _ he)
end

/-! ### A vector access by its checks (R164, R259, R261) -/

section
variable {s : State} {op : AccOp} {n : Nat} {es : List Elem}

theorem makeAccess_roomy (hr : s.core.accessRoom = true) (op : AccOp) (n : Nat) (es : List Elem) : s.makeAccess op n .plain es =
    if isOwn ((es.head?.map Elem.va).getD 0) then
      match (s.ownElems n op.writes es).1.find? Elem.poisoned with
      | some e => .trap .hwPoison e.va (BitVec.ofNat 64 e.lane)
      | none => .done ((s.ownElems n op.writes es).2.modCore fun x => x.finish op n (s.ownElems n op.writes es).1) 0
    else .hold (s.handsOver op n .plain es) := by
  unfold State.makeAccess
  simp only [hr, releases, Bool.not_true, Bool.false_and, Bool.or_self, Bool.false_eq_true, if_false]
  rfl

theorem isOwn_head {home : Nat} (hne : es ≠ []) (hh : ∀ e ∈ es, homeBits e.va = home) :
    isOwn ((es.head?.map Elem.va).getD 0) = decide (home = 0) := by
  obtain ⟨e, es, rfl⟩ := List.exists_cons_of_ne_nil hne
  rw [← hh e List.mem_cons_self]; rfl

theorem makeAccess_ownLoad (hr : s.core.accessRoom = true) (hne : es ≠ []) (hh : ∀ e ∈ es, homeBits e.va = 0)
    (hw : op.writes = false) (hp : ∀ e ∈ es, s.isPoisoned (s.ownKey e.va) n = false) :
    s.makeAccess op n .plain es = .done (s.modCore fun x => x.finish op n (es.map (s.loaded n))) 0 := by
  have hnone : (es.map (s.loaded n)).find? Elem.poisoned = none := by
    refine List.find?_eq_none.mpr fun y hy => ?_
    obtain ⟨e, he, rfl⟩ := List.mem_map.mp hy
    exact Bool.eq_false_iff.mp (hp e he)
  rw [makeAccess_roomy hr, isOwn_head hne hh, if_pos (decide_eq_true rfl), hw, ownElems_load]
  simp only [hnone]

theorem makeAccess_ownStore (hr : s.core.accessRoom = true) (hne : es ≠ []) (hh : ∀ e ∈ es, homeBits e.va = 0)
    (hp : ∀ e ∈ es, e.poisoned = false) : s.makeAccess .vstore n .plain es =
      .done ((s.storeAll (fun e => s.ownKey e.va) n (fun e => e.data.toNat) es).modCore fun x => x) 0 := by
  have hnone : (es.map fun e => { e with done := true }).find? Elem.poisoned = none := by
    refine List.find?_eq_none.mpr fun y hy => ?_
    obtain ⟨e, he, rfl⟩ := List.mem_map.mp hy
    exact Bool.eq_false_iff.mp (hp e he)
  rw [makeAccess_roomy hr, isOwn_head hne hh, if_pos (decide_eq_true rfl), show AccOp.vstore.writes = true from rfl, ownElems_store]
  simp only [hnone]
  rfl

theorem makeAccess_farElems {home : Nat} (hr : s.core.accessRoom = true) (hne : es ≠ []) (hh : ∀ e ∈ es, homeBits e.va = home)
    (hf : home ≠ 0) : s.makeAccess op n .plain es = .hold (s.handsOver op n .plain es) := by
  rw [makeAccess_roomy hr, isOwn_head hne hh, if_neg (by rwa [decide_eq_true_eq])]

theorem vectorAccess_of_checked {ty : Ty} {h : W256} (hv : hValid h (memBytesOf ty) = true) (ha : hAligned h (memBytesOf ty) = true)
    (hc : ∀ e ∈ if isOwn (hBase h) then es else es.take 1,
      s.tileCheck s.core.header s.core.part e.va (memBytesOf ty) op.writes false = none) :
    vectorAccess op ty h es s = s.makeAccess op (memBytesOf ty) .plain es := by
  have hnone : ((if isOwn (hBase h) then es else es.take 1).find? fun e =>
      (s.tileCheck s.core.header s.core.part e.va (memBytesOf ty) op.writes false).isSome) = none :=
    List.find?_eq_none.mpr fun e he => by rw [hc e he]; exact Bool.false_ne_true
  simp only [vectorAccess, hv, ha, hnone, Bool.not_true, Bool.false_eq_true, if_false]
end

end Sys2Proof.Machine
end

section
/-! SUPPORT. Vector loads and stores and WLD: what a load makes of the elements it has read, and how each form ends
(R161–R165, R261, R322). -/

namespace Sys2Proof.Machine

/-! ### Lanes of a load (R162) -/

/-- The bits of a memory element that lane e takes. -/
def laneBits (ty : Ty) (v e : Nat) : Nat := if nibbles ty then v / 16 ^ (e % 2) % 16 else v

/-- Lane e, taken from the element at an address of the core's own half. -/
def State.ownLane (s : State) (ty : Ty) (va : W64) (e : Nat) : W32 :=
  laneIn ty (laneBits ty (s.readMem (s.ownKey va) (memBytesOf ty)) e)

theorem memBytesOf_le (ty : Ty) : memBytesOf ty ≤ 4 := by cases ty <;> decide

theorem memBytesOf_nibbles {ty : Ty} (h : nibbles ty = true) : memBytesOf ty = 1 := by revert h; cases ty <;> decide

theorem laneOf_eq (ty : Ty) (es : List Elem) (e : Nat) : laneOf ty es e =
    (es.find? fun x => x.lane == e / laneStep ty * laneStep ty).map fun x => laneIn ty (laneBits ty x.data.toNat e) := by
  unfold laneOf laneStep laneBits
  cases nibbles ty
  · simp only [Bool.false_eq_true, if_false, Nat.div_one, Nat.mul_one]
  · rfl

/-- An element read holds what memory holds. -/
theorem loaded_data (s : State) {n : Nat} (hn : n ≤ 32) (e : Elem) : (s.loaded n e).data.toNat = s.readMem (s.ownKey e.va) n :=
  Nat.mod_eq_of_lt (Nat.lt_of_lt_of_le (memRead_lt ..)
    (calc 256 ^ n ≤ 256 ^ 32 := Nat.pow_le_pow_right (by decide) hn
      _ = 2 ^ 256 := (Nat.pow_mul 2 8 32).symm))

theorem laneOf_loaded {s : State} {ty : Ty} {h : W256} {es : List Elem} {P : Nat → Prop} [DecidablePred P] {va : Nat → Nat → W64}
    (hm : ∀ y, y ∈ es ↔ ∃ r c, P r ∧ c < windowCols ty h ∧ y = elemAt ty va r c) (e : Nat) :
    (laneOf ty (es.map (s.loaded (memBytesOf ty))) e).getD 0 =
      if P (e / 64) ∧ e % 64 / laneStep ty < windowCols ty h then s.ownLane ty (va (e / 64) (e % 64 / laneStep ty)) e else 0 := by
  have hn := Nat.le_trans (memBytesOf_le ty) (show 4 ≤ 32 by decide)
  have hlane : ((fun x : Elem => x.lane == e / laneStep ty * laneStep ty) ∘ s.loaded (memBytesOf ty)) =
    fun x => x.lane == e / laneStep ty * laneStep ty := rfl
  rw [laneOf_eq, List.find?_map, hlane, find_elemAt hm]
  split
  · exact congrArg (fun v => laneIn ty (laneBits ty v e)) (loaded_data s hn _)
  · rfl

/-- The lane as the rules write it. -/
theorem ownLane_eq (s : State) (ty : Ty) (va : Nat → W64) (e : Nat) : s.ownLane ty (va (e % 64 / laneStep ty)) e =
    if nibbles ty then laneIn ty (s.readMem (s.ownKey (va (e % 64 / 2))) 1 / 16 ^ (e % 2) % 16)
    else laneIn ty (s.readMem (s.ownKey (va (e % 64))) (memBytesOf ty)) := by
  cases h : nibbles ty
  · simp only [State.ownLane, laneBits, laneStep, h, Bool.false_eq_true, if_false, Nat.div_one]
  · simp only [State.ownLane, laneBits, laneStep, h, if_true, memBytesOf_nibbles h]

/-! ### Elements of a store (R163) -/

section
variable {ty : Ty} {r : Rnd} {l : Lanes} {es : List Elem}

theorem homeBits_storeElems {home : Nat} (h : ∀ e ∈ es, homeBits e.va = home) : ∀ e ∈ storeElems ty r l es, homeBits e.va = home :=
  List.forall_mem_map.mpr h

theorem tileCheck_storeElems {s : State} {hd : W512} {p : PartNo} {n : Nat} {wr : Bool}
    (h : ∀ e ∈ es, s.tileCheck hd p e.va n wr false = none) : ∀ e ∈ storeElems ty r l es, s.tileCheck hd p e.va n wr false = none :=
  List.forall_mem_map.mpr h

theorem storeElems_ne_nil (h : es ≠ []) : storeElems ty r l es ≠ [] := fun he => h (List.map_eq_nil_iff.mp he)

theorem storeElems_take (n : Nat) : (storeElems ty r l es).take n = storeElems ty r l (es.take n) := List.map_take.symm

theorem storeElems_good {h : W256} {row : Option Nat} : ∀ e ∈ storeElems ty r l (windowElems ty h row), e.poisoned = false := by
  refine List.forall_mem_map.mpr fun e he => ?_
  cases row with
  | none => obtain ⟨_, _, -, -, rfl⟩ := mem_windowElems.mp he; rfl
  | some row => obtain ⟨_, _, -, -, rfl⟩ := mem_windowElems_row.mp he; rfl

theorem storeAll_storeElems (s : State) (key : W64 → Nat) (n : Nat) :
    s.storeAll (fun e => key e.va) n (fun e => e.data.toNat) (storeElems ty r l es) =
      s.storeAll (fun e => key e.va) n (fun e => (elemOut ty r l e.lane).toNat) es :=
  List.foldl_map
end

/-! ### Ends of vector loads and stores (R164, R261) -/

/-- An effect that changes no tile. -/
theorem completes_of_tiles {i : Instr} {s u : State} {k : State → Res} {n : Nat} (he : exec i s = issue i s k)
    (hk : k s = .done (u.modCore fun x => x) n) (ht : u.tiles = s.tiles) (hc : u.cur = s.cur) (h : Issues i s) : Completes i s u n := by
  have hsame : Same s u := ⟨hc, by simp only [State.run, State.tile, ht]⟩
  refine completes_id (completes_of he h hk (hsame.modCore _) ((hsame.modCore _).inert h ?_))
  rw [hsame.slot_modCore, hsame.core, slot_of_tiles ht]
  rfl

theorem execVld_eq (ty : Ty) (vd : VReg) (h : HReg) (s : State) : exec (.vld ty vd h) s = issue (.vld ty vd h) s fun s =>
    vectorAccess (.vload ty (s.core.phys vd) none) ty (s.core.getH h) (windowElems ty (s.core.getH h) none) s := rfl

theorem execVldr_eq (ty : Ty) (vd : VReg) (h : HReg) (row : BitVec 4) (s : State) :
    exec (.vldr ty vd h row) s = issue (.vldr ty vd h row) s fun s =>
      vectorAccess (.vload ty (s.core.phys vd) (some row.toNat)) ty (s.core.getH h)
        (windowElems ty (s.core.getH h) (some row.toNat)) s := rfl

theorem execVst_eq (ty : Ty) (r : Rnd) (h : HReg) (va : VReg) (s : State) :
    exec (.vst ty r h va) s = issue (.vst ty r h va) s fun s =>
      vectorAccess .vstore ty (s.core.getH h) (storeElems ty r (s.core.getV va) (windowElems ty (s.core.getH h) none)) s := rfl

theorem execVstr_eq (ty : Ty) (r : Rnd) (h : HReg) (va : VReg) (row : BitVec 4) (s : State) :
    exec (.vstr ty r h va row) s = issue (.vstr ty r h va row) s fun s =>
      vectorAccess .vstore ty (s.core.getH h)
        (storeElems ty r (s.core.getV va) (windowElems ty (s.core.getH h) (some row.toNat))) s := rfl

section
variable {i : Instr} {s : State} {ty : Ty} {h : HReg}

section
variable {op : State → AccOp} {es : State → List Elem}
  (he : exec i s = issue i s fun s => vectorAccess (op s) ty (s.core.getH h) (es s) s)
include he

theorem traps_vectorBounds (hv : hValid (s.core.getH h) (memBytesOf ty) = false) (hi : Issues i s) :
    Traps i s .progBounds (hBase (s.core.getH h)) 0 :=
  traps_issue he hi (by simp only [vectorAccess, hv, Bool.not_false, if_true])

theorem traps_vectorAlign (hv : hValid (s.core.getH h) (memBytesOf ty) = true)
    (ha : hAligned (s.core.getH h) (memBytesOf ty) = false) (hi : Issues i s) :
    Traps i s .progAlign (hBase (s.core.getH h)) 0 :=
  traps_issue he hi (by simp only [vectorAccess, hv, ha, Bool.not_true, Bool.not_false, Bool.false_eq_true, if_false, if_true])
end

variable (hv : hValid (s.core.getH h) (memBytesOf ty) = true) (ha : hAligned (s.core.getH h) (memBytesOf ty) = true)
  (hr : s.core.accessRoom = true)
include hv ha hr

/-- An access of another home is handed over once its first element has passed the tile's checks. -/
theorem waits_farVector {op : State → AccOp} {es : State → List Elem}
    (he : exec i s = issue i s fun s => vectorAccess (op s) ty (s.core.getH h) (es s) s)
    (hf : homeBits (hBase (s.core.getH h)) ≠ 0) (hne : es s ≠ [])
    (hh : ∀ e ∈ es s, homeBits e.va = homeBits (hBase (s.core.getH h)))
    (hc : ∀ e ∈ (es s).take 1, s.tileCheck s.core.header s.core.part e.va (memBytesOf ty) (op s).writes false = none)
    (hi : Issues i s) : Waits i s (s.handsOver (op s) (memBytesOf ty) .plain (es s)) := by
  have hfar : isOwn (hBase (s.core.getH h)) = false := decide_eq_false hf
  refine waits_core (u := { s with nextNum := s.nextNum + 1 }) he hi ?_ ⟨rfl, rfl⟩ rfl
  exact (vectorAccess_of_checked hv ha (by rwa [hfar])).trans (makeAccess_farElems hr hne hh hf)

theorem waits_farLoad {vd : VReg} {row : Option Nat} (he : exec i s = issue i s fun s =>
      vectorAccess (.vload ty (s.core.phys vd) row) ty (s.core.getH h) (windowElems ty (s.core.getH h) row) s)
    (hf : homeBits (hBase (s.core.getH h)) ≠ 0) (hc : ∀ e ∈ (windowElems ty (s.core.getH h) row).take 1,
      s.tileCheck s.core.header s.core.part e.va (memBytesOf ty) false false = none) (hi : Issues i s) :
    Waits i s (s.handsOver (.vload ty (s.core.phys vd) row) (memBytesOf ty) .plain (windowElems ty (s.core.getH h) row)) :=
  waits_farVector (op := fun s => .vload ty (s.core.phys vd) row) (es := fun s => windowElems ty (s.core.getH h) row) hv ha hr he hf
    (windowElems_ne_nil _ _ _) (fun _ => homeBits_windowElems) hc hi

theorem waits_farStore {va : VReg} {r : Rnd} {row : Option Nat} (he : exec i s = issue i s fun s =>
      vectorAccess .vstore ty (s.core.getH h) (storeElems ty r (s.core.getV va) (windowElems ty (s.core.getH h) row)) s)
    (hf : homeBits (hBase (s.core.getH h)) ≠ 0) (hc : ∀ e ∈ (windowElems ty (s.core.getH h) row).take 1,
      s.tileCheck s.core.header s.core.part e.va (memBytesOf ty) true false = none) (hi : Issues i s) :
    Waits i s (s.handsOver .vstore (memBytesOf ty) .plain
      (storeElems ty r (s.core.getV va) (windowElems ty (s.core.getH h) row))) :=
  waits_farVector (op := fun _ => .vstore)
    (es := fun s => storeElems ty r (s.core.getV va) (windowElems ty (s.core.getH h) row)) hv ha hr he hf
    (storeElems_ne_nil (windowElems_ne_nil _ _ _)) (homeBits_storeElems fun _ => homeBits_windowElems)
    (by rw [storeElems_take]; exact tileCheck_storeElems hc) hi

variable (h0 : homeBits (hBase (s.core.getH h)) = 0) {row : Option Nat}
include h0

theorem completes_ownLoad {vd : VReg} {g : Slot → Slot} (he : exec i s = issue i s fun s =>
      vectorAccess (.vload ty (s.core.phys vd) row) ty (s.core.getH h) (windowElems ty (s.core.getH h) row) s)
    (hc : ∀ e ∈ windowElems ty (s.core.getH h) row,
      s.tileCheck s.core.header s.core.part e.va (memBytesOf ty) false false = none ∧
      s.isPoisoned (s.ownKey e.va) (memBytesOf ty) = false)
    (hg : s.core.finish (.vload ty (s.core.phys vd) row) (memBytesOf ty)
      ((windowElems ty (s.core.getH h) row).map (s.loaded (memBytesOf ty))) = g s.core) (hi : Issues i s) :
    Completes i s (s.modCore g) 0 := by
  have hown : isOwn (hBase (s.core.getH h)) = true := decide_eq_true h0
  have hmade := (vectorAccess_of_checked (op := .vload ty (s.core.phys vd) row) hv ha
    (by rw [hown]; exact fun e he => (hc e he).1)).trans
    (makeAccess_ownLoad hr (windowElems_ne_nil _ _ _) (fun e he => (homeBits_windowElems he).trans h0) rfl fun e he => (hc e he).2)
  exact completes_core he hmade rfl hg hi

theorem completes_ownStore {va : VReg} {r : Rnd} (he : exec i s = issue i s fun s =>
      vectorAccess .vstore ty (s.core.getH h) (storeElems ty r (s.core.getV va) (windowElems ty (s.core.getH h) row)) s)
    (hc : ∀ e ∈ windowElems ty (s.core.getH h) row,
      s.tileCheck s.core.header s.core.part e.va (memBytesOf ty) true false = none) (hi : Issues i s) :
    Completes i s (s.storeAll (fun e => s.ownKey e.va) (memBytesOf ty)
      (fun e => (elemOut ty r (s.core.getV va) e.lane).toNat) (windowElems ty (s.core.getH h) row)) 0 := by
  have hown : isOwn (hBase (s.core.getH h)) = true := decide_eq_true h0
  have hmade := (vectorAccess_of_checked (op := .vstore) hv ha (by rw [hown]; exact tileCheck_storeElems hc)).trans
    (makeAccess_ownStore hr (storeElems_ne_nil (windowElems_ne_nil _ _ _))
      (homeBits_storeElems fun e he => (homeBits_windowElems he).trans h0) (storeElems_good (r := r) (l := s.core.getV va)))
  rw [storeAll_storeElems] at hmade
  obtain ⟨htiles, hcur⟩ := storeAll_tiles s (fun e => s.ownKey e.va) (memBytesOf ty)
    (fun e => (elemOut ty r (s.core.getV va) e.lane).toNat) (windowElems ty (s.core.getH h) row)
  exact completes_of_tiles he hmade htiles hcur hi
end

/-! ### WLD (R165, R322) -/

theorem execWld_eq (ty : Ty) (vd : VReg) (sa : SReg) (s : State) : exec (.wld ty vd sa) s = issue (.wld ty vd sa) s fun s =>
    let a := s.core.getS sa
    let n := 1024 * ty.bits / 8
    if !weightAddr a s.cur then .trap .progAddr a 0
    else if a.toNat % 2 ^ 26 % n ≠ 0 then .trap .progAlign a 0
    else match s.weightRead s.core.part a.toNat n with
      | .ok v => .done (s.modCore fun x => x.setV vd (Lanes.ofFn (weightElem ty v))) 0
      | .fault f => .trap f a 0
      | .wait => .hold s := by
  simp only [← extract_low_toNat]
  rfl

section
variable {ty : Ty} {vd : VReg} {sa : SReg} {s : State}

theorem traps_wldAddr (hw : weightAddr (s.core.getS sa) s.cur = false) (h : Issues (.wld ty vd sa) s) :
    Traps (.wld ty vd sa) s .progAddr (s.core.getS sa) 0 :=
  traps_issue (execWld_eq ..) h (if_pos (congrArg not hw))

variable (hw : weightAddr (s.core.getS sa) s.cur = true)
include hw

theorem traps_wldAlign (hn : (s.core.getS sa).toNat % 2 ^ 26 % (1024 * ty.bits / 8) ≠ 0) (h : Issues (.wld ty vd sa) s) :
    Traps (.wld ty vd sa) s .progAlign (s.core.getS sa) 0 :=
  traps_issue (execWld_eq ..) h ((if_neg (Bool.eq_false_iff.mp (congrArg not hw))).trans (if_pos hn))

theorem completes_wld {v : Nat} (hn : (s.core.getS sa).toNat % 2 ^ 26 % (1024 * ty.bits / 8) = 0)
    (hread : s.weightRead s.core.part (s.core.getS sa).toNat (1024 * ty.bits / 8) = .ok v) (h : Issues (.wld ty vd sa) s) :
    Completes (.wld ty vd sa) s (s.modCore fun x => x.setV vd (Lanes.ofFn (weightElem ty v))) 0 :=
  completes_core (f := fun x => x.setV vd (Lanes.ofFn (weightElem ty v))) (execWld_eq ..)
    ((if_neg (Bool.eq_false_iff.mp (congrArg not hw))).trans ((if_neg fun hne => hne hn).trans (by rw [hread])))
    (Slot.setV_hold ..) rfl h
end

/-- Settles O37: the elements that a window has and which lanes they fill, each read where it lies in the core's own half. -/
theorem vectorLoads : Obligations.VectorLoads := by
  intro ty vd h row s x H n two step cols rows key lane reads h0 hr hv ha
  refine ⟨fun hreads => completes_ownLoad hv ha hr h0 rfl ?_ (congrArg (x.setV vd) (Lanes.ofFn_congr fun e _ => ?_)),
    fun hreads => completes_ownLoad hv ha hr h0 rfl ?_ (congrArg (x.setV vd) (Lanes.ofFn_congr fun e _ => ?_))⟩
  · intro y hy
    obtain ⟨r, c, hrow, hcol, rfl⟩ := mem_windowElems.mp hy
    exact hreads r hrow c (by rwa [windowCols_eq] at hcol)
  · rw [laneOf_loaded (fun _ => mem_windowElems), ownLane_eq s ty fun c => hAddrAt H [c, e / 64], windowCols_eq]
    rfl
  · intro y hy
    obtain ⟨r, c, -, hcol, rfl⟩ := mem_windowElems_row.mp hy
    exact hreads 0 Nat.one_pos c (by rwa [windowCols_eq] at hcol)
  · refine ite_congr rfl (fun hrow => ?_) fun _ => rfl
    rw [laneOf_loaded (fun _ => mem_windowElems_row), ownLane_eq s ty fun c => hAddrAt H [c, 0], windowCols_eq]
    exact ite_congr (propext (and_iff_right hrow)) (fun _ => rfl) fun _ => rfl

/-- Settles O38: the checks in their order, then the access by its home; WLD by the address and what the tier answers. -/
theorem vectorStoresAndWeights : Obligations.VectorStoresAndWeights := by
  intro ty r vd va h row sa s x H n w es er out key after pass forms
  have hvector : ∀ p ∈ forms, ∃ (op : State → AccOp) (es' : State → List Elem),
      exec p.1 s = issue p.1 s fun s => vectorAccess (op s) ty (s.core.getH h) (es' s) s := by
    intro p hp
    have hp' : p = (.vld ty vd h, es) ∨ p = (.vldr ty vd h row, er) ∨ p = (.vst ty r h va, es) ∨ p = (.vstr ty r h va row, er) := by
      simpa [forms] using hp
    rcases hp' with rfl | rfl | rfl | rfl
    · exact ⟨_, _, execVld_eq ty vd h s⟩
    · exact ⟨_, _, execVldr_eq ty vd h row s⟩
    · exact ⟨_, _, execVst_eq ty r h va s⟩
    · exact ⟨_, _, execVstr_eq ty r h va row s⟩
  have hstores : ∀ p ∈ forms.drop 2, ∃ window, p.2 = windowElems ty H window ∧ exec p.1 s = issue p.1 s fun s =>
      vectorAccess .vstore ty (s.core.getH h) (storeElems ty r (s.core.getV va) (windowElems ty (s.core.getH h) window)) s := by
    intro p hp
    have hp' : p = (.vst ty r h va, es) ∨ p = (.vstr ty r h va row, er) := by simpa [forms] using hp
    rcases hp' with rfl | rfl
    · exact ⟨none, rfl, execVst_eq ty r h va s⟩
    · exact ⟨some row.toNat, rfl, execVstr_eq ty r h va row s⟩
  refine ⟨fun hv p hp hi => ?_, fun hv ha p hp hi => ?_,
    fun hv ha hr => ⟨fun h0 hs p hp hc hi => ?_, fun hf => ⟨fun hc hi => ?_, fun hc hi => ?_, fun p hp hc hi => ?_⟩⟩,
    fun v hw hn hread hi => ?_, fun hw hi => ?_, fun hw hn hi => ?_⟩
  · obtain ⟨op, es', he⟩ := hvector p hp
    exact traps_vectorBounds he hv hi
  · obtain ⟨op, es', he⟩ := hvector p hp
    exact traps_vectorAlign he hv ha hi
  · obtain ⟨window, hes, he⟩ := hstores p hp
    rw [hes] at hc ⊢
    exact ⟨completes_ownStore hv ha hr h0 he hc hi, fun a => memGet_storeAll_out key n (fun e => (out e).toNat) _ hs⟩
  · exact waits_farLoad hv ha hr (execVld_eq ty vd h s) hf hc hi
  · exact waits_farLoad hv ha hr (execVldr_eq ty vd h row s) hf hc hi
  · obtain ⟨window, hes, he⟩ := hstores p hp
    rw [hes] at hc ⊢
    exact waits_farStore hv ha hr he hf hc hi
  · exact completes_wld hw hn hread hi
  · exact traps_wldAddr hw hi
  · exact traps_wldAlign hw hn hi

end Sys2Proof.Machine
end

section
/-! SUPPORT. The head of a matrix queue: when it starts or faults, and what its completion point comes to, by its instruction
(R188, R190, R192, R193, R202, R251). -/

namespace Sys2Proof.Machine

/-! ### The start (R190, R192, R251) -/

theorem Slot.pushReleased_eq_true {x : Slot} {c : Cmd} :
    x.pushReleased c = true ↔ ∀ a ∈ x.accs, a.num < c.num → a.pending = false := by
  simp only [Slot.pushReleased, List.all_eq_true, Bool.or_eq_true, Bool.not_eq_true', decide_eq_false_iff_not,
    Decidable.imp_iff_not_or]

theorem Slot.pushReleased_eq_false {x : Slot} {c : Cmd} :
    x.pushReleased c = false ↔ ∃ a ∈ x.accs, a.num < c.num ∧ a.pending = true := by
  simp only [Slot.pushReleased, List.all_eq_false, Bool.or_eq_true, not_or, Bool.not_eq_true', decide_eq_false_iff_not,
    Decidable.not_not, Bool.not_eq_false]

section Head
variable {s : State} {t : Nat} {c : Cmd} {rest : List Cmd}

theorem exec_matrixCommandStart_of_pending (hq : (s.slot t (s.run t)).mq = c :: rest)
    (hp : (s.slot t (s.run t)).pushReleased c = false) : exec (.matrixCommandStart t) s = .next s := by
  show execMatrixCommandStart t s = _
  simp [execMatrixCommandStart, hq, hp]

/-! A head whose wait is met and whose core's earlier accesses are performed takes its checks. -/

section Released
variable (hq : (s.slot t (s.run t)).mq = c :: rest) (he : s.enginesRun t (s.run t) = true) (hf : c.fpend = none)
  (hs : c.started = false) (hw : c.wtaken = true) (hp : (s.slot t (s.run t)).pushReleased c = true)
include hq he hf hs hw hp

theorem exec_matrixCommandStart_of_passed (hbad : startBad t (s.slot t (s.run t)) c = none) :
    exec (.matrixCommandStart t) s =
      .next ((s.modCmd t (s.run t) true c.num fun y => { y with started := true }).arm t (s.run t) true) := by
  show execMatrixCommandStart t s = _
  simp [execMatrixCommandStart, hq, he, hf, hs, hw, hp, hbad]

theorem exec_matrixCommandStart_of_bad {f : FaultName} {a d : W64} (hbad : startBad t (s.slot t (s.run t)) c = some (f, a, d)) :
    exec (.matrixCommandStart t) s = .next (s.engineFault t (s.run t) true c f a d) := by
  show execMatrixCommandStart t s = _
  simp [execMatrixCommandStart, hq, he, hf, hs, hw, hp, hbad]
end Released

/-! ### The completion point (R95, R190) -/

theorem exec_matrixCommandComplete_of_not_started (hq : (s.slot t (s.run t)).mq = c :: rest) (hs : c.started = false) :
    exec (.matrixCommandComplete t) s = .next s := by
  show execMatrixCommandComplete t s = _
  simp [execMatrixCommandComplete, hq, hs]

theorem exec_matrixCommandComplete_of_sigdue (hq : (s.slot t (s.run t)).mq = c :: rest) (he : s.enginesRun t (s.run t) = true)
    (hf : c.fpend = none) (hs : c.started = true) (hd : c.sigdue = true) :
    exec (.matrixCommandComplete t) s = .next (s.finishCmd t (s.run t) true c) := by
  show execMatrixCommandComplete t s = _
  simp only [execMatrixCommandComplete, hq, he, hf, hs, hd]
  rfl
end Head

/-! ### The effect, by the instruction (R188, R193, R202) -/

section Effect
variable {s : State} {t b : Nat} {c : Cmd}

theorem State.halfPoison_eq_none {h : W256} {n : Nat} {ixs : List (List Nat)}
    (hp : ∀ ix ∈ ixs, s.isPoisoned (halfKey t b + offOf h ix) n = false) : s.halfPoison t b h n ixs = none :=
  Option.map_eq_none_iff.mpr (List.find?_eq_none.mpr fun ix hix => by rw [hp ix hix]; exact Bool.false_ne_true)

theorem State.halfPoison_eq_some {h : W256} {n : Nat} {ixs : List (List Nat)}
    (hp : ∃ ix ∈ ixs, s.isPoisoned (halfKey t b + offOf h ix) n = true) : ∃ a, s.halfPoison t b h n ixs = some a := by
  obtain ⟨ix, hfind⟩ := Option.isSome_iff_exists.mp (List.find?_isSome.mpr hp)
  exact ⟨hAddrAt h ix, by rw [State.halfPoison, hfind]; rfl⟩

theorem State.performMatrix_mnop {e : Eng} (hi : c.instr = .mnop e) : s.performMatrix t b c = s.finishCmd t b true c := by
  simp only [State.performMatrix, hi, accWrite]

theorem State.performMatrix_mzero {a : AReg} {e : Eng} (hi : c.instr = .mzero a e) :
    s.performMatrix t b c = (s.modSlot t b fun x => x.setA a {}).finishCmd t b true c := by
  simp only [State.performMatrix, hi]

theorem State.performMatrix_tld {r : TReg} {h : HReg} {e : Eng} (hi : c.instr = .tld r h e) :
    let y := (s.slot t b).getT r
    s.halfPoison t b c.ha (tileBytes y.ty) (tilePlaces y.ty y.rows y.cols c.ha) = none →
      s.performMatrix t b c = (s.modSlot t b fun x => x.setT r (s.loadTile t b y c.ha)).finishCmd t b true c := by
  intro y hp
  simp only [State.performMatrix, hi, hp, y]

theorem State.performMatrix_tld_poisoned {r : TReg} {h : HReg} {e : Eng} {a : W64} (hi : c.instr = .tld r h e) :
    let y := (s.slot t b).getT r
    s.halfPoison t b c.ha (tileBytes y.ty) (tilePlaces y.ty y.rows y.cols c.ha) = some a →
      s.performMatrix t b c = s.engineFault t b true c .hwPoison a 0 := by
  intro y hp
  simp only [State.performMatrix, hi, hp, y]

theorem State.performMatrix_tst {r : TReg} {h : HReg} {e : Eng} (hi : c.instr = .tst r h e) :
    let y := (s.slot t b).getT r
    s.performMatrix t b c = (s.storeHalf t b (tileStores y.ty y.rows y.cols c.ha (fun i j => tget 0 y.data (512 * i + j))
      fun i j => tget 0 y.scale (16 * i + j))).finishCmd t b true c := by
  simp only [State.performMatrix, hi]

/-- A drain whose accumulator has no checksums compares nothing: it marks MSTAT.UNCHK and writes its destination. -/
theorem State.performMatrix_mdrain_unchecked {a : AReg} {ty : Ty} {rnd : Rnd} {dst : DrainTo} {e : Eng}
    (hi : c.instr = .mdrain a ty rnd dst e) (hc : ((s.slot t b).getA a).chk = false) :
    s.performMatrix t b c =
      ((s.modSlot t b fun x => x.setMstat mstatUnchk).drainTo t b c ((s.slot t b).getA a) ty rnd dst).finishCmd t b true c := by
  simp only [State.performMatrix, hi, State.drain, hc]
  rfl
end Effect

/-- Settles O40: the start by the core's earlier accesses and the checks, the completion by the instruction at the head. -/
theorem matrixCommandsRun : Obligations.MatrixCommandsRun := by
  intro t c rest s b x start done ends reg hidle hbusy htask hq hf
  have he : s.enginesRun t b = true := State.enginesRun_of_busy hidle hbusy htask
  refine ⟨fun hs hw => ⟨fun hp => ?_, fun hp => ?_⟩, exec_matrixCommandComplete_of_not_started hq,
    fun hs => ⟨exec_matrixCommandComplete_of_sigdue hq he hf hs, fun hd => ?_⟩⟩
  · exact exec_matrixCommandStart_of_pending hq (Slot.pushReleased_eq_false.mpr hp)
  · have hreleased := Slot.pushReleased_eq_true.mpr hp
    exact ⟨exec_matrixCommandStart_of_passed hq he hf hs hw hreleased,
      fun _ _ _ => exec_matrixCommandStart_of_bad hq he hf hs hw hreleased⟩
  · have hdone : done = .next (s.performMatrix t b c) := exec_matrixCommandComplete_of_started hq he hs hf hd
    refine ⟨fun e hi => ?mnop, fun a e hi => ?mzero, fun r h e hi => ?tld, fun r h e hi => ?tst, fun a ty rnd dst e hi hc => ?mdrain⟩
    case mnop => exact hdone.trans (congrArg _ (State.performMatrix_mnop hi))
    case mzero => exact hdone.trans (congrArg _ (State.performMatrix_mzero hi))
    case tld =>
      refine ⟨fun hp => ?_, fun hp => ?_⟩
      · exact hdone.trans (congrArg _ (State.performMatrix_tld hi (State.halfPoison_eq_none hp)))
      · obtain ⟨a, ha⟩ := State.halfPoison_eq_some hp
        exact ⟨a, hdone.trans (congrArg _ (State.performMatrix_tld_poisoned hi ha))⟩
    case tst => exact hdone.trans (congrArg _ (State.performMatrix_tst hi))
    case mdrain => exact hdone.trans (congrArg _ (State.performMatrix_mdrain_unchecked hi hc))

end Sys2Proof.Machine
end

section
/-! SUPPORT. The Sward and weight commands at issue: the offer with its operands, and what holds the core while its wait cell's need is
not met (R207, R208, R323, R324). -/

namespace Sys2Proof.Machine

/-! ### A core that waits with its offer (R95, R208) -/

/-- Slot y is x, held with an offer that is made or waits to be, and time has passed. -/
structure Slot.Offers (x : Slot) (o : Offer) (y : Slot) : Prop where
  hold : y.hold = .offerWait o ∨ y.hold = .offer o
  pc   : y.pc = x.pc
  regs : y.s = x.s

section
variable {x y : Slot} {o : Offer}

theorem Slot.Offers.runFor (h : x.Offers o y) (stalled : Bool) (n : Nat) : x.Offers o (y.runFor stalled n) := by
  obtain ⟨hhold, hpc, hregs⟩ := h
  exact ⟨hhold.imp (congrArg (Hold.pass n)) (congrArg (Hold.pass n)), hpc, hregs⟩

theorem Slot.Offers.restFor (h : x.Offers o y) (n : Nat) : x.Offers o (y.restFor n) := by
  unfold Slot.restFor
  split
  · exact ⟨h.hold, h.pc, h.regs⟩
  · exact h
end

/-- The core, in slot b of tile t, is held with its offer. -/
structure State.Offers (u : State) (t b : Nat) (x : Slot) (o : Offer) : Prop where
  cur  : u.cur = t
  run  : u.run t = b
  slot : x.Offers o (u.slot t b)

theorem State.slot_congr (s : State) (t : Nat) {b c : Nat} (h : b = 0 ↔ c = 0) : s.slot t b = s.slot t c := by
  simp only [State.slot, Tile.slot, h]

section
variable {u : State} {t b : Nat} {x : Slot} {o : Offer} (h : u.Offers t b x o)
include h

theorem State.Offers.core : x.Offers o u.core := by
  rw [State.core, h.cur, h.run]
  exact h.slot

theorem State.Offers.congr {v : State} (hc : v.cur = u.cur) (hr : v.run t = u.run t) (hs : v.slot t b = u.slot t b) :
    v.Offers t b x o :=
  ⟨hc.trans h.cur, hr.trans h.run, hs ▸ h.slot⟩

theorem State.Offers.modSlot {c : Nat} {f : Slot → Slot} (hf : ∀ y, x.Offers o y → x.Offers o (f y)) :
    (u.modSlot t c f).Offers t b x o := by
  refine ⟨h.cur, (State.run_modSlot ..).trans h.run, ?_⟩
  rw [State.slot_modSlot]
  split
  · next hbc => exact hf _ (u.slot_congr t hbc.2 ▸ h.slot)
  · exact h.slot

theorem State.Offers.putCell (n : Nat) (y : Cell) : (u.putCell t n y).Offers t b x o :=
  h.congr rfl ((Aside.putCell (b := b) n y).run t) (State.slot_putCell ..)

theorem State.Offers.dropWaiter (w : Who) : (u.dropWaiter t w).Offers t b x o :=
  h.congr rfl ((Aside.dropWaiter (b := b) w).run t) (State.slot_dropWaiter ..)

/-- A need that is met turns the wait into the offer, and an offer that is made stands. -/
theorem State.Offers.satisfied (w : Waiter) : (u.satisfied t w).Offers t b x o := by
  unfold State.satisfied
  split
  · refine h.modSlot fun y hy => ?_
    obtain ⟨hhold, hpc, hregs⟩ := hy
    rcases hhold with hw | ho
    · rw [hw]
      exact ⟨.inr rfl, hpc, hregs⟩
    · rw [ho]
      exact ⟨.inr ho, hpc, hregs⟩
  · exact h.modSlot fun y hy => ⟨hy.hold, hy.pc, hy.regs⟩
  · exact h.modSlot fun y hy => ⟨hy.hold, hy.pc, hy.regs⟩
  · exact h.congr rfl rfl rfl

theorem State.Offers.unsatisfied (w : Waiter) : (u.unsatisfied t w).Offers t b x o := by
  unfold State.unsatisfied
  split
  · split
    · exact (h.dropWaiter _).congr rfl rfl rfl
    · exact h
  · exact h

theorem State.Offers.evalWaiter (w : Waiter) : (u.evalWaiter t w).Offers t b x o := by
  unfold State.evalWaiter
  split
  · split
    · exact ((h.putCell ..).dropWaiter _).satisfied w
    · exact h.unsatisfied w
  · exact h

theorem State.Offers.foldl_evalWaiter (ws : List Waiter) : (ws.foldl (fun s w => s.evalWaiter t w) u).Offers t b x o := by
  induction ws generalizing u with
  | nil => exact h
  | cons w ws ih => exact ih (h.evalWaiter w)

theorem State.Offers.settle : (u.settle t).Offers t b x o := (h.foldl_evalWaiter _).foldl_evalWaiter _

theorem State.Offers.endWaits : (u.endWaits t).Offers t b x o := by
  unfold State.endWaits
  split
  · exact h.dropWaiter _
  · exact h

theorem State.Offers.pass (stalled : Bool) (n : Nat) : (u.modTile t fun y => y.pass stalled n).Offers t b x o := by
  have hb : b < 2 := h.run ▸ u.run_lt t
  refine ⟨h.cur, ?_, ?_⟩
  · rw [State.run, State.tile_modTile_same]
    exact h.run
  · rw [State.slot, State.tile_modTile_same, Tile.pass_slot _ _ _ _ hb]
    split
    · exact h.slot.runFor stalled n
    · exact h.slot.restFor n

theorem State.Offers.tick (n : Nat) : (u.tick t n).Offers t b x o := (h.settle.pass _ n).endWaits
end

/-! ### The offer (R207, R208, R323) -/

/-- The offer of an instruction before its operands are read. -/
def State.bareOffer (s : State) (i : Instr) : Offer :=
  { instr := i, num := s.nextNum, words := s.core.gwords, addr := s.core.ipc, wid := s.core.wid, header := s.core.header }

/-- An instruction of engine fields e offers o: at once where it names no wait cell, and else after the need of a cell that its
partition owns. -/
def MakesOffer (s : State) (i : Instr) (e : Eng) (o : Offer) : Prop :=
  (e.wait = none → Issues i s → Waits i s (s.newNum.2.modCore fun x => { x with hold := .offer o })) ∧
  (∀ c w, e.wait = some (c, w) →
    ((s.cell s.cur c.toNat).ownedBy s.core.part = false → Issues i s → Traps i s .isoWindow (cellAddr s.cur c.toNat) 0) ∧
    ((s.cell s.cur c.toNat).ownedBy s.core.part = true → Issues i s →
      ∃ u, exec i s = .next u ∧ (u.core.hold = .offerWait o ∨ u.core.hold = .offer o) ∧ u.core.pc = s.core.pc ∧
        (∀ r, u.core.getS r = s.core.getS r) ∧ u.mem = s.mem))

section
variable {s : State} {i : Instr} {e : Eng} {mk : Slot → Offer → Offer} (he : i.eng? = some e)
include he

theorem offerCommand_of_no_wait (hw : e.wait = none) : offerCommand mk i s =
    .hold (s.newNum.2.modCore fun x => { x with hold := .offer (mk s.core (s.bareOffer i)) }) := by
  simp only [offerCommand, he, Option.getD_some, hw]
  rfl

theorem offerCommand_of_foreign_cell {c : CellNo} {w : BitVec 20} (hw : e.wait = some (c, w))
    (ho : (s.cell s.cur c.toNat).ownedBy s.core.part = false) :
    offerCommand mk i s = .trap .isoWindow (cellAddr s.cur c.toNat) 0 := by
  simp only [offerCommand, he, Option.getD_some, hw]
  exact if_pos (by rw [Bool.not_eq_true']; exact ho)

/-- The core waits with its offer on a cell of its tile. -/
theorem offerCommand_of_own_cell {c : CellNo} {w : BitVec 20} (hw : e.wait = some (c, w))
    (ho : (s.cell s.cur c.toNat).ownedBy s.core.part = true) : ∃ y : Waiter, offerCommand mk i s =
      .hold ((s.newNum.2.addWaiter s.cur y).modCore fun x => { x with hold := .offerWait (mk s.core (s.bareOffer i)) }) := by
  simp only [offerCommand, he, Option.getD_some, hw]
  exact ⟨_, if_neg (by rw [Bool.not_eq_true']; exact fun hn => Bool.false_ne_true (hn.symm.trans ho))⟩
end

theorem Slot.getS_of_regs {x y : Slot} (h : y.s = x.s) (r : SReg) : y.getS r = x.getS r := by
  simp only [Slot.getS, h]

theorem State.slot_addWaiter (s : State) (t : Nat) (w : Waiter) (u c : Nat) : (s.addWaiter t w).slot u c = s.slot u c := by
  rw [State.slot, State.addWaiter, State.tile_modTile]
  split
  · next h => exact h ▸ rfl
  · rfl

/-- A core that begins to wait with its offer is held with it. -/
theorem State.offers_addWaiter (s : State) (y : Waiter) (o : Offer) :
    ((s.newNum.2.addWaiter s.cur y).modCore fun x => { x with hold := .offerWait o }).Offers s.cur (s.run s.cur) s.core o := by
  have hsame : Same s (s.newNum.2.addWaiter s.cur y) := ⟨rfl, (Aside.addWaiter (b := s.run s.cur) (s := s.newNum.2) y).run _⟩
  have hcore : (s.newNum.2.addWaiter s.cur y).core = s.core := hsame.core.trans (State.slot_addWaiter ..)
  refine ⟨rfl, (State.run_modCore ..).trans hsame.run, ?_⟩
  rw [hsame.slot_modCore, hcore]
  exact ⟨.inl rfl, rfl, rfl⟩

/-- An instruction whose meaning is an offer. -/
theorem makesOffer_of_offerCommand {s : State} {i : Instr} {e : Eng} {k : State → Res} {mk : Slot → Offer → Offer}
    (hx : exec i s = issue i s k) (hk : k s = offerCommand mk i s) (he : i.eng? = some e) :
    MakesOffer s i e (mk s.core (s.bareOffer i)) := by
  refine ⟨fun hw h => ?_, fun c w hw => ⟨fun ho h => ?_, fun ho h => ?_⟩⟩
  · exact waits_core hx h (hk.trans (offerCommand_of_no_wait he hw)) (Same.newNum s) rfl
  · exact traps_issue hx h (hk.trans (offerCommand_of_foreign_cell he hw ho))
  · obtain ⟨y, hy⟩ := offerCommand_of_own_cell (mk := mk) he hw ho
    obtain ⟨hhold, hpc, hregs⟩ := ((s.offers_addWaiter y (mk s.core (s.bareOffer i))).tick s.words).core
    refine ⟨_, ?_, hhold, hpc, Slot.getS_of_regs hregs, State.tick_mem ..⟩
    rw [hx, issue_issues h, hk, hy]
    rfl

/-! ### Operands that only one command reads (R212, R214, R216) -/

/-- SWAPP's: two scalars and, from the row of its vector on, as many lanes as it appends tokens. -/
def appendOperands (sx sy : SReg) (v : VReg) (row : BitVec 4) (x : Slot) (o : Offer) : Offer :=
  { scalars sx sy x o with
    toks := (List.range (min (x.getS sy).toNat (1024 - 64 * row.toNat))).map fun i => (x.getV v).get (64 * row.toNat + i) }

/-- SWCLOSE's: the context. -/
def contextOperand (sx : SReg) (x : Slot) (o : Offer) : Offer := { o with x := x.getS sx }

/-- SWPOP's: the context, and the vector register in which a result row will stand. -/
def popOperands (v : VReg) (sx : SReg) (x : Slot) (o : Offer) : Offer := { o with x := x.getS sx, vd := x.phys v }

/-! ### Pops (R214) -/

section
variable {s : State} {v : VReg} {sx : SReg} {row : BitVec 4} {e : Eng}

/-- A pop of the task is on its way: an accepted operation that will write a vector register. -/
def State.popPending (s : State) : Bool := (s.swOpsOf s.cur (s.run s.cur)).any fun o => !o.writesV.isEmpty

theorem State.popPending_iff : s.popPending = true ↔ ∃ o ∈ s.swOpsOf s.cur (s.run s.cur), o.writesV ≠ [] := by
  simp only [State.popPending, List.any_eq_true, Bool.not_eq_true', List.isEmpty_eq_false_iff]

theorem execSwpop_eq (v : VReg) (sx : SReg) (row : BitVec 4) (e : Eng) (s : State) : exec (.swpop v sx row e) s =
    issue (.swpop v sx row e) s fun s =>
      if s.popPending then .hold s else offerCommand (popOperands v sx) (.swpop v sx row e) s := rfl

theorem waits_swpop_of_pending (hp : s.popPending = true) (h : Issues (.swpop v sx row e) s) : Waits (.swpop v sx row e) s s :=
  waits_of (execSwpop_eq ..) h rfl (if_pos hp) .refl (by rw [State.canIssue_hold h.can]; rfl)

theorem makesOffer_swpop (hp : ¬ s.popPending = true) : MakesOffer s (.swpop v sx row e) e
    (popOperands v sx s.core (s.bareOffer (.swpop v sx row e))) :=
  makesOffer_of_offerCommand (execSwpop_eq ..) (if_neg hp) rfl
end

/-! ### WSTAT (R324) -/

section
variable {s : State} {sd sx : SReg}

theorem execWstat_eq (sd sx : SReg) (s : State) : exec (.wstat sd sx) s = issue (.wstat sd sx) s fun s =>
    let w := s.core.getS sx
    let k := regionNo w.toNat
    if wAddrBad w then .trap .progAddr w 0
    else if w.extractLsb' 0 26 ≠ 0 then .trap .progAlign w 0
    else .done (s.modCore fun x => x.setS sd (if (s.region k).ownedBy k x.part then (s.region k).word else 7)) 0 := rfl

theorem low_eq_zero_iff (w : W64) (n : Nat) : w.extractLsb' 0 n = 0 ↔ w.toNat % 2 ^ n = 0 := by
  rw [field_eq_zero_iff, Nat.pow_zero, Nat.div_one]

theorem traps_wstat_of_bad (hb : wAddrBad (s.core.getS sx) = true) (h : Issues (.wstat sd sx) s) :
    Traps (.wstat sd sx) s .progAddr (s.core.getS sx) 0 := traps_issue (execWstat_eq ..) h (if_pos hb)

variable (hb : wAddrBad (s.core.getS sx) = false)
include hb

theorem traps_wstat_of_unaligned (ha : (s.core.getS sx).toNat % 2 ^ 26 ≠ 0) (h : Issues (.wstat sd sx) s) :
    Traps (.wstat sd sx) s .progAlign (s.core.getS sx) 0 :=
  traps_issue (execWstat_eq ..) h ((if_neg (Bool.eq_false_iff.mp hb)).trans (if_pos (mt (low_eq_zero_iff ..).mp ha)))

theorem completes_wstat (ha : (s.core.getS sx).toNat % 2 ^ 26 = 0) (h : Issues (.wstat sd sx) s) :
    let k := regionNo (s.core.getS sx).toNat
    Completes (.wstat sd sx) s (s.modCore fun y => y.setS sd (if (s.region k).ownedBy k s.core.part then (s.region k).word else 7)) 0 :=
  completes_value (execWstat_eq ..)
    ((if_neg (Bool.eq_false_iff.mp hb)).trans (if_neg (not_not_intro ((low_eq_zero_iff ..).mpr ha)))) rfl h
end

/-- Settles O43: each command's meaning is an offer with its operands, a pop's once none is on its way (notes/assumptions/26); WSTAT
answers by its address. -/
theorem offersAreMade : Obligations.OffersAreMade := by
  intro sx sy v row h sd e s x X Y H offers
  have makes {i : Instr} (mk : Slot → Offer → Offer) (hx : exec i s = issue i s (offerCommand mk i)) (he : i.eng? = some e) :
      offers i (mk x) := makesOffer_of_offerCommand hx rfl he
  refine ⟨makes (scalars sx sy) rfl rfl, makes (scalars sx sy) rfl rfl, makes (appendOperands sx sy v row) rfl rfl,
    makes (scalars sx sy) rfl rfl, makes (scalars sx sy) rfl rfl, makes (scalars sx sy) rfl rfl, makes (contextOperand sx) rfl rfl,
    ?firstPop, ?laterPop, makes (weightOperands sx (some h) none) rfl rfl,
    makes (weightOperands sx (some h) (some sy)) rfl rfl, makes (weightOperands sx none none) rfl rfl,
    makes (weightOperands sx (some h) none) rfl rfl, makes (weightOperands sx none none) rfl rfl,
    makes (weightOperands sx (some h) none) rfl rfl,
    traps_wstat_of_bad, traps_wstat_of_unaligned, completes_wstat⟩
  case firstPop =>
    refine fun hnone => makesOffer_swpop fun hp => ?_
    obtain ⟨o, ho, hw⟩ := State.popPending_iff.mp hp
    exact hw (hnone o ho)
  case laterPop => exact fun hsome => waits_swpop_of_pending (State.popPending_iff.mpr hsome)

end Sys2Proof.Machine
end

section
/-! SUPPORT. The Sward unit of a die: whose offer it takes next, what acceptance does to it, and what an operation does that is the
first on its context (R207–R209, R211–R216). -/

namespace Sys2Proof.Machine

/-! ### The offer taken next (R208) -/

/-- The first of a row of turns that has an answer gives it. -/
theorem findSome?_map_range {α β : Type} {f : α → Option β} {turn : Nat → α} {n i : Nat} {y : β} (hi : i < n)
    (hbefore : ∀ j < i, f (turn j) = none) (hy : f (turn i) = some y) : ((List.range n).map turn).findSome? f = some y := by
  obtain ⟨m, rfl⟩ := Nat.exists_eq_add_of_lt hi
  have hnone : (List.range i).findSome? (f ∘ turn) = none := List.findSome?_eq_none_iff.mpr fun j hj => hbefore j (List.mem_range.mp hj)
  rw [List.findSome?_map, Nat.add_assoc, List.range_add, List.findSome?_append, hnone, Nat.add_comm m 1, List.range_add]
  simp [hy]

/-- The tile whose turn comes i places after the one that the unit accepted last. -/
def State.swardTurn (s : State) (d i : Nat) : Nat := d * 48 + ((s.die d).swLast + 1 + i) % 48

/-- The Sward command that a tile's core offers, with its tile. -/
def State.swardOffer (s : State) (t : Nat) : Option (Nat × Offer) :=
  ((s.offerOf t).filter fun o => isSward o.instr).map fun o => (t, o)

theorem State.swardOffer_eq_none {s : State} {t : Nat} (h : ∀ o, s.offerOf t = some o → isSward o.instr = false) :
    s.swardOffer t = none :=
  Option.map_eq_none_iff.mpr (Option.filter_eq_none_iff.mpr fun o ho => by rw [h o ho]; exact Bool.false_ne_true)

theorem State.swardOffer_eq_some {s : State} {t : Nat} {o : Offer} (ho : s.offerOf t = some o) (hs : isSward o.instr = true) :
    s.swardOffer t = some (t, o) := by
  rw [State.swardOffer, ho, Option.filter_some, if_pos hs, Option.map_some]

/-- Tile t's offer is the next that the unit of die d takes. -/
def State.SwardNext (s : State) (d t : Nat) (o : Offer) : Prop :=
  ((List.range 48).map (s.swardTurn d)).findSome? s.swardOffer = some (t, o)

/-! ### Acceptance (R207, R208) -/

/-- Tile t becomes the one that the unit accepted last. -/
def State.swardTook (s : State) (d t : Nat) : State := s.modDie d fun y => { y with swLast := t }

theorem State.swardBad_swardTook (s : State) (d t : Nat) (x : Slot) (o : Offer) :
    (s.swardTook d t).swardBad d x o = s.swardBad d x o := by
  simp only [State.swardBad, State.swardTook, State.die_modDie_same]
  rfl

theorem State.ctx_swardTook (s : State) (d t n : Nat) : ((s.swardTook d t).die d).ctx n = (s.die d).ctx n := by
  rw [State.swardTook, State.die_modDie_same]
  rfl

/-- The query that a command takes, if it is a pop. -/
def Slot.queryTaken (x : Slot) (o : Offer) : Option Nat :=
  match o.instr with
  | .swpop _ _ _ _ => ((outstanding x).find? fun q => q.ctx == o.x.toNat).map Query.op
  | _ => none

theorem Slot.queryTaken_of_other {x : Slot} {o : Offer} (h : ∀ v sx row e, o.instr ≠ .swpop v sx row e) : x.queryTaken o = none := by
  unfold Slot.queryTaken
  split
  · next hi => exact absurd hi (h _ _ _ _)
  · rfl

/-- The operation that an accepted offer of tile t's core becomes, a task of number n having issued it. -/
def State.swardOp (s : State) (d t n : Nat) (x : Slot) (o : Offer) : SwOp :=
  { id := s.nextNum, tile := t, slot := s.run t, task := n, part := x.part, offer := o,
    serial := (((s.die d).ctx o.x.toNat).map SwCtx.serial).getD 0, qop := x.queryTaken o }

section Accept
variable {s : State} {d t : Nat} {o : Offer} (hnext : s.SwardNext d t o)
include hnext

theorem exec_swardAccept_of_bad {f : FaultName} (hbad : s.swardBad d (s.slot t (s.run t)) o = some f) :
    exec (.swardAccept d) s =
      .next ((s.swardTook d t).modSlot t (s.run t) fun x => x.trap f (if f = .progAlign then o.y else 0) 0) := by
  rw [← State.swardBad_swardTook _ _ t] at hbad
  show execSwardAccept d s = _
  unfold State.SwardNext State.swardOffer State.swardTurn at hnext
  unfold State.swardTook at hbad ⊢
  simp only [execSwardAccept, hnext, hbad]

theorem exec_swardAccept_of_good (hgood : s.swardBad d (s.slot t (s.run t)) o = none) {k : Task}
    (hk : (s.slot t (s.run t)).task = some k) : exec (.swardAccept d) s =
      .next (((s.swardTook d t).newNum.2.modSlot t (s.run t) Slot.release).acceptOp d t (s.run t)
        (s.swardOp d t k.num (s.slot t (s.run t)) o)) := by
  have hctx : ((s.swardTook d t).newNum.2.die d).ctx o.x.toNat = (s.die d).ctx o.x.toNat :=
    State.ctx_swardTook s d t o.x.toNat
  rw [← State.swardBad_swardTook _ _ t] at hgood
  show execSwardAccept d s = _
  unfold State.SwardNext State.swardOffer State.swardTurn at hnext
  unfold State.swardTook at hgood hctx ⊢
  simp only [execSwardAccept, hnext, hgood, hk, hctx, State.swardOp]
  cases (s.die d).ctx o.x.toNat <;> rfl
end Accept

/-! ### What acceptance does to the operation (R208, R211, R213, R216) -/

/-- The operation stands last in its unit's order. -/
def State.withSwOp (s : State) (d : Nat) (o : SwOp) : State := s.modDie d fun y => { y with swOps := y.swOps ++ [o] }

section Effect
variable {s : State} {d t b : Nat} {o : SwOp}

theorem State.acceptOp_swopen_of_reserved {sx sy : SReg} {e : Eng} {n : Nat} (hi : o.offer.instr = .swopen sx sy e)
    (hr : (s.withSwOp d o).reserve d o.part o.offer.y.toNat = some n) :
    s.acceptOp d t b o = (((s.withSwOp d o).openCtx d n ⟨o.part, o.offer.y.toNat, 0, 0, [], 0, false⟩).modSlot t b
      fun x => x.setS sx (BitVec.ofNat 64 n)).finishOp d o := by
  unfold State.withSwOp at hr ⊢
  simp only [State.acceptOp, hi, hr]

theorem State.acceptOp_swopen_of_refused {sx sy : SReg} {e : Eng} (hi : o.offer.instr = .swopen sx sy e)
    (hr : (s.withSwOp d o).reserve d o.part o.offer.y.toNat = none) :
    s.acceptOp d t b o = ((s.withSwOp d o).modSlot t b fun x => x.setS sx (BitVec.allOnes 64)).finishOp d o := by
  unfold State.withSwOp at hr ⊢
  simp only [State.acceptOp, hi, hr]

theorem State.acceptOp_swqry {sx sy : SReg} {e : Eng} (hi : o.offer.instr = .swqry sx sy e) :
    s.acceptOp d t b o = ((s.withSwOp d o).modDie d fun y => y.modCtx o.offer.x.toNat fun c =>
      { c with serial := c.serial + 1 }).modSlot t b
        fun x => { x with queries := x.queries ++ [⟨o.offer.x.toNat, o.id, none, false⟩] } := by
  simp only [State.acceptOp, hi, State.withSwOp]

theorem State.acceptOp_swapp {sx sy : SReg} {v : VReg} {row : BitVec 4} {e : Eng} (hi : o.offer.instr = .swapp sx sy v row e) :
    s.acceptOp d t b o = s.withSwOp d o := by
  simp only [State.acceptOp, hi, State.withSwOp]

theorem State.acceptOp_swclose {sx : SReg} {e : Eng} (hi : o.offer.instr = .swclose sx e) :
    s.acceptOp d t b o = (s.withSwOp d o).modDie d fun y => y.modCtx o.offer.x.toNat fun c => { c with closing := true } := by
  simp only [State.acceptOp, hi, State.withSwOp]

/-! ### An operation that is the first on its context (R209, R212–R216) -/

theorem exec_swardPerform_of_first {i : Nat} (hi : (s.die d).swOps[i]? = some o) (hf : o.fpend = none) (hs : o.sigdue = false)
    (hfirst : ∀ y ∈ (s.die d).swOps.take i, y.ctx ≠ o.ctx ∨ y.sigdue = true ∨ y.fpend.isSome = true) :
    exec (.swardPerform d i) s = .next (s.performOp d o) := by
  have hall : firstOnCtx ((s.die d).swOps.take i) o = true := by
    refine Bool.or_eq_true_iff.mpr (.inr (List.all_eq_true.mpr fun y hy => ?_))
    simpa only [Bool.or_eq_true, bne_iff_ne, or_assoc] using hfirst y hy
  show execSwardPerform d i s = _
  simp only [execSwardPerform, hi, hf, hs, hall, Bool.false_eq_true, if_false, if_true]

variable {c : SwCtx} (hc : (s.die d).ctx o.offer.x.toNat = some c)
include hc

theorem State.performOp_swapp {sx sy : SReg} {v : VReg} {row : BitVec 4} {e : Eng} (hi : o.offer.instr = .swapp sx sy v row e) :
    let ts := o.offer.toks.map fun w => w.setWidth 24
    s.performOp d o = (s.modDie d fun y => y.modCtx o.offer.x.toNat fun c =>
      let cut := c.win.length + ts.length - c.quota
      { c with win := (c.win ++ ts).drop cut, base := c.base + cut, stop := c.stop + ts.length }).finishOp d o := by
  simp only [State.performOp, hi, hc, SwCtx.append, List.length_append]

theorem State.performOp_swevt {sx sy : SReg} {e : Eng} (hi : o.offer.instr = .swevt sx sy e) :
    s.performOp d o = (s.modDie d fun y => y.modCtx o.offer.x.toNat fun c => c.evict o.offer.y.toNat).finishOp d o := by
  simp only [State.performOp, hi, hc]

theorem State.performOp_swclose {sx : SReg} {e : Eng} (hi : o.offer.instr = .swclose sx e) :
    s.performOp d o = (s.modDie d fun y => y.dropCtx o.offer.x.toNat).finishOp d o := by
  simp only [State.performOp, hi, hc]

theorem State.performOp_swqry {sx sy : SReg} {e : Eng} (hi : o.offer.instr = .swqry sx sy e) :
    s.performOp d o = (s.modTask d o.task (storeAnswer o.id (swAnswer c.win c.base (o.offer.y.toNat % 128)
      (o.offer.y.toNat / 256 % 32) o.serial))).finishOp d o := by
  have hlmax : (o.offer.y.extractLsb' 0 7).toNat = o.offer.y.toNat % 128 := extract_low_toNat ..
  have hk : (o.offer.y.extractLsb' 8 5).toNat = o.offer.y.toNat / 256 % 32 := by
    rw [BitVec.extractLsb'_toNat, Nat.shiftRight_eq_div_pow]
  simp only [State.performOp, hi, hc, hlmax, hk]
end Effect

/-- Settles O44: the next turn's offer by its checks and its instruction, the first operation of a context by its instruction. -/
theorem swardCommandsRun : Obligations.SwardCommandsRun := by
  intro d s turn
  refine ⟨?accept, ?perform⟩
  case accept =>
    intro i hi o hbefore ho hsward t b x u acc
    have hnext : s.SwardNext d t o := findSome?_map_range hi (fun j hj => State.swardOffer_eq_none (hbefore j hj))
      (State.swardOffer_eq_some ho hsward)
    refine ⟨fun f hbad => exec_swardAccept_of_bad hnext hbad, ?_⟩
    intro hgood k hk op w
    have accepted (hp : ∀ v sx row e, o.instr ≠ .swpop v sx row e) :
        acc = .next (((s.swardTook d t).newNum.2.modSlot t b Slot.release).acceptOp d t b op) := by
      have hop : s.swardOp d t k.num x o = op := by
        rw [State.swardOp, Slot.queryTaken_of_other hp]
      exact hop ▸ exec_swardAccept_of_good hnext hgood hk
    refine ⟨fun sx sy e hopen => ?_, fun sx sy e hqry => ?_, fun sx sy v row e happ => ?_, fun sx e hclose => ?_⟩
    · have hacc := accepted fun _ _ _ _ h => nomatch hopen.symm.trans h
      exact ⟨fun n hr => hacc.trans (congrArg _ (State.acceptOp_swopen_of_reserved hopen hr)),
        fun hr => hacc.trans (congrArg _ (State.acceptOp_swopen_of_refused hopen hr))⟩
    · exact (accepted fun _ _ _ _ h => nomatch hqry.symm.trans h).trans (congrArg _ (State.acceptOp_swqry hqry))
    · exact (accepted fun _ _ _ _ h => nomatch happ.symm.trans h).trans (congrArg _ (State.acceptOp_swapp happ))
    · exact (accepted fun _ _ _ _ h => nomatch hclose.symm.trans h).trans (congrArg _ (State.acceptOp_swclose hclose))
  case perform =>
    intro i o c hi hf hs hfirst hc n act
    have hact : act = .next (s.performOp d o) := exec_swardPerform_of_first hi hf hs hfirst
    refine ⟨fun sx sy v row e happ => ?_, fun sx sy e hevt => ?_, fun sx e hclose => ?_, fun sx sy e hqry => ?_⟩
    · exact hact.trans (congrArg _ (State.performOp_swapp hc happ))
    · exact hact.trans (congrArg _ (State.performOp_swevt hc hevt))
    · exact hact.trans (congrArg _ (State.performOp_swclose hc hclose))
    · exact hact.trans (congrArg _ (State.performOp_swqry hc hqry))

end Sys2Proof.Machine
end

section
/-! SUPPORT. The search of a Sward unit: which places of a window end a match with its last tokens, and which of them an answer names
(R205). -/

namespace Sys2Proof.Machine

section
variable {w : List (BitVec 24)} {l n p : Nat}

/-! ### The places of a match -/

/-- The l tokens that end at place p of the window, before its last, are the l tokens that end the window. -/
def MatchAt (w : List (BitVec 24)) (l p : Nat) : Prop := l ≤ p + 1 ∧ p + 1 < w.length ∧ ∀ i < l, w[p - i]? = w[w.length - 1 - i]?

theorem MatchAt.le_length (h : MatchAt w l p) : l ≤ w.length := by
  obtain ⟨hstart, hend, -⟩ := h
  omega

/-- The tokens up to place p, read forwards, are the last ones exactly where they are so read backwards. -/
theorem slice_eq_last_iff (hl : l ≤ p + 1) (hp : p + 1 < w.length) :
    (w.drop (p + 1 - l)).take l = w.drop (w.length - l) ↔ ∀ i < l, w[p - i]? = w[w.length - 1 - i]? := by
  constructor
  · intro h i hi
    have hat := congrArg (·[l - 1 - i]?) h
    simp only [List.getElem?_take, List.getElem?_drop, show l - 1 - i < l by omega, if_true] at hat
    rwa [show p + 1 - l + (l - 1 - i) = p - i by omega, show w.length - l + (l - 1 - i) = w.length - 1 - i by omega] at hat
  · intro h
    refine List.ext_getElem? fun j => ?_
    rw [List.getElem?_take, List.getElem?_drop, List.getElem?_drop]
    by_cases hj : j < l
    · have hat := h (l - 1 - j) (by omega)
      rw [if_pos hj]
      rwa [show p - (l - 1 - j) = p + 1 - l + j by omega, show w.length - 1 - (l - 1 - j) = w.length - l + j by omega] at hat
    · rw [if_neg hj, List.getElem?_eq_none (by omega)]

theorem mem_occurrences : p ∈ occurrences w l ↔ MatchAt w l p := by
  have hplace (hl : l ≤ p + 1) : ((p < w.length - 1 ∧ (w.drop (p + 1 - l)).take l = w.drop (w.length - l)) ↔
      p + 1 < w.length ∧ ∀ i < l, w[p - i]? = w[w.length - 1 - i]?) := by
    rw [show p < w.length - 1 ↔ p + 1 < w.length by omega]
    exact and_congr_right (slice_eq_last_iff hl)
  simp only [occurrences, List.mem_reverse, List.mem_filter, List.mem_range, Bool.and_eq_true, decide_eq_true_eq, beq_iff_eq]
  rw [and_left_comm]
  exact and_congr_right hplace

theorem occurrences_eq_nil (h : ∀ p, ¬ MatchAt w l p) : occurrences w l = [] :=
  List.eq_nil_iff_forall_not_mem.mpr fun p hp => h p (mem_occurrences.mp hp)

/-- The places are listed from the latest to the earliest. -/
theorem occurrences_pairwise (w : List (BitVec 24)) (l : Nat) : (occurrences w l).Pairwise (· > ·) :=
  List.pairwise_reverse.mpr (List.pairwise_lt_range.filter _)

theorem head?_occurrences (hp : MatchAt w l p) (hlast : ∀ q, p < q → ¬ MatchAt w l q) : (occurrences w l).head? = some p := by
  have hmem := mem_occurrences.mpr hp
  have hsorted := occurrences_pairwise w l
  cases hs : occurrences w l with
  | nil => exact absurd (hs ▸ hmem) List.not_mem_nil
  | cons q r =>
    rw [hs] at hmem hsorted
    rcases List.mem_cons.mp hmem with rfl | hr
    · rfl
    · have hlater : p < q := (List.pairwise_cons.mp hsorted).1 p hr
      exact absurd (mem_occurrences.mp (hs ▸ List.mem_cons_self)) (hlast q hlater)

/-! ### The longest match -/

theorem bestMatch_of_some (hn : n + 1 ≤ w.length) (h : (occurrences w (n + 1)).head? = some p) :
    bestMatch w (n + 1) = some (n + 1, p) := by
  rw [bestMatch, if_pos hn, h]

theorem bestMatch_of_unmatched (h : ∀ p, ¬ MatchAt w (n + 1) p) : bestMatch w (n + 1) = bestMatch w n := by
  rw [bestMatch, occurrences_eq_nil h, List.head?_nil, ite_self]

theorem bestMatch_eq_none (h : ∀ m p, 1 ≤ m → m ≤ n → ¬ MatchAt w m p) : bestMatch w n = none := by
  induction n with
  | zero => rfl
  | succ n ih =>
    rw [bestMatch_of_unmatched fun p => h (n + 1) p (by omega) le_rfl]
    exact ih fun m p h1 hm => h m p h1 (by omega)

theorem bestMatch_eq_some (h1 : 1 ≤ l) (hl : l ≤ n) (hp : MatchAt w l p) (hlast : ∀ q, p < q → ¬ MatchAt w l q)
    (hlong : ∀ m q, l < m → m ≤ n → ¬ MatchAt w m q) : bestMatch w n = some (l, p) := by
  induction n with
  | zero => omega
  | succ n ih =>
    by_cases heq : l = n + 1
    · subst heq
      exact bestMatch_of_some hp.le_length (head?_occurrences hp hlast)
    · rw [bestMatch_of_unmatched fun p => hlong (n + 1) p (by omega) le_rfl]
      exact ih (by omega) fun m q hm hmn => hlong m q hm (by omega)

/-! ### The answer -/

section
variable {base lmax k : Nat} {serial : W32}

theorem swAnswer_of_unmatched (h : bestMatch w (min lmax 64) = none) :
    swAnswer w base lmax k serial = ⟨0, 0, 0xFFFFFFFF, serial, []⟩ := by
  rw [swAnswer, h]

theorem swAnswer_of_match (h : bestMatch w (min lmax 64) = some (l, p)) :
    let draft := (w.drop (p + 1)).take (min k (w.length - 1 - p))
    swAnswer w base lmax k serial =
      ⟨BitVec.ofNat 32 l, BitVec.ofNat 32 draft.length, BitVec.ofNat 32 (base + p + 1), serial, draft.map (·.setWidth 32)⟩ := by
  rw [swAnswer, h]
end
end

/-- Settles O45: the search goes through the lengths from the longest, and through the places of a length from the latest. -/
theorem queriesFindTheLongestMatch : Obligations.QueriesFindTheLongestMatch := by
  intro w base lmax k serial _ _ n top occurs a
  refine ⟨fun hnone => ?unmatched, fun l p h1 hl _ hp hlast hlong => ?matched⟩
  case unmatched => exact swAnswer_of_unmatched (bestMatch_eq_none hnone)
  case matched =>
    have hlonger : ∀ m q, l < m → m ≤ top → ¬ MatchAt w m q :=
      fun m q hm htop hq => hlong m q hm htop hq.le_length hq
    exact swAnswer_of_match (bestMatch_eq_some h1 hl hp hlast hlonger)

end Sys2Proof.Machine
end

section
/-! SUPPORT. Scalar and handle accesses at issue: the checks that they pass or fail, what an access of the core's own half reads or
writes, and which accesses are handed over (R146, R231, R259–R266). -/

namespace Sys2Proof.Machine

/-! ### The checks at issue (R259, R260, R265) -/

section
variable {op : AccOp} {atomic : Bool} {n : Nat} {o : Ord} {va : W64} {d : W256} {s : State}

theorem fitsBlock_of_not (ha : offBits va % n ≠ 0) (hb : 64 < offBits va % 64 + n) : fitsBlock va n = false := by
  simp only [fitsBlock, Bool.or_eq_false_iff, beq_eq_false_iff_ne, decide_eq_false_iff_not]
  exact ⟨ha, by omega⟩

theorem scalarAccess_misaligned (hw : windowCell va = none) (ha : offBits va % n ≠ 0) (hb : 64 < offBits va % 64 + n) :
    scalarAccess op false n o va d s = .trap .progAlign va 0 := by
  simp [scalarAccess, hw, fitsBlock_of_not ha hb]

theorem scalarAccess_atomic_misaligned (ha : offBits va % n ≠ 0) : scalarAccess op true n o va d s = .trap .progAlign va 0 := by
  simp [scalarAccess, ha]

theorem scalarAccess_of_check {f : FaultName} (ha : offBits va % n = 0)
    (hc : s.tileCheck s.core.header s.core.part va n op.writes atomic = some f) :
    scalarAccess op atomic n o va d s = .trap f va 0 := by
  cases atomic <;> simp [scalarAccess, fitsBlock_of (.inl ha), ha, hc]

theorem scalarAccess_of_checked (ha : offBits va % n = 0)
    (hc : s.tileCheck s.core.header s.core.part va n op.writes atomic = none) :
    scalarAccess op atomic n o va d s = s.makeAccess op n o [{ lane := 0, va := va, data := d }] := by
  cases atomic <;> simp [scalarAccess, fitsBlock_of (.inl ha), ha, hc]

theorem tileCheck_own_none {w : Bool} (h0 : homeBits va = 0) (hn : 0 < n) (hb : offBits va + n ≤ 0x400000)
    (hg : inGap s.core.header (offBits va) n = false) : s.tileCheck s.core.header s.core.part va n w false = none := by
  rw [tileCheck_own h0 hn hb, hg]
  rfl

theorem scalarAccess_own (h0 : homeBits va = 0) (hn : 0 < n) (hb : offBits va + n ≤ 0x400000)
    (hg : inGap s.core.header (offBits va) n = false) (ha : offBits va % n = 0 ∨ offBits va % 64 + n ≤ 64) :
    scalarAccess op false n o va d s = s.makeAccess op n o [{ lane := 0, va := va, data := d }] := by
  simp [scalarAccess, fitsBlock_of ha, tileCheck_own_none h0 hn hb hg]

theorem handleAccess_misaligned (ha : offBits va % 32 ≠ 0) : handleAccess op va d s = .trap .progAlign va 0 := if_pos ha

theorem handleAccess_of_checked (ha : offBits va % 32 = 0)
    (hc : s.tileCheck s.core.header s.core.part va 32 op.writes false = none) :
    handleAccess op va d s = s.makeAccess op 32 .plain [{ lane := 0, va := va, data := d }] := by
  rw [handleAccess, if_neg (not_not.mpr ha), hc]
end

/-! ### What a load writes (R262) -/

theorem sizeBytes_cases (z : Size) : sizeBytes z = 1 ∨ sizeBytes z = 2 ∨ sizeBytes z = 4 ∨ sizeBytes z = 8 := by
  cases z <;> decide

theorem sizeBytes_pos (z : Size) : 0 < sizeBytes z := by cases z <;> decide

/-- The low w bits of a number below 2^w, sign-extended. -/
theorem signExtend_extract {w m : Nat} (hw : w ≤ 64) (hm : m < 2 ^ w) :
    ((BitVec.ofNat 256 m).extractLsb' 0 w).signExtend 64 =
      BitVec.ofInt 64 (if 2 * m < 2 ^ w then (m : Int) else (m : Int) - (2 ^ w : Nat)) := by
  have h256 : m < 2 ^ 256 := hm.trans_le (Nat.pow_le_pow_right (by decide) (by omega))
  rw [BitVec.signExtend, BitVec.toInt_eq_toNat_cond, extract_low_toNat, BitVec.toNat_ofNat, Nat.mod_eq_of_lt h256,
    Nat.mod_eq_of_lt hm]

theorem pow256 (n : Nat) : 256 ^ n = 2 ^ (8 * n) := by rw [pow_mul]; norm_num

theorem extendTo_unsigned {n m : Nat} (hm : m < 256 ^ n) (hn : n ≤ 32) :
    extendTo false n (BitVec.ofNat 256 m) = BitVec.ofNat 64 m := by
  have hlt : m < 2 ^ 256 := (pow256 n ▸ hm).trans_le (Nat.pow_le_pow_right (by decide) (by omega))
  simp only [extendTo, Bool.false_eq_true, if_false, BitVec.toNat_ofNat]
  rw [Nat.mod_eq_of_lt hlt, Nat.mod_eq_of_lt hm]

theorem extendTo_signed {n m : Nat} (hn : n = 1 ∨ n = 2 ∨ n = 4 ∨ n = 8) (hm : m < 256 ^ n) :
    extendTo true n (BitVec.ofNat 256 m) = BitVec.ofInt 64 (if 2 * m < 256 ^ n then (m : Int) else m - 256 ^ n) := by
  have hcast : (256 : Int) ^ n = ((2 ^ (8 * n) : Nat) : Int) := by rw [← pow256]; push_cast; rfl
  rw [pow256] at hm
  have hext := signExtend_extract (w := 8 * n) (by omega) hm
  rw [hcast, pow256, ← hext]
  rcases hn with rfl | rfl | rfl | rfl
  · rfl
  · rfl
  · rfl
  · exact (BitVec.signExtend_eq _).symm

/-! ### Accesses of the core's own half (R261, R262) -/

section
variable {i : Instr} {s : State} {va : W64} {o : Ord} {n : Nat}

/-- A load that passed its checks writes what its operation makes of the bytes read. -/
theorem completes_ownRead {op : AccOp} {k : State → Res} {g : Slot → Slot} (he : exec i s = issue i s k)
    (hk : k s = s.makeAccess op n o [{ lane := 0, va := va, data := 0 }]) (hw : op.writes = false) (h0 : homeBits va = 0)
    (hm : s.mayAccess o va) (hp : s.isPoisoned (halfKey s.cur (s.run s.cur) + offBits va) n = false)
    (hg : ∀ e, e.data = BitVec.ofNat 256 (s.readMem (halfKey s.cur (s.run s.cur) + offBits va) n) →
      s.core.finish op n [e] = g s.core) (hh : (g s.core).hold = s.core.hold) (hi : Issues i s) : Completes i s (s.modCore g) 0 := by
  obtain ⟨e, hdata, hmade⟩ := makeAccess_load (d := 0) hw hm h0 hp
  exact completes_core he (hk.trans hmade) (by rw [hg e hdata, hh]) (hg e hdata) hi

/-- A store that passed its checks writes its bytes, which read back, and no other byte. -/
theorem completes_ownWrite {op : AccOp} {k : State → Res} {d : W256} {v : Nat} (he : exec i s = issue i s k)
    (hk : k s = s.makeAccess op n o [{ lane := 0, va := va, data := d }]) (hw : op.writes = true)
    (hf : ∀ x es, Slot.finish x op n es = x) (h0 : homeBits va = 0) (hm : s.mayAccess o va) (hs : s.Safe) (hd : d.toNat = v)
    (hi : Issues i s) :
    let key := halfKey s.cur (s.run s.cur) + offBits va
    Completes i s (s.writeMem key n v) 0 ∧ (s.writeMem key n v).readMem key n = v % 256 ^ n ∧
      ∀ a, a < key ∨ key + n ≤ a → memGet (s.writeMem key n v).mem a = memGet s.mem a := by
  subst hd
  exact ⟨completes_of_tiles he (hk.trans (makeAccess_store hw hf hm h0)) rfl rfl hi, memRead_memWrite_same hs _ _ _,
    fun a ha => memGet_memWrite_out hs _ _ _ _ ha⟩
end

/-! ### The forms of unit 3 and of the handles (R146, R262, R263) -/

section
variable (z : Size) (o : Ord) (sd base : SReg) (h : HReg) (disp : W64) (s : State)

theorem execLd_eq : exec (.ld z o sd base disp) s = issue (.ld z o sd base disp) s fun s =>
    scalarAccess (.load false sd) false (sizeBytes z) o (s.core.getS base + disp) 0 s := rfl

theorem execLds_eq : exec (.lds z o sd base disp) s = issue (.lds z o sd base disp) s fun s =>
    scalarAccess (.load true sd) false (sizeBytes z) o (s.core.getS base + disp) 0 s := rfl

theorem execSt_eq : exec (.st z o sd base disp) s = issue (.st z o sd base disp) s fun s =>
    scalarAccess .store false (sizeBytes z) o (s.core.getS base + disp) ((s.core.getS sd).setWidth 256) s := rfl

theorem execHld_eq : exec (.hld h base disp) s = issue (.hld h base disp) s fun s =>
    handleAccess (.hload h) (s.core.getS base + disp) 0 s := rfl

theorem execHst_eq : exec (.hst h base disp) s = issue (.hst h base disp) s fun s =>
    handleAccess .hstore (s.core.getS base + disp) (s.core.getH h) s := rfl
end

/-- Settles O8: the load passes its checks, reads its bytes in the core's own half, and writes them as its form extends them. -/
theorem ownHalfLoads : Obligations.OwnHalfLoads := by
  intro z o sd base hd disp s va k h0 hm reads
  refine ⟨fun n hn ⟨hb, hg, hp⟩ ha => ⟨fun hi => ?_, fun hi => ?_⟩, fun ⟨hb, hg, hp⟩ ha hi => ?_⟩
  · subst hn
    refine completes_ownRead (op := .load false sd) (execLd_eq ..) (scalarAccess_own h0 (sizeBytes_pos z) hb hg ha) rfl h0 hm hp
      (fun e hdata => congrArg (s.core.setS sd) ?_) (Slot.setS_hold ..) hi
    rcases sizeBytes_cases z with hz | hz | hz | hz <;>
      exact (congrArg _ hdata).trans (extendTo_unsigned (memRead_lt ..) (by omega))
  · subst hn
    exact completes_ownRead (op := .load true sd) (execLds_eq ..) (scalarAccess_own h0 (sizeBytes_pos z) hb hg ha) rfl h0 hm hp
      (fun e hdata => congrArg (s.core.setS sd) ((congrArg _ hdata).trans (extendTo_signed (sizeBytes_cases z) (memRead_lt ..))))
      (Slot.setS_hold ..) hi
  · exact completes_ownRead (op := .hload hd) (execHld_eq ..)
      (handleAccess_of_checked ha (tileCheck_own_none h0 (by decide) hb hg)) rfl h0 (o := .plain) ⟨hm.1, nofun⟩ hp
      (fun e hdata => congrArg (s.core.setH hd) hdata) (Slot.setH_hold ..) hi

/-- Settles O9: the store passes its checks, and its bytes enter memory by the rules of a written range. -/
theorem ownHalfStores : Obligations.OwnHalfStores := by
  intro z o sd base ha disp s va k h0 hm hs writes
  refine ⟨fun n hn hfit hb hg hi => ?_, fun hfit hb hg hi => ?_⟩
  · subst hn
    exact completes_ownWrite (op := .store) (execSt_eq ..) (scalarAccess_own h0 (sizeBytes_pos z) hb hg hfit) rfl (fun _ _ => rfl) h0 hm hs
      (by rw [BitVec.toNat_setWidth, Nat.mod_eq_of_lt (by omega)]) hi
  · exact completes_ownWrite (op := .hstore) (o := .plain) (execHst_eq ..)
      (handleAccess_of_checked hfit (tileCheck_own_none h0 (by decide) hb hg)) rfl (fun _ _ => rfl) h0 ⟨hm.1, nofun⟩ hs rfl hi

/-! ### Accesses that trap, wait at issue, or are handed over (R259–R266) -/

section
variable (z : Size) (o : Ord) (f : Bool) (sd base : SReg) (disp : W64) (s : State)

theorem execAadd_eq : exec (.aadd z o f sd base disp) s =
    issue (.aadd z o f sd base disp) s (atomicAt 0x03 z o f sd base disp) := rfl
theorem execAand_eq : exec (.aand z o f sd base disp) s =
    issue (.aand z o f sd base disp) s (atomicAt 0x04 z o f sd base disp) := rfl
theorem execAor_eq : exec (.aor z o f sd base disp) s =
    issue (.aor z o f sd base disp) s (atomicAt 0x05 z o f sd base disp) := rfl
theorem execAxor_eq : exec (.axor z o f sd base disp) s =
    issue (.axor z o f sd base disp) s (atomicAt 0x06 z o f sd base disp) := rfl
theorem execAmin_eq : exec (.amin z o f sd base disp) s =
    issue (.amin z o f sd base disp) s (atomicAt 0x07 z o f sd base disp) := rfl
theorem execAmax_eq : exec (.amax z o f sd base disp) s =
    issue (.amax z o f sd base disp) s (atomicAt 0x08 z o f sd base disp) := rfl
theorem execAminu_eq : exec (.aminu z o f sd base disp) s =
    issue (.aminu z o f sd base disp) s (atomicAt 0x09 z o f sd base disp) := rfl
theorem execAmaxu_eq : exec (.amaxu z o f sd base disp) s =
    issue (.amaxu z o f sd base disp) s (atomicAt 0x0A z o f sd base disp) := rfl
theorem execAfadd_eq : exec (.afadd z o f sd base disp) s =
    issue (.afadd z o f sd base disp) s (atomicAt 0x0B z o f sd base disp) := rfl
theorem execAfmin_eq : exec (.afmin z o f sd base disp) s =
    issue (.afmin z o f sd base disp) s (atomicAt 0x0C z o f sd base disp) := rfl
theorem execAfmax_eq : exec (.afmax z o f sd base disp) s =
    issue (.afmax z o f sd base disp) s (atomicAt 0x0D z o f sd base disp) := rfl
theorem execAswp_eq : exec (.aswp z o f sd base disp) s =
    issue (.aswp z o f sd base disp) s (atomicAt 0x0E z o f sd base disp) := rfl
theorem execAcas_eq : exec (.acas z o f sd base disp) s =
    issue (.acas z o f sd base disp) s (atomicAt 0x0F z o f sd base disp) := rfl

theorem execPlain_of_mem {i : Instr} (h : i ∈ [Instr.ld z o sd base disp, .lds z o sd base disp, .st z o sd base disp]) :
    ∃ (op : AccOp) (d : State → W256),
      exec i s = issue i s fun s => scalarAccess op false (sizeBytes z) o (s.core.getS base + disp) (d s) s := by
  simp only [List.mem_cons, List.not_mem_nil, or_false] at h
  rcases h with rfl | rfl | rfl
  · exact ⟨.load false sd, fun _ => 0, execLd_eq ..⟩
  · exact ⟨.load true sd, fun _ => 0, execLds_eq ..⟩
  · exact ⟨.store, fun s => (s.core.getS sd).setWidth 256, execSt_eq ..⟩

theorem execAtomic_of_mem {i : Instr} (h : i ∈ [Instr.aadd z o f sd base disp, .aand z o f sd base disp, .aor z o f sd base disp,
      .axor z o f sd base disp, .amin z o f sd base disp, .amax z o f sd base disp, .aminu z o f sd base disp,
      .amaxu z o f sd base disp, .afadd z o f sd base disp, .afmin z o f sd base disp, .afmax z o f sd base disp,
      .aswp z o f sd base disp, .acas z o f sd base disp]) :
    ∃ c, exec i s = issue i s (atomicAt c z o f sd base disp) := by
  simp only [List.mem_cons, List.not_mem_nil, or_false] at h
  rcases h with rfl | rfl | rfl | rfl | rfl | rfl | rfl | rfl | rfl | rfl | rfl | rfl | rfl
  · exact ⟨_, execAadd_eq ..⟩
  · exact ⟨_, execAand_eq ..⟩
  · exact ⟨_, execAor_eq ..⟩
  · exact ⟨_, execAxor_eq ..⟩
  · exact ⟨_, execAmin_eq ..⟩
  · exact ⟨_, execAmax_eq ..⟩
  · exact ⟨_, execAminu_eq ..⟩
  · exact ⟨_, execAmaxu_eq ..⟩
  · exact ⟨_, execAfadd_eq ..⟩
  · exact ⟨_, execAfmin_eq ..⟩
  · exact ⟨_, execAfmax_eq ..⟩
  · exact ⟨_, execAswp_eq ..⟩
  · exact ⟨_, execAcas_eq ..⟩

theorem atomicAt_eq (c : Nat) : atomicAt c z o f sd base disp s =
    scalarAccess (.atomic c f sd (s.core.getS sd)) true (sizeBytes z) o (s.core.getS base + disp)
      ((if c = 0x0F then s.core.getS (sd + 1) else s.core.getS sd).setWidth 256) s := rfl
end

/-- The home of an address that an atomic may not name: it has no bank unit, or the package does not have it (R231, R265). -/
theorem tileCheck_atomic_refused {s : State} {hd : W512} {p : PartNo} {va : W64} {n : Nat}
    (h : ((homeBits va = 0 ∧ 0x400000 ≤ offBits va) ∨ (4 < homeBits va ∧ homeBits va < 0x10) ∨
      (0x10 < homeBits va ∧ homeBits va < 0x20) ∨ (0x20 < homeBits va ∧ homeBits va < 0x40)) ∨
      homeBits va = 0 ∨ homeBits va = 0x10 ∨ homeBits va = 0x20 ∨ (homeBits va ≤ 4 ∧ 0x8000000 ≤ offBits va)) :
    s.tileCheck hd p va n true true = some .progAddr :=
  h.elim (fun hr => tileCheck_reserved (spaceOf_reserved hr)) tileCheck_atomic

/-- An access that passed its checks is handed over to its home where there is room for it, and waits at issue where there is none. -/
theorem waits_ofAccess {i : Instr} {s : State} {k : State → Res} {op : AccOp} {n : Nat} {o : Ord} {va : W64} {d : W256}
    (he : exec i s = issue i s k) (hk : k s = s.makeAccess op n o [{ lane := 0, va := va, data := d }]) (h0 : homeBits va ≠ 0)
    (hi : Issues i s) :
    (s.mayAccess o va → Waits i s (s.handsOver op n o [{ lane := 0, va := va, data := d }])) ∧
    (¬ s.mayAccess o va → Waits i s s) :=
  ⟨fun hm => waits_core (u := { s with nextNum := s.nextNum + 1 }) he hi (hk.trans (makeAccess_far hm h0)) ⟨rfl, rfl⟩ rfl,
    fun hm => waits_of he hi rfl (hk.trans (makeAccess_held hm)) .refl (Same.refl.inert hi rfl)⟩

/-- Settles O10: each form by the checks of its kind in their order, and one that passes them by its home. -/
theorem accessesThatTrapOrLeave : Obligations.AccessesThatTrapOrLeave := by
  refine ⟨fun z o f sd base h disp s => ?traps, fun z o f sd base h disp s => ?leaves⟩
  case traps =>
    intro va n plain atomics reserved i hi
    have hplain := execPlain_of_mem (i := i) z o sd base disp s
    have hatomic := execAtomic_of_mem (i := i) z o f sd base disp s
    refine ⟨fun hp hw ha hb => ?_, fun hp ha hr => ?_, fun hp h0 ha hb hg => ?_, fun hp ha => ?_, fun hp ha hr => ?_,
      fun hp ha => ?_⟩
    · obtain ⟨op, d, he⟩ := hplain hp
      exact traps_issue he hi (scalarAccess_misaligned hw ha hb)
    · obtain ⟨op, d, he⟩ := hplain hp
      exact traps_issue he hi (scalarAccess_of_check ha (tileCheck_reserved (spaceOf_reserved hr)))
    · obtain ⟨op, d, he⟩ := hplain hp
      exact traps_issue he hi (scalarAccess_of_check ha ((tileCheck_own h0 (sizeBytes_pos z) hb).trans (if_pos hg)))
    · obtain ⟨c, he⟩ := hatomic hp
      exact traps_issue he hi ((atomicAt_eq ..).trans (scalarAccess_atomic_misaligned ha))
    · obtain ⟨c, he⟩ := hatomic hp
      exact traps_issue he hi ((atomicAt_eq ..).trans (scalarAccess_of_check ha (tileCheck_atomic_refused hr)))
    · rcases hp with rfl | rfl
      · exact traps_issue (execHld_eq ..) hi (handleAccess_misaligned ha)
      · exact traps_issue (execHst_eq ..) hi (handleAccess_misaligned ha)
  case leaves =>
    intro va v hands atomic
    have hscalar {i k op a d} (he : exec i s = issue i s k) (hk : k s = scalarAccess op a (sizeBytes z) o va d s) :
        hands i op (sizeBytes z) o d a :=
      fun h0 ha hc hi => waits_ofAccess he (hk.trans (scalarAccess_of_checked ha hc)) h0 hi
    have hhandle {i k op d} (he : exec i s = issue i s k) (hk : k s = handleAccess op va d s) : hands i op 32 .plain d false :=
      fun h0 ha hc hi => waits_ofAccess he (hk.trans (handleAccess_of_checked ha hc)) h0 hi
    have hatomic {i c} (he : exec i s = issue i s (atomicAt c z o f sd base disp)) (hc : c ≠ 0x0F) : atomic i c v :=
      hscalar he (by rw [atomicAt_eq, if_neg hc])
    exact ⟨hscalar (execLd_eq ..) rfl, hscalar (execLds_eq ..) rfl, hscalar (execSt_eq ..) rfl, hhandle (execHld_eq ..) rfl,
      hhandle (execHst_eq ..) rfl, hatomic (execAadd_eq ..) (by decide), hatomic (execAand_eq ..) (by decide),
      hatomic (execAor_eq ..) (by decide), hatomic (execAxor_eq ..) (by decide), hatomic (execAmin_eq ..) (by decide),
      hatomic (execAmax_eq ..) (by decide), hatomic (execAminu_eq ..) (by decide), hatomic (execAmaxu_eq ..) (by decide),
      hatomic (execAfadd_eq ..) (by decide), hatomic (execAfmin_eq ..) (by decide), hatomic (execAfmax_eq ..) (by decide),
      hatomic (execAswp_eq ..) (by decide), hscalar (execAcas_eq ..) (by rw [atomicAt_eq, if_pos rfl])⟩

end Sys2Proof.Machine
end

section
/-! SUPPORT. What becomes of an access at its home: the reply, the performance of its elements, and the data that returns (R240,
R243, R253, R259–R264, R266). -/

namespace Sys2Proof.Machine

/-! ### The new value of a bank atomic (R264, R266) -/

/-- The number of n bytes read as signed. -/
def signedOf (n v : Nat) : Int := if 2 * v < 256 ^ n then (v : Int) else v - 256 ^ n

theorem toInt_extract {w : Nat} {x : W64} : (x.extractLsb' 0 (8 * w)).toInt = signedOf w (x.toNat % 256 ^ w) := by
  have hcast : (256 : Int) ^ w = ((2 ^ (8 * w) : Nat) : Int) := by rw [← pow256]; push_cast; rfl
  rw [BitVec.toInt_eq_toNat_cond, extract_low_toNat, signedOf, hcast, pow256]

section
variable {n : Nat} (x y c : W64)

theorem and_mask_toNat (hn : n ≤ 8) (r : W64) : (r &&& BitVec.ofNat 64 (2 ^ (n * 8) - 1)).toNat = r.toNat % 256 ^ n := by
  have hle : 2 ^ (n * 8) ≤ 2 ^ 64 := Nat.pow_le_pow_right (by decide) (by omega)
  have hpos : 0 < 2 ^ (n * 8) := Nat.two_pow_pos _
  rw [BitVec.toNat_and, BitVec.toNat_ofNat, Nat.mod_eq_of_lt (by omega), Nat.and_two_pow_sub_one_eq_mod, pow256, Nat.mul_comm n 8]

theorem mod_pow256 (hn : n ≤ 8) (m : Nat) : m % 2 ^ 64 % 256 ^ n = m % 256 ^ n := by
  rw [pow256]
  exact Nat.mod_mod_of_dvd _ (Nat.pow_dvd_pow 2 (by omega))

theorem pow_mul_eight (n : Nat) : 2 ^ (n * 8) = 256 ^ n := by rw [pow256, Nat.mul_comm]

section
variable (hn : n ≤ 8)
include hn

theorem bankOp_add : (bankOp 0x03 n x y c).toNat = (x.toNat % 256 ^ n + y.toNat % 256 ^ n) % 256 ^ n := by
  refine (and_mask_toNat hn (x + y)).trans ?_
  rw [BitVec.toNat_add, mod_pow256 hn, Nat.add_mod]

theorem bankOp_and : (bankOp 0x04 n x y c).toNat = x.toNat % 256 ^ n &&& y.toNat % 256 ^ n := by
  refine (and_mask_toNat hn (x &&& y)).trans ?_
  rw [BitVec.toNat_and, pow256, Nat.and_mod_two_pow]

theorem bankOp_or : (bankOp 0x05 n x y c).toNat = x.toNat % 256 ^ n ||| y.toNat % 256 ^ n := by
  refine (and_mask_toNat hn (x ||| y)).trans ?_
  rw [BitVec.toNat_or, pow256, Nat.or_mod_two_pow]

theorem bankOp_xor : (bankOp 0x06 n x y c).toNat = x.toNat % 256 ^ n ^^^ y.toNat % 256 ^ n := by
  refine (and_mask_toNat hn (x ^^^ y)).trans ?_
  rw [BitVec.toNat_xor, pow256, Nat.xor_mod_two_pow]

theorem bankOp_minu : (bankOp 0x09 n x y c).toNat =
    if x.toNat % 256 ^ n ≤ y.toNat % 256 ^ n then x.toNat % 256 ^ n else y.toNat % 256 ^ n := by
  refine (and_mask_toNat hn (if y.toNat % 2 ^ (n * 8) < x.toNat % 2 ^ (n * 8) then y else x)).trans ?_
  rw [pow_mul_eight]
  split <;> split <;> omega

theorem bankOp_maxu : (bankOp 0x0A n x y c).toNat =
    if y.toNat % 256 ^ n ≤ x.toNat % 256 ^ n then x.toNat % 256 ^ n else y.toNat % 256 ^ n := by
  refine (and_mask_toNat hn (if x.toNat % 2 ^ (n * 8) < y.toNat % 2 ^ (n * 8) then y else x)).trans ?_
  rw [pow_mul_eight]
  split <;> split <;> omega

theorem bankOp_swap : (bankOp 0x0E n x y c).toNat = y.toNat % 256 ^ n := and_mask_toNat hn y

theorem bankOp_cas : (bankOp 0x0F n x y c).toNat =
    if x.toNat % 256 ^ n = c.toNat % 256 ^ n then y.toNat % 256 ^ n else x.toNat % 256 ^ n := by
  refine (and_mask_toNat hn (if x.toNat % 2 ^ (n * 8) = c.toNat % 2 ^ (n * 8) then y else x)).trans ?_
  rw [pow_mul_eight]
  split <;> rfl
end

/-- The signed value of an operand, as ATMIN and ATMAX compare it. -/
theorem signed_operand (hn : n = 4 ∨ n = 8) :
    (if n = 4 then (x.extractLsb' 0 32).toInt else x.toInt) = signedOf n (x.toNat % 256 ^ n) := by
  rcases hn with rfl | rfl
  · exact toInt_extract (w := 4)
  · rw [← toInt_extract (w := 8), if_neg (by decide), BitVec.extractLsb'_eq_self]

theorem bankOp_min (hn : n = 4 ∨ n = 8) : (bankOp 0x07 n x y c).toNat =
    if signedOf n (x.toNat % 256 ^ n) ≤ signedOf n (y.toNat % 256 ^ n) then x.toNat % 256 ^ n else y.toNat % 256 ^ n := by
  refine (and_mask_toNat (by omega) (if (if n = 4 then (y.extractLsb' 0 32).toInt else y.toInt) <
    (if n = 4 then (x.extractLsb' 0 32).toInt else x.toInt) then y else x)).trans ?_
  rw [signed_operand x hn, signed_operand y hn]
  split <;> split <;> omega

theorem bankOp_max (hn : n = 4 ∨ n = 8) : (bankOp 0x08 n x y c).toNat =
    if signedOf n (y.toNat % 256 ^ n) ≤ signedOf n (x.toNat % 256 ^ n) then x.toNat % 256 ^ n else y.toNat % 256 ^ n := by
  refine (and_mask_toNat (by omega) (if (if n = 4 then (x.extractLsb' 0 32).toInt else x.toInt) <
    (if n = 4 then (y.extractLsb' 0 32).toInt else y.toInt) then y else x)).trans ?_
  rw [signed_operand x hn, signed_operand y hn]
  split <;> split <;> omega

/-- A result of w bits is all that an element of as many bytes takes. -/
theorem setWidth_mod {w n : Nat} (r : BitVec w) (hw : w = 8 * n) (hn : n ≤ 8) : (r.setWidth 64).toNat % 256 ^ n = r.toNat := by
  subst hw
  rw [BitVec.toNat_setWidth, mod_pow256 hn, pow256, Nat.mod_eq_of_lt r.isLt]

theorem extract_eq_ofNat {w n : Nat} (hw : w = 8 * n) (r : W64) : r.extractLsb' 0 w = BitVec.ofNat w (r.toNat % 256 ^ n) := by
  subst hw
  refine BitVec.eq_of_toNat_eq ?_
  rw [extract_low_toNat, BitVec.toNat_ofNat, pow256, Nat.mod_mod]

theorem bankOp_bf16 : (bankOp 0x0B 2 x y c).toNat = (bf16Add (x.extractLsb' 0 16) (y.extractLsb' 0 16)).toNat :=
  (and_mask_toNat (by decide) _).trans (setWidth_mod (n := 2) _ rfl (by decide))

theorem bankOp_fadd : (bankOp 0x0B 4 x y c).toNat = (f32Add .rne (x.extractLsb' 0 32) (y.extractLsb' 0 32)).toNat :=
  (and_mask_toNat (by decide) _).trans (setWidth_mod (n := 4) _ rfl (by decide))

theorem bankOp_fmin : (bankOp 0x0C 4 x y c).toNat = (f32Min (x.extractLsb' 0 32) (y.extractLsb' 0 32)).toNat :=
  (and_mask_toNat (by decide) _).trans (setWidth_mod (n := 4) _ rfl (by decide))

theorem bankOp_fmax : (bankOp 0x0D 4 x y c).toNat = (f32Max (x.extractLsb' 0 32) (y.extractLsb' 0 32)).toNat :=
  (and_mask_toNat (by decide) _).trans (setWidth_mod (n := 4) _ rfl (by decide))

theorem bankOp_lt (op : Nat) (hn : n ≤ 8) : (bankOp op n x y c).toNat < 256 ^ n := by
  unfold bankOp
  rw [and_mask_toNat hn]
  exact Nat.mod_lt _ (by positivity)
end

/-! ### An element performed where it lies (R240, R243, R253) -/

section
variable {t i k : Nat} {a : Access} {e : Elem} {s : State}

theorem State.performElem_atomic {c n : Nat} {f : Bool} {sd : SReg} {cmp : W64} (hl : e.loc = some (.mem k))
    (hp : s.isPoisoned k n = false) : s.performElem (.atomic c f sd cmp) n e =
      ({ e with data := (BitVec.ofNat 64 (s.readMem k n)).setWidth 256, done := true, poisoned := false },
        s.writeMem k n (bankOp c n (BitVec.ofNat 64 (s.readMem k n)) (e.data.extractLsb' 0 64) cmp).toNat) := by
  simp [State.performElem, hl, hp]

theorem State.performElem_store {n : Nat} (hl : e.loc = some (.mem k)) :
    s.performElem .store n e = ({ e with done := true }, s.writeMem k n e.data.toNat) := by
  simp [State.performElem, hl, AccOp.writes]

theorem State.performElem_load {n : Nat} {sgn : Bool} {sd : SReg} (hl : e.loc = some (.mem k)) :
    s.performElem (.load sgn sd) n e =
      ({ e with data := BitVec.ofNat 256 (s.readMem k n), done := true, poisoned := s.isPoisoned k n }, s) := by
  simp [State.performElem, hl, AccOp.writes]

/-- A complete access that writes no register leaves the list, and nothing else of it remains. -/
theorem completeAccess_set {x : Slot} {b : Access} (hi : x.accs[i]? = some a) (hf : ∀ y : Slot, y.finish b.op b.size b.elems = y)
    (hp : b.elems.find? Elem.poisoned = none) : ({ x with accs := x.accs.set i b } : Slot).completeAccess i = x.closeAccess i := by
  have hset : (x.accs.set i b)[i]? = some b := by
    obtain ⟨hlt, -⟩ := List.getElem?_eq_some_iff.mp hi
    rw [List.getElem?_set_self hlt]
  rw [completeAccess_eq hset hp, hf, closeAccess_set]

/-- The only element of an access that answers data is performed: the access keeps it. -/
theorem State.performAt_kept {b : Nat} {e' : Elem} {u : State} (hi : (s.slot t b).accs[i]? = some a) (he : a.elems = [e])
    (hp : s.performElem a.op a.size e = (e', u)) (hr : a.op.returns = true) :
    s.performAt t b i 0 = u.modSlot t b fun x => { x with accs := x.accs.set i { a with elems := [e'] } } := by
  simp [State.performAt, hi, he, hp, hr]

/-- The only element of an access that answers nothing is performed: the access is complete. -/
theorem State.performAt_closed {b : Nat} {e' : Elem} {u : State} (hi : (s.slot t b).accs[i]? = some a) (he : a.elems = [e])
    (hp : s.performElem a.op a.size e = (e', u)) (hr : a.op.returns = false) (hd : e'.done = true) (hg : e'.poisoned = false)
    (hf : ∀ y : Slot, y.finish a.op a.size [e'] = y) (hu : u.slot t b = s.slot t b) :
    s.performAt t b i 0 = u.modSlot t b fun x => x.closeAccess i := by
  refine Eq.trans ?_ (u.modSlot_congr t b (g := fun x => x.closeAccess i)
    (f := fun x => ({ x with accs := x.accs.set i { a with elems := [e'] } } : Slot).completeAccess i)
    (completeAccess_set (by rw [hu]; exact hi) hf (by simp [hg])))
  simp [State.performAt, hi, he, hp, hr, Access.pending, hd]

section
variable (hi : (s.slot t (s.run t)).accs[i]? = some a) (hm : mayPerform (s.slot t (s.run t)).accs i 0 = true)
include hi hm

theorem exec_bankAtomic (ho : a.op.isAtomic = true) (he : a.elems = [e]) (hl : e.loc = some (.mem k)) :
    exec (.bankAtomic t i) s = .next (s.performAt t (s.run t) i 0) := by
  show execBankAtomic t i s = _
  simp [execBankAtomic, hi, hm, ho, he, hl, isPeerLoc]

theorem exec_sharedMemoryAccess (ho : a.op.isAtomic = false) (he : a.elems = [e]) (hl : e.loc = some (.mem k)) :
    exec (.sharedMemoryAccess t i 0) s = .next (s.performAt t (s.run t) i 0) := by
  show execSharedMemoryAccess t i 0 s = _
  simp [execSharedMemoryAccess, hi, hm, ho, he, hl, isPeerLoc]
end

end

theorem State.slot_writeMem (s : State) (k n v t b : Nat) : (s.writeMem k n v).slot t b = s.slot t b := rfl

theorem setWidth_ofNat_of_lt {m : Nat} (h : m < 2 ^ 64) : (BitVec.ofNat 64 m).setWidth 256 = BitVec.ofNat 256 m :=
  BitVec.eq_of_toNat_eq (by rw [BitVec.toNat_setWidth, BitVec.toNat_ofNat, Nat.mod_eq_of_lt h, BitVec.toNat_ofNat])

theorem readMem_lt_word {s : State} {k n : Nat} (hn : n ≤ 8) : s.readMem k n < 2 ^ 64 :=
  (pow256 n ▸ memRead_lt s.mem k n).trans_le (Nat.pow_le_pow_right (by decide) (by omega))

/-- What the bank unit leaves of an accepted atomic (R253, R264). -/
theorem bankAtomic_performed {t i k c : Nat} {f : Bool} {sd : SReg} {cmp : W64} {a : Access} {e : Elem} {s : State}
    (hi : (s.slot t (s.run t)).accs[i]? = some a) (hop : a.op = .atomic c f sd cmp) (he : a.elems = [e])
    (hl : e.loc = some (.mem k)) (hn : a.size ≤ 8) (hm : mayPerform (s.slot t (s.run t)).accs i 0 = true)
    (hp : s.isPoisoned k a.size = false) :
    ∃ u, exec (.bankAtomic t i) s = .next u ∧
      u.mem = memWrite s.mem k a.size
        (bankOp c a.size (BitVec.ofNat 64 (s.readMem k a.size)) (e.data.extractLsb' 0 64) cmp).toNat ∧
      (f = true → (u.slot t (s.run t)).accs[i]? = some { a with
        elems := [{ e with data := BitVec.ofNat 256 (s.readMem k a.size), done := true, poisoned := false }] }) ∧
      (f = false → (u.slot t (s.run t)).accs = (s.slot t (s.run t)).accs.eraseIdx i) ∧
      ∀ r, (u.slot t (s.run t)).getS r = (s.slot t (s.run t)).getS r := by
  have hact := exec_bankAtomic hi hm (by rw [hop]; rfl) he hl
  have helem := State.performElem_atomic (c := c) (f := f) (sd := sd) (cmp := cmp) hl hp
  rw [setWidth_ofNat_of_lt (readMem_lt_word hn), ← hop] at helem
  cases f with
  | true =>
    rw [State.performAt_kept hi he helem (by rw [hop]; rfl)] at hact
    refine ⟨_, hact, rfl, fun _ => ?_, nofun, fun r => ?_⟩
    all_goals rw [State.slot_modSlot_same, State.slot_writeMem]
    · obtain ⟨hlt, -⟩ := List.getElem?_eq_some_iff.mp hi
      rw [List.getElem?_set_self hlt]
    · rfl
  | false =>
    rw [State.performAt_closed hi he helem (by rw [hop]; rfl) rfl rfl (by rw [hop]; exact fun _ => rfl) rfl] at hact
    refine ⟨_, hact, rfl, nofun, fun _ => ?_, fun r => ?_⟩
    all_goals rw [State.slot_modSlot_same, State.slot_writeMem]
    · exact closeAccess_accs ..
    · exact closeAccess_getS ..

/-- Settles O11: the bank unit performs the only element, and the value that it writes is the table's for each operation. -/
theorem bankAtomicsPerform : Obligations.BankAtomicsPerform := by
  intro t i c f sd cmp a e k s b n old op signed hi hop he hl hn hm hp hs
  have hn8 : n ≤ 8 := by omega
  obtain ⟨u, hact, hmem, hfetch, hgone, hregs⟩ := bankAtomic_performed hi hop he hl hn8 hm hp
  have hx : (BitVec.ofNat 64 old).toNat % 256 ^ n = old := by
    rw [BitVec.toNat_ofNat, Nat.mod_eq_of_lt (readMem_lt_word hn8)]
    exact Nat.mod_eq_of_lt (memRead_lt ..)
  have hy : (e.data.extractLsb' 0 64).toNat % 256 ^ n = op := by rw [extract_low_toNat, mod_pow256 hn8]
  have hxw {w : Nat} (hw : w = 8 * n) : (BitVec.ofNat 64 old).extractLsb' 0 w = BitVec.ofNat w old := by
    rw [extract_eq_ofNat hw, hx]
  have hyw {w : Nat} (hw : w = 8 * n) : (e.data.extractLsb' 0 64).extractLsb' 0 w = BitVec.ofNat w op := by
    rw [extract_eq_ofNat hw, hy]
  have hread : u.readMem k n = (bankOp c n (BitVec.ofNat 64 old) (e.data.extractLsb' 0 64) cmp).toNat := by
    rw [State.readMem, hmem, memRead_memWrite_same hs, Nat.mod_eq_of_lt (bankOp_lt _ _ _ _ hn8)]
  refine ⟨u, hact, fun m ho => ?frame, hfetch, hgone, hregs, fun h2 hc => ?bf16, fun h2 => ?wide⟩
  case frame => rw [hmem, memGet_memWrite_out hs _ _ _ _ ho]
  case bf16 => rw [hread, hc, h2, bankOp_bf16, hxw (by omega), hyw (by omega)]
  case wide =>
    have hwide : n = 4 ∨ n = 8 := by omega
    refine ⟨?_, ?_, ?_, ?_, ?_, ?_, ?_, ?_, ?_, ?_, fun h4 => ⟨?_, ?_, ?_⟩⟩
    all_goals rintro rfl
    all_goals rw [hread]
    · rw [bankOp_add _ _ _ hn8, hx, hy]
    · rw [bankOp_and _ _ _ hn8, hx, hy]
    · rw [bankOp_or _ _ _ hn8, hx, hy]
    · rw [bankOp_xor _ _ _ hn8, hx, hy]
    · rw [bankOp_min _ _ _ hwide, hx, hy]; rfl
    · rw [bankOp_max _ _ _ hwide, hx, hy]; rfl
    · rw [bankOp_minu _ _ _ hn8, hx, hy]
    · rw [bankOp_maxu _ _ _ hn8, hx, hy]
    · rw [bankOp_swap _ _ _ hn8, hy]
    · rw [bankOp_cas _ _ _ hn8, hx, hy]
    · rw [h4, bankOp_fadd, hxw (by omega), hyw (by omega)]
    · rw [h4, bankOp_fmin, hxw (by omega), hyw (by omega)]
    · rw [h4, bankOp_fmax, hxw (by omega), hyw (by omega)]

/-! ### Data that returns (R135, R261) -/

theorem State.peerElems_single {s : State} {n : Nat} {ws : List W64} {e : Elem} (hl : isPeerLoc e.loc = false) :
    s.peerElems n ws [e] = ([e], s) := by simp [State.peerElems, hl]

theorem exec_loadDataReturn {t i : Nat} {a : Access} {e : Elem} {s : State} (hi : (s.slot t (s.run t)).accs[i]? = some a)
    (he : a.elems = [e]) (hr : a.op.returns = true) (ha : a.accepted = true) (hd : e.done = true) (hl : isPeerLoc e.loc = false) :
    exec (.loadDataReturn t i []) s = .next (s.modSlot t (s.run t) fun x => x.completeAccess i) := by
  show execLoadDataReturn t i [] s = _
  have hsame : { a with elems := [e], accepted := true } = a := by rw [← he, ← ha]
  have hset : (s.slot t (s.run t)).accs.set i a = (s.slot t (s.run t)).accs := by
    obtain ⟨hlt, hget⟩ := List.getElem?_eq_some_iff.mp hi
    rw [← hget, List.set_getElem_self]
  simp only [execLoadDataReturn, hi, he, hr, ha, hd, List.all_cons, List.all_nil, Bool.true_or, Bool.and_self, if_true,
    State.peerElems_single hl, hsame]
  exact congrArg _ (s.modSlot_congr t (s.run t) (by rw [hset]))

/-- Settles O13: the element performed where it lies, then the end of the access, with its data or with their poison. -/
theorem accessesArePerformed : Obligations.AccessesArePerformed := by
  intro t i k a e s b accs hi he hs
  refine ⟨fun hl hm hop hpois => ?store, fun hl hm ⟨sgn, sd, hop⟩ => ?load, fun sgn sd hop ha hd hpois hpeer => ?returned,
    fun sgn sd hop ha hd hpois hpeer hst => ?poisoned⟩
  case store =>
    have hact := exec_sharedMemoryAccess hi hm (by rw [hop]; rfl) he hl
    have helem := State.performElem_store (s := s) (n := a.size) hl
    rw [← hop] at helem
    rw [State.performAt_closed hi he helem (by rw [hop]; rfl) rfl hpois (by rw [hop]; exact fun _ => rfl) rfl] at hact
    refine ⟨_, hact, memRead_memWrite_same hs .., fun m hout => memGet_memWrite_out hs _ _ _ _ hout, ?_⟩
    rw [State.slot_modSlot_same]
    exact closeAccess_accs ..
  case load =>
    exact (exec_sharedMemoryAccess hi hm (by rw [hop]; rfl) he hl).trans
      (congrArg _ (State.performAt_kept hi he (hop ▸ State.performElem_load hl) (by rw [hop]; rfl)))
  case returned =>
    refine (exec_loadDataReturn hi he (by rw [hop]; rfl) ha hd hpeer).trans (congrArg _ (s.modSlot_congr t b ?_))
    rw [completeAccess_eq hi (by simp [he, hpois]), hop, he]
    rfl
  case poisoned =>
    refine (exec_loadDataReturn hi he (by rw [hop]; rfl) ha hd hpeer).trans (congrArg _ (s.modSlot_congr t b ?_))
    exact completeAccess_poison hi (by simp [he, hpois]) hst

/-! ### The reply of a home (R259, R261, R307) -/

section
variable {t : Nat} {a : Access} {e : Elem} {home off : Nat} {s u : State}

theorem exec_accessReply_shared (hh : (s.slot t (s.run t)).hold = .reply) (hg : (s.slot t (s.run t)).accs.getLast? = some a)
    (he : a.elems = [e]) (hv : spaceOf e.va = .shared home off) :
    exec (.accessReply t none) s = .next (acceptLast t (s.run t) a s) := by
  show execAccessReply t none s = _
  simp only [execAccessReply, hh, hg, he, hv]

variable {b : Nat} (he : a.elems = [e])
include he

theorem acceptLast_of_accepted {l : Loc} (ha : s.homeAccept t b (s.slot t b).part e.va a.size = (.ok l, u))
    (hp : u.readsPoison a.op a.size { e with loc := some l } = false) :
    acceptLast t b a s = u.modSlot t b fun x => x.replyAccepted [{ e with loc := some l }] := by
  simp [acceptLast, he, State.acceptElems, ha, hp]

theorem acceptLast_of_refused {f : FaultName} (ha : s.homeAccept t b (s.slot t b).part e.va a.size = (.fault f, u))
    (hs : a.op ≠ .vstore) (hv : ∀ ty vd r, a.op ≠ .vload ty vd r) :
    acceptLast t b a s = u.modSlot t b fun x => (dropLastAccess x).trap f e.va 0 := by
  cases hop : a.op <;> simp_all [acceptLast, State.acceptElems, State.refuseAccess]
end

/-- Settles O12: the home's check of the one element, and what acceptance or refusal makes of the newest access. -/
theorem repliesAcceptOrRefuse : Obligations.RepliesAcceptOrRefuse := by
  intro t a e home off s b x hh hg he hv
  refine ⟨fun l u ha hp => ?accepted, fun f u hs hvl ha => ?refused⟩
  case accepted =>
    rw [exec_accessReply_shared hh hg he hv, acceptLast_of_accepted he ha hp]
    have hlast : (u.slot t b).accs.getLast? = some a := by rw [(homeAccept_reads ha).slot]; exact hg
    refine congrArg _ (u.modSlot_congr t b ?_)
    simp only [Slot.replyAccepted, hlast]
  case refused =>
    rw [exec_accessReply_shared hh hg he hv, acceptLast_of_refused he ha hs hvl]
    rfl

end Sys2Proof.Machine
end

section
/-! SUPPORT. Instructions of unit 13 at issue: fences, phases, waits for the queues, breaks, the fault queue, answers to its records and
locked translations (R249, R267–R270, R358–R361, R368). -/

namespace Sys2Proof.Machine

/-! ### Fences, phases, breaks (R249, R267, R360, R361, R368) -/

section
variable {i : Instr} {s u : State} {k : State → Res} (he : exec i s = issue i s k) (hi : Issues i s)

theorem Same.of_tiles (ht : u.tiles = s.tiles) (hc : u.cur = s.cur) : Same s u := ⟨hc, by simp only [State.run, State.tile, ht]⟩

include he hi

/-- An effect that writes the core's slot, beside changes outside the tiles. -/
theorem completes_core_of_tiles {f : Slot → Slot} {n : Nat} (hk : k s = .done (u.modCore f) n) (ht : u.tiles = s.tiles)
    (hc : u.cur = s.cur) (hh : ∀ x, (f x).hold = x.hold) : Completes i s (u.modCore f) n := by
  have hsame := Same.of_tiles ht hc
  refine completes_of he hi hk (hsame.modCore f) ((hsame.modCore f).inert hi ?_)
  rw [hsame.slot_modCore, hh, hsame.core, slot_of_tiles ht]
  rfl

/-- A wait at issue: the group is tried again. -/
theorem waits_again (hk : k s = .hold s) : Waits i s s := waits_of he hi rfl hk .refl (Same.refl.inert hi rfl)

/-- The core is held, by something that no cell of its tile ends. -/
theorem waits_held {f : Slot → Slot} (hk : k s = .hold (s.modCore f)) (hh : (f s.core).hold.inert = true) :
    Waits i s (s.modCore f) := waits_core he hi hk .refl hh
end

section
variable (s : State) (sc : Scope) (m c : Bool) (code : BitVec 24) (sd sa : SReg)

theorem execNop_eq : exec .nop s = issue .nop s fun s => .done s 0 := rfl

theorem execFence_eq : exec (.fence sc) s = issue (.fence sc) s fun s =>
    if s.core.accs.any fun a => a.elems.any fun e => !e.done && inScope s.cur sc e.va then .hold s else .done s 0 := rfl

theorem execPhase_eq : exec .phase s = issue .phase s fun s => .hold (s.modCore fun x => { x with hold := .phase }) := rfl

theorem execQwait_eq : exec (.qwait m c) s = issue (.qwait m c) s fun s =>
    if !m && !c then .trap .progIllegal 0 0 else .hold (s.modCore fun x => { x with hold := .qwait m c }) := rfl

theorem execBrk_eq : exec (.brk code) s = issue (.brk code) s fun s =>
    .hold (s.modCore fun x => x.advance.takeFault (x.coreFault .progBreak 0 (code.setWidth 64))) := rfl

theorem execFqpop_eq : exec (.fqpop sd) s = issue (.fqpop sd) s fun s =>
    .done ((s.popFault s.core.part).2.modCore fun x => x.setS sd (s.popFault s.core.part).1) 0 := rfl

theorem execFresume_eq : exec (.fresume sa) s = issue (.fresume sa) s (answerRecord .resume sa) := rfl
theorem execFabort_eq : exec (.fabort sa) s = issue (.fabort sa) s (answerRecord .abort sa) := rfl
theorem execFrestart_eq : exec (.frestart sa) s = issue (.frestart sa) s (answerRecord .restart sa) := rfl
end

section
variable {s : State} {sc : Scope} {m c : Bool}

theorem completes_fence (h : ∀ b ∈ s.core.accs, ∀ e ∈ b.elems, (!e.done && inScope s.cur sc e.va) = false)
    (hi : Issues (.fence sc) s) : Completes (.fence sc) s s 0 := by
  have hnone : (s.core.accs.any fun a => a.elems.any fun e => !e.done && inScope s.cur sc e.va) = false :=
    List.any_eq_false.mpr fun b hb => Bool.eq_false_iff.mp (List.any_eq_false.mpr fun e he => Bool.eq_false_iff.mp (h b hb e he))
  exact completes_tiles (execFence_eq s sc) hi (if_neg (Bool.eq_false_iff.mp hnone)) rfl rfl

theorem waits_fence (h : ∃ b ∈ s.core.accs, ∃ e ∈ b.elems, (!e.done && inScope s.cur sc e.va) = true) (hi : Issues (.fence sc) s) :
    Waits (.fence sc) s s :=
  waits_again (execFence_eq s sc) hi (if_pos (by simpa only [List.any_eq_true] using h))

theorem waits_qwait (h : (m || c) = true) (hi : Issues (.qwait m c) s) :
    Waits (.qwait m c) s (s.modCore fun x => { x with hold := .qwait m c }) :=
  waits_held (execQwait_eq s m c) hi (if_neg (by cases m <;> cases c <;> simp_all)) rfl
end

/-! ### The fault queue and its answers (R358, R359) -/

section
variable {s : State} {sd : SReg}

theorem popFault_of_all_popped {p : PartNo} (h : (s.part p).fq.all FEntry.popped = true) :
    s.popFault p = (BitVec.allOnes 64, s) := by simp only [State.popFault, popEntry_of_all_popped h]

theorem popFault_append {p : PartNo} {l r : List FEntry} {e : FEntry} (h : (s.part p).fq = l ++ e :: r)
    (hl : l.all FEntry.popped = true) (he : e.popped = false) :
    s.popFault p = (e.addr, s.modPart p fun y => { y with fq := l ++ { e with popped := true } :: r }) := by
  simp only [State.popFault, h, popEntry_append hl he]

theorem completes_fqpop {a : W64} {u : State} (hp : s.popFault s.core.part = (a, u)) (ht : u.tiles = s.tiles) (hc : u.cur = s.cur)
    (hi : Issues (.fqpop sd) s) : Completes (.fqpop sd) s (u.modCore fun x => x.setS sd a) 0 :=
  completes_core_of_tiles (execFqpop_eq s sd) hi (by rw [hp]) ht hc fun _ => Slot.setS_hold ..
end

/-- The instruction of an answer. -/
def Answer.instr (sa : SReg) : Answer → Instr
  | .resume => .fresume sa
  | .abort => .fabort sa
  | .restart => .frestart sa

theorem exec_answer (k : Answer) (sa : SReg) (s : State) : exec (k.instr sa) s = issue (k.instr sa) s (answerRecord k sa) := by
  cases k
  · exact execFresume_eq s sa
  · exact execFabort_eq s sa
  · exact execFrestart_eq s sa

theorem Aside.freeEntry {t b : Nat} (s : State) (p : PartNo) (a : W64) : Aside t b s (s.freeEntry p a) := .of_tiles rfl rfl

theorem Aside.restartTask {t b : Nat} (s : State) (p : PartNo) (d : Nat) (r : W512) (a : W64) :
    Aside t b s (s.restartTask p d r a) := .of_tiles rfl rfl

section
variable {s : State} {sa : SReg} {e : FEntry} {k : Answer}

theorem answerRecord_of_none (h : s.answerable s.core.part (s.core.getS sa) = none) :
    answerRecord k sa s = .trap .progFans (s.core.getS sa) 0 := by
  simp only [answerRecord, State.answer, h, Option.map_none]

theorem answerRecord_of_some (h : s.answerable s.core.part (s.core.getS sa) = some e) :
    answerRecord k sa s = .done ((s.freeEntry s.core.part (s.core.getS sa)).answerContext k e.frec) 0 := by
  simp only [answerRecord, State.answer, h, Option.map_some]

theorem answerContext_none {f : FRec} (h : f.ctx = .none) : s.answerContext k f = s := by
  simp only [State.answerContext, h]

theorem answerContext_slot {f : FRec} {t b : Nat} (h : f.ctx = .slot t b) (hf : (s.slot t b).st = .faulted) :
    s.answerContext k f = match k with
      | .resume => s.resumeHeld t b
      | .abort => s.retire t b
      | .restart => (s.restartTask f.part f.die (s.slot t b).taskRecord 0).retire t b := by
  cases k <;> simp [State.answerContext, h, hf]

theorem answerContext_saved {f : FRec} {a : W64} {c : Saved} (h : f.ctx = .saved a)
    (hf : s.saved.find? (fun k => k.addr == a && k.part == f.part && k.die == f.die) = some c) :
    s.answerContext k f = match k with
      | .resume => s.resumeSaved f.tile c
      | .abort => s.dropSaved a
      | .restart => (s.restartTask f.part f.die c.slot.taskRecord a).dropSaved a := by
  cases k <;> simp [State.answerContext, h, hf]

/-- An answer to a record that a context held in another slot waits on. -/
theorem completes_answer_slot {t b : Nat} {u : State} (ha : s.answerable s.core.part (s.core.getS sa) = some e)
    (hu : (s.freeEntry s.core.part (s.core.getS sa)).answerContext k e.frec = u)
    (hs : Aside t b (s.freeEntry s.core.part (s.core.getS sa)) u) (hn : ¬(t = s.cur ∧ (b = 0 ↔ s.run s.cur = 0)))
    (hi : Issues (k.instr sa) s) : Completes (k.instr sa) s u 0 :=
  completes_aside (exec_answer k sa s) hi ((answerRecord_of_some ha).trans (congrArg (Res.done · 0) hu))
    ((Aside.freeEntry ..).trans hs) hn

/-- An answer that changes no tile. -/
theorem completes_answer_tiles {u : State} (ha : s.answerable s.core.part (s.core.getS sa) = some e)
    (hu : (s.freeEntry s.core.part (s.core.getS sa)).answerContext k e.frec = u) (ht : u.tiles = s.tiles) (hc : u.cur = s.cur)
    (hi : Issues (k.instr sa) s) : Completes (k.instr sa) s u 0 :=
  completes_tiles (exec_answer k sa s) hi ((answerRecord_of_some ha).trans (congrArg (Res.done · 0) hu)) ht hc

theorem exists_answer_of_mem {i : Instr} (h : i ∈ [Instr.fresume sa, .fabort sa, .frestart sa]) : ∃ k : Answer, i = k.instr sa := by
  simp only [List.mem_cons, List.not_mem_nil, or_false] at h
  rcases h with rfl | rfl | rfl
  · exact ⟨.resume, rfl⟩
  · exact ⟨.abort, rfl⟩
  · exact ⟨.restart, rfl⟩
end

/-- Settles O23: each instruction by the answer of its meaning; an answer to a record by the context that waits on it. -/
theorem systemInstructions : Obligations.SystemInstructions := by
  intro sc m c code sd sa s x p a far
  refine ⟨fun hi => completes_tiles (execNop_eq s) hi rfl rfl rfl, completes_fence, waits_fence,
    fun hi => waits_held (execPhase_eq s) hi rfl rfl, waits_qwait, fun hi => traps_issue (execQwait_eq s false false) hi rfl,
    fun hi => ?brk, fun hi => ⟨fun hall => ?allPopped, fun l e r hfq hl hep => ?pops⟩, fun e ha hctx i hmem hi => ?noContext,
    fun e t b ha hctx hn hf => ?slot, fun e at' k ha hctx hfind => ?saved, fun ha i hmem hi => ?unanswerable⟩
  case brk =>
    refine waits_held (execBrk_eq s code) hi (congrArg Res.hold (s.modCore_congr rfl)) ?_
    rw [Slot.takeFault, Slot.faults_hold]
    rfl
  case allPopped => exact completes_fqpop (popFault_of_all_popped hall) rfl rfl hi
  case pops => exact completes_fqpop (popFault_append hfq hl hep) rfl rfl hi
  case noContext =>
    obtain ⟨k, rfl⟩ := exists_answer_of_mem hmem
    exact completes_answer_tiles ha (answerContext_none hctx) rfl rfl hi
  case slot =>
    have hu (k) := answerContext_slot (k := k) (s := s.freeEntry p a) hctx hf
    exact ⟨completes_answer_slot (k := .resume) ha (hu _) .resumeHeld hn, completes_answer_slot (k := .abort) ha (hu _) .retire hn,
      completes_answer_slot (k := .restart) ha (hu _) ((Aside.restartTask ..).trans .retire) hn⟩
  case saved =>
    have hu (k) := answerContext_saved (k := k) (s := s.freeEntry p a) hctx hfind
    exact ⟨completes_answer_tiles (k := .resume) ha (hu _) rfl rfl, completes_answer_tiles (k := .abort) ha (hu _) rfl rfl,
      completes_answer_tiles (k := .restart) ha (hu _) rfl rfl⟩
  case unanswerable =>
    obtain ⟨k, rfl⟩ := exists_answer_of_mem hmem
    exact traps_issue (exec_answer k sa s) hi (answerRecord_of_none ha)

/-! ### Locked translations (R268–R270) -/

theorem State.lockAt_of_bad {s : State} {p : PartNo} {va len : W64} (h : len = 0 ∨ 2 ^ 57 < offBits va + len.toNat) :
    s.lockAt p va len = .bad .progAddr := if_pos h

theorem modUnits_tiles (f : XUnit → XUnit) (l : List Nat) (s : State) :
    (l.foldl (fun s n => s.modUnit n f) s).tiles = s.tiles :=
  State.foldl_keeps State.tiles (f := fun s n => s.modUnit n f) (fun _ _ => rfl) l s

theorem modUnits_cur (f : XUnit → XUnit) (l : List Nat) (s : State) :
    (l.foldl (fun s n => s.modUnit n f) s).cur = s.cur := State.foldl_keeps State.cur (f := fun s n => s.modUnit n f) (fun _ _ => rfl) l s

theorem modUnits_locks (f : XUnit → XUnit) (l : List Nat) (s : State) :
    (l.foldl (fun s n => s.modUnit n f) s).locks = s.locks :=
  State.foldl_keeps State.locks (f := fun s n => s.modUnit n f) (fun _ _ => rfl) l s

section
variable {s : State} {home : Nat} {p : PartNo} {off len : Nat} {ws : List Walk}

theorem State.lockRange_of_unmapped (h : (lockedEntries p ws).length ≠ ws.length) : s.lockRange home p off len ws = (2, s) := if_pos h

variable (h : (lockedEntries p ws).length = ws.length)
include h

theorem State.lockRange_of_touching (ht : s.locks.any (fun r => r.touches home p off len) = true) :
    s.lockRange home p off len ws = (3, s) := (if_neg (not_not.mpr h)).trans (if_pos ht)

variable (ht : s.locks.any (fun r => r.touches home p off len) = false)
include ht

/-- The translations that a lock of these pages adds leave no room (R270). -/
def State.lockFull (s : State) (home : Nat) (p : PartNo) (es : List Tlb) : Prop :=
  let held := (s.unit ((unitsOf home).headD 0)).tlb.filter Tlb.locked
  let new := es.filter fun e => !held.any fun x => x.part == p && x.base == e.base && x.size == e.size
  1024 < (held.filter fun x => x.part == p).length + new.length ∨ 4096 < held.length + new.length

theorem State.lockRange_of_full (hf : s.lockFull home p (lockedEntries p ws)) : s.lockRange home p off len ws = (1, s) :=
  (if_neg (not_not.mpr h)).trans ((if_neg (Bool.eq_false_iff.mp ht)).trans (if_pos hf))

theorem State.lockRange_of_room (hf : ¬ s.lockFull home p (lockedEntries p ws)) : s.lockRange home p off len ws =
    (0, { (unitsOf home).foldl (fun s n => s.modUnit n fun u => u.lock (lockedEntries p ws)) s with
      locks := s.locks ++ [⟨home, p, off, len⟩] }) := by
  rw [← modUnits_locks (fun u => u.lock (lockedEntries p ws)) (unitsOf home) s]
  exact (if_neg (not_not.mpr h)).trans ((if_neg (Bool.eq_false_iff.mp ht)).trans (if_neg hf))
end

section
variable (sd sa sl : SReg) (s : State)

theorem execTlock_eq : exec (.tlock sd sa sl) s = issue (.tlock sd sa sl) s fun s =>
    match s.lockAt s.core.part (s.core.getS sa) (s.core.getS sl) with
    | .bad f => .trap f (s.core.getS sa) 0
    | .peer => .done (s.peerWord.2.modCore fun x => x.setS sd (s.peerWord.1 % 4)) 0
    | .here home off =>
      let stop := off + (s.core.getS sl).toNat
      let ws := s.pagesOf home s.core.part stop ((s.core.getS sl).toNat / 0x10000 + 2) off
      if ws.contains .poison then .trap .hwPoison (s.core.getS sa) 0
      else if !ws.all (s.pageOwned home s.core.part off stop) then .trap .isoWindow (s.core.getS sa) 0
      else
        let r := s.lockRange home s.core.part off (s.core.getS sl).toNat ws
        .done (r.2.modCore fun x => x.setS sd (BitVec.ofNat 64 r.1)) 0 := rfl

theorem execTunlock_eq : exec (.tunlock sa sl) s = issue (.tunlock sa sl) s fun s =>
    match s.lockAt s.core.part (s.core.getS sa) (s.core.getS sl) with
    | .bad f => .trap f (s.core.getS sa) 0
    | .peer => .done s 0
    | .here home off =>
      let stop := off + (s.core.getS sl).toNat
      let ws := s.pagesOf home s.core.part stop ((s.core.getS sl).toNat / 0x10000 + 2) off
      if !ws.all (s.pageOwned home s.core.part off stop) then .trap .isoWindow (s.core.getS sa) 0
      else .done (s.unlockRange home s.core.part off (s.core.getS sl).toNat) 0 := rfl
end

/-- The walks of the pages of a range that TLOCK or TUNLOCK names. -/
def State.rangePages (s : State) (home off : Nat) (sl : SReg) : List Walk :=
  s.pagesOf home s.core.part (off + (s.core.getS sl).toNat) ((s.core.getS sl).toNat / 0x10000 + 2) off

section
variable {sd sa sl : SReg} {s : State} (h : s.core.getS sl = 0 ∨ 2 ^ 57 < offBits (s.core.getS sa) + (s.core.getS sl).toNat)
include h

theorem traps_tlock_of_bad (hi : Issues (.tlock sd sa sl) s) : Traps (.tlock sd sa sl) s .progAddr (s.core.getS sa) 0 :=
  traps_issue (execTlock_eq sd sa sl s) hi (by simp only [State.lockAt_of_bad h])

theorem traps_tunlock_of_bad (hi : Issues (.tunlock sa sl) s) : Traps (.tunlock sa sl) s .progAddr (s.core.getS sa) 0 :=
  traps_issue (execTunlock_eq sa sl s) hi (by simp only [State.lockAt_of_bad h])
end

section
variable {sd sa sl : SReg} {s : State} {home off : Nat} (hat : s.lockAt s.core.part (s.core.getS sa) (s.core.getS sl) = .here home off)
include hat

theorem traps_tlock_of_poison (hp : (s.rangePages home off sl).contains .poison = true)
    (hi : Issues (.tlock sd sa sl) s) : Traps (.tlock sd sa sl) s .hwPoison (s.core.getS sa) 0 :=
  traps_issue (execTlock_eq sd sa sl s) hi (by rw [State.rangePages] at hp; simp only [hat, hp, if_true])

section
variable (hw : (s.rangePages home off sl).all
  (s.pageOwned home s.core.part off (off + (s.core.getS sl).toNat)) = false)
include hw

theorem traps_tlock_of_foreign (hp : (s.rangePages home off sl).contains .poison = false)
    (hi : Issues (.tlock sd sa sl) s) : Traps (.tlock sd sa sl) s .isoWindow (s.core.getS sa) 0 :=
  traps_issue (execTlock_eq sd sa sl s) hi (by
    rw [State.rangePages] at hp hw
    simp only [hat, hp, hw, Bool.not_false, Bool.false_eq_true, if_true, if_false])

theorem traps_tunlock_of_foreign (hi : Issues (.tunlock sa sl) s) : Traps (.tunlock sa sl) s .isoWindow (s.core.getS sa) 0 :=
  traps_issue (execTunlock_eq sa sl s) hi (by
    rw [State.rangePages] at hw
    simp only [hat, hw, Bool.not_false, if_true])
end

variable (hw : (s.rangePages home off sl).all
  (s.pageOwned home s.core.part off (off + (s.core.getS sl).toNat)) = true)
include hw

theorem completes_tlock {v : Nat} {u : State} (hp : (s.rangePages home off sl).contains .poison = false)
    (hl : s.lockRange home s.core.part off (s.core.getS sl).toNat (s.rangePages home off sl) = (v, u))
    (ht : u.tiles = s.tiles) (hc : u.cur = s.cur)
    (hi : Issues (.tlock sd sa sl) s) : Completes (.tlock sd sa sl) s (u.modCore fun x => x.setS sd (BitVec.ofNat 64 v)) 0 :=
  completes_core_of_tiles (execTlock_eq sd sa sl s) hi
    (by
    rw [State.rangePages] at hp hw hl
    simp only [hat, hp, hw, hl, Bool.not_true, Bool.false_eq_true, if_false]) ht hc fun _ => Slot.setS_hold ..

theorem completes_tunlock (hi : Issues (.tunlock sa sl) s) :
    Completes (.tunlock sa sl) s (s.unlockRange home s.core.part off (s.core.getS sl).toNat) 0 :=
  completes_tiles (execTunlock_eq sa sl s) hi (by
    rw [State.rangePages] at hw
    simp only [hat, hw, Bool.not_true, Bool.false_eq_true, if_false])
    (modUnits_tiles _ _ _) (modUnits_cur _ _ _)
end

/-- Settles O24: TLOCK by the range's checks, then by what its lock answers; TUNLOCK by the range's owner. -/
theorem translationsLock : Obligations.TranslationsLock := by
  intro sd sa sl s p va len lock unlock answers
  refine ⟨fun hbad => ⟨traps_tlock_of_bad hbad, traps_tunlock_of_bad hbad⟩, fun home off hat => ?here⟩
  case here =>
    intro stop ws es u held new full
    refine ⟨traps_tlock_of_poison hat, traps_tlock_of_foreign hat, fun hw hp => ⟨fun hes hi => ?unmapped, fun hes =>
      ⟨fun ht hi => ?touching, fun ht => ⟨fun hf hi => ?full, fun hf hi => ?room⟩⟩⟩, traps_tunlock_of_foreign hat,
      completes_tunlock hat⟩
    case unmapped => exact completes_tlock hat hw hp (State.lockRange_of_unmapped hes) rfl rfl hi
    case touching => exact completes_tlock hat hw hp (State.lockRange_of_touching hes ht) rfl rfl hi
    case full => exact completes_tlock hat hw hp (State.lockRange_of_full hes ht hf) rfl rfl hi
    case room =>
      exact completes_tlock hat hw hp (State.lockRange_of_room hes ht hf) (modUnits_tiles _ _ _) (modUnits_cur _ _ _) hi

end Sys2Proof.Machine
end

section
/-! SUPPORT. Faults that a running core takes, phases that commit or cancel, the switch between slots and the end of stalls, and the
records of faults (R114, R302, R351, R354–R356, R360, R368–R373). -/

namespace Sys2Proof.Machine

/-! ### Taking a fault (R351, R356, R370) -/

/-- A running core that has taken a fault: its hold, its FINFO words and its stop changed, and nothing else. -/
def Slot.stoppedFor (x : Slot) (f : FaultInfo) : Slot :=
  { x with hold := .none, finfo := [(0, f.word0), (1, f.addr), (2, f.detail), (3, f.prog)], st := .stopping (x.stopFor f) }

theorem Slot.takeFault_busy {x : Slot} (hb : x.st = .busy) (f : FaultInfo) : x.takeFault f = x.stoppedFor f := by
  have hgood : ({ x with hold := .none } : Slot).stopsForGood = false := by simp only [Slot.stopsForGood, hb]
  simp only [Slot.takeFault, Slot.faults, hgood, Bool.false_eq_true, if_false]
  exact Slot.beginStop_busy (x := ({ x with hold := .none } : Slot).setFinfo f) hb _

theorem FaultInfo.word0_of_source0 {f : FaultInfo} (h : f.src = 0) : f.word0 = (faultCode f.name).setWidth 64 <<< 52 := by
  simp [FaultInfo.word0, h]

theorem cancelsPhase_iff (f : FaultName) : cancelsPhase f = true ↔ f = .hwPoison ∨ f = .hwAbft := by
  cases f <;> simp [cancelsPhase]

theorem Slot.stopFor_cancel {x : Slot} {f : FaultInfo} (hn : f.name = .hwPoison ∨ f.name = .hwAbft) (hs : f.src < 3)
    (hp : x.phase.isSome = true) (hc : x.canc < 3) : x.stopFor f = .cancel f := by
  simp [Slot.stopFor, (cancelsPhase_iff _).mpr hn, hs, hp, hc]

theorem Slot.stopFor_fault {x : Slot} {f : FaultInfo}
    (h : (f.name ≠ .hwPoison ∧ f.name ≠ .hwAbft) ∨ x.phase = none ∨ 3 ≤ x.canc) : x.stopFor f = .fault f := by
  rw [Slot.stopFor, if_neg]
  rcases h with h | h | h
  · simp [Bool.eq_false_iff.mpr (mt (cancelsPhase_iff f.name).mp (not_or.mpr h))]
  · simp [h]
  · simp [Nat.not_lt.mpr h]

/-- Settles O25: the trap changes the hold, FINFO0–FINFO3 and the stop of its core, and nothing else. -/
theorem takingAFault : Obligations.TakingAFault := by
  intro f addr detail s hb x y info
  have hy : y = x.stoppedFor info := (State.core_modCore ..).trans (Slot.takeFault_busy hb _)
  rw [hy]
  refine ⟨fun _ => rfl, fun _ => rfl, fun _ => rfl, fun _ => rfl, fun _ => rfl, fun _ => rfl, fun _ => rfl, rfl, rfl, rfl, rfl, rfl,
    rfl, rfl, rfl, rfl, ?finfo0, rfl, rfl, rfl, fun hn hp hc => ?cancel, fun h => ?fault, rfl⟩
  case finfo0 => exact FaultInfo.word0_of_source0 (f := info) rfl
  case cancel => exact congrArg SlotSt.stopping (Slot.stopFor_cancel (f := info) hn (Nat.succ_pos 2) hp hc)
  case fault => exact congrArg SlotSt.stopping (Slot.stopFor_fault (f := info) h)

/-! ### Phases that commit (R360, R368) -/

section
variable {s : State} {t : Nat} (hb : (s.slot t (s.run t)).st = .busy)
include hb

section
variable (hd : (s.slot t (s.run t)).phaseDone = true)
include hd

theorem exec_phaseCommit_of_phase (hh : (s.slot t (s.run t)).hold = .phase) :
    let done := (s.modSlot t (s.run t) Slot.commit).arm t (s.run t) false
    exec (.phaseCommit t) s = .next (done.modSlot t (s.run t) fun x =>
      { x with phase := some (x.pc, x.snapshot (done.cellsBelow t (s.slot t (s.run t)).header)) }.release) := by
  show execPhaseCommit t s = _
  simp [execPhaseCommit, hb, hd, hh]

theorem exec_phaseCommit_of_end {sd : SReg} {a : W64} {k : Bool}
    (hh : (s.slot t (s.run t)).hold = .park sd a k ∨ (s.slot t (s.run t)).hold = .done sd a k)
    (hp : (s.slot t (s.run t)).phase.isSome = true) :
    exec (.phaseCommit t) s = .next ((s.modSlot t (s.run t) Slot.commit).arm t (s.run t) false) := by
  show execPhaseCommit t s = _
  rcases hh with hh | hh <;> simp [execPhaseCommit, hb, hd, hh, hp]
end

theorem exec_qwaitComplete {m q : Bool} (hh : (s.slot t (s.run t)).hold = .qwait m q)
    (hm : m = true → (s.slot t (s.run t)).mq = []) (hq : q = true → (s.slot t (s.run t)).cq = []) :
    exec (.qwaitComplete t) s = .next (s.modSlot t (s.run t) Slot.release) := by
  show execQwaitComplete t s = _
  cases m <;> cases q <;> simp_all [execQwaitComplete]
end

/-! ### A phase that is cancelled (R370, R371) -/

theorem State.resumeEngines_of_empty {s : State} {t b : Nat} (hm : (s.slot t b).mq = []) (hc : (s.slot t b).cq = []) :
    s.resumeEngines t b = s := by
  simp [State.resumeEngines, State.arm, Slot.queue, hm, hc]

theorem State.slot_dropWaiters (s : State) (t c u b : Nat) : (s.dropWaiters t c).slot u b = s.slot u b := by
  simp only [State.dropWaiters, State.slot_dropWaiter]

theorem State.cell_modTile_of_cells (s : State) (t : Nat) {f : Tile → Tile} (hc : ∀ x, (f x).cells = x.cells) (u c : Nat) :
    (s.modTile t f).cell u c = s.cell u c := by
  simp only [State.cell, State.tile_modTile]
  split
  · next h => subst h; rw [hc]
  · rfl

theorem State.cell_dropWaiter (s : State) (t : Nat) (w : Who) (u c : Nat) : (s.dropWaiter t w).cell u c = s.cell u c := by
  refine State.cell_modTile_of_cells s t (fun x => ?_) u c
  rfl

theorem State.cell_dropWaiters (s : State) (t b u c : Nat) : (s.dropWaiters t b).cell u c = s.cell u c := by
  simp only [State.dropWaiters, State.cell_dropWaiter]

theorem State.cell_modSlot (s : State) (t b u c : Nat) (f : Slot → Slot) : (s.modSlot t b f).cell u c = s.cell u c := by
  rw [State.modSlot, State.cell_modTile_of_cells _ _ fun _ => Tile.putSlot_cells ..]

theorem State.cell_putCell (s : State) (t c n : Nat) (y : Cell) : (s.putCell t c y).cell t n = if n = c then y else s.cell t n := by
  simp only [State.cell, State.putCell, State.tile_modTile_same, tget_tput]

/-- A cell that takes its saved contents keeps its owner. -/
theorem State.cell_putCells_range {t : Nat} {p : PartNo} {cs : List Cell} (l : List Nat) (i : Nat) (s : State) :
    (l.foldl (fun s i => let y := s.cell t i
      if y.ownedBy p then s.putCell t i { cs.getD i {} with v := y.v, part := y.part } else s) s).cell t i =
    if i ∈ l ∧ (s.cell t i).ownedBy p = true then { cs.getD i {} with v := (s.cell t i).v, part := (s.cell t i).part }
    else s.cell t i := by
  induction l generalizing s with
  | nil => simp
  | cons j l ih =>
    rw [List.foldl_cons, ih]
    by_cases hij : i = j
    · subst hij
      by_cases ho : (s.cell t i).ownedBy p = true
      · simp only [ho, if_true, State.cell_putCell]
        simp [Cell.ownedBy] at ho ⊢
      · simp [ho]
    · have hkeep : (if (s.cell t j).ownedBy p = true then s.putCell t j { cs.getD j {} with v := (s.cell t j).v, part := (s.cell t j).part }
          else s).cell t i = s.cell t i := by
        split
        · rw [State.cell_putCell, if_neg hij]
        · rfl
      simp only [hkeep, List.mem_cons, hij, false_or]

theorem State.cell_putCells {s : State} {t i : Nat} {p : PartNo} {cs : List Cell} {k : Cell} (hi : cs[i]? = some k)
    (ho : (s.cell t i).ownedBy p = true) :
    (s.putCells t p cs).cell t i = { k with v := (s.cell t i).v, part := (s.cell t i).part } := by
  obtain ⟨hlt, hget⟩ := List.getElem?_eq_some_iff.mp hi
  rw [State.putCells, State.cell_putCells_range, if_pos ⟨List.mem_range.mpr hlt, ho⟩, List.getD_eq_getElem?_getD, hi,
    Option.getD_some]

theorem State.parts_putCells (s : State) (t : Nat) (p : PartNo) (cs : List Cell) : (s.putCells t p cs).parts = s.parts := by
  refine State.foldl_keeps State.parts (fun s i => ?_) _ _
  dsimp only
  split <;> rfl

/-- A slot that has gone back to its PHASE, all of whose commands were of the phase. -/
def Slot.rolledBack (x : Slot) (pc : W64) (y : Snapshot) : Slot := { x.rollback pc y with mq := [], cq := [] }

/-- Its commands are all of its open phase, and no PREQ waits for it: what a cancellation then makes of it. -/
theorem Slot.takePending_rollback {x : Slot} (hm : x.mq.all (fun q => q.phased) = true) (hc : x.cq.all (fun q => q.phased) = true)
    (hp : x.pendPreempt = false) (pc : W64) (y : Snapshot) : (x.rollback pc y).takePending = x.rolledBack pc y := by
  have hnone : ∀ {q : List Cmd}, q.all (fun q => q.phased) = true → q.filter (fun c => !c.phased) = [] := fun hq =>
    List.filter_eq_nil_iff.mpr fun c hc => by simpa using List.all_eq_true.mp hq c hc
  have hp' : (x.rollback pc y).pendPreempt = false := hp
  have hkeep : (x.rollback pc y).takePending = x.rollback pc y := if_neg (by simp [hp'])
  rw [hkeep]
  simp only [Slot.rolledBack, Slot.rollback, hnone hm, hnone hc]

/-- What a cancellation does beside the slot's own state. -/
def State.cancelled (s : State) (t c : Nat) (f : FaultInfo) (y : Snapshot) : State :=
  ((s.pushRecord (cancelRecord t c (s.slot t c) f)).dropWaiters t c).putCells t (s.slot t c).part y.cells

theorem State.slot_cancelled (s : State) (t c : Nat) (f : FaultInfo) (y : Snapshot) (u b : Nat) :
    (s.cancelled t c f y).slot u b = s.slot u b := by
  rw [State.cancelled, State.slot_putCells, State.slot_dropWaiters]
  rfl

theorem State.cell_cancelled {s : State} {t c i : Nat} {y : Snapshot} {k : Cell} (hi : y.cells[i]? = some k)
    (ho : (s.cell t i).ownedBy (s.slot t c).part = true) (f : FaultInfo) :
    (s.cancelled t c f y).cell t i = { k with v := (s.cell t i).v, part := (s.cell t i).part } := by
  have hcell : ((s.pushRecord (cancelRecord t c (s.slot t c) f)).dropWaiters t c).cell t i = s.cell t i := State.cell_dropWaiters ..
  rw [State.cancelled, State.cell_putCells hi (hcell ▸ ho), hcell]

theorem State.part_cancelled (s : State) (t c : Nat) (f : FaultInfo) (y : Snapshot) :
    ((s.cancelled t c f y).part (s.slot t c).part).recs =
      (s.part (s.slot t c).part).recs ++ [cancelRecord t c (s.slot t c) f] := by
  have hparts : (s.cancelled t c f y).parts = (s.pushRecord (cancelRecord t c (s.slot t c) f)).parts := State.parts_putCells ..
  rw [State.part, hparts]
  exact congrArg Part.recs (State.part_modPart_same ..)

section
variable {s : State} {t c : Nat} (hm : (s.slot t c).mq.all (fun q => q.phased) = true)
  (hc : (s.slot t c).cq.all (fun q => q.phased) = true) (hp : (s.slot t c).pendPreempt = false)
include hm hc hp

/-- No engine goes on: the queues are empty. -/
theorem State.cancelPhase_of_phased (f : FaultInfo) (pc : W64) (y : Snapshot) :
    s.cancelPhase t c f pc y = (s.cancelled t c f y).modSlot t c fun x => x.rolledBack pc y := by
  have hz := Slot.takePending_rollback hm hc hp pc y
  have hmod : ((s.cancelled t c f y).modSlot t c fun x => (x.rollback pc y).takePending) =
      (s.cancelled t c f y).modSlot t c fun x => x.rolledBack pc y :=
    State.modSlot_congr _ t c (by rw [State.slot_cancelled, hz])
  show State.resumeEngines ((s.cancelled t c f y).modSlot t c fun x => (x.rollback pc y).takePending) t c = _
  rw [hmod, State.resumeEngines_of_empty (by rw [State.slot_modSlot_same]; rfl) (by rw [State.slot_modSlot_same]; rfl)]
end

theorem exec_phaseCancellation {s : State} {t : Nat} {b : Bool} {f : FaultInfo} {pc : W64} {y : Snapshot}
    (hs : (s.slot t (if b then 1 else 0)).st = .stopping (.cancel f)) (hp : (s.slot t (if b then 1 else 0)).phase = some (pc, y))
    (hq : (s.slot t (if b then 1 else 0)).quiet) (hh : (s.slot t (if b then 1 else 0)).hold = .none) :
    exec (.phaseCancellation t b) s = .next (s.cancelPhase t (if b then 1 else 0) f pc y) := by
  show execPhaseCancellation t b s = _
  simp only [execPhaseCancellation, hs, hp, Slot.mayStop, hh, State.drainContext_of_quiet hq, Bool.not_true, Bool.false_eq_true,
    if_false]

/-- Settles O28: PHASE, DONE and PARK commit; a cancellation rolls its slot back, and writes its cells and its record beside it. -/
theorem phasesCommitOrCancel : Obligations.PhasesCommitOrCancel := by
  intro t b s r x done c z
  refine ⟨fun hb hd => ⟨exec_phaseCommit_of_phase hb hd, fun sd a k hh hp => exec_phaseCommit_of_end hb hd hh hp⟩,
    fun m q hb hh hm hq => exec_qwaitComplete hb hh hm hq, ?cancel⟩
  case cancel =>
    intro f pc y hs hp ha hq hh hpp hm hcq
    refine ⟨_, exec_phaseCancellation hs hp ⟨ha, hq⟩ hh, ?_, fun i k hi ho => ?_, ?_, State.cancelPhase_mem ..⟩
    all_goals rw [State.cancelPhase_of_phased hm hcq hpp]
    · rw [State.slot_modSlot_same, State.slot_cancelled]
      exact ⟨rfl, rfl, rfl, rfl, rfl, rfl, rfl, rfl, rfl, rfl, rfl, rfl, rfl, rfl, rfl, rfl, rfl, rfl⟩
    · rw [State.cell_modSlot]
      exact State.cell_cancelled hi ho f
    · refine (State.part_cancelled s t c f y).trans ?_
      cases b <;> rfl

/-! ### The switch between slots (R302) -/

section
variable {s : State} {t : Nat}

theorem exec_slotSwitch_of_idle (hi : (s.tile t).idle = true) (he : s.eligible t (s.run t) = true) :
    exec (.slotSwitch t) s = .next (s.switchTo t (s.run t)) := by
  show execSlotSwitch t s = _
  simp [execSlotSwitch, hi, he]

theorem exec_slotSwitch_of_idle_other (hi : (s.tile t).idle = true) (he : s.eligible t (s.run t) = false)
    (ho : s.eligible t (1 - s.run t) = true) : exec (.slotSwitch t) s = .next (s.switchTo t (1 - s.run t)) := by
  show execSlotSwitch t s = _
  simp [execSlotSwitch, hi, he, ho]

/-- A running slot that is not on its way to a stop, and not eligible, yields. -/
theorem exec_slotSwitch_yields (hi : (s.tile t).idle = false) (hs : ∀ w, (s.slot t (s.run t)).st ≠ .stopping w)
    (he : s.eligible t (s.run t) = false) : exec (.slotSwitch t) s = .next (s.yieldTile t) := by
  show execSlotSwitch t s = _
  cases hst : (s.slot t (s.run t)).st <;> simp_all [execSlotSwitch]

theorem State.yieldTile_other (ho : s.eligible t (1 - s.run t) = true) : s.yieldTile t = s.switchTo t (1 - s.run t) := if_pos ho

theorem State.yieldTile_idle (ho : s.eligible t (1 - s.run t) = false) :
    s.yieldTile t = s.modTile t fun x => { x with idle := true } := if_neg (by simp [ho])

theorem exec_slotSwitch_of_nothing (hi : (s.tile t).idle = false) (he : s.eligible t (s.run t) = true)
    (hs : (s.slot t (s.run t)).st = .free) (ht : (s.slot t (s.run t)).task = none) (hr : s.slotHasRecord t (s.run t) = false)
    (ho : s.eligible t (1 - s.run t) = true)
    (hw : (s.slot t (1 - s.run t)).task.isSome = true ∨ s.slotHasRecord t (1 - s.run t) = true) :
    exec (.slotSwitch t) s = .next (s.switchTo t (1 - s.run t)) := by
  show execSlotSwitch t s = _
  rcases hw with hw | hw <;> simp [execSlotSwitch, hi, he, hs, ht, hr, ho, hw]
end

/-! ### Stalls that end (R114, R373, R394) -/

/-- An element of a peer, or of a link that is not UP, waits until it is done (R114, R394). -/
theorem State.elemWaits_of {s : State} {p : PartNo} {a : Access} {e : Elem} (hd : e.done = false)
    (h : homeBits e.va = 0x10 ∧ (s.link (linkOf (offBits e.va))).st ≠ 0 ∨ 0x40 ≤ homeBits e.va) : s.elemWaits p a e = true := by
  rcases h with ⟨hh, hl⟩ | hh
  · have hl' : ∀ w, s.linkWaits p e.va w = true := fun w => by
      simp only [State.linkWaits, hh, bne_iff_ne.mpr hl, BEq.rfl, Bool.true_or, Bool.and_self]
    simp [State.elemWaits, hd, State.linkWaitsWrite, hl']
  · simp [State.elemWaits, hd, hh]

/-- The first element that is not done is the one that waits, if it does. -/
theorem State.find_elemWaits {s : State} {p : PartNo} {a : Access} {e : Elem} {l : List Elem}
    (hf : l.find? (fun e => !e.done) = some e) (hw : s.elemWaits p a e = true) : l.find? (s.elemWaits p a) = some e := by
  obtain ⟨-, as, bs, rfl, has⟩ := List.find?_eq_some_iff_append.mp hf
  refine List.find?_eq_some_iff_append.mpr ⟨hw, as, bs, rfl, fun x hx => ?_⟩
  have hx' : x.done = true := by simpa using has x hx
  simp [State.elemWaits, hx']

theorem exec_linkStallTimeout_of_core {s : State} {t : Nat} {e : Elem}
    (h0 : (s.reg (.drstall (s.slot t (s.run t)).part)).toNat % 2 ^ 32 ≠ 0)
    (hl : (s.reg (.drstall (s.slot t (s.run t)).part)).toNat % 2 ^ 32 < (s.slot t (s.run t)).stall)
    (hc : s.coreStall t (s.run t) = some e) :
    exec (.linkStallTimeout t) s = .next ((s.modSlot t (s.run t) fun x =>
      (dropLastAccess x).trap .linkStall e.va (BitVec.ofNat 64 e.lane)).modSlot t (s.run t) fun x => { x with stall := 0 }) := by
  show execLinkStallTimeout t s = _
  simp only [execLinkStallTimeout, h0, Nat.not_le.mpr hl, or_self, if_false, hc]

/-- Settles O29: the switch by its rules, in their order; the waiting element is the first that is not done. -/
theorem slotsSwitchAndStallsEnd : Obligations.SlotsSwitchAndStallsEnd := by
  intro t s r o x sw
  refine ⟨exec_slotSwitch_of_idle, exec_slotSwitch_of_idle_other,
    fun hi hs he ho => (exec_slotSwitch_yields hi hs he).trans (by rw [State.yieldTile_other ho]),
    fun hi hs he ho => (exec_slotSwitch_yields hi hs he).trans (by rw [State.yieldTile_idle ho]),
    exec_slotSwitch_of_nothing, ?stall⟩
  case stall =>
    intro l a e h0 hl hh ha hf hw
    have hd : e.done = false := by simpa using List.find?_some hf
    refine exec_linkStallTimeout_of_core h0 hl ?_
    have hlast : (s.slot t (s.run t)).accs.getLast? = some a := by rw [ha, List.getLast?_append_of_ne_nil] <;> simp
    simp only [State.coreStall, show (s.slot t (s.run t)).hold = .reply from hh, hlast]
    exact State.find_elemWaits hf (State.elemWaits_of hd hw)

/-! ### Fault records (R354, R355) -/

/-- Settles O30: the queue is full, or the write of the record at its tail is done or fails. -/
theorem faultRecordsAreWritten : Obligations.FaultRecordsAreWritten := by
  intro p r rest s x va writes ev hr hstuck hserves
  have hev : ev = execFaultRecordWrite p s := rfl
  refine ⟨fun hfull => ?full, fun hroom => ⟨fun u hw => ?written, fun f u hw => ?fails⟩⟩
  case full =>
    have hfull' : s.fqLen p ≤ (s.part p).fq.length := hfull
    simp only [hev, execFaultRecordWrite, show (s.part p).recs = _ from hr, show (s.part p).fqStuck = _ from hstuck, hserves, hfull',
      Bool.not_true, Bool.or_self, Bool.false_eq_true, if_false, if_true]
  all_goals
    have hroom' : ¬ s.fqLen p ≤ (s.part p).fq.length := Nat.not_le.mpr hroom
    simp only [hev, execFaultRecordWrite, show (s.part p).recs = _ from hr, show (s.part p).fqStuck = _ from hstuck, hserves, hroom',
      Bool.not_true, Bool.or_self, Bool.false_eq_true, if_false]
    rw [show s.writeNow 0 0 0 p _ 128 (leNat (r.bytes (s.part p).seq)) true = _ from hw]

end Sys2Proof.Machine
end

section
/-! SUPPORT. Requests from outside: of the host (R386, R387), of peers (R234, R235, R394), and the flits of the Vonyx ports (R393). -/

namespace Sys2Proof.Machine

/-! ### The host (R386, R387) -/

section
variable {s : State} {p : PartNo} {va : W64} {n : Nat} (hn : n = 4 ∨ n = 8)
include hn

theorem State.hostCheck_misaligned (ha : offBits va % n ≠ 0) (wr : Bool) : s.hostCheck p va n wr = some .progAlign := by
  have hsize : ¬(n ≠ 4 ∧ n ≠ 8) := by omega
  rw [State.hostCheck, if_neg hsize, if_pos ha]

/-- An aligned request that reaches no cell passes its checks, but for a read of a protected partition. -/
theorem State.hostCheck_none (ha : offBits va % n = 0) (hc : ∀ t c k, spaceOf va ≠ .cell t c k) {wr : Bool}
    (hp : ((s.part p).prot && !wr) = false) : s.hostCheck p va n wr = none := by
  have hsize : ¬(n ≠ 4 ∧ n ≠ 8) := by omega
  rw [State.hostCheck, if_neg hsize, if_neg (not_not.mpr ha)]
  cases hs : spaceOf va with
  | cell t c k => exact absurd hs (hc t c k)
  | shared d k => simp only [hp, Bool.false_eq_true, if_false]
  | half a b c d => simp only [hp, Bool.false_eq_true, if_false]
  | _ => rfl
end

section
variable {s : State} {p : PartNo} {off : W32}

theorem execHostPostedWrite_unseen (h : ¬((s.part p).en = true ∧ 5 ≤ s.devstat.toNat)) (n : Nat) (data : W64) :
    execHostPostedWrite p off n data s = .next s := by
  refine if_pos ?_
  have : (s.part p).en = true → s.devstat.toNat < 5 := fun he => Nat.not_le.mp fun hd => h ⟨he, hd⟩
  cases he : (s.part p).en <;> simp_all

theorem execHostRead_unseen (h : ¬((s.part p).en = true ∧ 5 ≤ s.devstat.toNat)) (n : Nat) :
    execHostRead p off n s = .next (s.modPart p fun x => { x with reads := none :: x.reads }) := by
  refine if_pos ?_
  have : (s.part p).en = true → s.devstat.toNat < 5 := fun he => Nat.not_le.mp fun hd => h ⟨he, hd⟩
  cases he : (s.part p).en <;> simp_all

section
variable (h : (s.part p).en = true ∧ 5 ≤ s.devstat.toNat)
include h

theorem hostSees : (!(s.part p).en || decide (s.devstat.toNat < 5)) = false := by
  obtain ⟨he, hd⟩ := h
  simp [he, hd]

theorem execHostPostedWrite_refused {n : Nat} {f : FaultName} (hc : s.hostCheck p (barAddr off) n true = some f) (data : W64) :
    execHostPostedWrite p off n data s = .next (s.hostError p (barAddr off) f) := by
  simp only [execHostPostedWrite, hostSees h, hc, Bool.false_eq_true, if_false]

theorem execHostRead_refused {n : Nat} {f : FaultName} (hc : s.hostCheck p (barAddr off) n false = some f) :
    execHostRead p off n s = .next ((s.hostError p (barAddr off) f).modPart p fun x => { x with reads := none :: x.reads }) := by
  simp only [execHostRead, hostSees h, hc, Bool.false_eq_true, if_false]

theorem execHostPostedWrite_done {n : Nat} {data : W64} {u : State} (hc : s.hostCheck p (barAddr off) n true = none)
    (hw : s.writeNow 0 0 0 p (barAddr off) n (data.toNat % 256 ^ n) false = (.ok (), u)) :
    execHostPostedWrite p off n data s = .next u := by
  simp only [execHostPostedWrite, hostSees h, hc, hw, Bool.false_eq_true, if_false]

theorem execHostPostedWrite_fault {n : Nat} {data : W64} {f : FaultName} {u : State} (hc : s.hostCheck p (barAddr off) n true = none)
    (hw : s.writeNow 0 0 0 p (barAddr off) n (data.toNat % 256 ^ n) false = (.fault f, u)) :
    execHostPostedWrite p off n data s = .next (u.hostError p (barAddr off) f) := by
  simp only [execHostPostedWrite, hostSees h, hc, hw, Bool.false_eq_true, if_false]

theorem execHostRead_done {n v : Nat} {u : State} (hc : s.hostCheck p (barAddr off) n false = none)
    (hr : s.readNow 0 0 0 p (barAddr off) n = (.ok v, u)) :
    execHostRead p off n s = .next (u.modPart p fun x => { x with reads := some (BitVec.ofNat 64 v) :: x.reads }) := by
  simp only [execHostRead, hostSees h, hc, hr, Bool.false_eq_true, if_false]
end
end

/-! ### Peers (R234, R235, R394) -/

section
variable {s : State} {q : PeerReq}

theorem execPeerRequest_here (hd : q.dest = (s.reg .pkgid).extractLsb' 0 6) : execPeerRequest q s = .next (s.servePeer q) := if_pos hd

theorem State.servePeer_miss (hm : s.peerEntry q.part q.offset.toNat = none) (hc : ∀ tag, q.op ≠ .cancel tag) :
    s.servePeer q = s.peerAnswer q (some .xlatMiss) 0 := by
  cases hop : q.op with
  | cancel tag => exact absurd hop (hc tag)
  | _ => simp only [State.servePeer, State.peerPlace, hop, hm]

section
variable {e : PeerMap} (he : s.peerEntry q.part q.offset.toNat = some e)
  (hh : peerHome (e.base + BitVec.ofNat 64 (q.offset.toNat - e.lo)) = true)
include he hh

theorem State.peerPlace_hit : s.peerPlace q = .ok (e.base + BitVec.ofNat 64 (q.offset.toNat - e.lo), e.part) := by
  simp only [State.peerPlace, he, hh, if_true]

theorem State.servePeer_load {n v : Nat} {u : State} (hop : q.op = .load n)
    (hr : s.readNow 0 0 0 e.part (e.base + BitVec.ofNat 64 (q.offset.toNat - e.lo)) n = (.ok v, u)) :
    s.servePeer q = u.peerAnswer q none (BitVec.ofNat 256 v) := by
  simp only [State.servePeer, hop, State.peerPlace_hit he hh, hr]

theorem State.servePeer_store {n : Nat} {d : W256} {u : State} (hop : q.op = .store n d)
    (hw : s.writeNow 0 0 0 e.part (e.base + BitVec.ofNat 64 (q.offset.toNat - e.lo)) n (d.toNat % 256 ^ n) false = (.ok (), u)) :
    s.servePeer q = u.peerAnswer q none 0 := by
  simp only [State.servePeer, hop, State.peerPlace_hit he hh, hw]
end

section
variable (hd : q.dest ≠ (s.reg .pkgid).extractLsb' 0 6)
include hd

theorem execPeerRequest_forwards {k : Nat} (hk : s.portFor q.dest.toNat q.tile.toNat = some k) (hq : q.hops < 8) :
    execPeerRequest q s = .next { s with forwarded := (k, { q with hops := q.hops + 1 }) :: s.forwarded } := by
  simp only [execPeerRequest, hd, hk, Nat.not_le.mpr hq, if_false]

theorem execPeerRequest_too_far {k : Nat} (hk : s.portFor q.dest.toNat q.tile.toNat = some k) (hq : 8 ≤ q.hops) :
    execPeerRequest q s = .next { s with refused := q :: s.refused } := by
  simp only [execPeerRequest, hd, hk, hq, if_false, if_true]

theorem execPeerRequest_no_route (hk : s.portFor q.dest.toNat q.tile.toNat = none) :
    execPeerRequest q s = .next { s with refused := q :: s.refused } := by
  simp only [execPeerRequest, hd, hk, if_false]
end
end

/-! ### Vonyx ports (R393) -/

theorem State.dropPort_ports (s : State) (k : Nat) : (s.dropPort k).ports = s.ports := by
  refine State.foldl_keeps State.ports (fun s n => ?_) _ _
  dsimp only
  split <;> rfl

section
variable {s : State} {k : Nat} (hk : k < 48) (hd : (tget ({} : Port) s.ports k).down = false)
  (hkey : (tget ({} : Port) s.ports k).keyed = true)
include hk hd hkey

theorem portUp : ((tget ({} : Port) s.ports k).down || !(tget ({} : Port) s.ports k).keyed || decide (Config.ports ≤ k)) = false := by
  have : ¬ Config.ports ≤ k := Nat.not_le.mpr hk
  simp [hd, hkey, this]

theorem execVonyxFlitReceive_good :
    let x : Port := tget {} s.ports k
    execVonyxFlitReceive k true s = .next { s with ports := tput s.ports k { x with replays := 0 } } := by
  simp [execVonyxFlitReceive, portUp hk hd hkey]

theorem execVonyxFlitReceive_replay (hr : (tget ({} : Port) s.ports k).replays < 15) :
    let x : Port := tget {} s.ports k
    execVonyxFlitReceive k false s = .next { s with ports := tput s.ports k { x with replays := x.replays + 1 } } := by
  have hr' : ¬ 15 ≤ (tget ({} : Port) s.ports k).replays := Nat.not_le.mpr hr
  simp [execVonyxFlitReceive, portUp hk hd hkey, hr']

theorem execVonyxFlitReceive_down (hr : 15 ≤ (tget ({} : Port) s.ports k).replays) :
    let x : Port := tget {} s.ports k
    execVonyxFlitReceive k false s =
      .next (State.dropPort { s with ports := tput s.ports k { x with down := true, replays := 0 } } k) := by
  simp [execVonyxFlitReceive, portUp hk hd hkey, hr]
end

/-- Settles O49: each request by what its checks, its tables and its route say; a port by its count of replays. -/
theorem outsideRequestsAreServed : Obligations.OutsideRequestsAreServed := by
  intro p off data q port s va write read answer seen peer here x flit
  refine ⟨fun hs n => ⟨execHostPostedWrite_unseen hs n data, execHostRead_unseen hs n⟩, fun hs n hn => ⟨fun ha => ⟨?wmis, ?rmis⟩,
    fun ha hc => ⟨fun u hw => ?wdone, fun f u hw => ?wfault, fun hp v u hr => ?rdone⟩⟩, fun hd hm hc => ?miss,
    fun hd e he => ?mapped, fun hd => ⟨fun k hk => ⟨fun hq => execPeerRequest_forwards hd hk hq,
      fun hq => execPeerRequest_too_far hd hk hq⟩, fun hk => execPeerRequest_no_route hd hk⟩,
    fun hk hdn hkey => ⟨execVonyxFlitReceive_good hk hdn hkey, fun hr => execVonyxFlitReceive_replay hk hdn hkey hr,
      fun hr => ⟨_, execVonyxFlitReceive_down hk hdn hkey hr, ?down⟩⟩⟩
  case wmis => exact execHostPostedWrite_refused hs (State.hostCheck_misaligned hn ha true) data
  case rmis => exact execHostRead_refused hs (State.hostCheck_misaligned hn ha false)
  case wdone => exact execHostPostedWrite_done hs (State.hostCheck_none hn ha hc (Bool.and_false _)) hw
  case wfault => exact execHostPostedWrite_fault hs (State.hostCheck_none hn ha hc (Bool.and_false _)) hw
  case rdone => exact execHostRead_done hs (State.hostCheck_none hn ha hc (by rw [hp, Bool.false_and])) hr
  case miss => exact (execPeerRequest_here hd).trans (by rw [State.servePeer_miss hm hc])
  case mapped =>
    intro va hh
    exact ⟨fun n v u hop hr => (execPeerRequest_here hd).trans (by rw [State.servePeer_load he hh hop hr]),
      fun n d u hop hw => (execPeerRequest_here hd).trans (by rw [State.servePeer_store he hh hop hw])⟩
  case down => rw [State.dropPort_ports, tget_tput_same]

end Sys2Proof.Machine
end

section
/-! SUPPORT. Partitions, slots, cells and weight regions are configured and cleared (R299–R305, R321, R331, R388, R389). -/

namespace Sys2Proof.Machine

/-! ### Partitions (R299, R300, R331, R388) -/

theorem State.tdispLocked_iff (s : State) (p : PartNo) :
    s.tdispLocked p = true ↔ (s.part p).tdisp = .configLocked ∨ (s.part p).tdisp = .run := by
  simp [State.tdispLocked]

theorem State.tdispLocked_false {s : State} {p : PartNo} (h : ¬((s.part p).tdisp = .configLocked ∨ (s.part p).tdisp = .run)) :
    s.tdispLocked p = false := Bool.eq_false_iff.mpr (mt (s.tdispLocked_iff p).mp h)

section
variable {s : State} {p : PartNo} {v : W64}

theorem execPcfgWrite_locked (h : (s.part p).tdisp = .configLocked ∨ (s.part p).tdisp = .run) : execPcfgWrite p v s = .next s :=
  if_pos ((s.tdispLocked_iff p).mpr h)

section
variable (h : ¬((s.part p).tdisp = .configLocked ∨ (s.part p).tdisp = .run))
include h

theorem execPcfgWrite_stays (he : (s.part p).en = true) (hv : v.getLsbD 0 = true) : execPcfgWrite p v s = .next s := by
  simp [execPcfgWrite, State.tdispLocked_false h, he, hv]

theorem execPcfgWrite_clears (he : (s.part p).en = true) (hv : v.getLsbD 0 = false) :
    execPcfgWrite p v s = .next (s.startClearing p) := by
  simp only [execPcfgWrite, State.tdispLocked_false h, he, hv, Bool.false_eq_true, if_false, if_true]

theorem execPcfgWrite_configures (he : (s.part p).en = false) :
    let on := v.getLsbD 0 && !(s.part p).clrBusy
    execPcfgWrite p v s = .next (s.modPart p fun x => { x with en := on, prot := v.getLsbD 1, keysDue := on && v.getLsbD 1 }) := by
  simp [execPcfgWrite, State.tdispLocked_false h, he]
end

theorem execDrawerKeysPlaced_due (hk : (s.part p).keysDue = true) (hs : s.serves .security = true) : execDrawerKeysPlaced p s =
    .next ({ s with fresh := s.fresh + 3 }.modPart p fun x => { x with keys := some s.fresh, keysDue := false }) := by
  simp [execDrawerKeysPlaced, hk, hs]

/-- The start of a clearing changes the partition's own flags, and slots. -/
theorem State.startClearing_parts (s : State) (p : PartNo) :
    (s.startClearing p).parts = (s.modPart p fun x => { x with en := false, clrBusy := true, keysDue := false }).parts := by
  refine State.foldl_keeps State.parts (fun s t => ?_) _ _
  refine State.foldl_keeps State.parts (fun s b => ?_) _ _
  split <;> rfl

theorem State.startClearing_part (s : State) (p : PartNo) :
    (s.startClearing p).part p = { s.part p with en := false, clrBusy := true, keysDue := false } := by
  rw [State.part, State.startClearing_parts]
  exact State.part_modPart_same ..

theorem execTdispError_errs (s : State) (p : PartNo) :
    ∃ u, execTdispError p s = .next u ∧ (u.part p).tdisp = .error ∧ (u.part p).en = false := by
  refine ⟨_, rfl, ?_⟩
  cases he : (s.part p).en
  · rw [if_neg Bool.false_ne_true, State.part_modPart_same]
    exact ⟨rfl, he⟩
  · rw [if_pos rfl, State.startClearing_part, State.part_modPart_same]
    exact ⟨rfl, rfl⟩

theorem execTdispInterfaceRequest_eq (s : State) (p : PartNo) (dst : Tdisp) : execTdispInterfaceRequest p dst s = .next (
    if dst = .unlocked ∨ (dst = .configLocked ∧ (s.part p).tdisp = .unlocked) ∨ (dst = .run ∧ (s.part p).tdisp = .configLocked) then
      s.modPart p fun x => { x with tdisp := dst } else s) := by
  cases hx : (s.part p).tdisp <;> cases dst <;> simp [execTdispInterfaceRequest, hx]
end

/-! ### The end of a clearing (R305) -/

/-- A fold keeps what each step keeps, and has what one of its steps brings about. -/
theorem State.foldl_has {α : Type} {P : State → Prop} {f : State → α → State} {l : List α} {a : α} (ha : a ∈ l)
    (hkeep : ∀ s x, P s → P (f s x)) (hget : ∀ s, P (f s a)) (s : State) : P (l.foldl f s) := by
  have hstay : ∀ (m : List α) (s : State), P s → P (m.foldl f s) := fun m => by
    induction m with
    | nil => exact fun _ h => h
    | cons x m ih => exact fun s h => ih _ (hkeep s x h)
  induction l generalizing s with
  | nil => exact absurd ha List.not_mem_nil
  | cons x l ih =>
    rcases List.mem_cons.mp ha with rfl | ha
    · exact hstay l _ (hget s)
    · exact ih ha _

theorem State.clearDie_keeps {β : Type} (g : State → β) (hdie : ∀ s d f, g (State.modDie s d f) = g s)
    (hreg : ∀ s k f, g (State.modRegion s k f) = g s) (s : State) (d : Nat) (p : PartNo) : g (s.clearDie d p) = g s := by
  rw [State.clearDie, hdie]
  exact State.foldl_keeps g (f := fun s c => s.closeWeight d c 7) (fun _ _ => (hreg _ _ _).trans (hdie _ _ _)) _ s

theorem State.clearRings_keeps {β : Type} (g : State → β) (hring : ∀ s d p l f, g (State.modRing s d p l f) = g s) (s : State) (d : Nat)
    (p : PartNo) : g (s.clearRings d p) = g s :=
  State.foldl_keeps g (fun s l => hring s d p l fun x => { x with recs := [], held := [], sqHead := x.sqTail }) _ _

/-- The rings and queues of every die are cleared of a partition. -/
def State.clearDies (s : State) (p : PartNo) : State :=
  (List.range Config.dies).foldl (fun s d => (s.clearDie d p).clearRings d p) s

theorem State.clearDies_keeps {β : Type} (g : State → β) (hdie : ∀ s d f, g (State.modDie s d f) = g s)
    (hreg : ∀ s k f, g (State.modRegion s k f) = g s) (hring : ∀ s d p l f, g (State.modRing s d p l f) = g s) (s : State) (p : PartNo) :
    g (s.clearDies p) = g s :=
  State.foldl_keeps g (fun s d => (State.clearRings_keeps g hring _ d p).trans (State.clearDie_keeps g hdie hreg s d p)) _ _

theorem State.ring_clearDies (s : State) (p : PartNo) {d l : Nat} (hd : d < 4) (hl : l < 8) : ((s.clearDies p).ring d p l).recs = [] := by
  have hmod : ∀ (s : State) (d' l' : Nat), (s.ring d p l).recs = [] →
      ((s.modRing d' p l' fun x => { x with recs := [], held := [], sqHead := x.sqTail }).ring d p l).recs = [] := fun s d' l' h => by
    rw [State.ring, State.modRing, tget_tput]
    split
    · rfl
    · exact h
  have hkeep : ∀ (s : State) (d' : Nat), (s.ring d p l).recs = [] → ((s.clearDie d' p).ring d p l).recs = [] := fun s d' h => by
    rw [State.clearDie_keeps (fun s => s.ring d p l) (fun _ _ _ => rfl) (fun _ _ _ => rfl), h]
  refine State.foldl_has (P := fun s => (s.ring d p l).recs = []) (List.mem_range.mpr hd) (fun s d' h => ?_) (fun s => ?_) s
  · exact List.foldlRecOn (motive := fun s : State => (s.ring d p l).recs = []) _ _ (hkeep s d' h) fun s h l' _ => hmod s d' l' h
  · refine State.foldl_has (P := fun s => (s.ring d p l).recs = []) (List.mem_range.mpr hl) (fun s l' h => hmod s d l' h) (fun s => ?_) _
    rw [State.ring_modRing_same]

/-- What of the state is the partition's, and stands outside its dies' queues and rings, is gone. -/
def State.dropPart (s : State) (p : PartNo) : State :=
  { s with
    saved := s.saved.filter (fun k => k.part != p)
    arrivals := s.arrivals.filter (fun a => a.part != p)
    parked := s.parked.filter (fun k => k.part != p)
    remotes := s.remotes.filter (fun m => m.part != p || m.origin.isSome)
    locks := s.locks.filter (fun r => r.part != p)
    units := s.units.map fun (u : Nat × XUnit) => (u.1, { u.2 with tlb := u.2.tlb.filter fun e => e.part != p })
    tiles := s.tiles.map fun (x : Nat × Tile) => (x.1, x.2.clearCells p)
    keys := s.keys.filter fun (k : Nat × KeySlot) => k.2.kind == 0 || k.2.part != p }

theorem State.ring_putReg (s : State) (r : CfgReg) (v : W64) (d : Nat) (p : PartNo) (l : Nat) : (s.putReg r v).ring d p l = s.ring d p l :=
  rfl
theorem State.ring_modPart (s : State) (q : PartNo) (f : Part → Part) (d : Nat) (p : PartNo) (l : Nat) :
    (s.modPart q f).ring d p l = s.ring d p l := rfl

theorem State.clearPartition_eq (s : State) (p : PartNo) :
    s.clearPartition p = ((((s.dropPart p).clearDies p).modPart p Part.cleared).putReg (.fqstat p) 0) := rfl

theorem State.clearPartition_keeps {β : Type} (g : State → β) (hdie : ∀ s d f, g (State.modDie s d f) = g s)
    (hreg : ∀ s k f, g (State.modRegion s k f) = g s) (hring : ∀ s d p l f, g (State.modRing s d p l f) = g s)
    (hpart : ∀ s p f, g (State.modPart s p f) = g s) (hcfg : ∀ s r v, g (State.putReg s r v) = g s) (s : State) (p : PartNo) :
    g (s.clearPartition p) = g (s.dropPart p) :=
  (hcfg _ _ _).trans ((hpart _ _ _).trans (State.clearDies_keeps g hdie hreg hring _ p))

theorem State.clearPartition_part (s : State) (p : PartNo) : (s.clearPartition p).part p = (((s.dropPart p).clearDies p).part p).cleared := by
  rw [State.clearPartition_eq, State.part_putReg, State.part_modPart_same]

section
variable {s : State} {p : PartNo}

theorem State.holds_iff (s : State) (p : PartNo) :
    (s.knownTiles.any fun t => s.holder t 0 == some p || s.holder t 1 == some p) = true ↔
    ∃ u ∈ s.knownTiles, s.holder u 0 = some p ∨ s.holder u 1 = some p := by
  simp

theorem execPartitionClearDone_held (h : ∃ u ∈ s.knownTiles, s.holder u 0 = some p ∨ s.holder u 1 = some p) :
    execPartitionClearDone p s = .next s :=
  if_neg (by simp [(s.holds_iff p).mpr h])

theorem execPartitionClearDone_clears (hb : (s.part p).clrBusy = true)
    (h : ∀ u ∈ s.knownTiles, s.holder u 0 ≠ some p ∧ s.holder u 1 ≠ some p) :
    execPartitionClearDone p s = .next (s.clearPartition p) := by
  have hno : ¬ ∃ u ∈ s.knownTiles, s.holder u 0 = some p ∨ s.holder u 1 = some p := fun ⟨u, hu, hp⟩ =>
    hp.elim (h u hu).1 (h u hu).2
  exact if_pos (by rw [hb, Bool.eq_false_iff.mpr (mt (s.holds_iff p).mp hno)]; rfl)
end

/-! ### Slots (R301, R303) -/

section
variable {s : State} {t b : Nat} {p : PartNo} {v : Bool}

theorem State.assignSlot_same (h : (s.tile t).tslot.field b = (p, v)) : s.assignSlot t b p v = s := by
  simp [State.assignSlot, h]

theorem State.assignSlot_busy (h : (s.slot t b).task.isSome = true) : s.assignSlot t b p v = s := by
  simp [State.assignSlot, h]

theorem State.assignSlot_new (hn : (s.tile t).tslot.field b ≠ (p, v)) (ht : (s.slot t b).task = none)
    (hw : (s.slot t b).writeOut = false) (hv : v = true → (s.part p).en = true) : s.assignSlot t b p v =
      (s.modTile t fun y => { y with tslot := y.tslot.put b p v }).modSlot t b fun x => { x with st := .clearing } := by
  have hen : (v && !(s.part p).en) = false := by cases v <;> simp_all
  simp [State.assignSlot, hn, ht, hw, hen]
end

/-- The end of a slot's clearing, before a partition that is being cleared gives it up. -/
def State.emptySlot (s : State) (t b : Nat) : State :=
  { s.dropWaiters t b with
    mem := memClear (s.dropWaiters t b).mem (halfKey t b) (halfKey t b + 0x400000)
    poisoned := (s.dropWaiters t b).poisoned.filter fun x => !(decide (halfKey t b ≤ x) && decide (x < halfKey t b + 0x400000))
    remotes := (s.dropWaiters t b).remotes.filter fun m => m.tile != t || m.slot != b }.modSlot t b fun _ => {}

theorem State.slot_emptySlot (s : State) (t b c : Nat) :
    (s.emptySlot t b).slot t c = if c = 0 ↔ b = 0 then {} else s.slot t c := by
  rw [State.emptySlot, State.slot_modSlot]
  simp only [true_and]
  split
  · rfl
  · exact State.slot_dropWaiters s t b t c

theorem State.emptySlot_mem (s : State) (t b : Nat) :
    (s.emptySlot t b).mem = memClear s.mem (halfKey t b) (halfKey t b + 0x400000) := rfl

theorem State.slot_modTile_of_slots (s : State) (t : Nat) {f : Tile → Tile} (ha : ∀ x, (f x).a = x.a) (hb : ∀ x, (f x).b = x.b)
    (u b : Nat) : (s.modTile t f).slot u b = s.slot u b := by
  simp only [State.slot, State.tile_modTile]
  split
  · next h => subst h; simp only [Tile.slot, ha, hb]
  · rfl

/-- A partition that is being cleared gives the slot up. -/
def State.unassigned (s : State) (t b : Nat) (q : PartNo) : State :=
  if (s.part q).clrBusy then s.modTile t fun y => { y with tslot := y.tslot.put b q false } else s

theorem State.slot_unassigned (s : State) (t b : Nat) (q : PartNo) (u c : Nat) : (s.unassigned t b q).slot u c = s.slot u c := by
  rw [State.unassigned]
  split
  · refine State.slot_modTile_of_slots s t (fun x => ?_) (fun x => ?_) u c <;> rfl
  · rfl

theorem State.unassigned_mem (s : State) (t b : Nat) (q : PartNo) : (s.unassigned t b q).mem = s.mem := by
  rw [State.unassigned]
  split <;> rfl

theorem execSlotClearDone_clears {s : State} {t : Nat} {b : Bool} (h : (s.slot t (if b then 1 else 0)).st = .clearing) :
    let n := if b then 1 else 0
    execSlotClearDone t b s = .next ((s.emptySlot t n).unassigned t n ((s.tile t).tslot.field n).1) :=
  if_neg (not_not.mpr h)

/-- Bytes kept by their keys: the others read 0. -/
theorem memGet_filter_key (m : List Host.Cell) (q : Nat → Bool) (k : Nat) :
    memGet (m.filter fun c => q c.1) k = if q k = true then memGet m k else 0 := by
  split
  · next h => exact memGet_filter _ k fun _ => h
  · next h =>
    induction m with
    | nil => rfl
    | cons c m ih =>
      by_cases hc : q c.1 = true
      · have hck : c.1 ≠ k := fun e => h (e ▸ hc)
        rw [List.filter_cons_of_pos (p := fun c : Host.Cell => q c.1) hc, memGet, if_neg hck, ih]
      · rw [List.filter_cons_of_neg (p := fun c : Host.Cell => q c.1) hc, ih]

/-- A cleared range reads 0. -/
theorem memGet_memClear (m : List Host.Cell) (lo hi k : Nat) :
    memGet (memClear m lo hi) k = if lo ≤ k ∧ k < hi then 0 else memGet m k := by
  have h : memGet (memClear m lo hi) k = if (!(decide (lo ≤ k) && decide (k < hi))) = true then memGet m k else 0 :=
    memGet_filter_key m (fun k => !(decide (lo ≤ k) && decide (k < hi))) k
  rw [h]
  by_cases hk : lo ≤ k ∧ k < hi <;> simp [hk]

/-! ### Cells and weight regions (R304, R321, R389) -/

section
variable {s : State} {t : Nat} {v : W64}

section
variable {c : CellNo} (hw : (s.tile t).waiters = [])
include hw

theorem execCownWrite_same (h : (s.cell t c.toNat).v = v.getLsbD 4) (hp : (s.cell t c.toNat).part = v.extractLsb' 0 4) :
    execCownWrite t c v s = .next s := by
  have hs : s.settleIf t (· == c.toNat) = s := settleIf_none (by simp [hw])
  simp [execCownWrite, hs, h, hp]

theorem execCownWrite_moves (h : ¬((s.cell t c.toNat).v = v.getLsbD 4 ∧ (s.cell t c.toNat).part = v.extractLsb' 0 4)) :
    execCownWrite t c v s = .next (s.putCell t c.toNat { v := v.getLsbD 4, part := v.extractLsb' 0 4 }) := by
  have hs : s.settleIf t (· == c.toNat) = s := settleIf_none (by simp [hw])
  have hw' : ∀ z, ((s.putCell t c.toNat z).tile t).waiters = [] := fun z => by
    rw [State.putCell, State.tile_modTile_same]
    exact hw
  simp only [execCownWrite, hs, if_neg h, hw', List.filter_nil, List.foldl_nil]
end

theorem execCcfgwWrite_unowned {c : CellNo} (h : (s.cell t c.toNat).v = false) : execCcfgwWrite t c v s = .next s := if_pos (by simp [h])

theorem execCcfgwWrite_owned {c : CellNo} {z : Cell} (h : (s.cell t c.toNat).v = true) (hz : (s.cell t c.toNat).ccfg v = .ok z) :
    execCcfgwWrite t c v s = .next (s.putCell t c.toNat z) := by
  simp [execCcfgwWrite, h, hz]

theorem execWownWrite_moves {r : BitVec 5} (hl : t * 32 + r.toNat ≠ lmsRegion) (ht : t < 192)
    (hn : ¬((s.region (t * 32 + r.toNat)).v = v.getLsbD 4 ∧ (s.region (t * 32 + r.toNat)).part = v.extractLsb' 0 4))
    (hp : (s.region (t * 32 + r.toNat)).st ≠ .programming) (hq : ∀ c ∈ (s.die (dieOf t)).wq, c.region ≠ t * 32 + r.toNat) :
    execWownWrite t r v s = .next (s.modRegion (t * 32 + r.toNat) fun g => { g with
      v := v.getLsbD 4, part := v.extractLsb' 0 4, st := if g.sealed = true ∧ g.st = .opened then .locked else g.st }) := by
  have ht' : ¬ Config.tiles ≤ t := Nat.not_le.mpr ht
  have hq' : ((s.die (dieOf t)).wq.any fun c => c.region == t * 32 + r.toNat) = false := by simpa using hq
  simp only [execWownWrite, hl, ht', hn, hp, hq', Bool.false_eq_true, or_self, if_false, Bool.and_eq_true, beq_iff_eq]
end

/-- What a partition has of contexts, parked records and locks is gone, and memory is as it was. -/
theorem State.clearPartition_gone (s : State) (p : PartNo) : (∀ k ∈ (s.clearPartition p).saved, k.part ≠ p) ∧
    (∀ k ∈ (s.clearPartition p).parked, k.part ≠ p) ∧ (∀ r ∈ (s.clearPartition p).locks, r.part ≠ p) ∧
    (s.clearPartition p).mem = s.mem := by
  have hsaved : (s.clearPartition p).saved = s.saved.filter fun k => k.part != p :=
    State.clearPartition_keeps State.saved (fun _ _ _ => rfl) (fun _ _ _ => rfl) (fun _ _ _ _ _ => rfl) (fun _ _ _ => rfl)
      (fun _ _ _ => rfl) s p
  have hparked : (s.clearPartition p).parked = s.parked.filter fun k => k.part != p :=
    State.clearPartition_keeps State.parked (fun _ _ _ => rfl) (fun _ _ _ => rfl) (fun _ _ _ _ _ => rfl) (fun _ _ _ => rfl)
      (fun _ _ _ => rfl) s p
  have hlocks : (s.clearPartition p).locks = s.locks.filter fun r => r.part != p :=
    State.clearPartition_keeps State.locks (fun _ _ _ => rfl) (fun _ _ _ => rfl) (fun _ _ _ _ _ => rfl) (fun _ _ _ => rfl)
      (fun _ _ _ => rfl) s p
  have hmem : (s.clearPartition p).mem = s.mem :=
    State.clearPartition_keeps State.mem (fun _ _ _ => rfl) (fun _ _ _ => rfl) (fun _ _ _ _ _ => rfl) (fun _ _ _ => rfl)
      (fun _ _ _ => rfl) s p
  rw [hsaved, hparked, hlocks, hmem]
  simp [List.mem_filter]

theorem State.clearPartition_ring (s : State) (p : PartNo) {d l : Nat} (hd : d < 4) (hl : l < 8) :
    ((s.clearPartition p).ring d p l).recs = [] := by
  rw [State.clearPartition_eq, State.ring_putReg, State.ring_modPart, State.ring_clearDies _ p hd hl]

section
variable {s : State} {t : Nat} {v : W64} (hp : v.extractLsb' 5 4 = (s.tile t).tslot.pb) (hv : v.getLsbD 9 = (s.tile t).tslot.vb)
include hp hv

theorem execTslotWrite_busy (h : (s.slot t 0).task.isSome = true) : execTslotWrite t v s = .next s := by
  rw [execTslotWrite, State.assignSlot_busy h, State.assignSlot_same (by rw [hp, hv]; rfl)]

/-- Slot B's fields are written as they stand. -/
theorem execTslotWrite_assigns (ht : (s.slot t 0).task = none) (hw : (s.slot t 0).writeOut = false)
    (hen : v.getLsbD 4 = true → (s.part (v.extractLsb' 0 4)).en = true)
    (hn : ((s.tile t).tslot.pa, (s.tile t).tslot.va) ≠ (v.extractLsb' 0 4, v.getLsbD 4)) : execTslotWrite t v s =
      .next ((s.modTile t fun z => { z with tslot := { z.tslot with pa := v.extractLsb' 0 4, va := v.getLsbD 4 } }).modSlot t 0 fun z =>
        { z with st := .clearing }) := by
  rw [execTslotWrite, State.assignSlot_new (b := 0) hn ht hw hen, State.assignSlot_same]
  · rfl
  · rw [hp, hv, State.tile_modSlot, if_pos rfl, State.tile_modTile_same]
    rfl
end

/-- Settles O50: each write and each end of a clearing by its own rule. -/
theorem partitionsAreConfigured : Obligations.PartitionsAreConfigured := by
  intro p v t s x locked cfg
  refine ⟨execPcfgWrite_locked, fun h => ⟨fun he => ⟨execPcfgWrite_stays h he, execPcfgWrite_clears h he⟩,
    fun he => execPcfgWrite_configures h he⟩, execDrawerKeysPlaced_due, execTdispError_errs s p, execTdispInterfaceRequest_eq s p,
    fun hb h => ⟨_, execPartitionClearDone_clears hb h, ?cleared⟩, execPartitionClearDone_held,
    fun hp hv => ⟨execTslotWrite_busy hp hv, execTslotWrite_assigns hp hv⟩, fun b => ⟨fun h => if_pos h, fun h _ => ?slot⟩,
    fun c hw => ⟨execCownWrite_same hw, execCownWrite_moves hw, execCcfgwWrite_unowned, fun hv z hz => execCcfgwWrite_owned hv hz⟩,
    fun r => execWownWrite_moves⟩
  case cleared =>
    obtain ⟨hsaved, hparked, hlocks, hmem⟩ := s.clearPartition_gone p
    rw [State.clearPartition_part]
    exact ⟨rfl, rfl, rfl, rfl, rfl, hsaved, hparked, hlocks, fun d hd l hl => s.clearPartition_ring p hd hl, hmem⟩
  case slot =>
    refine ⟨_, execSlotClearDone_clears h, ?_, ?_, fun a => ?_⟩
    · rw [State.slot_unassigned, State.slot_emptySlot, if_pos Iff.rfl]
    · rw [State.slot_unassigned, State.slot_emptySlot, if_neg (by cases b <;> simp)]
    · rw [State.unassigned_mem, State.emptySlot_mem, memGet_memClear]

end Sys2Proof.Machine
end

section
/-! SUPPORT. Windows and invalidations (R306, R308, R311, R312). -/

namespace Sys2Proof.Machine

/-! ### Windows (R306) -/

/-- Another partition's window at the home shares a byte with the window v (R306). -/
def State.WindowTaken (s : State) (h : Nat) (p : PartNo) (v : W64) : Prop :=
  ∃ q : PartNo, q ≠ p ∧ ∃ i < 16, winSize (s.pwin h q i) ≠ 0 ∧ winBase v < winBase (s.pwin h q i) + winSize (s.pwin h q i) ∧
    winBase (s.pwin h q i) < winBase v + winSize v

theorem State.windowTaken_iff (s : State) (h : Nat) (p : PartNo) (v : W64) :
    ((List.range 16).any fun q => BitVec.ofNat 4 q != p && (List.range 16).any fun i =>
      winSize (s.pwin h (BitVec.ofNat 4 q) i) != 0 && windowsMeet v (s.pwin h (BitVec.ofNat 4 q) i)) = true ↔ s.WindowTaken h p v := by
  simp only [windowsMeet, List.any_eq_true, List.mem_range, Bool.and_eq_true, bne_iff_ne, decide_eq_true_eq, State.WindowTaken]
  constructor
  · rintro ⟨q, -, hq, hi⟩
    exact ⟨_, hq, hi⟩
  · rintro ⟨q, hq, hi⟩
    exact ⟨q.toNat, q.isLt, by simpa using ⟨hq, hi⟩⟩

theorem State.windowBad_iff {h top : Nat} (hl : windowLimit h = some top) (s : State) (p : PartNo) (v : W64) :
    s.windowBad h p v = true ↔ winSize v ≠ 0 ∧ (top < winBase v + winSize v ∨ s.WindowTaken h p v) := by
  rw [State.windowBad, hl, ← State.windowTaken_iff]
  simp only [Bool.and_eq_true, Bool.or_eq_true, bne_iff_ne, decide_eq_true_eq]

theorem windowLimit_of_home {h : Nat} (hh : h = 1 ∨ h = 2 ∨ h = 3 ∨ h = 4 ∨ h = 0x10) :
    windowLimit h = some (if h = 0x10 then 0x80000000000 else 0x8000000) := by
  rcases hh with rfl | rfl | rfl | rfl | rfl <;> rfl

section
variable {home : BitVec 7} {p : PartNo} {w : BitVec 4} {v : W64} {s : State}

theorem execPwinWrite_locked (h : ¬((s.part p).tdisp ≠ .configLocked ∧ (s.part p).tdisp ≠ .run)) :
    execPwinWrite home p w v s = .next s := by
  have hl : s.tdispLocked p = true := (s.tdispLocked_iff p).mpr (by simpa only [not_and_or, not_not] using h)
  simp only [execPwinWrite, hl, Bool.true_or, if_true]

section
variable (h : (s.part p).tdisp ≠ .configLocked ∧ (s.part p).tdisp ≠ .run)
include h

theorem execPwinWrite_host (hh : home.toNat = 0x20) : execPwinWrite home p w v s =
    .next { s with pwins := tput s.pwins (pwinNo home.toNat p w.toNat) (v &&& 0x1FFFFFFF1FFFFFFF) } := by
  have hl : s.tdispLocked p = false := State.tdispLocked_false (not_or.mpr h)
  simp [execPwinWrite, hl, hh, State.windowBad, windowLimit]

section
variable {top : Nat} (ht : windowLimit home.toNat = some top)
include ht

theorem execPwinWrite_refused (hb : s.windowBad home.toNat p (v &&& 0x1FFFFFFF1FFFFFFF) = true) : execPwinWrite home p w v s =
    .next (s.putReg (.xstat (homeUnit home.toNat)) (s.reg (.xstat (homeUnit home.toNat)) ||| 2)) := by
  have hl : s.tdispLocked p = false := State.tdispLocked_false (not_or.mpr h)
  simp only [execPwinWrite, hl, ht, hb, State.orReg, Option.isSome_some, Bool.true_or, Bool.not_true, Bool.or_self, Bool.false_eq_true,
    if_false, if_true]

theorem execPwinWrite_inForce (hb : s.windowBad home.toNat p (v &&& 0x1FFFFFFF1FFFFFFF) = false) (hh : home.toNat ≠ 0x20) :
    let put : State := { s with pwins := tput s.pwins (pwinNo home.toNat p w.toNat) (v &&& 0x1FFFFFFF1FFFFFFF) }
    execPwinWrite home p w v s = .next ((put.startDrain (homeUnit home.toNat)).retryRecords home.toNat) := by
  have hl : s.tdispLocked p = false := State.tdispLocked_false (not_or.mpr h)
  simp only [execPwinWrite, hl, ht, hb, hh, Option.isSome_some, Bool.true_or, Bool.not_true, Bool.or_self, Bool.false_eq_true, if_false]
end
end
end

/-! ### Invalidations (R311, R312) -/

theorem State.retryRecords_keeps {β : Type} (g : State → β) (hg : ∀ s p f, g (State.modPart s p f) = g s) (s : State) (h : Nat) :
    g (s.retryRecords h) = g s := by
  refine State.foldl_keeps g (fun s i => ?_) _ _
  dsimp only
  split
  · exact hg ..
  · rfl

/-- Each unit of the list is filtered, and each other is as it was. -/
theorem State.unit_filterUnits (f : Tlb → Bool) (l : List Nat) (s : State) (k : Nat) :
    ((l.foldl (fun s n => s.modUnit n fun x => { x with tlb := x.tlb.filter f }) s).unit k).tlb =
      if k ∈ l then (s.unit k).tlb.filter f else (s.unit k).tlb := by
  induction l generalizing s with
  | nil => rfl
  | cons n l ih =>
    rw [List.foldl_cons, ih, State.unit_modUnit]
    by_cases hk : k = n
    · subst hk
      simp [List.filter_filter]
    · simp [hk]

theorem State.unit_startDrain_tlb (s : State) (u : BitVec 3) (k : Nat) : ((s.startDrain u).unit k).tlb = (s.unit k).tlb := by
  show ((s.modUnit (drainUnit u) fun x => { x with drain := some s.nextNum }).unit k).tlb = _
  rw [State.unit_modUnit]
  split
  · next h => rw [h]
  · rfl

/-- Every unit of the home drops the entries named, and the home is BUSY. -/
theorem State.dropEntries_drops (s : State) (u : BitVec 3) (f : Tlb → Bool) {k : Nat} (hk : k ∈ unitsOf (unitHome u)) :
    ((s.dropEntries u f).unit k).tlb = (s.unit k).tlb.filter (fun e => !f e) ∧
      ((s.dropEntries u f).reg (.xstat u)).getLsbD 2 = true := by
  rw [State.dropEntries, State.retryRecords_keeps (fun s => s.unit k) (fun _ _ _ => rfl),
    State.retryRecords_keeps (fun s => s.reg (.xstat u)) fun _ _ _ => rfl]
  refine ⟨?_, ?_⟩
  · rw [State.unit_startDrain_tlb, State.unit_filterUnits, if_pos hk]
  · rw [State.startDrain, State.orReg, State.reg_putReg_same]
    simp

theorem execInvalidationDrainEnd_waits {unit : BitVec 3} {s : State} {n : Nat} (hd : (s.unit (drainUnit unit)).drain = some n)
    (h : s.accessesBefore (unitHome unit) n = true) : execInvalidationDrainEnd unit s = .next s := by
  simp only [execInvalidationDrainEnd, hd, h, if_true]

theorem execInvalidationDrainEnd_ends {unit : BitVec 3} {s : State} {n : Nat} (hd : (s.unit (drainUnit unit)).drain = some n)
    (h : s.accessesBefore (unitHome unit) n = false) : execInvalidationDrainEnd unit s =
      .next ((s.modUnit (drainUnit unit) fun x => { x with drain := none }).putReg (.xstat unit) (s.reg (.xstat unit) &&& ~~~4)) := by
  simp only [execInvalidationDrainEnd, hd, h, Bool.false_eq_true, if_false]

/-- Settles O51: a window by the checks of R306 in their order; an invalidation through the units of its home. -/
theorem windowsAndInvalidations : Obligations.WindowsAndInvalidations := by
  intro home p w v unit off s h m open' top taken act put bad
  refine ⟨execPwinWrite_locked, execPwinWrite_host, fun ho hh => ⟨fun hb => ?refused, fun hb => ?inForce⟩,
    fun hu k hk => ⟨⟨_, if_neg (Nat.not_lt.mpr hu), State.dropEntries_drops s unit _ hk⟩,
      ⟨_, if_neg (Nat.not_lt.mpr hu), State.dropEntries_drops s unit _ hk⟩⟩,
    fun n hd => ⟨execInvalidationDrainEnd_waits hd, execInvalidationDrainEnd_ends hd⟩⟩
  case refused => exact execPwinWrite_refused ho (windowLimit_of_home hh) ((State.windowBad_iff (windowLimit_of_home hh) s p m).mpr hb)
  case inForce =>
    have hn : home.toNat ≠ 0x20 := by
      have : h = home.toNat := rfl
      omega
    exact execPwinWrite_inForce ho (windowLimit_of_home hh)
      (Bool.eq_false_iff.mpr (mt (State.windowBad_iff (windowLimit_of_home hh) s p m).mp hb)) hn

end Sys2Proof.Machine
end

section
/-! SUPPORT. Firmware updates, start-up, power and housekeeping (R336, R338, R339, R374–R376, R395–R398). -/

namespace Sys2Proof.Machine

/-! ### Live update (R338, R339, R374–R376) -/

theorem Fw.inHandover_iff (f : Fw) : f.inHandover = true ↔ f.st = .handover ∨ f.st = .serving ∨ f.st = .healthy := by
  cases h : f.st <;> simp [Fw.inHandover, h]

theorem State.acceptsImage_iff (s : State) (c : Controller) (version : Byte) (signed : Bool) :
    s.acceptsImage c version signed = true ↔
      signed = true ∧ version.toNat ≤ 128 ∧ (s.antiRollback (kindOf c)).toNat ≤ version.toNat := by
  simp only [State.acceptsImage, Bool.and_eq_true, decide_eq_true_eq, and_assoc]

/-- Another controller is between the quiesce and the commit or the revert of its own update. -/
def State.OtherInHandover (s : State) (c : Controller) : Prop :=
  ∃ x ∈ s.fw, x.1 ≠ c ∧ (x.2.st = .handover ∨ x.2.st = .serving ∨ x.2.st = .healthy)

theorem State.otherInHandover_iff (s : State) (c : Controller) :
    (s.fw.any fun x => x.1 != c && x.2.inHandover) = true ↔ s.OtherInHandover c := by
  simp only [List.any_eq_true, Bool.and_eq_true, bne_iff_ne, Fw.inHandover_iff, State.OtherInHandover]

section
variable {s : State} {c : Controller} {version : Byte} {signed : Bool}

theorem execFwVerify_idle (h : (s.firmware c).st = .idle) (hs : s.serves .security = true) :
    execFwVerify c version signed s = .next (s.putFw c { s.firmware c with
      standby := version, st := if s.acceptsImage c version signed then .verified else .rejected }) := by
  simp [execFwVerify, h, hs]

theorem execFwVerify_accepts (h : (s.firmware c).st = .idle) (hs : s.serves .security = true)
    (hg : signed = true ∧ version.toNat ≤ 128 ∧ (s.antiRollback (kindOf c)).toNat ≤ version.toNat) :
    execFwVerify c version signed s = .next (s.putFw c { s.firmware c with standby := version, st := .verified }) := by
  rw [execFwVerify_idle h hs, if_pos ((s.acceptsImage_iff c version signed).mpr hg)]

theorem execFwVerify_rejects (h : (s.firmware c).st = .idle) (hs : s.serves .security = true)
    (hg : ¬(signed = true ∧ version.toNat ≤ 128 ∧ (s.antiRollback (kindOf c)).toNat ≤ version.toNat)) :
    execFwVerify c version signed s = .next (s.putFw c { s.firmware c with standby := version, st := .rejected }) := by
  rw [execFwVerify_idle h hs, if_neg (mt (s.acceptsImage_iff c version signed).mp hg)]

theorem execFwHandover_ignored (h : s.OtherInHandover c) :
    execFwHandover c s = .next (s.putFw c { s.firmware c with busy := true }) :=
  if_pos ((s.otherInHandover_iff c).mpr h)

theorem execFwHandover_alone (h : ¬ s.OtherInHandover c) : execFwHandover c s =
    if (s.firmware c).st = .verified then .next (s.putFw c { s.firmware c with st := .handover }) else .next s :=
  if_neg (mt (s.otherInHandover_iff c).mp h)

/-- A request to a controller that is between two images is held. -/
theorem State.not_serves_of_handover (h : (s.firmware c).st = .handover) : s.serves c = false := by
  simp [State.serves, h]

theorem execKerase_held (h : (s.firmware .security).st = .handover) (v : W64) :
    execKerase v s = .next { s with heldReqs := s.heldReqs ++ [(.security, .kerase v)] } := by
  simp [execKerase, State.not_serves_of_handover h, State.holdRequest, h]

/-! #### Commit -/

theorem fwFind_map (g : Fw → Fw) (l : List (Controller × Fw)) {c : Controller} (hc : ∃ f, (c, f) ∈ l) :
    fwFind (l.map fun x => (x.1, g x.2)) c = g (fwFind l c) := by
  induction l with
  | nil => exact absurd hc.choose_spec List.not_mem_nil
  | cons x l ih =>
    obtain ⟨d, f⟩ := x
    by_cases hd : d = c
    · simp [fwFind, hd]
    · have hc' : ∃ f, (c, f) ∈ l := hc.imp fun f' hf => (List.mem_cons.mp hf).resolve_left fun h => hd (congrArg Prod.fst h).symm
      simp only [List.map_cons, fwFind, hd, if_false, ih hc']

/-- The image that was put, once no controller is BUSY. -/
theorem State.firmware_endBusy_putFw (s : State) (c : Controller) (f : Fw) :
    ((s.putFw c f).endBusy).firmware c = { f with busy := false } := by
  have hput : (s.putFw c f).firmware c = f := if_pos rfl
  refine (fwFind_map (fun f => { f with busy := false }) (s.putFw c f).fw ⟨f, List.mem_cons_self⟩).trans ?_
  exact congrArg (fun f : Fw => { f with busy := false }) hput

/-- A bank never falls, and a counter is raised to its version (R339). -/
theorem State.antiRollback_raiseCounter (s : State) (k : Nat) (v : Byte) :
    v.toNat ≤ ((s.raiseCounter k v).antiRollback k).toNat ∧ (s.antiRollback k).toNat ≤ ((s.raiseCounter k v).antiRollback k).toNat := by
  simp only [State.antiRollback, State.raiseCounter, tget_tput_same]
  generalize tget ((0, 0) : Byte × Byte) s.arb k = l
  obtain ⟨a, b⟩ := l
  dsimp only
  split_ifs <;> omega

/-- The state of a commit. -/
def State.committed (s : State) (c : Controller) : State :=
  ((s.raiseCounter (kindOf c) (s.firmware c).standby).putFw c
    { active := (s.firmware c).standby, standby := (s.firmware c).active, st := .idle }).endBusy

theorem execFwCommit_healthy (h : (s.firmware c).st = .healthy) : execFwCommit c s = .next (s.committed c) := if_pos h

theorem State.firmware_committed (s : State) (c : Controller) : (s.committed c).firmware c =
    { active := (s.firmware c).standby, standby := (s.firmware c).active, st := .idle, busy := false } :=
  State.firmware_endBusy_putFw ..

theorem State.antiRollback_committed (s : State) (c : Controller) (k : Nat) :
    (s.committed c).antiRollback k = (s.raiseCounter (kindOf c) (s.firmware c).standby).antiRollback k := rfl
end

/-! ### Start-up (R336, R395) -/

theorem execStartupStepComplete_plain {s : State} (h : s.devstat = 1 ∨ s.devstat = 2 ∨ s.devstat = 4 ∨ s.devstat = 5) :
    execStartupStepComplete s = .next { s with devstat := s.devstat + 1 } := by
  rcases h with h | h | h | h <;> simp [execStartupStepComplete, State.startupWork, h]

/-- The start-up measurement of each region on the list. -/
def State.measureAll (s : State) (l : List Nat) : State := l.foldl State.measureRegion s

theorem execStartupStepComplete_measures {s : State} (h : s.devstat = 3) :
    ∃ u, execStartupStepComplete s = .next u ∧ u.devstat = 4 ∧ ∀ r, u.region r = (s.measureAll (s.regions.map fun x => x.1)).region r := by
  have hdev : ∀ l s', State.devstat (State.measureAll s' l) = s'.devstat := fun l s' =>
    State.foldl_keeps State.devstat (f := State.measureRegion) (fun _ _ => rfl) l s'
  refine ⟨{ s.measureAll (s.regions.map fun x => x.1) with
    devstat := (s.measureAll (s.regions.map fun x => x.1)).devstat + 1 }, ?_, ?_, fun _ => rfl⟩
  · simp [execStartupStepComplete, State.startupWork, h, State.measureAll]
  · rw [hdev, h]
    rfl

/-- The measurement of one region: of its own digest alone, and of an open or locked one that is not sealed. -/
theorem State.measureRegion_other {s : State} {k r : Nat} (h : r ≠ k) : (s.measureRegion k).region r = s.region r := by
  rw [State.measureRegion, State.region_modRegion, if_neg h]

theorem State.measureRegion_same {s : State} {r : Nat} (hr : (s.region r).readable = true) (hs : (s.region r).sealed = false) :
    (s.measureRegion r).region r = { s.region r with digest := some (digestOf (s.measure r)) } := by
  rw [State.measureRegion, State.region_modRegion_same]
  simp [hr, hs]

theorem State.measure_measureRegion {s : State} {r : Nat} (hr : (s.region r).readable = true) (hs : (s.region r).sealed = false) (k : Nat) :
    (s.measureRegion k).measure r = s.measure r := by
  have hbytes : (s.measureRegion k).readBytes = s.readBytes := rfl
  by_cases hk : r = k
  · subst hk
    simp only [State.measure, State.measureRegion_same hr hs, hbytes]
  · simp only [State.measure, State.measureRegion_other hk, hbytes]

theorem State.digest_measureAll {r : Nat} (l : List Nat) (s : State) (hr : (s.region r).readable = true) (hs : (s.region r).sealed = false)
    (h : r ∈ l ∨ (s.region r).digest = some (digestOf (s.measure r))) :
    ((s.measureAll l).region r).digest = some (digestOf (s.measure r)) := by
  induction l generalizing s with
  | nil => exact h.resolve_left List.not_mem_nil
  | cons k l ih =>
    have hm := State.measure_measureRegion hr hs k
    rw [← hm]
    by_cases hk : r = k
    · subst hk
      have hg := State.measureRegion_same hr hs
      refine ih (s.measureRegion r) ?_ ?_ (Or.inr ?_)
      · rw [hg]; exact hr
      · rw [hg]; exact hs
      · rw [hg, hm]
    · have hg := State.measureRegion_other (s := s) hk
      refine ih (s.measureRegion k) ?_ ?_ ?_ <;> rw [hg]
      · exact hr
      · exact hs
      · rw [hm]
        exact h.imp_left fun h => (List.mem_cons.mp h).resolve_left hk

/-- A table with one entry of a key reads it. -/
theorem tget_of_single {α : Type} {d g : α} {l : List (Nat × α)} {r : Nat} (hm : (r, g) ∈ l)
    (h1 : (l.filter fun x => x.1 == r).length = 1) : tget d l r = g := by
  induction l with
  | nil => exact absurd hm List.not_mem_nil
  | cons x l ih =>
    obtain ⟨k, y⟩ := x
    by_cases hk : k = r
    · subst hk
      have hnone : l.filter (fun x => x.1 == k) = [] := by simpa using h1
      rcases List.mem_cons.mp hm with h | h
      · simp [tget, (Prod.mk.inj h).2]
      · have : (k, g) ∈ l.filter fun x => x.1 == k := List.mem_filter.mpr ⟨h, BEq.rfl⟩
        rw [hnone] at this
        exact absurd this List.not_mem_nil
    · have hm' : (r, g) ∈ l := (List.mem_cons.mp hm).resolve_left fun h => hk (congrArg Prod.fst h).symm
      have h1' : (l.filter fun x => x.1 == r).length = 1 := by simpa [List.filter_cons, hk] using h1
      rw [tget, if_neg hk]
      exact ih hm' h1'

/-! ### Power (R237, R338, R397) -/

theorem survives_iff (k : Nat) : survives k = true ↔ 2 ^ 64 ≤ k ∨ k / 2 ^ 57 = 0x10 ∨ k / 2 ^ 57 = 0x20 := by
  simp only [survives, Bool.or_eq_true, decide_eq_true_eq, beq_iff_eq, or_assoc]

theorem State.powerDown_memGet (s : State) (k : Nat) : memGet s.powerDown.mem k =
    if 2 ^ 64 ≤ k ∨ k / 2 ^ 57 = 0x10 ∨ k / 2 ^ 57 = 0x20 then memGet s.mem k else 0 := by
  simp only [← survives_iff]
  exact memGet_filter_key s.mem survives k

theorem State.powerDown_lmsLeaf (s : State) : s.lmsLeaf ≤ s.powerDown.lmsLeaf := by
  show s.lmsLeaf ≤ (s.lmsLeaf + 4095) / 4096 * 4096
  omega

/-! ### Housekeeping (R397, R398) -/

/-- A hot die's gap grows, as far as 48. -/
theorem nextGap_hot {gap : BitVec 6} (h : gap.toNat < 48) (z : Nat) :
    gap.toNat < (BitVec.ofNat 6 (nextGap true gap.toNat z)).toNat ∧ (BitVec.ofNat 6 (nextGap true gap.toNat z)).toNat ≤ 48 := by
  have hz : z % (48 - gap.toNat) < 48 - gap.toNat := Nat.mod_lt _ (by omega)
  simp only [nextGap, h, if_true, BitVec.toNat_ofNat]
  omega

/-- Another's does not. -/
theorem nextGap_cool (gap : BitVec 6) (z : Nat) : (BitVec.ofNat 6 (nextGap false gap.toNat z)).toNat ≤ gap.toNat :=
  (Nat.mod_le _ _).trans (Nat.lt_succ_iff.mp (Nat.mod_lt z (Nat.succ_pos gap.toNat)))

theorem State.reg_coolant (s : State) (e : BitVec 2) :
    ((List.range 4).foldl (fun s d => s.putReg (.pwrshare (BitVec.ofNat 2 d)) 100) s).reg (.pwrshare e) = 100 := by
  refine State.foldl_has (P := fun s => s.reg (.pwrshare e) = 100) (List.mem_range.mpr e.isLt) (fun s d h => ?_) (fun s => ?_) s
  · rw [State.reg_putReg]
    split
    · rfl
    · exact h
  · rw [BitVec.ofNat_toNat, BitVec.setWidth_eq, State.reg_putReg_same]

theorem exec_governorWindow (die : BitVec 2) (power : Nat) (temp : Byte) (s : State) : ∃ z : Nat, ∃ u,
    exec (.governorWindow die power temp) s = .next u ∧ (u.die die.toNat).tjMax = temp ∧ (u.die die.toNat).govGap =
      BitVec.ofNat 6 (nextGap (decide ((s.reg (.pwrshare die)).toNat < power) || decide (105 ≤ temp.toNat))
        (s.die die.toNat).govGap.toNat z) :=
  ⟨s.freeWord.1.toNat, _, rfl, congrArg Die.tjMax (State.die_modDie_same ..), congrArg Die.govGap (State.die_modDie_same ..)⟩

section
variable {s : State}

/-- What a removal of power leaves (R237, R338, R397). -/
def State.PoweredDown (s u : State) : Prop :=
  u.powered = false ∧ u.tiles = [] ∧ u.parts = [] ∧ u.keys = [] ∧ u.cfg = [] ∧ u.arb = s.arb ∧ s.lmsLeaf ≤ u.lmsLeaf ∧
    ∀ k, memGet u.mem k = if 2 ^ 64 ≤ k ∨ k / 2 ^ 57 = 0x10 ∨ k / 2 ^ 57 = 0x20 then memGet s.mem k else 0

theorem State.powerDown_poweredDown (s : State) : s.PoweredDown s.powerDown :=
  ⟨rfl, rfl, rfl, rfl, rfl, rfl, s.powerDown_lmsLeaf, s.powerDown_memGet⟩

theorem execPowerLoss_powered (h : s.powered = true) : execPowerLoss s = .next s.powerDown := if_pos h
theorem execThermalShutdown_powered (h : s.powered = true) : execThermalShutdown s = .next s.powerDown := if_pos h
end

/-- Settles O54: each signal by the state of its controller's update; start-up through the measurement of each region; power, the
governor and the coolant by what each leaves. -/
theorem firmwareAndPower : Obligations.FirmwareAndPower := by
  intro c version signed die power temp s f puts keeps ends served good other down
  refine ⟨fun hi hs => ⟨execFwVerify_accepts hi hs, execFwVerify_rejects hi hs⟩, fun hi => if_pos hi, execFwHandover_ignored,
    fun ho => ⟨fun hv => (execFwHandover_alone ho).trans (if_pos hv), fun hv => (execFwHandover_alone ho).trans (if_neg hv)⟩,
    fun hh => ⟨if_pos hh, if_pos hh⟩, execKerase_held, fun hh => ⟨if_neg hh, if_neg hh⟩, fun hv => ⟨if_pos hv, if_pos hv⟩,
    fun hv => ⟨if_neg hv, if_neg hv⟩, fun hh => ⟨_, execFwCommit_healthy hh, ?commit⟩, fun hh => if_neg hh, fun ha => if_pos ha,
    fun hp => if_neg (by simp [hp]), fun hp => if_pos hp, execStartupStepComplete_plain, fun hd => ?measures,
    fun hd => if_neg (Nat.not_lt.mpr hd), fun hp => ⟨_, execPowerLoss_powered hp, s.powerDown_poweredDown⟩,
    fun hp => ⟨_, execThermalShutdown_powered hp, s.powerDown_poweredDown⟩, ?governor,
    fun hm => ⟨_, if_pos hm, s.reg_coolant⟩⟩
  case commit =>
    rw [State.firmware_committed, State.antiRollback_committed]
    exact ⟨rfl, rfl, State.antiRollback_raiseCounter ..⟩
  case measures =>
    obtain ⟨u, hu, hdev, hreg⟩ := execStartupStepComplete_measures hd
    refine ⟨u, hu, hdev, fun r g hm h1 hr hs => ?_⟩
    have hg : s.region r = g := tget_of_single hm h1
    rw [hreg]
    exact State.digest_measureAll _ s (hg ▸ hr) (hg ▸ hs) (Or.inl (List.mem_map_of_mem hm))
  case governor =>
    intro hot gap
    obtain ⟨z, u, hu, htemp, hgap⟩ := exec_governorWindow die power temp s
    refine ⟨u, hu, htemp, fun hh hlt => ?_, fun hh => ?_⟩ <;> rw [hgap]
    · rw [show (decide _ || decide _) = true by simpa using hh]
      exact nextGap_hot hlt z
    · obtain ⟨hp, ht⟩ := not_or.mp hh
      rw [decide_eq_false hp, decide_eq_false ht]
      exact nextGap_cool _ z

end Sys2Proof.Machine
end

section
/-! SUPPORT. The security core: key slots, unsealing, measurements and sessions (R329, R330, R334, R337, R338, R393). -/

namespace Sys2Proof.Machine

section
variable {s : State} (hs : s.serves .security = true)
include hs

/-! ### Key slots (R329, R330) -/

theorem execKerase_serves (v : W64) : execKerase v s = .next { s with keys := tput s.keys (v.toNat % 64) {} } := by
  have hk : (v.extractLsb' 0 6).toNat = v.toNat % 64 := by simp
  rw [execKerase, if_pos hs, hk, State.putKey]

/-- What admits a KEY_LOAD, beside its session. -/
def State.AdmitsKey (s : State) (k : Nat) (kind : BitVec 2) (p : PartNo) (o q : W32) : Prop :=
  k < 64 ∧ (s.keySlot k).kind = 0 ∧ (s.part p).en = true ∧ (kind = 1 ∧ (s.part p).prot = true ∨ kind = 2 ∧ o ≠ q)

omit hs in
theorem State.keyRefused_iff (s : State) (k : Nat) (kind : BitVec 2) (p : PartNo) (o q : W32) :
    s.keyRefused k kind p o q = false ↔ s.AdmitsKey k kind p o q := by
  have hkind : kind = 0 ∨ kind = 1 ∨ kind = 2 ∨ kind = 3 := by revert kind; decide
  rcases hkind with rfl | rfl | rfl | rfl <;> simp [State.keyRefused, State.AdmitsKey, and_assoc]

section
variable {session k : Nat} {kind : BitVec 2} {p : PartNo} {key : W256} {o q : W32}

theorem execKeyLoad_no_session (h : s.session session = none) : execKeyLoad session k kind p key o q s = .next s := by
  simp only [execKeyLoad, hs, h, Option.isNone_none, Bool.not_true, Bool.true_or, Bool.false_eq_true, if_false, if_true]

theorem execKeyErase_no_session (h : s.session session = none) : execKeyErase session k s = .next s := by
  simp only [execKeyErase, hs, h, Option.isSome_none, Bool.not_true, Bool.false_and, Bool.false_eq_true, if_false]

theorem execKeyLoad_refused (h : ¬ s.AdmitsKey k kind p o q) : execKeyLoad session k kind p key o q s = .next s := by
  have hr : s.keyRefused k kind p o q = true := Bool.not_eq_false _ ▸ mt (s.keyRefused_iff k kind p o q).mp h
  simp only [execKeyLoad, hs, hr, Bool.or_true, Bool.not_true, Bool.false_eq_true, if_false, if_true]

theorem execKeyErase_other (h : (s.keySlot k).loader ≠ some session) : execKeyErase session k s = .next s := by
  simp only [execKeyErase, hs, beq_eq_false_iff_ne.mpr h, Bool.and_false, Bool.not_true, Bool.false_eq_true, if_false]

section
variable {x : Session} (hx : s.session session = some x)
include hx

theorem execKeyLoad_admitted (h : s.AdmitsKey k kind p o q) : execKeyLoad session k kind p key o q s = .next (s.putKeySlot k
    { kind := kind, part := p, key := key, openStream := if kind = 2 then o else 0, sealStream := if kind = 2 then q else 0,
      loader := some session }) := by
  simp only [execKeyLoad, hs, hx, (s.keyRefused_iff k kind p o q).mpr h, Option.isNone_some, Bool.not_true, Bool.or_self,
    Bool.false_eq_true, if_false]
  rfl

theorem execKeyErase_loader (h : (s.keySlot k).loader = some session) : execKeyErase session k s = .next (s.putKeySlot k {}) := by
  simp only [execKeyErase, hs, hx, h, Option.isSome_some, BEq.rfl, Bool.and_self, Bool.not_true, Bool.false_eq_true, if_false, if_true]
  rfl

end
end

/-! ### Unsealing (R334) -/

/-- What lets a sealed region open, beside the session's signed answer. -/
def State.Opens (s : State) (w : BitVec 40) (p : PartNo) (model : W256) (d : BitVec 384) : Prop :=
  wAddrBad (w.setWidth 64) = false ∧ (s.region (regionNo w.toNat)).st = .locked ∧ regionNo w.toNat ≠ lmsRegion ∧
    (s.region (regionNo w.toNat)).v = true ∧ (s.region (regionNo w.toNat)).part = p ∧ (s.part p).en = true ∧ (s.part p).prot = true ∧
    (s.region (regionNo w.toNat)).model = model ∧ (s.region (regionNo w.toNat)).digest = some d ∧
    (s.region (regionNo w.toNat)).differs = false

omit hs in
theorem State.opens_iff (s : State) (w : BitVec 40) (p : PartNo) (model : W256) (d : BitVec 384) :
    (!wAddrBad (w.setWidth 64) && s.mayUnseal (regionNo w.toNat) p model d) = true ↔ s.Opens w p model d := by
  simp only [State.mayUnseal, Region.ownedBy, State.Opens, Bool.and_eq_true, Bool.not_eq_true', beq_iff_eq, bne_iff_ne, and_assoc]

section
variable {session : Nat} {w : BitVec 40} {p : PartNo} {model : W256} {d : BitVec 384}

theorem execUnsealModel_no_session (h : s.session session = none) : execUnsealModel session w p model d s = .next s := by
  simp only [execUnsealModel, hs, h, Bool.not_true, Bool.false_and, Bool.false_eq_true, if_false]

section
variable {x : Session} (hx : s.session session = some x)
include hx

theorem execUnsealModel_opens (h : x.measured = true ∧ s.Opens w p model d) : execUnsealModel session w p model d s =
    .next (s.modRegion (regionNo w.toNat) fun g => { g with st := .opened }) := by
  obtain ⟨hm, ho⟩ := h
  simp only [execUnsealModel, hs, hx, hm, (s.opens_iff w p model d).mpr ho, Bool.and_assoc, Bool.and_self, Bool.not_true,
    Bool.false_eq_true, if_false, if_true]
  rfl

theorem execUnsealModel_refused (h : ¬(x.measured = true ∧ s.Opens w p model d)) : execUnsealModel session w p model d s = .next s := by
  have hr : (x.measured && (!wAddrBad (w.setWidth 64) && s.mayUnseal (regionNo w.toNat) p model d)) = false := by
    rw [Bool.eq_false_iff, Ne, Bool.and_eq_true, s.opens_iff]
    exact h
  simp only [execUnsealModel, hs, hx, Bool.and_assoc, hr, Bool.not_true, Bool.false_eq_true, if_false]
end
end

/-! ### Measurements and sessions (R337, R338, R393) -/

section
variable {session : Nat}

omit hs in
theorem execGetMeasurements_no_session (h : s.session session = none) (i : Byte) : execGetMeasurements session i s = .next s := by
  simp only [execGetMeasurements, h]

theorem execGetMeasurements_signs {x : Session} {i : Byte} {bs : Bytes} (hx : s.session session = some x)
    (hb : s.measurements i.toNat = some bs) : execGetMeasurements session i s = .next { s with
      fresh := s.fresh + 1, lmsLeaf := s.lmsLeaf + 1, sessions := tput s.sessions session { x with measured := true }
      responses := (session, bs.map (BitVec.ofNat 8) ++ Config.freeSignature s.fresh) :: s.responses } := by
  simp only [execGetMeasurements, hx, hb, hs, if_true]
  rfl

theorem execGetManifest_no_session (h : s.session session = none) : execGetManifest session s = .next s := by
  simp only [execGetManifest, hs, h, Option.isSome_none, Bool.not_true, Bool.false_eq_true, if_false]

theorem execGetManifest_session {x : Session} (hx : s.session session = some x) : execGetManifest session s =
    .next { s with responses := (session, s.manifest.map (BitVec.ofNat 8)) :: s.responses } := by
  simp only [execGetManifest, hs, hx, Option.isSome_some, Bool.not_true, Bool.false_eq_true, if_false, if_true]
  rfl

theorem execSpdmKeyExchange_alone :
    execSpdmKeyExchange session none true s = .next { s with sessions := tput s.sessions session { peer := none } } := by
  simp only [execSpdmKeyExchange, hs, Bool.not_true, Bool.false_eq_true, if_false, if_true]

theorem execSpdmKeyExchange_peer (n : BitVec 6) : execSpdmKeyExchange session (some n) true s =
    .next (State.keyPorts { s with sessions := tput s.sessions session { peer := some n } } n) := by
  simp only [execSpdmKeyExchange, hs, Bool.not_true, Bool.false_eq_true, if_false, if_true]

theorem execSpdmKeyExchange_ends (peer : Option (BitVec 6)) : execSpdmKeyExchange session peer false s =
    .next { s with sessions := s.sessions.filter fun (x : Nat × Session) => x.1 != session } := by
  simp only [execSpdmKeyExchange, hs, Bool.not_true, Bool.false_eq_true, if_false]
end
end

/-- The ports of the route to a peer have their keys. -/
theorem State.keyPorts_keyed (s : State) (n : BitVec 6) {j : Nat} (hj : j < 48) (h : (s.reg (.vroute n)).getLsbD j = true) :
    (tget ({} : Port) (s.keyPorts n).ports j).keyed = true := by
  have hreg : (s.keyPorts n).reg (.vroute n) = s.reg (.vroute n) :=
    State.foldl_keeps (fun s => s.reg (.vroute n)) (fun s i => by dsimp only; split <;> rfl) _ s
  refine State.foldl_has (P := fun s : State => (s.reg (.vroute n)).getLsbD j = true → (tget ({} : Port) s.ports j).keyed = true)
    (List.mem_range.mpr hj) (fun s i ih => ?_) (fun s => ?_) s (hreg ▸ h)
  · split
    · intro hb
      rw [tget_tput]
      split
      · rfl
      · exact ih hb
    · exact ih
  · split
    · intro _
      rw [tget_tput_same]
    · next hb => exact fun h => absurd h hb

/-- Settles O53: each request by its session and by its own checks. -/
theorem keysAndMeasurements : Obligations.KeysAndMeasurements := by
  intro session k kind p key model o q w d i peer v s y load erase admits r g opens open' asks hs
  refine ⟨execKerase_serves hs v, fun h => ⟨execKeyLoad_no_session hs h, execKeyErase_no_session hs h,
      execUnsealModel_no_session hs h, execGetMeasurements_no_session h i, execGetManifest_no_session hs h⟩,
    fun x hx => ⟨execKeyLoad_admitted hs hx, execKeyLoad_refused hs, execKeyErase_loader hs hx, execKeyErase_other hs,
      execUnsealModel_opens hs hx, execUnsealModel_refused hs hx, fun bs hb => execGetMeasurements_signs hs hx hb,
      execGetManifest_session hs hx⟩, fun hp => ?alone, fun n hp => ?peer, execSpdmKeyExchange_ends hs peer⟩
  case alone =>
    subst hp
    exact execSpdmKeyExchange_alone hs
  case peer =>
    subst hp
    exact ⟨_, execSpdmKeyExchange_peer hs n, fun j hj h => State.keyPorts_keyed _ n hj h⟩

end Sys2Proof.Machine
end

section
/-! SUPPORT. The weight engine of a die: the offer that it takes next, the start and the end of its commands, and scrubbing
(R318–R321, R323–R328, R333). -/

namespace Sys2Proof.Machine

/-! ### Acceptance (R323) -/

/-- The tile whose turn comes i places after the one that the engine accepted last. -/
def State.weightTurn (s : State) (d i : Nat) : Nat := d * 48 + ((s.die d).wLast + 1 + i) % 48

/-- The weight command that a tile's core offers, with its tile. -/
def State.weightOffer (s : State) (t : Nat) : Option (Nat × Offer) :=
  ((s.offerOf t).filter fun o => isWeightCommand o.instr).map fun o => (t, o)

theorem State.weightOffer_eq_none {s : State} {t : Nat} (h : ∀ o, s.offerOf t = some o → isWeightCommand o.instr = false) :
    s.weightOffer t = none :=
  Option.map_eq_none_iff.mpr (Option.filter_eq_none_iff.mpr fun o ho => by rw [h o ho]; exact Bool.false_ne_true)

theorem State.weightOffer_eq_some {s : State} {t : Nat} {o : Offer} (ho : s.offerOf t = some o) (hw : isWeightCommand o.instr = true) :
    s.weightOffer t = some (t, o) := by
  rw [State.weightOffer, ho, Option.filter_some, if_pos hw, Option.map_some]

/-- Tile t's offer is the next that the engine of die d takes. -/
def State.WeightNext (s : State) (d t : Nat) (o : Offer) : Prop :=
  ((List.range 48).map (s.weightTurn d)).findSome? s.weightOffer = some (t, o)

/-- Tile t becomes the one that the engine accepted last. -/
def State.weightTook (s : State) (d t : Nat) : State := s.modDie d fun y => { y with wLast := t }

theorem Region.readable_iff (g : Region) : g.readable = true ↔ g.st = .opened ∨ g.st = .locked := by
  simp only [Region.readable, Bool.or_eq_true, beq_iff_eq]

theorem Region.not_readable {g : Region} (h : g.st = .free ∨ g.st = .programming) : ¬ g.readable = true := by
  rcases h with h | h <;> simp [Region.readable, h]

section
variable {s : State} {d : Nat} (hs : s.serves (.programming (BitVec.ofNat 2 d)) = true)
include hs

section
variable {t : Nat} {o : Offer} (hdev : 4 ≤ s.devstat.toNat) (hroom : (s.die d).wq.length < 64) (hnext : s.WeightNext d t o)
include hdev hroom hnext

theorem exec_weightCommandAccept_of_bad {f : FaultName} (hbad : s.weightBad d (s.slot t (s.run t)).part o = some f) :
    exec (.weightCommandAccept d) s = .next ((s.weightTook d t).modSlot t (s.run t) fun x => x.trap f o.x 0) := by
  have hbad' : (s.weightTook d t).weightBad d (s.slot t (s.run t)).part o = some f := hbad
  show execWeightCommandAccept d s = _
  unfold State.WeightNext State.weightOffer State.weightTurn at hnext
  unfold State.weightTook at hbad' ⊢
  simp only [execWeightCommandAccept, decide_eq_false (Nat.not_lt.mpr hdev), decide_eq_false (Nat.not_le.mpr hroom), hs, Bool.not_true,
    Bool.or_self, Bool.false_eq_true, if_false, hnext, hbad']

/-- The command that an accepted offer of tile t's core becomes, a task of number n having issued it. -/
def State.weightCmd (s : State) (t n : Nat) (o : Offer) : WCmd :=
  { id := s.nextNum, tile := t, slot := s.run t, task := n, part := (s.slot t (s.run t)).part, offer := o }

theorem exec_weightCommandAccept_of_good (hgood : s.weightBad d (s.slot t (s.run t)).part o = none) {k : Task}
    (hk : (s.slot t (s.run t)).task = some k) : exec (.weightCommandAccept d) s =
      .next ((({ s.weightTook d t with nextNum := s.nextNum + 1 } : State).modSlot t (s.run t) Slot.release).modDie d fun y =>
        { y with wq := y.wq ++ [s.weightCmd t k.num o] }) := by
  have hgood' : (s.weightTook d t).weightBad d (s.slot t (s.run t)).part o = none := hgood
  show execWeightCommandAccept d s = _
  unfold State.WeightNext State.weightOffer State.weightTurn at hnext
  unfold State.weightTook at hgood' ⊢
  simp only [execWeightCommandAccept, decide_eq_false (Nat.not_lt.mpr hdev), decide_eq_false (Nat.not_le.mpr hroom), hs, Bool.not_true,
    Bool.or_self, Bool.false_eq_true, if_false, hnext, hgood', hk]
  rfl
end

section
variable {c : WCmd} {r : List WCmd} (hq : (s.die d).wq = c :: r)
include hq

/-! ### Start (R325–R328, R333) -/

section
variable (hc : c.started = false) (hrel : s.releasedFor d c.task c.offer.num = true)
include hc hrel

theorem exec_weightCommandStart_wprog {sa : SReg} {h : HReg} {e : Eng} (hi : c.offer.instr = .wprog sa h e) :
    exec (.weightCommandStart d) s =
      if (s.region c.region).st = .locked ∨ (s.region c.region).sealed = true ∨ (s.region c.region).st = .programming then
        .next (s.endWeight d c 4)
      else .next ((s.setRegSt c.region .programming).markStarted d c) := by
  show execWeightCommandStart d s = _
  simp only [execWeightCommandStart, hq, hc, hs, hrel, hi, Bool.not_true, Bool.or_self, Bool.false_eq_true, if_false]

theorem exec_weightCommandStart_wprogs {sa sb : SReg} {h : HReg} {e : Eng} (hi : c.offer.instr = .wprogs sa h sb e)
    (hst : (s.region c.region).st ≠ .free) : exec (.weightCommandStart d) s = .next (s.endWeight d c 4) := by
  show execWeightCommandStart d s = _
  simp only [execWeightCommandStart, hq, hc, hs, hrel, hi, Bool.not_true, Bool.or_self, Bool.false_eq_true, if_false, State.startSealed,
    if_pos hst]

theorem exec_weightCommandStart_wfree {sa : SReg} {e : Eng} (hi : c.offer.instr = .wfree sa e) : exec (.weightCommandStart d) s =
      if (s.region c.region).st = .programming then .next (s.endWeight d c 4)
      else .next ((s.modRegion c.region fun g => { g with st := .free, sealed := false, digest := none }).markStarted d c) := by
  show execWeightCommandStart d s = _
  simp only [execWeightCommandStart, hq, hc, hs, hrel, hi, Bool.not_true, Bool.or_self, Bool.false_eq_true, if_false]

theorem exec_weightCommandStart_reads {h : HReg} {sa : SReg} {e : Eng}
    (hi : c.offer.instr = .wmeas h sa e ∨ c.offer.instr = .wchk h sa e ∨ c.offer.instr = .wscrub sa e) :
    exec (.weightCommandStart d) s =
      if (s.region c.region).readable then .next (s.markStarted d c) else .next (s.endWeight d c 4) := by
  show execWeightCommandStart d s = _
  rcases hi with hi | hi | hi <;>
    simp only [execWeightCommandStart, hq, hc, hs, hrel, hi, Bool.not_true, Bool.or_self, Bool.false_eq_true, if_false]
end

/-! ### Completion (R326, R327) -/

section
variable (hc : c.started = true) (l : LineFacts)
include hc

/-- The engine's lines stay unevaluated: `rw` takes the outcome of their programming from its equation. -/
theorem exec_weightCommandComplete_wfree {sa : SReg} {e : Eng} (hi : c.offer.instr = .wfree sa e) {ok : Bool} {u : State}
    (hz : s.zeroLines c.region l = (ok, u)) :
    exec (.weightCommandComplete d l) s = .next (u.endWeight d c (if ok then 0 else 1)) := by
  show execWeightCommandComplete d l s = _
  unfold execWeightCommandComplete
  rw [hq]
  refine (if_neg (by simp [hc, hs])).trans ?_
  rw [hi, hz]

theorem exec_weightCommandComplete_wmeas {h : HReg} {sa : SReg} {e : Eng} (hi : c.offer.instr = .wmeas h sa e) :
    exec (.weightCommandComplete d l) s = .next (s.endMeasure d c l false) := by
  show execWeightCommandComplete d l s = _
  simp only [execWeightCommandComplete, hq, hc, hs, hi, Bool.not_true, Bool.or_self, Bool.false_eq_true, if_false]

theorem exec_weightCommandComplete_wchk {h : HReg} {sa : SReg} {e : Eng} (hi : c.offer.instr = .wchk h sa e) :
    exec (.weightCommandComplete d l) s = .next (s.endMeasure d c l true) := by
  show execWeightCommandComplete d l s = _
  simp only [execWeightCommandComplete, hq, hc, hs, hi, Bool.not_true, Bool.or_self, Bool.false_eq_true, if_false]
end
end
end

/-! #### The measurement (R320, R327) -/

/-- The region of a measurement, its lines that can no longer be corrected poisoned. -/
def State.reread (s : State) (k : Nat) (l : LineFacts) : State := s.modRegion k fun g => g.poisonLines l

section
variable {s : State} {d : Nat} {c : WCmd} {l : LineFacts}

theorem State.endMeasure_poisoned (h : ((s.reread c.region l).region c.region).bad ≠ []) (check : Bool) :
    s.endMeasure d c l check = (s.reread c.region l).abortWeight d c .hwPoison c.offer.x 0 := by
  refine if_pos ?_
  rw [Bool.not_eq_true', List.isEmpty_eq_false_iff]
  exact h

section
variable (h : ((s.reread c.region l).region c.region).bad = []) {t b : Nat} {w : State} {a : W64}
  (hp : (s.reread c.region l).weightPlace d c = .ok (t, b))
  (hw : (s.reread c.region l).putHandleBytes c t b ((s.reread c.region l).measure c.region) 0 = (.ok (), a, w))
include h hp hw

theorem State.endMeasure_checks : s.endMeasure d c l true = w.endWeight d c ((w.region c.region).digest.elim 6 fun x =>
    if x = digestOf ((s.reread c.region l).measure c.region) then 0 else 5) := by
  unfold State.reread at h hp hw ⊢
  simp only [State.endMeasure, h, hp, hw, List.isEmpty_nil, Bool.not_true, Bool.false_eq_true, if_false, if_true]
  cases (w.region c.region).digest <;> rfl

theorem State.endMeasure_records : s.endMeasure d c l false = (w.modRegion c.region fun g =>
    if g.sealed then g else { g with digest := some (digestOf ((s.reread c.region l).measure c.region)) }).endWeight d c 0 := by
  unfold State.reread at h hp hw ⊢
  simp only [State.endMeasure, h, hp, hw, List.isEmpty_nil, Bool.not_true, Bool.false_eq_true, if_false]
end
end

/-! ### Scrubbing (R320, R328) -/

theorem State.scrub_few (s : State) (k i : Nat) {errs : Nat} (h : errs ≤ 8) (fails : Nat) : s.scrub k i errs fails = (true, s) := by
  have h16 : ¬ 16 < errs := by omega
  simp [State.scrub, h, h16]

theorem State.scrub_lost (s : State) (k i : Nat) {errs : Nat} (h : 16 < errs) (fails : Nat) :
    s.scrub k i errs fails = (true, s.modRegion k fun g => g.poison i) := if_pos h

/-- No weight command is being performed. -/
theorem exec_scrubLine {s : State} {t : Nat} {region : BitVec 5}
    (hs : s.serves (.programming (BitVec.ofNat 2 (dieOf t))) = true) (hq : ∀ c ∈ (s.die (dieOf t)).wq, c.started = false)
    (hr : (s.region (t * 32 + region.toNat)).readable = true) (line : BitVec 14) (errs bad : Nat) :
    exec (.scrubLine t region line errs bad) s = .next (s.scrub (t * 32 + region.toNat) line.toNat errs bad).2 := by
  show execScrubLine t region line errs bad s = _
  cases hw : (s.die (dieOf t)).wq with
  | nil => simp only [execScrubLine, hs, hr, hw, Bool.not_true, Bool.or_self, Bool.and_false, Bool.false_eq_true, if_false]
  | cons c l =>
    have hc : c.started = false := hq c (hw ▸ List.mem_cons_self)
    simp only [execScrubLine, hs, hr, hw, hc, Bool.not_true, Bool.or_self, Bool.and_false, Bool.false_eq_true, if_false]

/-- Settles O46: the engine's acceptance, start and completion, each by its own rules; the scrubber beside them. -/
theorem weightCommandsRun : Obligations.WeightCommandsRun := by
  intro d s hs turn
  refine ⟨?accept, fun c r hq hc hrel => ?start, fun c r l hq hc => ?complete, ?scrub⟩
  case accept =>
    intro hdev hroom i hi o hbefore ho hwc t b x u acc
    have hnext : s.WeightNext d t o := findSome?_map_range hi (fun j hj => State.weightOffer_eq_none (hbefore j hj))
      (State.weightOffer_eq_some ho hwc)
    exact ⟨fun f hbad => exec_weightCommandAccept_of_bad hs hdev hroom hnext hbad,
      fun hgood k hk => exec_weightCommandAccept_of_good hs hdev hroom hnext hgood hk⟩
  case start =>
    intro k g act begins
    refine ⟨fun sa h e hi => ?_, fun sa h sb e hi hst => exec_weightCommandStart_wprogs hs hq hc hrel hi hst, fun sa e hi => ?_,
      fun h sa e hi => ?_⟩
    · have hact := exec_weightCommandStart_wprog hs hq hc hrel hi
      exact ⟨fun hg => hact.trans (if_pos hg), fun hl hsealed hp => hact.trans (if_neg (by simp [g, k, hl, hsealed, hp]))⟩
    · have hact := exec_weightCommandStart_wfree hs hq hc hrel hi
      exact ⟨fun hg => hact.trans (if_pos hg), fun hg => hact.trans (if_neg hg)⟩
    · have hact := exec_weightCommandStart_reads hs hq hc hrel hi
      exact ⟨fun hg => hact.trans (if_pos ((Region.readable_iff _).mpr hg)), fun hg => hact.trans (if_neg (Region.not_readable hg))⟩
  case complete =>
    intro k act
    refine ⟨fun sa e hi => exec_weightCommandComplete_wfree hs hq hc l hi Prod.mk.eta.symm, fun h sa e hi => ?_⟩
    intro u D
    refine ⟨fun hbad => ?_, ?_⟩
    · rcases hi with hi | hi
      · exact (exec_weightCommandComplete_wchk hs hq hc l hi).trans (congrArg _ (State.endMeasure_poisoned hbad true))
      · exact (exec_weightCommandComplete_wmeas hs hq hc l hi).trans (congrArg _ (State.endMeasure_poisoned hbad false))
    · intro hgood t b w a hp hw
      refine ⟨fun hi => ?_, fun hi => (exec_weightCommandComplete_wmeas hs hq hc l hi).trans
        (congrArg _ (State.endMeasure_records hgood hp hw))⟩
      have hact := (exec_weightCommandComplete_wchk hs hq hc l hi).trans (congrArg _ (State.endMeasure_checks hgood hp hw))
      have hD : digestOf ((s.reread c.region l).measure c.region) = D := rfl
      rw [hD] at hact
      exact ⟨fun hd => hact.trans (by rw [hd, Option.elim_none]), fun hd => hact.trans (by rw [hd, Option.elim_some, if_pos rfl]),
        fun D' hd hn => hact.trans (by rw [hd, Option.elim_some, if_neg hn])⟩
  case scrub =>
    intro t r line errs bad hd hq k act hst
    subst hd
    have hact := exec_scrubLine hs hq ((Region.readable_iff _).mpr hst) line errs bad
    exact ⟨fun h => hact.trans (by rw [State.scrub_few s _ _ h]), fun h => hact.trans (by rw [State.scrub_lost s _ _ h])⟩

end Sys2Proof.Machine
end
